-- ==== Sys2Proof/Word.lean ====
section
/-! DEFINITION. The word types of the part (R2, R50) and the plainest operations on them. -/

namespace Sys2Proof

/-- A byte; multi-byte values are little-endian (R2). -/
abbrev Byte := BitVec 8
/-- A 64-bit word: a g register, an address, a message word (R50). -/
abbrev Word := BitVec 64
/-- A 512-bit vector register (R50), a task frame (R31), a job card (R166). -/
abbrev V512 := BitVec 512
/-- Number of a g register (R245). -/
abbrev GReg := BitVec 5
/-- Number of a v register (R245). -/
abbrev VReg := BitVec 4
/-- Number of an m register (R245). -/
abbrev MReg := BitVec 3
/-- Number of a k register (R245). -/
abbrev KReg := BitVec 3
/-- Number of a scan-core x register (R218). -/
abbrev XReg := BitVec 5

/-- Sparse data by key: pairs in strictly rising key order. -/
abbrev Map (α : Type) := List (Nat × α)

end Sys2Proof
end

