-- ==== Sys2Proof/Syntax.lean ====
section
/-! DEFINITION. The steps of the part: one constructor for each row of spec/opcode_table.json.
The first group are the Flongeten instructions of the barrel cores (R242 to R250), the second the
custom instructions of the scan cores (R220, R221), the third the events of the part's own units.
An event carries no
fields here: what it concerns (an index, the value a register write carries, the bytes that arrive)
stands in the field `input` of State when the step takes it. -/

namespace Sys2Proof

/-- Sizes of LD and LDAQ: 0 b, 1 h, 2 w, 3 d sign-extending, 4 bz, 5 hz, 6 wz zero-extending (R249, R293). -/
inductive LdSize where
  | b | h | w | d | bz | hz | wz
  deriving DecidableEq, Repr

/-- Sizes of ST and STRL (R249). -/
inductive StSize where
  | b | h | w | d
  deriving DecidableEq, Repr

/-- Ordering scopes (R117). -/
inductive Scope where
  | slot | core | clu | chip | pair
  deriving DecidableEq, Repr

/-- Ordering of an AMO, F[10:9] (R122, R252). -/
inductive AmoOrd where
  | relaxed | acq | rel | ar
  deriving DecidableEq, Repr

/-- Precisions of FP and FMA (R249, R280). -/
inductive Prec where
  | f32 | f64 | f16 | bf16
  deriving DecidableEq, Repr

/-- Integer types of FCVT.I and FCVT.F (R283). -/
inductive IntTy where
  | i64 | i32 | i16 | i8 | n8
  deriving DecidableEq, Repr

/-- Vector element types (R247). -/
inductive VTy where
  | f32 | bf16 | f16 | fp8a | fp8b | i32 | i16 | i8
  deriving DecidableEq, Repr

/-- Packed formats of the vector conversions (R320). -/
inductive PFmt where
  | f32 | bf16 | f16 | fp8a | fp8b | i32 | i16 | i8 | fp6a | fp6b | fp4 | i4 | n8 | n4
  deriving DecidableEq, Repr

/-- Conditions of VCMP (R326). -/
inductive VCond where
  | eq | ne | lt | le | ltu | leu
  deriving DecidableEq, Repr

/-- Levels of work named by TSKST and CANCEL (R351, R375). -/
inductive Level where
  | launch | graph | phase | job
  deriving DecidableEq, Repr

/-- Operations of a reduction (R376, R377). -/
inductive RedOp where
  | addF32 | addI32 | maxF32 | maxI32
  deriving DecidableEq, Repr

/-- The steps of the part, in the order of the table. -/
inductive Instr where
  /-- R263 -/
  | nop
  /-- R264 -/
  | halt
  /-- R264 -/
  | trapi (n : BitVec 6) (a : GReg)
  /-- R264 -/
  | bkpt (n : BitVec 6)
  /-- R265 -/
  | mfs (d : GReg) (n : BitVec 6)
  /-- R265 -/
  | mts (n : BitVec 6) (a : GReg)
  /-- R266 -/
  | mfc (d : GReg) (n : BitVec 6)
  /-- R266 -/
  | mtc (n : BitVec 6) (a : GReg)
  /-- R269 -/
  | idle
  /-- R267 -/
  | slotid (d : GReg)
  /-- R268 -/
  | purge (first last : BitVec 5) (vec : Bool)
  /-- R270 -/
  | add (d a b : GReg)
  /-- R270 -/
  | sub (d a b : GReg)
  /-- R270 -/
  | and (d a b : GReg)
  /-- R270 -/
  | or (d a b : GReg)
  /-- R270 -/
  | xor (d a b : GReg)
  /-- R270 -/
  | andn (d a b : GReg)
  /-- R270 -/
  | orn (d a b : GReg)
  /-- R270 -/
  | sll (d a b : GReg)
  /-- R270 -/
  | srl (d a b : GReg)
  /-- R270 -/
  | sra (d a b : GReg)
  /-- R270 -/
  | rotr (d a b : GReg)
  /-- R270 -/
  | slt (d a b : GReg)
  /-- R270 -/
  | sltu (d a b : GReg)
  /-- R270 -/
  | seq (d a b : GReg)
  /-- R270 -/
  | min (d a b : GReg)
  /-- R270 -/
  | max (d a b : GReg)
  /-- R270 -/
  | minu (d a b : GReg)
  /-- R270 -/
  | maxu (d a b : GReg)
  /-- R270 -/
  | mul (d a b : GReg)
  /-- R270 -/
  | mulh (d a b : GReg)
  /-- R270 -/
  | mulhu (d a b : GReg)
  /-- R271 -/
  | div (d a b : GReg)
  /-- R271 -/
  | divu (d a b : GReg)
  /-- R271 -/
  | rem (d a b : GReg)
  /-- R271 -/
  | remu (d a b : GReg)
  /-- R270 -/
  | clz (d a : GReg)
  /-- R270 -/
  | ctz (d a : GReg)
  /-- R270 -/
  | popc (d a : GReg)
  /-- R270 -/
  | bswap (d a : GReg)
  /-- R270 -/
  | sel (d a b c : GReg)
  /-- R270 -/
  | shadd (d a b : GReg) (k : BitVec 5)
  /-- R272 -/
  | addi (d a : GReg) (imm : BitVec 16)
  /-- R272 -/
  | andi (d a : GReg) (imm : BitVec 16)
  /-- R272 -/
  | ori (d a : GReg) (imm : BitVec 16)
  /-- R272 -/
  | xori (d a : GReg) (imm : BitVec 16)
  /-- R272 -/
  | slti (d a : GReg) (imm : BitVec 16)
  /-- R272 -/
  | sltiu (d a : GReg) (imm : BitVec 16)
  /-- R273 -/
  | slli (d a : GReg) (k : BitVec 6)
  /-- R273 -/
  | srli (d a : GReg) (k : BitVec 6)
  /-- R273 -/
  | srai (d a : GReg) (k : BitVec 6)
  /-- R273 -/
  | rotri (d a : GReg) (k : BitVec 6)
  /-- R274 -/
  | li (d : GReg) (imm : BitVec 21)
  /-- R274 -/
  | lim (d : GReg) (imm : BitVec 21)
  /-- R274 -/
  | lih (d : GReg) (imm : BitVec 21)
  /-- R274 -/
  | addpc (d : GReg) (imm : BitVec 21)
  /-- R275 -/
  | bfx (d a : GReg) (l p : BitVec 6)
  /-- R275 -/
  | bfi (d a : GReg) (l p : BitVec 6)
  /-- R276 -/
  | beq (a b : GReg) (disp : BitVec 16)
  /-- R276 -/
  | bne (a b : GReg) (disp : BitVec 16)
  /-- R276 -/
  | blt (a b : GReg) (disp : BitVec 16)
  /-- R276 -/
  | bge (a b : GReg) (disp : BitVec 16)
  /-- R276 -/
  | bltu (a b : GReg) (disp : BitVec 16)
  /-- R276 -/
  | bgeu (a b : GReg) (disp : BitVec 16)
  /-- R277 -/
  | bful (a : GReg) (disp : BitVec 16)
  /-- R277 -/
  | bemp (a : GReg) (disp : BitVec 16)
  /-- R278 -/
  | j (disp : BitVec 26)
  /-- R278 -/
  | jal (disp : BitVec 26)
  /-- R278 -/
  | jalr (d a : GReg) (imm : BitVec 16)
  /-- R336 -/
  | rep (count : BitVec 6) (sd sa sb sc len : BitVec 4)
  /-- R293 -/
  | ld (t base : GReg) (nud : BitVec 5) (sz : LdSize) (off : BitVec 8)
  /-- R293 -/
  | st (t base : GReg) (nud : BitVec 5) (sz : StSize) (off : BitVec 8)
  /-- R294 -/
  | ldv (t : VReg) (base : GReg) (nud : BitVec 5) (off : BitVec 8)
  /-- R294 -/
  | stv (t : VReg) (base : GReg) (nud : BitVec 5) (off : BitVec 8)
  /-- R293 -/
  | ldaq (t base : GReg) (nud : BitVec 5) (sz : LdSize) (scope : Scope) (off : BitVec 5)
  /-- R293 -/
  | strl (t base : GReg) (nud : BitVec 5) (sz : StSize) (scope : Scope) (off : BitVec 5)
  /-- R296 -/
  | gath (d : VReg) (a : GReg) (b : VReg) (m : MReg) (dword : Bool) (sh : BitVec 2) (nud : BitVec 5)
  /-- R296 -/
  | scat (d : VReg) (a : GReg) (b : VReg) (m : MReg) (dword : Bool) (sh : BitVec 2) (nud : BitVec 5)
  /-- R298 -/
  | ldfe (t base : GReg) (nud : BitVec 5) (off : BitVec 8)
  /-- R298 -/
  | ldff (t base : GReg) (nud : BitVec 5) (off : BitVec 8)
  /-- R298 -/
  | stef (t base : GReg) (nud : BitVec 5) (off : BitVec 8)
  /-- R298 -/
  | stff (t base : GReg) (nud : BitVec 5) (off : BitVec 8)
  /-- R298 -/
  | sete (base : GReg) (nud : BitVec 5) (off : BitVec 8)
  /-- R298 -/
  | setf (base : GReg) (nud : BitVec 5) (off : BitVec 8)
  /-- R297 -/
  | stsb (t base : GReg) (nud : BitVec 5) (six : Bool) (idx : GReg)
  /-- R301 -/
  | amoAdd (d a b : GReg) (ord : AmoOrd) (scope : Scope) (word : Bool)
  /-- R301 -/
  | amoAnd (d a b : GReg) (ord : AmoOrd) (scope : Scope) (word : Bool)
  /-- R301 -/
  | amoOr (d a b : GReg) (ord : AmoOrd) (scope : Scope) (word : Bool)
  /-- R301 -/
  | amoXor (d a b : GReg) (ord : AmoOrd) (scope : Scope) (word : Bool)
  /-- R301 -/
  | amoMin (d a b : GReg) (ord : AmoOrd) (scope : Scope) (word : Bool)
  /-- R301 -/
  | amoMax (d a b : GReg) (ord : AmoOrd) (scope : Scope) (word : Bool)
  /-- R301 -/
  | amoMinu (d a b : GReg) (ord : AmoOrd) (scope : Scope) (word : Bool)
  /-- R301 -/
  | amoMaxu (d a b : GReg) (ord : AmoOrd) (scope : Scope) (word : Bool)
  /-- R301 -/
  | amoSwp (d a b : GReg) (ord : AmoOrd) (scope : Scope) (word : Bool)
  /-- R301 -/
  | amoCas (d a b : GReg) (ord : AmoOrd) (scope : Scope) (word : Bool)
  /-- R301 -/
  | amoFaddS (d a b : GReg) (ord : AmoOrd) (scope : Scope)
  /-- R301 -/
  | amoFaddD (d a b : GReg) (ord : AmoOrd) (scope : Scope)
  /-- R302 -/
  | fence (p q : BitVec 4) (scope : Scope)
  /-- R303 -/
  | pfence (scope : Scope) (mm : Bool)
  /-- R304 -/
  | pref (hint : BitVec 5) (base : GReg) (nud : BitVec 5) (off : BitVec 8)
  /-- R306 -/
  | send (d a b : GReg) (tag : BitVec 6)
  /-- R306 -/
  | sendu (d a b : GReg)
  /-- R306 -/
  | sendg (a b : GReg)
  /-- R309 -/
  | recv (d a b : GReg) (poll : Bool)
  /-- R310 -/
  | waitk (d a : GReg) (k : KReg) (poll : Bool)
  /-- R310 -/
  | clrk (a : GReg) (k : KReg) (subtract : Bool)
  /-- R311 -/
  | mskw
  /-- R311 -/
  | opnw
  /-- R311 -/
  | retu
  /-- R307 -/
  | chbind (a : GReg) (kc ka : KReg)
  /-- R313 -/
  | bara (d a : GReg)
  /-- R313 -/
  | barw (d a b : GReg)
  /-- R313 -/
  | baraw (d a b : GReg)
  /-- R280 -/
  | fadd (d a b : GReg) (p : Prec)
  /-- R280 -/
  | fsub (d a b : GReg) (p : Prec)
  /-- R280 -/
  | fmul (d a b : GReg) (p : Prec)
  /-- R280 -/
  | fdiv (d a b : GReg) (p : Prec)
  /-- R280 -/
  | fsqrt (d a : GReg) (p : Prec)
  /-- R281 -/
  | fmin (d a b : GReg) (p : Prec)
  /-- R281 -/
  | fmax (d a b : GReg) (p : Prec)
  /-- R281 -/
  | feq (d a b : GReg) (p : Prec)
  /-- R281 -/
  | flt (d a b : GReg) (p : Prec)
  /-- R281 -/
  | fle (d a b : GReg) (p : Prec)
  /-- R281 -/
  | fclass (d a : GReg) (p : Prec)
  /-- R282 -/
  | fsgnj (d a b : GReg) (p : Prec)
  /-- R282 -/
  | fsgnjn (d a b : GReg) (p : Prec)
  /-- R282 -/
  | fsgnjx (d a b : GReg) (p : Prec)
  /-- R283 -/
  | fcvtI (d a : GReg) (ty : IntTy) (p : Prec)
  /-- R283 -/
  | fcvtF (d a : GReg) (ty : IntTy) (p : Prec)
  /-- R283 -/
  | fcvtFf (d a : GReg) (src p : Prec)
  /-- R282 -/
  | fmv (d a : GReg) (p : Prec)
  /-- R284 -/
  | fma (d a b c : GReg) (p : Prec)
  /-- R284 -/
  | fms (d a b c : GReg) (p : Prec)
  /-- R284 -/
  | fnma (d a b c : GReg) (p : Prec)
  /-- R284 -/
  | fnms (d a b c : GReg) (p : Prec)
  /-- R318 -/
  | vadd (d a b : VReg) (m : MReg) (ty : VTy)
  /-- R318 -/
  | vsub (d a b : VReg) (m : MReg) (ty : VTy)
  /-- R318 -/
  | vmul (d a b : VReg) (m : MReg) (ty : VTy)
  /-- R318 -/
  | vfma (d a b c : VReg) (m : MReg) (ty : VTy)
  /-- R318 -/
  | vfms (d a b c : VReg) (m : MReg) (ty : VTy)
  /-- R318 -/
  | vfnma (d a b c : VReg) (m : MReg) (ty : VTy)
  /-- R318 -/
  | vmin (d a b : VReg) (m : MReg) (ty : VTy)
  /-- R318 -/
  | vmax (d a b : VReg) (m : MReg) (ty : VTy)
  /-- R318 -/
  | vabs (d a : VReg) (m : MReg) (ty : VTy)
  /-- R318 -/
  | vneg (d a : VReg) (m : MReg) (ty : VTy)
  /-- R318 -/
  | vand (d a b : VReg) (m : MReg) (ty : VTy)
  /-- R318 -/
  | vor (d a b : VReg) (m : MReg) (ty : VTy)
  /-- R318 -/
  | vxor (d a b : VReg) (m : MReg) (ty : VTy)
  /-- R318 -/
  | vsll (d a b : VReg) (m : MReg) (ty : VTy)
  /-- R318 -/
  | vsrl (d a b : VReg) (m : MReg) (ty : VTy)
  /-- R318 -/
  | vsra (d a b : VReg) (m : MReg) (ty : VTy)
  /-- R81 -/
  | vexp2 (d a : VReg) (m : MReg) (ty : VTy)
  /-- R81 -/
  | vlog2 (d a : VReg) (m : MReg) (ty : VTy)
  /-- R81 -/
  | vrcp (d a : VReg) (m : MReg) (ty : VTy)
  /-- R81 -/
  | vrsq (d a : VReg) (m : MReg) (ty : VTy)
  /-- R319 -/
  | vsqrt (d a : VReg) (m : MReg) (ty : VTy)
  /-- R319 -/
  | vdiv (d a b : VReg) (m : MReg) (ty : VTy)
  /-- R321 -/
  | vcvt (d a : VReg) (unpack : Bool) (part : BitVec 3) (c : PFmt) (m : MReg) (ty : VTy)
  /-- R322 -/
  | vcvts (d a : VReg) (part : BitVec 3) (c : PFmt) (m : MReg) (ty : VTy)
  /-- R323 -/
  | vqnt (d a b : VReg) (c : PFmt) (part : BitVec 3) (ty : VTy)
  /-- R324 -/
  | vdqnt (d a b : VReg) (c : PFmt) (part : BitVec 3) (ty : VTy)
  /-- R325 -/
  | vclmp (d a b c : VReg) (m : MReg) (ty : VTy)
  /-- R325 -/
  | vscl (d a b : VReg) (m : MReg) (ty : VTy)
  /-- R326 -/
  | vcmp (k : MReg) (a b : VReg) (cond : VCond) (m : MReg) (ty : VTy)
  /-- R327 -/
  | vsel (d a b : VReg) (m : MReg) (ty : VTy)
  /-- R319 -/
  | vmov (d a : VReg) (m : MReg) (ty : VTy)
  /-- R319 -/
  | vbcst (d a : VReg) (m : MReg) (ty : VTy)
  /-- R329 -/
  | vradd (d a : VReg) (m : MReg) (ty : VTy)
  /-- R329 -/
  | vrmax (d a : VReg) (m : MReg) (ty : VTy)
  /-- R329 -/
  | vrmin (d a : VReg) (m : MReg) (ty : VTy)
  /-- R330 -/
  | vscana (d a b : VReg) (m : MReg) (ty : VTy)
  /-- R328 -/
  | vshuf (d a b : VReg) (m : MReg) (ty : VTy)
  /-- R328 -/
  | vrotl (d a b : VReg) (m : MReg) (ty : VTy)
  /-- R331 -/
  | vzip (d a b : VReg) (m : MReg) (ty : VTy)
  /-- R331 -/
  | vunzip (d a b : VReg) (m : MReg) (ty : VTy)
  /-- R328 -/
  | vext (d a b c : VReg) (m : MReg) (ty : VTy)
  /-- R332 -/
  | vins (d a b : VReg) (m : MReg) (ty : VTy)
  /-- R333 -/
  | viota (d : VReg) (m : MReg) (ty : VTy)
  /-- R333 -/
  | vmpop (d : VReg) (m : MReg) (ty : VTy)
  /-- R334 -/
  | vmand (d a b : MReg)
  /-- R334 -/
  | vmor (d a b : MReg)
  /-- R334 -/
  | vmnot (d a : MReg)
  /-- R335 -/
  | vdot (d a b c : VReg) (m : MReg) (ty : VTy)
  /-- R345 -/
  | spawn (d a b : GReg)
  /-- R346 -/
  | sync (a : GReg)
  /-- R347 -/
  | finish
  /-- R348 -/
  | launch (d a b : GReg)
  /-- R349 -/
  | decr (d a : GReg)
  /-- R350 -/
  | yield
  /-- R351 -/
  | tskst (d a : GReg) (wait : Bool) (level : Level)
  /-- R352 -/
  | role (mask : BitVec 8)
  /-- R354 -/
  | stamp (d : GReg) (origin : Bool)
  /-- R355 -/
  | time (d : GReg)
  /-- R356 -/
  | chkage (d a b : GReg)
  /-- R357 -/
  | budget (d : GReg) (texp : Bool)
  /-- R358 -/
  | waitt (d a : GReg) (scan : Bool)
  /-- R359 -/
  | phaseid (d : GReg)
  /-- R361 -/
  | mxq (d a b : GReg)
  /-- R362 -/
  | mxwait (d a : GReg)
  /-- R362 -/
  | mxpoll (d a : GReg)
  /-- R363 -/
  | mxepi (a : GReg)
  /-- R364 -/
  | mxpert (a : GReg)
  /-- R365 -/
  | mxdrain (d : GReg) (cancel core : Bool)
  /-- R367 -/
  | hdset (n : BitVec 3) (a : GReg)
  /-- R367 -/
  | hdgo (d : GReg)
  /-- R368 -/
  | hdwait (d a : GReg)
  /-- R368 -/
  | hdpoll (d a : GReg)
  /-- R369 -/
  | ringi (a b : GReg)
  /-- R370 -/
  | ringaw (d a b : GReg)
  /-- R370 -/
  | ringrel (a b : GReg)
  /-- R372 -/
  | tlst (d a : GReg)
  /-- R372 -/
  | tlwait (d a : GReg) (state : BitVec 2)
  /-- R373 -/
  | tlset (a b : GReg) (ready : Bool)
  /-- R374 -/
  | cardq (d a : GReg)
  /-- R374 -/
  | cardw (d a : GReg)
  /-- R375 -/
  | cancel (d a : GReg) (level : Level)
  /-- R377 -/
  | aredc (a : VReg) (op : RedOp)
  /-- R377 -/
  | aredw (d : VReg)
  /-- R378 -/
  | mmark (a : GReg) (tag : BitVec 6)
  /-- R378 -/
  | mlogq (d : GReg) (field : BitVec 6)
  /-- R378 -/
  | pairq (d : GReg)
  /-- R221 -/
  | imlw (d rs1 : XReg) (imm : BitVec 12)
  /-- R221 -/
  | omsw (rs2 rs1 : XReg) (imm : BitVec 12)
  /-- R221 -/
  | wscan (d : XReg)
  /-- R221 -/
  | rtime (d : XReg)
  /-- R221 -/
  | sage (d rs1 rs2 : XReg)
  /-- R221 -/
  | scq (d rs1 : XReg)
  /-- R221 -/
  | scw (d rs1 : XReg)
  /-- R48 -/
  | replyArrive
  /-- R115 -/
  | memoryRequestArrive
  /-- R299 -/
  | feRequestArrive
  /-- R453 -/
  | waitfullRetry
  /-- R313 -/
  | barrierArrival
  /-- R56 -/
  | registerFill
  /-- R308 -/
  | sendArrive
  /-- R60 -/
  | urgentMessageArrive
  /-- R59 -/
  | urgentAccept
  /-- R42 -/
  | decrArrive
  /-- R39 -/
  | slotTakeWork
  /-- R40 -/
  | stealRequest
  /-- R64 -/
  | slotStartDone
  /-- R348 -/
  | launchFrameDeliver
  /-- R105 -/
  | reuseClockReport
  /-- R148 -/
  | coreResetNotice
  /-- R163 -/
  | scanBoundary
  /-- R215 -/
  | inputLatchComplete
  /-- R164 -/
  | gangStop
  /-- R173 -/
  | gangSaveDrained
  /-- R164 -/
  | gangRestoreDone
  /-- R171 -/
  | texpExpiry
  /-- R158 -/
  | scanStart
  /-- R158 -/
  | scanStop
  /-- R158 -/
  | scanStopTakesEffect
  /-- R160 -/
  | jobRegister
  /-- R159 -/
  | jobDelete
  /-- R168 -/
  | cardTimePoint
  /-- R169 -/
  | cardStart
  /-- R100 -/
  | invalStart
  /-- R100 -/
  | invalComplete
  /-- R101 -/
  | lpctWrite
  /-- R102 -/
  | lpctRemap
  /-- R106 -/
  | quotaWrite
  /-- R150 -/
  | mortarDescWrite
  /-- R154 -/
  | mortarRecordAppend
  /-- R154 -/
  | mortarWriteRetry
  /-- R155 -/
  | mortarReplayFetch
  /-- R488 -/
  | divergenceTimeout
  /-- R176 -/
  | mxeGrant
  /-- R186 -/
  | mxeJobEnd
  /-- R467 -/
  | mxeChunkRetry
  /-- R235 -/
  | ballastStep
  /-- R192 -/
  | hodTransferStart
  /-- R192 -/
  | hodPacketIssue
  /-- R192 -/
  | hodPacketPerform
  /-- R192 -/
  | hodTransferEnd
  /-- R195 -/
  | reductionComplete
  /-- R196 -/
  | visionJobStart
  /-- R203 -/
  | visionJobEnd
  /-- R474 -/
  | visionWatchdog
  /-- R213 -/
  | frameArrival
  /-- R217 -/
  | cameraBlockLand
  /-- R216 -/
  | outputFreeze
  /-- R216 -/
  | outputTransmit
  /-- R212 -/
  | gateWrite
  /-- R211 -/
  | gclWrite
  /-- R223 -/
  | forwardedFrameArrive
  /-- R222 -/
  | pairAsActive
  /-- R222 -/
  | pairAsStandby
  /-- R225 -/
  | pairSwitchOver
  /-- R222 -/
  | pairUnpair
  /-- R492 -/
  | pairHandshake
  /-- R461 -/
  | pairSilenceTimeout
  /-- R461 -/
  | partnerResetSignal
  /-- R228 -/
  | attestRequest
  /-- R228 -/
  | attestComplete
  /-- R229 -/
  | clkctlWrite
  /-- R230 -/
  | ratioChangeStart
  /-- R231 -/
  | ratioChangeDone
  /-- R481 -/
  | ratioStepTimeout
  /-- R232 -/
  | droopTrip
  /-- R480 -/
  | droopLimit
  /-- R233 -/
  | thermalSample
  /-- R234 -/
  | thermalMigration
  /-- R236 -/
  | plumbSet
  /-- R240 -/
  | energyUpdate
  /-- R426 -/
  | heartbeatWrite
  /-- R426 -/
  | heartbeatPeriodEnd
  /-- R476 -/
  | captureTimeout
  /-- R418 -/
  | errorRecord
  /-- R455 -/
  | eccCountReport
  /-- R455 -/
  | patrolScrub
  /-- R110 -/
  | faultNotice
  /-- R449 -/
  | faultNoticeRetry
  /-- R450 -/
  | faultWake
  /-- R459 -/
  | retireBlock
  /-- R459 -/
  | retireRelease
  /-- R460 -/
  | retireCopyDone
  /-- R469 -/
  | pairchkCouple
  /-- R469 -/
  | pairchkDecouple
  /-- R470 -/
  | fingerprintExchange
  /-- R476 -/
  | containFence
  /-- R476 -/
  | containReturn
  /-- R403 -/
  | watchWrite
  /-- R406 -/
  | watchStopArrive
  /-- R408 -/
  | debugStop
  /-- R408 -/
  | debugGo
  /-- R409 -/
  | debugResume
  /-- R409 -/
  | debugStep
  /-- R423 -/
  | faultResume
  /-- R423 -/
  | killTask
  /-- R422 -/
  | debugLockWrite
  /-- R422 -/
  | debugWindowWrite
  /-- R427 -/
  | moduleReset
  /-- R486 -/
  | modulePowerLoss
  /-- R483 -/
  | clusterPowerLoss
  /-- R484 -/
  | clusterResume
  /-- R141 -/
  | journalDrain
  /-- R145 -/
  | compactionStep
  /-- R38 -/
  | ovflRead
  /-- R150 -/
  | ovcntRead
  /-- R229 -/
  | dinjRead
  /-- R479 -/
  | strcntRead
  /-- R418 -/
  | elostRead
  /-- R213 -/
  | gateCounterRead
  /-- R226 -/
  | registerWrite
  /-- R250 -/
  | unassignedEncoding
  /-- R358 -/
  | waittTimeReached
  /-- R218 -/
  | scanCoreBaseInstruction
  /-- R419 -/
  | pcieLinkTrained
  /-- R419 -/
  | pcieLinkDown
  /-- R224 -/
  | pairFlitArrive
  /-- R232 -/
  | droopRestored
  /-- R480 -/
  | stretchWindowEnd
  /-- R210 -/
  | gclIntervalEnd
  /-- R105 -/
  | reuseWindowEnd
  /-- R132 -/
  | deviceWritten
  deriving DecidableEq, Repr

end Sys2Proof
end

