-- ==== Sys2Proof/WellFormed.lean ====
section
/-! DEFINITION. Which operands and modifiers an instruction may carry (R249, R250, and the decode
checks of R435 to R446). A word whose fields break one of these is an illegal encoding. -/

namespace Sys2Proof

/-- Lane width in bits of an element type (R316). -/
def VTy.width : VTy → Nat
  | .f32 | .i32 => 32
  | .bf16 | .f16 | .i16 => 16
  | .fp8a | .fp8b | .i8 => 8

/-- The set F of R316. -/
def VTy.isF : VTy → Bool
  | .f32 | .bf16 | .f16 => true
  | .fp8a | .fp8b | .i32 | .i16 | .i8 => false

/-- The set I of R316. -/
def VTy.isI : VTy → Bool
  | .i32 | .i16 | .i8 => true
  | .f32 | .bf16 | .f16 | .fp8a | .fp8b => false

/-- Width in bits of a packed format (R320). -/
def PFmt.width : PFmt → Nat
  | .f32 | .i32 => 32
  | .bf16 | .f16 | .i16 => 16
  | .fp8a | .fp8b | .i8 | .n8 => 8
  | .fp6a | .fp6b => 6
  | .fp4 | .i4 | .n4 => 4

/-- The small floating formats that VCVTS, VQNT and VDQNT accept (R322 to R324). -/
def PFmt.isSmallFloat : PFmt → Bool
  | .fp8a | .fp8b | .fp6a | .fp6b | .fp4 => true
  | .f32 | .bf16 | .f16 | .i32 | .i16 | .i8 | .i4 | .n8 | .n4 => false

/-- Packed format and part of VCVT and VCVTS: `w(C) ≤ w` and `p < ⌊w / w(C)⌋` (R321). -/
def cvtPartOk (ty : VTy) (c : PFmt) (part : BitVec 3) : Bool :=
  decide (c.width ≤ ty.width) && decide (part.toNat < ty.width / c.width)

/-- Types, format and part of VQNT and VDQNT (R323, R324). -/
def blockOk (ty : VTy) (c : PFmt) (part : BitVec 3) : Bool :=
  ty.isF && c.isSmallFloat && decide (part.toNat < 512 / (32 * c.width))

/-- Conditions that VCMP allows for a type (R326). -/
def condOk : VCond → VTy → Bool
  | .eq, _ | .ne, _ => true
  | .lt, ty | .le, ty => ty.isF || ty.isI
  | .ltu, ty | .leu, ty => ty.isI

/-- An ordering 0 needs scope 0 (R122, R250). -/
def orderOk (ord : AmoOrd) (scope : Scope) : Bool :=
  decide (ord ≠ .relaxed) || decide (scope = .slot)

/-- The nonzero fields of RECV name each register at most once (R305). -/
def recvOk (d a b : GReg) : Bool :=
  (decide (d = 0) || (decide (d ≠ a) && decide (d ≠ b))) && (decide (a = 0) || decide (a ≠ b))

/-- The operands an instruction may carry. Steps that are no instruction words are not restricted. -/
def wellFormed : Instr → Bool
  | .mfs _ n | .mts n _ => decide (n.toNat ≤ 10)
  | .mfc _ n | .mtc n _ => decide (n.toNat ≤ 15)
  | .purge first last vec =>
      decide (first.toNat ≤ last.toNat) && (if vec then decide (last.toNat ≤ 15) else decide (1 ≤ first.toNat))
  | .bfx _ _ l p | .bfi _ _ l p => decide (p.toNat + l.toNat + 1 ≤ 64)
  | .amoAdd _ _ _ ord sc _ | .amoAnd _ _ _ ord sc _ | .amoOr _ _ _ ord sc _ | .amoXor _ _ _ ord sc _
  | .amoMin _ _ _ ord sc _ | .amoMax _ _ _ ord sc _ | .amoMinu _ _ _ ord sc _ | .amoMaxu _ _ _ ord sc _
  | .amoSwp _ _ _ ord sc _ | .amoCas _ _ _ ord sc _ | .amoFaddS _ _ _ ord sc | .amoFaddD _ _ _ ord sc =>
      orderOk ord sc
  | .fence p q _ => decide (p ≠ 0) && decide (q ≠ 0)
  | .pfence sc _ => decide (sc = .slot) || decide (sc = .core) || decide (sc = .clu)
  | .recv d a b _ => recvOk d a b
  | .clrk a _ sub => sub || decide (a = 0)
  | .chbind _ kc ka => decide (ka ≠ kc)
  | .waitt _ a scan => !scan || decide (a = 0)
  | .vadd _ _ _ _ ty | .vsub _ _ _ _ ty | .vmul _ _ _ _ ty | .vmin _ _ _ _ ty | .vmax _ _ _ _ ty
  | .vscana _ _ _ _ ty => ty.isF || ty.isI
  | .vfma _ _ _ _ _ ty | .vfms _ _ _ _ _ ty | .vfnma _ _ _ _ _ ty | .vclmp _ _ _ _ _ ty => ty.isF || ty.isI
  | .vradd _ _ _ ty | .vrmax _ _ _ ty | .vrmin _ _ _ ty => ty.isF || ty.isI
  | .vsll _ _ _ _ ty | .vsrl _ _ _ _ ty | .vsra _ _ _ _ ty => ty.isI
  | .vexp2 _ _ _ ty | .vlog2 _ _ _ ty | .vrcp _ _ _ ty | .vrsq _ _ _ ty | .vsqrt _ _ _ ty => decide (ty = .f32)
  | .vdiv _ _ _ _ ty => decide (ty = .f32)
  | .vcvt _ _ _ part c _ ty => cvtPartOk ty c part
  | .vcvts _ _ part c _ ty => ty.isF && c.isSmallFloat && cvtPartOk ty c part
  | .vqnt d a b c part ty => blockOk ty c part && decide (d ≠ b) && (decide (ty ≠ .f32) || decide (a.toNat % 2 = 0))
  | .vdqnt d _ _ c part ty => blockOk ty c part && (decide (ty ≠ .f32) || decide (d.toNat % 2 = 0))
  | .vscl _ _ _ _ ty => ty.isF
  | .vcmp _ _ _ cond _ ty => condOk cond ty
  | .vzip d _ _ _ _ | .vunzip d _ _ _ _ => decide (d.toNat % 2 = 0)
  | .viota _ _ ty | .vmpop _ _ ty => ty.isI
  | .vdot _ _ _ _ _ ty => decide (ty ≠ .f32) && decide (ty ≠ .i32)
  | .cancel _ _ level => decide (level ≠ .job)
  | .mlogq _ field => decide (field.toNat ≤ 5)
  | _ => true

end Sys2Proof
end

