-- ==== Sys2Proof/Decode.lean ====
section
/-! DEFINITION. From instruction words to instructions (R242 to R250, R220) and back. -/

namespace Sys2Proof

/-! ### Codes of the modifiers (R247, R249, R117, R122, R283, R320, R326, R351, R376) -/

/-- One bit. -/
def bit (b : Bool) : BitVec 1 := if b then 1#1 else 0#1
/-- A one-bit field as a truth value. -/
def unbit (b : BitVec 1) : Bool := decide (b = 1#1)

/-- Code of a load size (R249). -/
def ldSizeBits : LdSize → BitVec 3
  | .b => 0#3
  | .h => 1#3
  | .w => 2#3
  | .d => 3#3
  | .bz => 4#3
  | .hz => 5#3
  | .wz => 6#3

/-- A load size (R249) from its code; a reserved code has none. -/
def ldSizeOf (c : BitVec 3) : Option LdSize :=
  match c.toNat with
  | 0 => some .b
  | 1 => some .h
  | 2 => some .w
  | 3 => some .d
  | 4 => some .bz
  | 5 => some .hz
  | 6 => some .wz
  | _ => none

/-- Code of a store size (R249). -/
def stSizeBits : StSize → BitVec 3
  | .b => 0#3
  | .h => 1#3
  | .w => 2#3
  | .d => 3#3

/-- A store size (R249) from its code; a reserved code has none. -/
def stSizeOf (c : BitVec 3) : Option StSize :=
  match c.toNat with
  | 0 => some .b
  | 1 => some .h
  | 2 => some .w
  | 3 => some .d
  | _ => none

/-- Code of a scope (R117). -/
def scopeBits : Scope → BitVec 3
  | .slot => 0#3
  | .core => 1#3
  | .clu => 2#3
  | .chip => 3#3
  | .pair => 4#3

/-- A scope (R117) from its code; a reserved code has none. -/
def scopeOf (c : BitVec 3) : Option Scope :=
  match c.toNat with
  | 0 => some .slot
  | 1 => some .core
  | 2 => some .clu
  | 3 => some .chip
  | 4 => some .pair
  | _ => none

/-- Code of an AMO ordering (R122). -/
def amoOrdBits : AmoOrd → BitVec 2
  | .relaxed => 0#2
  | .acq => 1#2
  | .rel => 2#2
  | .ar => 3#2

/-- An AMO ordering (R122) from its code. -/
def amoOrdOf (c : BitVec 2) : AmoOrd :=
  match c.toNat with
  | 0 => .relaxed
  | 1 => .acq
  | 2 => .rel
  | _ => .ar

/-- Code of a precision, the two low bits of its field (R249). -/
def precBits : Prec → BitVec 2
  | .f32 => 0#2
  | .f64 => 1#2
  | .f16 => 2#2
  | .bf16 => 3#2

/-- A precision, the two low bits of its field (R249) from its code. -/
def precOf (c : BitVec 2) : Prec :=
  match c.toNat with
  | 0 => .f32
  | 1 => .f64
  | 2 => .f16
  | _ => .bf16

/-- Code of an integer type (R283). -/
def intTyBits : IntTy → BitVec 5
  | .i64 => 0#5
  | .i32 => 1#5
  | .i16 => 2#5
  | .i8 => 3#5
  | .n8 => 4#5

/-- An integer type (R283) from its code; a reserved code has none. -/
def intTyOf (c : BitVec 5) : Option IntTy :=
  match c.toNat with
  | 0 => some .i64
  | 1 => some .i32
  | 2 => some .i16
  | 3 => some .i8
  | 4 => some .n8
  | _ => none

/-- Code of an element type (R247). -/
def vTyBits : VTy → BitVec 3
  | .f32 => 0#3
  | .bf16 => 1#3
  | .f16 => 2#3
  | .fp8a => 3#3
  | .fp8b => 4#3
  | .i32 => 5#3
  | .i16 => 6#3
  | .i8 => 7#3

/-- An element type (R247) from its code. -/
def vTyOf (c : BitVec 3) : VTy :=
  match c.toNat with
  | 0 => .f32
  | 1 => .bf16
  | 2 => .f16
  | 3 => .fp8a
  | 4 => .fp8b
  | 5 => .i32
  | 6 => .i16
  | _ => .i8

/-- Code of a packed format (R320). -/
def pFmtBits : PFmt → BitVec 4
  | .f32 => 0#4
  | .bf16 => 1#4
  | .f16 => 2#4
  | .fp8a => 3#4
  | .fp8b => 4#4
  | .i32 => 5#4
  | .i16 => 6#4
  | .i8 => 7#4
  | .fp6a => 8#4
  | .fp6b => 9#4
  | .fp4 => 10#4
  | .i4 => 11#4
  | .n8 => 12#4
  | .n4 => 13#4

/-- A packed format (R320) from its code; a reserved code has none. -/
def pFmtOf (c : BitVec 4) : Option PFmt :=
  match c.toNat with
  | 0 => some .f32
  | 1 => some .bf16
  | 2 => some .f16
  | 3 => some .fp8a
  | 4 => some .fp8b
  | 5 => some .i32
  | 6 => some .i16
  | 7 => some .i8
  | 8 => some .fp6a
  | 9 => some .fp6b
  | 10 => some .fp4
  | 11 => some .i4
  | 12 => some .n8
  | 13 => some .n4
  | _ => none

/-- Code of a condition (R326). -/
def vCondBits : VCond → BitVec 4
  | .eq => 0#4
  | .ne => 1#4
  | .lt => 2#4
  | .le => 3#4
  | .ltu => 4#4
  | .leu => 5#4

/-- A condition (R326) from its code; a reserved code has none. -/
def vCondOf (c : BitVec 4) : Option VCond :=
  match c.toNat with
  | 0 => some .eq
  | 1 => some .ne
  | 2 => some .lt
  | 3 => some .le
  | 4 => some .ltu
  | 5 => some .leu
  | _ => none

/-- Code of a level (R351). -/
def levelBits : Level → BitVec 2
  | .launch => 0#2
  | .graph => 1#2
  | .phase => 2#2
  | .job => 3#2

/-- A level (R351) from its code. -/
def levelOf (c : BitVec 2) : Level :=
  match c.toNat with
  | 0 => .launch
  | 1 => .graph
  | 2 => .phase
  | _ => .job

/-- Code of a reduction operation (R376). -/
def redOpBits : RedOp → BitVec 2
  | .addF32 => 0#2
  | .addI32 => 1#2
  | .maxF32 => 2#2
  | .maxI32 => 3#2

/-- A reduction operation (R376) from its code. -/
def redOpOf (c : BitVec 2) : RedOp :=
  match c.toNat with
  | 0 => .addF32
  | 1 => .addI32
  | 2 => .maxF32
  | _ => .maxI32

/-! ### The formats of R243 and R244 -/

/-- Format A: d, a, b, F. -/
def fmtA (maj : BitVec 6) (d a b : BitVec 5) (f : BitVec 11) : BitVec 32 := maj ++ d ++ a ++ b ++ f
/-- Formats I and B: two registers and 16 bits. -/
def fmtI (maj : BitVec 6) (d a : BitVec 5) (imm : BitVec 16) : BitVec 32 := maj ++ d ++ a ++ imm
/-- Format L: a register and 21 bits. -/
def fmtL (maj : BitVec 6) (d : BitVec 5) (imm : BitVec 21) : BitVec 32 := maj ++ d ++ imm
/-- Format M: t, base, nud, sz, off8. -/
def fmtM (maj : BitVec 6) (t base nud : BitVec 5) (sz : BitVec 3) (off : BitVec 8) : BitVec 32 :=
  maj ++ t ++ base ++ nud ++ sz ++ off
/-- Format J: 26 bits. -/
def fmtJ (maj : BitVec 6) (disp : BitVec 26) : BitVec 32 := maj ++ disp
/-- Format X: d, a, b, sub, imm6. -/
def fmtX (maj : BitVec 6) (d a b sub : BitVec 5) (imm : BitVec 6) : BitVec 32 := maj ++ d ++ a ++ b ++ sub ++ imm
/-- Format V: vd, va, vb, vc, mask, type, sub. -/
def fmtV (maj : BitVec 6) (vd va vb vc : BitVec 4) (mask ty : BitVec 3) (sub : BitVec 4) : BitVec 32 :=
  maj ++ vd ++ va ++ vb ++ vc ++ mask ++ ty ++ sub
/-- The layout of REP (R244). -/
def fmtRep (maj count : BitVec 6) (sd sa sb sc len : BitVec 4) : BitVec 32 :=
  maj ++ count ++ sd ++ sa ++ sb ++ sc ++ len

/-- Bits 31:26, the major opcode (R242). -/
def fMajor (w : BitVec 32) : BitVec 6 := w.extractLsb' 26 6
/-- Bits 25:21. -/
def fD (w : BitVec 32) : BitVec 5 := w.extractLsb' 21 5
/-- Bits 20:16. -/
def fA (w : BitVec 32) : BitVec 5 := w.extractLsb' 16 5
/-- Bits 15:11. -/
def fB (w : BitVec 32) : BitVec 5 := w.extractLsb' 11 5
/-- Bits 10:0, F of format A. -/
def fF (w : BitVec 32) : BitVec 11 := w.extractLsb' 0 11
/-- Bits 15:0. -/
def fImm16 (w : BitVec 32) : BitVec 16 := w.extractLsb' 0 16
/-- Bits 20:0. -/
def fImm21 (w : BitVec 32) : BitVec 21 := w.extractLsb' 0 21
/-- Bits 25:0. -/
def fDisp26 (w : BitVec 32) : BitVec 26 := w.extractLsb' 0 26
/-- Bits 10:8, sz of format M. -/
def fSz (w : BitVec 32) : BitVec 3 := w.extractLsb' 8 3
/-- Bits 7:0, off8 of format M. -/
def fOff (w : BitVec 32) : BitVec 8 := w.extractLsb' 0 8
/-- Bits 10:6, sub of format X. -/
def fSub (w : BitVec 32) : BitVec 5 := w.extractLsb' 6 5
/-- Bits 5:0, imm6 of format X. -/
def fImm6 (w : BitVec 32) : BitVec 6 := w.extractLsb' 0 6
/-- Bits 25:22, vd of format V. -/
def fVd (w : BitVec 32) : BitVec 4 := w.extractLsb' 22 4
/-- Bits 21:18, va. -/
def fVa (w : BitVec 32) : BitVec 4 := w.extractLsb' 18 4
/-- Bits 17:14, vb. -/
def fVb (w : BitVec 32) : BitVec 4 := w.extractLsb' 14 4
/-- Bits 13:10, vc. -/
def fVc (w : BitVec 32) : BitVec 4 := w.extractLsb' 10 4
/-- Bits 9:7, mask. -/
def fMask (w : BitVec 32) : BitVec 3 := w.extractLsb' 7 3
/-- Bits 6:4, type. -/
def fTy (w : BitVec 32) : BitVec 3 := w.extractLsb' 4 3
/-- Bits 3:0, sub of format V. -/
def fVsub (w : BitVec 32) : BitVec 4 := w.extractLsb' 0 4
/-- Bits 25:20, repeats minus 1 of REP. -/
def fRepCount (w : BitVec 32) : BitVec 6 := w.extractLsb' 20 6
/-- Bits 19:16, stride SD of REP. -/
def fRepSd (w : BitVec 32) : BitVec 4 := w.extractLsb' 16 4
/-- Bits 15:12, stride SA of REP. -/
def fRepSa (w : BitVec 32) : BitVec 4 := w.extractLsb' 12 4
/-- Bits 11:8, stride SB of REP. -/
def fRepSb (w : BitVec 32) : BitVec 4 := w.extractLsb' 8 4
/-- Bits 7:4, stride SC of REP. -/
def fRepSc (w : BitVec 32) : BitVec 4 := w.extractLsb' 4 4
/-- Bits 3:0, frame length minus 1 of REP. -/
def fRepLen (w : BitVec 32) : BitVec 4 := w.extractLsb' 0 4

/-- Why a word is not an instruction (R250). Each raises the illegal-instruction fault. -/
inductive DecodeError where
  /-- The major opcode is assigned to no instruction. -/
  | unassignedMajor
  /-- The sub-operation is not listed in its major. -/
  | unassignedSub
  /-- A field that the instruction does not use is not 0. -/
  | unusedFieldNonzero
  /-- A modifier or operand holds a reserved value. -/
  | reservedModifier
  deriving DecidableEq, Repr

/-- Answer the instruction if the fields it does not use are 0 (R245). -/
def unusedZero (ok : Bool) (i : Instr) : Except DecodeError Instr :=
  if ok then .ok i else .error .unusedFieldNonzero

/-- Answer the instruction for a modifier that has a value; refuse a reserved one. -/
def withMod {α : Type} (m : Option α) (k : α → Except DecodeError Instr) : Except DecodeError Instr :=
  match m with
  | some x => k x
  | none => .error .reservedModifier

/-! ### The majors of R248 -/

/-- SYS, major 0x00, format X (R262). -/
def decodeSys (w : BitVec 32) : Except DecodeError Instr :=
  match (fSub w).toNat with
  | 0 => unusedZero (decide (fD w = 0) && decide (fA w = 0) && decide (fB w = 0) && decide (fImm6 w = 0)) (.nop)
  | 1 => unusedZero (decide (fD w = 0) && decide (fA w = 0) && decide (fB w = 0) && decide (fImm6 w = 0)) (.halt)
  | 2 => unusedZero (decide (fD w = 0) && decide (fB w = 0)) (.trapi (fImm6 w) (fA w))
  | 3 => unusedZero (decide (fD w = 0) && decide (fA w = 0) && decide (fB w = 0)) (.bkpt (fImm6 w))
  | 4 => unusedZero (decide (fA w = 0) && decide (fB w = 0)) (.mfs (fD w) (fImm6 w))
  | 5 => unusedZero (decide (fD w = 0) && decide (fB w = 0)) (.mts (fImm6 w) (fA w))
  | 6 => unusedZero (decide (fA w = 0) && decide (fB w = 0)) (.mfc (fD w) (fImm6 w))
  | 7 => unusedZero (decide (fD w = 0) && decide (fB w = 0)) (.mtc (fImm6 w) (fA w))
  | 8 => unusedZero (decide (fD w = 0) && decide (fA w = 0) && decide (fB w = 0) && decide (fImm6 w = 0)) (.idle)
  | 9 => unusedZero (decide (fA w = 0) && decide (fB w = 0) && decide (fImm6 w = 0)) (.slotid (fD w))
  | 10 => unusedZero (decide (fB w = 0) && decide ((fImm6 w).extractLsb' 1 5 = 0)) (.purge (fD w) (fA w) (unbit ((fImm6 w).extractLsb' 0 1)))
  | _ => .error .unassignedSub

/-- ALU, major 0x01, format A (R270). -/
def decodeAlu (w : BitVec 32) : Except DecodeError Instr :=
  match ((fF w).extractLsb' 0 6).toNat with
  | 0 => unusedZero (decide ((fF w).extractLsb' 6 5 = 0)) (.add (fD w) (fA w) (fB w))
  | 1 => unusedZero (decide ((fF w).extractLsb' 6 5 = 0)) (.sub (fD w) (fA w) (fB w))
  | 2 => unusedZero (decide ((fF w).extractLsb' 6 5 = 0)) (.and (fD w) (fA w) (fB w))
  | 3 => unusedZero (decide ((fF w).extractLsb' 6 5 = 0)) (.or (fD w) (fA w) (fB w))
  | 4 => unusedZero (decide ((fF w).extractLsb' 6 5 = 0)) (.xor (fD w) (fA w) (fB w))
  | 5 => unusedZero (decide ((fF w).extractLsb' 6 5 = 0)) (.andn (fD w) (fA w) (fB w))
  | 6 => unusedZero (decide ((fF w).extractLsb' 6 5 = 0)) (.orn (fD w) (fA w) (fB w))
  | 7 => unusedZero (decide ((fF w).extractLsb' 6 5 = 0)) (.sll (fD w) (fA w) (fB w))
  | 8 => unusedZero (decide ((fF w).extractLsb' 6 5 = 0)) (.srl (fD w) (fA w) (fB w))
  | 9 => unusedZero (decide ((fF w).extractLsb' 6 5 = 0)) (.sra (fD w) (fA w) (fB w))
  | 10 => unusedZero (decide ((fF w).extractLsb' 6 5 = 0)) (.rotr (fD w) (fA w) (fB w))
  | 11 => unusedZero (decide ((fF w).extractLsb' 6 5 = 0)) (.slt (fD w) (fA w) (fB w))
  | 12 => unusedZero (decide ((fF w).extractLsb' 6 5 = 0)) (.sltu (fD w) (fA w) (fB w))
  | 13 => unusedZero (decide ((fF w).extractLsb' 6 5 = 0)) (.seq (fD w) (fA w) (fB w))
  | 14 => unusedZero (decide ((fF w).extractLsb' 6 5 = 0)) (.min (fD w) (fA w) (fB w))
  | 15 => unusedZero (decide ((fF w).extractLsb' 6 5 = 0)) (.max (fD w) (fA w) (fB w))
  | 16 => unusedZero (decide ((fF w).extractLsb' 6 5 = 0)) (.minu (fD w) (fA w) (fB w))
  | 17 => unusedZero (decide ((fF w).extractLsb' 6 5 = 0)) (.maxu (fD w) (fA w) (fB w))
  | 18 => unusedZero (decide ((fF w).extractLsb' 6 5 = 0)) (.mul (fD w) (fA w) (fB w))
  | 19 => unusedZero (decide ((fF w).extractLsb' 6 5 = 0)) (.mulh (fD w) (fA w) (fB w))
  | 20 => unusedZero (decide ((fF w).extractLsb' 6 5 = 0)) (.mulhu (fD w) (fA w) (fB w))
  | 21 => unusedZero (decide ((fF w).extractLsb' 6 5 = 0)) (.div (fD w) (fA w) (fB w))
  | 22 => unusedZero (decide ((fF w).extractLsb' 6 5 = 0)) (.divu (fD w) (fA w) (fB w))
  | 23 => unusedZero (decide ((fF w).extractLsb' 6 5 = 0)) (.rem (fD w) (fA w) (fB w))
  | 24 => unusedZero (decide ((fF w).extractLsb' 6 5 = 0)) (.remu (fD w) (fA w) (fB w))
  | 25 => unusedZero (decide ((fF w).extractLsb' 6 5 = 0) && decide (fB w = 0)) (.clz (fD w) (fA w))
  | 26 => unusedZero (decide ((fF w).extractLsb' 6 5 = 0) && decide (fB w = 0)) (.ctz (fD w) (fA w))
  | 27 => unusedZero (decide ((fF w).extractLsb' 6 5 = 0) && decide (fB w = 0)) (.popc (fD w) (fA w))
  | 28 => unusedZero (decide ((fF w).extractLsb' 6 5 = 0) && decide (fB w = 0)) (.bswap (fD w) (fA w))
  | 29 => .ok (.sel (fD w) (fA w) (fB w) ((fF w).extractLsb' 6 5))
  | 30 => .ok (.shadd (fD w) (fA w) (fB w) ((fF w).extractLsb' 6 5))
  | _ => .error .unassignedSub

/-- SHI, major 0x08, format I (R273). -/
def decodeShi (w : BitVec 32) : Except DecodeError Instr :=
  match ((fImm16 w).extractLsb' 6 2).toNat with
  | 0 => unusedZero (decide ((fImm16 w).extractLsb' 8 8 = 0)) (.slli (fD w) (fA w) ((fImm16 w).extractLsb' 0 6))
  | 1 => unusedZero (decide ((fImm16 w).extractLsb' 8 8 = 0)) (.srli (fD w) (fA w) ((fImm16 w).extractLsb' 0 6))
  | 2 => unusedZero (decide ((fImm16 w).extractLsb' 8 8 = 0)) (.srai (fD w) (fA w) ((fImm16 w).extractLsb' 0 6))
  | _ => unusedZero (decide ((fImm16 w).extractLsb' 8 8 = 0)) (.rotri (fD w) (fA w) ((fImm16 w).extractLsb' 0 6))

/-- BFX, format I (R275). -/
def decodeBfx (w : BitVec 32) : Except DecodeError Instr :=
  unusedZero (decide ((fImm16 w).extractLsb' 12 4 = 0)) (.bfx (fD w) (fA w) ((fImm16 w).extractLsb' 6 6) ((fImm16 w).extractLsb' 0 6))

/-- BFI, format I (R275). -/
def decodeBfi (w : BitVec 32) : Except DecodeError Instr :=
  unusedZero (decide ((fImm16 w).extractLsb' 12 4 = 0)) (.bfi (fD w) (fA w) ((fImm16 w).extractLsb' 6 6) ((fImm16 w).extractLsb' 0 6))

/-- LD, major 0x20, format M (R292). -/
def decodeLd (w : BitVec 32) : Except DecodeError Instr :=
  withMod (ldSizeOf (fSz w)) fun sz => .ok (.ld (fD w) (fA w) (fB w) sz (fOff w))

/-- ST, major 0x21, format M (R292). -/
def decodeSt (w : BitVec 32) : Except DecodeError Instr :=
  withMod (stSizeOf (fSz w)) fun sz => .ok (.st (fD w) (fA w) (fB w) sz (fOff w))

/-- LDV, format M with a v register (R292). -/
def decodeLdv (w : BitVec 32) : Except DecodeError Instr :=
  unusedZero (decide ((fD w).extractLsb' 4 1 = 0) && decide (fSz w = 0)) (.ldv ((fD w).extractLsb' 0 4) (fA w) (fB w) (fOff w))

/-- STV, format M with a v register (R292). -/
def decodeStv (w : BitVec 32) : Except DecodeError Instr :=
  unusedZero (decide ((fD w).extractLsb' 4 1 = 0) && decide (fSz w = 0)) (.stv ((fD w).extractLsb' 0 4) (fA w) (fB w) (fOff w))

/-- LDAQ, format M with a scope (R249). -/
def decodeLdaq (w : BitVec 32) : Except DecodeError Instr :=
  withMod (ldSizeOf (fSz w)) fun sz => withMod (scopeOf ((fOff w).extractLsb' 5 3)) fun sc =>
    .ok (.ldaq (fD w) (fA w) (fB w) sz sc ((fOff w).extractLsb' 0 5))

/-- STRL, format M with a scope (R249). -/
def decodeStrl (w : BitVec 32) : Except DecodeError Instr :=
  withMod (stSizeOf (fSz w)) fun sz => withMod (scopeOf ((fOff w).extractLsb' 5 3)) fun sc =>
    .ok (.strl (fD w) (fA w) (fB w) sz sc ((fOff w).extractLsb' 0 5))

/-- GATH, format A (R295). -/
def decodeGath (w : BitVec 32) : Except DecodeError Instr :=
  unusedZero (decide ((fD w).extractLsb' 4 1 = 0) && decide ((fB w).extractLsb' 4 1 = 0)) (.gath ((fD w).extractLsb' 0 4) (fA w) ((fB w).extractLsb' 0 4) ((fF w).extractLsb' 8 3)
    (unbit ((fF w).extractLsb' 7 1)) ((fF w).extractLsb' 5 2) ((fF w).extractLsb' 0 5))

/-- SCAT, format A (R295). -/
def decodeScat (w : BitVec 32) : Except DecodeError Instr :=
  unusedZero (decide ((fD w).extractLsb' 4 1 = 0) && decide ((fB w).extractLsb' 4 1 = 0)) (.scat ((fD w).extractLsb' 0 4) (fA w) ((fB w).extractLsb' 0 4) ((fF w).extractLsb' 8 3)
    (unbit ((fF w).extractLsb' 7 1)) ((fF w).extractLsb' 5 2) ((fF w).extractLsb' 0 5))

/-- FE, major 0x28, format M (R298). -/
def decodeFe (w : BitVec 32) : Except DecodeError Instr :=
  match (fSz w).toNat with
  | 0 => .ok (.ldfe (fD w) (fA w) (fB w) (fOff w))
  | 1 => .ok (.ldff (fD w) (fA w) (fB w) (fOff w))
  | 2 => .ok (.stef (fD w) (fA w) (fB w) (fOff w))
  | 3 => .ok (.stff (fD w) (fA w) (fB w) (fOff w))
  | 4 => unusedZero (decide (fD w = 0)) (.sete (fA w) (fB w) (fOff w))
  | 5 => unusedZero (decide (fD w = 0)) (.setf (fA w) (fB w) (fOff w))
  | _ => .error .reservedModifier

/-- STSB, major 0x29, format M (R297). -/
def decodeStsb (w : BitVec 32) : Except DecodeError Instr :=
  match (fSz w).toNat with
  | 0 => unusedZero (decide ((fOff w).extractLsb' 5 3 = 0)) (.stsb (fD w) (fA w) (fB w) false ((fOff w).extractLsb' 0 5))
  | 1 => unusedZero (decide ((fOff w).extractLsb' 5 3 = 0)) (.stsb (fD w) (fA w) (fB w) true ((fOff w).extractLsb' 0 5))
  | _ => .error .reservedModifier

/-- AMO, major 0x2A, format A (R300). -/
def decodeAmo (w : BitVec 32) : Except DecodeError Instr :=
  withMod (scopeOf ((fF w).extractLsb' 6 3)) fun sc =>
    match ((fF w).extractLsb' 0 5).toNat with
    | 0 => .ok (.amoAdd (fD w) (fA w) (fB w) (amoOrdOf ((fF w).extractLsb' 9 2)) sc (unbit ((fF w).extractLsb' 5 1)))
    | 1 => .ok (.amoAnd (fD w) (fA w) (fB w) (amoOrdOf ((fF w).extractLsb' 9 2)) sc (unbit ((fF w).extractLsb' 5 1)))
    | 2 => .ok (.amoOr (fD w) (fA w) (fB w) (amoOrdOf ((fF w).extractLsb' 9 2)) sc (unbit ((fF w).extractLsb' 5 1)))
    | 3 => .ok (.amoXor (fD w) (fA w) (fB w) (amoOrdOf ((fF w).extractLsb' 9 2)) sc (unbit ((fF w).extractLsb' 5 1)))
    | 4 => .ok (.amoMin (fD w) (fA w) (fB w) (amoOrdOf ((fF w).extractLsb' 9 2)) sc (unbit ((fF w).extractLsb' 5 1)))
    | 5 => .ok (.amoMax (fD w) (fA w) (fB w) (amoOrdOf ((fF w).extractLsb' 9 2)) sc (unbit ((fF w).extractLsb' 5 1)))
    | 6 => .ok (.amoMinu (fD w) (fA w) (fB w) (amoOrdOf ((fF w).extractLsb' 9 2)) sc (unbit ((fF w).extractLsb' 5 1)))
    | 7 => .ok (.amoMaxu (fD w) (fA w) (fB w) (amoOrdOf ((fF w).extractLsb' 9 2)) sc (unbit ((fF w).extractLsb' 5 1)))
    | 8 => .ok (.amoSwp (fD w) (fA w) (fB w) (amoOrdOf ((fF w).extractLsb' 9 2)) sc (unbit ((fF w).extractLsb' 5 1)))
    | 9 => .ok (.amoCas (fD w) (fA w) (fB w) (amoOrdOf ((fF w).extractLsb' 9 2)) sc (unbit ((fF w).extractLsb' 5 1)))
    | 10 => if unbit ((fF w).extractLsb' 5 1) then .ok (.amoFaddS (fD w) (fA w) (fB w) (amoOrdOf ((fF w).extractLsb' 9 2)) sc) else .error .reservedModifier
    | 11 => if unbit ((fF w).extractLsb' 5 1) then .error .reservedModifier else .ok (.amoFaddD (fD w) (fA w) (fB w) (amoOrdOf ((fF w).extractLsb' 9 2)) sc)
    | _ => .error .unassignedSub

/-- FENCE and PFENCE, major 0x2B, format X (R249). -/
def decodeFence (w : BitVec 32) : Except DecodeError Instr :=
  match (fSub w).toNat with
  | 0 => withMod (scopeOf ((fB w).extractLsb' 0 3)) fun sc => unusedZero (decide ((fD w).extractLsb' 4 1 = 0) && decide ((fA w).extractLsb' 4 1 = 0) && decide ((fB w).extractLsb' 3 2 = 0) && decide (fImm6 w = 0)) (.fence ((fD w).extractLsb' 0 4) ((fA w).extractLsb' 0 4) sc)
  | 1 => withMod (scopeOf ((fB w).extractLsb' 0 3)) fun sc => unusedZero (decide (fD w = 0) && decide (fA w = 0) && decide ((fB w).extractLsb' 3 2 = 0) && decide ((fImm6 w).extractLsb' 1 5 = 0)) (.pfence sc (unbit ((fImm6 w).extractLsb' 0 1)))
  | _ => .error .unassignedSub

/-- PREF, major 0x2C, format M (R304). -/
def decodePref (w : BitVec 32) : Except DecodeError Instr :=
  unusedZero (decide (fSz w = 0)) (.pref (fD w) (fA w) (fB w) (fOff w))

/-- MSG, major 0x2D, format X (R305). -/
def decodeMsg (w : BitVec 32) : Except DecodeError Instr :=
  match (fSub w).toNat with
  | 0 => .ok (.send (fD w) (fA w) (fB w) (fImm6 w))
  | 1 => unusedZero (decide (fImm6 w = 0)) (.sendu (fD w) (fA w) (fB w))
  | 2 => unusedZero (decide (fD w = 0) && decide (fImm6 w = 0)) (.sendg (fA w) (fB w))
  | 3 => unusedZero (decide ((fImm6 w).extractLsb' 1 5 = 0)) (.recv (fD w) (fA w) (fB w) (unbit ((fImm6 w).extractLsb' 0 1)))
  | 4 => unusedZero (decide ((fB w).extractLsb' 3 2 = 0) && decide ((fImm6 w).extractLsb' 1 5 = 0)) (.waitk (fD w) (fA w) ((fB w).extractLsb' 0 3) (unbit ((fImm6 w).extractLsb' 0 1)))
  | 5 => unusedZero (decide (fD w = 0) && decide ((fB w).extractLsb' 3 2 = 0) && decide ((fImm6 w).extractLsb' 1 5 = 0)) (.clrk (fA w) ((fB w).extractLsb' 0 3) (unbit ((fImm6 w).extractLsb' 0 1)))
  | 6 => unusedZero (decide (fD w = 0) && decide (fA w = 0) && decide (fB w = 0) && decide (fImm6 w = 0)) (.mskw)
  | 7 => unusedZero (decide (fD w = 0) && decide (fA w = 0) && decide (fB w = 0) && decide (fImm6 w = 0)) (.opnw)
  | 8 => unusedZero (decide (fD w = 0) && decide (fA w = 0) && decide (fB w = 0) && decide (fImm6 w = 0)) (.retu)
  | 9 => unusedZero (decide (fD w = 0) && decide (fB w = 0)) (.chbind (fA w) ((fImm6 w).extractLsb' 3 3) ((fImm6 w).extractLsb' 0 3))
  | _ => .error .unassignedSub

/-- BAR, major 0x2E, format X (R313). -/
def decodeBar (w : BitVec 32) : Except DecodeError Instr :=
  match (fSub w).toNat with
  | 0 => unusedZero (decide (fB w = 0) && decide (fImm6 w = 0)) (.bara (fD w) (fA w))
  | 1 => unusedZero (decide (fImm6 w = 0)) (.barw (fD w) (fA w) (fB w))
  | 2 => unusedZero (decide (fImm6 w = 0)) (.baraw (fD w) (fA w) (fB w))
  | _ => .error .unassignedSub

/-- The operations of FP, its precision read (R280 to R283). -/
def decodeFpOp (w : BitVec 32) : Except DecodeError Instr :=
  let p := precOf ((fF w).extractLsb' 8 2)
  match ((fF w).extractLsb' 0 6).toNat with
  | 0 => .ok (.fadd (fD w) (fA w) (fB w) p)
  | 1 => .ok (.fsub (fD w) (fA w) (fB w) p)
  | 2 => .ok (.fmul (fD w) (fA w) (fB w) p)
  | 3 => .ok (.fdiv (fD w) (fA w) (fB w) p)
  | 4 => unusedZero (decide (fB w = 0)) (.fsqrt (fD w) (fA w) p)
  | 5 => .ok (.fmin (fD w) (fA w) (fB w) p)
  | 6 => .ok (.fmax (fD w) (fA w) (fB w) p)
  | 7 => .ok (.feq (fD w) (fA w) (fB w) p)
  | 8 => .ok (.flt (fD w) (fA w) (fB w) p)
  | 9 => .ok (.fle (fD w) (fA w) (fB w) p)
  | 10 => unusedZero (decide (fB w = 0)) (.fclass (fD w) (fA w) p)
  | 11 => .ok (.fsgnj (fD w) (fA w) (fB w) p)
  | 12 => .ok (.fsgnjn (fD w) (fA w) (fB w) p)
  | 13 => .ok (.fsgnjx (fD w) (fA w) (fB w) p)
  | 14 => withMod (intTyOf (fB w)) fun ty => .ok (.fcvtI (fD w) (fA w) ty p)
  | 15 => withMod (intTyOf (fB w)) fun ty => .ok (.fcvtF (fD w) (fA w) ty p)
  | 16 => unusedZero (decide ((fB w).extractLsb' 2 3 = 0)) (.fcvtFf (fD w) (fA w) (precOf ((fB w).extractLsb' 0 2)) p)
  | 17 => unusedZero (decide (fB w = 0)) (.fmv (fD w) (fA w) p)
  | _ => .error .unassignedSub

/-- FP, major 0x30, format A (R280): F[10:8] precision, 4 to 7 reserved; F[7:6] = 0. -/
def decodeFp (w : BitVec 32) : Except DecodeError Instr :=
  if (fF w).extractLsb' 10 1 = 0 then
    if (fF w).extractLsb' 6 2 = 0 then decodeFpOp w else .error .unusedFieldNonzero
  else .error .reservedModifier

/-- The FMA group, major 0x31, format A (R284). -/
def decodeFma (w : BitVec 32) : Except DecodeError Instr :=
  match ((fF w).extractLsb' 0 2).toNat with
  | 0 => unusedZero (decide ((fF w).extractLsb' 2 2 = 0)) (.fma (fD w) (fA w) (fB w) ((fF w).extractLsb' 6 5) (precOf ((fF w).extractLsb' 4 2)))
  | 1 => unusedZero (decide ((fF w).extractLsb' 2 2 = 0)) (.fms (fD w) (fA w) (fB w) ((fF w).extractLsb' 6 5) (precOf ((fF w).extractLsb' 4 2)))
  | 2 => unusedZero (decide ((fF w).extractLsb' 2 2 = 0)) (.fnma (fD w) (fA w) (fB w) ((fF w).extractLsb' 6 5) (precOf ((fF w).extractLsb' 4 2)))
  | _ => unusedZero (decide ((fF w).extractLsb' 2 2 = 0)) (.fnms (fD w) (fA w) (fB w) ((fF w).extractLsb' 6 5) (precOf ((fF w).extractLsb' 4 2)))

/-- VA, major 0x34, format V (R318). -/
def decodeVa (w : BitVec 32) : Except DecodeError Instr :=
  match (fVsub w).toNat with
  | 0 => unusedZero (decide (fVc w = 0)) (.vadd (fVd w) (fVa w) (fVb w) (fMask w) (vTyOf (fTy w)))
  | 1 => unusedZero (decide (fVc w = 0)) (.vsub (fVd w) (fVa w) (fVb w) (fMask w) (vTyOf (fTy w)))
  | 2 => unusedZero (decide (fVc w = 0)) (.vmul (fVd w) (fVa w) (fVb w) (fMask w) (vTyOf (fTy w)))
  | 3 => .ok (.vfma (fVd w) (fVa w) (fVb w) (fVc w) (fMask w) (vTyOf (fTy w)))
  | 4 => .ok (.vfms (fVd w) (fVa w) (fVb w) (fVc w) (fMask w) (vTyOf (fTy w)))
  | 5 => .ok (.vfnma (fVd w) (fVa w) (fVb w) (fVc w) (fMask w) (vTyOf (fTy w)))
  | 6 => unusedZero (decide (fVc w = 0)) (.vmin (fVd w) (fVa w) (fVb w) (fMask w) (vTyOf (fTy w)))
  | 7 => unusedZero (decide (fVc w = 0)) (.vmax (fVd w) (fVa w) (fVb w) (fMask w) (vTyOf (fTy w)))
  | 8 => unusedZero (decide (fVb w = 0) && decide (fVc w = 0)) (.vabs (fVd w) (fVa w) (fMask w) (vTyOf (fTy w)))
  | 9 => unusedZero (decide (fVb w = 0) && decide (fVc w = 0)) (.vneg (fVd w) (fVa w) (fMask w) (vTyOf (fTy w)))
  | 10 => unusedZero (decide (fVc w = 0)) (.vand (fVd w) (fVa w) (fVb w) (fMask w) (vTyOf (fTy w)))
  | 11 => unusedZero (decide (fVc w = 0)) (.vor (fVd w) (fVa w) (fVb w) (fMask w) (vTyOf (fTy w)))
  | 12 => unusedZero (decide (fVc w = 0)) (.vxor (fVd w) (fVa w) (fVb w) (fMask w) (vTyOf (fTy w)))
  | 13 => unusedZero (decide (fVc w = 0)) (.vsll (fVd w) (fVa w) (fVb w) (fMask w) (vTyOf (fTy w)))
  | 14 => unusedZero (decide (fVc w = 0)) (.vsrl (fVd w) (fVa w) (fVb w) (fMask w) (vTyOf (fTy w)))
  | _ => unusedZero (decide (fVc w = 0)) (.vsra (fVd w) (fVa w) (fVb w) (fMask w) (vTyOf (fTy w)))

/-- VX, major 0x35, format V (R319). -/
def decodeVx (w : BitVec 32) : Except DecodeError Instr :=
  match (fVsub w).toNat with
  | 0 => unusedZero (decide (fVb w = 0) && decide (fVc w = 0)) (.vexp2 (fVd w) (fVa w) (fMask w) (vTyOf (fTy w)))
  | 1 => unusedZero (decide (fVb w = 0) && decide (fVc w = 0)) (.vlog2 (fVd w) (fVa w) (fMask w) (vTyOf (fTy w)))
  | 2 => unusedZero (decide (fVb w = 0) && decide (fVc w = 0)) (.vrcp (fVd w) (fVa w) (fMask w) (vTyOf (fTy w)))
  | 3 => unusedZero (decide (fVb w = 0) && decide (fVc w = 0)) (.vrsq (fVd w) (fVa w) (fMask w) (vTyOf (fTy w)))
  | 4 => unusedZero (decide (fVb w = 0) && decide (fVc w = 0)) (.vsqrt (fVd w) (fVa w) (fMask w) (vTyOf (fTy w)))
  | 5 => unusedZero (decide (fVc w = 0)) (.vdiv (fVd w) (fVa w) (fVb w) (fMask w) (vTyOf (fTy w)))
  | 6 => withMod (pFmtOf (fVc w)) fun c =>
      .ok (.vcvt (fVd w) (fVa w) (unbit ((fVb w).extractLsb' 3 1)) ((fVb w).extractLsb' 0 3) c (fMask w) (vTyOf (fTy w)))
  | 7 => withMod (pFmtOf (fVc w)) fun c =>
      unusedZero (decide ((fVb w).extractLsb' 3 1 = 0)) (.vcvts (fVd w) (fVa w) ((fVb w).extractLsb' 0 3) c (fMask w) (vTyOf (fTy w)))
  | 8 => withMod (pFmtOf (fVc w)) fun c => .ok (.vqnt (fVd w) (fVa w) (fVb w) c (fMask w) (vTyOf (fTy w)))
  | 9 => withMod (pFmtOf (fVc w)) fun c => .ok (.vdqnt (fVd w) (fVa w) (fVb w) c (fMask w) (vTyOf (fTy w)))
  | 10 => .ok (.vclmp (fVd w) (fVa w) (fVb w) (fVc w) (fMask w) (vTyOf (fTy w)))
  | 11 => unusedZero (decide (fVc w = 0)) (.vscl (fVd w) (fVa w) (fVb w) (fMask w) (vTyOf (fTy w)))
  | 12 => withMod (vCondOf (fVc w)) fun c =>
      unusedZero (decide ((fVd w).extractLsb' 3 1 = 0)) (.vcmp ((fVd w).extractLsb' 0 3) (fVa w) (fVb w) c (fMask w) (vTyOf (fTy w)))
  | 13 => unusedZero (decide (fVc w = 0)) (.vsel (fVd w) (fVa w) (fVb w) (fMask w) (vTyOf (fTy w)))
  | 14 => unusedZero (decide (fVb w = 0) && decide (fVc w = 0)) (.vmov (fVd w) (fVa w) (fMask w) (vTyOf (fTy w)))
  | _ => unusedZero (decide (fVb w = 0) && decide (fVc w = 0)) (.vbcst (fVd w) (fVa w) (fMask w) (vTyOf (fTy w)))

/-- VP, major 0x36, format V (R328). -/
def decodeVp (w : BitVec 32) : Except DecodeError Instr :=
  match (fVsub w).toNat with
  | 0 => unusedZero (decide (fVb w = 0) && decide (fVc w = 0)) (.vradd (fVd w) (fVa w) (fMask w) (vTyOf (fTy w)))
  | 1 => unusedZero (decide (fVb w = 0) && decide (fVc w = 0)) (.vrmax (fVd w) (fVa w) (fMask w) (vTyOf (fTy w)))
  | 2 => unusedZero (decide (fVb w = 0) && decide (fVc w = 0)) (.vrmin (fVd w) (fVa w) (fMask w) (vTyOf (fTy w)))
  | 3 => unusedZero (decide (fVc w = 0)) (.vscana (fVd w) (fVa w) (fVb w) (fMask w) (vTyOf (fTy w)))
  | 4 => unusedZero (decide (fVc w = 0)) (.vshuf (fVd w) (fVa w) (fVb w) (fMask w) (vTyOf (fTy w)))
  | 5 => unusedZero (decide (fVc w = 0)) (.vrotl (fVd w) (fVa w) (fVb w) (fMask w) (vTyOf (fTy w)))
  | 6 => unusedZero (decide (fVc w = 0)) (.vzip (fVd w) (fVa w) (fVb w) (fMask w) (vTyOf (fTy w)))
  | 7 => unusedZero (decide (fVc w = 0)) (.vunzip (fVd w) (fVa w) (fVb w) (fMask w) (vTyOf (fTy w)))
  | 8 => .ok (.vext (fVd w) (fVa w) (fVb w) (fVc w) (fMask w) (vTyOf (fTy w)))
  | 9 => unusedZero (decide (fVc w = 0)) (.vins (fVd w) (fVa w) (fVb w) (fMask w) (vTyOf (fTy w)))
  | 10 => unusedZero (decide (fVa w = 0) && decide (fVb w = 0) && decide (fVc w = 0)) (.viota (fVd w) (fMask w) (vTyOf (fTy w)))
  | 11 => unusedZero (decide (fVa w = 0) && decide (fVb w = 0) && decide (fVc w = 0)) (.vmpop (fVd w) (fMask w) (vTyOf (fTy w)))
  | 12 => unusedZero (decide ((fVd w).extractLsb' 3 1 = 0) && decide ((fVa w).extractLsb' 3 1 = 0) && decide ((fVb w).extractLsb' 3 1 = 0) && decide (fVc w = 0) && decide (fMask w = 0) && decide (fTy w = 0)) (.vmand ((fVd w).extractLsb' 0 3) ((fVa w).extractLsb' 0 3) ((fVb w).extractLsb' 0 3))
  | 13 => unusedZero (decide ((fVd w).extractLsb' 3 1 = 0) && decide ((fVa w).extractLsb' 3 1 = 0) && decide ((fVb w).extractLsb' 3 1 = 0) && decide (fVc w = 0) && decide (fMask w = 0) && decide (fTy w = 0)) (.vmor ((fVd w).extractLsb' 0 3) ((fVa w).extractLsb' 0 3) ((fVb w).extractLsb' 0 3))
  | 14 => unusedZero (decide ((fVd w).extractLsb' 3 1 = 0) && decide ((fVa w).extractLsb' 3 1 = 0) && decide (fVb w = 0) && decide (fVc w = 0) && decide (fMask w = 0) && decide (fTy w = 0)) (.vmnot ((fVd w).extractLsb' 0 3) ((fVa w).extractLsb' 0 3))
  | _ => .ok (.vdot (fVd w) (fVa w) (fVb w) (fVc w) (fMask w) (vTyOf (fTy w)))

/-- TASK, major 0x38, format X (R344). -/
def decodeTask (w : BitVec 32) : Except DecodeError Instr :=
  match (fSub w).toNat with
  | 0 => unusedZero (decide (fImm6 w = 0)) (.spawn (fD w) (fA w) (fB w))
  | 1 => unusedZero (decide (fD w = 0) && decide (fB w = 0) && decide (fImm6 w = 0)) (.sync (fA w))
  | 2 => unusedZero (decide (fD w = 0) && decide (fA w = 0) && decide (fB w = 0) && decide (fImm6 w = 0)) (.finish)
  | 3 => unusedZero (decide (fImm6 w = 0)) (.launch (fD w) (fA w) (fB w))
  | 4 => unusedZero (decide (fB w = 0) && decide (fImm6 w = 0)) (.decr (fD w) (fA w))
  | 5 => unusedZero (decide (fD w = 0) && decide (fA w = 0) && decide (fB w = 0) && decide (fImm6 w = 0)) (.yield)
  | 6 => unusedZero (decide (fB w = 0) && decide ((fImm6 w).extractLsb' 3 3 = 0)) (.tskst (fD w) (fA w) (unbit ((fImm6 w).extractLsb' 2 1)) (levelOf ((fImm6 w).extractLsb' 0 2)))
  | 7 => unusedZero (decide (fD w = 0) && decide (fA w = 0) && decide ((fB w).extractLsb' 2 3 = 0)) (.role ((fB w).extractLsb' 0 2 ++ fImm6 w))
  | _ => .error .unassignedSub

/-- SCAN, major 0x39, format X (R353). -/
def decodeScanGroup (w : BitVec 32) : Except DecodeError Instr :=
  match (fSub w).toNat with
  | 0 => unusedZero (decide (fA w = 0) && decide (fB w = 0) && decide ((fImm6 w).extractLsb' 1 5 = 0)) (.stamp (fD w) (unbit ((fImm6 w).extractLsb' 0 1)))
  | 1 => unusedZero (decide (fA w = 0) && decide (fB w = 0) && decide (fImm6 w = 0)) (.time (fD w))
  | 2 => unusedZero (decide (fImm6 w = 0)) (.chkage (fD w) (fA w) (fB w))
  | 3 => unusedZero (decide (fA w = 0) && decide (fB w = 0) && decide ((fImm6 w).extractLsb' 1 5 = 0)) (.budget (fD w) (unbit ((fImm6 w).extractLsb' 0 1)))
  | 4 => unusedZero (decide (fB w = 0) && decide ((fImm6 w).extractLsb' 1 5 = 0)) (.waitt (fD w) (fA w) (unbit ((fImm6 w).extractLsb' 0 1)))
  | 5 => unusedZero (decide (fA w = 0) && decide (fB w = 0) && decide (fImm6 w = 0)) (.phaseid (fD w))
  | _ => .error .unassignedSub

/-- MX, major 0x3A, format X (R360). -/
def decodeMx (w : BitVec 32) : Except DecodeError Instr :=
  match (fSub w).toNat with
  | 0 => unusedZero (decide (fImm6 w = 0)) (.mxq (fD w) (fA w) (fB w))
  | 1 => unusedZero (decide (fB w = 0) && decide (fImm6 w = 0)) (.mxwait (fD w) (fA w))
  | 2 => unusedZero (decide (fB w = 0) && decide (fImm6 w = 0)) (.mxpoll (fD w) (fA w))
  | 3 => unusedZero (decide (fD w = 0) && decide (fB w = 0) && decide (fImm6 w = 0)) (.mxepi (fA w))
  | 4 => unusedZero (decide (fD w = 0) && decide (fB w = 0) && decide (fImm6 w = 0)) (.mxpert (fA w))
  | 5 => unusedZero (decide (fA w = 0) && decide (fB w = 0) && decide ((fImm6 w).extractLsb' 2 4 = 0)) (.mxdrain (fD w) (unbit ((fImm6 w).extractLsb' 1 1)) (unbit ((fImm6 w).extractLsb' 0 1)))
  | _ => .error .unassignedSub

/-- HOD, major 0x3B, format X (R366). -/
def decodeHod (w : BitVec 32) : Except DecodeError Instr :=
  match (fSub w).toNat with
  | 0 => unusedZero (decide (fD w = 0) && decide (fB w = 0) && decide ((fImm6 w).extractLsb' 3 3 = 0)) (.hdset ((fImm6 w).extractLsb' 0 3) (fA w))
  | 1 => unusedZero (decide (fA w = 0) && decide (fB w = 0) && decide (fImm6 w = 0)) (.hdgo (fD w))
  | 2 => unusedZero (decide (fB w = 0) && decide (fImm6 w = 0)) (.hdwait (fD w) (fA w))
  | 3 => unusedZero (decide (fB w = 0) && decide (fImm6 w = 0)) (.hdpoll (fD w) (fA w))
  | 4 => unusedZero (decide (fD w = 0) && decide (fImm6 w = 0)) (.ringi (fA w) (fB w))
  | 5 => unusedZero (decide (fImm6 w = 0)) (.ringaw (fD w) (fA w) (fB w))
  | 6 => unusedZero (decide (fD w = 0) && decide (fImm6 w = 0)) (.ringrel (fA w) (fB w))
  | _ => .error .unassignedSub

/-- TILE, major 0x3C, format X (R371). -/
def decodeTile (w : BitVec 32) : Except DecodeError Instr :=
  match (fSub w).toNat with
  | 0 => unusedZero (decide (fB w = 0) && decide (fImm6 w = 0)) (.tlst (fD w) (fA w))
  | 1 => unusedZero (decide (fB w = 0) && decide ((fImm6 w).extractLsb' 2 4 = 0)) (.tlwait (fD w) (fA w) ((fImm6 w).extractLsb' 0 2))
  | 2 => unusedZero (decide (fD w = 0) && decide ((fImm6 w).extractLsb' 2 4 = 0) && decide ((fImm6 w).extractLsb' 0 1 = 0)) (.tlset (fA w) (fB w) (unbit ((fImm6 w).extractLsb' 1 1)))
  | 3 => unusedZero (decide (fB w = 0) && decide (fImm6 w = 0)) (.cardq (fD w) (fA w))
  | 4 => unusedZero (decide (fB w = 0) && decide (fImm6 w = 0)) (.cardw (fD w) (fA w))
  | 5 => unusedZero (decide (fB w = 0) && decide ((fImm6 w).extractLsb' 2 4 = 0)) (.cancel (fD w) (fA w) (levelOf ((fImm6 w).extractLsb' 0 2)))
  | _ => .error .unassignedSub

/-- ARED, major 0x3D, format X (R376). -/
def decodeAred (w : BitVec 32) : Except DecodeError Instr :=
  match (fSub w).toNat with
  | 0 => unusedZero (decide (fD w = 0) && decide (fB w = 0) && decide ((fA w).extractLsb' 4 1 = 0) && decide ((fImm6 w).extractLsb' 2 4 = 0)) (.aredc ((fA w).extractLsb' 0 4) (redOpOf ((fImm6 w).extractLsb' 0 2)))
  | 1 => unusedZero (decide ((fD w).extractLsb' 4 1 = 0) && decide (fA w = 0) && decide (fB w = 0) && decide (fImm6 w = 0)) (.aredw ((fD w).extractLsb' 0 4))
  | _ => .error .unassignedSub

/-- LOG, major 0x3E, format X (R376). -/
def decodeLog (w : BitVec 32) : Except DecodeError Instr :=
  match (fSub w).toNat with
  | 0 => unusedZero (decide (fD w = 0) && decide (fB w = 0)) (.mmark (fA w) (fImm6 w))
  | 1 => unusedZero (decide (fA w = 0) && decide (fB w = 0)) (.mlogq (fD w) (fImm6 w))
  | 2 => unusedZero (decide (fA w = 0) && decide (fB w = 0) && decide (fImm6 w = 0)) (.pairq (fD w))
  | _ => .error .unassignedSub

/-- The fields of a word by its major opcode (R248), before the checks of `wellFormed`. -/
def decodeFields (w : BitVec 32) : Except DecodeError Instr :=
  match (fMajor w).toNat with
  | 0x00 => decodeSys w
  | 0x01 => decodeAlu w
  | 0x02 => .ok (.addi (fD w) (fA w) (fImm16 w))
  | 0x03 => .ok (.andi (fD w) (fA w) (fImm16 w))
  | 0x04 => .ok (.ori (fD w) (fA w) (fImm16 w))
  | 0x05 => .ok (.xori (fD w) (fA w) (fImm16 w))
  | 0x06 => .ok (.slti (fD w) (fA w) (fImm16 w))
  | 0x07 => .ok (.sltiu (fD w) (fA w) (fImm16 w))
  | 0x08 => decodeShi w
  | 0x09 => .ok (.li (fD w) (fImm21 w))
  | 0x0a => .ok (.lim (fD w) (fImm21 w))
  | 0x0b => .ok (.lih (fD w) (fImm21 w))
  | 0x0c => .ok (.addpc (fD w) (fImm21 w))
  | 0x0d => decodeBfx w
  | 0x0e => decodeBfi w
  | 0x10 => .ok (.beq (fD w) (fA w) (fImm16 w))
  | 0x11 => .ok (.bne (fD w) (fA w) (fImm16 w))
  | 0x12 => .ok (.blt (fD w) (fA w) (fImm16 w))
  | 0x13 => .ok (.bge (fD w) (fA w) (fImm16 w))
  | 0x14 => .ok (.bltu (fD w) (fA w) (fImm16 w))
  | 0x15 => .ok (.bgeu (fD w) (fA w) (fImm16 w))
  | 0x16 => unusedZero (decide (fA w = 0)) (.bful (fD w) (fImm16 w))
  | 0x17 => unusedZero (decide (fA w = 0)) (.bemp (fD w) (fImm16 w))
  | 0x18 => .ok (.j (fDisp26 w))
  | 0x19 => .ok (.jal (fDisp26 w))
  | 0x1a => .ok (.jalr (fD w) (fA w) (fImm16 w))
  | 0x1b => .ok (.rep (fRepCount w) (fRepSd w) (fRepSa w) (fRepSb w) (fRepSc w) (fRepLen w))
  | 0x20 => decodeLd w
  | 0x21 => decodeSt w
  | 0x22 => decodeLdv w
  | 0x23 => decodeStv w
  | 0x24 => decodeLdaq w
  | 0x25 => decodeStrl w
  | 0x26 => decodeGath w
  | 0x27 => decodeScat w
  | 0x28 => decodeFe w
  | 0x29 => decodeStsb w
  | 0x2a => decodeAmo w
  | 0x2b => decodeFence w
  | 0x2c => decodePref w
  | 0x2d => decodeMsg w
  | 0x2e => decodeBar w
  | 0x30 => decodeFp w
  | 0x31 => decodeFma w
  | 0x34 => decodeVa w
  | 0x35 => decodeVx w
  | 0x36 => decodeVp w
  | 0x38 => decodeTask w
  | 0x39 => decodeScanGroup w
  | 0x3a => decodeMx w
  | 0x3b => decodeHod w
  | 0x3c => decodeTile w
  | 0x3d => decodeAred w
  | 0x3e => decodeLog w
  | _ => .error .unassignedMajor

/-- The barrel decoder (R242 to R250): the instruction of a word, or why there is none. -/
def decode (w : BitVec 32) : Except DecodeError Instr :=
  match decodeFields w with
  | .error e => .error e
  | .ok i => if wellFormed i then .ok i else .error .reservedModifier

/-- The decoder of the scan cores' custom instructions (R220): opcodes custom-0 and custom-1. -/
def decodeScan (w : BitVec 32) : Option Instr :=
  let rd := w.extractLsb' 7 5
  let rs1 := w.extractLsb' 15 5
  let rs2 := w.extractLsb' 20 5
  match (w.extractLsb' 0 7).toNat, (w.extractLsb' 12 3).toNat with
  | 0x0b, 0 => some (.imlw rd rs1 (w.extractLsb' 20 12))
  | 0x0b, 1 => some (.omsw rs2 rs1 (w.extractLsb' 25 7 ++ w.extractLsb' 7 5))
  | 0x2b, 0 => if w.extractLsb' 15 17 = 0 then some (.wscan rd) else none
  | 0x2b, 1 => if w.extractLsb' 15 17 = 0 then some (.rtime rd) else none
  | 0x2b, 2 => if w.extractLsb' 25 7 = 0 then some (.sage rd rs1 rs2) else none
  | 0x2b, 3 => if w.extractLsb' 20 12 = 0 then some (.scq rd rs1) else none
  | 0x2b, 4 => if w.extractLsb' 20 12 = 0 then some (.scw rd rs1) else none
  | _, _ => none

/-- The instruction read from a word of the opcode table: the barrel decoder, then that of the scan
cores. The words are 32 bits; bits above `nbits` are 0. -/
def decodeTableWord (nbits w : Nat) : Option Instr :=
  let word : BitVec 32 := BitVec.ofNat 32 (w % 2 ^ nbits)
  match decode word with
  | .ok i => some i
  | .error _ => decodeScan word

/-- The word of an instruction, written from the encoding tables of R243 to R249 and R220. A step that
is no instruction has none. -/
def encode : Instr → Option (BitVec 32)
  | .nop => some (fmtX 0x00 0 0 0 0 0)
  | .halt => some (fmtX 0x00 0 0 0 1 0)
  | .trapi n a => some (fmtX 0x00 0 a 0 2 n)
  | .bkpt n => some (fmtX 0x00 0 0 0 3 n)
  | .mfs d n => some (fmtX 0x00 d 0 0 4 n)
  | .mts n a => some (fmtX 0x00 0 a 0 5 n)
  | .mfc d n => some (fmtX 0x00 d 0 0 6 n)
  | .mtc n a => some (fmtX 0x00 0 a 0 7 n)
  | .idle => some (fmtX 0x00 0 0 0 8 0)
  | .slotid d => some (fmtX 0x00 d 0 0 9 0)
  | .purge first last vec => some (fmtX 0x00 first last 0 10 (0#5 ++ bit vec))
  | .add d a b => some (fmtA 0x01 d a b (0#5 ++ 0#6))
  | .sub d a b => some (fmtA 0x01 d a b (0#5 ++ 1#6))
  | .and d a b => some (fmtA 0x01 d a b (0#5 ++ 2#6))
  | .or d a b => some (fmtA 0x01 d a b (0#5 ++ 3#6))
  | .xor d a b => some (fmtA 0x01 d a b (0#5 ++ 4#6))
  | .andn d a b => some (fmtA 0x01 d a b (0#5 ++ 5#6))
  | .orn d a b => some (fmtA 0x01 d a b (0#5 ++ 6#6))
  | .sll d a b => some (fmtA 0x01 d a b (0#5 ++ 7#6))
  | .srl d a b => some (fmtA 0x01 d a b (0#5 ++ 8#6))
  | .sra d a b => some (fmtA 0x01 d a b (0#5 ++ 9#6))
  | .rotr d a b => some (fmtA 0x01 d a b (0#5 ++ 10#6))
  | .slt d a b => some (fmtA 0x01 d a b (0#5 ++ 11#6))
  | .sltu d a b => some (fmtA 0x01 d a b (0#5 ++ 12#6))
  | .seq d a b => some (fmtA 0x01 d a b (0#5 ++ 13#6))
  | .min d a b => some (fmtA 0x01 d a b (0#5 ++ 14#6))
  | .max d a b => some (fmtA 0x01 d a b (0#5 ++ 15#6))
  | .minu d a b => some (fmtA 0x01 d a b (0#5 ++ 16#6))
  | .maxu d a b => some (fmtA 0x01 d a b (0#5 ++ 17#6))
  | .mul d a b => some (fmtA 0x01 d a b (0#5 ++ 18#6))
  | .mulh d a b => some (fmtA 0x01 d a b (0#5 ++ 19#6))
  | .mulhu d a b => some (fmtA 0x01 d a b (0#5 ++ 20#6))
  | .div d a b => some (fmtA 0x01 d a b (0#5 ++ 21#6))
  | .divu d a b => some (fmtA 0x01 d a b (0#5 ++ 22#6))
  | .rem d a b => some (fmtA 0x01 d a b (0#5 ++ 23#6))
  | .remu d a b => some (fmtA 0x01 d a b (0#5 ++ 24#6))
  | .clz d a => some (fmtA 0x01 d a 0 (0#5 ++ 25#6))
  | .ctz d a => some (fmtA 0x01 d a 0 (0#5 ++ 26#6))
  | .popc d a => some (fmtA 0x01 d a 0 (0#5 ++ 27#6))
  | .bswap d a => some (fmtA 0x01 d a 0 (0#5 ++ 28#6))
  | .sel d a b c => some (fmtA 0x01 d a b (c ++ 29#6))
  | .shadd d a b k => some (fmtA 0x01 d a b (k ++ 30#6))
  | .addi d a imm => some (fmtI 0x02 d a imm)
  | .andi d a imm => some (fmtI 0x03 d a imm)
  | .ori d a imm => some (fmtI 0x04 d a imm)
  | .xori d a imm => some (fmtI 0x05 d a imm)
  | .slti d a imm => some (fmtI 0x06 d a imm)
  | .sltiu d a imm => some (fmtI 0x07 d a imm)
  | .slli d a k => some (fmtI 0x08 d a (0#8 ++ (0#2 ++ k)))
  | .srli d a k => some (fmtI 0x08 d a (0#8 ++ (1#2 ++ k)))
  | .srai d a k => some (fmtI 0x08 d a (0#8 ++ (2#2 ++ k)))
  | .rotri d a k => some (fmtI 0x08 d a (0#8 ++ (3#2 ++ k)))
  | .li d imm => some (fmtL 0x09 d imm)
  | .lim d imm => some (fmtL 0x0a d imm)
  | .lih d imm => some (fmtL 0x0b d imm)
  | .addpc d imm => some (fmtL 0x0c d imm)
  | .bfx d a l p => some (fmtI 0x0d d a (0#4 ++ l ++ p))
  | .bfi d a l p => some (fmtI 0x0e d a (0#4 ++ l ++ p))
  | .beq a b disp => some (fmtI 0x10 a b disp)
  | .bne a b disp => some (fmtI 0x11 a b disp)
  | .blt a b disp => some (fmtI 0x12 a b disp)
  | .bge a b disp => some (fmtI 0x13 a b disp)
  | .bltu a b disp => some (fmtI 0x14 a b disp)
  | .bgeu a b disp => some (fmtI 0x15 a b disp)
  | .bful a disp => some (fmtI 0x16 a 0 disp)
  | .bemp a disp => some (fmtI 0x17 a 0 disp)
  | .j disp => some (fmtJ 0x18 disp)
  | .jal disp => some (fmtJ 0x19 disp)
  | .jalr d a imm => some (fmtI 0x1a d a imm)
  | .rep count sd sa sb sc len => some (fmtRep 0x1b count sd sa sb sc len)
  | .ld t base nud sz off => some (fmtM 0x20 t base nud (ldSizeBits sz) off)
  | .st t base nud sz off => some (fmtM 0x21 t base nud (stSizeBits sz) off)
  | .ldv t base nud off => some (fmtM 0x22 (0#1 ++ t) base nud 0 off)
  | .stv t base nud off => some (fmtM 0x23 (0#1 ++ t) base nud 0 off)
  | .ldaq t base nud sz scope off => some (fmtM 0x24 t base nud (ldSizeBits sz) (scopeBits scope ++ off))
  | .strl t base nud sz scope off => some (fmtM 0x25 t base nud (stSizeBits sz) (scopeBits scope ++ off))
  | .gath d a b m dword sh nud => some (fmtA 0x26 (0#1 ++ d) a (0#1 ++ b) (m ++ bit dword ++ sh ++ nud))
  | .scat d a b m dword sh nud => some (fmtA 0x27 (0#1 ++ d) a (0#1 ++ b) (m ++ bit dword ++ sh ++ nud))
  | .ldfe t base nud off => some (fmtM 0x28 t base nud 0 off)
  | .ldff t base nud off => some (fmtM 0x28 t base nud 1 off)
  | .stef t base nud off => some (fmtM 0x28 t base nud 2 off)
  | .stff t base nud off => some (fmtM 0x28 t base nud 3 off)
  | .sete base nud off => some (fmtM 0x28 0 base nud 4 off)
  | .setf base nud off => some (fmtM 0x28 0 base nud 5 off)
  | .stsb t base nud six idx => some (fmtM 0x29 t base nud (0#2 ++ bit six) (0#3 ++ idx))
  | .amoAdd d a b ord scope word => some (fmtA 0x2a d a b (amoOrdBits ord ++ scopeBits scope ++ bit word ++ 0#5))
  | .amoAnd d a b ord scope word => some (fmtA 0x2a d a b (amoOrdBits ord ++ scopeBits scope ++ bit word ++ 1#5))
  | .amoOr d a b ord scope word => some (fmtA 0x2a d a b (amoOrdBits ord ++ scopeBits scope ++ bit word ++ 2#5))
  | .amoXor d a b ord scope word => some (fmtA 0x2a d a b (amoOrdBits ord ++ scopeBits scope ++ bit word ++ 3#5))
  | .amoMin d a b ord scope word => some (fmtA 0x2a d a b (amoOrdBits ord ++ scopeBits scope ++ bit word ++ 4#5))
  | .amoMax d a b ord scope word => some (fmtA 0x2a d a b (amoOrdBits ord ++ scopeBits scope ++ bit word ++ 5#5))
  | .amoMinu d a b ord scope word => some (fmtA 0x2a d a b (amoOrdBits ord ++ scopeBits scope ++ bit word ++ 6#5))
  | .amoMaxu d a b ord scope word => some (fmtA 0x2a d a b (amoOrdBits ord ++ scopeBits scope ++ bit word ++ 7#5))
  | .amoSwp d a b ord scope word => some (fmtA 0x2a d a b (amoOrdBits ord ++ scopeBits scope ++ bit word ++ 8#5))
  | .amoCas d a b ord scope word => some (fmtA 0x2a d a b (amoOrdBits ord ++ scopeBits scope ++ bit word ++ 9#5))
  | .amoFaddS d a b ord scope => some (fmtA 0x2a d a b (amoOrdBits ord ++ scopeBits scope ++ 1#1 ++ 10#5))
  | .amoFaddD d a b ord scope => some (fmtA 0x2a d a b (amoOrdBits ord ++ scopeBits scope ++ 0#1 ++ 11#5))
  | .fence p q scope => some (fmtX 0x2b (0#1 ++ p) (0#1 ++ q) (0#2 ++ scopeBits scope) 0 0)
  | .pfence scope mm => some (fmtX 0x2b 0 0 (0#2 ++ scopeBits scope) 1 (0#5 ++ bit mm))
  | .pref hint base nud off => some (fmtM 0x2c hint base nud 0 off)
  | .send d a b tag => some (fmtX 0x2d d a b 0 tag)
  | .sendu d a b => some (fmtX 0x2d d a b 1 0)
  | .sendg a b => some (fmtX 0x2d 0 a b 2 0)
  | .recv d a b poll => some (fmtX 0x2d d a b 3 (0#5 ++ bit poll))
  | .waitk d a k poll => some (fmtX 0x2d d a (0#2 ++ k) 4 (0#5 ++ bit poll))
  | .clrk a k subtract => some (fmtX 0x2d 0 a (0#2 ++ k) 5 (0#5 ++ bit subtract))
  | .mskw => some (fmtX 0x2d 0 0 0 6 0)
  | .opnw => some (fmtX 0x2d 0 0 0 7 0)
  | .retu => some (fmtX 0x2d 0 0 0 8 0)
  | .chbind a kc ka => some (fmtX 0x2d 0 a 0 9 (kc ++ ka))
  | .bara d a => some (fmtX 0x2e d a 0 0 0)
  | .barw d a b => some (fmtX 0x2e d a b 1 0)
  | .baraw d a b => some (fmtX 0x2e d a b 2 0)
  | .fadd d a b p => some (fmtA 0x30 d a b (0#1 ++ precBits p ++ 0#2 ++ 0#6))
  | .fsub d a b p => some (fmtA 0x30 d a b (0#1 ++ precBits p ++ 0#2 ++ 1#6))
  | .fmul d a b p => some (fmtA 0x30 d a b (0#1 ++ precBits p ++ 0#2 ++ 2#6))
  | .fdiv d a b p => some (fmtA 0x30 d a b (0#1 ++ precBits p ++ 0#2 ++ 3#6))
  | .fsqrt d a p => some (fmtA 0x30 d a 0 (0#1 ++ precBits p ++ 0#2 ++ 4#6))
  | .fmin d a b p => some (fmtA 0x30 d a b (0#1 ++ precBits p ++ 0#2 ++ 5#6))
  | .fmax d a b p => some (fmtA 0x30 d a b (0#1 ++ precBits p ++ 0#2 ++ 6#6))
  | .feq d a b p => some (fmtA 0x30 d a b (0#1 ++ precBits p ++ 0#2 ++ 7#6))
  | .flt d a b p => some (fmtA 0x30 d a b (0#1 ++ precBits p ++ 0#2 ++ 8#6))
  | .fle d a b p => some (fmtA 0x30 d a b (0#1 ++ precBits p ++ 0#2 ++ 9#6))
  | .fclass d a p => some (fmtA 0x30 d a 0 (0#1 ++ precBits p ++ 0#2 ++ 10#6))
  | .fsgnj d a b p => some (fmtA 0x30 d a b (0#1 ++ precBits p ++ 0#2 ++ 11#6))
  | .fsgnjn d a b p => some (fmtA 0x30 d a b (0#1 ++ precBits p ++ 0#2 ++ 12#6))
  | .fsgnjx d a b p => some (fmtA 0x30 d a b (0#1 ++ precBits p ++ 0#2 ++ 13#6))
  | .fcvtI d a ty p => some (fmtA 0x30 d a (intTyBits ty) (0#1 ++ precBits p ++ 0#2 ++ 14#6))
  | .fcvtF d a ty p => some (fmtA 0x30 d a (intTyBits ty) (0#1 ++ precBits p ++ 0#2 ++ 15#6))
  | .fcvtFf d a src p => some (fmtA 0x30 d a (0#3 ++ precBits src) (0#1 ++ precBits p ++ 0#2 ++ 16#6))
  | .fmv d a p => some (fmtA 0x30 d a 0 (0#1 ++ precBits p ++ 0#2 ++ 17#6))
  | .fma d a b c p => some (fmtA 0x31 d a b (c ++ precBits p ++ 0#2 ++ 0#2))
  | .fms d a b c p => some (fmtA 0x31 d a b (c ++ precBits p ++ 0#2 ++ 1#2))
  | .fnma d a b c p => some (fmtA 0x31 d a b (c ++ precBits p ++ 0#2 ++ 2#2))
  | .fnms d a b c p => some (fmtA 0x31 d a b (c ++ precBits p ++ 0#2 ++ 3#2))
  | .vadd d a b m ty => some (fmtV 0x34 d a b 0 m (vTyBits ty) 0)
  | .vsub d a b m ty => some (fmtV 0x34 d a b 0 m (vTyBits ty) 1)
  | .vmul d a b m ty => some (fmtV 0x34 d a b 0 m (vTyBits ty) 2)
  | .vfma d a b c m ty => some (fmtV 0x34 d a b c m (vTyBits ty) 3)
  | .vfms d a b c m ty => some (fmtV 0x34 d a b c m (vTyBits ty) 4)
  | .vfnma d a b c m ty => some (fmtV 0x34 d a b c m (vTyBits ty) 5)
  | .vmin d a b m ty => some (fmtV 0x34 d a b 0 m (vTyBits ty) 6)
  | .vmax d a b m ty => some (fmtV 0x34 d a b 0 m (vTyBits ty) 7)
  | .vabs d a m ty => some (fmtV 0x34 d a 0 0 m (vTyBits ty) 8)
  | .vneg d a m ty => some (fmtV 0x34 d a 0 0 m (vTyBits ty) 9)
  | .vand d a b m ty => some (fmtV 0x34 d a b 0 m (vTyBits ty) 10)
  | .vor d a b m ty => some (fmtV 0x34 d a b 0 m (vTyBits ty) 11)
  | .vxor d a b m ty => some (fmtV 0x34 d a b 0 m (vTyBits ty) 12)
  | .vsll d a b m ty => some (fmtV 0x34 d a b 0 m (vTyBits ty) 13)
  | .vsrl d a b m ty => some (fmtV 0x34 d a b 0 m (vTyBits ty) 14)
  | .vsra d a b m ty => some (fmtV 0x34 d a b 0 m (vTyBits ty) 15)
  | .vexp2 d a m ty => some (fmtV 0x35 d a 0 0 m (vTyBits ty) 0)
  | .vlog2 d a m ty => some (fmtV 0x35 d a 0 0 m (vTyBits ty) 1)
  | .vrcp d a m ty => some (fmtV 0x35 d a 0 0 m (vTyBits ty) 2)
  | .vrsq d a m ty => some (fmtV 0x35 d a 0 0 m (vTyBits ty) 3)
  | .vsqrt d a m ty => some (fmtV 0x35 d a 0 0 m (vTyBits ty) 4)
  | .vdiv d a b m ty => some (fmtV 0x35 d a b 0 m (vTyBits ty) 5)
  | .vcvt d a unpack part c m ty => some (fmtV 0x35 d a (bit unpack ++ part) (pFmtBits c) m (vTyBits ty) 6)
  | .vcvts d a part c m ty => some (fmtV 0x35 d a (0#1 ++ part) (pFmtBits c) m (vTyBits ty) 7)
  | .vqnt d a b c part ty => some (fmtV 0x35 d a b (pFmtBits c) part (vTyBits ty) 8)
  | .vdqnt d a b c part ty => some (fmtV 0x35 d a b (pFmtBits c) part (vTyBits ty) 9)
  | .vclmp d a b c m ty => some (fmtV 0x35 d a b c m (vTyBits ty) 10)
  | .vscl d a b m ty => some (fmtV 0x35 d a b 0 m (vTyBits ty) 11)
  | .vcmp k a b cond m ty => some (fmtV 0x35 (0#1 ++ k) a b (vCondBits cond) m (vTyBits ty) 12)
  | .vsel d a b m ty => some (fmtV 0x35 d a b 0 m (vTyBits ty) 13)
  | .vmov d a m ty => some (fmtV 0x35 d a 0 0 m (vTyBits ty) 14)
  | .vbcst d a m ty => some (fmtV 0x35 d a 0 0 m (vTyBits ty) 15)
  | .vradd d a m ty => some (fmtV 0x36 d a 0 0 m (vTyBits ty) 0)
  | .vrmax d a m ty => some (fmtV 0x36 d a 0 0 m (vTyBits ty) 1)
  | .vrmin d a m ty => some (fmtV 0x36 d a 0 0 m (vTyBits ty) 2)
  | .vscana d a b m ty => some (fmtV 0x36 d a b 0 m (vTyBits ty) 3)
  | .vshuf d a b m ty => some (fmtV 0x36 d a b 0 m (vTyBits ty) 4)
  | .vrotl d a b m ty => some (fmtV 0x36 d a b 0 m (vTyBits ty) 5)
  | .vzip d a b m ty => some (fmtV 0x36 d a b 0 m (vTyBits ty) 6)
  | .vunzip d a b m ty => some (fmtV 0x36 d a b 0 m (vTyBits ty) 7)
  | .vext d a b c m ty => some (fmtV 0x36 d a b c m (vTyBits ty) 8)
  | .vins d a b m ty => some (fmtV 0x36 d a b 0 m (vTyBits ty) 9)
  | .viota d m ty => some (fmtV 0x36 d 0 0 0 m (vTyBits ty) 10)
  | .vmpop d m ty => some (fmtV 0x36 d 0 0 0 m (vTyBits ty) 11)
  | .vmand d a b => some (fmtV 0x36 (0#1 ++ d) (0#1 ++ a) (0#1 ++ b) 0 0 0 12)
  | .vmor d a b => some (fmtV 0x36 (0#1 ++ d) (0#1 ++ a) (0#1 ++ b) 0 0 0 13)
  | .vmnot d a => some (fmtV 0x36 (0#1 ++ d) (0#1 ++ a) 0 0 0 0 14)
  | .vdot d a b c m ty => some (fmtV 0x36 d a b c m (vTyBits ty) 15)
  | .spawn d a b => some (fmtX 0x38 d a b 0 0)
  | .sync a => some (fmtX 0x38 0 a 0 1 0)
  | .finish => some (fmtX 0x38 0 0 0 2 0)
  | .launch d a b => some (fmtX 0x38 d a b 3 0)
  | .decr d a => some (fmtX 0x38 d a 0 4 0)
  | .yield => some (fmtX 0x38 0 0 0 5 0)
  | .tskst d a wait level => some (fmtX 0x38 d a 0 6 (0#3 ++ bit wait ++ levelBits level))
  | .role mask => some (fmtX 0x38 0 0 (0#3 ++ mask.extractLsb' 6 2) 7 (mask.extractLsb' 0 6))
  | .stamp d origin => some (fmtX 0x39 d 0 0 0 (0#5 ++ bit origin))
  | .time d => some (fmtX 0x39 d 0 0 1 0)
  | .chkage d a b => some (fmtX 0x39 d a b 2 0)
  | .budget d texp => some (fmtX 0x39 d 0 0 3 (0#5 ++ bit texp))
  | .waitt d a scan => some (fmtX 0x39 d a 0 4 (0#5 ++ bit scan))
  | .phaseid d => some (fmtX 0x39 d 0 0 5 0)
  | .mxq d a b => some (fmtX 0x3a d a b 0 0)
  | .mxwait d a => some (fmtX 0x3a d a 0 1 0)
  | .mxpoll d a => some (fmtX 0x3a d a 0 2 0)
  | .mxepi a => some (fmtX 0x3a 0 a 0 3 0)
  | .mxpert a => some (fmtX 0x3a 0 a 0 4 0)
  | .mxdrain d cancel core => some (fmtX 0x3a d 0 0 5 (0#4 ++ bit cancel ++ bit core))
  | .hdset n a => some (fmtX 0x3b 0 a 0 0 (0#3 ++ n))
  | .hdgo d => some (fmtX 0x3b d 0 0 1 0)
  | .hdwait d a => some (fmtX 0x3b d a 0 2 0)
  | .hdpoll d a => some (fmtX 0x3b d a 0 3 0)
  | .ringi a b => some (fmtX 0x3b 0 a b 4 0)
  | .ringaw d a b => some (fmtX 0x3b d a b 5 0)
  | .ringrel a b => some (fmtX 0x3b 0 a b 6 0)
  | .tlst d a => some (fmtX 0x3c d a 0 0 0)
  | .tlwait d a state => some (fmtX 0x3c d a 0 1 (0#4 ++ state))
  | .tlset a b ready => some (fmtX 0x3c 0 a b 2 (0#4 ++ bit ready ++ 0#1))
  | .cardq d a => some (fmtX 0x3c d a 0 3 0)
  | .cardw d a => some (fmtX 0x3c d a 0 4 0)
  | .cancel d a level => some (fmtX 0x3c d a 0 5 (0#4 ++ levelBits level))
  | .aredc a op => some (fmtX 0x3d 0 (0#1 ++ a) 0 0 (0#4 ++ redOpBits op))
  | .aredw d => some (fmtX 0x3d (0#1 ++ d) 0 0 1 0)
  | .mmark a tag => some (fmtX 0x3e 0 a 0 0 tag)
  | .mlogq d field => some (fmtX 0x3e d 0 0 1 field)
  | .pairq d => some (fmtX 0x3e d 0 0 2 0)
  | .imlw d rs1 imm => some (imm ++ rs1 ++ 0#3 ++ d ++ 0x0b#7)
  | .omsw rs2 rs1 imm => some (imm.extractLsb' 5 7 ++ rs2 ++ rs1 ++ 1#3 ++ imm.extractLsb' 0 5 ++ 0x0b#7)
  | .wscan d => some (0#17 ++ (0#3 ++ d ++ 0x2b#7))
  | .rtime d => some (0#17 ++ (1#3 ++ d ++ 0x2b#7))
  | .sage d rs1 rs2 => some (0#7 ++ rs2 ++ rs1 ++ 2#3 ++ d ++ 0x2b#7)
  | .scq d rs1 => some (0#12 ++ rs1 ++ 3#3 ++ d ++ 0x2b#7)
  | .scw d rs1 => some (0#12 ++ rs1 ++ 4#3 ++ d ++ 0x2b#7)
  | .replyArrive => none
  | .memoryRequestArrive => none
  | .feRequestArrive => none
  | .waitfullRetry => none
  | .barrierArrival => none
  | .registerFill => none
  | .sendArrive => none
  | .urgentMessageArrive => none
  | .urgentAccept => none
  | .decrArrive => none
  | .slotTakeWork => none
  | .stealRequest => none
  | .slotStartDone => none
  | .launchFrameDeliver => none
  | .reuseClockReport => none
  | .coreResetNotice => none
  | .scanBoundary => none
  | .inputLatchComplete => none
  | .gangStop => none
  | .gangSaveDrained => none
  | .gangRestoreDone => none
  | .texpExpiry => none
  | .scanStart => none
  | .scanStop => none
  | .scanStopTakesEffect => none
  | .jobRegister => none
  | .jobDelete => none
  | .cardTimePoint => none
  | .cardStart => none
  | .invalStart => none
  | .invalComplete => none
  | .lpctWrite => none
  | .lpctRemap => none
  | .quotaWrite => none
  | .mortarDescWrite => none
  | .mortarRecordAppend => none
  | .mortarWriteRetry => none
  | .mortarReplayFetch => none
  | .divergenceTimeout => none
  | .mxeGrant => none
  | .mxeJobEnd => none
  | .mxeChunkRetry => none
  | .ballastStep => none
  | .hodTransferStart => none
  | .hodPacketIssue => none
  | .hodPacketPerform => none
  | .hodTransferEnd => none
  | .reductionComplete => none
  | .visionJobStart => none
  | .visionJobEnd => none
  | .visionWatchdog => none
  | .frameArrival => none
  | .cameraBlockLand => none
  | .outputFreeze => none
  | .outputTransmit => none
  | .gateWrite => none
  | .gclWrite => none
  | .forwardedFrameArrive => none
  | .pairAsActive => none
  | .pairAsStandby => none
  | .pairSwitchOver => none
  | .pairUnpair => none
  | .pairHandshake => none
  | .pairSilenceTimeout => none
  | .partnerResetSignal => none
  | .attestRequest => none
  | .attestComplete => none
  | .clkctlWrite => none
  | .ratioChangeStart => none
  | .ratioChangeDone => none
  | .ratioStepTimeout => none
  | .droopTrip => none
  | .droopLimit => none
  | .thermalSample => none
  | .thermalMigration => none
  | .plumbSet => none
  | .energyUpdate => none
  | .heartbeatWrite => none
  | .heartbeatPeriodEnd => none
  | .captureTimeout => none
  | .errorRecord => none
  | .eccCountReport => none
  | .patrolScrub => none
  | .faultNotice => none
  | .faultNoticeRetry => none
  | .faultWake => none
  | .retireBlock => none
  | .retireRelease => none
  | .retireCopyDone => none
  | .pairchkCouple => none
  | .pairchkDecouple => none
  | .fingerprintExchange => none
  | .containFence => none
  | .containReturn => none
  | .watchWrite => none
  | .watchStopArrive => none
  | .debugStop => none
  | .debugGo => none
  | .debugResume => none
  | .debugStep => none
  | .faultResume => none
  | .killTask => none
  | .debugLockWrite => none
  | .debugWindowWrite => none
  | .moduleReset => none
  | .modulePowerLoss => none
  | .clusterPowerLoss => none
  | .clusterResume => none
  | .journalDrain => none
  | .compactionStep => none
  | .ovflRead => none
  | .ovcntRead => none
  | .dinjRead => none
  | .strcntRead => none
  | .elostRead => none
  | .gateCounterRead => none
  | .registerWrite => none
  | .unassignedEncoding => none
  | .waittTimeReached => none
  | .scanCoreBaseInstruction => none
  | .pcieLinkTrained => none
  | .pcieLinkDown => none
  | .pairFlitArrive => none
  | .droopRestored => none
  | .stretchWindowEnd => none
  | .gclIntervalEnd => none
  | .reuseWindowEnd => none
  | .deviceWritten => none

/-- Bytes of a word as memory holds them, little-endian (R2, R242). -/
def wordBytes (w : BitVec 32) : List Byte :=
  [w.extractLsb' 0 8, w.extractLsb' 8 8, w.extractLsb' 16 8, w.extractLsb' 24 8]

end Sys2Proof
end

