-- ==== Sys2Proof/Config.lean ====
section
/-! DEFINITION. The free values of the model (assumption log 6): opaque constants without a body, so
that no proof can know one. The argument `n` is the count of free values drawn, `State.draws`. -/

namespace Sys2Proof.Config

/-- Nanoseconds of Plumb time that pass before a step (R236 to R238: the manual gives bounds, no values). -/
opaque elapsed : Nat → Nat
/-- A free number: a choice that the manual leaves among several. -/
opaque freeNat : Nat → Nat
/-- The device identity key's signature over a report (R228): the key is not in the manual. -/
opaque signature : BitVec 1024 → BitVec 512
/-- The 32-bit seed of a value whose bits the manual does not fix. -/
opaque freeWord : Nat → Word

/-- Source address of a plant port (R216): the manual gives no value. -/
opaque portMac : Nat → BitVec 48

end Sys2Proof.Config
end

