-- ==== Sys2Proof/Machine/Maps.lean ====
section
/-! DEFINITION. Sparse tables and byte memories as sorted lists, and bit-field helpers. -/

namespace Sys2Proof.Machine

/-! ### Tables by key -/

/-- The value at a key. -/
def mget {α : Type} : Map α → Nat → Option α
  | [], _ => none
  | (a, x) :: r, k => if a = k then some x else mget r k

/-- Set the value at a key, keeping keys rising. -/
def mset {α : Type} : Map α → Nat → α → Map α
  | [], k, v => [(k, v)]
  | (a, x) :: r, k, v =>
    if k < a then (k, v) :: (a, x) :: r
    else if a = k then (k, v) :: r
    else (a, x) :: mset r k v

/-- Remove a key. -/
def merase {α : Type} : Map α → Nat → Map α
  | [], _ => []
  | (a, x) :: r, k => if a = k then merase r k else (a, x) :: merase r k

/-- Put a number into a rising list without repeats. -/
def nadd : List Nat → Nat → List Nat
  | [], k => [k]
  | a :: r, k => if k < a then k :: a :: r else if a = k then a :: r else a :: nadd r k

/-- Put in or take out a number. -/
def nflag (l : List Nat) (k : Nat) (on : Bool) : List Nat :=
  if on then nadd l k else l.filter (· ≠ k)

/-! ### Byte memories (assumption log 2): an address not listed reads 0 -/

/-- What an unlisted address reads as. -/
def unlisted : Byte := 0

/-- The byte at an address. -/
def memByte : List Host.Cell → Nat → Byte
  | [], _ => unlisted
  | (a, x) :: r, k => if a = k then x else if k < a then unlisted else memByte r k

/-- Store one byte in canonical form: addresses rising, no entry that holds the unlisted value. -/
def memSet : List Host.Cell → Nat → Byte → List Host.Cell
  | [], k, v => if v = unlisted then [] else [(k, v)]
  | (a, x) :: r, k, v =>
    if k < a then (if v = unlisted then (a, x) :: r else (k, v) :: (a, x) :: r)
    else if a = k then (if v = unlisted then r else (k, v) :: r)
    else (a, x) :: memSet r k v

/-- Every address is above `lo`, addresses rise, no entry holds the unlisted value. -/
def memAbove : Option Nat → List Host.Cell → Bool
  | _, [] => true
  | lo, (a, x) :: r => (match lo with | none => true | some l => decide (l < a)) && decide (x ≠ unlisted) && memAbove (some a) r

/-- The canonical form of a byte memory. -/
abbrev Memory.wf (m : List Host.Cell) : Prop := memAbove none m = true

/-- `n` bytes from an address, in address order. -/
def memBytes (m : List Host.Cell) (a : Nat) : Nat → List Byte
  | 0 => []
  | n + 1 => memByte m a :: memBytes m (a + 1) n

/-- Store bytes at rising addresses. -/
def memStore (m : List Host.Cell) (a : Nat) : List Byte → List Host.Cell
  | [] => m
  | b :: r => memStore (memSet m a b) (a + 1) r

/-- Remove every byte (a reset, R476). -/
def memClear (_ : List Host.Cell) : List Host.Cell := []

/-! ### Numbers and bytes, little-endian (R2) -/

/-- The number that bytes hold, the first byte lowest. -/
def leNat : List Byte → Nat
  | [] => 0
  | b :: r => b.toNat + 256 * leNat r

/-- The `n` low bytes of a number, lowest first. -/
def natBytes : Nat → Nat → List Byte
  | 0, _ => []
  | n + 1, x => BitVec.ofNat 8 (x % 256) :: natBytes n (x / 256)

/-- The value of bytes as a word of width `w`. -/
def leWord (w : Nat) (bs : List Byte) : BitVec w := BitVec.ofNat w (leNat bs)

/-- Bits `hi` to `lo` of a word, as a number. -/
def bits {w : Nat} (x : BitVec w) (hi lo : Nat) : Nat := (x.toNat / 2 ^ lo) % 2 ^ (hi + 1 - lo)

/-- Bit `i` of a word. -/
def tbit {w : Nat} (x : BitVec w) (i : Nat) : Bool := x.getLsbD i

/-- A word with bits `hi` to `lo` replaced by the low bits of a number. -/
def setBits {w : Nat} (x : BitVec w) (hi lo : Nat) (v : Nat) : BitVec w :=
  BitVec.ofNat w (x.toNat - (bits x hi lo) * 2 ^ lo + (v % 2 ^ (hi + 1 - lo)) * 2 ^ lo)

/-- A truth value as a bit. -/
def b2n (b : Bool) : Nat := if b then 1 else 0

/-- Sign-extend to 64 bits. -/
def sext64 {w : Nat} (x : BitVec w) : Word := x.signExtend 64

/-- Lane `i` of width `w` of a vector (R316). -/
def lane (w : Nat) (x : V512) (i : Nat) : BitVec w := x.extractLsb' (w * i) w

/-- The vector whose lanes of width `w` are the listed values, lane 0 first. -/
def ofLanes (w : Nat) : List (BitVec w) → V512
  | [] => 0
  | l :: r => (l.setWidth 512) ||| ((ofLanes w r) <<< w)

/-- The numbers from 0 to n − 1, rising. -/
def upTo (n : Nat) : List Nat := List.range n

/-- Replace the element at a position. -/
def lset {α : Type} : List α → Nat → α → List α
  | [], _, _ => []
  | _ :: r, 0, y => y :: r
  | x :: r, n + 1, y => x :: lset r n y

/-- Remove the element at a position. -/
def ldrop {α : Type} : List α → Nat → List α
  | [], _ => []
  | _ :: r, 0 => r
  | x :: r, n + 1 => x :: ldrop r n

/-! ### Checks -/

/-- One step of the CRC-16 of R139. -/
def crc16Step (crc : Nat) (m : Bool) : Nat :=
  let b := xor (decide (crc % 2 = 1)) m
  if b then (crc / 2) ^^^ 0x8408 else crc / 2

/-- The CRC-16 of R139 over the `n` low bits of a number from bit 0 upwards. -/
def crc16Bits : Nat → Nat → Nat → Nat
  | 0, _, crc => crc
  | n + 1, x, crc => crc16Bits n (x / 2) (crc16Step crc (decide (x % 2 = 1)))

/-- The CRC-16 of R139 over `n` bits. -/
def crc16 (n x : Nat) : BitVec 16 := BitVec.ofNat 16 (crc16Bits n x 0xFFFF)

/-- One step of the CRC-64 of R470, most significant bit first. -/
def crc64Step (crc : Nat) (m : Bool) : Nat :=
  let top := decide (crc / 2 ^ 63 % 2 = 1)
  let sh := (crc * 2) % 2 ^ 64
  if xor top m then sh ^^^ 0x42F0E1EBA9EA3693 else sh

/-- The CRC-64 of R470 over the `n` low bits of a number, from its top bit down. -/
def crc64Bits : Nat → Nat → Nat → Nat
  | 0, _, crc => crc
  | n + 1, x, crc => crc64Bits n x (crc64Step crc (decide (x / 2 ^ n % 2 = 1)))

end Sys2Proof.Machine
end

