-- ==== Sys2Proof/Machine/State.lean ====
section
/-! DEFINITION. The state of the part as plain data: everything the manual gives the machine
(INVENTORY.md, `## State`), the reset state, and the reasons a step can stop. Sparse tables are lists
of (key, value) pairs; a key not listed has the default that the table's reader names. -/

namespace Sys2Proof.Machine

/-! ### The slot (R48 to R64, R140) -/

/-- The states of a slot, in the codes of the slot state word (R48, R140). -/
inductive SlotState where
  | empty | starting | active | waiting | parked | frozen
  deriving DecidableEq, Repr

/-- What a Parked slot awaits (R48, R55, R63, R93, R109, R269, R309, R310, R343, R422). -/
inductive Park where
  /-- not parked -/
  | none
  /-- an empty register: `v` register or g register by its key (R55) -/
  | reg (vec : Bool) (key : Nat)
  /-- one of the queues that the instruction pops and pushes is too empty or too full (R63) -/
  | queue (qs : List Nat)
  /-- a tile that has not the state (R93, R372, R373) -/
  | tile (t : Nat)
  /-- the receive ring is empty (R309) -/
  | ring
  /-- a k counter (R310) -/
  | counter (k : Nat)
  /-- a wake event, by IDLE (R269) -/
  | idle
  /-- the wake of a faulting block (R109, R111) -/
  | translation
  /-- a join word (R346) -/
  | join
  /-- a Plumb time (R358 form 0) -/
  | time (t : Word)
  /-- the next input latch (R358 form 1); `since` counts latches completed at issue -/
  | latch
  /-- the end of a level (R351) -/
  | level
  /-- the end of an MXE job or of several (R362, R365) -/
  | mxe
  /-- the end of a hod transfer (R368) -/
  | hod
  /-- the end of a graph instance (R374) -/
  | card
  /-- a reduction result, or room for one (R377) -/
  | reduction
  /-- the debug window's LOCK (R422) -/
  | lock
  /-- a wait withdrawn at a gang stop or a debug stop, to reissue (R299, R406) -/
  | reissue
  /-- the Mortar's next record (R63, R155) -/
  | replay
  /-- performance of earlier events of the slot (R288, R302, R303): the slot is Waiting -/
  | performed
  /-- room in a full queue (R179, R192, R348): the slot is Waiting -/
  | room
  deriving DecidableEq, Repr

/-- A register with its full/empty bit and poison flag (R50, R55). -/
structure Cell (w : Nat) where
  val : BitVec w := 0
  full : Bool := true
  psn : Bool := false
  deriving DecidableEq, Repr

/-- An entry of a hardware queue: value, poison flag, and the sender key of the slot that pushed it
(R62, R63, R152). -/
structure QEntry where
  val : Word := 0
  psn : Bool := false
  key : BitVec 12 := 0xFFF
  deriving DecidableEq, Repr

/-- The repeat-frame state of one level of a slot (R336, R337, R140). -/
structure Frame where
  v : Bool := false
  base : Word := 0
  cntM1 : BitVec 6 := 0
  lenM1 : BitVec 4 := 0
  sd : BitVec 4 := 0
  sa : BitVec 4 := 0
  sb : BitVec 4 := 0
  sc : BitVec 4 := 0
  repi : BitVec 6 := 0
  pos : BitVec 4 := 0
  /-- the captured words, in the slot's part of the core's sequencer buffer -/
  words : List (BitVec 32) := []
  deriving DecidableEq, Repr

/-- An urgent message waiting at a slot (R59, R60). -/
structure Urgent where
  key : BitVec 12
  job : Nat
  rsn : BitVec 32
  entry : Word
  w0 : Word
  w1 : Word
  psn0 : Bool
  psn1 : Bool
  /-- held by the Mortar at its acceptance: divergence was judged then (R488) -/
  judged : Bool := false
  deriving DecidableEq, Repr

/-- A request part: one address, its size, its lane, its data (R115, R296). -/
structure Part where
  addr : Word
  size : Nat
  lane : Nat := 0
  data : List Byte := []
  psn : Bool := false
  deriving DecidableEq, Repr

/-- What a slot asks of an owning node (R112, R115, R288). -/
inductive Act where
  | load
  | store
  /-- sub-byte store of an element of 4 or 6 bits at bit offset `bit` of the addressed bytes (R297) -/
  | storeSub (bit : Nat) (six : Bool)
  /-- AMO of R300 by its sub-operation; `e` is the comparand of CAS -/
  | amo (sub : Nat) (e : Word)
  /-- FE form by its sz (R298) -/
  | fe (form : Nat)
  | barrierArrive
  /-- barrier wait on a generation (R313) -/
  | barrierWait (gen : BitVec 32)
  /-- arrival and then wait (R313) -/
  | barrierBoth (gen : BitVec 32)
  /-- SPAWN's or LAUNCH's join add of `n` (R345, R348) -/
  | joinAdd (n : Nat)
  /-- FINISH's join subtract (R347) -/
  | joinSub
  /-- SYNC's read of the join word (R346) -/
  | joinWatch
  /-- RINGI: the image to write (R369) -/
  | ringInit
  /-- RINGAW for a count (R370) -/
  | ringWait (n : BitVec 32)
  /-- RINGREL of a count (R370) -/
  | ringRelease (n : BitVec 32)
  /-- HDGO's read of a ring object (R193) -/
  | ringRead
  /-- instruction fetch (R434) -/
  | fetch
  deriving DecidableEq, Repr

/-- An agent that a node answers (R115): a slot, a hart, the partner module, or nobody. -/
inductive Agent where
  /-- physical core and slot -/
  | slot (p sl : Nat)
  | hart (h : Nat)
  /-- the partner module (R223, R461) -/
  | partner
  | none
  deriving DecidableEq, Repr

/-- A request in flight to an owning node, or held there (R115, R174, R299). -/
structure Req where
  src : Agent
  tag : Nat
  /-- sender key or agent code (R148, R153) -/
  key : BitVec 12
  job : Nat
  rsn : BitVec 32
  launch : Nat := 0
  nud : BitVec 5 := 0
  act : Act
  parts : List Part
  /-- arrived from the fabric rather than from the core's own slot by local address (R403) -/
  remote : Bool := true
  /-- arrived before and is held at its point by the Mortar (R488) -/
  heldOp : Bool := false
  /-- physical addresses or local-store offsets of the parts, once translated -/
  phys : List Nat := []
  /-- has received its TACK and is queued for performance (R115) -/
  tacked : Bool := false
  /-- one of several requests of a store: its instruction can issue again after this one was performed (R296) -/
  oneOf : Bool := false
  deriving DecidableEq, Repr

/-- What the reply to a part of a request brought (R115, R432). -/
inductive Answer where
  /-- the value of a load or RMW, little-endian bytes, with poison -/
  | value (bytes : List Byte) (psn : Bool)
  /-- a translation acknowledgement, or the answer of an act without a value -/
  | tack
  /-- a translation fault: its kinds, the block it lies in, the address (R99, R109) -/
  | tfault (kinds : Nat) (va : Nat)
  /-- a negative acknowledgement, and the address of the part (R451) -/
  | nack (code : Nat) (addr : Word)
  /-- WAITFULL: the request, which its interface sends again (R453) -/
  | waitfull (r : Req)
  /-- the owner raised a thread fault: code of R421 and its address field -/
  | raise (code : Nat) (addr : Word)
  /-- a held wait withdrawn (R299) -/
  | withdrawn
  /-- the join word is not 0: a watch is registered (R346) -/
  | notYet
  deriving DecidableEq, Repr

/-- What a Waiting slot waits for, and how the instruction completes (R48, R287, R343). -/
structure Pend where
  instr : Instr
  word : BitVec 32
  /-- tag carried by the requests and replies of this wait -/
  tag : Nat
  /-- parts not yet answered -/
  left : Nat := 0
  /-- answers by lane or part -/
  got : List (Nat × Answer) := []
  /-- queue entries popped at issue, to be put back if the instruction does not retire (R433) -/
  pops : List (Nat × QEntry) := []
  /-- the Mortar records that the pops made (R154), a number, and those of a replay that they took (R155): none of them stays when
  the instruction does not retire (R433) -/
  recs : Nat := 0
  taken : List (BitVec 32 × BitVec 128) := []
  /-- queues in which room is reserved for the pushes at writeback (R63) -/
  pushes : List Nat := []
  /-- value computed at an earlier stage -/
  acc : Word := 0
  /-- offsets and sizes of the stores by local address that the core's own port performs: they are journalled at
  the retirement (R141) -/
  stores : List (Nat × Nat) := []
  /-- address for a fault packet -/
  addr : Word := 0
  /-- poison of the sources read -/
  psn : Bool := false
  /-- next PC -/
  npc : Word := 0
  /-- a refused full/empty request that waits FEIVL fc (R453) -/
  again : Option Req := none
  /-- refusals in a row (R453) -/
  refused : Nat := 0
  deriving DecidableEq, Repr

/-- A thread slot (R48 to R64, R140, R408). -/
structure Slot where
  st : SlotState := .empty
  park : Park := .none
  pend : Option Pend := none
  /-- general registers: key n the normal bank, key 32 + n the urgent bank (R58, R140) -/
  g : Map (Cell 64) := []
  v : Map (Cell 512) := []
  m : Map Word := []
  k : Map (BitVec 32) := []
  fmt : BitVec 10 := 0
  frm : BitVec 6 := 0
  fflg : BitVec 5 := 0
  taskId : BitVec 32 := 0
  launchId : BitVec 23 := 0
  jobId : BitVec 7 := 0
  lfsr : BitVec 32 := 1
  epi : Word := 0
  qbind : BitVec 8 := 0
  pin : Bool := false
  urg : Bool := false
  mwin : Bool := false
  pc : Word := 0
  urgPc : Word := 0
  /-- the urgent handler was entered from Empty (R61) -/
  urgFromEmpty : Bool := false
  /-- hidden join address (R32) -/
  join : Word := 0
  lsneed : BitVec 8 := 0
  idleLatch : Bool := false
  pinnedIdle : Bool := false
  /-- receive-channel descriptor of R307 and its counters -/
  chan : BitVec 17 := 0
  chanKa : MReg := 0
  chanKc : MReg := 0
  frame : Frame := {}
  frameUrg : Frame := {}
  /-- perturbation word (R189) -/
  pert : Word := 0
  urgents : List Urgent := []
  /-- continuations held in the slot when deque and spill area are full, the latest first (R38) -/
  held : List V512 := []
  /-- the frame that a Starting slot loads (R32, R64) -/
  starting : Option V512 := none
  /-- faulting block of a slot parked on a translation fault: job and VA[47:22] (R111) -/
  block : Option (Nat × Nat) := none
  /-- DSTAT (R408, R423) -/
  was : BitVec 2 := 0
  wdrn : Bool := false
  cause : BitVec 4 := 0
  skid : BitVec 8 := 0
  /-- CAUSE with which a Waiting slot freezes once its reply is applied, for a stop that found it so (R406); 0 none -/
  stopNext : BitVec 4 := 0
  dpc : BitVec 48 := 0
  /-- retirements since the slot's last journal entry (R141) -/
  sinceEntry : Nat := 0
  /-- PC of the HDGO at which the slot began to wait for an entry of the hod queue (R170) -/
  hodAt : Option Word := none
  /-- fingerprint of a checked pair (R470) -/
  finger : Word := 0
  /-- the slot waits for its fingerprint exchange (R470) -/
  exchanging : Bool := false
  /-- core clock of the last issue (R46) -/
  lastIssue : Option Nat := none
  /-- writeback of the last retirement: its core clock, and the g (`false`) and v (`true`) registers that it writes, by key, with
  (`true`, 16) for the idle latch: a fill or wake event that falls before it is applied before it (R56, R268, R269) -/
  wbDue : Nat := 0
  wbRegs : List (Bool × Nat) := []
  /-- left out of the next pass by YIELD (R350) -/
  yielded : Bool := false
  /-- single-stepped: freezes again after one instruction (R409) -/
  stepping : Bool := false
  /-- swept all steal victims without success: rests for one rotation (R40) -/
  resting : Bool := false
  /-- victims not yet tried in the current steal sweep (R40) -/
  victims : List Nat := []
  /-- latches completed when a WAITT form 1 issued (R358) -/
  latchSeen : Nat := 0
  /-- an operation of the slot is held at its point by the Mortar (R154, R155, R488) -/
  heldOp : Bool := false
  /-- the slot's task has been cancelled: it leaves the rotation at its next issue boundary (R25) -/
  doomed : Bool := false
  deriving DecidableEq, Repr

/-! ### The core (R38 to R43, R53, R62, R87 to R93, R139 to R149, R162, R179 to R195) -/

/-- A protection region set: the job it is bound to and its eight PREG values (R90). -/
structure RegionSet where
  job : Nat
  pregs : List Word
  deriving DecidableEq, Repr

/-- A frame in the pending area (R42): `ready` once its counter reached 0 and the run list was full. -/
structure PendingFrame where
  frame : V512
  ready : Bool := false
  deriving DecidableEq, Repr

/-- A message held in a core's overflow (R308). -/
structure HeldSend where
  key : BitVec 12
  job : Nat
  slot : Nat
  rsn : BitVec 32
  w0 : Word
  w1 : Word
  psn0 : Bool
  psn1 : Bool
  tag : BitVec 6
  deriving DecidableEq, Repr

/-- A context of a core: what a gang switch saves and restores (R143, R162). -/
structure Ctx where
  slots : Map Slot := []
  /-- local store, bytes; the task area is held as the lists below (R33) -/
  ls : List Host.Cell := []
  /-- words of the local store whose bit is empty (R57) -/
  lsEmpty : List Nat := []
  lsPoison : List Nat := []
  /-- sender key of the agent that last set a word's bit; 0xFFF where none is listed (R298) -/
  lsSetter : Map (BitVec 12) := []
  c : Map Word := []
  /-- writes to common registers not yet visible: due core clock, register, value (R54) -/
  cDue : List (Nat × Nat × Word) := []
  q : Map (List QEntry) := []
  /-- pushes not yet at writeback: due core clock, queue, entry (R63) -/
  qDue : List (Nat × Nat × QEntry) := []
  tiles : Map (BitVec 32) := []
  regions : List RegionSet := []
  /-- deque frames in the local store, far end first (R38) -/
  deque : List V512 := []
  /-- each job's spill area of this core: 2^32 × index of the farthest frame + number of frames (R38) -/
  spilled : Map Nat := []
  runList : List V512 := []
  /-- frames waiting at the interface for a run-list entry (R348) -/
  runWait : List V512 := []
  pending : List PendingFrame := []
  /-- dependence counters 0 to 127 (R33, R42) -/
  dep : Map Word := []
  /-- counters whose pending frame a cancel removed (R26, R349) -/
  depClosed : List Nat := []
  overflow : List HeldSend := []
  /-- frames for which CODE 0x03 was written (R39) -/
  strays : List V512 := []
  mxseen : Bool := false
  /-- the real-time job the context runs; none for the background context (R162) -/
  rtJob : Option Nat := none
  deriving DecidableEq, Repr

/-- How a level stands (R24, R25, R351). -/
inductive LevelState where
  | running | complete | cancelled | refused
  deriving DecidableEq, Repr

/-- A launch record at the launching core's interface (R30, R105, R348). -/
structure Launch where
  seq : Nat
  job : Nat
  /-- phase in which LAUNCH issued: its number (R30) -/
  phase : Option (BitVec 32) := none
  /-- graph instance (generation × 256 + number) and card of a KIND 0 card (R170) -/
  card : Option (Nat × Nat) := none
  count : Nat := 0
  st : LevelState := .running
  /-- accesses reported by the slices (R105) -/
  reported : Nat := 0
  deriving DecidableEq, Repr

/-- An MXE command-queue entry (R179, R361, R170). -/
structure MxJob where
  id : BitVec 32
  job : Nat
  slot : Nat
  blk : V512
  fmt : BitVec 10
  frm : BitVec 6
  epi : Word
  decay : BitVec 32
  seed : BitVec 32 := 1
  pert : Word := 0
  /-- graph instance and card, for a card's job -/
  card : Option (Nat × Nat) := none
  launch : Nat := 0
  /-- enqueue order at the footprint table (R128, R129) -/
  order : Nat := 0
  footR : List Word := []
  footW : List Word := []
  granted : Bool := false
  /-- the accumulator tile as the array read it at the grant, and its poisoned elements (R465, R456) -/
  c0 : List (BitVec 32) := []
  c0Psn : List Nat := []
  /-- stage 7: the tile to commit, and the output chunks left; the first failed its CRC and is written again (R467) -/
  tile : List (BitVec 32) := []
  rest : List (Word × List (Byte × Bool)) := []
  count : Nat := 0
  /-- the job runs again because its commit group was lost; its first end has been told (R149) -/
  redo : Bool := false
  deriving DecidableEq, Repr

/-- Status of an ended engine job (R188, R368). -/
structure Ended where
  id : BitVec 32
  job : Nat
  /-- 2 done, 3 cancelled -/
  state : Nat
  count : Nat
  deriving DecidableEq, Repr

/-- A held A span (R182). -/
structure HeldSpan where
  bytes : List Byte
  left : Nat
  mm1 : BitVec 7
  klen : BitVec 16
  fmt : BitVec 10
  deriving DecidableEq, Repr

/-- A committed job of the matrix engine whose commit group may still be lost: ring position after the group's end frame, the
job, its spans, and the hold in force before it ended (R149). -/
structure Commit where
  pos : Nat
  job : MxJob
  spanA : List Byte
  spanB : List Byte
  held : Option HeldSpan
  deriving DecidableEq, Repr

/-- A packet of a hod transfer (R192). -/
structure Packet where
  index : Nat
  src : Nat
  dst : Nat
  len : Nat
  deriving DecidableEq, Repr

/-- A hod transfer (R190 to R194). -/
structure Xfer where
  id : BitVec 32
  job : Nat
  slot : Nat
  regs : List Word
  /-- graph instance and card, for a card's transfer -/
  card : Option (Nat × Nat) := none
  launch : Nat := 0
  order : Nat := 0
  footR : List Word := []
  footW : List Word := []
  started : Bool := false
  /-- packets not yet issued -/
  todo : List Packet := []
  /-- packets issued and not yet performed -/
  flying : Nat := 0
  done : Nat := 0
  /-- refused: ends with STATE 3 (R452) -/
  failed : Bool := false
  /-- ring slot address computed at the start (R193) -/
  ringBase : Word := 0
  /-- the ring's atomic of this transfer has been judged by its point (R488) -/
  judged : Bool := false
  tilesW : List Nat := []
  tilesR : List Nat := []
  deriving DecidableEq, Repr

/-- A transfer among those of its core: a card's identifier may equal one of slot 15's (R170). -/
def Xfer.uid (t : Xfer) : Nat := t.id.toNat + (if t.card.isSome then 2 ^ 32 else 0)

/-- An AREDC contribution (R195, R377). -/
structure Contribution where
  job : Nat
  val : V512
  op : RedOp
  psn : Bool
  key : BitVec 12
  /-- Plumb time of the contribution, and the partition's tree by the coordinates of that time, as columns of logical cores:
  the earliest contribution starts the reduction -/
  time : Nat := 0
  tree : List (List Nat) := []
  deriving DecidableEq, Repr

/-- The core-wide image: state of the core that does not change with the context (R144). -/
structure Wide where
  acc : List Host.Cell := []
  accPoison : List Nat := []
  /-- acceptance table: the keys with their valid bit set, and the RSN last accepted (R148) -/
  accept : Map (BitVec 32) := []
  /-- retire sequence number of each slot position (R142) -/
  rsn : Map (BitVec 32) := []
  mxq : List MxJob := []
  actTable : Map (BitVec 32) := []
  /-- hod control registers of slot s at key 16 s + n (R190) -/
  hodRegs : Map Word := []
  deriving DecidableEq, Repr

/-- A physical core. -/
structure PCore where
  /-- the logical core whose state this core holds (R102) -/
  lcore : Nat
  res : Ctx := {}
  /-- the saved context of a real-time partition's core (R162) -/
  sav : Option Ctx := none
  /-- the resident set: false A, true B (R143) -/
  set : Bool := false
  wide : Wide := {}
  wb : List Host.Cell := []
  wbPoison : List Nat := []
  ab : List Host.Cell := []
  abPoison : List Nat := []
  launches : List Launch := []
  /-- next launch sequence number to try (R348) -/
  nextSeq : Nat := 0
  dispatch : BitVec 20 := 0
  /-- the core's copies of the reuse clocks of launches that its slots run (R105) -/
  rclk : Map (BitVec 32) := []
  victim : BitVec 16
  /-- Plumb time of the pop that took a job's last frame from the deque (R41) -/
  lastPop : Map Nat := []
  mxCount : BitVec 20 := 0
  mxEnded : List Ended := []
  heldA : Option HeldSpan := none
  /-- committed jobs whose commit groups are not folded yet, the latest first (R149) -/
  commits : List Commit := []
  hodCount : Map (BitVec 20) := []
  hodq : List Xfer := []
  /-- slots (by number) and cards (16 + reference × 2^16 + card) that wait for a hod-queue entry, in order (R170) -/
  hodWait : List Nat := []
  hodEnded : List Ended := []
  fifoA : List Byte := []
  fifoB : List Byte := []
  /-- held FE and barrier waits, SYNC watches, RINGAW requests, in arrival order (R299) -/
  waits : List Req := []
  /-- requests held by LOCK or a core-scope fault, in arrival order (R422, R424) -/
  lockHeld : List Req := []
  contribs : List Contribution := []
  /-- untaken results, the oldest first: job, value, poison (R377) -/
  results : List (Nat × V512 × Bool) := []
  redStat : Word := 0
  /-- reductions the core has completed -/
  redSeq : BitVec 32 := 0
  shadow : List (BitVec 256) := []
  /-- the ring position after the latest entry that an agent made here as a sender or an engine, by sender key or agent code
  (R133) -/
  authors : Map Nat := []
  /-- journal ring: the entries between the compaction pointer and the write position (R139, R145) -/
  ring : List (BitVec 256) := []
  /-- entries ever written to the ring -/
  ringPos : Nat := 0
  baseRes : Ctx := {}
  baseSav : Option Ctx := none
  baseWide : Wide := {}
  /-- core clock count since the most recent start of the cluster clock (R45) -/
  cc : Nat := 0
  /-- members of the current pass still to issue, and the clock each is due (R46) -/
  pass : List (Nat × Nat) := []
  watch : Word := 0
  whit : BitVec 256 := 0
  /-- the core clock of the watch hit or stop command, while the stop is on its way (R406) -/
  stopping : Option (Nat × Nat) := none
  stopSrc : BitVec 8 := 0
  lock : Word := 0
  temp : Nat := 0
  /-- thermally frozen, and consecutive hot samples at L (R482) -/
  thermFrozen : Bool := false
  hotSamples : Nat := 0
  /-- hot with no cool idle core: its record is written (R482) -/
  hotAlone : Bool := false
  /-- heartbeat stored in this period; misses; captured; periods since capture (R426, R476) -/
  beaten : Bool := false
  misses : Nat := 0
  captured : Bool := false
  /-- Plumb times of the start of the heartbeat period and of the capture -/
  beatFrom : Nat := 0
  capturedAt : Nat := 0
  dcmdSeen : Bool := false
  /-- slots to which DCMD 4 has been applied in a series (R428) -/
  killed : BitVec 16 := 0
  /-- core-scope fault: requests are held and no frame is taken (R424) -/
  coreFault : Bool := false
  /-- takes no frame until an LPCT entry names it again (R102) -/
  vacated : Bool := false
  /-- stopped for a ratio change, a remap or a migration -/
  halted : Bool := false
  /-- stopped for a gang switch (R164) -/
  switching : Bool := false
  /-- correctable errors in the current millisecond (R455) -/
  corrected : Nat := 0
  deriving DecidableEq, Repr

/-! ### Messages in flight (R115) -/

/-- A message, reply or notice in flight. -/
inductive Msg where
  /-- request to the node `dst` (codes of `nodeOf`) -/
  | req (dst : Nat) (r : Req)
  /-- request that dropped out or is held for a saved context of core `p` (R174) -/
  | held (p : Nat) (r : Req)
  | reply (dst : Agent) (tag : Nat) (part : Nat) (a : Answer)
  /-- register fill: `vec` names a v register (R56) -/
  | fill (key : BitVec 12) (job : Nat) (rsn : BitVec 32) (src : Agent) (tag : Nat) (lc sl : Nat) (vec : Bool)
      (reg : Nat) (val : V512) (psn : Bool)
  | send (key : BitVec 12) (job : Nat) (rsn : BitVec 32) (src : Agent) (tag : Nat) (lc sl : Nat)
      (w0 w1 : Word) (psn0 psn1 : Bool) (mtag : BitVec 6)
  | urgent (src : Agent) (tag : Nat) (lc sl : Nat) (u : Urgent)
  | decr (src : Agent) (tag : Nat) (key : BitVec 12) (job : Nat) (rsn : BitVec 32) (lc : Nat) (idx : Nat)
  /-- steal request of a thief slot (R40) -/
  | steal (p sl : Nat) (victim : Nat) (job : Nat)
  /-- frame of a launch on its way to logical core `lc`; `src` the launching logical core (R348) -/
  | frame (lc : Nat) (src : Nat) (f : V512) (dcount : Nat)
  /-- batch of accesses of a launch reported by a slice (R105) -/
  | clock (launch : Nat) (n : Nat)
  | resetNotice (dst : Nat) (lc : Nat)
  /-- packet of a hod transfer of logical core `lc`, by the transfer's `uid`: data read at issue (R192) -/
  | packet (lc : Nat) (id : Nat) (job : Nat) (pk : Packet) (data : List (Byte × Bool))
  | notice (node : Nat) (job : Nat) (va : Nat) (kinds : Nat) (p sl : Nat)
  | watchStop (p : Nat) (src : Nat)
  deriving DecidableEq, Repr

/-! ### Memory nodes and the control complex -/

/-- A cache line (R103 to R108). -/
structure Line where
  /-- line number: PA / 128 -/
  line : Nat
  way : Nat
  data : List Byte
  poison : List Nat := []
  dirty : Bool := false
  launch : Nat := 0
  job : Nat := 0
  due : BitVec 32 := 0
  unknown : Bool := true
  keep : Bool := false
  /-- reads left before the line invalidates itself; 0 none (R108) -/
  reads : Nat := 0
  /-- fill order -/
  born : Nat := 0
  /-- who has written the line since it was last in the devices, by sender key and agent code (R132, R133) -/
  by_ : List Nat := []
  deriving DecidableEq, Repr

/-- What a slice keeps of a launch (R105). -/
structure Tracked where
  launch : Nat
  clock : BitVec 32 := 0
  atWindow : BitVec 32 := 0
  delta : BitVec 32 := 0
  /-- accesses not yet reported -/
  batch : Nat := 0
  deriving DecidableEq, Repr

/-- A cached translation (R96): VA of the page, its size exponent, the leaf entry. -/
structure Tlb where
  job : Nat
  va : Nat
  bits : Nat
  leaf : Word
  deriving DecidableEq, Repr

/-- A retirement migration of a memory node (R459, R460). -/
structure Migration where
  src : Nat
  dst : Nat
  copied : Nat := 0
  dirty : List Nat := []
  /-- the copy is at its end and the node holds arrivals for the block (R460 step 4) -/
  switching : Bool := false
  deriving DecidableEq, Repr

/-- A memory node: cache slice, TLB, acceptance tables, retirement map. -/
structure MNode where
  sets : Map (List Line) := []
  tracked : List Tracked := []
  tlb : List Tlb := []
  accept : Map (BitVec 32) := []
  acceptPartner : Map (BitVec 32) := []
  retired : List (Nat × Nat) := []
  migration : Option Migration := none
  restarts : BitVec 16 := 0
  retErr : Bool := false
  /-- corrected errors of the memory and of the slice since the last report (R455) -/
  corrected : Nat := 0
  sramCorrected : Nat := 0
  deriving DecidableEq, Repr

/-- States of a phase, in the codes of PHASEID (R28, R359). -/
inductive PhaseState where
  | closed | opened | preempting | suspended | complete | cancelled
  deriving DecidableEq, Repr

/-- A registered job (R159 to R161) and its current phase (R27, R28). -/
structure Job where
  id : Nat
  record : V512
  pregs : List Word
  windows : List Word
  /-- launches and graph instances not complete (R23) -/
  count : Nat := 0
  /-- the counter has reached 0 and nothing has started since: status complete (R24) -/
  done : Bool := false
  /-- scans in a row in which a best-effort job has retired no instruction (R44) -/
  idle : Nat := 0
  phase : PhaseState := .closed
  number : BitVec 32 := 0
  topen : Nat := 0
  texp : Nat := 0
  /-- lowest core clock of the partition at opening: periods in units of 1/24 ns (R27) -/
  fccTicks : Nat := 20
  phaseCount : Nat := 0
  origin : BitVec 32 := 0
  resumed : Bool := false
  /-- cancelled while Pre-empting (R178) -/
  phaseCancelled : Bool := false
  /-- boundary that fell while the previous switch was incomplete (R489) -/
  pendingOpen : Option (Nat × Nat) := none
  prevNumber : Option (BitVec 32) := none
  prevState : PhaseState := .closed
  cancelled : Bool := false
  /-- Plumb time at which the gang switch that closed the latest phase ended (R235) -/
  closedAt : Option Nat := none
  deriving DecidableEq, Repr

/-- A graph instance at the Keystone (R168, R374). -/
structure Graph where
  inst : Nat
  gen : BitVec 16
  job : Nat
  /-- sender key of the slot whose CARDQ started it (R302) -/
  origin : BitVec 12 := 0xFFF
  phase : Option (BitVec 32) := none
  topen : Nat
  fccTicks : Nat := 20
  /-- chain of card indices, from the first -/
  cards : List Nat
  st : LevelState := .running
  /-- cards started or pending, not complete (R23) -/
  count : Nat := 0
  /-- cards whose time point has been met -/
  timeMet : List Nat := []
  /-- cards whose predecessor has completed -/
  predMet : List Nat := []
  started : List Nat := []
  deriving DecidableEq, Repr

/-- Steps of a gang switch (R164). -/
inductive SwitchStep where
  | due | stopped | drained
  deriving DecidableEq, Repr

/-- A gang switch of a partition (R163, R164, R171). -/
structure Switch where
  job : Nat
  /-- true: into the real-time context; false: back to the background context -/
  inward : Bool
  time : Nat
  /-- physical cores of the partition -/
  cores : List Nat := []
  step : SwitchStep := .due
  /-- the job was deleted since: no context of it is formed or kept (R162) -/
  void : Bool := false
  deriving DecidableEq, Repr

/-- The Mortar records of the queue pops of an agent's instruction whose reply is still to come: how many were made, and those of a
replay that it took, each with its ring index. If the instruction does not retire, none of them stays (R433). -/
structure Lent where
  agent : BitVec 12
  recs : Nat := 0
  taken : List (BitVec 32 × BitVec 128) := []
  deriving DecidableEq, Repr

/-- A Mortar descriptor and the unit's own state for the job (R150 to R155). -/
structure Mortar where
  base : Word := 0
  wptr : BitVec 32 := 0
  rptr : BitVec 32 := 0
  hwm : BitVec 32 := 0
  lsize : BitVec 5 := 8
  mode : BitVec 3 := 0
  ovcnt : BitVec 24 := 0
  divto : BitVec 32 := 0
  /-- a MODE written while scanning runs, in force from the next boundary -/
  nextMode : Option (BitVec 3) := none
  /-- SEQ of each point (R151) -/
  seq : Map (BitVec 16) := []
  /-- records that points have made and the unit has not appended, in arrival order -/
  queue : List (BitVec 128) := []
  /-- replay: records handed to their points and not yet matched, each with its ring index (R155) -/
  handed : List (BitVec 32 × BitVec 128) := []
  /-- Plumb time from which each point's divergence timeout counts (R488) -/
  since : Map Nat := []
  corrupt : Bool := false
  /-- points that declared divergence (R488) -/
  stopped : List Nat := []
  /-- replay: ring index of the next record that the unit reads -/
  loaded : BitVec 32 := 0
  /-- pops of instructions that wait for their replies -/
  lent : List Lent := []
  /-- a CODE 0x05 record was written in this scan (R487) -/
  notedFull : Bool := false
  /-- a CODE 0x09 record was written in this scan (R154) -/
  notedFail : Bool := false
  deriving DecidableEq, Repr

/-- A fault record (R110). -/
structure FaultRec where
  index : Nat
  bits : BitVec 256
  deriving DecidableEq, Repr

/-- The model's count of the clocks of a cluster: those counted up to a Plumb time, and whether the clock has run since. -/
structure ClockCount where
  base : Nat := 0
  since : Nat := 0
  runs : Bool := true
  deriving DecidableEq, Repr

/-- A physical cluster: MXE arbiter, clocks, power (R176, R229 to R235, R475 to R482). -/
structure Cluster where
  bramp : BitVec 8 := 0
  dinj : BitVec 8 := 0
  busy : Bool := false
  cur : BitVec 2 := 1
  req : BitVec 2 := 1
  /-- target and old point of the change in progress, and the number of tries (R230, R481) -/
  target : BitVec 2 := 1
  tries : Nat := 0
  /-- the step of R231 that exceeded its bound -/
  failStep : Nat := 0
  forced : Bool := false
  /-- a forced change that fell into a change in progress follows it (R480, R482) -/
  forceDue : Bool := false
  strcnt : BitVec 8 := 0
  thot : Bool := false
  tfrz : Bool := false
  rfail : Bool := false
  droop : Bool := false
  /-- closures of the injection switch: clock of the cluster at the end and length in cc (R232) -/
  closed : List (Nat × Nat) := []
  /-- the clocks that the cluster has run (R232, R480) -/
  clk : ClockCount := {}
  /-- the injection switch is closed (R232) -/
  inj : Bool := false
  stretched : Bool := false
  limited : Nat := 0
  powered : Bool := true
  /-- arbiter: local index of the round, consecutive grants taken (R176) -/
  round : Nat := 0
  taken : Nat := 0
  /-- the granted job: core and job identifier -/
  grant : Option (Nat × BitVec 32) := none
  /-- FA, FB, SCA, SCB of the previous grant: the format bubble of R183 adds time, which the model draws freely (log 5) -/
  lastFmt : Option (BitVec 10) := none
  /-- fraction accumulator in units of 1 / (1,000 × `ballastOf`), `ballastOf` being BRAMP at the last step (R235) -/
  ballast : Nat := 0
  ballastOf : Nat := 0
  hodNext : Nat := 0
  /-- CRECT (R475) -/
  crect : Word := 0
  fenced : Bool := false
  deriving DecidableEq, Repr

/-- A cell of a coarse plane, or a feature, as a vision engine holds it between its passes (R201 to R207): values in
whole pixels, CONF, REASON, whether pass 2 refines it, poison; `key` is a score, a match or a distance. -/
structure VisCell where
  x : Int := 0
  y : Int := 0
  conf : Nat := 0
  reason : Nat := 0
  ref : Bool := false
  psn : Bool := false
  key : Nat := 0
  dist : Nat := 0
  desc : BitVec 256 := 0
  deriving DecidableEq, Repr

/-- A vision job in a queue or on an engine (R196 to R203, R474). -/
structure Vision where
  /-- graph instance: generation × 256 + number -/
  inst : Nat
  card : Nat
  job : Nat
  blk : V512
  order : Nat := 0
  footR : List Word := []
  footW : List Word := []
  /-- a self-check or the watchdog has failed once (R474) -/
  retried : Bool := false
  /-- pass 1 is done: header fields and cells (R200, R203) -/
  done : Bool := false
  tarr : Word := 0
  stamp : BitVec 32 := 0
  enc : BitVec 32 := 0
  pz : Bool := false
  pdx : Int := 0
  pdy : Int := 0
  cells : List VisCell := []
  /-- pixels that pass 1 read, with which pass 2 compares the rows that it reads again (R474) -/
  rows : List Nat := []
  /-- the record for poisoned input has been written (R474) -/
  noted : Bool := false
  deriving DecidableEq, Repr

/-- A camera block that a gate is landing (R217): buffer, block identifier, payload packets seen, arrival
time and scan of the first packet, geometry from the leader. -/
structure Block where
  buf : Nat
  id : BitVec 64
  seen : List Nat := []
  tarr : Nat
  stamp : BitVec 32
  width : Nat
  height : Nat
  /-- payload size of its packets but the last; 0 while it is not known -/
  last : Nat := 0
  /-- a payload packet, by number, that waits until the payload size is known -/
  kept : Option (Nat × List Byte) := none
  /-- payload packets of the block, once it has ended -/
  total : Nat := 0
  /-- pixel writes that a memory node holds, in order (R460) -/
  late : List (Word × List Byte) := []
  refused : Bool := false
  deriving DecidableEq, Repr

/-- A stream gate: its entry, a written entry not yet in force, its counters, recovery and meter
state (R210, R212, R213, R217). -/
structure Gate where
  entry : V512 := 0
  next : Option V512 := none
  dup : BitVec 32 := 0
  ovsz : BitVec 32 := 0
  policed : BitVec 32 := 0
  accepted : BitVec 32 := 0
  late : BitVec 32 := 0
  nojob : BitVec 32 := 0
  /-- sequence recovery: highest sequence number taken and the history of 32 -/
  recov : Option (BitVec 16 × BitVec 32) := none
  /-- meter: tokens in bytes times 8e9, and the time of the last update -/
  tokens : Nat := 0
  tokenTime : Nat := 0
  frames : Nat := 0
  /-- camera block being landed, and the blocks that have ended and await their header (R217) -/
  block : Option Block := none
  ended : List Block := []
  frozen : Bool := false
  stale : Bool := false
  /-- ports on which the entry of this scan has been sent -/
  sent : List Nat := []
  lastStale : Bool := false
  deriving DecidableEq, Repr

/-- A frame that a gate has accepted and that no image holds yet (R215, R223): its place in the staging half, its bytes from the
EtherType, the earliest arrival of a copy, the arrival at this module's own port, its sequence number. -/
structure Staged where
  gate : Nat
  place : Nat
  bytes : List Byte
  time : Nat
  own : Option Nat := none
  seq : Option Nat := none
  deriving DecidableEq, Repr

/-- A frame body that a standby computed and did not send: its transmit time, gate and scan (R491). -/
structure Unsent where
  time : Nat
  gate : Nat
  stamp : BitVec 32
  body : List Byte
  deriving DecidableEq, Repr

/-- A plant port: its gate control list, a written one not yet in force, the current entry and the Plumb time of its start, frames
that wait for their class to open (R210, R211). -/
structure Port where
  gcl : List Word := []
  next : Option (List Word) := none
  cur : Nat := 0
  since : Nat := 0
  waiting : List (Nat × List Byte) := []
  deriving DecidableEq, Repr

/-- Modes of a scan-core hart (R218). -/
inductive Mode where
  | m | u
  deriving DecidableEq, Repr

/-- A scan-core hart (R218, R219). -/
structure Hart where
  x : Map Word := []
  f : Map Word := []
  pc : Word := 0
  mode : Mode := .m
  csr : Map Word := []
  sjob : BitVec 7 := 0
  slim : BitVec 32 := 0
  sflag : BitVec 14 := 0
  sview : BitVec 33 := 0
  /-- load reservation: address and size -/
  resv : Option (Nat × Nat) := none
  mem : List Host.Cell := []
  /-- waits for a latch (WSCAN) or an instance (SCW) -/
  waiting : Bool := false
  latchSeen : Nat := 0
  retired : Nat := 0
  deriving DecidableEq, Repr

/-- A frame or notice sent to the world outside (R216, R223, R418, R420). -/
inductive Sent where
  /-- a frame sent on a plant port -/
  | frame (port : Nat) (bytes : List Byte)
  /-- a fault packet to a supervisor core (R420) -/
  | packet (sup : Nat) (p : BitVec 256)
  /-- an MSI-X vector to the host (R418) -/
  | msix (v : Nat)
  /-- message to a supervisor or the management core about a record (R110, R418) -/
  | note (dest : Nat) (what : Nat)
  /-- a flit to the partner module (R223, R224) -/
  | flit (bytes : List Byte)
  /-- answer to an access from the partner module (R461) -/
  | partnerReply (tag part : Nat) (a : Answer)
  /-- status of a write that the arbiter refused: its number, the code (R211, R212) -/
  | status (seq : BitVec 32) (code : Nat)
  /-- the value that a read of a register returned to the agent that read it -/
  | value (v : Word)
  /-- a frame handed to the management core's best-effort ring (R210) -/
  | bestEffort (bytes : List Byte)
  deriving DecidableEq, Repr

/-- What an event of the part's own units concerns, and what it brings from outside: `n` and `k` its
indices (a position in the list of things in flight of that kind, a physical core and a slot, a job and an
offset), `v` the value a register write carries, `flag` its form, `bytes` what arrives, `pairs` a table. -/
structure Input where
  n : Nat := 0
  k : Nat := 0
  v : Word := 0
  flag : Bool := false
  bytes : List Byte := []
  pairs : List (Nat × Nat) := []
  deriving DecidableEq, Repr

/-- Who moves next (assumption log 5): a physical core, whose rotation names the slot (R45 to R47), a
hart, or an event. -/
inductive Turn where
  | core (p : Nat)
  | hart (h : Nat)
  | event (e : Instr) (a : Input)
  deriving DecidableEq, Repr

/-- What the lead of a coupled pair did outside its journal since a mark, which a rollback takes back (R471): a frame left its run
list (1) or deque (2), or the deque of another core `q`; the continuations held in slot `n` were others before; a launch counter
rose or fell. -/
inductive Undo where
  | popped (src : Nat) (f : BitVec 512)
  | stolen (q : Nat) (f : BitVec 512)
  | held (n : Nat) (l : List (BitVec 512))
  | level (l : Nat) (up : Bool)
  | urgent (n : Nat) (u : Urgent)
  deriving DecidableEq, Repr

/-- A checked pair (R469 to R471). -/
structure Pair where
  en : Bool := false
  state : Nat := 0
  disag : BitVec 16 := 0
  /-- a rollback is re-executing: slots and RSNs of the disagreeing exchanges -/
  retry : List (Nat × BitVec 32) := []
  /-- latest mark of each slot: ring position after it × 2^32 + RSN at it -/
  marks : Map Nat := []
  /-- WPTR of the job's Mortar noted at each slot's latest mark -/
  noted : Map (BitVec 32) := []
  /-- Mortar records of the pair's agents that the points replay while a rollback re-executes (R471) -/
  replay : List (BitVec 128) := []
  /-- the real-time job, if any, whose context re-executes -/
  replayCtx : Option Nat := none
  /-- a disagreement of a slot waits for the lead's rotation boundary (R471) -/
  failed : Option Nat := none
  /-- what a rollback takes back, the latest first, each with the ring position at which it happened -/
  undo : List (Nat × Undo) := []
  deriving DecidableEq, Repr

/-- The pair of modules (R222 to R225, R461, R490 to R492). -/
structure PairLink where
  role : BitVec 2 := 0
  link : Bool := false
  sync : Bool := false
  syncStamp : BitVec 32 := 0
  windows : Map Word := []
  pol : Word := 0
  /-- carry lines received in this scan: offset in the durable region, bytes -/
  lines : List (Nat × List Byte) := []
  digest : Option (BitVec 256) := none
  /-- CMD 3 was written and its boundary has not come (R225) -/
  switchPending : Bool := false
  /-- arrival time of the last flit from the partner -/
  lastFlit : Nat := 0
  /-- a standby takes over: arrival time of the last flit before the pair was declared down (R491) -/
  lateFrom : Option Nat := none
  stash : List Unsent := []
  /-- the carry set at the last boundary with SYNC = 1: offset and bytes of each window (R491) -/
  agreed : List (Nat × List Byte) := []
  /-- CMD 3 stands and the standby's comparison of the last boundary has not come: which module transmits in this scan is not
  known yet (R225) -/
  unsure : Bool := false
  syncFrom : Nat := 0
  deriving DecidableEq, Repr

/-- The state of the module. -/
structure State where
  /-- physical cores that differ from `PCore.init` -/
  cores : Map PCore := []
  clusters : Map Cluster := []
  nodes : Map MNode := []
  /-- main memory by physical address -/
  mem : List Host.Cell := []
  memPoison : List Nat := []
  /-- lines finished by a slice and not yet in the devices are the dirty lines of `nodes` -/
  memEcc : BitVec 2 := 0
  /-- durable region -/
  durable : List Host.Cell := []
  durablePoison : List Nat := []
  footAccept : Map (BitVec 32) := []
  /-- highest packet index that a receiver has accepted of each transfer: (destination code × 4096 + hod's agent code) ×
  2^33 + the transfer's `uid` (R148) -/
  hodAccept : Map Nat := []
  /-- acceptance tables of the nodes at 0xE0 and 0xE2 to 0xE5: node × 4096 + sender key (R148) -/
  regAccept : Map (BitVec 32) := []
  /-- TLBs of the cores' network interfaces, by physical core (R96) -/
  coreTlb : Map (List Tlb) := []
  net : List Msg := []
  /-- fills, SENDs and DECRs that their point holds in replay: divergence was judged at their arrival (R488) -/
  heldMsgs : List Msg := []
  /-- events that dropped out at a gang switch, by source and tag: none of them has been accepted (R172, R174) -/
  dropped : List (Agent × Nat) := []
  nextTag : Nat := 0
  /-- LPCT entries that differ from the reset value: 64-bit registers (R101) -/
  lpct : Map Word := []
  /-- feature class of the physical cores that have class 1, a fuse (R101) -/
  class1 : List Nat := []
  /-- remaps waiting for the LPCT unit, in order: entry and value (R101) -/
  remaps : List (Nat × Word) := []
  /-- thermal migrations that have started: hot core, cool idle core (R234) -/
  migrations : List (Nat × Nat) := []
  jobs : List Job := []
  jobRegResult : BitVec 32 := 0
  arbSeq : BitVec 32 := 0
  quotas : Map Word := []
  mortars : Map Mortar := []
  meters : Map Word := []
  ovfl : Map (BitVec 32) := []
  graphs : List Graph := []
  nextInst : Nat := 0
  nextGen : BitVec 16 := 0
  switches : List Switch := []
  /-- enqueue order of the footprint table (R128) -/
  nextOrder : Nat := 0
  /-- Keystone (R157, R158) -/
  run : Bool := false
  runErr : Bool := false
  period : BitVec 32 := 0
  start : Word := 0
  stamp : BitVec 32 := 0
  stamp0 : BitVec 32 := 0
  stopPending : Bool := false
  /-- boundaries since scanning started -/
  scans : Nat := 0
  /-- Plumb time in ns (R236) -/
  plumb : Nat := 0
  /-- INVAL (R100) -/
  inva : Word := 0
  invc : Word := 0
  /-- INVA as it stood when the command in progress started -/
  invAt : Word := 0
  invBusy : Bool := false
  invDone : BitVec 32 := 0
  invSeq : BitVec 32 := 0
  /-- writes numbered by the command arbiter that wait behind an INVC or AGO write: number, node field, offset, bytes (R100,
  R228) -/
  arbWait : List (BitVec 32 × Nat × Nat × List Byte) := []
  /-- fault collector (R110, R449, R450) -/
  faultRecs : List FaultRec := []
  refusedNotices : List Msg := []
  collectorFull : Bool := false
  feivl : BitVec 16 := 256
  felim : BitVec 16 := 4096
  /-- error ring: records still in it, newest first; EWP, EHOST, EMGT, ELOST (R418) -/
  errRing : List (BitVec 256) := []
  ewp : BitVec 32 := 0
  ehost : BitVec 32 := 0
  emgt : BitVec 32 := 0
  elost : BitVec 32 := 0
  /-- records on their way to the chip error arbiter, before SEQ and CHK are set -/
  errQueue : List (BitVec 256) := []
  pcieUp : Bool := false
  transients : Map Nat := []
  hbper : BitVec 32 := 1000
  capto : BitVec 32 := 100
  bootJournal : List (BitVec 128) := []
  starts : BitVec 32 := 0
  bootFailed : Bool := false
  /-- step 3 of the start failed: supervisor and scan cores stay in reset (R427) -/
  imagesOff : Bool := false
  /-- the management image was rejected: only I3C is served (R427) -/
  mgmtOff : Bool := false
  /-- fuses: which of the four key hashes are revoked, and the least image version (R227) -/
  keyRevoked : BitVec 4 := 0
  /-- fused hashes of public keys, four at most (R227) -/
  keyHashes : List (BitVec 256) := []
  imageMin : BitVec 32 := 0
  /-- SHA-256 digests of the images loaded since the start, in load order (R228) -/
  imageDigests : List (BitVec 256) := []
  /-- stores of the host and the management core that a latch holds: offset of node field 0xE2, bytes (R215) -/
  latchHeld : List (Nat × List Byte) := []
  pairChk : Map Pair := []
  pair : PairLink := {}
  /-- process image by offset in node field 0xE2, staging included (R214) -/
  image : List Host.Cell := []
  imagePoison : List Nat := []
  /-- corrected errors of the process image since the last report (R455) -/
  imageCorrected : Nat := 0
  latching : Bool := false
  latches : Nat := 0
  /-- accepted input frames that await a latch: gate, entry bytes, earliest arrival (R215, R223) -/
  staged : List Staged := []
  gates : Map Gate := []
  ports : Map Port := []
  /-- vision queues by type, engines by number, vision buffers -/
  visionQ : Map (List Vision) := []
  engines : Map Vision := []
  vbuf : List Host.Cell := []
  vbufPoison : List Nat := []
  harts : Map Hart := []
  /-- attestation (R228) -/
  anonce : BitVec 256 := 0
  attBusy : Bool := false
  attNonce : BitVec 256 := 0
  attSeq : BitVec 32 := 0
  attCur : BitVec 32 := 0
  areport : BitVec 1536 := 0
  devId : BitVec 64 := 0
  /-- activity since the last meter update: job and picojoules (R240) -/
  activity : Map Nat := []
  sent : List Sent := []
  /-- the model's own: who moves next, free values drawn, who issues (log 5) -/
  agenda : List Turn := []
  /-- what the event being taken concerns -/
  input : Input := {}
  draws : Nat := 0
  who : Nat × Nat := (0, 0)
  hartId : Nat := 0
  /-- the word the issuing slot or hart decoded -/
  word : BitVec 32 := 0
  deriving DecidableEq, Repr

/-- Why the machine stops. -/
inductive Fault where
  /-- Raised by `step` once the fuse read or root-of-trust self-test has failed: the manual says that the module stays in reset
  (R427 step 1), until it is reset again or loses its power. Safe: nothing of the part runs. -/
  | bootFailed
  deriving DecidableEq, Repr

/-- Why a step has no meaning. -/
inductive Refusal where
  /-- An instruction whose arm in `exec` is not written yet. Safe: nothing is claimed of it. -/
  | notModelled (mnemonic : String)
  deriving DecidableEq, Repr

/-- A physical core right after reset: logical core p on physical core p (R101), the victim sequence at
p + 1 (R40), everything else 0 and full (R428). -/
def PCore.init (p : Nat) : PCore := { lcore := p, victim := BitVec.ofNat 16 (p + 1) }

/-- Hart h right after reset (R218): the manual gives no reset vector; the program counter stands at the start of
the hart's own local memory (log 4). -/
def Hart.init (h : Nat) : Hart := { pc := BitVec.ofNat 64 (0xE0 * 2 ^ 56 + 0x02000000 + h * 0x80000) }

/-- A cluster right after reset: CUR and REQ at N (R229), CRECT its own row and column (R475). -/
def Cluster.init (i : Nat) : Cluster :=
  { crect := BitVec.ofNat 64 ((i / 4) * 2 ^ 9 + (i / 4) * 2 ^ 6 + (i % 4) * 2 ^ 4 + (i % 4) * 2 ^ 2) }

/-- Job 0 as reset registers it: PART all clusters, SLOTS 0x0001, WEIGHT 1, no GRAPH0 (R159). -/
def Job.zero : Job :=
  { id := 0, pregs := [0, 0, 0, 0, 0, 0, 0, 0], windows := []
    record := BitVec.ofNat 512 (0xFFFFFF * 2 ^ 96 + 0x0001 * 2 ^ 80 + 1 * 2 ^ 72 + 0xFFFF * 2 ^ 56) }

/-- The module right after module reset (R7, R428). -/
def State.reset : State := { jobs := [Job.zero] }

end Sys2Proof.Machine
end

