-- ==== Sys2Proof/Machine/Records.lean ====
section
/-! DEFINITION. The Mortar's records: their layout (R151, R152), and what becomes of those of an instruction that pops queues and
then does not retire (R433). -/

namespace Sys2Proof.Machine

/-- A resolution that a point makes: TYPE, ARG, AGENT and DATA of R152. -/
structure Resolution where
  type : Nat
  arg : Nat
  agent : BitVec 12
  data : Word
  deriving DecidableEq, Repr

/-- Fields of a record (R151). -/
def recType (r : BitVec 128) : Nat := bits r 119 116
def recPoint (r : BitVec 128) : Nat := bits r 115 104
def recAgent (r : BitVec 128) : Nat := bits r 103 92
def recArg (r : BitVec 128) : Nat := bits r 75 64
def recData (r : BitVec 128) : Word := r.setWidth 64

/-- XOR of the bytes of a list. -/
def xorBytes : List Byte → Byte
  | [] => 0
  | b :: r => b ^^^ xorBytes r

/-- A record with its CHK (R151). -/
def mkRec (x : Resolution) (point : Nat) (seq : BitVec 16) : BitVec 128 :=
  let body := x.type % 16 * 2 ^ 116 + point % 2 ^ 12 * 2 ^ 104 + x.agent.toNat * 2 ^ 92 + seq.toNat * 2 ^ 76
    + x.arg % 2 ^ 12 * 2 ^ 64 + x.data.toNat
  BitVec.ofNat 128 (body + (xorBytes (natBytes 15 body)).toNat * 2 ^ 120)

/-- Whether the CHK of a record holds (R488). -/
def recGood (r : BitVec 128) : Bool := decide (bits r 127 120 = (xorBytes (natBytes 15 r.toNat)).toNat)

/-- Whether a record and a resolution agree in TYPE, AGENT, ARG and DATA (R155). -/
def recMatches (r : BitVec 128) (x : Resolution) : Bool :=
  decide (recType r = x.type) && decide (recAgent r = x.agent.toNat) && decide (recArg r = x.arg % 2 ^ 12)
    && decide (recData r = x.data)

/-- RPTR in replay: past the records consumed, in ring order. -/
def replayRptr (m : Mortar) : BitVec 32 :=
  match m.handed with
  | (i, _) :: _ => i
  | [] => m.loaded

/-! ### Queue pops of an instruction that waits (R63, R433) -/

/-- A record of a queue pop by an agent (R152). -/
def popRecord (agent : BitVec 12) (r : BitVec 128) : Bool :=
  decide (recType r = 1) && decide (recArg r / 256 = 2) && decide (recAgent r = agent.toNat)

/-- A record with another SEQ. -/
def withSeq (r : BitVec 128) (seq : BitVec 16) : BitVec 128 :=
  mkRec { type := recType r, arg := recArg r, agent := BitVec.ofNat 12 (recAgent r), data := recData r } (recPoint r) seq

/-- The records of a point numbered on from `k`. -/
def reSeq (point : Nat) : BitVec 16 → List (BitVec 128) → List (BitVec 128)
  | _, [] => []
  | k, r :: l => if recPoint r = point then withSeq r k :: reSeq point (k + 1) l else r :: reSeq point k l

/-- Remove the last `n` records that satisfy a test. -/
def dropLast (test : BitVec 128 → Bool) (n : Nat) (l : List (BitVec 128)) : List (BitVec 128) :=
  (n.repeat (fun (l : List (BitVec 128)) => l.eraseP test) l.reverse).reverse

/-- A record goes back to its place among those handed out, which stand in ring order. -/
def backIn (loaded : BitVec 32) (e : BitVec 32 × BitVec 128) (l : List (BitVec 32 × BitVec 128)) : List (BitVec 32 × BitVec 128) :=
  let first := fun (x : BitVec 32 × BitVec 128) => decide ((loaded - e.1).toNat < (loaded - x.1).toNat)
  l.takeWhile first ++ e :: l.dropWhile first

/-- What a job's Mortar keeps of the pops of an agent's instruction whose reply is still to come. -/
def lentTo (m : Mortar) (agent : BitVec 12) : Option Lent := m.lent.find? fun l => decide (l.agent = agent)

/-- The records of those pops are undone: the ones made are taken back and the point's later ones are numbered without them, the
ones that a replay took stand at their point again. -/
def takeBackRecs (m : Mortar) (point now : Nat) (l : Lent) : Mortar :=
  let of := fun (q : List (BitVec 128)) => BitVec.ofNat 16 (q.filter fun r => decide (recPoint r = point)).length
  let q := dropLast (popRecord l.agent) l.recs m.queue
  let seq := (mget m.seq point).getD 0 - (of m.queue - of q)
  let m := { m with lent := m.lent.filter fun k => k.agent ≠ l.agent }
  let m := if l.recs = 0 then m else { m with queue := reSeq point (seq - of q) q, seq := mset m.seq point seq }
  if l.taken = [] then m
  else
    let m := { m with handed := l.taken.foldr (backIn m.loaded) m.handed, since := mset m.since point now }
    { m with rptr := replayRptr m }

end Sys2Proof.Machine
end

