-- ==== Sys2Proof/Machine/Ops.lean ====
section
/-! DEFINITION. Named operations over the state: reading and updating cores, slots and registers; the
journal (R139 to R142); error records (R416 to R418); taking a thread fault and the other ways in
which a slot leaves the rotation (R48, R420 to R424, R433). -/

namespace Sys2Proof.Machine

/-- The answer of an instruction's checks: go on with a value, or answer this state. -/
abbrev Chk (α : Type) := Except State α

/-- A step whose checks answer a state: that state either way. -/
def finish : Chk State → Host.Outcome State Fault Refusal
  | .ok s => .next s
  | .error s => .next s

/-! ### Cores, contexts, slots -/

/-- Physical core `p`. -/
def getCore (s : State) (p : Nat) : PCore := (mget s.cores p).getD (PCore.init p)
/-- Replace physical core `p`. -/
def setCore (s : State) (p : Nat) (c : PCore) : State := { s with cores := mset s.cores p c }
/-- Change physical core `p`. -/
def updCore (s : State) (p : Nat) (f : PCore → PCore) : State := setCore s p (f (getCore s p))
/-- Change the resident context of core `p`. -/
def updCtx (s : State) (p : Nat) (f : Ctx → Ctx) : State := updCore s p fun c => { c with res := f c.res }
/-- Change the core-wide image of core `p`. -/
def updWide (s : State) (p : Nat) (f : Wide → Wide) : State := updCore s p fun c => { c with wide := f c.wide }
/-- The core is stopped by the Keystone or by its cluster's clock. -/
def coreHeld (c : PCore) : Bool := c.halted || c.switching
/-- Slot `n` of a context. -/
def ctxSlot (x : Ctx) (n : Nat) : Slot := (mget x.slots n).getD {}
/-- Slot `n` of the resident context of core `p`. -/
def getSlot (s : State) (p n : Nat) : Slot := ctxSlot (getCore s p).res n
/-- Replace slot `n` of the resident context of core `p`. -/
def setSlot (s : State) (p n : Nat) (sl : Slot) : State :=
  updCtx s p fun x => { x with slots := mset x.slots n sl }
/-- Change slot `n` of the resident context of core `p`. -/
def updSlot (s : State) (p n : Nat) (f : Slot → Slot) : State := setSlot s p n (f (getSlot s p n))

/-- Cluster `i`. -/
def getCluster (s : State) (i : Nat) : Cluster := (mget s.clusters i).getD (Cluster.init i)
/-- Change cluster `i`. -/
def updCluster (s : State) (i : Nat) (f : Cluster → Cluster) : State :=
  { s with clusters := mset s.clusters i (f (getCluster s i)) }
/-- Memory node `n`. -/
def getNode (s : State) (n : Nat) : MNode := (mget s.nodes n).getD {}
/-- Change memory node `n`. -/
def updNode (s : State) (n : Nat) (f : MNode → MNode) : State := { s with nodes := mset s.nodes n (f (getNode s n)) }
/-- Stream gate `g`. -/
def getGate (s : State) (g : Nat) : Gate := (mget s.gates g).getD {}
/-- Change stream gate `g`. -/
def updGate (s : State) (g : Nat) (f : Gate → Gate) : State := { s with gates := mset s.gates g (f (getGate s g)) }
/-- Hart `h`. -/
def getHart (s : State) (h : Nat) : Hart := (mget s.harts h).getD (Hart.init h)
/-- Change hart `h`. -/
def updHart (s : State) (h : Nat) (f : Hart → Hart) : State := { s with harts := mset s.harts h (f (getHart s h)) }
/-- The Mortar descriptor of a job. -/
def getMortar (s : State) (j : Nat) : Mortar := (mget s.mortars j).getD {}
/-- Change the Mortar descriptor of a job. -/
def updMortar (s : State) (j : Nat) (f : Mortar → Mortar) : State :=
  { s with mortars := mset s.mortars j (f (getMortar s j)) }

/-- The registered job of an identifier. -/
def findJob (s : State) (j : Nat) : Option Job := s.jobs.find? fun x => x.id = j
/-- Change a registered job. -/
def updJob (s : State) (j : Nat) (f : Job → Job) : State :=
  { s with jobs := s.jobs.map fun x => if x.id = j then f x else x }

/-- The cluster that holds a physical core (R12). -/
def clusterOf (p : Nat) : Nat := p / 8
/-- Column x of a physical core in the mesh (R12). -/
def coreX (p : Nat) : Nat := 4 * (p / 8 % 4) + p % 4
/-- Row y of a physical core in the mesh (R12). -/
def coreY (p : Nat) : Nat := 2 * (p / 32) + p % 8 / 4
/-- Mesh distance between physical cores (R40). -/
def meshDist (a b : Nat) : Nat :=
  (coreX a - coreX b) + (coreX b - coreX a) + ((coreY a - coreY b) + (coreY b - coreY a))

/-- Physical cores of a cluster. -/
def coresOf (cl : Nat) : List Nat := (upTo 8).map fun k => 8 * cl + k

/-- A core stands for a ratio change: what is addressed to it waits at its interface (R231). -/
def clockStands (s : State) (p : Nat) : Bool := (getCluster s (clusterOf p)).busy && (getCore s p).halted

/-- An agent is no slot of core `p`. -/
def foreign (p : Nat) : Agent → Bool
  | .slot q _ => decide (q ≠ p)
  | _ => true

/-- A core-scope fault of core `p` holds what comes from another agent at its interface (R424). -/
def faultHolds (s : State) (p : Nat) (src : Agent) : Bool := (getCore s p).coreFault && foreign p src

/-- The cores of a cluster stand. -/
def allHalted (s : State) (cl : Nat) : Bool := (coresOf cl).all fun p => (getCore s p).halted

/-- The clock of a cluster, and its MXE, stand for a ratio change (R231). -/
def clockStopped (s : State) (cl : Nat) : Bool := (getCluster s cl).busy && allHalted s cl

/-! ### The LPCT (R101) -/

/-- Register LPCTn: V = 1 and PCORE = n after reset; CLASS is the fuse of the core that PCORE names. -/
def lpctEntry (s : State) (n : Nat) : Word := (mget s.lpct n).getD (BitVec.ofNat 64 (2 ^ 15 + n))
/-- Whether logical core `n` is mapped. -/
def lpctV (s : State) (n : Nat) : Bool := tbit (lpctEntry s n) 15
/-- The physical core that entry `n` names. -/
def physOf (s : State) (n : Nat) : Nat := bits (lpctEntry s n) 7 0
/-- CLASS of a physical core, a fuse: true for class 1, MXE fused off. -/
def isClass1 (s : State) (p : Nat) : Bool := s.class1.contains p
/-- The logical core whose state physical core `p` holds. -/
def logicalOf (s : State) (p : Nat) : Nat := (getCore s p).lcore

/-- Sender key of a slot: logical core × 16 + slot (R148). -/
def senderKey (s : State) (p sl : Nat) : BitVec 12 := BitVec.ofNat 12 (logicalOf s p * 16 + sl)

/-- The keys of a logical core leave an acceptance table (R148). -/
def forgetKeys (lc : Nat) (t : Map (BitVec 32)) : Map (BitVec 32) := t.filter fun e => decide (e.1 / 16 ≠ lc)

/-! ### Contexts that are away (R162, R174) -/

/-- An event dropped out at a gang switch before any point accepted it: it is performed later, whatever its source's key has
sent since (R135, R172, R174; log 79). -/
def droppedOut (s : State) (src : Agent) (tag : Nat) : Bool := s.dropped.contains (src, tag)

/-- A context of a job is saved on core `p` and is not the resident one (R174). -/
def savedFor (s : State) (p job : Nat) : Bool :=
  let c := getCore s p
  match c.sav with
  | none => false
  | some y =>
    match y.rtJob, c.res.rtJob with
    | some j, _ => decide (j = job)
    | none, some j => decide (j ≠ job) && (match findJob s job with
      | some k => decide (bits k.record 32 31 ≠ 1) && tbit k.record (96 + logicalOf s p / 8)
      | none => false)
    | none, none => false

/-- What a message finds at core `p` is away: its job's context is saved, or the cluster has no power (R172, R174, R483). -/
def awayFor (s : State) (p job : Nat) : Bool := savedFor s p job || !(getCluster s (clusterOf p)).powered

/-- A message finds core `p` stopped for a gang switch, or its job's context away: it drops out, and keeps its place (R172). -/
def fallsOut (s : State) (p job : Nat) : Bool := awayFor s p job || (getCore s p).switching

/-- A real-time job of whose partition core `p` is part has no context there yet: the first gang switch into it forms one
(R162). Its frames and engine jobs wait for that switch; other requests are performed as usual (R174). -/
def unformed (s : State) (p job : Nat) : Bool :=
  let c := getCore s p
  match findJob s job with
  | some j => decide (bits j.record 32 31 = 1) && tbit j.record (96 + logicalOf s p / 8) && decide (c.res.rtJob ≠ some job)
      && decide (c.sav.bind (fun x => x.rtJob) ≠ some job)
  | none => false

/-! ### Free values (assumption log 6) -/

/-- Draw a free number. -/
def drawNat (s : State) : Nat × State := (Config.freeNat s.draws, { s with draws := s.draws + 1 })

/-! ### Error records (R416 to R418, R425) -/

/-- A record before the arbiter gives it SEQ and CHK. -/
def mkRecord (time : Nat) (addr : Word) (data key src job code cls sev : Nat) (retry : Bool) : BitVec 256 :=
  BitVec.ofNat 64 time ++ addr ++ 0#32 ++ BitVec.ofNat 32 data ++ BitVec.ofNat 12 key ++ BitVec.ofNat 12 src ++ BitVec.ofNat 7 job
    ++ BitVec.ofNat 8 code ++ BitVec.ofNat 4 cls ++ BitVec.ofNat 2 sev ++ BitVec.ofBool retry ++ 0#18

/-- Send an error record to the chip error arbiter (R418). -/
def record (s : State) (cls code sev : Nat) (src job key : Nat) (addr : Word := 0) (data : Nat := 0)
    (retry : Bool := false) : State :=
  { s with errQueue := s.errQueue ++ [mkRecord s.plumb addr data key src job code cls sev retry] }

/-- The supervisor core that serves a physical core: 0 for clusters C0 to C11, else 1 (R418). -/
def supervisorOf (p : Nat) : Nat := if clusterOf p < 12 then 0 else 1

/-! ### Registers of a slot (R50, R58) -/

/-- Key of a g operand in a slot's register table: the urgent bank for 16 to 31 while URG = 1 (R58). -/
def gKey (sl : Slot) (r : GReg) : Nat := if sl.urg && decide (16 ≤ r.toNat) then 32 + r.toNat else r.toNat

/-- The queue that a g operand names, when the register is bound (R62). -/
def boundQ (sl : Slot) (r : GReg) : Option Nat :=
  if !sl.urg && decide (20 ≤ r.toNat) && decide (r.toNat ≤ 27) && tbit sl.qbind (r.toNat - 20) then some (r.toNat - 20)
  else none

/-- A general register by its key; key 0 is g0, which reads 0 and is always full (R50). -/
def gCell (sl : Slot) (key : Nat) : Cell 64 := if key = 0 then {} else (mget sl.g key).getD {}
/-- A vector register. -/
def vCell (sl : Slot) (r : Nat) : Cell 512 := (mget sl.v r).getD {}
/-- A mask register; m0 reads all ones (R50). -/
def mReg (sl : Slot) (r : Nat) : Word := if r = 0 then BitVec.allOnes 64 else (mget sl.m r).getD 0
/-- A mailbox counter. -/
def kReg (sl : Slot) (r : Nat) : BitVec 32 := (mget sl.k r).getD 0

/-- Write a general register by its key; writes to g0 are discarded (R50). -/
def setGCell (sl : Slot) (key : Nat) (c : Cell 64) : Slot := if key = 0 then sl else { sl with g := mset sl.g key c }
/-- Write a vector register. -/
def setVCell (sl : Slot) (r : Nat) (c : Cell 512) : Slot := { sl with v := mset sl.v r c }
/-- Write a mask register; writes to m0 are discarded. -/
def setMReg (sl : Slot) (r : Nat) (x : Word) : Slot := if r = 0 then sl else { sl with m := mset sl.m r x }
/-- Write a mailbox counter. -/
def setKReg (sl : Slot) (r : Nat) (x : BitVec 32) : Slot := { sl with k := mset sl.k r x }

/-- A queue of the core. -/
def getQ (x : Ctx) (q : Nat) : List QEntry := (mget x.q q).getD []

/-- STATUS (R52). -/
def statusWord (n : Nat) (sl : Slot) : BitVec 32 :=
  BitVec.ofNat 32 (sl.qbind.toNat * 2 ^ 24 + n % 16 * 2 ^ 20 + b2n sl.pin * 2 ^ 15 + b2n sl.urg * 2 ^ 14
    + b2n sl.mwin * 2 ^ 13 + sl.urgents.length % 8 * 2 ^ 10)

/-- Codes of the slot states (R140). -/
def slotStateCode : SlotState → Nat
  | .empty => 0 | .starting => 1 | .active => 2 | .waiting => 3 | .parked => 4 | .frozen => 5

/-- The slot state word, KIND 4 TARGET 19 (R140). -/
def slotStateWord (n : Nat) (sl : Slot) : Word :=
  BitVec.ofNat 64 ((statusWord n sl).toNat + slotStateCode sl.st * 2 ^ 32 + b2n sl.idleLatch * 2 ^ 35
    + b2n sl.pinnedIdle * 2 ^ 36)

/-- Frame control word (R140). -/
def frameControl (f : Frame) : Word :=
  BitVec.ofNat 64 (b2n f.v * 2 ^ 63 + f.cntM1.toNat * 2 ^ 30 + f.lenM1.toNat * 2 ^ 26 + f.sd.toNat * 2 ^ 22
    + f.sa.toNat * 2 ^ 18 + f.sb.toNat * 2 ^ 14 + f.sc.toNat * 2 ^ 10 + f.repi.toNat * 2 ^ 4 + f.pos.toNat)

/-- The receive-channel binding as a word: the descriptor of R307, and above it ka and kc (log 12). -/
def chanWord (sl : Slot) : Word :=
  BitVec.ofNat 64 (sl.chan.toNat + sl.chanKa.toNat * 2 ^ 17 + sl.chanKc.toNat * 2 ^ 20)

/-! ### The journal (R139 to R142) -/

/-- A journal unit: KIND, TARGET, DATA, full/empty bit and poison flag after the write. -/
structure JUnit where
  kind : Nat
  target : Nat
  data : Word
  full : Bool := true
  psn : Bool := false
  deriving DecidableEq, Repr

/-- A journal entry (R139), LAP 0 and CRC 0: both are set when it enters the ring. -/
def mkEntry (u : JUnit) (rsn : BitVec 32) (sl : Nat) (last eng ctxB : Bool) (npc : Word) : BitVec 256 :=
  0#24 ++ rsn ++ BitVec.ofNat 4 sl ++ BitVec.ofNat 4 u.kind ++ BitVec.ofBool last ++ BitVec.ofBool u.full ++ BitVec.ofBool u.psn
    ++ BitVec.ofBool ctxB ++ BitVec.ofBool eng ++ 0#7 ++ BitVec.ofNat 20 u.target ++ 0#32 ++ u.data
    ++ (if last && !eng then npc else 0)

/-- The entries of one act: the last carries LAST = 1. -/
def mkEntries (us : List JUnit) (rsn : BitVec 32) (sl : Nat) (eng ctxB : Bool) (npc : Word) : List (BitVec 256) :=
  match us with
  | [] => []
  | [u] => [mkEntry u rsn sl true eng ctxB npc]
  | u :: r => mkEntry u rsn sl false eng ctxB npc :: mkEntries r rsn sl eng ctxB npc

/-- Writes by remote requests, fills, the hod and the task hardware enter the shadow queue with ENG = 1 (R141). -/
def journalEng (c : PCore) (sl : Nat) (us : List JUnit) : PCore :=
  { c with shadow := c.shadow ++ mkEntries us 0 sl true c.set 0 }

/-- The latest entries of the shadow queue are agent `who`'s (R133). -/
def noteAuthor (who : Nat) (c : PCore) : PCore := { c with authors := mset c.authors who (c.ringPos + c.shadow.length) }

/-- The slots to which DCMD 4 has been applied, without one that has work again (R428). -/
def unkilled (c : PCore) (n : Nat) : BitVec 16 := c.killed &&& ~~~(BitVec.ofNat 16 (2 ^ n))

/-- Journal units of a 512-bit v register: one for each 64-bit word (R140 KIND 1). -/
def vUnits (r : Nat) (c : Cell 512) : List JUnit :=
  (upTo 8).map fun i => { kind := 1, target := i * 16 + r, data := lane 64 c.val i, full := c.full, psn := c.psn }

/-- The retire sequence number of a slot position (R142). -/
def slotRsn (s : State) (p sl : Nat) : BitVec 32 := (mget (getCore s p).wide.rsn sl).getD 0
/-- The RSN that the slot's current instruction carries: one more than the slot position's (R142). -/
def nextRsn (s : State) (p sl : Nat) : BitVec 32 := slotRsn s p sl + 1

/-- A retirement of a slot's job: its scans without one are counted anew (R44). -/
def noteRetired (s0 s1 : State) (p n : Nat) : State :=
  let j := (getSlot s0 p n).jobId.toNat
  if slotRsn s0 p n ≠ slotRsn s1 p n ∧ (s1.jobs.any fun x => decide (x.id = j) && decide (x.idle ≠ 0)) then
    updJob s1 j fun x => { x with idle := 0 }
  else s1

/-! ### Waking -/

/-- A Parked slot whose condition is met becomes Active (R48), and so does a Waiting slot that awaits a condition
rather than a reply. -/
def wakeSlot (sl : Slot) : Slot :=
  if sl.st = .parked || (sl.st = .waiting && sl.pend.isNone) then { sl with st := .active, park := .none } else sl

/-- Wake a slot that awaits a condition that `why` accepts. -/
def wakeIf (why : Park → Bool) (sl : Slot) : Slot := if sl.park ≠ .none && why sl.park then wakeSlot sl else sl

/-- A slot parked on one of these queues (R63). -/
def awaitsQueue (qs : List Nat) : Park → Bool
  | .queue ps => ps.any fun q => qs.contains q
  | _ => false

/-- Wake the slots of a context that await a reason that `why` accepts. -/
def wakeCtx (why : Park → Bool) (x : Ctx) : Ctx := { x with slots := x.slots.map fun (n, sl) => (n, wakeIf why sl) }

/-- Wake every slot of core `p` parked for a reason that `why` accepts, in both contexts. -/
def wakeCore (s : State) (p : Nat) (why : Park → Bool) : State :=
  updCore s p fun c => { c with res := wakeCtx why c.res, sav := c.sav.map (wakeCtx why) }

/-- Wake every parked slot of the module whose reason `why` accepts, in both contexts of its core (R380). -/
def wakeAll (s : State) (why : Park → Bool) : State :=
  { s with cores := s.cores.map fun (p, c) => (p, { c with res := wakeCtx why c.res, sav := c.sav.map (wakeCtx why) }) }

/-- The idle latch among what a writeback writes. -/
def idleMark : Bool × Nat := (true, 16)

/-- IDLE has issued and has not yet tested the latch, at core clock `cc`: an event in the clock of the writeback comes before
the test (R269, R285). -/
def idleTests (cc : Nat) (sl : Slot) : Bool := decide (cc ≤ sl.wbDue) && sl.wbRegs.contains idleMark

/-- A wake event of R269 at core clock `cc`: a slot parked by IDLE becomes Active; before IDLE's test the latch that the event
sets is cleared by the test; otherwise the idle latch is set. -/
def wakeEvent (cc : Nat) (sl : Slot) : Slot :=
  if sl.st = .parked && decide (sl.park = .idle) then wakeSlot sl
  else if idleTests cc sl then sl
  else { sl with idleLatch := true }

/-! ### Leaving the rotation (R48, R420 to R424, R433) -/

/-- A fault packet (R420). -/
def mkPacket (time : Nat) (addr : Word) (pc : Word) (word : BitVec 32) (code detail p lc sl job : Nat) : BitVec 256 :=
  BitVec.ofNat 64 time ++ addr ++ pc.setWidth 48 ++ word ++ BitVec.ofNat 8 code ++ BitVec.ofNat 8 detail ++ BitVec.ofNat 8 p
    ++ BitVec.ofNat 8 lc ++ BitVec.ofNat 4 sl ++ BitVec.ofNat 7 job ++ 0#5

/-- Put popped queue entries back at the front of their queues: a faulting or parking instruction pops
nothing (R433). The pops are listed in the order in which they were made. -/
def unpop (x : Ctx) : List (Nat × QEntry) → Ctx
  | [] => x
  | (q, e) :: r => let y := unpop x r; { y with q := mset y.q q (e :: getQ y q) }

/-- The instruction of a Waiting slot ends without retiring: what it popped goes back, the room that it reserved is free
again, and slots parked on those queues look again (R63, R433). -/
def undoQueues (x : Ctx) (d : Pend) : Ctx := wakeCtx (awaitsQueue (d.pops.map Prod.fst ++ d.pushes)) (unpop x d.pops)

/-- The records of the pops of slot `n`'s instruction are undone (R433). -/
def undoRecords (s : State) (p n : Nat) : State :=
  let job := (getSlot s p n).jobId.toNat
  match lentTo (getMortar s job) (senderKey s p n) with
  | some l => updMortar s job fun m => takeBackRecs m (logicalOf s p) s.plumb l
  | none => s

/-- AN INSTRUCTION THAT WAITS ENDS WITHOUT RETIRING (R63, R433): its pops are undone, and their records. -/
def undoPend (s : State) (p n : Nat) : Option Pend → State
  | some d =>
    let s := updCtx s p fun x => undoQueues x d
    if d.pops = [] then s else undoRecords s p n
  | none => s

/-- What a slot becomes when a fault freezes it (R48, R408, R423): Frozen with CAUSE 1, its PC held. -/
def frozenSlot (sl : Slot) (pc : Word) : Slot :=
  { sl with st := .frozen, park := .none, pend := none, cause := 1, dpc := pc.setWidth 48
            was := match sl.st with | .waiting => 1 | .parked => 2 | _ => 0
            stepping := false, stopNext := 0 }

/-- Send the fault packet of a slot to its supervisor core (R420). -/
def sendPacket (s : State) (p n code detail : Nat) (addr pc : Word) (word : BitVec 32) : State :=
  { s with sent := s.sent ++ [.packet (supervisorOf p)
      (mkPacket s.plumb addr pc word code detail p (logicalOf s p) n (getSlot s p n).jobId.toNat)] }

/-- TAKING A THREAD FAULT (R48, R420, R433): the slot freezes with its state as it was before the
instruction, its PC at the instruction; a fault packet goes to a supervisor core and a CLASS 0 record to
the error arbiter. DATA of the record is the operand that carried poison, for fault 0x05 (R457). -/
def freezeSlot (s : State) (p n code : Nat) (addr : Word) (word : BitVec 32) (detail : Nat := 0) (data : Nat := 0) :
    State :=
  let sl := getSlot s p n
  let s := undoPend s p n sl.pend
  let s := sendPacket s p n code detail addr sl.pc word
  let s := record s 0 code 2 p sl.jobId.toNat (senderKey s p n).toNat addr data
  let s := updSlot s p n fun sl => frozenSlot sl sl.pc
  -- an armed cluster fences itself on consumed poison (R476)
  if code = 0x05 && tbit (getCluster s (clusterOf p)).crect 16 then
    { s with agenda := s.agenda ++ [.event .containFence { v := BitVec.ofNat 64 (2 ^ 63 + clusterOf p * 2 ^ 58) }] }
  else s

/-- The issuing slot takes a thread fault; its word is `s.word`. -/
def freeze (s : State) (code : Nat) (addr : Word) (detail : Nat := 0) (data : Nat := 0) : State :=
  freezeSlot s s.who.1 s.who.2 code addr s.word detail data

/-- The checks of the issuing slot end in a thread fault. -/
def faultWith {α : Type} (s : State) (code : Nat) (addr : Word := 0) (detail : Nat := 0) (data : Nat := 0) : Chk α :=
  .error (freeze s code addr detail data)

/-- The issuing slot moves to Waiting for a condition and then reissues its instruction (R179, R288, R343). -/
def await {α : Type} (s : State) (why : Park) : Chk α :=
  .error (updSlot s s.who.1 s.who.2 fun sl => { sl with st := .waiting, park := why })

/-- The issuing slot parks; it reissues its instruction when it wakes (R48, R55). -/
def park {α : Type} (s : State) (why : Park) : Chk α :=
  .error (updSlot s s.who.1 s.who.2 fun sl => { sl with st := .parked, park := why })

/-- The check of a condition that raises a thread fault when it does not hold. -/
def require (s : State) (ok : Bool) (code : Nat) (addr : Word := 0) (data : Nat := 0) : Chk Unit :=
  if ok then .ok () else faultWith s code addr 0 data

/-- The issuing slot. -/
def me (s : State) : Slot := getSlot s s.who.1 s.who.2
/-- Change the issuing slot. -/
def updMe (s : State) (f : Slot → Slot) : State := updSlot s s.who.1 s.who.2 f
/-- The core clock at which the issuing slot issued (R46). -/
def issueCc (s : State) : Nat := (me s).lastIssue.getD 0
/-- The job of the issuing slot. -/
def myJob (s : State) : Nat := (me s).jobId.toNat

/-- A slot that issues again at its PC. -/
def resumedFrom (sl : Slot) : Slot := { sl with st := .active, cause := 0, wdrn := false, park := .none, pend := none, heldOp := false }

/-- RESUME OF A FROZEN SLOT (R48, R409, R423): it becomes Active and reissues at its PC; CAUSE 0. -/
def resumeSlot (s : State) (p n : Nat) : State := updSlot s p n resumedFrom

end Sys2Proof.Machine
end

