-- ==== Sys2Proof/Machine/Memory.lean ====
section
/-! DEFINITION. Main memory behind the shared cache (R95, R103 to R108, R456, R459, R460), translation
(R96 to R99), the local store and the other byte memories with poison (R456). -/

namespace Sys2Proof.Machine

/-! ### Poison (R456) -/

/-- Whether a read of `n` bytes at `a` touches a poisoned unit of `u` bytes. -/
def poisonRead (u : Nat) (l : List Nat) (a n : Nat) : Bool :=
  l.any fun k => decide (k * u < a + n) && decide (a < (k + 1) * u)

/-- Units of `u` bytes that an access of `n` bytes at `a` touches. -/
def unitsOf (u a n : Nat) : List Nat := (upTo ((a + n - 1) / u + 1 - a / u)).map (· + a / u)

/-- Poison after a store: poisoned data poisons every unit touched; unpoisoned data clears the units it
covers whole and leaves the others as they are. -/
def poisonStore (u : Nat) (l : List Nat) (a n : Nat) (psn : Bool) : List Nat :=
  (unitsOf u a n).foldl (fun l k =>
    if psn then nadd l k
    else if a ≤ k * u && decide ((k + 1) * u ≤ a + n) then l.filter (· ≠ k) else l) l

/-- Bytes stored at `a`, and the pattern, data 0, in each unit of `u` bytes they touch that is poison then (R454 to R456). -/
def markedStore (u : Nat) (m : List Host.Cell) (marks : List Nat) (a : Nat) (bs : List Byte) : List Host.Cell :=
  (unitsOf u a bs.length).foldl (fun m k => if marks.contains k then memStore m (u * k) (List.replicate u 0) else m) (memStore m a bs)

/-- The same in a line of the shared cache. -/
def markedLine (data : List Byte) (marks : List Nat) (off : Nat) (bs : List Byte) : List Byte :=
  (unitsOf 32 off bs.length).foldl
    (fun d k => if marks.contains k then d.take (32 * k) ++ List.replicate 32 0 ++ d.drop (32 * k + 32) else d)
    (data.take off ++ bs ++ data.drop (off + bs.length))

/-! ### Energy (R239, R240): femtojoules by job -/

/-- Charge an activity to a job. -/
def charge (s : State) (job fj : Nat) : State :=
  { s with activity := mset s.activity job ((mget s.activity job).getD 0 + fj) }

/-- A coefficient in femtojoules at H, scaled for the operating point of a cluster (R240). -/
def scaledEnergy (s : State) (cl fj : Nat) : Nat :=
  match (getCluster s cl).cur.toNat with
  | 0 => fj * 5625 / 10000
  | 1 => fj * 81 / 100
  | _ => fj

/-! ### Devices and retirement -/

/-- Home memory node of a main-memory address (R95, R98). -/
def homeNode (pa : Nat) : Nat := pa / 2 ^ 12 % 32
/-- Cluster of the edge router at which a memory node stands (R12, R13). -/
def nodeCluster (n : Nat) : Nat :=
  let y := fun (i : Nat) => if i < 4 then i else i + 4
  let at_ := if n < 8 then (2 * n, 0) else if n < 16 then (2 * (n - 8), 11) else if n < 24 then (0, y (n - 16)) else (15, y (n - 24))
  at_.2 / 2 * 4 + at_.1 / 4
/-- A memory node lies inside a fenced rectangle (R451, R463; log 25). -/
def nodeFenced (s : State) (n : Nat) : Bool := (getCluster s (nodeCluster n)).fenced
/-- Cluster of the edge router at which the node of a node field stands (R13): ingress at (0, 4), vision at (0, 5), the
control complex at (0, 6) and (0, 7), the pair link at (15, 4), PCIe at (15, 5). -/
def edgeCluster (nf : Nat) : Nat :=
  match nf with
  | 0xE0 | 0xE1 => 12
  | 0xE2 | 0xE3 => 8
  | _ => 11
/-- The node of a node field 0xE0 to 0xE5 or 0xF0 lies inside a fenced rectangle: like a memory node it then refuses what
slots and engines send; the masters reach their registers by ways of their own (log 25). -/
def edgeFenced (s : State) (nf : Nat) : Bool := (getCluster s (edgeCluster nf)).fenced

/-- Block number PA[38:21] of R459. -/
def blockOf (pa : Nat) : Nat := pa / 2 ^ 21 % 2 ^ 18

/-- The address a node uses for a PA, after its retirement map (R459). -/
def redirect (s : State) (pa : Nat) : Nat :=
  match ((getNode s (homeNode pa)).retired.find? fun e => e.1 = blockOf pa) with
  | some (_, d) => pa % 2 ^ 21 + d * 2 ^ 21
  | none => pa

/-- Read the memory devices. -/
def devRead (s : State) (pa n : Nat) : List Byte × Bool :=
  let a := redirect s pa
  (memBytes s.mem a n, poisonRead 32 s.memPoison a n)

/-- A restart that brings RESTARTS to a multiple of 16 is recorded (R458). -/
def noteRestarts (n dirty : Nat) (s : State) : State :=
  let k := (getNode s n).restarts.toNat
  if 64 ≤ dirty ∧ k % 16 = 0 then record s 2 0x08 1 (0x100 + n) 0 0xFFF 0 k else s

/-- A node holds what arrives for the block whose migration switches over (R460 step 4). -/
def blockHeld (s : State) (pa : Nat) : Bool :=
  match (getNode s (homeNode pa)).migration with
  | some m => m.switching && decide (m.src = blockOf pa)
  | none => false

/-- Write the memory devices; a write to a line that a migration has copied enters its dirty list, and a
65th distinct line restarts the copy (R460). -/
def devWrite (s : State) (pa : Nat) (bs : List Byte) (psn : Bool) : State :=
  let a := redirect s pa
  let marks := poisonStore 32 s.memPoison a bs.length psn
  let s := { s with mem := markedStore 32 s.mem marks a bs, memPoison := marks }
  match (getNode s (homeNode pa)).migration with
  | some m =>
    let line := pa / 2 ^ 17 % 16 * 32 + pa / 2 ^ 7 % 32
    if m.src = blockOf pa && decide (line < m.copied) && !m.dirty.contains line then
      noteRestarts (homeNode pa) m.dirty.length (updNode s (homeNode pa) fun n =>
        if m.dirty.length < 64 then { n with migration := some { m with dirty := m.dirty ++ [line] } }
        else { n with migration := some { m with dirty := [], copied := 0, switching := false }, restarts := n.restarts + 1 })
    else s
  | none => s

/-! ### The shared cache (R103 to R108) -/

/-- Way and keep quotas of a job (R106). -/
def wayQuota (s : State) (job : Nat) : Nat := bits ((mget s.quotas job).getD 0) 4 0
def keepQuota (s : State) (job : Nat) : Nat := bits ((mget s.quotas job).getD 0) 12 8

/-- The launch record of a launch number at its launching core (R348). -/
def launchRec (s : State) (l : Nat) : Option Launch :=
  (getCore s (physOf s (l / 256))).launches.find? fun r => r.seq = l % 256

/-- Reuse clock of a launch record: accesses reported divided by 256 (R105). -/
def reuseClock (r : Launch) : BitVec 32 := BitVec.ofNat 32 (r.reported / 256)

/-- The clock of a launch as a slice knows it. -/
def sliceClock (n : MNode) (l : Nat) : Option Tracked := n.tracked.find? fun t => t.launch = l

/-- Set of a line in its slice (R103). -/
def setOf (pa : Nat) : Nat := (pa / 2 ^ 17 % 2 ^ 22 * 32 + pa / 2 ^ 7 % 32) % 1536

/-- The cached line that holds a PA: a slice keeps lines by the address that its node uses (R459). -/
def lineAt (s : State) (pa : Nat) : Option Line :=
  ((mget (getNode s (homeNode pa)).sets (setOf (redirect s pa))).getD []).find? fun l => l.line = redirect s pa / 128

/-- Change the lines of a PA's set. -/
def updSet (s : State) (pa : Nat) (f : List Line → List Line) : State :=
  updNode s (homeNode pa) fun n =>
    { n with sets := mset n.sets (setOf (redirect s pa)) (f ((mget n.sets (setOf (redirect s pa))).getD [])) }

/-- The launch number of an access that belongs to no launch: above every number of R348. -/
def noLaunch : Nat := 0x10000

/-- The latest value of a launch's clock, which a slice that begins to keep the launch takes; 0 where no record is left
(R105; log 71). -/
def knownClock (s : State) (l : Nat) : BitVec 32 := match launchRec s l with | some r => reuseClock r | none => 0

/-- A slice keeps at most 256 launches; the oldest leaves (R105). -/
def keepTracked (l : List Tracked) (t : Tracked) : List Tracked :=
  let rest := l.filter fun x => x.launch ≠ t.launch
  (rest ++ [t]).drop (rest.length + 1 - 256)

/-- Count an access of a launch at a slice; each 64 are reported (R105). -/
def countAccess (s : State) (node launch : Nat) : State :=
  if noLaunch ≤ launch then s else
  let n := getNode s node
  let t := (sliceClock n launch).getD { launch := launch, clock := knownClock s launch, atWindow := knownClock s launch }
  let full := decide (t.batch + 1 = 64)
  let t := { t with batch := if full then 0 else t.batch + 1 }
  let s := updNode s node fun n => { n with tracked := keepTracked n.tracked t }
  if full then { s with net := s.net ++ [.clock launch 64] } else s

/-- Whether a line's due tick has passed: (due − clock) mod 2^32 ≥ 2^31, or its launch is over or not
tracked by the slice (R105, R107). -/
def duePassed (s : State) (n : MNode) (l : Line) : Bool :=
  match sliceClock n l.launch, launchRec s l.launch with
  | some t, some r => decide (r.st = .complete) || (!l.unknown && decide (2 ^ 31 ≤ (l.due - t.clock).toNat))
  | _, _ => true

/-- Scaled distance of a line; none for a passed due tick, which exceeds every other (R107). -/
def scaledDist (s : State) (n : MNode) (l : Line) : Option Nat :=
  if duePassed s n l then none
  else match sliceClock n l.launch with
    | none => none
    | some t =>
      let rem := if l.unknown then 2 ^ 30 else (l.due - t.clock).toNat
      some (rem * 4096 / max t.delta.toNat 1)

/-- Whether line `a` is a better victim than `b`: larger distance, then older fill, then lower way. -/
def betterVictim (s : State) (n : MNode) (a b : Line) : Bool :=
  let da := (scaledDist s n a).getD (2 ^ 64)
  let db := (scaledDist s n b).getD (2 ^ 64)
  decide (db < da) || (decide (da = db) && (decide (a.born < b.born) || (decide (a.born = b.born) && decide (a.way < b.way))))

/-- The best victim of a class. -/
def pickVictim (s : State) (n : MNode) : List Line → Option Line
  | [] => none
  | l :: r => match pickVictim s n r with
    | none => some l
    | some m => if betterVictim s n l m then some l else some m

/-- The way for an allocating miss of job `j` in a set, and the line it evicts (R107); none when there is no
candidate (log 92). -/
def victimWay (s : State) (node j : Nat) (lines : List Line) : Option (Nat × Option Line) :=
  let n := getNode s node
  let held := fun (k : Nat) => (lines.filter fun l => l.job = k).length
  let keeps := fun (k : Nat) => (lines.filter fun l => l.job = k && l.keep).length
  match (upTo 16).find? fun w => !(lines.any fun l => l.way = w) with
  | some w => some (w, none)
  | none =>
    let cands := lines.filter fun l =>
      !(decide (l.job ≠ j) && decide (wayQuota s l.job ≠ 0) && decide (held l.job ≤ wayQuota s l.job))
        && !(l.keep && decide (keeps l.job ≤ keepQuota s l.job))
    let above := cands.filter fun l => decide (wayQuota s l.job ≠ 0) && decide (wayQuota s l.job < held l.job)
    let past := cands.filter fun l => duePassed s n l
    let cls := if above ≠ [] then above else if past ≠ [] then past else cands
    (pickVictim s n cls).map fun l => (l.way, some l)

/-- Owner, due tick and marks of a line after an access of its job under a nud (R103, R104). A due tick that is set ends
both marks; a keep access within the quota leaves the due tick as it was; one with nud 30, and one beyond the quota, marks the line
unknown and ends its keep mark (log 71). -/
def markLine (s : State) (node : Nat) (lines : List Line) (nud : Nat) (job launch : Nat) (l : Line) : Line :=
  let clk := fun (x : Nat) => match sliceClock (getNode s node) x with | some t => t.clock | none => 0
  if nud = 0 then { l with due := clk l.launch - 1, unknown := false, keep := false }
  else if nud ≤ 29 then { l with launch := launch, due := clk launch + BitVec.ofNat 32 (2 ^ (nud - 1)), unknown := false, keep := false }
  else if nud = 31 && decide ((lines.filter fun x => x.job = job && x.keep && decide (x.line ≠ l.line)).length + 1 ≤ keepQuota s job) then
    { l with keep := true }
  else { l with unknown := true, keep := false }

/-- Write an evicted or flushed dirty line back, on behalf of a job (R240). -/
def writeBack (s : State) (l : Line) (job : Nat) : State :=
  if l.dirty then
    let s := { s with mem := memStore s.mem (redirect s (l.line * 128)) l.data }
    let base := redirect s (l.line * 128) / 32
    let s := charge s job 3870000
    { s with memPoison := (upTo 4).foldl (fun m i => nflag m (base + i) (l.poison.contains i)) s.memPoison }
  else s

/-- Place an access in the cache: hit marks, or allocation on a miss (R103, R104, R107). Lines of a block that a
migration copies are not allocated (R460). `served` where the access does not go on in a line that the access before it
has been served (R240). -/
def cachePlace (s : State) (pa nud job launch : Nat) (served : Bool := true) : State :=
  let node := homeNode pa
  let s := countAccess s node launch
  let s := if served then charge s job 586000 else s
  let lines := (mget (getNode s node).sets (setOf (redirect s pa))).getD []
  match lines.find? fun l => l.line = redirect s pa / 128 with
  | some l =>
    if l.job = job then
      updSet s pa fun ls => ls.map fun x => if x.line = l.line then markLine s node lines nud job launch x else x
    else s
  | none =>
    if nud = 0 then s
    else if (match (getNode s node).migration with | some m => decide (m.src = blockOf pa) | none => false) then s
    else match victimWay s node job lines with
      | none => s
      | some (w, ev) =>
        let s := match ev with | some l => writeBack s l job | none => s
        let base := pa / 128 * 128
        let data := memBytes s.mem (redirect s base) 128
        let psn := (upTo 4).filter fun i => s.memPoison.contains (redirect s base / 32 + i)
        let born := (getNode s node).sets.foldl (fun m e => e.2.foldl (fun m l => max m (l.born + 1)) m) 0
        let l : Line := { line := redirect s pa / 128, way := w, data := data, poison := psn, job := job, launch := launch, born := born }
        let kept := lines.filter fun x => x.way ≠ w
        let s := charge s job 3870000
        updSet s pa fun _ => kept ++ [markLine s node kept nud job launch l]

/-- Read main memory through its home slice (R95, R103, R108): bytes, poison, and the state after. Without a line the access is
a transfer with the devices, one for the pieces of one line that are served together (R240). -/
def slRead (s : State) (pa n nud job launch : Nat) (served : Bool := true) : List Byte × Bool × State :=
  let s := cachePlace s pa nud job launch served
  match lineAt s pa with
  | some l =>
    let off := pa % 128
    let bs := (l.data.drop off).take n
    let psn := poisonRead 32 l.poison off n
    let s := if l.reads = 0 then s
      else if l.reads = 1 then updSet s pa fun ls => ls.filter fun x => x.line ≠ l.line
      else updSet s pa fun ls => ls.map fun x => if x.line = l.line then { x with reads := x.reads - 1 } else x
    (bs, psn, s)
  | none => let (bs, psn) := devRead s pa n; (bs, psn, if served then charge s job 3870000 else s)

/-- A write to bytes that a hart has reserved ends the reservation (R218: the A extension). -/
def killResv (s : State) (key n : Nat) : State :=
  { s with harts := s.harts.map fun (h, x) => (h, match x.resv with
      | some (a, m) => if key < a + m ∧ a < key + n then { x with resv := none } else x
      | none => x) }

/-- Write main memory through its home slice; `rcnt` is a hod fill's read count (R103, R108). -/
def slWrite (s : State) (pa : Nat) (bs : List Byte) (psn : Bool) (nud job launch rcnt : Nat) (served : Bool := true) : State :=
  let s := cachePlace (killResv s pa bs.length) pa nud job launch served
  match lineAt s pa with
  | some l =>
    let off := pa % 128
    updSet s pa fun ls => ls.map fun x => if x.line = l.line then
      let marks := poisonStore 32 x.poison off bs.length psn
      { x with data := markedLine x.data marks off bs, dirty := true, reads := rcnt, poison := marks } else x
  | none => let s := devWrite s pa bs psn; if served then charge s job 3870000 else s

/-- A write by an agent stands in the cache and not yet in the devices (R132). -/
def noteWriter (s : State) (pa who : Nat) : State :=
  updSet s pa fun ls => ls.map fun x => if x.line = redirect s pa / 128 ∧ x.dirty then { x with by_ := nadd x.by_ who } else x

/-- What main memory holds at a PA, without an access: the cached line if there is one, else the devices. -/
def memPeek (s : State) (pa n : Nat) : List Byte × Bool :=
  match lineAt s pa with
  | some l => ((l.data.drop (pa % 128)).take n, poisonRead 32 l.poison (pa % 128) n)
  | none => devRead s pa n

/-! ### Translation (R96 to R99) -/

/-- Number of ones at the bottom of a number, up to a bound. -/
def trailingOnes : Nat → Nat → Nat
  | 0, _ => 0
  | n + 1, x => if x % 2 = 1 then trailingOnes n (x / 2) + 1 else 0

/-- Size exponent t of a leaf (R98). -/
def leafT (e : Word) : Nat := trailingOnes 41 (bits e 40 0)
/-- Base PA of a leaf's page. -/
def leafBase (e : Word) : Nat := bits e 40 0 / 2 ^ (leafT e + 1) * 2 ^ (12 + leafT e)

/-- A valid entry at a level is bad (R99 kind 3). -/
def badEntry (e : Word) (level va : Nat) : Bool :=
  decide (bits e 57 41 ≠ 0) ||
  (if tbit e 62 then
    let t := leafT e
    let pa := leafBase e + va % 2 ^ (12 + t)
    decide (20 < t) || decide (12 + t < 12 + 9 * level)
      || (!tbit e 59 && decide (2 ^ 39 ≤ pa))
      || (tbit e 59 && decide (0x20000 < leafBase e + 2 ^ (12 + t)))
      || (!tbit e 59 && decide (t < 5) && decide (pa / 2 ^ 12 % 32 ≠ va / 2 ^ 12 % 32))
  else decide (level = 0) || tbit e 0)

/-- The walk from a table at a level: the leaf, or the kinds of the translation fault; and the state after the
reads of the tables, which go through the shared cache with nud 30 (R96, R99, R449). R99 calls no table entry bad whose
pointer lies at PA 2^39 or above: the walk then reads that address as memory that nothing has written (log 72). -/
def walk (s : State) (job va table : Nat) : Nat → (Except Nat Word) × State
  | 0 => (.error 1, s)
  | level + 1 =>
    let pa := table + 8 * (va / 2 ^ (12 + 9 * level) % 512)
    let (bs, psn, s) := slRead s pa 8 30 job noLaunch
    let e : Word := leWord 64 bs
    if psn then (.error 8, record s 2 0x09 2 (0x100 + homeNode pa) job 0xFFF (BitVec.ofNat 64 pa) level)
    else if !tbit e 63 then (.error 1, s)
    else if badEntry e level va then (.error 8, s)
    else if tbit e 62 then (.ok e, s)
    else walk s job va (bits e 40 1 * 2 ^ 12) level

/-- Level-3 table of a job (R96, R159). -/
def rootOf (s : State) (job : Nat) : Option Nat := (findJob s job).map fun j => bits j.record 191 152 * 2 ^ 12

/-- Kinds 1, 2, 4 and 5 that apply at a leaf (R99). `local` asks for a local-store page. -/
def leafKinds (e : Word) (rd wr loc partner : Bool) : Nat :=
  b2n (wr && !tbit e 60) * 2 + b2n (rd && !tbit e 61) * 4 + b2n (xor loc (tbit e 59)) * 16 + b2n (partner && !tbit e 58) * 32

/-- The cached translation of an address, if a TLB holds one (R96). -/
def tlbHit (t : List Tlb) (job va : Nat) : Option Word :=
  (t.find? fun x => x.job = job && decide (x.va = va / 2 ^ x.bits)).map fun x => x.leaf

/-- Put a leaf into a TLB of `cap` entries; the oldest entry leaves (log 8). -/
def tlbFill (t : List Tlb) (cap job va : Nat) (e : Word) : List Tlb :=
  ({ job := job, va := va / 2 ^ (12 + leafT e), bits := 12 + leafT e, leaf := e } :: t).take cap

/-- Translate in a job's space at memory node `node`, or at core `p` when `loc`: the physical address or
local-store offset, or the kinds of the fault (R96 to R99). -/
def translate (s : State) (at_ : Nat) (job va : Nat) (rd wr loc partner : Bool) : (Except Nat Nat) × State :=
  let tlb := if loc then (mget s.coreTlb at_).getD [] else (getNode s at_).tlb
  match tlbHit tlb job va with
  | some e =>
    let k := leafKinds e rd wr loc partner
    if k = 0 then (.ok (leafBase e + va % 2 ^ (12 + leafT e)), s) else (.error k, s)
  | none =>
    match rootOf s job with
    | none => (.error 1, s)
    | some root =>
      match walk s job va root 4 with
      | (.error k, s) => (.error k, s)
      | (.ok e, s) =>
        let s := if loc then { s with coreTlb := mset s.coreTlb at_ (tlbFill tlb 192 job va e) }
          else updNode s at_ fun n => { n with tlb := tlbFill n.tlb 4096 job va e }
        let k := leafKinds e rd wr loc partner
        if k = 0 then (.ok (leafBase e + va % 2 ^ (12 + leafT e)), s) else (.error k, s)

/-- Read main memory at a virtual address of a job, as the Keystone and the task hardware do (R159). -/
def readVirtual (s : State) (job va n : Nat) : (Except Nat (List Byte × Bool)) × State :=
  match translate s (homeNode va) job va true false false false with
  | (.error k, s) => (.error k, s)
  | (.ok pa, s) => let (bs, psn, s) := slRead s pa n 30 job noLaunch; (.ok (bs, psn), s)

/-- Write main memory at a virtual address of a job. -/
def writeVirtual (s : State) (job va : Nat) (bs : List Byte) : (Except Nat Unit) × State :=
  match translate s (homeNode va) job va false true false false with
  | (.error k, s) => (.error k, s)
  | (.ok pa, s) => (.ok (), slWrite s pa bs false 30 job noLaunch 0)

/-! ### The local store (R33, R57, R87, R298) -/

/-- An offset of the local store lies in a share's piece of the task area (R33). -/
def inTaskArea (off n : Nat) : Bool := decide (0x1C00 < off % 0x2000 + n) && decide (off < 0x20000)

/-- Words of 8 bytes that an access touches. -/
def wordsOf (off n : Nat) : List Nat := unitsOf 8 off n

/-- Whether a word's full/empty bit is full (R57). -/
def wordFull (x : Ctx) (w : Nat) : Bool := !x.lsEmpty.contains w

/-- Set a word's full/empty bit and note who set it (R298). -/
def setWordFe (x : Ctx) (w : Nat) (full : Bool) (key : BitVec 12) : Ctx :=
  { x with lsEmpty := nflag x.lsEmpty w (!full), lsSetter := mset x.lsSetter w key }

/-- Read a word of the local store. -/
def lsWord (x : Ctx) (w : Nat) : Word := leWord 64 (memBytes x.ls (8 * w) 8)

/-- Store bytes to the local store: the data, its poison (R456), and the bits of the touched words set full (R57). -/
def lsStore (x : Ctx) (off : Nat) (bs : List Byte) (psn : Bool) (key : BitVec 12) : Ctx :=
  let marks := poisonStore 8 x.lsPoison off bs.length psn
  let x := { x with ls := markedStore 8 x.ls marks off bs, lsPoison := marks }
  (wordsOf off bs.length).foldl (fun x w => setWordFe x w true key) x

/-- Stores to the weight, activation and accumulator buffers. -/
def putWb (c : PCore) (off : Nat) (bs : List Byte) (psn : Bool) : PCore :=
  let marks := poisonStore 8 c.wbPoison off bs.length psn
  { c with wb := markedStore 8 c.wb marks off bs, wbPoison := marks }
def putAb (c : PCore) (off : Nat) (bs : List Byte) (psn : Bool) : PCore :=
  let marks := poisonStore 8 c.abPoison off bs.length psn
  { c with ab := markedStore 8 c.ab marks off bs, abPoison := marks }
def putAcc (w : Wide) (off : Nat) (bs : List Byte) (psn : Bool) : Wide :=
  let marks := poisonStore 8 w.accPoison off bs.length psn
  { w with acc := markedStore 8 w.acc marks off bs, accPoison := marks }

/-- Journal units of the local-store words that an access touches (R140 KIND 6). -/
def lsUnits (x : Ctx) (off n : Nat) : List JUnit :=
  (wordsOf off n).map fun w =>
    { kind := 6, target := w, data := lsWord x w, full := wordFull x w, psn := x.lsPoison.contains w }

end Sys2Proof.Machine
end

