-- ==== Sys2Proof/Machine/Mortar.lean ====
section
/-! DEFINITION. The points of the Mortar (R151 to R155, R487, R488): whether an operation that a record
type covers may be performed now, and the record it leaves. -/

namespace Sys2Proof.Machine

/-- What a point does with an operation. -/
inductive Verdict where
  | go | hold | diverge
  deriving DecidableEq, Repr

/-- MODE of a job; 4 to 7 are treated as 0 (R150). -/
def mortarMode (s : State) (job : Nat) : Nat :=
  let m := (getMortar s job).mode.toNat
  if m ≤ 3 then m else 0

/-- A new MODE takes effect (R150): a replay starts at RPTR, and records made and not yet appended are then dropped (log 45). -/
def setMode (m : Mortar) (d : BitVec 3) : Mortar :=
  { m with mode := d, nextMode := none, handed := [], since := [], corrupt := false, stopped := [], lent := [], loaded := m.rptr
           queue := if d = 2 then [] else m.queue }

/-- The records handed to a point and not yet used, in ring order. -/
def handedTo (m : Mortar) (point : Nat) : List (BitVec 128) := (m.handed.filter fun r => recPoint r.2 = point).map fun r => r.2

/-- Largest number of records that may stand in the ring in mode 1 (R154). -/
def mortarLimit (m : Mortar) : Nat := min m.hwm.toNat (2 ^ m.lsize.toNat)

/-- Records in the ring and on their way to it. -/
def mortarFill (m : Mortar) : Nat := (m.wptr - m.rptr).toNat + m.queue.length

/-- Address of ring index `i` (R154). -/
def ringAddr (m : Mortar) (i : BitVec 32) : Nat := m.base.toNat % 2 ^ 48 + 16 * (i.toNat % 2 ^ m.lsize.toNat)

/-- Whether the ring word that the next record takes can be written (R154). -/
def ringWritable (s : State) (job : Nat) : Bool :=
  let m := getMortar s job
  let va := ringAddr m (m.wptr + BitVec.ofNat 32 m.queue.length)
  match (translate s (homeNode va) job va false true false false).1 with
  | .ok _ => true
  | .error _ => false

/-- SRC code of the unit that holds a point (R153, R417). -/
def srcOfPoint (s : State) (point : Nat) : Nat :=
  if point < 0xC0 then physOf s point else if 0x400 ≤ point then point - 0x400 + 0x330 else point

/-- A job's operation is held by its mark or by a failing ring write: one record a scan (R154, R487). -/
def noteHold (s : State) (job code : Nat) (key : BitVec 12) (addr : Word) (data : Nat) : State :=
  let m := getMortar s job
  if (if code = 0x05 then m.notedFull else m.notedFail) then s
  else
    let s := updMortar s job fun m =>
      { m with notedFull := m.notedFull || decide (code = 0x05), notedFail := m.notedFail || decide (code = 0x09) }
    record s 6 code 1 0x200 job key.toNat addr data

/-- Whether the point may perform an operation that makes `n` records in modes 1 and 3. -/
def recordGate (s : State) (job point n : Nat) (key : BitVec 12) : Verdict × State :=
  let m := getMortar s job
  if mortarMode s job = 1 && decide (mortarLimit m < mortarFill m + n) then
    (.hold, noteHold s job 0x05 key 0 (m.wptr - m.rptr).toNat)
  else if ringWritable s job then (.go, s)
  else (.hold, noteHold s job 0x09 key (BitVec.ofNat 64 (ringAddr m (m.wptr + BitVec.ofNat 32 m.queue.length))) point)

/-- Ring index of the next record of a job's Mortar. -/
def mortarNext (s : State) (job : Nat) : BitVec 32 := let m := getMortar s job; m.wptr + BitVec.ofNat 32 m.queue.length

/-- The checked pair that re-executes after a rollback, in the context that was rolled back, and one of whose slots is the agent
(R471). -/
def rollingPair (s : State) (agent : BitVec 12) : Option (Nat × Pair) :=
  s.pairChk.find? fun e => decide (e.2.state = 2) && decide (e.2.replay ≠ []) && decide (logicalOf s (2 * e.1) = agent.toNat / 16)
    && decide ((getCore s (2 * e.1)).res.rtJob = e.2.replayCtx)

/-- The record that the next operation of the pair's slots at a point meets in a re-execution. -/
def pairNext (s : State) (point : Nat) (agent : BitVec 12) : Option (BitVec 128) :=
  (rollingPair s agent).bind fun e => e.2.replay.find? fun r => decide (recPoint r = point)

/-- The gate of modes 1 and 3, where a re-executing pair replays the records of its slots: an operation that meets its own
record goes, one that comes before its turn is held. -/
def pairGate (s : State) (job point n : Nat) (x : Resolution) : Verdict × State :=
  match pairNext s point x.agent with
  | some r => if recMatches r x then (.go, s) else if recAgent r = x.agent.toNat then recordGate s job point n x.agent else (.hold, s)
  | none => recordGate s job point n x.agent

/-- Whether a point may perform an operation now; `fresh` at its first arrival, when divergence is judged
(R154, R155, R488). -/
def mortarGate (s : State) (job point : Nat) (fresh : Bool) (x : Resolution) : Verdict × State :=
  match mortarMode s job with
  | 0 => (.go, s)
  | 2 =>
    let m := getMortar s job
    if m.stopped.contains point then (.hold, s)
    else match handedTo m point with
      | [] => (.hold, s)
      | r :: _ =>
        if recMatches r x then (.go, s)
        else if fresh && (decide (recType r ≠ x.type) || decide (recAgent r = x.agent.toNat)) then (.diverge, s)
        else (.hold, s)
  | _ => pairGate s job point 1 x

/-- Ring address of a point's next record, 0 when it has none. -/
def nextRecAddr (m : Mortar) (point : Nat) : Word :=
  match m.handed.find? fun r => recPoint r.2 = point with
  | some (i, _) => BitVec.ofNat 64 (ringAddr m i)
  | none => 0

/-- A point stops on divergence and CODE 0x07 is written (R478, R488). -/
def stopPoint (s : State) (job point : Nat) (key : Nat) : State :=
  record (updMortar s job fun m => { m with stopped := nadd m.stopped point }) 6 0x07 2 (srcOfPoint s point) job key
    (nextRecAddr (getMortar s job) point) point

/-- Remove the first handed record equal to one. -/
def eraseRec : List (BitVec 32 × BitVec 128) → BitVec 128 → List (BitVec 32 × BitVec 128)
  | [], _ => []
  | x :: l, r => if x.2 = r then l else x :: eraseRec l r

/-- Slots whose operations a point holds look at it again. -/
def wakeReplay (s : State) : State := wakeAll s fun w => decide (w = .replay) || awaitsQueue (upTo 8) w

/-- The point takes its next record: the one that follows becomes its next, and the timeout starts anew. -/
def takeRecord (s : State) (job : Nat) (r : BitVec 128) : State :=
  let s := updMortar s job fun m =>
    let m := { m with handed := eraseRec m.handed r, since := mset m.since (recPoint r) s.plumb }
    { m with rptr := replayRptr m }
  wakeReplay s

/-- A record made new: it is on its way to the Keystone. -/
def makeRec (s : State) (job point : Nat) (x : Resolution) : State :=
  updMortar s job fun m =>
    let seq := (mget m.seq point).getD 0
    { m with seq := mset m.seq point (seq + 1), queue := m.queue ++ [mkRec x point seq] }

/-- A re-executing pair's operation takes its record; one that differs from it leaves one of its own in its place, and the others
stand (R472; log 31). -/
def pairTake (s : State) (job point : Nat) (x : Resolution) : State :=
  match pairNext s point x.agent, rollingPair s x.agent with
  | some r, some (m, q) =>
    if recMatches r x then wakeReplay { s with pairChk := mset s.pairChk m { q with replay := q.replay.erase r } }
    else if recAgent r = x.agent.toNat then makeRec (wakeReplay { s with pairChk := mset s.pairChk m { q with replay := q.replay.erase r } }) job point x
    else makeRec s job point x
  | _, _ => makeRec s job point x

/-- A repeat of a re-executing pair is discarded in the recorded order: it takes its record where that is the point's next, and
waits while another slot's record is; one without a record goes (R471, R472; log 31). -/
def repeatTurn (s : State) (point : Nat) (x : Resolution) : Option State :=
  match pairNext s point x.agent, rollingPair s x.agent with
  | some r, some (m, q) =>
    if recMatches r x then some (wakeReplay { s with pairChk := mset s.pairChk m { q with replay := q.replay.erase r } })
    else if recAgent r ≠ x.agent.toNat ∧ q.replay.any (fun y => decide (recPoint y = point) && recMatches y x) then none
    else some s
  | _, _ => some s

/-- The record of a performed operation: sent to the Keystone in modes 1 and 3, matched in mode 2. -/
def mortarPut (s : State) (job point : Nat) (x : Resolution) : State :=
  match mortarMode s job with
  | 0 => s
  | 2 =>
    match (handedTo (getMortar s job) point).find? fun r => recMatches r x with
    | some r => takeRecord s job r
    | none => s
  | _ => pairTake s job point x

/-- The queue pops of one instruction (R63): in replay each in turn must match the point's next record, which is then the next
FE record of its queue; otherwise the slot parks as for an empty queue, as it does at a point that has stopped (R155, R488). -/
def popGate (s : State) (job point : Nat) : List Resolution → Verdict × State
  | [] => (.go, s)
  | x :: r =>
    match mortarMode s job with
    | 0 => (.go, s)
    | 2 =>
      match handedTo (getMortar s job) point with
      | y :: _ =>
        if !(getMortar s job).stopped.contains point && recMatches y x then
          (popGate (mortarPut s job point x) job point r).map id (fun _ => s)
        else (.hold, s)
      | [] => (.hold, s)
    | _ => pairGate s job point (r.length + 1) x

/-- In replay the point's next record is not a dispatch of the slot from source `src`: the slot takes nothing yet (R494). -/
def replayElsewhere (s : State) (p n job src : Nat) : Bool :=
  decide (mortarMode s job = 2) && (match handedTo (getMortar s job) (logicalOf s p) with
    | r :: _ => decide (recType r ≠ 6) || decide (recAgent r ≠ (senderKey s p n).toNat) || decide (recArg r ≠ src)
    | [] => true)

end Sys2Proof.Machine
end

