-- ==== Sys2Proof/Machine/Operands.lean ====
section
/-! DEFINITION. Operands (R55, R58, R62, R63, R260, R261) and retirement (R141, R142, R337): the sources
an instruction reads with their checks, and what its writes do to the slot, the core and the journal. -/

namespace Sys2Proof.Machine

/-! ### Sources -/

/-- A source operand. -/
inductive Opnd where
  | g (r : GReg)
  | v (r : VReg)
  deriving DecidableEq, Repr

/-- A source as read: a g register in `w`, a v register in `v`. -/
structure Src where
  w : Word := 0
  v : V512 := 0
  psn : Bool := false
  deriving DecidableEq, Repr

/-- What the issue check of the sources gives: the values in order, the pops of bound queues in order, and
the queues in which room is reserved. -/
structure Got where
  xs : List Src := []
  pops : List (Nat × QEntry) := []
  pushes : List Nat := []
  deriving DecidableEq, Repr

/-- Value of source `i`. -/
def Got.w (g : Got) (i : Nat) : Word := (g.xs.getD i {}).w
/-- Vector value of source `i`. -/
def Got.v (g : Got) (i : Nat) : V512 := (g.xs.getD i {}).v
/-- The OR of the poison flags of every source (R259, `put`). -/
def Got.psn (g : Got) : Bool := g.xs.any fun x => x.psn

/-- The core owner of a core's resident context (R53). -/
def coreOwner (s : State) (p : Nat) : Option Nat :=
  match (getCore s p).res.rtJob with
  | some j => some j
  | none => (s.jobs.find? fun j => tbit j.record 29 && decide (bits j.record 32 31 ≠ 1)
      && tbit j.record (96 + logicalOf s p / 8)).map fun j => j.id

/-- Whether the issuing slot's job is the core owner. -/
def isOwner (s : State) : Bool := decide (coreOwner s s.who.1 = some (myJob s))

/-- The queue that a source names, if it is a bound register. -/
def opndQ (sl : Slot) : Opnd → Option Nat
  | .g r => boundQ sl r
  | .v _ => none

/-- Whether a source is an empty register, and the register (R55). -/
def opndEmpty (sl : Slot) : Opnd → Option Park
  | .g r => if (boundQ sl r).isSome then none
      else if (gCell sl (gKey sl r)).full then none else some (.reg false (gKey sl r))
  | .v r => if (vCell sl r.toNat).full then none else some (.reg true r.toNat)

/-- The first empty source, in order. -/
def firstEmpty (sl : Slot) : List Opnd → Option Park
  | [] => none
  | o :: r => match opndEmpty sl o with
    | some w => some w
    | none => firstEmpty sl r

/-- Entries that a queue will hold once the pushes on their way have landed (R63). -/
def queueFill (x : Ctx) (q : Nat) : Nat :=
  (getQ x q).length + (x.qDue.filter fun e => e.2.1 = q).length
    + (x.slots.map fun e => match e.2.pend with | some d => (d.pushes.filter fun k => k = q).length | none => 0).sum

/-- The queue counts of R63. -/
def queuesOk (x : Ctx) (pops pushes : List Nat) : Bool :=
  (pops.all fun q => decide (pops.count q ≤ (getQ x q).length))
    && (pushes.all fun q => decide (queueFill x q + pushes.count q ≤ 16))

/-- Read the sources in order; `seen` counts the pops already made from each queue. -/
def readSrcs (x : Ctx) (sl : Slot) : List Opnd → List Nat → List Src × List (Nat × QEntry)
  | [], _ => ([], [])
  | .v r :: rest, seen =>
    let c := vCell sl r.toNat
    let (xs, ps) := readSrcs x sl rest seen
    ({ v := c.val, psn := c.psn } :: xs, ps)
  | .g r :: rest, seen =>
    match boundQ sl r with
    | some q =>
      let e := (getQ x q).getD (seen.count q) {}
      let (xs, ps) := readSrcs x sl rest (q :: seen)
      ({ w := e.val, psn := e.psn } :: xs, (q, e) :: ps)
    | none =>
      let c := gCell sl (gKey sl r)
      let (xs, ps) := readSrcs x sl rest seen
      ({ w := c.val, psn := c.psn } :: xs, ps)

/-- The Mortar resolutions of an instruction's pops (R63, R152). -/
def popResolutions (s : State) (pops : List (Nat × QEntry)) : List Resolution :=
  pops.map fun e => { type := 1, arg := 2 * 2 ^ 8 + e.1, agent := senderKey s s.who.1 s.who.2, data := e.2.key.setWidth 64 }

/-- The issuing slot waits because the Mortar holds its operation at its point: Waiting in modes 1 and 3 (R154) and for the
operations that R343 leaves in Waiting, otherwise Parked. -/
def holdMe {α : Type} (s : State) (waiting : Bool := false) : Chk α :=
  .error (updMe s fun sl =>
    { sl with st := if waiting || decide (mortarMode s (myJob s) ≠ 2) then .waiting else .parked, park := .replay, heldOp := true })

/-- Freeze the issuing slot on replay divergence (R488). -/
def divergeMe {α : Type} (s : State) (point : Nat) : Chk α :=
  .error (freeze (stopPoint s (myJob s) point (senderKey s s.who.1 s.who.2).toNat) 0x0B 0)

/-- The issuing slot's own interface as a point (R153). -/
def myPoint (s : State) : Nat := logicalOf s s.who.1

/-- The verdict on a resolution of an instruction at its own interface, which comes after the records of its pops. -/
def ownGate (s : State) (pops : List (Nat × QEntry)) (x : Resolution) : Verdict × State :=
  match popResolutions s pops with
  | [] => mortarGate s (myJob s) (myPoint s) (!(me s).heldOp) x
  | rs =>
    let t := rs.foldl (fun s r => mortarPut s (myJob s) (myPoint s) r) s
    match (mortarGate t (myJob s) (myPoint s) (!(me s).heldOp) x).1 with
    | .hold => (.hold, if mortarMode s (myJob s) = 2 then s else (recordGate s (myJob s) (myPoint s) (rs.length + 1) x.agent).2)
    | v => (v, s)

/-- A resolution of the issuing slot at its own interface may be made; otherwise the slot is held or diverges. -/
def gateMine (s : State) (pops : List (Nat × QEntry)) (x : Resolution) (waiting : Bool := false) : Chk State :=
  match ownGate s pops x with
  | (.go, s) => .ok s
  | (.hold, s) => holdMe s waiting
  | (.diverge, s) => divergeMe s (myPoint s)

/-- The record of a resolution of the issuing slot. -/
def putMine (s : State) (x : Resolution) : State := mortarPut s (myJob s) (myPoint s) x

/-- A resolution of an instruction without pops: performed, held or divergent. -/
def resolveMine (s : State) (x : Resolution) (waiting : Bool := false) : Chk State := do
  let s ← gateMine s [] x waiting
  return putMine s x

/-- The value a source would give, without any check: for the ADDR of a fault packet (R433). -/
def peekG (s : State) (r : GReg) : Word := ((readSrcs (getCore s s.who.1).res (me s) [.g r] []).1.getD 0 {}).w

/-- The core-owner check of stage 2 (R430) for the bound registers that an instruction names. -/
def ownerOf (s : State) (rs : List GReg) (addr : Word := 0) : Chk Unit :=
  if (rs.any fun r => (boundQ (me s) r).isSome) && !isOwner s then faultWith s 0x04 addr else .ok ()

/-- The g registers among source operands. -/
def gRegs : List Opnd → List GReg
  | [] => []
  | .g r :: t => r :: gRegs t
  | .v _ :: t => gRegs t

/-- STAGE 3 FOR THE SOURCES (R430, R55, R63): full sources in order, queue counts, the Mortar's queue pops. The
result carries the values; nothing is popped yet. -/
def sources (s : State) (srcs : List Opnd) (dsts : List GReg) : Chk (Got × State) :=
  let sl := me s
  let x := (getCore s s.who.1).res
  let pushQ := dsts.filterMap (boundQ sl)
  match firstEmpty sl srcs with
  | some w => park s w
  | none =>
    if !queuesOk x (srcs.filterMap (opndQ sl)) pushQ then park s (.queue (srcs.filterMap (opndQ sl) ++ pushQ))
    else
      let r := readSrcs x sl srcs []
      match popGate s (myJob s) (myPoint s) (popResolutions s r.2) with
      | (.go, s) => .ok ({ xs := r.1, pops := r.2, pushes := pushQ }, s)
      | (_, s) => holdMe s

/-- STAGES 2 AND 3 (R430): the core-owner check, the condition `ok` of stage 2 that follows it (0x01), and the
sources. `addr` is the address of R433. -/
def gather (s : State) (srcs : List Opnd) (dsts : List GReg) (addr : Word := 0) (ok : Bool := true) :
    Chk (Got × State) := do
  ownerOf s (gRegs srcs ++ dsts) addr
  require s ok 0x01
  sources s srcs dsts

/-- STAGE 4 (R430): a consumed source with poison raises fault 0x05 (R261, R457); DATA of the record is the number
of the operand. -/
def noPoison (s : State) (g : Got) (addr : Word := 0) : Chk Unit :=
  match (upTo g.xs.length).find? fun i => (g.xs.getD i {}).psn with
  | some i => faultWith s 0x05 addr 0 i
  | none => .ok ()

/-! ### Writes -/

/-- A write of an instruction. -/
inductive Wr where
  /-- a g register, or the queue it is bound to (R259) -/
  | put (r : GReg) (val : Word) (psn : Bool)
  /-- a g register by its key, whatever bank is selected and whatever is bound (R352) -/
  | raw (key : Nat) (val : Word)
  | putV (r : VReg) (val : V512) (psn : Bool)
  | setM (r : MReg) (x : Word)
  | setK (r : KReg) (x : BitVec 32)
  /-- slot control register 0, 1, 2, 3, 7 or 8 -/
  | scr (n : Nat) (x : Word)
  | com (n : Nat) (x : Word)
  /-- set a g register empty; a bound one is skipped (R268) -/
  | emptyG (r : GReg)
  | emptyV (r : VReg)
  /-- flags to be ORed into FFLG (R83) -/
  | flags (f : BitVec 5)
  | mwin (b : Bool)
  | urg (b : Bool)
  | qbind (m : BitVec 8)
  | latch (b : Bool)
  | chan (d : BitVec 17) (kc ka : KReg)
  | pert (x : Word)
  | join (x : Word)
  | frame (f : Frame)
  /-- SPAWN's frame at place `i` of the deque in the local store (R33, R38, R345) -/
  | pushed (i : Nat) (f : V512)
  /-- IDLE records the slot Parked (R269) -/
  | idlePark
  deriving DecidableEq, Repr

/-- The frame state of the level in force (R339). -/
def curFrame (sl : Slot) : Frame := if sl.urg then sl.frameUrg else sl.frame
/-- Replace the frame state of the level in force. -/
def setCurFrame (sl : Slot) (f : Frame) : Slot := if sl.urg then { sl with frameUrg := f } else { sl with frame := f }

/-- The journal unit of the slot state word. -/
def stateUnit (n : Nat) (sl : Slot) : JUnit := { kind := 4, target := 19, data := slotStateWord n sl }

/-- The journal unit of the frame control word of the level in force. -/
def frameUnit (sl : Slot) : JUnit := { kind := 4, target := if sl.urg then 24 else 22, data := frameControl (curFrame sl) }

/-- Journal units of a frame at an offset of the task area (R33, R140 KIND 6). -/
def frameUnits (off : Nat) (f : V512) : List JUnit :=
  (upTo 8).map fun i => { kind := 6, target := off / 8 + i, data := lane 64 f i }

/-- Offset of place `i` of the list whose first share of the task area is `share` (log 14). -/
def placeOff (share i : Nat) : Nat := (share + i / 16) * 0x2000 + 0x1C00 + i % 16 * 64

/-- A write to a slot control register (R51, R265). -/
def scrWrite (sl : Slot) (n : Nat) (x : Word) : Slot :=
  match n with
  | 0 => { sl with fmt := x.setWidth 10 }
  | 1 => { sl with frm := x.setWidth 6 }
  | 2 => { sl with fflg := x.setWidth 5 }
  | 3 => { sl with taskId := x.setWidth 32 }
  | 7 => { sl with lfsr := x.setWidth 32 }
  | 8 => { sl with epi := x }
  | _ => sl

/-- What a write does to slot `n`, and its journal units (R140). Writes to queues and common registers change
no slot. -/
def wrSlot (n : Nat) (sl : Slot) : Wr → Slot × List JUnit
  | .put r val psn =>
    let k := gKey sl r
    if k = 0 || (boundQ sl r).isSome then (sl, [])
    else (setGCell sl k { val := val, full := true, psn := psn }, [{ kind := 0, target := k, data := val, psn := psn }])
  | .raw k val => (setGCell sl k { val := val }, [{ kind := 0, target := k, data := val }])
  | .putV r val psn =>
    let c : Cell 512 := { val := val, full := true, psn := psn }
    (setVCell sl r.toNat c, vUnits r.toNat c)
  | .setM r x => if r = 0 then (sl, []) else (setMReg sl r.toNat x, [{ kind := 2, target := r.toNat, data := x }])
  | .setK r x => (setKReg sl r.toNat x, [{ kind := 3, target := r.toNat, data := x.setWidth 64 }])
  | .scr k x => (scrWrite sl k x, [{ kind := 4, target := k, data := x }])
  | .com k x => (sl, [{ kind := 5, target := k, data := x }])
  | .emptyG r =>
    let k := gKey sl r
    if k = 0 || (boundQ sl r).isSome then (sl, [])
    else (setGCell sl k { gCell sl k with full := false }, [{ kind := 10, target := k, data := 0, full := false, psn := (gCell sl k).psn }])
  | .emptyV r =>
    (setVCell sl r.toNat { vCell sl r.toNat with full := false },
      [{ kind := 10, target := 128 + r.toNat, data := 0, full := false, psn := (vCell sl r.toNat).psn }])
  | .flags f =>
    let y := sl.fflg ||| f
    if y = sl.fflg then (sl, []) else ({ sl with fflg := y }, [{ kind := 4, target := 2, data := y.setWidth 64 }])
  | .mwin b => let t := { sl with mwin := b }; (t, [stateUnit n t])
  | .urg b => let t := { sl with urg := b }; (t, [stateUnit n t])
  | .qbind m => let t := { sl with qbind := m }; (t, [stateUnit n t])
  | .latch b => let t := { sl with idleLatch := b }; (t, [stateUnit n t])
  | .chan d kc ka => let t := { sl with chan := d, chanKc := kc, chanKa := ka }; (t, [{ kind := 4, target := 20, data := chanWord t }])
  | .pert x => ({ sl with pert := x }, [{ kind := 4, target := 25, data := x }])
  | .pushed i f => (sl, frameUnits (placeOff 0 i) f)
  | .idlePark => (sl, [stateUnit n { sl with st := .parked }])
  | .join x => ({ sl with join := x }, [{ kind := 4, target := 18, data := x }])
  | .frame f =>
    let t := setCurFrame sl f
    (t, [{ kind := 4, target := if sl.urg then 23 else 21, data := f.base }, frameUnit t])

/-- The pushes that a write makes into a queue, with the journal unit. -/
def wrPush (sl : Slot) : Wr → Option (Nat × Word × Bool)
  | .put r val psn => (boundQ sl r).map fun q => (q, val, psn)
  | _ => none

/-- Apply writes in order to a slot. -/
def wrSlots (n : Nat) (sl : Slot) : List Wr → Slot × List JUnit
  | [] => (sl, [])
  | w :: r =>
    let (t, us) := wrSlot n sl w
    let qs := match wrPush sl w with
      | some (q, val, psn) => [{ kind := 8, target := q, data := val, psn := psn }]
      | none => []
    let (t, vs) := wrSlots n t r
    (t, us ++ qs ++ vs)

/-- What a slot's writes go to: g and v registers as fills name them (R56), and the idle latch, which IDLE tests at its
writeback (R269). -/
def writtenRegs (sl : Slot) (ws : List Wr) : List (Bool × Nat) :=
  ws.flatMap fun w => match w with
    | .latch _ | .idlePark => [idleMark]
    | .put r _ _ | .emptyG r => if gKey sl r = 0 || (boundQ sl r).isSome then [] else [(false, gKey sl r)]
    | .raw k _ => [(false, k)]
    | .putV r _ _ | .emptyV r => [(true, r.toNat)]
    | _ => []

/-- Apply a write to the core's queues and common registers; `due` is the writeback clock (R54, R63). -/
def wrCtx (x : Ctx) (sl : Slot) (due : Nat) (key : BitVec 12) : Wr → Ctx
  | .com k v => { x with cDue := x.cDue ++ [(due, k, v)] }
  | w => match wrPush sl w with
    | some (q, val, psn) => { x with qDue := x.qDue ++ [(due, q, { val := val, psn := psn, key := key })] }
    | none => x

/-- Apply the queue and common-register writes of a list. -/
def wrCtxs (x : Ctx) (sl : Slot) (due : Nat) (key : BitVec 12) : List Wr → Ctx
  | [] => x
  | w :: r => wrCtxs (wrCtx x sl due key w) sl due key r

/-! ### Retirement -/

/-- The next replay of a frame: position, then repeat; cleared after the last (R337). -/
def frameNext (f : Frame) : Frame :=
  if f.pos.toNat < f.lenM1.toNat then { f with pos := f.pos + 1 }
  else if f.repi.toNat < f.cntM1.toNat then { f with pos := 0, repi := f.repi + 1 }
  else {}

/-- The PC after a replay (R337). -/
def framePc (f : Frame) : Word :=
  if f.pos.toNat < f.lenM1.toNat then f.base + 4 + 4 * BitVec.ofNat 64 (f.pos.toNat + 1)
  else if f.repi.toNat < f.cntM1.toNat then f.base + 4
  else f.base + 4 + 4 * BitVec.ofNat 64 (f.lenM1.toNat + 1)

/-- Pop the entries from the queues (R63), leave their records and wake the slots that wait on a queue. -/
def popEntry (x : Ctx) (e : Nat × QEntry) : Ctx := { x with q := mset x.q e.1 ((getQ x e.1).drop 1) }

/-- Carry out the pops of an instruction at its issue. -/
def commitPops (s : State) (pops : List (Nat × QEntry)) : State :=
  match pops with
  | [] => s
  | _ =>
    let rs := popResolutions s pops
    let s := updCtx s s.who.1 fun x => pops.foldl popEntry x
    let s := rs.foldl (fun s r => mortarPut s (myJob s) (myPoint s) r) s
    updCtx s s.who.1 (wakeCtx (awaitsQueue (pops.map Prod.fst)))

/-- Journal units of pops (R140 KIND 8). -/
def popUnits (pops : List (Nat × QEntry)) : List JUnit :=
  pops.map fun e => { kind := 8, target := 8 + e.1, data := e.2.val, psn := e.2.psn }

/-- Whether a physical core is the lead of a coupled checked pair (R469). -/
def pairCoupled (s : State) (p : Nat) : Bool :=
  decide (p % 2 = 0) && decide (((mget s.pairChk (p / 2)).getD {}).state = 2)

/-- The oldest of the latest marks of a coupled pair's slots, as a ring position: a slot that has retired nothing since its
mark counts as marked now (R470). -/
def oldestMark (q : Pair) (c : PCore) : Nat :=
  (upTo 16).foldl (fun b n =>
    let m := (mget q.marks n).getD 0
    if m % 2 ^ 32 = ((mget c.wide.rsn n).getD 0).toNat then b else min b (m / 2 ^ 32)) c.ringPos

/-- PAIRCHK of a pair. -/
def getPair (s : State) (m : Nat) : Pair := (mget s.pairChk m).getD {}
/-- Change a pair. -/
def updPairChk (s : State) (m : Nat) (f : Pair → Pair) : State := { s with pairChk := mset s.pairChk m (f (getPair s m)) }

/-- The position that the next entry of a core takes. -/
def nextPos (c : PCore) : Nat := c.ringPos + c.shadow.length

/-- Every slot is marked at a position. -/
def marksAt (c : PCore) (pos : Nat) : Map Nat := (upTo 16).map fun n => (n, pos * 2 ^ 32 + ((mget c.wide.rsn n).getD 0).toNat)

/-- Core `p`, where it is the lead of a coupled pair, notes what a rollback would take back (R471). -/
def noteUndo (s : State) (p : Nat) (u : Undo) : State :=
  if pairCoupled s p then updPairChk s (p / 2) fun q => { q with undo := (nextPos (getCore s p), u) :: q.undo } else s

/-- The fingerprint after a retirement: CRC-64 over F, bits 199:64 of each entry, and the NPC (R470). -/
def fingerNext (f : Word) (es : List (BitVec 256)) (npc : Word) : Word :=
  let c := crc64Bits 64 f.toNat 0
  let c := es.foldl (fun c e => crc64Bits 136 (bits e 199 64) c) c
  BitVec.ofNat 64 (crc64Bits 64 npc.toNat c)

/-- The journal units of a retirement: the 64th retirement in a row without one writes the PC (R141). -/
def retireUnits (sl : Slot) (us : List JUnit) (npc : Word) : List JUnit :=
  if us = [] && decide (63 ≤ sl.sinceEntry) then [{ kind := 4, target := 16, data := npc }] else us

/-- A slot that is single-stepped, or that a stop or core-scope fault waits for, freezes when its instruction ends. -/
def freezesNext (sl : Slot) : Bool := sl.stepping || decide (sl.stopNext ≠ 0)

/-- CAUSE of that freezing: of the stop or fault that waits (R406, R424), else 3 of the step (R409). -/
def nextCause (sl : Slot) : BitVec 4 := if sl.stopNext ≠ 0 then sl.stopNext else 3

/-- The slot after a retirement: at its next PC, Active, or Frozen when it was single-stepped (CAUSE 3, R409)
or a stop or core-scope fault awaited its reply (R406, R424). -/
def retiredSlot (sl : Slot) (npc : Word) (silent : Bool) : Slot :=
  let frozen := freezesNext sl
  { sl with
    pc := npc, pend := none, park := .none, heldOp := false
    st := if frozen then .frozen else .active
    cause := if frozen then nextCause sl else sl.cause
    dpc := if frozen then npc.setWidth 48 else sl.dpc
    stepping := false, stopNext := 0
    sinceEntry := if silent then sl.sinceEntry + 1 else 0 }

/-- The slot after the writes and the advance of its frame, with the journal units of both (R141, R337). -/
def writtenSlot (n : Nat) (sl : Slot) (ws : List Wr) : Slot × List JUnit :=
  let f := curFrame sl
  let (t, vs) := wrSlots n sl ws
  if f.v then
    let t := setCurFrame t (frameNext f)
    (t, vs ++ [frameUnit t])
  else (t, vs)

/-- Where a retirement leads: `npc`, or the next place of the frame in force (R337). -/
def retirePc (sl : Slot) (npc : Word) : Word := if (curFrame sl).v then framePc (curFrame sl) else npc

/-- The fingerprint of a coupled lead's slot after a retirement, and whether it now awaits its exchange (R470). -/
def pairedSlot (s : State) (p : Nat) (t : Slot) (rsn : BitVec 32) (es : List (BitVec 256)) (npc : Word) : Slot :=
  let c := getCore s p
  if pairCoupled s p then
    { t with finger := fingerNext t.finger es npc
             exchanging := decide (rsn.toNat % 1024 = 0)
               || decide (12288 < c.ringPos - oldestMark ((mget s.pairChk (p / 2)).getD {}) c) }
  else t

/-- RETIREMENT (R141, R142, R260, R337): the RSN advances, the writes are made, the frame of the level in force
advances, PC becomes `npc`, and the journal entries of the instruction enter the shadow queue. `us` are the units
of the pops, `due` the writeback clock. -/
def retireAt (s : State) (us : List JUnit) (ws : List Wr) (npc : Word) (due : Nat) : State :=
  let p := s.who.1
  let n := s.who.2
  let sl := me s
  let rsn := nextRsn s p n
  let npc := retirePc sl npc
  let w := writtenSlot n sl ws
  let units := retireUnits sl (us ++ w.2) npc
  let c := getCore s p
  let es := mkEntries units rsn n false c.set npc
  let t := { pairedSlot s p (retiredSlot w.1 npc units.isEmpty) rsn es npc with wbDue := due, wbRegs := writtenRegs sl ws }
  let x := wrCtxs c.res sl due (senderKey s p n) ws
  setCore s p { c with
    res := { x with slots := mset x.slots n t }
    wide := { c.wide with rsn := mset c.wide.rsn n rsn }
    shadow := c.shadow ++ es }

/-- Retire an instruction that makes a resolution of its own: its pops, then that, then its writes. -/
def retireNoting (s : State) (g : Got) (x : Resolution) (ws : List Wr) (npc : Word) : State :=
  retireAt (putMine (commitPops s g.pops) x) (popUnits g.pops) ws npc (issueCc s + 8)

/-- Retire the issuing slot's instruction: pops at issue, writes at writeback. -/
def retire (s : State) (g : Got) (ws : List Wr) (npc : Word) : State :=
  retireAt (commitPops s g.pops) (popUnits g.pops) ws npc (issueCc s + 8)

/-- Journal units of a store by local address: KIND 6 in the local store, KIND 7 in the accumulator buffer, none in
the buffers that are not shadowed (R132, R140). -/
def storeUnits (c : PCore) (st : Nat × Nat) : List JUnit :=
  if st.1 < 0x20000 then lsUnits c.res st.1 st.2
  else if 0x300000 ≤ st.1 then
    (wordsOf (st.1 - 0x300000) st.2).map fun w =>
      { kind := 7, target := w, data := leWord 64 (memBytes c.wide.acc (8 * w) 8), psn := c.wide.accPoison.contains w }
  else []

/-- Retire an instruction whose slot waited for a reply: its pops were made at issue. -/
def retireLate (s : State) (d : Pend) (ws : List Wr) : State :=
  let s' := updMe s fun sl => { sl with pend := none }
  retireAt s' (popUnits d.pops ++ d.stores.flatMap (storeUnits (getCore s s.who.1))) ws d.npc (getCore s s.who.1).cc

/-- The address of the next instruction (R259). -/
def pcOf (s : State) : Word := (me s).pc
/-- pc + 4 (R259). -/
def npcOf (s : State) : Word := pcOf s + 4

/-- The pops of an instruction that waits have left their records: `t` is the state `s` after them. -/
def lendRecords (s t : State) (pops : List (Nat × QEntry)) : State :=
  let job := myJob s
  let m := getMortar s job
  if pops = [] ∨ mortarMode s job = 0 then t
  else updMortar t job fun u =>
    let l : Lent := { agent := senderKey s s.who.1 s.who.2, recs := u.queue.length - m.queue.length
                      taken := m.handed.filter fun e => !u.handed.contains e }
    { u with lent := (u.lent.filter fun k => k.agent ≠ l.agent) ++ [l] }

/-- The issuing slot moves to Waiting: its pops are made, room for its pushes is reserved, and the instruction
completes when `left` parts have been answered (R48, R287). -/
def waitFor (s : State) (g : Got) (d : Pend) : State :=
  let s := lendRecords s (commitPops s g.pops) g.pops
  updMe { s with nextTag := s.nextTag + 1 } fun sl =>
    { sl with st := .waiting, pend := some { d with tag := s.nextTag, pops := g.pops, pushes := g.pushes, psn := g.psn } }

/-- An instruction of one result: its sources in order, its result as a function of them (R260). -/
def compute (s : State) (srcs : List Opnd) (d : GReg) (f : Got → Word) : Chk State := do
  let (g, s) ← gather s srcs [d]
  return retire s g [.put d (f g) g.psn] (npcOf s)

/-- The phase that the issuing slot runs in (R27, R28): the phase of the real-time job of its core's context. -/
def slotPhase (s : State) : Option Job :=
  if (getCore s s.who.1).res.rtJob = some (myJob s) then
    match findJob s (myJob s) with
    | some j => if j.phase = .closed then none else some j
    | none => none
  else none

/-- The BUDGET register (R27, R357): ⌊(Texp − TIME) × fcc⌋, 0 past Texp, all ones outside any phase. -/
def budgetWord (s : State) : Word :=
  match slotPhase s with
  | some j => BitVec.ofNat 64 ((j.texp - s.plumb) * 24 / j.fccTicks)
  | none => BitVec.allOnes 64

end Sys2Proof.Machine
end

