-- ==== Sys2Proof/Machine/Fabric.lean ====
section
/-! DEFINITION. Addresses and requests (R87 to R95, R115 to R119, R286 to R288, R431): the checks of an address at
the slot, the node that a request goes to, and the condition of a release. -/

namespace Sys2Proof.Machine

/-! ### Addresses -/

/-- The forms of access that R286 tells apart; `load` and `store` are those that node fields 0xE0 to 0xE5 take. -/
inductive Form where
  | load | loadV | store | storeV | word | stsb | amo | fetch
  deriving DecidableEq, Repr

/-- Node field of an address (R94). -/
def nodeField (ea : Word) : Nat := bits ea 63 56
/-- Bits 47:0 of an address. -/
def offset48 (ea : Word) : Nat := bits ea 47 0
/-- The node field is assigned (R94). -/
def nodeAssigned (f : Nat) : Bool := decide (f ≤ 0xC0) || (decide (0xE0 ≤ f) && decide (f ≤ 0xE5)) || decide (f = 0xF0) || decide (f = 0xFF)
/-- The address is a local one (R87). -/
def isLocal (ea : Word) : Bool := decide (nodeField ea = 0xFF)

/-- The buffer that a local address selects and the offset in it: 0 local store, 1 weight, 2 activation, 3
accumulator buffer (R87, R90). -/
def bufferOf (a : Nat) : Option (Nat × Nat) :=
  if a < 0x20000 then some (0, a)
  else if 0x100000 ≤ a ∧ a < 0x120000 then some (1, a - 0x100000)
  else if 0x200000 ≤ a ∧ a < 0x210000 then some (2, a - 0x200000)
  else if 0x300000 ≤ a ∧ a < 0x310000 then some (3, a - 0x300000)
  else none

/-- Whether a region register covers an access (R90). -/
def pregCovers (r : Word) (buf off n : Nat) (rd wr : Bool) : Bool :=
  tbit r 63 && (!rd || tbit r 62) && (!wr || tbit r 61) && decide (bits r 59 58 = buf)
    && decide (bits r 15 0 * 64 ≤ off) && decide (off + n ≤ (bits r 31 16 + 1) * 64)

/-- THE PROTECTION UNIT (R90): a valid region of the job covers the access and grants its kind. -/
def regionOk (x : Ctx) (job buf off n : Nat) (rd wr : Bool) : Bool :=
  x.regions.any fun r => decide (r.job = job) && r.pregs.any fun p => pregCovers p buf off n rd wr

/-- Whether a form reads and writes, for the protection unit and the page tables (R90, R99): WR grants stores,
full/empty forms and atomics. -/
def formReads : Form → Bool
  | .load | .loadV | .fetch => true
  | _ => false
/-- Whether a form needs WR. -/
def formWrites : Form → Bool
  | .load | .loadV | .fetch => false
  | _ => true

/-- Step 3 of R431 with R286 and R88: the fault code of a form that is not accepted at an address. -/
def formCode (f : Form) (ea : Word) (n : Nat) : Option Nat :=
  let nf := nodeField ea
  if nf = 0xFF then
    match bufferOf (offset48 ea) with
    | none => some 0x02
    | some (b, _) => match f with
      | .load | .loadV | .fetch => none
      | .store | .storeV => if b = 1 then some 0x04 else none
      | .stsb => if b = 0 then none else if b = 1 then some 0x04 else some 0x02
      | .word | .amo => if b = 0 then none else some 0x02
  else if nf = 0 ∨ nf = 0xF0 then (if f = .word then some 0x02 else none)
  else if nf ≤ 0xC0 then none
  else if nf = 0xE1 then
    (if 2 ^ 24 ≤ offset48 ea then some 0x02
     else match f with
      | .word | .stsb => some 0x02
      | _ => none)
  else match f with
    | .load | .store | .fetch => if n = 4 ∨ n = 8 then none else some 0x02
    | _ => some 0x02

/-- THE ADDRESS CHECKS OF R431 IN THEIR ORDER: the code of the first that fails. -/
def addrCode (s : State) (f : Form) (ea : Word) (n : Nat) : Option Nat :=
  if bits ea 55 48 ≠ 0 || !nodeAssigned (nodeField ea) then some 0x02
  else if isLocal ea && (bufferOf (offset48 ea)).isNone then some 0x02
  else match formCode f ea n with
    | some c => some c
    | none =>
      if ea.toNat % n ≠ 0 then some 0x03
      else if isLocal ea then
        match bufferOf (offset48 ea) with
        | some (b, off) =>
          if regionOk (getCore s s.who.1).res (myJob s) b off n (formReads f) (formWrites f)
              && !(decide (b = 0) && inTaskArea off n) then none
          else some 0x04
        | none => some 0x02
      else none

/-- Stage 6 for one address (R430). -/
def addrCheck (s : State) (f : Form) (ea : Word) (n : Nat) : Chk Unit :=
  match addrCode s f ea n with
  | some c => faultWith s c ea
  | none => .ok ()

/-- Stage 6 for several addresses, in order: the packet holds the address that fails (R437). -/
def addrChecks (s : State) (f : Form) (n : Nat) : List Word → Chk Unit
  | [] => .ok ()
  | ea :: r => do
    addrCheck s f ea n
    addrChecks s f n r

/-- Whether an access touches the region that the debug window's LOCK names (R422). -/
def lockTouches (c : PCore) (off n : Nat) : Bool :=
  tbit c.lock 63 && decide (bits c.lock 15 0 * 64 < off + n) && decide (off < (bits c.lock 31 16 + 1) * 64)

/-- The issue check of LOCK for an access by local address (stage 3, R422, R430). -/
def lockCheck (s : State) (ea : Word) (n : Nat) : Chk Unit :=
  match isLocal ea, bufferOf (offset48 ea) with
  | true, some (0, off) => if lockTouches (getCore s s.who.1) off n then park s .lock else .ok ()
  | _, _ => .ok ()

/-- LOCK for several addresses. -/
def lockChecks (s : State) (n : Nat) : List Word → Chk Unit
  | [] => .ok ()
  | ea :: r => do
    lockCheck s ea n
    lockChecks s n r

/-! ### Destinations (R115, R121) -/

/-- Codes of destinations: a logical core; 0x100 + n a memory node; 0x200 the control complex and 0x202 to 0x205
the nodes at 0xE2 to 0xE5; 0x300 the Footing port; 0x500 the pair-link node; 0x1000 + p the local port of
physical core p. -/
def destOf (p : Nat) (ea : Word) : Nat :=
  let nf := nodeField ea
  if nf = 0xFF then 0x1000 + p
  else if nf = 0 then 0x100 + homeNode (offset48 ea)
  else if nf ≤ 0xC0 then nf - 1
  else if nf = 0xE1 then 0x300
  else if nf = 0xF0 then 0x500
  else 0x200 + (nf - 0xE0)

/-- A request of the issuing slot. -/
def mkReq (s : State) (tag nud : Nat) (act : Act) (parts : List Part) : Req :=
  { src := .slot s.who.1 s.who.2, tag := tag, key := senderKey s s.who.1 s.who.2, job := myJob s
    rsn := nextRsn s s.who.1 s.who.2, launch := (me s).launchId.toNat % 2 ^ 16
    nud := BitVec.ofNat 5 nud, act := act, parts := parts
    remote := match parts with | p :: _ => !isLocal p.addr | [] => true }

/-- Send a request to the node that owns its first part. -/
def sendReq (s : State) (r : Req) : State :=
  match r.parts with
  | [] => s
  | q :: _ => { s with net := s.net ++ [.req (destOf s.who.1 q.addr) r] }

/-- The destinations of a list of parts, each once, in the order of their first part. -/
def destsOf (p : Nat) : List Part → List Nat
  | [] => []
  | q :: r => let d := destOf p q.addr; d :: (destsOf p r).filter (· ≠ d)

/-- The request of the parts of one instruction that go to a destination; it says whether there are others. -/
def destReq (s : State) (tag nud : Nat) (act : Act) (parts : List Part) (d : Nat) : Req :=
  { mkReq s tag nud act (parts.filter fun q => destOf s.who.1 q.addr = d) with
    oneOf := decide (1 < (destsOf s.who.1 parts).length) }

/-- Send the parts of one instruction, grouped by destination in lane order (R296). -/
def sendParts (s : State) (tag nud : Nat) (act : Act) (parts : List Part) : State :=
  (destsOf s.who.1 parts).foldl (fun s d => sendReq s (destReq s tag nud act parts d)) s

/-- The issuing slot sends a request of several parts and moves to Waiting for their answers. -/
def requestParts (s : State) (g : Got) (d : Pend) (nud : Nat) (act : Act) (parts : List Part) : State :=
  let s' := waitFor s g { d with left := parts.length }
  sendParts s' s.nextTag nud act parts

/-- The issuing slot sends a request of one part. -/
def request (s : State) (g : Got) (d : Pend) (nud : Nat) (act : Act) (q : Part) : State :=
  requestParts s g d nud act [q]

/-- What a Waiting slot remembers of the instruction that issued. -/
def pendOf (s : State) (i : Instr) (addr : Word) : Pend :=
  { instr := i, word := s.word, tag := 0, addr := addr, npc := npcOf s }

/-! ### Scopes and releases (R117, R118, R288) -/

/-- Code of a scope (R117). -/
def scopeCode : Scope → Nat
  | .slot => 0 | .core => 1 | .clu => 2 | .chip => 3 | .pair => 4

/-- A core of logical cluster `i` is mapped outside physical cluster `i` (R118). -/
def clusterSplit (s : State) (i : Nat) : Bool :=
  (upTo 8).any fun k => lpctV s (8 * i + k) && decide (clusterOf (physOf s (8 * i + k)) ≠ i)

/-- The scope as executed: clu as chip while the logical cluster is split (R118). -/
def scopeOf (s : State) (lc : Nat) (sc : Scope) : Nat :=
  if sc = .clu ∧ clusterSplit s (lc / 8) then 3 else scopeCode sc

/-- Whether the buffers of logical core `n` lie in a scope of core `lc`. -/
def coreInScope (sc lc n : Nat) : Bool :=
  match sc with
  | 0 => false
  | 1 => decide (n = lc)
  | 2 => decide (n / 8 = lc / 8)
  | _ => true

/-- Whether a request holds an event that a scope covers (R117): each part is an event of its own (R113), and one whose
place is not known yet counts. -/
def reqInScope (s : State) (sc lc sl : Nat) (dst : Nat) (r : Req) : Bool :=
  if dst = 0x500 then decide (4 ≤ sc)
  else if 3 ≤ sc then true
  else
    let n := if 0x1000 ≤ dst then logicalOf s (dst - 0x1000) else dst
    if 0x100 ≤ dst ∧ dst < 0x1000 then false
    else if sc = 0 then
      decide (n = lc) && (decide (r.phys = []) || (r.phys.zip r.parts).any fun (off, q) =>
        (!isLocal q.addr || decide (offset48 q.addr < 0x20000)) && decide (sl * 0x2000 ≤ off) && decide (off + q.size ≤ sl * 0x2000 + 0x1C00))
    else coreInScope sc lc n

/-- Whether a message in flight is an event of slot `sl` of physical core `p` that a scope covers. -/
def msgPending (s : State) (sc p sl : Nat) : Msg → Bool
  | .req dst r => decide (r.src = .slot p sl) && reqInScope s sc (logicalOf s p) sl dst r
  | .held q r => decide (r.src = .slot p sl) && reqInScope s sc (logicalOf s p) sl (logicalOf s q) r
  | .send _ _ _ src _ lc _ _ _ _ _ _ => decide (src = .slot p sl) && coreInScope sc (logicalOf s p) lc
  | .urgent src _ lc _ _ => decide (src = .slot p sl) && coreInScope sc (logicalOf s p) lc
  | .fill _ _ _ src _ lc _ _ _ _ _ => decide (src = .slot p sl) && coreInScope sc (logicalOf s p) lc
  | .decr src _ _ _ _ lc _ => decide (src = .slot p sl) && coreInScope sc (logicalOf s p) lc
  | _ => false

/-- Whether a message of the slot that a scope covers waits in an overflow (R308), acknowledged and not performed. -/
def overflowPending (s : State) (sc p sl : Nat) : Bool :=
  let holds := fun (x : Ctx) => x.overflow.any fun h => decide (h.key = senderKey s p sl)
  s.cores.any fun (_, c) => coreInScope sc (logicalOf s p) c.lcore
    && (holds c.res || match c.sav with | some x => holds x | none => false)

/-- Whether a message in flight is a store or RMW, rather than a message of R113. -/
def isWriteMsg : Msg → Bool
  | .req _ _ | .held _ _ => true
  | _ => false

/-- Every earlier store and RMW of the slot that the scope covers has been performed. -/
def storesDone (s : State) (sc p sl : Nat) : Bool :=
  !(s.net.any fun m => isWriteMsg m && msgPending s sc p sl m)
    && !(s.cores.any fun (q, c) => c.lockHeld.any fun r => msgPending s sc p sl (.held q r))

/-- Every earlier message of the slot that the scope covers has been performed; a SENDU is when it enters the waiting entries
of its target (log 78). -/
def messagesDone (s : State) (sc p sl : Nat) : Bool :=
  !(s.net.any fun m => !isWriteMsg m && msgPending s sc p sl m) && !overflowPending s sc p sl

/-- Every earlier store, RMW and message of the slot that the scope covers has been performed (R288). -/
def performedAll (s : State) (sc p sl : Nat) : Bool := storesDone s sc p sl && messagesDone s sc p sl

/-- The condition of a release (R288): the slot waits until it holds. -/
def releaseGate (s : State) (sc : Scope) : Chk Unit :=
  let p := s.who.1
  if performedAll s (scopeOf s (logicalOf s p) sc) p s.who.2 then .ok () else await s .performed

/-- Whether every byte of a footprint region of a job that runs for logical core `own` lies in a scope of core `lc` (R117,
R167). -/
def regionInScope (sc lc own : Nat) (r : Word) : Bool :=
  if !tbit r 0 then true
  else if 3 ≤ sc then true
  else
    let nf := nodeField r
    if nf = 0xFF then coreInScope sc lc own
    else decide (1 ≤ nf) && decide (nf ≤ 0xC0) && coreInScope sc lc (nf - 1)

/-- A graph instance of this reference that a slot's CARDQ started; engine jobs of its cards that have started run to their end
whatever becomes of it (R25, R169). -/
def ownGraph (s : State) (key : BitVec 12) (ref : Nat) : Bool :=
  s.graphs.any fun g => decide (g.gen.toNat * 256 + g.inst = ref) && decide (g.origin = key)

/-- The regions of a card that has not started lie in a scope: bits 511:128 of its record; a card of no fixed core, and one
that cannot be read, lie in no scope below chip (R166, R302). -/
def cardInScope (s : State) (sc lc job card : Nat) : Bool :=
  match findJob s job with
  | none => false
  | some j => match readVirtual s job (bits j.record 511 448 % 2 ^ 48 + 64 * card) 64 with
    | (.ok (bs, false), _) =>
      let c := leWord 512 bs
      decide (bits c 31 24 < 192) && decide (bits c 39 37 ≠ 4) && decide (bits c 39 37 ≠ 0)
        && ((upTo 6).all fun i => regionInScope sc lc (bits c 31 24) (lane 64 c (2 + i)))
    | _ => false

/-- Engine jobs that the slot enqueued earlier, by an instruction or by the cards of its CARDQ, that the scope covers and
that have not ended (R117, R302). -/
def jobsPending (s : State) (sc p sl : Nat) : Bool :=
  let lc := logicalOf s p
  let key := senderKey s p sl
  let mine := fun (own slot : Nat) (card : Option (Nat × Nat)) => match card with
    | some (ref, _) => ownGraph s key ref
    | none => decide (own = lc) && decide (slot = sl)
  let covered := fun (own : Nat) (rs : List Word) => rs.all (regionInScope sc lc own)
  decide (sc ≠ 0) &&
  ((s.cores.any fun (_, c) =>
      (c.wide.mxq.any fun j => mine c.lcore j.slot j.card && covered c.lcore (j.footR ++ j.footW))
        || (c.hodq.any fun j => mine c.lcore j.slot j.card && covered c.lcore (j.footR ++ j.footW)))
    || ((s.visionQ.flatMap fun e => e.2) ++ s.engines.map fun e => e.2).any
        (fun v => ownGraph s key v.inst && covered 255 (v.footR ++ v.footW))
    || (s.graphs.any fun g => decide (g.origin = key) && decide (g.st = .running)
        && (decide (3 ≤ sc) || g.cards.any fun k => !g.started.contains k && cardInScope s sc lc g.job k)))

/-! ### Order at a destination (R121, R174, R504) -/

/-- The control complex is one destination: node fields 0xE0 and 0xE1 are the same (R504). -/
def destClass (d : Nat) : Nat := if d = 0x300 then 0x200 else d

/-- Source, job and destination of an event in flight. -/
def msgPlace (s : State) : Msg → Option (Agent × Nat × Nat)
  | .req d r => some (r.src, r.job, destClass d)
  | .held p r => some (r.src, r.job, logicalOf s p)
  | .fill _ j _ q _ c _ _ _ _ _ => some (q, j, c)
  | .send _ j _ q _ c _ _ _ _ _ _ => some (q, j, c)
  | .urgent q _ c _ u => some (q, u.job, c)
  | .decr q _ _ j _ c _ => some (q, j, c)
  | _ => none

/-- An earlier message of a slot waits in the overflow of logical core `lc` (R308), for another slot than `target`. -/
def overflowAhead (s : State) (src : Agent) (job lc : Nat) (target : Option Nat) : Bool :=
  match src with
  | .slot p sl =>
    decide (lc < 192) && ((getCore s (physOf s lc)).res.overflow.any fun h =>
      decide (h.key = senderKey s p sl) && decide (h.job = job) && decide (target ≠ some h.slot))
  | _ => false

/-- A reset core's notice to a destination is ahead: what its slots send after it comes behind it (R148). -/
def noticeAhead (s : State) (n : Nat) (src : Agent) (dst : Nat) : Bool :=
  match src with
  | .slot p _ =>
    let d := if dst < 0x100 then physOf s dst else if 0x1000 ≤ dst then dst - 0x1000 else if dst = 0x300 then 0x201 else dst
    (s.net.take n).any fun m => match m with
      | .resetNotice e lc => decide (e = d) && decide (lc = logicalOf s p)
      | _ => false
  | _ => false

/-- AN EARLIER EVENT OF THE SAME SOURCE to the same destination has not been performed: in the fabric before place `n`, held
for LOCK or a fault at the core, or in its overflow; so has a reset notice of its core. The event waits (R121, R148). -/
def earlierWaits (s : State) (n : Nat) (src : Agent) (job dst : Nat) (target : Option Nat) : Bool :=
  ((s.net.take n).any fun m => decide (msgPlace s m = some (src, job, destClass dst)))
    || (decide (dst < 192) && ((getCore s (physOf s dst)).lockHeld.any fun r => decide (r.src = src) && decide (r.job = job)))
    || overflowAhead s src job dst target || noticeAhead s n src dst

/-! ### Repeats (R148) -/

/-- Whether an event with RSN `n` repeats one that the table has accepted from its key. -/
def isRepeat (t : Map (BitVec 32)) (key : Nat) (n : BitVec 32) : Bool :=
  match mget t key with
  | none => false
  | some last => decide (n = last) || decide (2 ^ 31 ≤ (n - last).toNat)

/-- The table once it has accepted RSN `n` from a key: an event that was acknowledged or dropped out before a newer one of the
key leaves the newer (R115, R148). -/
def acceptKey (t : Map (BitVec 32)) (key : Nat) (n : BitVec 32) : Map (BitVec 32) := if isRepeat t key n then t else mset t key n

/-! ### Ring objects -/

/-- The reserved fields of a ring object are 0 (R6, R193). -/
def ringClean (o : BitVec 256) : Bool := decide (bits o 127 104 = 0) && decide (bits o 79 0 = 0)

end Sys2Proof.Machine
end

