-- ==== Sys2Proof/Machine/LocalStore.lean ====
section
/-! DEFINITION. The local store as its core reaches it: the watchpoint (R403 to R407) and the loads that a slot makes
in the pipeline (R49, R87, R287). -/

namespace Sys2Proof.Machine

/-- An access as the watch unit sees it (R404, R405). -/
structure Access where
  off : Nat
  size : Nat
  rd : Bool
  wr : Bool
  /-- 0 load; 1 store; 2 AMO; 3 FE form; 4 STSB; 5 hod or task hardware; 6 barrier arrival -/
  kind : Nat
  sub : Nat := 0
  remote : Bool := false
  engine : Bool := false
  job : Nat
  key : BitVec 12
  rsn : BitVec 32 := 0
  deriving DecidableEq, Repr

/-- The origin of an access is one that WATCH names (R403): REM an arrival from the fabric, LOC a slot of the core by local
address, ENG a write by the hod or the task hardware. -/
def watchOrigin (w : Word) (a : Access) : Bool :=
  (a.remote && tbit w 60) || (if a.engine then a.wr && tbit w 58 else !a.remote && tbit w 59)

/-- Whether an armed WATCH matches an access (R404). -/
def watchMatches (w : Word) (a : Access) : Bool :=
  tbit w 63 && (wordsOf a.off a.size).contains (bits w 13 0)
    && ((a.wr && tbit w 62) || (a.rd && tbit w 61))
    && watchOrigin w a
    && (!tbit w 47 || decide (bits w 46 40 = a.job))

/-! ### The task area (R33) -/

/-- The frame that a place of the task area shows, if a list holds one there (R33, log 14). -/
def taskFrame (x : Ctx) (off : Nat) : Option V512 :=
  let share := off / 0x2000
  let i := (off % 0x2000 - 0x1C00) / 64
  if share ≤ 3 then x.deque[16 * share + i]?
  else if share ≤ 5 then x.runList[16 * (share - 4) + i]?
  else if share ≤ 13 then (x.pending[16 * (share - 6) + i]?).map fun f => f.frame
  else none

/-- A doubleword of the local store as the debug window and the watch unit show it, the task area included. -/
def dbgLs (x : Ctx) (off : Nat) : Word :=
  if inTaskArea off 8 then
    if off / 0x2000 = 14 then (mget x.dep ((off % 0x2000 - 0x1C00) / 8)).getD 0
    else match taskFrame x off with
      | some f => lane 64 f (off % 64 / 8)
      | none => lsWord x (off / 8)
  else lsWord x (off / 8)

/-- WHIT of a hit (R405). -/
def mkWhit (a : Access) (old new : Word) (time : Nat) : BitVec 256 :=
  BitVec.ofNat 256 (old.toNat * 2 ^ 192 + new.toNat * 2 ^ 128 + time % 2 ^ 64 * 2 ^ 64
    + (if a.engine then 0xFFF else a.key.toNat) * 2 ^ 52 + a.kind % 16 * 2 ^ 48 + a.sub % 32 * 2 ^ 43 + b2n a.remote * 2 ^ 42
    + 2 ^ 41 + a.rsn.toNat)

/-- The physical cores that a stop of core `p` names: the core or its physical cluster (R403, R406). -/
def stopCores (act p : Nat) : List Nat :=
  if act = 1 then [p] else (upTo 8).map fun i => clusterOf p * 8 + i

/-- A stop by source `src` starts at core `q`: it is on its way, and from now on its slots count their skid (R406, R407). -/
def startStop (s : State) (q src : Nat) : State :=
  let s := updCore s q fun c => { c with
    stopping := some (c.cc, 0)
    res := { c.res with slots := c.res.slots.map fun (n, sl) => (n, { sl with skid := 0 }) } }
  { s with net := s.net ++ [.watchStop q src] }

/-- A hit of core `p`'s watch unit stops core `q`. A stop on its way there stays the one stop; hits of one instant leave the lower
physical core as its source (R414, log 82). -/
def watchStops (s : State) (p q : Nat) : State :=
  if (getCore s q).stopping.isNone then startStop s q p
  else { s with net := s.net.map fun m => match m with
    | .watchStop a src =>
      if a = q ∧ p < src ∧ bits (getCore s src).whit 127 64 = s.plumb % 2 ^ 64 then .watchStop a p else m
    | m => m }

/-- The fault packet `watch stop` of core `p` (R406). -/
def watchPacket (s : State) (p off : Nat) : BitVec 256 :=
  mkPacket s.plumb (BitVec.ofNat 64 (0xFF * 2 ^ 56 + off)) 0 0 0x13 0 p (logicalOf s p) 0 0

/-- The watch unit sees an access of core `p`'s local store, with word WORD before and after it (R404 to R406); with a hit held
in WHIT there is no further one (R404). -/
def watchAccess (s : State) (p : Nat) (a : Access) (before : Ctx) : State :=
  let c := getCore s p
  let w := c.watch
  let off := 8 * bits w 13 0
  if !watchMatches w a then s
  else if bits w 55 48 ≠ 0 then updCore s p fun c => { c with watch := setBits w 55 48 (bits w 55 48 - 1) }
  else if tbit c.whit 41 then s
  else
    let act := bits w 57 56
    let s := updCore s p fun c => { c with
      whit := mkWhit a (dbgLs before off) (dbgLs c.res off) s.plumb
      watch := if act = 0 then w else setBits w 63 63 0 }
    if act = 0 then s
    else
      let s := (stopCores act p).foldl (fun s q => watchStops s p q) s
      { s with sent := s.sent ++ [.packet 0 (watchPacket s p off), .packet 1 (watchPacket s p off)] }

/-- The task hardware writes places of the task area: offset and size of each (R33, R404). -/
def watchTask (s : State) (p job : Nat) (before : Ctx) (places : List (Nat × Nat)) : State :=
  places.foldl (fun s e => watchAccess s p
    { off := e.1, size := e.2, rd := false, wr := true, kind := 5, engine := true, job := job, key := 0xFFF } before) s

/-- Frames at places `i` to `i + k - 1` of the list whose first share is `share`. -/
def placesOf (share i k : Nat) : List (Nat × Nat) := (upTo k).map fun j => (placeOff share (i + j), 64)

/-- Offset of a dependence counter in the task area (R33). -/
def depOff (i : Nat) : Nat := 14 * 0x2000 + 0x1C00 + 8 * i

/-- A load by a slot of the core, by local address, from its own local store: bytes and poison. -/
def ownLoad (s : State) (off n : Nat) : (List Byte × Bool) × State :=
  let x := (getCore s s.who.1).res
  let a : Access := { off := off, size := n, rd := true, wr := false, kind := 0, job := myJob s
                      key := senderKey s s.who.1 s.who.2, rsn := nextRsn s s.who.1 s.who.2 }
  ((memBytes x.ls off n, poisonRead 8 x.lsPoison off n), watchAccess s s.who.1 a x)

/-- Loads of several elements from the own local store, in order. -/
def ownLoads (s : State) (n : Nat) : List Nat → List (List Byte × Bool) × State
  | [] => ([], s)
  | off :: r =>
    let (v, s) := ownLoad s off n
    let (vs, s) := ownLoads s n r
    (v :: vs, s)

/-- Whether an address names the local store of the issuing core by local address. -/
def isOwnLs (ea : Word) : Bool := isLocal ea && decide (offset48 ea < 0x20000)

end Sys2Proof.Machine
end

