-- ==== Sys2Proof/Machine/MemInstr.lean ====
section
/-! DEFINITION. Loads, stores, gather, scatter, sub-byte stores, full/empty forms, atomics, fences, prefetch and barriers
as their slots issue them, and how they complete when the answers have arrived (R286 to R304, R312, R313, R437, R438,
R440). What the owning node does stands in Perform. -/

namespace Sys2Proof.Machine

/-! ### Addresses before the checks -/

/-- What the sources would give, before any check: for ADDR of R433. -/
def peekSrcs (s : State) (srcs : List Opnd) : Got := { xs := (readSrcs (getCore s s.who.1).res (me s) srcs []).1 }

/-- Stage 4 for the listed sources: (position among the sources, number that DATA gives it in R457). -/
def noPoisonAt (s : State) (g : Got) (addr : Word) : List (Nat × Nat) → Chk Unit
  | [] => .ok ()
  | (i, n) :: r => if (g.xs.getD i {}).psn then faultWith s 0x05 addr 0 n else noPoisonAt s g addr r

/-- STAGES 2 TO 6 OF AN ACCESS OF ONE ADDRESS (R430, R437): core owner, sources, LOCK, poison of the sources that the
access consumes, the address. `ea` forms the address from the sources. -/
def accessGate (s : State) (f : Form) (n : Nat) (srcs : List Opnd) (dsts : List GReg) (psn : List (Nat × Nat))
    (ea : Got → Word) : Chk (Got × State) := do
  let (g, s) ← gather s srcs dsts (ea (peekSrcs s srcs))
  lockCheck s (ea g) n
  noPoisonAt s g (ea g) psn
  addrCheck s f (ea g) n
  return (g, s)

/-! ### Loads (R293, R294) -/

/-- Bytes that a load size moves. -/
def ldBytes : LdSize → Nat
  | .b | .bz => 1
  | .h | .hz => 2
  | .w | .wz => 4
  | .d => 8

/-- Extension of a loaded value to 64 bits (R293). -/
def ldExtend (sz : LdSize) (bs : List Byte) : Word :=
  match sz with
  | .b => sext64 (leWord 8 bs)
  | .h => sext64 (leWord 16 bs)
  | .w => sext64 (leWord 32 bs)
  | _ => leWord 64 bs

/-- Address of an access with a signed offset in units of `n` bytes (R292). -/
def memAddr {w : Nat} (base : Word) (off : BitVec w) (n : Nat) : Word := base + sext64 off * BitVec.ofNat 64 n

/-- The form of a scalar load: windows at node fields 0xE0 and 0xE2 to 0xE5 take the sizes .w and .d only, and .wz is another
size (R286, R293). -/
def loadForm (sz : LdSize) : Form := if sz = .wz then .loadV else .load

/-- A scalar load: in the pipeline from the own local store, else by a request (R287, R293). -/
def loadScalar (i : Instr) (t base : GReg) (nud : BitVec 5) (sz : LdSize) (ea : Got → Word) (s : State) :
    Host.Outcome State Fault Refusal := finish do
  let n := ldBytes sz
  let (g, s) ← accessGate s (loadForm sz) n [.g base] [t] [(0, 0)] ea
  if isOwnLs (ea g) then
    let ((bs, psn), s) := ownLoad s (offset48 (ea g)) n
    return retire s g [.put t (ldExtend sz bs) psn] (npcOf s)
  else return request s g (pendOf s i (ea g)) nud.toNat .load { addr := ea g, size := n }

/-- LD (R293). -/
def execLd (t base : GReg) (nud : BitVec 5) (sz : LdSize) (off : BitVec 8) (s : State) :=
  loadScalar (.ld t base nud sz off) t base nud sz (fun g => memAddr (g.w 0) off (ldBytes sz)) s
/-- LDAQ (R293): an acquire; the slot issues nothing until the value has returned, so nothing of it can pass (log 98). -/
def execLdaq (t base : GReg) (nud : BitVec 5) (sz : LdSize) (scope : Scope) (off : BitVec 5) (s : State) :=
  loadScalar (.ldaq t base nud sz scope off) t base nud sz (fun g => memAddr (g.w 0) off (ldBytes sz)) s

/-- LDV (R294). -/
def execLdv (t : VReg) (base : GReg) (nud : BitVec 5) (off : BitVec 8) (s : State) : Host.Outcome State Fault Refusal :=
  finish do
    let ea := fun (g : Got) => memAddr (g.w 0) off 64
    let (g, s) ← accessGate s .loadV 64 [.g base] [] [(0, 0)] ea
    if isOwnLs (ea g) then
      let ((bs, psn), s) := ownLoad s (offset48 (ea g)) 64
      return retire s g [.putV t (leWord 512 bs) psn] (npcOf s)
    else return request s g (pendOf s (.ldv t base nud off) (ea g)) nud.toNat .load { addr := ea g, size := 64 }

/-! ### Stores -/

/-- Bytes that a store size moves. -/
def stBytes : StSize → Nat
  | .b => 1 | .h => 2 | .w => 4 | .d => 8

/-- The part of a plain store by local address that the core's own port journals at retirement. -/
def ownStores (ps : List Part) : List (Nat × Nat) :=
  (ps.filter fun q => isLocal q.addr).map fun q => (offset48 q.addr, q.size)

/-- Send plain stores (R287): the slot waits for the TACK of every part. -/
def storeParts (s : State) (g : Got) (i : Instr) (addr : Word) (nud : BitVec 5) (ps : List Part) : State :=
  requestParts s g { pendOf s i addr with stores := ownStores ps } nud.toNat .store ps

/-- A scalar store (R293): base before data; poisoned data is stored. -/
def storeScalar (i : Instr) (t base : GReg) (nud : BitVec 5) (sz : StSize) (ea : Got → Word) (s : State) : Chk State := do
  let n := stBytes sz
  let (g, s) ← accessGate s .store n [.g base, .g t] [] [(0, 0)] ea
  return storeParts s g i (ea g) nud
    [{ addr := ea g, size := n, data := natBytes n (g.w 1).toNat, psn := (g.xs.getD 1 {}).psn }]

/-- ST (R293). -/
def execSt (t base : GReg) (nud : BitVec 5) (sz : StSize) (off : BitVec 8) (s : State) : Host.Outcome State Fault Refusal :=
  finish (storeScalar (.st t base nud sz off) t base nud sz (fun g => memAddr (g.w 0) off (stBytes sz)) s)

/-- STRL (R293, R288): a release of its scope, made once every check has passed. -/
def execStrl (t base : GReg) (nud : BitVec 5) (sz : StSize) (scope : Scope) (off : BitVec 5) (s : State) :
    Host.Outcome State Fault Refusal := finish do
  let s' ← storeScalar (.strl t base nud sz scope off) t base nud sz (fun g => memAddr (g.w 0) off (stBytes sz)) s
  releaseGate s scope
  return s'

/-- STV (R294). -/
def execStv (t : VReg) (base : GReg) (nud : BitVec 5) (off : BitVec 8) (s : State) : Host.Outcome State Fault Refusal :=
  finish do
    let ea := fun (g : Got) => memAddr (g.w 0) off 64
    let (g, s) ← accessGate s .storeV 64 [.g base, .v t] [] [(0, 0)] ea
    return storeParts s g (.stv t base nud off) (ea g) nud
      [{ addr := ea g, size := 64, data := natBytes 64 (g.v 1).toNat, psn := (g.xs.getD 1 {}).psn }]

/-! ### Gather and scatter (R295, R296) -/

/-- Element width of GATH and SCAT. -/
def lanesW (dword : Bool) : Nat := if dword then 8 else 4

/-- The active lanes and their addresses (R296). -/
def laneAddrs (b0 : Word) (ix : V512) (m : Word) (w : Nat) (sh : BitVec 2) : List (Nat × Word) :=
  ((upTo (64 / w)).filter fun i => tbit m i).map fun i =>
    (i, b0 + sext64 (ix.extractLsb' (8 * w * i) (8 * w)) * BitVec.ofNat 64 (2 ^ sh.toNat))

/-- Stages 2 to 6 of GATH and SCAT: every active lane in increasing order (R437). -/
def laneGate (s : State) (f : Form) (srcs : List Opnd) (m : Word) (w : Nat) (sh : BitVec 2) :
    Chk (Got × List (Nat × Word) × State) := do
  let g0 := peekSrcs s srcs
  let (g, s) ← gather s srcs [] (((laneAddrs (g0.w 0) (g0.v 1) m w sh).map fun e => e.2).headD 0)
  let ls := laneAddrs (g.w 0) (g.v 1) m w sh
  let eas := ls.map fun e => e.2
  lockChecks s w eas
  noPoisonAt s g (eas.headD 0) [(0, 0), (1, 4)]
  addrChecks s f w eas
  return (g, ls, s)

/-- The vector that lanes with values make; other lanes 0 (R296). -/
def gatherLanes (w : Nat) (vals : List (Nat × List Byte)) : V512 :=
  BitVec.ofNat 512 ((vals.map fun (i, bs) => leNat bs * 2 ^ (8 * w * i)).sum)

/-- GATH (R296). -/
def execGath (d : VReg) (a : GReg) (b : VReg) (m : MReg) (dword : Bool) (sh : BitVec 2) (nud : BitVec 5) (s : State) :
    Host.Outcome State Fault Refusal := finish do
  let w := lanesW dword
  let (g, ls, s) ← laneGate s .loadV [.g a, .v b] (mReg (me s) m.toNat) w sh
  if ls.all fun e => isOwnLs e.2 then
    let (vs, s) := ownLoads s w (ls.map fun e => offset48 e.2)
    let v := gatherLanes w ((ls.map fun e => e.1).zip (vs.map fun e => e.1))
    return retire s g [.putV d v (vs.any fun e => e.2)] (npcOf s)
  else
    return requestParts s g (pendOf s (.gath d a b m dword sh nud) ((ls.map fun e => e.2).headD 0)) nud.toNat .load
      (ls.map fun e => { addr := e.2, size := w, lane := e.1 })

/-- SCAT (R296): the data is read after base, indices and mask. -/
def execScat (d : VReg) (a : GReg) (b : VReg) (m : MReg) (dword : Bool) (sh : BitVec 2) (nud : BitVec 5) (s : State) :
    Host.Outcome State Fault Refusal := finish do
  let w := lanesW dword
  let (g, ls, s) ← laneGate s .storeV [.g a, .v b, .v d] (mReg (me s) m.toNat) w sh
  if ls = [] then return retire s g [] (npcOf s)
  else
    return storeParts s g (.scat d a b m dword sh nud) ((ls.map fun e => e.2).headD 0) nud
      (ls.map fun e => { addr := e.2, size := w, lane := e.1, data := natBytes w ((g.v 2).toNat / 2 ^ (8 * w * e.1))
                         psn := (g.xs.getD 2 {}).psn })

/-! ### Sub-byte stores (R297) -/

/-- Byte and bit in it of element `i` of an array at byte address `x`: four bits, or six packed by R69. -/
def elemAt (six : Bool) (x i : Word) : Word × Nat :=
  if six then
    let bit := 6 * (i.toNat % 4)
    (x + 3 * BitVec.ofNat 64 (i.toNat / 4) + BitVec.ofNat 64 (bit / 8), bit % 8)
  else (x + BitVec.ofNat 64 (i.toNat / 2), 4 * (i.toNat % 2))

/-- Bytes that an element at a bit touches. -/
def elemBytes (six : Bool) (bit : Nat) : Nat := if six && decide (2 < bit) then 2 else 1

/-- STSB (R297, R437). -/
def execStsb (t base : GReg) (nud : BitVec 5) (six : Bool) (idx : GReg) (s : State) : Host.Outcome State Fault Refusal :=
  finish do
    let at_ := fun (g : Got) => elemAt six (g.w 0) (g.w 1)
    let srcs := [Opnd.g base, .g idx, .g t]
    let (g, s) ← gather s srcs [] (at_ (peekSrcs s srcs)).1
    let (ea, bit) := at_ g
    let n := elemBytes six bit
    let bytes := (upTo n).map fun k => ea + BitVec.ofNat 64 k
    lockChecks s 1 bytes
    noPoisonAt s g ea [(0, 0), (1, 4)]
    addrChecks s .stsb 1 bytes
    return request s g (pendOf s (.stsb t base nud six idx) ea) nud.toNat (.storeSub bit six)
      { addr := ea, size := n, data := natBytes 1 (g.w 2).toNat, psn := (g.xs.getD 2 {}).psn }

/-! ### Full/empty forms (R298, R299) -/

/-- A full/empty form without data. -/
def feForm (i : Instr) (form : Nat) (base : GReg) (dsts : List GReg) (nud : BitVec 5) (off : BitVec 8) (s : State) :
    Host.Outcome State Fault Refusal := finish do
  let ea := fun (g : Got) => memAddr (g.w 0) off 8
  let (g, s) ← accessGate s .word 8 [.g base] dsts [(0, 0)] ea
  return request s g (pendOf s i (ea g)) nud.toNat (.fe form) { addr := ea g, size := 8 }

/-- A full/empty form with data: poisoned data faults (R289). -/
def feStore (i : Instr) (form : Nat) (t base : GReg) (nud : BitVec 5) (off : BitVec 8) (s : State) :
    Host.Outcome State Fault Refusal := finish do
  let ea := fun (g : Got) => memAddr (g.w 0) off 8
  let (g, s) ← accessGate s .word 8 [.g base, .g t] [] [(0, 0), (1, 3)] ea
  return request s g (pendOf s i (ea g)) nud.toNat (.fe form)
    { addr := ea g, size := 8, data := natBytes 8 (g.w 1).toNat }

def execLdfe (t base : GReg) (nud : BitVec 5) (off : BitVec 8) (s : State) :=
  feForm (.ldfe t base nud off) 0 base [t] nud off s
def execLdff (t base : GReg) (nud : BitVec 5) (off : BitVec 8) (s : State) :=
  feForm (.ldff t base nud off) 1 base [t] nud off s
def execStef (t base : GReg) (nud : BitVec 5) (off : BitVec 8) (s : State) :=
  feStore (.stef t base nud off) 2 t base nud off s
def execStff (t base : GReg) (nud : BitVec 5) (off : BitVec 8) (s : State) :=
  feStore (.stff t base nud off) 3 t base nud off s
def execSete (base : GReg) (nud : BitVec 5) (off : BitVec 8) (s : State) :=
  feForm (.sete base nud off) 4 base [] nud off s
def execSetf (base : GReg) (nud : BitVec 5) (off : BitVec 8) (s : State) :=
  feForm (.setf base nud off) 5 base [] nud off s

/-! ### Atomics (R300, R301) -/

/-- Orderings that make an AMO a release (R122). -/
def amoReleases : AmoOrd → Bool
  | .rel | .ar => true
  | _ => false

/-- An AMO by its sub-operation (R301): address, operand, and for CAS the comparand in d. -/
def amoInstr (i : Instr) (sub : Nat) (d a b : GReg) (ord : AmoOrd) (scope : Scope) (word : Bool) (s : State) :
    Host.Outcome State Fault Refusal := finish do
  let n := if word then 4 else 8
  let srcs := [Opnd.g a, .g b] ++ (if sub = 9 then [.g d] else [])
  let (g, s) ← accessGate s .amo n srcs [d] [(0, 0), (1, 1), (2, 3)] fun g => g.w 0
  if amoReleases ord then releaseGate s scope
  return request s g (pendOf s i (g.w 0)) 30 (.amo sub (g.w 2)) { addr := g.w 0, size := n, data := natBytes n (g.w 1).toNat }

def execAmoAdd (d a b : GReg) (ord : AmoOrd) (scope : Scope) (word : Bool) (s : State) :=
  amoInstr (.amoAdd d a b ord scope word) 0 d a b ord scope word s
def execAmoAnd (d a b : GReg) (ord : AmoOrd) (scope : Scope) (word : Bool) (s : State) :=
  amoInstr (.amoAnd d a b ord scope word) 1 d a b ord scope word s
def execAmoOr (d a b : GReg) (ord : AmoOrd) (scope : Scope) (word : Bool) (s : State) :=
  amoInstr (.amoOr d a b ord scope word) 2 d a b ord scope word s
def execAmoXor (d a b : GReg) (ord : AmoOrd) (scope : Scope) (word : Bool) (s : State) :=
  amoInstr (.amoXor d a b ord scope word) 3 d a b ord scope word s
def execAmoMin (d a b : GReg) (ord : AmoOrd) (scope : Scope) (word : Bool) (s : State) :=
  amoInstr (.amoMin d a b ord scope word) 4 d a b ord scope word s
def execAmoMax (d a b : GReg) (ord : AmoOrd) (scope : Scope) (word : Bool) (s : State) :=
  amoInstr (.amoMax d a b ord scope word) 5 d a b ord scope word s
def execAmoMinu (d a b : GReg) (ord : AmoOrd) (scope : Scope) (word : Bool) (s : State) :=
  amoInstr (.amoMinu d a b ord scope word) 6 d a b ord scope word s
def execAmoMaxu (d a b : GReg) (ord : AmoOrd) (scope : Scope) (word : Bool) (s : State) :=
  amoInstr (.amoMaxu d a b ord scope word) 7 d a b ord scope word s
def execAmoSwp (d a b : GReg) (ord : AmoOrd) (scope : Scope) (word : Bool) (s : State) :=
  amoInstr (.amoSwp d a b ord scope word) 8 d a b ord scope word s
def execAmoCas (d a b : GReg) (ord : AmoOrd) (scope : Scope) (word : Bool) (s : State) :=
  amoInstr (.amoCas d a b ord scope word) 9 d a b ord scope word s
def execAmoFaddS (d a b : GReg) (ord : AmoOrd) (scope : Scope) (s : State) :=
  amoInstr (.amoFaddS d a b ord scope) 10 d a b ord scope true s
def execAmoFaddD (d a b : GReg) (ord : AmoOrd) (scope : Scope) (s : State) :=
  amoInstr (.amoFaddD d a b ord scope) 11 d a b ord scope false s

/-! ### Fences and prefetch (R302 to R304) -/

/-- FENCE (R302): P is `p`, with r bit 0, w bit 1, e bit 2, m bit 3 as R249 gives them. The successor set orders
what the slot issues later, and nothing of it issues before the fence completes. -/
def execFence (p _q : BitVec 4) (scope : Scope) (s : State) : Host.Outcome State Fault Refusal := finish do
  let pc := s.who.1
  let n := s.who.2
  let sc := scopeOf s (logicalOf s pc) scope
  if (!tbit p 1 || storesDone s sc pc n) && (!tbit p 3 || messagesDone s sc pc n) && (!tbit p 2 || !jobsPending s sc pc n) then
    return retire s {} [] (npcOf s)
  else await s .performed

/-- An agent of a scope of slot `sl` of logical core `lc`, by sender key (R117): the slot itself, the core's slots, or those
of the logical cluster. -/
def agentInScope (sc lc sl key : Nat) : Bool :=
  match sc with
  | 0 => decide (key = lc * 16 + sl)
  | _ => decide (key < 3072) && coreInScope sc lc (key / 16)

/-- The hod or MXE of a scope, by its agent code (R117, R153). -/
def engineInScope (sc lc code : Nat) : Bool :=
  let of := fun (base : Nat) => decide (base ≤ code) && decide (code < base + 24) && (decide (3 ≤ sc) || decide (code - base = lc / 8))
  decide (sc ≠ 0) && (of 0xC10 || of 0xC30)

/-- EVERY WRITE TO SHADOWED STATE that the agents of a scope of slot `sl` of core `lc` have made is durable (R133): nothing is left
in the shadow queues of the scope's cores, and no other core's queue still holds an entry of one of the agents. -/
def durableAll (s : State) (sc lc sl : Nat) : Bool :=
  s.cores.all fun (_, c) => if decide (sc ≠ 0) && coreInScope sc lc c.lcore || decide (c.lcore = lc) then decide (c.shadow = [])
    else !c.authors.any fun (k, pos) => decide (c.ringPos < pos) && (agentInScope sc lc sl k || engineInScope sc lc k)


/-- A dirty line of the shared cache that an agent of the scope has written stands for a store that is not yet
device-written (R132, R133). -/
def anyDirty (s : State) (sc lc sl : Nat) : Bool :=
  s.nodes.any fun (_, n) => n.sets.any fun (_, ls) => ls.any fun l =>
    l.dirty && l.by_.any fun k => agentInScope sc lc sl k || engineInScope sc lc k

/-- PFENCE (R133, R303): every earlier store and message of the slot has been performed, and what the scope's agents wrote is
durable; with `mm` it is device-written too. -/
def execPfence (scope : Scope) (mm : Bool) (s : State) : Host.Outcome State Fault Refusal := finish do
  let lc := logicalOf s s.who.1
  let sc := scopeOf s lc scope
  if performedAll s 4 s.who.1 s.who.2 && durableAll s sc lc s.who.2 && !(mm && anyDirty s sc lc s.who.2) then
    return retire s {} [] (npcOf s)
  else await s .performed

/-- PREF (R304): never faults; places, refreshes or releases a line at its home slice. -/
def execPref (hint : BitVec 5) (base : GReg) (nud : BitVec 5) (off : BitVec 8) (s : State) : Host.Outcome State Fault Refusal :=
  finish do
    let (g, s) ← gather s [.g base] [] (memAddr ((peekSrcs s [.g base]).w 0) off 1)
    let ea := memAddr (g.w 0) off 1
    if g.psn || decide (ea.toNat / 2 ^ 48 ≠ 0) || decide (2 < hint.toNat) then return retire s g [] (npcOf s)
    else
      let va := offset48 ea
      if nodeFenced s (homeNode va) then return retire s g [] (npcOf s)
      else match translate s (homeNode va) (myJob s) va true false false false with
      | (.error _, s) => return retire s g [] (npcOf s)
      | (.ok pa, s) =>
        let l := (me s).launchId.toNat % 2 ^ 16
        let present := (lineAt s pa).isSome
        let s := match hint.toNat with
          | 0 => if nud = 0 then s else cachePlace s pa nud.toNat (myJob s) l
          | 1 => if present then cachePlace s pa nud.toNat (myJob s) l else s
          | _ => if present then cachePlace s pa 0 (myJob s) l else s
        return retire s g [] (npcOf s)

/-! ### Barriers (R312, R313) -/

/-- A barrier instruction: any poisoned source faults (R289). -/
def barInstr (i : Instr) (d a : GReg) (bs : List GReg) (release : Bool) (act : Got → Act) (s : State) :
    Host.Outcome State Fault Refusal := finish do
  let (g, s) ← accessGate s .word 8 (.g a :: bs.map .g) [d] [(0, 0), (1, 1)] fun g => g.w 0
  if release then releaseGate s .chip
  return request s g (pendOf s i (g.w 0)) 30 (act g) { addr := g.w 0, size := 8 }

/-- BARA (R313). -/
def execBara (d a : GReg) (s : State) := barInstr (.bara d a) d a [] true (fun _ => .barrierArrive) s
/-- BARW (R313). -/
def execBarw (d a b : GReg) (s : State) := barInstr (.barw d a b) d a [b] false (fun g => .barrierWait ((g.w 1).setWidth 32)) s
/-- BARAW (R313). -/
def execBaraw (d a b : GReg) (s : State) := barInstr (.baraw d a b) d a [b] true (fun g => .barrierBoth ((g.w 1).setWidth 32)) s

/-! ### Completion -/

/-- The value that lane `k` of an answered instruction brought. -/
def gotBytes (d : Pend) (k : Nat) : List Byte :=
  match d.got.find? fun e => e.1 = k with
  | some (_, .value bs _) => bs
  | _ => []

/-- Whether an answer brought poison. -/
def gotPsn (d : Pend) : Bool := d.got.any fun e => match e.2 with | .value _ p => p | _ => false

/-- The writes with which a memory instruction completes once every part is answered (R293 to R301, R313). -/
def memWrites (d : Pend) : List Wr :=
  let bs := gotBytes d 0
  let p := gotPsn d
  let amo := fun (r : GReg) (word : Bool) => [Wr.put r (if word then sext64 (leWord 32 bs) else leWord 64 bs) p]
  match d.instr with
  | .ld t _ _ sz _ => [.put t (ldExtend sz bs) p]
  | .ldaq t _ _ sz _ _ => [.put t (ldExtend sz bs) p]
  | .ldv t _ _ _ => [.putV t (leWord 512 bs) p]
  | .gath v _ _ _ dword _ _ =>
    [.putV v (gatherLanes (lanesW dword) (d.got.map fun e => (e.1, gotBytes d e.1))) p]
  | .ldfe t _ _ _ => [.put t (leWord 64 bs) p]
  | .ldff t _ _ _ => [.put t (leWord 64 bs) p]
  | .amoAdd r _ _ _ _ w => amo r w
  | .amoAnd r _ _ _ _ w => amo r w
  | .amoOr r _ _ _ _ w => amo r w
  | .amoXor r _ _ _ _ w => amo r w
  | .amoMin r _ _ _ _ w => amo r w
  | .amoMax r _ _ _ _ w => amo r w
  | .amoMinu r _ _ _ _ w => amo r w
  | .amoMaxu r _ _ _ _ w => amo r w
  | .amoSwp r _ _ _ _ w => amo r w
  | .amoCas r _ _ _ _ w => amo r w
  | .amoFaddS r _ _ _ _ => amo r false
  | .amoFaddD r _ _ _ _ => amo r false
  | .bara r _ => [.put r (leWord 64 bs) p]
  | .barw r _ _ => [.put r (leWord 64 bs) p]
  | .baraw r _ _ => [.put r (leWord 64 bs) p]
  | .ringaw r _ _ => [.put r (leWord 64 bs) p]
  | _ => []

/-- The node that the instruction asks acts on it, and its answer is on its way: the slot is Waiting until the reply, which
carries the value `v` (R343; log 65). -/
def answered (s : State) (g : Got) (i : Instr) (v : Word) : State :=
  let s' := waitFor s g { pendOf s i 0 with left := 1 }
  { s' with net := s'.net ++ [.reply (.slot s.who.1 s.who.2) s.nextTag 0 (.value (natBytes 8 v.toNat) false)] }

end Sys2Proof.Machine
end

