-- ==== Sys2Proof/Machine/Numbers.lean ====
section
/-! DEFINITION. Number formats and arithmetic (R65 to R80): exact values of encodings, one rounding, flags.
Encodings are handled as numbers; a result is its encoding with the flags it raises. -/

namespace Sys2Proof.Machine

/-- Flags in the order of FFLG (R82). -/
abbrev Flags := BitVec 5
def flNV : Flags := 16
def flDZ : Flags := 8
def flOF : Flags := 4
def flUF : Flags := 2
def flNX : Flags := 1

/-- The floating-point formats of R65. -/
inductive FFmt where
  | f64 | fp32 | f16 | bf16 | fp8a | fp8b | fp6a | fp6b | fp4
  deriving DecidableEq, Repr

/-- Exponent width (R65). -/
def FFmt.eb : FFmt → Nat
  | .f64 => 11 | .fp32 => 8 | .f16 => 5 | .bf16 => 8 | .fp8a => 4 | .fp8b => 5 | .fp6a => 3 | .fp6b => 2 | .fp4 => 2
/-- Mantissa width (R65). -/
def FFmt.mb : FFmt → Nat
  | .f64 => 52 | .fp32 => 23 | .f16 => 10 | .bf16 => 7 | .fp8a => 3 | .fp8b => 2 | .fp6a => 2 | .fp6b => 3 | .fp4 => 1
/-- Exponent bias (R65). -/
def FFmt.bias : FFmt → Nat
  | .f64 => 1023 | .fp32 => 127 | .f16 => 15 | .bf16 => 127 | .fp8a => 7 | .fp8b => 15 | .fp6a => 3 | .fp6b => 1 | .fp4 => 1
/-- Width in bits. -/
def FFmt.width (f : FFmt) : Nat := 1 + f.eb + f.mb
/-- The formats f64, fp32, f16 and bf16, which follow IEEE 754 throughout (R74). -/
def FFmt.ieee : FFmt → Bool
  | .f64 | .fp32 | .f16 | .bf16 => true
  | .fp8a | .fp8b | .fp6a | .fp6b | .fp4 => false
/-- Whether the format has infinities (R65). -/
def FFmt.hasInf (f : FFmt) : Bool := f.ieee || decide (f = .fp8b)
/-- Whether the format has NaNs (R65). -/
def FFmt.hasNan (f : FFmt) : Bool := f.hasInf || decide (f = .fp8a)
/-- Encoding of the largest finite value, without sign (R65). -/
def FFmt.maxCode (f : FFmt) : Nat :=
  if f.hasInf then (2 ^ f.eb - 1) * 2 ^ f.mb - 1
  else if f = .fp8a then 0x7E else 2 ^ (f.eb + f.mb) - 1
/-- Encoding of +∞. -/
def FFmt.infCode (f : FFmt) : Nat := (2 ^ f.eb - 1) * 2 ^ f.mb
/-- The canonical NaN (R68); 0 where the format has none (R74). -/
def FFmt.canonNan (f : FFmt) : Nat :=
  if f.hasInf then f.infCode + 2 ^ (f.mb - 1) else if f = .fp8a then 0x7F else 0
/-- The sign bit. -/
def FFmt.signCode (f : FFmt) (neg : Bool) : Nat := if neg then 2 ^ (f.eb + f.mb) else 0

/-- The exact value of an encoding (R259 `val`): `fin` is (−1)^neg × m × 2^e, with the sign of a zero kept. -/
inductive Val where
  | fin (neg : Bool) (m : Nat) (e : Int)
  | inf (neg : Bool)
  | nan (signalling : Bool)
  deriving DecidableEq, Repr

/-- The value of an encoding in a format (R65, R68). -/
def valOf (f : FFmt) (x : Nat) : Val :=
  let neg := decide (x / 2 ^ (f.eb + f.mb) % 2 = 1)
  let ex := x / 2 ^ f.mb % 2 ^ f.eb
  let mant := x % 2 ^ f.mb
  if f.hasInf && decide (ex = 2 ^ f.eb - 1) then
    if mant = 0 then .inf neg else .nan (f.ieee && decide (mant < 2 ^ (f.mb - 1)))
  else if decide (f = .fp8a) && decide (x % 128 = 127) then .nan false
  else if ex = 0 then .fin neg mant (1 - (f.bias : Int) - (f.mb : Int))
  else .fin neg (2 ^ f.mb + mant) ((ex : Int) - (f.bias : Int) - (f.mb : Int))

/-- A magnitude to be rounded: between m and m + 1 units of 2^e, strictly above m when `sticky`. -/
structure Mag where
  m : Nat
  e : Int
  sticky : Bool := false
  deriving DecidableEq, Repr

/-- Whether rounding goes up, from the kept part, the remainder against one half (`cmp`: below, at, above) and the
mode RM (R72): 0 RNE, 1 RTZ, 2 RDN, 3 RUP, 4 RNA. -/
def roundsUp (rm : Nat) (neg odd inexact : Bool) (cmp : Ordering) : Bool :=
  match rm with
  | 0 => match cmp with | .lt => false | .eq => odd | .gt => true
  | 1 => false
  | 2 => neg && inexact
  | 3 => !neg && inexact
  | _ => match cmp with | .lt => false | .eq => true | .gt => true

/-- A magnitude in units of 2^q: the whole part, whether it is inexact, and the remainder against one half. -/
def cutAt (x : Mag) (q : Int) : Nat × Bool × Ordering :=
  let sh := q - x.e
  if sh ≤ 0 then (x.m * 2 ^ (-sh).toNat, x.sticky, .lt)
  else
    let n := sh.toNat
    let r := x.m % 2 ^ n
    let c := compare (2 * r) (2 ^ n)
    (x.m / 2 ^ n, x.sticky || decide (r ≠ 0), if c = .eq && x.sticky then .gt else c)

/-- Round a magnitude to a whole number of units of 2^q. -/
def roundAt (rm : Nat) (neg : Bool) (x : Mag) (q : Int) : Nat × Bool :=
  let (k, inexact, c) := cutAt x q
  (if roundsUp rm neg (decide (k % 2 = 1)) inexact c then k + 1 else k, inexact)

/-- The result of an overflow (R74), with its flags. -/
def overflow (f : FFmt) (rm : Nat) (nsat neg : Bool) : Nat × Flags :=
  let s := f.signCode neg
  let code :=
    if f.ieee then
      if rm = 1 || (decide (rm = 2) && !neg) || (decide (rm = 3) && neg) then f.maxCode else f.infCode
    else if nsat && decide (f = .fp8a) then 0x7F
    else if nsat && decide (f = .fp8b) then f.infCode
    else f.maxCode
  (s + code, flOF ||| flNX)

/-- Exponent of the leading bit of a nonzero magnitude. -/
def Mag.top (x : Mag) : Int := (x.m.log2 : Int) + x.e

/-- Unit of the last place of a format for values whose leading bit has exponent `top` (R65, R75). -/
def ulpExp (f : FFmt) (top : Int) : Int :=
  max (top - (f.mb : Int)) (1 - (f.bias : Int) - (f.mb : Int))

/-- Encoding, without sign, of k units of 2^q, q a unit of the last place of the format. -/
def codeAt (f : FFmt) (k : Nat) (q : Int) : Nat :=
  (q + (f.mb : Int) + (f.bias : Int) - 1).toNat * 2 ^ f.mb + k

/-- One rounding of a signed magnitude into a format (R73 to R75). -/
def roundMag (f : FFmt) (rm : Nat) (nsat neg : Bool) (x : Mag) : Nat × Flags :=
  if x.m = 0 then (f.signCode neg, 0)
  else
    let q := ulpExp f x.top
    let (k, inexact) := roundAt rm neg x q
    let code := codeAt f k q
    if f.maxCode < code then overflow f rm nsat neg
    else
      let emin := 1 - (f.bias : Int)
      let tiny := decide (x.top < emin) &&
        !(decide (x.top = emin - 1) && decide ((roundAt rm neg x (x.top - (f.mb : Int))).1 = 2 ^ (f.mb + 1)))
      (f.signCode neg + code, (if inexact then flNX else 0) ||| (if inexact && tiny then flUF else 0))

/-- One step of the LFSR (R78). -/
def lfsrStep (x : BitVec 32) : BitVec 32 :=
  if x.toNat % 2 = 1 then (x >>> 1) ^^^ 0x80200003#32 else x >>> 1

/-- Stochastic rounding (R77): encoding, flags and the LFSR after it. A delivered result below the smallest normal is tiny, and a zero has
the value's sign (log 77). -/
def sroundMag (f : FFmt) (nsat neg : Bool) (x : Mag) (lfsr : BitVec 32) : Nat × Flags × BitVec 32 :=
  if x.m = 0 then (f.signCode neg, 0, lfsr)
  else
    let q := ulpExp f x.top
    let (k, inexact, _) := cutAt x q
    if !inexact then
      if f.maxCode < codeAt f k q then let (c, fl) := overflow f 0 nsat neg; (c, fl, lfsr)
      else (f.signCode neg + codeAt f k q, 0, lfsr)
    else if f.maxCode ≤ codeAt f k q then let (c, fl) := overflow f 0 nsat neg; (c, fl, lfsr)
    else
      let n := (q - x.e).toNat
      -- lo and hi are the neighbours by value: for a negative x, lo is the larger magnitude
      let frac := x.m % 2 ^ n
      let up := if neg then 2 ^ n - frac else frac
      let d := up * 2 ^ 16 / 2 ^ n
      let l := lfsrStep lfsr
      let hi := decide (65536 ≤ d + l.toNat % 65536)
      let code := codeAt f (if xor hi neg then k + 1 else k) q
      (f.signCode neg + code, if code < 2 ^ f.mb then flNX ||| flUF else flNX, l)

/-- Magnitude of an exact value. -/
def magOf (m : Nat) (e : Int) : Mag := { m := m, e := e }

/-- The NaN result of an operation in a format. -/
def nanResult (f : FFmt) (signalling : Bool) : Nat × Flags := (f.canonNan, if signalling then flNV else 0)

/-- An infinity as a result of arithmetic in an IEEE format. -/
def infResult (f : FFmt) (neg : Bool) : Nat := f.signCode neg + f.infCode

/-- `round(v, f)` of a value that may be special (R73, R74): conversions between floating formats. The NaN that an infinity gives in
fp8a has the infinity's sign (log 77). -/
def roundVal (f : FFmt) (rm : Nat) (nsat : Bool) : Val → Nat × Flags
  | .fin neg m e => roundMag f rm nsat neg (magOf m e)
  | .inf neg =>
    if f.ieee then (infResult f neg, 0)
    else if f = .fp8a then (f.signCode neg + (if nsat then 0x7F else f.maxCode), flNV)
    else if f = .fp8b then (f.signCode neg + (if nsat then f.infCode else f.maxCode), if nsat then 0 else flNV)
    else (f.signCode neg + f.maxCode, flNV)
  | .nan sg => (f.canonNan, (if sg then flNV else 0) ||| (if f.hasNan then 0 else flNV))

/-- `sround(v, f)` (R77); specials take their result from R74. -/
def sroundVal (f : FFmt) (nsat : Bool) (v : Val) (lfsr : BitVec 32) : Nat × Flags × BitVec 32 :=
  match v with
  | .fin neg m e => sroundMag f nsat neg (magOf m e) lfsr
  | _ => let (c, fl) := roundVal f 0 nsat v; (c, fl, lfsr)

/-! ### Arithmetic (R280, R284) -/

/-- Sign of an exact zero sum (R280): of two zeros of one sign that sign, else +0, or −0 under RDN. -/
def zeroSign (rm : Nat) (n1 n2 : Bool) : Bool := if n1 = n2 then n1 else decide (rm = 2)

/-- Exact sum of two signed magnitudes: sign, magnitude, exponent; the sign is meaningless for 0. -/
def sumExact (n1 : Bool) (m1 : Nat) (e1 : Int) (n2 : Bool) (m2 : Nat) (e2 : Int) : Bool × Nat × Int :=
  let e := min e1 e2
  let a : Int := (if n1 then -1 else 1) * ((m1 * 2 ^ (e1 - e).toNat : Nat) : Int)
  let b : Int := (if n2 then -1 else 1) * ((m2 * 2 ^ (e2 - e).toNat : Nat) : Int)
  (decide (a + b < 0), (a + b).natAbs, e)

/-- Whether a value is a signalling NaN. -/
def Val.isSig : Val → Bool
  | .nan s => s
  | _ => false
/-- Whether a value is a NaN. -/
def Val.isNan : Val → Bool
  | .nan _ => true
  | _ => false
/-- Negate a value; NaNs are kept. -/
def Val.neg : Val → Val
  | .fin n m e => .fin (!n) m e
  | .inf n => .inf (!n)
  | .nan s => .nan s
/-- The absolute value. -/
def Val.abs : Val → Val
  | .fin _ m e => .fin false m e
  | .inf _ => .inf false
  | .nan s => .nan s

/-- Sum of two values rounded once. -/
def addVal (f : FFmt) (rm : Nat) (x y : Val) : Nat × Flags :=
  match x, y with
  | .nan a, _ => nanResult f (a || y.isSig)
  | _, .nan b => nanResult f b
  | .inf a, .inf b => if a = b then (infResult f a, 0) else (f.canonNan, flNV)
  | .inf a, .fin _ _ _ => (infResult f a, 0)
  | .fin _ _ _, .inf b => (infResult f b, 0)
  | .fin n1 m1 e1, .fin n2 m2 e2 =>
    let (n, m, e) := sumExact n1 m1 e1 n2 m2 e2
    if m = 0 then (f.signCode (zeroSign rm n1 n2), 0)
    else roundMag f rm false n (magOf m e)

/-- Exact product of values that are not NaN; none for 0 × ∞. -/
def mulExact : Val → Val → Option Val
  | .fin n1 m1 e1, .fin n2 m2 e2 => some (.fin (xor n1 n2) (m1 * m2) (e1 + e2))
  | .inf a, .inf b => some (.inf (xor a b))
  | .inf a, .fin n m _ => if m = 0 then none else some (.inf (xor a n))
  | .fin n m _, .inf b => if m = 0 then none else some (.inf (xor n b))
  | .nan s, _ => some (.nan s)
  | _, .nan s => some (.nan s)

/-- Product of two values rounded once. -/
def mulVal (f : FFmt) (rm : Nat) (x y : Val) : Nat × Flags :=
  if x.isNan || y.isNan then nanResult f (x.isSig || y.isSig)
  else match mulExact x y with
    | none => (f.canonNan, flNV)
    | some v => roundVal f rm false v

/-- x × y + z rounded once (R284): 0 × ∞ gives NV even when z is a quiet NaN. -/
def fmaVal (f : FFmt) (rm : Nat) (x y z : Val) : Nat × Flags :=
  if x.isNan || y.isNan then nanResult f (x.isSig || y.isSig || z.isSig)
  else match mulExact x y with
    | none => (f.canonNan, flNV)
    | some p => addVal f rm p z

/-- Quotient of two values rounded once (R280). -/
def divVal (f : FFmt) (rm : Nat) (x y : Val) : Nat × Flags :=
  match x, y with
  | .nan a, _ => nanResult f (a || y.isSig)
  | _, .nan b => nanResult f b
  | .inf _, .inf _ => (f.canonNan, flNV)
  | .inf a, .fin n _ _ => (infResult f (xor a n), 0)
  | .fin n _ _, .inf b => (f.signCode (xor n b), 0)
  | .fin n1 m1 e1, .fin n2 m2 e2 =>
    let s := xor n1 n2
    if m2 = 0 then (if m1 = 0 then (f.canonNan, flNV) else (infResult f s, flDZ))
    else if m1 = 0 then (f.signCode s, 0)
    else
      let k := m2.log2 + 60
      let n := m1 * 2 ^ k
      roundMag f rm false s { m := n / m2, e := e1 - e2 - (k : Int), sticky := decide (n % m2 ≠ 0) }

/-- Integer square root of `n` by bits `b − 1` down to 0. -/
def isqrtGo : Nat → Nat → Nat → Nat
  | 0, r, _ => r
  | b + 1, r, n => isqrtGo b (if (r + 2 ^ b) * (r + 2 ^ b) ≤ n then r + 2 ^ b else r) n

/-- Integer square root. -/
def isqrt (n : Nat) : Nat := isqrtGo (n.log2 / 2 + 1) 0 n

/-- Square root rounded once (R280). -/
def sqrtVal (f : FFmt) (rm : Nat) : Val → Nat × Flags
  | .nan s => nanResult f s
  | .inf n => if n then (f.canonNan, flNV) else (infResult f false, 0)
  | .fin n m e =>
    if m = 0 then (f.signCode n, 0)
    else if n then (f.canonNan, flNV)
    else
      -- make the exponent even and the significand long enough for 60 result bits
      let k : Nat := 124 + (e % 2).toNat
      let a := m * 2 ^ k
      let r := isqrt a
      roundMag f rm false false { m := r, e := (e - (k : Int)) / 2, sticky := decide (r * r ≠ a) }

/-- Order of two values that are not NaN, −0 equal to +0. -/
def cmpVal (x y : Val) : Ordering :=
  match x, y with
  | .inf a, .inf b => if a = b then .eq else if a then .lt else .gt
  | .inf a, _ => if a then .lt else .gt
  | _, .inf b => if b then .gt else .lt
  | .fin n1 m1 e1, .fin n2 m2 e2 =>
    let e := min e1 e2
    let a : Int := (if n1 then -1 else 1) * ((m1 * 2 ^ (e1 - e).toNat : Nat) : Int)
    let b : Int := (if n2 then -1 else 1) * ((m2 * 2 ^ (e2 - e).toNat : Nat) : Int)
    compare a b
  | _, _ => .eq

/-- Sign of a value. -/
def Val.isNeg : Val → Bool
  | .fin n _ _ => n
  | .inf n => n
  | .nan _ => false

/-- minimumNumber and maximumNumber of IEEE 754-2019 (R76), on encodings: −0 orders below +0. -/
def minMax (f : FFmt) (isMax : Bool) (x y : Nat) : Nat × Flags :=
  let vx := valOf f x
  let vy := valOf f y
  let fl : Flags := if vx.isSig || vy.isSig then flNV else 0
  if vx.isNan && vy.isNan then (f.canonNan, fl)
  else if vx.isNan then (y % 2 ^ f.width, fl)
  else if vy.isNan then (x % 2 ^ f.width, fl)
  else
    let xLess := match cmpVal vx vy with | .lt => true | .gt => false | .eq => vx.isNeg
    (if xor xLess isMax then x % 2 ^ f.width else y % 2 ^ f.width, fl)

/-! ### Integers (R67, R76) -/

/-- Clamp an integer to a range: the value and whether it was outside. -/
def clampInt (lo hi v : Int) : Int × Bool := if v < lo then (lo, true) else if hi < v then (hi, true) else (v, false)

/-- Conversion of a value to an integer of a range by rounding mode (R76). -/
def toInt (rm : Nat) (lo hi : Int) : Val → Int × Flags
  | .nan _ => (0, flNV)
  | .inf n => (if n then lo else hi, flNV)
  | .fin n m e =>
    let (k, inexact) := roundAt rm n (magOf m e) 0
    let v : Int := if n then -(k : Int) else (k : Int)
    let (r, out) := clampInt lo hi v
    (r, if out then flNV else if inexact then flNX else 0)

/-- Conversion of an integer to a floating format (R76). -/
def ofInt (f : FFmt) (rm : Nat) (v : Int) : Nat × Flags := roundMag f rm false (decide (v < 0)) (magOf v.natAbs 0)

/-! ### Block scales (R66, R79, R80) -/

/-- emax of R80. -/
def emaxOf : FFmt → Int
  | .fp8a => 8
  | .fp8b => 15
  | .fp6a => 4
  | .fp6b | .fp4 => 2
  | _ => 0

/-- A value times 2^k, exactly. -/
def Val.scale (v : Val) (k : Int) : Val :=
  match v with
  | .fin n m e => .fin n m (e + k)
  | w => w

/-- Exponent of the leading bit of a finite nonzero value. -/
def Val.top : Val → Option Int
  | .fin _ m e => if m = 0 then none else some ((m.log2 : Int) + e)
  | _ => none

/-- Largest leading exponent among finite nonzero values. -/
def maxTop : List Val → Option Int
  | [] => none
  | v :: r => match v.top, maxTop r with
    | none, t => t
    | some a, none => some a
    | some a, some b => some (max a b)

/-- Round a list of values, stochastically when `sr`, from the first; flags are ORed. -/
def roundList (f : FFmt) (rm : Nat) (nsat sr : Bool) : List Val → BitVec 32 → List Nat × Flags × BitVec 32
  | [], l => ([], 0, l)
  | v :: r, l =>
    let (c, fl, l) := if sr then sroundVal f nsat v l else (let (c, fl) := roundVal f rm nsat v; (c, fl, l))
    let (cs, fl2, l) := roundList f rm nsat sr r l
    (c :: cs, fl ||| fl2, l)

/-- Quantisation of a block (R80): scale, element codes, flags, LFSR. Without a finite value other than 0 the elements are zeros of the
values' signs (log 77). A tiny element sets NX alone, as the worked example of R324 shows (log 67). -/
def quantise (f : FFmt) (rm : Nat) (nsat sr : Bool) (vs : List Val) (lfsr : BitVec 32) :
    Nat × List Nat × Flags × BitVec 32 :=
  let bad := vs.any fun v => v.isNan || (match v with | .inf _ => !f.hasInf | _ => false)
  if bad then (0xFF, vs.map fun _ => 0, flNV, lfsr)
  else match maxTop vs with
    | none => (0, vs.map fun v => f.signCode v.isNeg, 0, lfsr)
    | some t =>
      let (x, out) := clampInt 0 254 (t - emaxOf f + 127)
      let (cs, fl, l) := roundList f rm nsat sr (vs.map fun v => v.scale (127 - x)) lfsr
      (x.toNat, cs, (fl &&& ~~~flUF) ||| (if out then flNX else 0), l)

/-- Element of a block with its scale (R79). -/
def blockVal (f : FFmt) (scale code : Nat) : Val :=
  if scale = 0xFF then .nan false else (valOf f code).scale ((scale : Int) - 127)

/-! ### Vector functions of R81 -/

/-- Bits of precision of the working fixed-point numbers. -/
def fxBits : Nat := 256

/-- Σ z^(2k+1) / (2k+1) from the term `p` = z^(2k+1), in fixed point. -/
def atanhSum : Nat → Nat → Nat → Nat → Nat
  | 0, _, _, _ => 0
  | n + 1, p, z2, k => p / k + atanhSum n (p * z2 / 2 ^ fxBits) z2 (k + 2)

/-- ln 2 = 2 atanh(1/3), in fixed point. -/
def ln2Fx : Nat := 2 * atanhSum 90 (2 ^ fxBits / 3) (2 ^ fxBits / 9) 1

/-- Σ t^k / k! from the term `p` = t^k / k!, in fixed point. -/
def expSum : Nat → Nat → Nat → Nat → Nat
  | 0, _, _, _ => 0
  | n + 1, p, t, k => p + expSum n (p * t / 2 ^ fxBits / k) t (k + 1)

/-- e^t for t in [0, 1), in fixed point. -/
def expFx (t : Nat) : Nat := expSum 70 (2 ^ fxBits) t 1

/-- VEXP2 (R81). -/
def vexp2 (x : Nat) : Nat × Flags :=
  match valOf .fp32 x with
  | .nan s => nanResult .fp32 s
  | .inf n => if n then (0, 0) else (infResult .fp32 false, 0)
  | .fin n m e =>
    if m = 0 then (0x3F800000, 0)
    else if decide (e + (m.log2 : Int) < -26) then (0x3F800000, flNX)
    else
      -- x in units of 2^-60
      let u : Int := (if n then -1 else 1) * ((if 0 ≤ e then m * 2 ^ (e.toNat + 60) else m * 2 ^ 60 / 2 ^ (-e).toNat : Nat) : Int)
      let whole := u / 2 ^ 60
      let frac := (u % 2 ^ 60).toNat
      if 128 ≤ whole then (infResult .fp32 false, flOF ||| flNX)
      else if whole < -126 then (0, flUF ||| flNX)
      else if frac = 0 then roundMag .fp32 0 false false { m := 1, e := whole }
      else
        let t := frac * ln2Fx / 2 ^ 60
        roundMag .fp32 0 false false { m := expFx t, e := whole - (fxBits : Int), sticky := true }

/-- ln of y in [1, 2), y in fixed point. -/
def lnFx (y : Nat) : Nat :=
  let z := (y - 2 ^ fxBits) * 2 ^ fxBits / (y + 2 ^ fxBits)
  2 * atanhSum 90 z (z * z / 2 ^ fxBits) 1

/-- VLOG2 (R81). -/
def vlog2 (x : Nat) : Nat × Flags :=
  match valOf .fp32 x with
  | .nan s => nanResult .fp32 s
  | .inf n => if n then (FFmt.fp32.canonNan, flNV) else (infResult .fp32 false, 0)
  | .fin n m e =>
    if m = 0 then (infResult .fp32 true, flDZ)
    else if n then (FFmt.fp32.canonNan, flNV)
    else
      let k := (m.log2 : Int) + e
      if m = 2 ^ m.log2 then ofInt .fp32 0 k
      else
        let y := m * 2 ^ fxBits / 2 ^ m.log2
        let v : Int := k * 2 ^ fxBits + ((lnFx y * 2 ^ fxBits / ln2Fx : Nat) : Int)
        roundMag .fp32 0 false (decide (v < 0)) { m := v.natAbs, e := -(fxBits : Int), sticky := true }

/-- VRCP (R81). -/
def vrcp (x : Nat) : Nat × Flags := divVal .fp32 0 (.fin false 1 0) (valOf .fp32 x)

/-- VRSQ (R81). -/
def vrsq (x : Nat) : Nat × Flags :=
  match valOf .fp32 x with
  | .nan s => nanResult .fp32 s
  | .inf n => if n then (FFmt.fp32.canonNan, flNV) else (0, 0)
  | .fin n m e =>
    if m = 0 then (infResult .fp32 n, flDZ)
    else if n then (FFmt.fp32.canonNan, flNV)
    else
      let odd := (e % 2).toNat
      let mm := m * 2 ^ odd
      let a := 2 ^ 160 / mm
      let r := isqrt a
      roundMag .fp32 0 false false { m := r, e := -80 - (e - (odd : Int)) / 2, sticky := decide (r * r * mm ≠ 2 ^ 160) }

end Sys2Proof.Machine
end

