-- ==== Sys2Proof/Machine/Flags.lean ====
section
/-! DEFINITION. Rounding mode and flags of the issuing slot (R72, R82, R83, R279). -/

namespace Sys2Proof.Machine

/-- FRM.RM (R72). -/
def rmOf (sl : Slot) : Nat := sl.frm.toNat % 8
/-- FRM.NSAT (R72). -/
def nsatOf (sl : Slot) : Bool := tbit sl.frm 5
/-- FRM.SR (R72). -/
def srOf (sl : Slot) : Bool := tbit sl.frm 3
/-- RM is not reserved (R72). -/
def rmOk (sl : Slot) : Bool := decide (rmOf sl ≤ 4)

/-- The write of an instruction's flags: none when it raises none (R83). -/
def flagWr (f : Flags) : List Wr := if f = 0 then [] else [.flags f]

/-- A floating-point instruction of one g result: `ok` its stage-2 condition, the result as a word with flags. -/
def computeF (s : State) (srcs : List Opnd) (d : GReg) (ok : Bool) (f : Got → Word × Flags) : Chk State := do
  let (g, s) ← gather s srcs [d] 0 ok
  let r := f g
  return retire s g (.put d r.1 g.psn :: flagWr r.2) (npcOf s)

end Sys2Proof.Machine
end

