-- ==== Sys2Proof/Machine/Msg.lean ====
section
/-! DEFINITION. Messages as their slots send and receive them, counters and receive channels (R124, R305 to R311, R439).
What the target does with a message stands in Net. -/

namespace Sys2Proof.Machine

/-! ### Sending (R306) -/

/-- A message instruction: the key's poison and value are checked, payload poison travels. -/
def sendInstr (s : State) (i : Instr) (srcs : List GReg) (ok : Word → Bool) (mk : State → Nat → Got → Msg) :
    Host.Outcome State Fault Refusal := finish do
  let (g, s) ← gather s (srcs.map .g) []
  noPoisonAt s g 0 [(0, 0)]
  require s (decide (bits (g.w 0) 11 4 < 192) && ok (g.w 0)) 0x02
  let s' := waitFor s g { pendOf s i 0 with left := 1 }
  return { s' with net := s'.net ++ [mk s s.nextTag g] }

/-- Poison of source `i`. -/
def Got.p (g : Got) (i : Nat) : Bool := (g.xs.getD i {}).psn

/-- SEND (R306): key, first word, second word. -/
def execSend (d a b : GReg) (tag : BitVec 6) (s : State) : Host.Outcome State Fault Refusal :=
  sendInstr s (.send d a b tag) [a, b, d] (fun k => decide (bits k 63 12 = 0)) fun s t g =>
    .send (senderKey s s.who.1 s.who.2) (myJob s) (nextRsn s s.who.1 s.who.2) (.slot s.who.1 s.who.2) t
      (bits (g.w 0) 11 4) (bits (g.w 0) 3 0) (g.w 1) (g.w 2) (g.p 1) (g.p 2) tag

/-- SENDU (R306): the key carries the handler entry in bits 63:14. -/
def execSendu (d a b : GReg) (s : State) : Host.Outcome State Fault Refusal :=
  sendInstr s (.sendu d a b) [a, b, d] (fun k => decide (bits k 13 12 = 0)) fun s t g =>
    .urgent (.slot s.who.1 s.who.2) t (bits (g.w 0) 11 4) (bits (g.w 0) 3 0)
      { key := senderKey s s.who.1 s.who.2, job := myJob s, rsn := nextRsn s s.who.1 s.who.2
        entry := BitVec.ofNat 64 (bits (g.w 0) 63 14 * 4), w0 := g.w 1, w1 := g.w 2, psn0 := g.p 1, psn1 := g.p 2 }

/-- SENDG (R306): the key names the register in bits 16:12. -/
def execSendg (a b : GReg) (s : State) : Host.Outcome State Fault Refusal :=
  sendInstr s (.sendg a b) [a, b] (fun k => decide (bits k 63 17 = 0)) fun s t g =>
    .fill (senderKey s s.who.1 s.who.2) (myJob s) (nextRsn s s.who.1 s.who.2) (.slot s.who.1 s.who.2) t
      (bits (g.w 0) 11 4) (bits (g.w 0) 3 0) false (bits (g.w 0) 16 12) ((g.w 1).setWidth 512) (g.p 1)

/-! ### Receiving (R307 to R309) -/

/-- A channel is bound (R307). -/
def chanBound (sl : Slot) : Bool := tbit sl.chan 0
/-- Local-store offset of a bound ring. -/
def chanOff (sl : Slot) : Nat := bits sl.chan 16 5 * 32
/-- Entries of a bound ring. -/
def chanSize (sl : Slot) : Nat := 2 ^ bits sl.chan 4 1

/-- RECV (R309): w0 to d, w1 to a, information to b; an empty ring parks the slot or answers all ones. -/
def execRecv (d a b : GReg) (poll : Bool) (s : State) : Host.Outcome State Fault Refusal := finish do
  let sl := me s
  let (g, s) ← gather s [] [b, a, d] 0 (chanBound sl)
  let ka := kReg sl sl.chanKa.toNat
  let kc := kReg sl sl.chanKc.toNat
  if ka = kc then
    if poll then return retire s g [.put b (BitVec.allOnes 64) false] (npcOf s)
    else park s .ring
  else
    let x := (getCore s s.who.1).res
    let off := chanOff sl + 32 * (kc.toNat % chanSize sl)
    let w := off / 8
    lockCheck s (BitVec.ofNat 64 (0xFF * 2 ^ 56 + off)) 32
    let p := fun k => x.lsPoison.contains (w + k)
    return retire s g [.put b (lsWord x (w + 2)) (p 2), .put a (lsWord x (w + 1)) (p 1), .put d (lsWord x w) (p 0),
      .setK sl.chanKc (kc + 1), .latch true] (npcOf s)

/-- CHBIND (R307): `kc` and `ka` the consumer and the arrival counter. -/
def execChbind (a : GReg) (kc ka : KReg) (s : State) : Host.Outcome State Fault Refusal := finish do
  let ea := fun (g : Got) => BitVec.ofNat 64 (0xFF * 2 ^ 56 + bits (g.w 0) 16 5 * 32)
  let (g, s) ← gather s [.g a] [] (ea (peekSrcs s [.g a]))
  noPoisonAt s g (ea g) [(0, 0)]
  let x := g.w 0
  let n := 32 * 2 ^ bits x 4 1
  let off := bits x 16 5 * 32
  require s (decide (bits x 63 17 = 0) && decide (bits x 4 1 ≤ 8)) 0x02 (ea g)
  require s (!tbit x 0 || (decide (off + n ≤ 0x20000) && !inTaskArea off n
    && regionOk (getCore s s.who.1).res (myJob s) 0 off n true true)) 0x04 (ea g)
  return retire s g [.chan (x.setWidth 17) kc ka] (npcOf s)

/-! ### Counters (R310) -/

/-- Whether a counter has reached an expected count (R310). -/
def counterReached (c : BitVec 32) (x : Word) : Bool := decide ((c - x.setWidth 32).toNat < 2 ^ 31)

/-- WAITK (R310). -/
def execWaitk (d a : GReg) (k : KReg) (poll : Bool) (s : State) : Host.Outcome State Fault Refusal := finish do
  let (g, s) ← gather s [.g a] [d]
  noPoisonAt s g 0 [(0, 0)]
  let c := kReg (me s) k.toNat
  if counterReached c (g.w 0) then
    let x : Resolution := { type := 3, arg := k.toNat, agent := senderKey s s.who.1 s.who.2, data := c.setWidth 64 }
    let s ← gateMine s g.pops x
    return retireNoting s g x [.put d (c.setWidth 64) g.psn] (npcOf s)
  else if poll then return retire s g [.put d (c.setWidth 64) g.psn] (npcOf s)
  else park s (.counter k.toNat)

/-- CLRK (R310). -/
def execClrk (a : GReg) (k : KReg) (subtract : Bool) (s : State) : Host.Outcome State Fault Refusal := finish do
  let (g, s) ← gather s (if subtract then [.g a] else []) []
  noPoisonAt s g 0 [(0, 0)]
  let c := kReg (me s) k.toNat
  return retire s g [.setK k (if subtract then c - (g.w 0).setWidth 32 else 0)] (npcOf s)

end Sys2Proof.Machine
end

