-- ==== Sys2Proof/Machine/Levels.lean ====
section
/-! DEFINITION. The levels of work (R22 to R30): frames, launches, job cards and graph instances, their completion and
their cancellation (R24 to R26, R34, R166 to R169). -/

namespace Sys2Proof.Machine

/-! ### Frames (R31) -/

def frArg2 (f : V512) : Word := f.extractLsb' 448 64
def frArg1 (f : V512) : Word := f.extractLsb' 384 64
def frArg0 (f : V512) : Word := f.extractLsb' 320 64
def frSp (f : V512) : Word := f.extractLsb' 256 64
def frJoin (f : V512) : Word := f.extractLsb' 192 64
def frDepw (f : V512) : Nat := bits f 191 176
def frLaunch (f : V512) : Nat := bits f 175 160
def frJob (f : V512) : Nat := bits f 159 153
def frKind (f : V512) : Nat := bits f 71 70
def frPin (f : V512) : Bool := tbit f 69
def frNeed (f : V512) : Nat := bits f 79 72
def frEntry (f : V512) : Word := BitVec.ofNat 64 (bits f 63 2 * 4)

/-- A reserved field of a frame is nonzero, or KIND is 3, or DEPW is reserved (R31). -/
def frReserved (f : V512) : Bool :=
  decide (bits f 152 128 ≠ 0) || tbit f 96 || decide (bits f 68 64 ≠ 0) || decide (bits f 1 0 ≠ 0) || decide (frKind f = 3)
    || (decide (127 < frDepw f) && decide (frDepw f ≠ 0xFFFF))

/-- A join address is none, or an aligned word of a logical core (R345, R348). -/
def joinOk (j : Word) : Bool :=
  decide (j = 0) || (decide (1 ≤ nodeField j) && decide (nodeField j ≤ 0xC0) && decide (bits j 55 48 = 0) && decide (j.toNat % 8 = 0))

/-! ### Slots and their jobs -/

/-- The job that a slot position of logical core `lc` is allotted to in a context (R162, R175). -/
def allottedIn (s : State) (x : Ctx) (lc n : Nat) : Option Nat :=
  match x.rtJob with
  | some j => some j
  | none => (s.jobs.find? fun j => decide (bits j.record 32 31 ≠ 1) && tbit j.record (80 + n) && tbit j.record (96 + lc / 8)).map
      fun j => j.id

/-- The job that a slot position of a core is allotted to, in the resident context. -/
def allotted (s : State) (p n : Nat) : Option Nat := allottedIn s (getCore s p).res (logicalOf s p) n

/-- Change the saved context of core `p`, if it has one. -/
def updSaved (s : State) (p : Nat) (f : Ctx → Ctx) : State := updCore s p fun c => { c with sav := c.sav.map f }

/-- What waits for slot `n` of a context and is dropped when the slot is cleared: urgent messages of other jobs than its
allotted one, and the messages of the overflow, as job, sender key and RSN (R64, R308). -/
def waitingGone (x : Ctx) (job : Option Nat) (n : Nat) : List (Nat × Nat × Nat) :=
  (((ctxSlot x n).urgents.filter fun u => job ≠ some u.job).map fun u => (u.job, u.key.toNat, u.rsn.toNat))
    ++ ((x.overflow.filter fun h => h.slot = n).map fun h => (h.job, h.key.toNat, h.rsn.toNat))

/-- All that waits for the slots of a context, where the whole context goes. -/
def ctxGone (x : Ctx) : List (Nat × Nat × Nat) := (upTo 16).flatMap fun n => waitingGone x none n

/-- A CLASS 9 record of each message dropped. -/
def recordGone (s : State) (p : Nat) (gone : List (Nat × Nat × Nat)) : State :=
  gone.foldl (fun s e => record s 9 0x04 2 p e.1 e.2.1 0 e.2.2) s

/-- The context without them. -/
def withoutWaiting (x : Ctx) (job : Option Nat) (n : Nat) : Ctx :=
  { x with
    overflow := x.overflow.filter fun h => h.slot ≠ n
    slots := mset x.slots n { ctxSlot x n with urgents := (ctxSlot x n).urgents.filter fun u => job = some u.job } }

/-- Drop what waits for a slot of the resident context that is cleared (R64, R308). -/
def dropWaiting (s : State) (p n : Nat) : State :=
  let job := allotted s p n
  updCtx (recordGone s p (waitingGone (getCore s p).res job n)) p fun x => withoutWaiting x job n

/-- A cleared slot (R64): what belongs to its position stays. -/
def clearedSlot (sl : Slot) : Slot :=
  { urgents := sl.urgents, pinnedIdle := sl.pinnedIdle, lastIssue := sl.lastIssue, sinceEntry := sl.sinceEntry
    finger := sl.finger, victims := [], resting := sl.resting }

/-- A slot that enters Empty (R39): pinned idle after a pinned task, and again after an urgent handler that it took while
pinned idle. -/
def emptiedSlot (sl : Slot) : Slot := { clearedSlot sl with pinnedIdle := sl.pin || (sl.urgFromEmpty && sl.pinnedIdle) }

/-- A slot of the resident context enters Empty (R39, R64). Its state word is journalled: Empty and Starting stand for a
cleared slot. -/
def emptySlot (s : State) (p n : Nat) : State :=
  let s := dropWaiting s p n
  let t := emptiedSlot (getSlot s p n)
  let s := setSlot s p n t
  updCore s p fun c => journalEng c n [stateUnit n t]

/-- A slot of the saved context of core `p` enters Empty: the entry of its state word is of the other set (R141, R143). -/
def emptySavedSlot (s : State) (p n : Nat) : State :=
  match (getCore s p).sav with
  | none => s
  | some x =>
    let job := allottedIn s x (logicalOf s p) n
    let s := recordGone s p (waitingGone x job n)
    let y := withoutWaiting x job n
    let t := emptiedSlot (ctxSlot y n)
    updCore s p fun c => { c with
      sav := some { y with slots := mset y.slots n t }
      shadow := c.shadow ++ mkEntries [stateUnit n t] 0 n true (!c.set) 0 }

/-! ### Phases (R27, R28, R171) -/

/-- The phase of the issuing slot, as a number that a launch or instance belongs to (R30). -/
def phaseNumber (s : State) : Option (BitVec 32) := (slotPhase s).map fun j => j.number

/-- The slot's job is gone, complete or cancelled, or its phase is complete or cancelled (R34). -/
def workClosed (s : State) : Bool :=
  match findJob s (myJob s) with
  | none => true
  | some j => j.cancelled || j.done || (match slotPhase s with
    | some j => decide (j.phase = .complete) || decide (j.phase = .cancelled)
    | none => false)

/-- The physical cores that hold the logical cores of a job's partition (R159). -/
def partCores (s : State) (record : V512) : List Nat :=
  ((upTo 192).filter fun n => tbit record (96 + n / 8) && decide (logicalOf s (physOf s n) = n)).map fun n => physOf s n

/-- A gang switch of a job's partition at an agreed time (R164, R171). -/
def addSwitch (s : State) (job : Nat) (inward : Bool) (time : Nat) : State :=
  match findJob s job with
  | some j => { s with switches := s.switches ++ [{ job := job, inward := inward, time := time, cores := partCores s j.record }] }
  | none => s

/-- The phase of a job completes: its partition switches back 1 µs later (R28, R171). -/
def phaseComplete (s : State) (job : Nat) (st : PhaseState) : State :=
  let s := updJob s job fun j => { j with phase := st }
  wakeAll (addSwitch s job false (s.plumb + 1000)) fun w => decide (w = .level)

/-- A launch or instance starts: the counters above it rise (R23, R30). A job that was complete runs again (log 62). -/
def levelUp (s : State) (job : Nat) (phase : Option (BitVec 32)) : State :=
  updJob s job fun j => { j with count := j.count + 1, done := false
                                 phaseCount := if phase = some j.number then j.phaseCount + 1 else j.phaseCount }

/-- A launch or instance ends: the counters above it fall; a job whose counter reaches 0 is complete, and so is an Open
phase whose counter reaches 0 before Texp (R24, R28). -/
def levelDown (s : State) (job : Nat) (phase : Option (BitVec 32)) : State :=
  let s := updJob s job fun j => { j with count := j.count - 1, done := decide (j.count ≤ 1)
                                          phaseCount := if phase = some j.number then j.phaseCount - 1 else j.phaseCount }
  match findJob s job with
  | some j =>
    if phase = some j.number && decide (j.phase = .opened) && decide (j.phaseCount = 0) && decide (s.plumb < j.texp) then
      phaseComplete s job .complete
    else s
  | none => s

/-! ### Job cards (R166) -/

/-- Address of a record of the card table or the command-block table. -/
def cardAddr (j : Job) (i : Nat) : Nat := bits j.record 511 448 % 2 ^ 48 + 64 * i
def cmdAddr (j : Job) (i : Nat) : Nat := bits j.record 447 384 % 2 ^ 48 + 64 * i

/-- 64 bytes at a virtual address of a job; none where the read fails or returns poison. -/
def readRecord (s : State) (job va : Nat) : Option V512 × State :=
  match readVirtual s job va 64 with
  | (.ok (bs, false), s) => (some (leWord 512 bs), s)
  | (_, s) => (none, s)

def cardNext (c : V512) : Nat := bits c 59 44
def cardStat (c : V512) : Nat := bits c 43 40
def cardKind (c : V512) : Nat := bits c 39 37
def cardTrig (c : V512) : Nat := bits c 36 35
def cardCore (c : V512) : Nat := bits c 31 24
def cardSidx (c : V512) : Nat := bits c 71 60
def cardOffset (c : V512) : Nat := bits c 95 72
def cardLimit (c : V512) : Nat := bits c 127 96

/-- Write STAT, and RCODE where a code is given, of a card: bits 47:32 of the record. -/
def setCardStat (s : State) (job i stat : Nat) (rcode : Option Nat := none) : State :=
  match findJob s job with
  | none => s
  | some j =>
    match readRecord s job (cardAddr j i) with
    | (some c, s) =>
      let c := setBits c 43 40 stat
      let c := match rcode with | some r => setBits c 34 32 r | none => c
      (writeVirtual s job (cardAddr j i + 4) ((natBytes 64 c.toNat).drop 4 |>.take 2)).2
    | (none, s) => s

/-- An instance with its generation: what its jobs and launches carry (R374). -/
def graphRef (g : Graph) : Nat := g.gen.toNat * 256 + g.inst

/-- Change the graph instance of a reference. -/
def updGraph (s : State) (ref : Nat) (f : Graph → Graph) : State :=
  { s with graphs := s.graphs.map fun g => if graphRef g = ref then f g else g }

/-- The instance of a reference. -/
def findGraph (s : State) (ref : Nat) : Option Graph := s.graphs.find? fun g => graphRef g = ref

/-- A graph instance ends: the counters above fall and its waiters wake (R24, R374). -/
def graphEnd (s : State) (g : Graph) (st : LevelState) : State :=
  let s := updGraph s (graphRef g) fun g => { g with st := st, count := 0 }
  let s := levelDown s g.job g.phase
  wakeAll s fun w => decide (w = .card) || decide (w = .level) || decide (w = .performed)

/-- Cards of an instance that have not started take STAT 4 (R169). -/
def cancelCards (s : State) (g : Graph) : State :=
  (g.cards.filter fun c => !g.started.contains c).foldl (fun s c => setCardStat s g.job c 4) s

/-- A card completes: STAT 3, its successor's predecessor condition is met, and the last one completes the instance
(R24, R169). -/
def cardComplete (s : State) (inst card : Nat) : State :=
  match findGraph s inst with
  | none => s
  | some g =>
    if g.st = .running then
      let s := setCardStat s g.job card 3
      let next := (g.cards.dropWhile fun c => c ≠ card).drop 1 |>.take 1
      let s := updGraph s inst fun g => { g with count := g.count - 1, predMet := g.predMet ++ next }
      if g.count ≤ 1 then graphEnd s g .complete else s
    else setCardStat s g.job card 3

/-- A card's engine job has failed: STAT 4, the instance is cancelled and what has started runs to its end (R169). -/
def cardFailed (s : State) (inst card : Nat) : State :=
  match findGraph s inst with
  | none => s
  | some g =>
    let s := setCardStat s g.job card 4
    if g.st = .running then graphEnd (cancelCards s g) g .cancelled else s

/-- A card is refused at its start: STAT 5 with the code, and the instance ends refused (R169). -/
def cardRefused (s : State) (inst card rcode : Nat) : State :=
  match findGraph s inst with
  | none => s
  | some g =>
    let s := cancelCards s { g with started := g.started ++ [card] }
    graphEnd (setCardStat s g.job card 5 (some rcode)) g .refused

/-- The chain of cards from one, none where an index is at or above NCARD, a card cannot be read, or one is armed
already (R168). -/
def cardChain (s : State) (j : Job) : Nat → Nat → List Nat → Option (List Nat) × State
  | 0, _, _ => (none, s)
  | fuel + 1, i, seen =>
    if i = 0xFFFF then (some seen, s)
    else if bits j.record 55 40 ≤ i || seen.contains i then (none, s)
    else match readRecord s j.id (cardAddr j i) with
      | (none, s) => (none, s)
      | (some c, s) => if cardStat c = 1 then (none, s) else cardChain s j fuel (cardNext c) (seen ++ [i])

/-- START OF A GRAPH INSTANCE (R168): the status of R34, and for 0 the instance number. 0xFFFF names no card and lies at or
above NCARD: an instance that would start there is refused. `origin` is the slot that
asked; `topen` and `ticks` fix the time points. -/
def startGraph (s : State) (job card : Nat) (phase : Option (BitVec 32)) (origin : BitVec 12) (topen ticks : Nat) (closed : Bool) :
    Nat × Nat × State :=
  match findJob s job with
  | none => (3, 0, s)
  | some j =>
    match cardChain s j (bits j.record 55 40 + 1) card [] with
    | (none, s) => (2, 0, s)
    | (some [], s) => (2, 0, s)
    | (some cards, s) =>
      if closed then (3, 0, s)
      else
        let busy := fun n => s.graphs.any fun g => decide (g.inst = n) && decide (g.st = .running)
        match ((upTo 256).map fun i => (s.nextInst + i) % 256).find? fun n => !busy n with
        | none => (5, 0, s)
        | some n =>
          let g : Graph := { inst := n, gen := s.nextGen, job := job, origin := origin, phase := phase, topen := topen
                             fccTicks := ticks, cards := cards, count := cards.length, predMet := cards.take 1 }
          let s := cards.foldl (fun s c => setCardStat s job c 1) s
          let held := fun (h : Graph) => decide (h.st = .running) || decide ((s.nextGen - h.gen).toNat < 256)
          let s := { s with graphs := g :: s.graphs.filter held
                            nextInst := (n + 1) % 256, nextGen := s.nextGen + 1 }
          (0, n, levelUp s job phase)

/-! ### Launches (R30, R105, R348) -/

/-- Change the record of a launch at its launching core. -/
def updLaunch (s : State) (l : Nat) (f : Launch → Launch) : State :=
  updCore s (physOf s (l / 256)) fun c => { c with launches := c.launches.map fun r => if r.seq = l % 256 then f r else r }

/-- Records that an interface keeps: those of incomplete launches and the last 64 ended (R348). -/
def trimLaunches (rs : List Launch) : List Launch :=
  let excess := (rs.filter fun r => r.st ≠ .running).length - 64
  let old := (rs.filter fun r => r.st ≠ .running).take excess
  rs.filter fun r => !old.contains r

/-- A launch ends: the level above, the card that created it, the waiters (R24, R169, R351). The card of a cancelled launch
is cancelled (log 62). -/
def launchEnd (s : State) (l : Nat) (st : LevelState) : State :=
  match launchRec s l with
  | none => s
  | some r =>
    let p := physOf s (l / 256)
    let e := { r with st := st, count := 0 }
    let s := updCore s p fun c => { c with launches := trimLaunches ((c.launches.filter fun x => x.seq ≠ r.seq) ++ [e]) }
    let s := levelDown s r.job r.phase
    let s := match r.card with
      | some (inst, card) => if st = .complete then cardComplete s inst card else cardFailed s inst card
      | none => s
    let s := wakeAll s fun w => decide (w = .level)
    wakeCore s p fun w => decide (w = .room)

/-- The counter of a launch rises by one (SPAWN, R30). -/
def launchAdd (s : State) (l : Nat) : State := updLaunch s l fun r => { r with count := r.count + 1 }

/-- The counter of a launch falls by one; at 0 the launch completes (R24, R30). A later FINISH of a cancelled level is
discarded (R26). -/
def launchDrop (s : State) (l : Nat) : State :=
  match launchRec s l with
  | some r =>
    if r.st ≠ .running then s
    else if r.count ≤ 1 then launchEnd s l .complete
    else updLaunch s l fun r => { r with count := r.count - 1 }
  | none => s

/-- A launch is complete or cancelled, or unknown. -/
def launchClosed (s : State) (l : Nat) : Bool :=
  match launchRec s l with
  | some r => decide (r.st ≠ .running)
  | none => true

/-- A free sequence number of a core: the next one that no incomplete launch uses (R348). -/
def freeSeq (c : PCore) : Option Nat :=
  ((upTo 256).map fun i => (c.nextSeq + i) % 256).find? fun n => !c.launches.any fun r => decide (r.seq = n) && decide (r.st = .running)

/-- A new launch record under a sequence number (R30, R348). -/
def addLaunch (s : State) (p : Nat) (r : Launch) : State :=
  updCore s p fun c => { c with launches := (c.launches.filter fun x => x.seq ≠ r.seq) ++ [r], nextSeq := (r.seq + 1) % 256 }

/-! ### The spill area of a deque (R38) -/

/-- Size of the job's spill area on one core, in frames; 0 for none. -/
def spillCap (s : State) (job : Nat) : Nat :=
  match findJob s job with
  | some j => let n := bits j.record 28 24; if n = 0 then 0 else 2 ^ n
  | none => 0

/-- Virtual address of frame `i` of the spill area of logical core `lc`. -/
def spillAddr (s : State) (job lc i : Nat) : Nat :=
  match findJob s job with
  | some j => bits j.record 319 256 % 2 ^ 48 + lc * 64 * spillCap s job + 64 * (i % max (spillCap s job) 1)
  | none => 0

/-- First frame and number of frames in a job's spill area of a context. -/
def spillAt (x : Ctx) (job : Nat) : Nat × Nat := let v := (mget x.spilled job).getD 0; (v / 2 ^ 32, v % 2 ^ 32)
/-- Set them. -/
def setSpill (s : State) (p job first n : Nat) : State :=
  updCtx s p fun x => { x with spilled := mset x.spilled job (first * 2 ^ 32 + n) }

/-- Frames of a job's spill area of logical core `lc`, the farthest first: `n` of them from index `first`. One that cannot
be read back is lost (log 61). -/
def spillRead (s : State) (lc job first n : Nat) : List V512 × State :=
  (upTo n).foldl (fun (fs, s) i =>
    match readRecord s job (spillAddr s job lc (first + i)) with
    | (some f, s) => (fs ++ [f], s)
    | (none, s) => (fs, s)) ([], s)

/-- The frames of a job's spill area on core `p`, the farthest first. -/
def spillFrames (s : State) (p job : Nat) : List V512 × State :=
  let (first, n) := spillAt (getCore s p).res job
  spillRead s (logicalOf s p) job first n

/-- Write frames to a job's spill area of logical core `lc` from index `i` on; false where a write fails. -/
def spillWrite (s : State) (lc job : Nat) : Nat → List V512 → Bool × State
  | _, [] => (true, s)
  | i, f :: r =>
    match writeVirtual s job (spillAddr s job lc i) (natBytes 64 f.toNat) with
    | (.ok _, s) => spillWrite s lc job (i + 1) r
    | (.error _, s) => (false, s)

/-- Move frames of core `p`, the farthest first, each to the spill area of its own job, which is the job's spill area of
R38 where jobs share a core (log 61); none where an area is full. A write that fails counts as a full area. -/
def spillOut (s : State) (p : Nat) : List V512 → Option State
  | [] => some s
  | f :: r =>
    let (first, n) := spillAt (getCore s p).res (frJob f)
    if spillCap s (frJob f) ≤ n then none
    else match spillWrite s (logicalOf s p) (frJob f) (first + n) [f] with
      | (false, _) => none
      | (true, s) => spillOut (setSpill s p (frJob f) first (n + 1)) p r

/-- PUSH ON THE NEAR END OF A DEQUE (R38): a full deque first moves its 16 far frames to the spill area; false when
that is full too. -/
def pushDeque (s : State) (p : Nat) (f : V512) : Bool × State :=
  let x := (getCore s p).res
  if x.deque.length < 64 then
    (true, watchTask (updCtx s p fun x => { x with deque := x.deque ++ [f] }) p (frJob f) x (placesOf 0 x.deque.length 1))
  else match spillOut s p (x.deque.take 16) with
    | none => (false, s)
    | some t => (true, watchTask (updCtx t p fun x => { x with deque := x.deque.drop 16 ++ [f] }) p (frJob f) x (placesOf 0 48 1))

/-- A pop that empties the local part of the deque reloads up to 16 frames from the spill area (R38). -/
def reload (s : State) (p job : Nat) : State :=
  if (getCore s p).res.deque ≠ [] then s
  else
    let (fs, s) := spillFrames s p job
    let (first, n) := spillAt (getCore s p).res job
    let k := min 16 fs.length
    let near := fs.drop (fs.length - k)
    let x := (getCore s p).res
    watchTask (updCtx (setSpill s p job first (n - k)) p fun x => { x with deque := near }) p job x (placesOf 0 0 k)

/-! ### Cancellation (R25, R26) -/

/-- A frame at the tail of a core's run list; it waits at the interface while the list is full (R348). -/
def pushRun (x : Ctx) (f : V512) : Ctx :=
  if x.runList.length < 32 ∧ x.runWait = [] then { x with runList := x.runList ++ [f] } else { x with runWait := x.runWait ++ [f] }

/-- Run-list entries have freed: ready pending frames move in the order in which their counters reached 0 (R42), then
frames that wait at the interface (R348). -/
def refillRun (x : Ctx) : Nat → Ctx
  | 0 => x
  | fuel + 1 =>
    if 32 ≤ x.runList.length then x
    else match x.pending.find? fun f => f.ready with
      | some f => refillRun { x with pending := x.pending.erase f, runList := x.runList ++ [f.frame] } fuel
      | none => match x.runWait with
        | f :: r => refillRun { x with runWait := r, runList := x.runList ++ [f] } fuel
        | [] => x

/-- Frames that a refill has moved to the tail of the run list, where `a` is the context before it: the watch unit sees them
written (R404). -/
def watchRefill (s : State) (p : Nat) (a : Ctx) : State :=
  let b := (getCore s p).res
  let k := a.pending.length + a.runWait.length - (b.pending.length + b.runWait.length)
  (upTo k).foldl (fun s i =>
    let j := b.runList.length - k + i
    watchTask s p (frJob (b.runList.getD j 0)) a (placesOf 4 j 1)) s

/-- A pending frame's counter has reached 0: to the run list, or ready until an entry frees (R42). -/
def readyFrame (x : Ctx) (f : PendingFrame) : Ctx :=
  refillRun { x with pending := x.pending.erase f ++ [{ f with ready := true }] } 1

/-- A context without the frames that a test accepts. -/
def withoutFrames (gone : V512 → Bool) (x : Ctx) : Ctx :=
  { x with
    deque := x.deque.filter fun f => !gone f, runList := x.runList.filter fun f => !gone f
    runWait := x.runWait.filter fun f => !gone f, pending := x.pending.filter fun f => !gone f.frame
    depClosed := (x.pending.filter fun f => gone f.frame).foldl (fun l f => nadd l (frDepw f.frame)) x.depClosed
    strays := x.strays.filter fun f => !gone f }

/-- Remove the frames that a test accepts from a context; the run-list entries that free are filled again (R42). -/
def dropFrames (gone : V512 → Bool) (x : Ctx) : Ctx := refillRun (withoutFrames gone x) 32

/-- Remove frames from a job's spill area of logical core `lc` as a context holds it: the area packed anew from index 0. -/
def dropSpilledIn (s : State) (x : Ctx) (lc job : Nat) (gone : V512 → Bool) : Ctx × State :=
  let (first, n) := spillAt x job
  if n = 0 then (x, s)
  else
    let (fs, s) := spillRead s lc job first n
    let keep := fs.filter fun f => !gone f
    let (_, s) := spillWrite s lc job 0 keep
    ({ x with spilled := mset x.spilled job keep.length }, s)

/-- Remove frames from a job's spill area of core `p`, in both contexts. -/
def dropSpilled (s : State) (p job : Nat) (gone : V512 → Bool) : State :=
  let (x, s) := dropSpilledIn s (getCore s p).res (logicalOf s p) job gone
  let s := updCtx s p fun _ => x
  match (getCore s p).sav with
  | none => s
  | some y =>
    let (y, s) := dropSpilledIn s y (logicalOf s p) job gone
    updSaved s p fun _ => y

/-- An ended engine job's status, the last 32 kept (R362, R368). -/
def addEnded (l : List Ended) (e : Ended) : List Ended := (l ++ [e]).drop (l.length + 1 - 32)

/-- Change the context of a job on a core: the saved one while it is saved. -/
def updJobCtx (s : State) (p job : Nat) (f : Ctx → Ctx) : State :=
  if savedFor s p job then updCore s p fun c => { c with sav := c.sav.map f } else updCtx s p f

/-- The context of a job on a core. -/
def jobCtx (s : State) (p job : Nat) : Ctx :=
  let c := getCore s p
  if savedFor s p job then c.sav.getD c.res else c.res

/-- Journal units for a job's context, with ENG = 1. -/
def journalJob (s : State) (p job sl : Nat) (us : List JUnit) : State :=
  let other := savedFor s p job
  updCore s p fun c => { c with shadow := c.shadow ++ mkEntries us 0 sl true (xor c.set other) 0 }

/-- A wake event of R269 at a slot, journalled with its state word. -/
def wakeEventAt (s : State) (p n : Nat) : State :=
  let t := wakeEvent (getCore s p).cc (getSlot s p n)
  if t = getSlot s p n then s
  else updCore (setSlot s p n t) p fun c => journalEng c n [stateUnit n t]

/-- The slot that queued a job notes a wake event (R269), in its saved context while that is saved. -/
def wakeRequester (s : State) (p job n : Nat) : State :=
  if savedFor s p job then
    let t := wakeEvent (getCore s p).cc (ctxSlot (jobCtx s p job) n)
    journalJob (updJobCtx s p job fun x => { x with slots := mset x.slots n t }) p job n [stateUnit n t]
  else wakeEventAt s p n

/-- The 256 entries that MXEPI loads (R186, R363). -/
def tableOf (bs : List Byte) : Map (BitVec 32) :=
  (upTo 256).foldl (fun (m : Map (BitVec 32)) i => mset m i (leWord 32 ((bs.drop (4 * i)).take 4))) []

/-- The MXEPI that a slot waits in, where no job queued before it remains (R363). -/
def mxepiDue (c : PCore) (sl : Slot) : Option Pend :=
  match sl.st, sl.pend with
  | .waiting, some d =>
    match d.instr with
    | .mxepi _ => if c.wide.mxq.any fun j => decide (j.order < d.acc.toNat) then none else some d
    | _ => none
  | _, _ => none

/-- The table of an MXEPI is in force; the bytes that it copied are no longer kept (R363). -/
def loadTable (s : State) (p : Nat) (d : Pend) : State :=
  if d.got = [] then s else updWide s p fun w => { w with actTable := tableOf (gotBytes d 0) }

/-- The tables of the saved context's MXEPIs whose jobs have ended: jobs queued later use the new table, although the slot
retires at its restore (R363, R174). -/
def savedTables (s : State) (p : Nat) : State :=
  match (getCore s p).sav with
  | none => s
  | some x => x.slots.foldl (fun s (n, sl) =>
      match mxepiDue (getCore s p) sl with
      | some d => updSaved (loadTable s p d) p fun x => { x with slots := mset x.slots n { sl with pend := some { d with got := [] } } }
      | none => s) s

/-- A job of core `p` has ended: MXEPI completes where no job queued before it remains (R363). -/
def mxepiReady (s : State) (p : Nat) : State :=
  let who := s.who
  let done := (getCore s p).res.slots.foldl (fun s (n, sl) =>
    match mxepiDue (getCore s p) sl with
    | some d => noteRetired s (retireLate { loadTable s p d with who := (p, n) } d []) p n
    | none => s) (savedTables s p)
  { done with who := who }

/-- The engine jobs of a core that a cancel of a job's levels removes: queued and not granted or started (R25). -/
def goneMx (job : Nat) (launchGone cardGone : Nat → Bool) (j : MxJob) : Bool :=
  !j.granted && decide (j.job = job) && (match j.card with | some (i, _) => cardGone i | none => launchGone j.launch)
/-- The same for hod transfers. -/
def goneXfer (job : Nat) (launchGone cardGone : Nat → Bool) (t : Xfer) : Bool :=
  !t.started && decide (t.job = job) && (match t.card with | some (i, _) => cardGone i | none => launchGone t.launch)

/-- Remove engine jobs from the queues of a core; the statuses of those that slots queued are kept (R362, R368). -/
def dropEngineJobs (c : PCore) (goneM : MxJob → Bool) (goneX : Xfer → Bool) : PCore :=
  let mEnd := (c.wide.mxq.filter fun j => goneM j && j.card.isNone).foldl
    (fun l j => addEnded l { id := j.id, job := j.job, state := 3, count := 0 }) c.mxEnded
  let xEnd := (c.hodq.filter fun t => goneX t && t.card.isNone).foldl
    (fun l t => addEnded l { id := t.id, job := t.job, state := 3, count := 0 }) c.hodEnded
  { c with wide := { c.wide with mxq := c.wide.mxq.filter fun j => !goneM j }, hodq := c.hodq.filter fun t => !goneX t
           mxEnded := mEnd, hodEnded := xEnd }

/-- ENGINE JOBS LEAVE THE QUEUES OF CORE `p` CANCELLED: the slots that queued them note their end (R269), and an MXEPI that
waited for them completes (R363). -/
def cancelEngineJobs (s : State) (p : Nat) (goneM : MxJob → Bool) (goneX : Xfer → Bool) : State :=
  let c := getCore s p
  let ms := c.wide.mxq.filter fun j => goneM j && j.card.isNone
  let xs := c.hodq.filter fun t => goneX t && t.card.isNone
  if !(c.wide.mxq.any goneM) && !(c.hodq.any goneX) then s
  else
    let s := setCore s p (dropEngineJobs c goneM goneX)
    let s := ms.foldl (fun s j => wakeRequester s p j.job j.slot) s
    let s := xs.foldl (fun s t => wakeRequester s p t.job t.slot) s
    mxepiReady (wakeCore s p fun w => decide (w = .mxe) || decide (w = .hod) || decide (w = .room)) p

/-- The requests of a slot that owners hold as waits leave them. -/
def dropWaits (s : State) (p n : Nat) : State :=
  { s with cores := s.cores.map fun (q, c) => (q, { c with waits := c.waits.filter fun r => r.src ≠ .slot p n }) }

/-- The launch whose task a slot runs or starts; an urgent handler entered from Empty is no task of a launch (R23, R61). -/
def slotLaunch (sl : Slot) : Option Nat :=
  match sl.starting with
  | some f => some (frLaunch f)
  | none => if sl.st = .empty || (sl.urg && sl.urgFromEmpty) then none else some (sl.launchId.toNat % 2 ^ 16)

/-- A slot runs or starts a task of a launch of a job that a test accepts. -/
def runsTask (job : Nat) (gone : Nat → Bool) (sl : Slot) : Bool :=
  decide (sl.jobId.toNat = job) && (match slotLaunch sl with | some l => gone l | none => false)

/-- A LAUNCH that waits for its join add has been cancelled meanwhile: no frame of it leaves (R25 steps 1 and 2); bit 63 of
its `acc` says so. -/
def doomPend (gone : Nat → Bool) (d : Pend) : Pend :=
  match d.instr with
  | .launch _ _ _ => if gone (bits d.acc 47 32) then { d with acc := d.acc ||| BitVec.ofNat 64 (2 ^ 63) } else d
  | _ => d

/-- A slot as a cancel leaves it: one that runs a task of the level leaves the rotation at its next issue boundary (R25). -/
def doomSlot (job : Nat) (gone : Nat → Bool) (sl : Slot) : Slot :=
  let t := { sl with pend := sl.pend.map (doomPend gone) }
  if runsTask job gone sl then { t with doomed := true } else t

/-- The slots of a context after a cancel. -/
def doomCtx (job : Nat) (gone : Nat → Bool) (x : Ctx) : Ctx := { x with slots := x.slots.map fun (n, sl) => (n, doomSlot job gone sl) }

/-- A Parked slot whose task has been cancelled waits for nothing more: it is Active, and Empty at its next issue boundary
(R25 step 4, R48; log 63). -/
def wakeDoomed (s : State) (p : Nat) : State :=
  (upTo 16).foldl (fun s n =>
    let sl := getSlot s p n
    if sl.doomed && decide (sl.st = .parked) then updSlot (dropWaits s p n) p n wakeSlot else s) s

/-- Remove frames from both contexts of a core. -/
def dropBoth (gone : V512 → Bool) (c : PCore) : PCore := { c with res := dropFrames gone c.res, sav := c.sav.map (dropFrames gone) }

/-- Steps 1 to 4 of R25 for a set of launches of a job. -/
def dropLaunches (s : State) (job : Nat) (gone : Nat → Bool) (cardGone : Nat → Bool) : State :=
  let isGone := fun (f : V512) => decide (frJob f = job) && gone (frLaunch f)
  let before := s.cores
  let s := { s with
    cores := s.cores.map fun (p, c) => (p, dropBoth isGone c)
    net := s.net.filter fun m => match m with | .frame _ _ f _ => !isGone f | _ => true
    heldMsgs := s.heldMsgs.filter fun m => match m with | .frame _ _ f _ => !isGone f | _ => true }
  before.foldl (fun s (p, c) =>
    let s := watchRefill s p (withoutFrames isGone c.res)
    let s := cancelEngineJobs s p (goneMx job gone cardGone) (goneXfer job gone cardGone)
    wakeDoomed (updCore (dropSpilled s p job isGone) p fun c =>
      { c with res := doomCtx job gone c.res, sav := c.sav.map (doomCtx job gone) }) p) s

/-- Cancel one launch. -/
def cancelLaunch (s : State) (l : Nat) : State :=
  match launchRec s l with
  | some r => if r.st = .running then launchEnd (dropLaunches s r.job (fun x => decide (x = l)) fun _ => false) l .cancelled else s
  | none => s

/-- The running launches of a job that a test accepts, by launch number. -/
def launchesOf (s : State) (job : Nat) (p : Launch → Bool) : List Nat :=
  s.cores.flatMap fun (_, c) => (c.launches.filter fun r => decide (r.job = job) && decide (r.st = .running) && p r).map
    fun r => c.lcore * 256 + r.seq

/-- Queued engine jobs of a job's launches that a test accepts, ended or not, leave their queues (R25 step 3). -/
def dropQueued (s : State) (job : Nat) (pl : Nat → Bool) : State :=
  s.cores.foldl (fun s (p, _) => cancelEngineJobs s p (goneMx job pl fun _ => false) (goneXfer job pl fun _ => false)) s

/-- Cancel a graph instance with the launches and queued engine jobs of its cards (R25). -/
def cancelGraph (s : State) (inst : Nat) : State :=
  match findGraph s inst with
  | none => s
  | some g =>
    if g.st = .running then
      let s := dropQueued s g.job fun l => match launchRec s l with
        | some r => decide (r.card.map (fun c => c.1) = some inst)
        | none => false
      let s := graphEnd (cancelCards s g) g .cancelled
      let s := dropLaunches s g.job (fun _ => false) fun i => decide (i = inst)
      let s := { s with visionQ := s.visionQ.map fun (k, l) => (k, l.filter fun v => v.inst ≠ inst) }
      (launchesOf s g.job fun r => decide (r.card.map (fun c => c.1) = some inst)).foldl cancelLaunch s
    else s

/-- Cancel the launches and instances of a job that tests accept. -/
def cancelBelow (s : State) (job : Nat) (pl : Launch → Bool) (pg : Graph → Bool) : State :=
  let s := dropQueued s job fun l => match launchRec s l with | some r => decide (r.job = job) && pl r | none => false
  let gs := (s.graphs.filter fun g => decide (g.job = job) && decide (g.st = .running) && pg g).map graphRef
  let s := gs.foldl cancelGraph s
  (launchesOf s job pl).foldl cancelLaunch s

/-- The slots of a saved real-time context of the job become Empty when its phase ends (R162). -/
def emptySaved (s : State) (job : Nat) : State :=
  s.cores.foldl (fun s (p, _) =>
    match (getCore s p).sav with
    | some x =>
      if x.rtJob = some job then (upTo 16).foldl (fun s n => if (ctxSlot x n).st = .empty then s else emptySavedSlot s p n) s else s
    | none => s) s

/-- Cancel the current phase of a job (R25, R28, R171, R178): while Pre-empting it becomes Cancelled when the save has
drained. -/
def cancelPhase (s : State) (job : Nat) : State :=
  match findJob s job with
  | none => s
  | some j =>
    let num := j.number
    let was := j.phase
    -- the phase leaves Open first, so that the falling counter does not complete it
    let now : PhaseState := if was = .preempting then .preempting else .cancelled
    let s := updJob s job fun j => { j with phase := now, phaseCancelled := decide (was = .preempting) }
    let s := cancelBelow s job (fun r => decide (r.phase = some num)) fun g => decide (g.phase = some num)
    let s := updJob s job fun j => { j with phaseCount := 0 }
    let s := if was = .suspended then emptySaved s job else s
    if was = .opened then phaseComplete s job .cancelled else wakeAll s fun w => decide (w = .level)

/-- Cancel a job (R25). -/
def cancelJob (s : State) (job : Nat) : State :=
  let s := match findJob s job with
    | some j => if j.phase = .opened || j.phase = .preempting || j.phase = .suspended then cancelPhase s job else s
    | none => s
  let s := cancelBelow (dropQueued s job fun _ => true) job (fun _ => true) fun _ => true
  wakeAll (updJob s job fun j => { j with cancelled := true, count := 0 }) fun w => decide (w = .level)

/-- The task of a slot has been cancelled: the slot leaves the rotation at its next issue boundary (R25 step 4). -/
def taskCancelled (s : State) (sl : Slot) : Bool :=
  (findJob s sl.jobId.toNat).isNone || sl.doomed || match launchRec s (sl.launchId.toNat % 2 ^ 16) with
    | some r => decide (r.st = .cancelled) && runsTask r.job (fun _ => true) sl
    | none => false

end Sys2Proof.Machine
end

