-- ==== Sys2Proof/Machine/Sys.lean ====
section
/-! DEFINITION. System instructions, branches and jumps (R262 to R269, R276 to R278, R311). -/

namespace Sys2Proof.Machine

/-- Retire with writes and no sources. -/
def plain (s : State) (ws : List Wr) : State := retire s {} ws (npcOf s)

/-- NOP (R263). -/
def execNop (s : State) : Host.Outcome State Fault Refusal := .next (plain s [])

/-- The slot freezes for the supervisor with a fault packet and no error record (R264, R420). -/
def stopSlot (s : State) (code : Nat) (addr : Word) (detail : Nat) : State :=
  let s := sendPacket s s.who.1 s.who.2 code detail addr (pcOf s) s.word
  updMe s fun sl => frozenSlot sl sl.pc

/-- HALT retires, then stops (R264). -/
def execHalt (s : State) : Host.Outcome State Fault Refusal := .next (stopSlot (plain s []) 0x10 0 0)

/-- TRAPI retires, then stops with n and x (R264); a poisoned x raises fault 0x05 (R261). -/
def execTrapi (n : BitVec 6) (a : GReg) (s : State) : Host.Outcome State Fault Refusal := finish do
  let (g, s) ← gather s [.g a] []
  noPoison s g
  return stopSlot (retire s g [] (npcOf s)) 0x11 (g.w 0) n.toNat

/-- BKPT stops without retiring: a resume reissues it (R264). -/
def execBkpt (n : BitVec 6) (s : State) : Host.Outcome State Fault Refusal := .next (stopSlot s 0x12 0 n.toNat)

/-- The launch number of the issuing slot's task (R51). -/
def myLaunch (s : State) : Nat := (me s).launchId.toNat % 2 ^ 16

/-- The launch of an engine job that the slot queues: none from an urgent handler entered from Empty, which runs no task (R23). -/
def engLaunch (s : State) : Nat := if (me s).urg && (me s).urgFromEmpty then noLaunch else myLaunch s

/-- Value of slot control register `n`, its fields placed by R51. RCLK is the core's copy of the reuse clock, 0 where the core
has been sent none (R105; log 71). -/
def scrValue (s : State) (n : Nat) : Word :=
  let sl := me s
  match n with
  | 0 => sl.fmt.setWidth 64
  | 1 => sl.frm.setWidth 64
  | 2 => sl.fflg.setWidth 64
  | 3 => sl.taskId.setWidth 64
  | 4 => sl.launchId.setWidth 64
  | 5 => sl.jobId.setWidth 64
  | 6 => ((mget (getCore s s.who.1).rclk (myLaunch s)).getD 0).setWidth 64
  | 7 => sl.lfsr.setWidth 64
  | 8 => sl.epi
  | 9 => budgetWord s
  | 10 => (statusWord s.who.2 sl).setWidth 64
  | _ => 0

/-- MFS (R265). -/
def execMfs (d : GReg) (n : BitVec 6) (s : State) : Host.Outcome State Fault Refusal :=
  finish (compute s [] d fun _ => scrValue s n.toNat)

/-- The write that MTS makes to register `n` (R265): registers that MTS does not write stay as they are (R5). -/
def mtsWrites (sl : Slot) (n : Nat) (x : Word) : List Wr :=
  match n with
  | 0 => [.scr 0 (x &&& 0x3FF)]
  | 1 => [.scr 1 (x &&& 0x2F)]
  | 2 => [.scr 2 (x &&& 0x1F)]
  | 7 => [.scr 7 (if bits x 31 0 = 0 then 1 else x &&& 0xFFFFFFFF)]
  | 8 => [.scr 8 ((sl.epi &&& 0x00000000FFF000FF) ||| (x &&& 0xFFFFFFFF000FFF00))]
  | _ => []

/-- MTS (R265); a poisoned x raises fault 0x05 (R261). -/
def execMts (n : BitVec 6) (a : GReg) (s : State) : Host.Outcome State Fault Refusal := finish do
  let (g, s) ← gather s [.g a] []
  noPoison s g
  return retire s g (mtsWrites (me s) n.toNat (g.w 0)) (npcOf s)

/-- MFC by a slot of the core owner (R53, R266). -/
def execMfc (d : GReg) (n : BitVec 6) (s : State) : Host.Outcome State Fault Refusal := finish do
  require s (isOwner s) 0x04
  compute s [] d fun _ => (mget (getCore s s.who.1).res.c n.toNat).getD 0

/-- MTC by a slot of the core owner (R53, R54, R266). -/
def execMtc (n : BitVec 6) (a : GReg) (s : State) : Host.Outcome State Fault Refusal := finish do
  require s (isOwner s) 0x04
  let (g, s) ← gather s [.g a] []
  noPoison s g
  return retire s g [.com n.toNat (g.w 0)] (npcOf s)

/-- IDLE (R269): it retires; a set latch is cleared, otherwise the slot parks for a wake event. -/
def execIdle (s : State) : Host.Outcome State Fault Refusal :=
  .next <|
    if (me s).idleLatch then plain s [.latch false]
    else updMe (plain s [.idlePark]) fun sl => if sl.st = .active then { sl with st := .parked, park := .idle } else sl

/-- SLOTID (R267). -/
def execSlotid (d : GReg) (s : State) : Host.Outcome State Fault Refusal :=
  finish (compute s [] d fun _ => (senderKey s s.who.1 s.who.2).setWidth 64)

/-- PURGE (R268): registers `first` to `last` set empty, values and poison kept. -/
def execPurge (first last : BitVec 5) (vec : Bool) (s : State) : Host.Outcome State Fault Refusal :=
  let rs := (upTo (last.toNat + 1 - first.toNat)).map fun i => i + first.toNat
  .next (plain s (rs.map fun i => if vec then .emptyV (BitVec.ofNat 4 i) else .emptyG (BitVec.ofNat 5 i)))

/-- Branch target (R276). -/
def branchTarget (s : State) (disp : BitVec 16) : Word := pcOf s + sext64 disp * 4

/-- A compare-and-branch (R276); a poisoned operand raises fault 0x05 with ADDR 0 (R261, R433). -/
def branch2 (s : State) (a b : GReg) (disp : BitVec 16) (c : Word → Word → Bool) : Host.Outcome State Fault Refusal :=
  finish do
    let (g, s) ← gather s [.g a, .g b] []
    noPoison s g
    return retire s g [] (if c (g.w 0) (g.w 1) then branchTarget s disp else npcOf s)

def execBeq (a b : GReg) (disp : BitVec 16) (s : State) := branch2 s a b disp fun x y => decide (x = y)
def execBne (a b : GReg) (disp : BitVec 16) (s : State) := branch2 s a b disp fun x y => decide (x ≠ y)
def execBlt (a b : GReg) (disp : BitVec 16) (s : State) := branch2 s a b disp fun x y => x.slt y
def execBge (a b : GReg) (disp : BitVec 16) (s : State) := branch2 s a b disp fun x y => !x.slt y
def execBltu (a b : GReg) (disp : BitVec 16) (s : State) := branch2 s a b disp fun x y => x.ult y
def execBgeu (a b : GReg) (disp : BitVec 16) (s : State) := branch2 s a b disp fun x y => !x.ult y

/-- Whether a g register is full, or its bound queue holds an entry (R63, R277). -/
def fullBit (s : State) (a : GReg) : Bool :=
  match boundQ (me s) a with
  | some q => !(getQ (getCore s s.who.1).res q).isEmpty
  | none => (gCell (me s) (gKey (me s) a)).full

/-- A branch on a full/empty bit (R277): the register is not read. -/
def branchFe (s : State) (a : GReg) (disp : BitVec 16) (want : Bool) : Host.Outcome State Fault Refusal := finish do
  ownerOf s [a]
  return retire s {} [] (if fullBit s a = want then branchTarget s disp else npcOf s)

def execBful (a : GReg) (disp : BitVec 16) (s : State) := branchFe s a disp true
def execBemp (a : GReg) (disp : BitVec 16) (s : State) := branchFe s a disp false

/-- J (R278). -/
def execJ (disp : BitVec 26) (s : State) : Host.Outcome State Fault Refusal :=
  .next (retire s {} [] (pcOf s + sext64 disp * 4))

/-- JAL writes g31 of the bank in force (R278). -/
def execJal (disp : BitVec 26) (s : State) : Host.Outcome State Fault Refusal := finish do
  let (g, s) ← gather s [] [31]
  return retire s g [.put 31 (npcOf s) false] (pcOf s + sext64 disp * 4)

/-- JALR (R278): a poisoned base gives 0x05, a target off a word boundary 0x03, both with ADDR the target (R433). -/
def execJalr (d a : GReg) (imm : BitVec 16) (s : State) : Host.Outcome State Fault Refusal := finish do
  let (g, s) ← gather s [.g a] [d]
  let tgt := g.w 0 + sext64 imm
  noPoison s g tgt
  require s (decide (tgt.toNat % 4 = 0)) 0x03 tgt
  return retire s g [.put d (npcOf s) g.psn] tgt

/-- MSKW (R311): opens the masked window. -/
def execMskw (s : State) : Host.Outcome State Fault Refusal := .next (plain s (if (me s).mwin then [] else [.mwin true]))
/-- OPNW (R311): closes the masked window. -/
def execOpnw (s : State) : Host.Outcome State Fault Refusal := .next (plain s (if (me s).mwin then [.mwin false] else []))

end Sys2Proof.Machine
end

