-- ==== Sys2Proof/Machine/Task.lean ====
section
/-! DEFINITION. Task and scan instructions and RETU (R61, R311, R342 to R359, R442, R443). -/

namespace Sys2Proof.Machine

/-! ### Shared checks -/

/-- SPAWN, SYNC, FINISH and YIELD are illegal in an urgent handler (stage 2, R342, R430). -/
def notUrgent (s : State) : Chk Unit := require s (!(me s).urg) 0x01

/-- The checks of R431 for a record of `n` bytes in the issuing core's own local store, aligned to `al`, that the
hardware reads: RD is needed. -/
def ownLsCode (s : State) (ea : Word) (n al : Nat) : Option Nat :=
  if bits ea 55 48 ≠ 0 || !isOwnLs ea then some 0x02
  else if ea.toNat % al ≠ 0 then some 0x03
  else if regionOk (getCore s s.who.1).res (myJob s) 0 (offset48 ea) n true false && !inTaskArea (offset48 ea) n then none
  else some 0x04

/-- Stage 6 for such a record. -/
def ownLsCheck (s : State) (ea : Word) (n al : Nat) : Chk Unit :=
  match ownLsCode s ea n al with
  | some c => faultWith s c ea
  | none => .ok ()

/-- Bytes of the issuing core's own local store. -/
def ownBytes (s : State) (ea : Word) (n : Nat) : List Byte := memBytes (getCore s s.who.1).res.ls (offset48 ea) n

/-- An address names an aligned word of a logical core's local store; the code of the check that fails (R345, R346,
R431): 0x02, then 0x03. -/
def joinCode (j : Word) (n : Nat) : Option Nat :=
  if nodeField j = 0 || decide (0xC0 < nodeField j) || decide (bits j 55 48 ≠ 0) then some 0x02
  else if j.toNat % n ≠ 0 then some 0x03
  else none

/-- A request of the task hardware about a word of a logical core: the slot waits for the answer. -/
def wordRequest (s : State) (g : Got) (i : Instr) (acc : Word) (act : Act) (addr : Word) (n : Nat) (data : List Byte := []) : State :=
  request s g { pendOf s i addr with acc := acc } 30 act { addr := addr, size := n, data := data }

/-! ### Starting a slot (R32, R39, R64) -/

/-- The source of a frame, in DISP records (R152): 0 urgent, 1 run list, 2 own deque, 3 steal. -/
def dispRes (s : State) (p n src : Nat) (entry : Word) : Resolution :=
  { type := 6, arg := src, agent := senderKey s p n, data := entry }

/-- A slot enters Starting with a frame: cleared, with what it keeps (R39, R64). -/
def beginStart (s : State) (p n : Nat) (f : V512) (held : List V512) : State :=
  let s := dropWaiting s p n
  updSlot s p n fun sl =>
    { clearedSlot sl with st := .starting, starting := some f, held := held, pinnedIdle := false
                          jobId := BitVec.ofNat 7 (frJob f) }

/-- The slot after its 4 cc of Starting: the loads, await marks and identifiers of R32, and STATUS.PIN (R52). -/
def startedSlot (sl : Slot) (f : V512) (task : BitVec 32) : Slot :=
  let g := [(1, frArg0 f), (2, frArg1 f), (3, frArg2 f), (30, frSp f)].foldl
    (fun (m : Map (Cell 64)) e => mset m e.1 { val := e.2 }) []
  let g := (upTo 31).foldl (fun (m : Map (Cell 64)) i =>
    if tbit f (96 + (i + 1)) then mset m (i + 1) { full := false } else m) g
  let v := (upTo 16).foldl (fun (m : Map (Cell 512)) i => if tbit f (80 + i) then mset m i { full := false } else m) []
  { sl with
    st := .active, starting := none, g := g, v := v, pc := frEntry f, taskId := task
    launchId := BitVec.ofNat 23 (frJob f * 2 ^ 16 + frLaunch f), jobId := BitVec.ofNat 7 (frJob f)
    join := frJoin f, lsneed := BitVec.ofNat 8 (frNeed f), pin := frPin f }

/-- A started slot's journal units: state, PC, join, identifiers and the loaded registers, by the task hardware. -/
def startUnits (n : Nat) (sl : Slot) : List JUnit :=
  [stateUnit n { sl with st := .starting }, { kind := 4, target := 3, data := sl.taskId.setWidth 64 },
   { kind := 4, target := 4, data := sl.launchId.setWidth 64 }, { kind := 4, target := 5, data := sl.jobId.setWidth 64 },
   { kind := 4, target := 16, data := sl.pc }, { kind := 4, target := 18, data := sl.join }]
  ++ (sl.g.map fun (k, c) => { kind := 0, target := k, data := c.val, full := c.full })
  ++ (sl.v.filter fun e => !e.2.full).map (fun (k, _) => { kind := 10, target := 128 + k, data := 0, full := false })
  ++ [stateUnit n sl]

/-- TASKID of a new task (R51): logical core, slot, dispatch count. -/
def taskIdOf (s : State) (p n : Nat) : BitVec 32 :=
  BitVec.ofNat 32 (logicalOf s p * 2 ^ 24 + n * 2 ^ 20 + (getCore s p).dispatch.toNat)

/-- Starting ends (R32): the slot is Active at ENTRY, and the core has a copy of the launch's reuse clock (R105). -/
def endStart (s : State) (p n : Nat) (f : V512) : State :=
  let t := startedSlot (getSlot s p n) f (taskIdOf s p n)
  let l := frLaunch f
  updCore (setSlot s p n t) p fun c =>
    journalEng { c with dispatch := c.dispatch + 1, rclk := mset c.rclk l (knownClock s l), killed := unkilled c n } n (startUnits n t)

/-! ### SPAWN, SYNC, FINISH (R35, R37, R345 to R347) -/

/-- The continuation frame of SPAWN (R35, R345). -/
def contFrame (s : State) : V512 :=
  let sl := me s
  let g := fun k => (gCell sl k).val.toNat
  BitVec.ofNat 512 (g 3 * 2 ^ 448 + g 2 * 2 ^ 384 + g 1 * 2 ^ 320 + g 30 * 2 ^ 256 + sl.join.toNat * 2 ^ 192 + 0xFFFF * 2 ^ 176
    + sl.launchId.toNat % 2 ^ 16 * 2 ^ 160 + sl.jobId.toNat * 2 ^ 153 + sl.lsneed.toNat * 2 ^ 72 + 1 * 2 ^ 70 + b2n sl.pin * 2 ^ 69
    + (npcOf s).toNat / 4 * 4)

/-- The part of SPAWN after its join add: counter, push, the child in the same slot (R345). -/
def spawnPush (s : State) (jw : Word) : State × List Wr :=
  let p := s.who.1
  let f := contFrame s
  let s := noteUndo (launchAdd s (myLaunch s)) p (.level (myLaunch s) true)
  let (ok, s) := pushDeque s p f
  let s := if ok then s
    else
      let s := noteUndo s p (.held s.who.2 (me s).held)
      let n := ((mget s.ovfl (myJob s)).getD 0)
      { updMe s fun sl => { sl with held := f :: sl.held } with
        ovfl := mset s.ovfl (myJob s) (if n = BitVec.allOnes 32 then n else n + 1) }
  let count := (getCore s p).dispatch
  let s := updCore s p fun c => { c with dispatch := c.dispatch + 1 }
  let at_ : List Wr := if ok then [.pushed ((getCore s p).res.deque.length - 1) f] else []
  (s, at_ ++ [.join jw, .scr 3 (BitVec.ofNat 64 ((me s).taskId.toNat / 2 ^ 20 * 2 ^ 20 + count.toNat))])

/-- SPAWN (R345, R442). -/
def execSpawn (d a b : GReg) (s : State) : Host.Outcome State Fault Refusal := finish do
  notUrgent s
  let srcs := [Opnd.g a, .g b]
  let (g, s) ← gather s srcs [d] ((peekSrcs s srcs).w 1)
  noPoisonAt s g (g.w 0) [(0, 0)]
  noPoisonAt s g (g.w 1) [(1, 1)]
  require s (decide (bits (g.w 0) 1 0 = 0)) 0x03 (g.w 0)
  require s (joinOk (g.w 1)) 0x02 (g.w 1)
  if launchClosed s (myLaunch s) then return retire s g [.put d 3 false] (npcOf s)
  else if g.w 1 = 0 then
    let (s, ws) := spawnPush s 0
    return retire s g (ws ++ [.put d 0 false]) (g.w 0)
  else return wordRequest s g (.spawn d a b) (g.w 0) (.joinAdd 1) (g.w 1) 8

/-- SYNC (R346, R442). -/
def execSync (a : GReg) (s : State) : Host.Outcome State Fault Refusal := finish do
  notUrgent s
  let (g, s) ← gather s [.g a] [] ((peekSrcs s [.g a]).w 0)
  noPoisonAt s g (g.w 0) [(0, 0)]
  match joinCode (g.w 0) 8 with
  | some c => faultWith s c (g.w 0)
  | none => return wordRequest s g (.sync a) 0 .joinWatch (g.w 0) 8

/-- A continuation held in the slot is taken as a pop would take it: its DISP record is made, or the slot waits for it or
freezes (R38, R154, R155, R347). -/
def takeHeld (s : State) : Chk State :=
  match (me s).held with
  | f :: _ =>
    if replayElsewhere s s.who.1 s.who.2 (myJob s) 2 then holdMe s true
    else resolveMine s (dispRes s s.who.1 s.who.2 2 (frEntry f)) true
  | [] => .ok s

/-- The task has ended: the counter falls, then a held continuation starts or the slot is Empty (R37, R38, R347). -/
def finishTask (s : State) : State :=
  let p := s.who.1
  let n := s.who.2
  let held := (me s).held
  let s := launchDrop (noteUndo s p (.level (myLaunch s) false)) (myLaunch s)
  match held with
  | f :: r => beginStart (noteUndo s p (.held n held)) p n f r
  | [] => emptySlot s p n

/-- FINISH after its join subtract. Where the held continuation must wait, the subtract is done: the instruction reissues
with no hidden join address (log 74). -/
def finishJoined (s : State) (d : Pend) : State :=
  match takeHeld s with
  | .ok s => finishTask (retireLate s d [])
  | .error s => updMe s fun sl => { sl with pend := none, join := 0 }

/-- FINISH (R347): a release of chip scope; the hidden join address is checked as an address from memory (R431). -/
def execFinish (s : State) : Host.Outcome State Fault Refusal := finish do
  notUrgent s
  let j := (me s).join
  if j ≠ 0 then
    match joinCode j 8 with
    | some c => faultWith s c j
    | none =>
      releaseGate s .chip
      return wordRequest s {} .finish 0 .joinSub j 8
  else
    releaseGate s .chip
    let s ← takeHeld s
    return finishTask (plain s [])

/-! ### LAUNCH (R348) -/

/-- A logical core may take work: mapped, and its cluster not fenced (R170, R348). -/
def coreUsable (s : State) (n : Nat) : Bool := lpctV s n && !(getCluster s (clusterOf (physOf s n))).fenced

/-- Frames in the pending area of a logical core that a job's frames go to, that of its own context, and on their way to it
(R33, R162). -/
def pendingFill (s : State) (job lc : Nat) : Nat :=
  let p := physOf s lc
  (jobCtx s p job).pending.length
    + (s.net.filter fun m => match m with
        | .frame c _ f _ => decide (c = lc) && decide (frKind f = 2) && (savedFor s p (frJob f) == savedFor s p job)
        | _ => false).length

/-- Part of a job: its partition holds the logical cluster of a core. -/
def inPart (s : State) (job lc : Nat) : Bool :=
  match findJob s job with
  | some j => tbit j.record (96 + lc / 8)
  | none => false

/-- The status of LAUNCH (R34, R348). -/
def launchStatus (s : State) (f : V512) (y : Word) : Nat :=
  let first := bits y 7 0
  let last := bits y 15 8
  let nsl := bits y 19 16
  let dcount := bits y 27 20
  let kind := frKind f
  if 112 < frNeed f then 1
  else if frReserved f || decide (bits y 63 28 ≠ 0) || decide (kind = 1) || decide (frJob f ≠ myJob s) || decide (last < first)
      || decide (191 < last) || !((upTo (last + 1 - first)).all fun i => inPart s (myJob s) (first + i) && coreUsable s (first + i))
      || !joinOk (frJoin f)
      || (decide (kind = 0) && (decide (dcount ≠ 0) || decide (frDepw f ≠ 0xFFFF)))
      || (decide (kind = 2) && (decide (first ≠ last) || decide (nsl ≠ 0) || decide (frDepw f = 0xFFFF))) then 2
  else if workClosed s then 3
  else if decide (kind = 2) && decide (128 ≤ pendingFill s (myJob s) first) then 5
  else 0

/-- Tasks that a core set makes on each core and in all. -/
def launchPer (y : Word) : Nat := bits y 19 16 + 1
def launchCount (y : Word) : Nat := (bits y 15 8 + 1 - bits y 7 0) * launchPer y

/-- The frames of a launch on their way, in the loop order (R348). -/
def launchFrames (lc : Nat) (f : V512) (y : Word) (l : Nat) : List Msg :=
  (upTo (bits y 15 8 + 1 - bits y 7 0)).flatMap fun c => (upTo (launchPer y)).map fun j =>
    .frame (bits y 7 0 + c) lc
      (BitVec.ofNat 512 ((setBits f 175 160 l).toNat % 2 ^ 448 + (c * launchPer y + j) * 2 ^ 448)) (bits y 27 20)

/-- The launch is created: its frames leave, its result is written. -/
def launchResult (l : Nat) : Word := BitVec.ofNat 64 (l * 2 ^ 16)

/-- LAUNCH (R348, R442). The launch record is made at issue, before the join add. -/
def execLaunch (d a b : GReg) (s : State) : Host.Outcome State Fault Refusal := finish do
  let srcs := [Opnd.g a, .g b]
  let (g, s) ← gather s srcs [d] ((peekSrcs s srcs).w 0)
  lockCheck s (g.w 0) 64
  noPoisonAt s g (g.w 0) [(0, 0), (1, 1)]
  ownLsCheck s (g.w 0) 64 64
  let f : V512 := leWord 512 (ownBytes s (g.w 0) 64)
  let st := launchStatus s f (g.w 1)
  if st ≠ 0 then return answered s g (.launch d a b) (BitVec.ofNat 64 st)
  else
    releaseGate s .chip
    match freeSeq (getCore s s.who.1) with
    | none => await s .room
    | some seq =>
      let lc := logicalOf s s.who.1
      let l := lc * 256 + seq
      let n := launchCount (g.w 1)
      let ph := phaseNumber s
      let s := addLaunch s s.who.1 { seq := seq, job := myJob s, phase := ph, count := n }
      let s := levelUp s (myJob s) ph
      if frJoin f = 0 then
        return answered { s with net := s.net ++ launchFrames lc f (g.w 1) l } g (.launch d a b) (launchResult l)
      else
        -- the template as read at issue is kept for the delivery after the join add
        return request s g { pendOf s (.launch d a b) (frJoin f) with
            acc := BitVec.ofNat 64 (l * 2 ^ 32) ||| (g.w 1 &&& 0xFFFFFFF), got := [(1, .value (natBytes 64 f.toNat) false)] }
          30 (.joinAdd n) { addr := frJoin f, size := 8 }

/-! ### DECR, YIELD, TSKST, ROLE (R349 to R352) -/

/-- DECR (R349). -/
def execDecr (d a : GReg) (s : State) : Host.Outcome State Fault Refusal := finish do
  let (g, s) ← gather s [.g a] [d]
  noPoisonAt s g 0 [(0, 0)]
  let x := g.w 0
  require s (decide (bits x 63 16 = 0) && !tbit x 7 && decide (bits x 15 8 ≤ 191)) 0x02
  releaseGate s .chip
  let s' := waitFor s g { pendOf s (.decr d a) 0 with left := 1 }
  return { s' with net := s'.net ++ [.decr (.slot s.who.1 s.who.2) s.nextTag (senderKey s s.who.1 s.who.2) (myJob s)
      (nextRsn s s.who.1 s.who.2) (bits x 15 8) (bits x 6 0)] }

/-- YIELD (R350). -/
def execYield (s : State) : Host.Outcome State Fault Refusal := finish do
  notUrgent s
  return updMe (plain s []) fun sl => if sl.pin then sl else { sl with yielded := true }

/-- STATE of TSKST (R351). -/
def levelCode : LevelState → Nat
  | .running => 0 | .complete => 1 | .cancelled => 2 | .refused => 3

/-- STATE and COUNT of a phase of a job: known while current or previous (R351). -/
def phaseResult (j : Job) (x : BitVec 32) : Nat × Nat :=
  let code := fun (p : PhaseState) => match p with | .complete => 1 | .cancelled => 2 | .closed => 3 | _ => 0
  if x = j.number ∧ j.phase ≠ .closed then (code j.phase, j.phaseCount)
  else if j.prevNumber = some x then (code j.prevState, 0)
  else (3, 0)

/-- What TSKST finds (R351): a level of another job, or an unknown one, gives 3 and 0. -/
def levelResult (s : State) (level : Level) (x : Word) : Nat × Nat :=
  match level with
  | .launch => match launchRec s (bits x 31 16) with
    | some r => if r.job = myJob s then (levelCode r.st, r.count) else (3, 0)
    | none => (3, 0)
  | .graph => match findGraph s (bits x 31 8) with
    | some g => if g.job = myJob s then (levelCode g.st, g.count) else (3, 0)
    | none => (3, 0)
  | .phase => match findJob s (myJob s) with
    | some j => phaseResult j (x.setWidth 32)
    | none => (3, 0)
  | .job => match findJob s (myJob s) with
    | some j => (if j.cancelled then 2 else if j.done then 1 else 0, j.count)
    | none => (3, 0)

/-- TSKST (R351). -/
def execTskst (d a : GReg) (wait : Bool) (level : Level) (s : State) : Host.Outcome State Fault Refusal := finish do
  let (g, s) ← gather s [.g a] [d]
  noPoisonAt s g 0 [(0, 0)]
  let (st, n) := levelResult s level (g.w 0)
  if wait && decide (st = 0) then park s .level
  else return answered s g (.tskst d a wait level) (BitVec.ofNat 64 (st * 2 ^ 62 + n))

/-- ROLE (R352). -/
def execRole (mask : BitVec 8) (s : State) : Host.Outcome State Fault Refusal := finish do
  require s (isOwner s) 0x04
  let old := (me s).qbind
  let ws := ((upTo 8).filter fun n => tbit mask n != tbit old n).map fun n => Wr.raw (20 + n) 0
  return plain s (ws ++ [.qbind mask])

/-! ### SCAN (R353 to R359) -/

/-- STAMP (R354). -/
def execStamp (d : GReg) (origin : Bool) (s : State) : Host.Outcome State Fault Refusal :=
  finish (compute s [] d fun _ => match origin, slotPhase s with
    | true, some j => j.origin.setWidth 64
    | _, _ => s.stamp.setWidth 64)

/-- The read of Plumb time at the slot's own point: its resolution, which comes after the records of the instruction's pops; in
replay the DATA of the next TIME record (R155, R355). -/
def readTime (s : State) (pops : List (Nat × QEntry)) : Chk (Resolution × State) := do
  let now := BitVec.ofNat 64 s.plumb
  let t := (popResolutions s pops).foldl putMine s
  let v := if mortarMode s (myJob s) = 2 then
      match handedTo (getMortar t (myJob s)) (myPoint s) with
      | r :: _ => if recType r = 8 then recData r else now
      | [] => now
    else match pairNext t (myPoint s) (senderKey s s.who.1 s.who.2) with
      | some r => if recType r = 8 then recData r else now
      | none => now
  let x : Resolution := { type := 8, arg := 0, agent := senderKey s s.who.1 s.who.2, data := v }
  let s ← gateMine s pops x true
  return (x, s)

/-- TIME (R355). -/
def execTime (d : GReg) (s : State) : Host.Outcome State Fault Refusal := finish do
  let (g, s) ← gather s [] [d]
  let (x, s) ← readTime s g.pops
  return retireNoting s g x [.put d x.data false] (npcOf s)

/-- CHKAGE (R21, R356). -/
def execChkage (d a b : GReg) (s : State) : Host.Outcome State Fault Refusal := finish do
  let (g, s) ← gather s [.g a, .g b] [d]
  noPoisonAt s g 0 [(0, 0), (1, 1)]
  require s (decide ((g.w 1).toNat ≤ 2 ^ 31)) 0x01
  let age := s.stamp - (g.w 0).setWidth 32
  return retire s g [.put d (if age.toNat ≤ (g.w 1).toNat then age.setWidth 64 else BitVec.allOnes 64) false] (npcOf s)

/-- BUDGET (R357). -/
def execBudget (d : GReg) (texp : Bool) (s : State) : Host.Outcome State Fault Refusal :=
  finish (compute s [] d fun _ =>
    if texp then (match slotPhase s with | some j => BitVec.ofNat 64 j.texp | none => BitVec.allOnes 64) else budgetWord s)

/-- HSTAMP of the input half latched last (R214, R358). -/
def latchedStamp (s : State) : BitVec 32 :=
  let st := if s.latching then s.stamp - 1 else s.stamp
  leWord 32 (memBytes s.image (st.toNat % 2 * 0x200000) 4)

/-- WAITT (R358): form 1 parks at its first issue and completes at the first latch after it. -/
def execWaitt (d a : GReg) (scan : Bool) (s : State) : Host.Outcome State Fault Refusal := finish do
  let (g, s) ← gather s (if scan then [] else [.g a]) [d]
  noPoisonAt s g 0 [(0, 0)]
  if scan then
    let seen := (me s).latchSeen
    if seen ≠ 0 ∧ seen ≤ s.latches then
      return updMe (retire s g [.put d ((latchedStamp s).setWidth 64) false] (npcOf s)) fun sl => { sl with latchSeen := 0 }
    else park (updMe s fun sl => { sl with latchSeen := if seen = 0 then s.latches + 1 else seen }) .latch
  else if s.plumb < (g.w 0).toNat then park s (.time (g.w 0))
  else
    let (x, s) ← readTime s g.pops
    return retireNoting s g x [.put d x.data false] (npcOf s)

/-- Code of a phase state (R359). -/
def phaseCode : PhaseState → Nat
  | .closed => 0 | .opened => 1 | .preempting => 2 | .suspended => 3 | .complete => 4 | .cancelled => 5

/-- PHASEID (R359). -/
def execPhaseid (d : GReg) (s : State) : Host.Outcome State Fault Refusal :=
  finish (compute s [] d fun _ => match slotPhase s with
    | some j => BitVec.ofNat 64 (b2n j.resumed * 2 ^ 43 + phaseCode j.phase * 2 ^ 40 + j.id % 2 ^ 7 * 2 ^ 32 + j.number.toNat)
    | none => BitVec.ofNat 64 (myJob s % 2 ^ 7 * 2 ^ 32))

/-! ### RETU (R61, R311) -/

/-- RETU: back to the normal level at the saved PC, or to Empty after an entry from Empty. -/
def execRetu (s : State) : Host.Outcome State Fault Refusal := finish do
  require s (me s).urg 0x01
  let back := (me s).urgPc
  let s' := retire s {} [.urg false] back
  return if (me s).urgFromEmpty then emptySlot s' s.who.1 s.who.2 else s'

/-! ### Completion -/

/-- How a task instruction completes once its answer has arrived (R345 to R349). -/
def taskComplete (s : State) (d : Pend) : State :=
  match d.instr with
  | .spawn r _ _ =>
    -- cancelled since the join add left: CLOSED, nothing is pushed (R380); the add that the owner performed stands (R25)
    if launchClosed s (myLaunch s) then retireLate s d [.put r 3 false]
    else
      let (s, ws) := spawnPush s d.addr
      retireLate s { d with npc := d.acc } (ws ++ [.put r 0 false])
  | .sync _ => retireLate s d []
  | .finish => finishJoined s d
  | .launch r _ _ =>
    if gotBytes d 1 = [] then retireLate s d [.put r (leWord 64 (gotBytes d 0)) false]
    else
    let l := bits d.acc 47 32
    -- cancelled since the join add left: its frames are removed (R25 step 2); the add that the owner performed stands
    let s := if tbit d.acc 63 then s else { s with net := s.net ++ launchFrames (l / 256) (leWord 512 (gotBytes d 1)) d.acc l }
    retireLate s d [.put r (launchResult l) false]
  | .decr r _ | .tskst r _ _ _ | .cardq r _ | .cancel r _ _ | .mlogq r _ | .pairq r =>
    retireLate s d [.put r (leWord 64 (gotBytes d 0)) false]
  | _ => retireLate s d (memWrites d)

end Sys2Proof.Machine
end

