-- ==== Sys2Proof/Machine/Mx.lean ====
section
/-! DEFINITION. Matrix-engine instructions (R179 to R189, R360 to R365, R444) and the checks of command blocks. What the
engine does stands in MxEngine. -/

namespace Sys2Proof.Machine

/-! ### Formats of a job (R70, R71) -/

/-- MXE class of an element code: 16, 8 or 4 for floats, 108 and 104 for integers; none where reserved (R70). -/
def elemClass (c : Nat) : Option Nat :=
  if c ≤ 1 then some 16 else if c ≤ 5 then some 8 else if c = 6 then some 4 else if c ≤ 8 then some 108
  else if c ≤ 10 then some 104 else none

/-- Bits of an element (R70, R69). -/
def elemBits (c : Nat) : Nat :=
  match c with
  | 0 | 1 => 16
  | 4 | 5 => 6
  | 6 | 9 | 10 => 4
  | _ => 8

def fmtA (f : BitVec 10) : Nat := bits f 3 0
def fmtB (f : BitVec 10) : Nat := bits f 7 4
def fmtSa (f : BitVec 10) : Bool := tbit f 8
def fmtSb (f : BitVec 10) : Bool := tbit f 9
/-- The jobs of a format pair are of an integer class. -/
def fmtInt (f : BitVec 10) : Bool := decide (7 ≤ fmtA f)

/-- FMT is valid (R71). -/
def fmtValid (f : BitVec 10) : Bool :=
  let scalable := fun c => decide (2 ≤ c) && decide (c ≤ 6)
  (match elemClass (fmtA f), elemClass (fmtB f) with
    | some a, some b => decide (a = b) || (decide (a = 8) && decide (b = 4)) || (decide (a = 4) && decide (b = 8))
    | _, _ => false)
  && (!fmtSa f || scalable (fmtA f)) && (!fmtSb f || scalable (fmtB f))

/-- Terms per element per ac of a pair of formats (R70, R71). -/
def fmtTerms (f : BitVec 10) : Nat :=
  match elemClass (fmtA f), elemClass (fmtB f) with
  | some 16, _ => 4
  | some 4, some 4 => 16
  | some 104, _ => 16
  | _, _ => 8

/-! ### Command blocks (R180, R182, R185) -/

def mbFwr (b : V512) : Word := b.extractLsb' 448 64
def mbFrd1 (b : V512) : Word := b.extractLsb' 384 64
def mbFrd0 (b : V512) : Word := b.extractLsb' 320 64
def mbOuta (b : V512) : Word := b.extractLsb' 256 64
def mbDecay (b : V512) : BitVec 32 := b.extractLsb' 224 32
def mbOpitch (b : V512) : Nat := bits b 223 208
def mbVoff (b : V512) : Nat := bits b 207 192
def mbK (b : V512) : Nat := bits b 191 176
def mbM (b : V512) : Nat := bits b 175 169 + 1
def mbN (b : V512) : Nat := bits b 168 162 + 1
def mbAcc (b : V512) : Nat := bits b 161 154 * 256
def mbAcm (b : V512) : Nat := bits b 153 152
def mbAmode (b : V512) : Nat := bits b 151 150
def mbAtile (b : V512) : Nat := bits b 149 144
def mbBtile (b : V512) : Nat := bits b 143 138
def mbHold (b : V512) : Nat := bits b 137 130
def mbEpic (b : V512) : Word := b.extractLsb' 64 64
def mbFmtc (b : V512) : BitVec 10 := b.extractLsb' 54 10
def mbFrmc (b : V512) : BitVec 6 := b.extractLsb' 48 6

def epiOut (e : Word) : Bool := tbit e 15
def epiOblk (e : Word) : Bool := tbit e 14
def epiF32 (e : Word) : Bool := tbit e 13
def epiAct (e : Word) : Nat := bits e 12 10
def epiOfmt (e : Word) : Nat := bits e 19 16

/-- A footprint region word is well formed (R167). -/
def regionGood (r : Word) : Bool :=
  !tbit r 0 ||
    (let nf := nodeField r
     (decide (nf ≤ 0xC0) || decide (nf = 0xE1) || decide (nf = 0xE3) || decide (nf = 0xFF))
      && decide (bits r 55 51 ≠ 31) && decide (bits r 50 48 = 0) && decide (bits r 5 1 = 0)
      && decide (bits r 47 6 % 2 ^ bits r 55 51 = 0))

/-- Bytes of the A span of a job: per step, M rows of elements, and scales (R181). -/
def spanA (b : V512) (f : BitVec 10) : Nat :=
  mbM b * mbK b * elemBits (fmtA f) / 8 + if fmtSa f then mbM b * (mbK b / 32) else 0
/-- Bytes of the B span of a job. -/
def spanB (b : V512) (f : BitVec 10) : Nat :=
  mbN b * mbK b * elemBits (fmtB f) / 8 + if fmtSb f then mbN b * (mbK b / 32) else 0

/-- The epilogue that a job uses is refused (R180, R185). -/
def epiRefused (e : Word) (b : V512) : Bool :=
  decide (4 < epiAct e) || (!epiF32 e && decide (10 < epiOfmt e))
    || (epiOblk e && !(decide (2 ≤ epiOfmt e) && decide (epiOfmt e ≤ 6) && decide (mbN b % 32 = 0)))
    || (epiOut e && decide ((mbOuta b).toNat % 64 ≠ 0))

/-- A command block is refused with RSVD, but for the fields that MXQ and cards treat apart (R180, R182, R184). -/
def blockBad (b : V512) (f : BitVec 10) (e : Word) : Bool :=
  decide (bits b 129 128 ≠ 0) || decide (bits b 47 0 ≠ 0) || decide (mbAcm b = 3) || decide (mbAmode b = 3)
    || (fmtInt f && decide (mbAcm b = 2))
    || decide (mbK b = 0) || decide (mbK b % fmtTerms f ≠ 0) || ((fmtSa f || fmtSb f) && decide (mbK b % 32 ≠ 0))
    || decide (65536 < mbAcc b + 4 * mbM b * mbN b)
    || (decide (48 ≤ mbAtile b) && decide (mbAtile b ≠ 63)) || (decide (48 ≤ mbBtile b) && decide (mbBtile b ≠ 63))
    || (if mbAmode b = 1 then decide (mbHold b = 0) || decide (262144 < spanA b f) else decide (mbHold b ≠ 0))
    || epiRefused e b

/-- MXQ refuses a block (R180). -/
def mxqRefused (b : V512) (f : BitVec 10) (e : Word) : Bool :=
  blockBad b f e || decide (mbDecay b ≠ 0) || decide (mbEpic b ≠ 0) || decide (mbFmtc b ≠ 0) || decide (mbFrmc b ≠ 0)
    || !regionGood (mbFrd0 b) || !regionGood (mbFrd1 b) || !regionGood (mbFwr b)

/-- A card of KIND 1 is refused for its block (R180). -/
def cardBlockRefused (b : V512) : Bool :=
  !fmtValid (mbFmtc b) || blockBad b (mbFmtc b) (mbEpic b) || decide (mbFrd0 b ≠ 0) || decide (mbFrd1 b ≠ 0) || decide (mbFwr b ≠ 0)
    || decide (4 < bits (mbFrmc b) 2 0) || tbit (mbFrmc b) 4 || decide (bits (mbEpic b) 31 20 ≠ 0) || decide (bits (mbEpic b) 7 0 ≠ 0)

/-- What is left of a hold: geometry, format, replays. -/
abbrev Hold := Option (BitVec 7 × BitVec 16 × BitVec 10 × Nat)

/-- The hold after a queued job (R182). -/
def holdAfter (h : Hold) (b : V512) (f : BitVec 10) : Hold :=
  match mbAmode b with
  | 1 => some (b.extractLsb' 169 7, b.extractLsb' 176 16, f, mbHold b)
  | 2 => match h with
    | some (m, k, g, n) => if n ≤ 1 then none else some (m, k, g, n - 1)
    | none => none
  | _ => none

/-- The hold that will be in force when a new job reaches the head (R361). -/
def holdAhead (c : PCore) : Hold :=
  c.wide.mxq.foldl (fun h j => holdAfter h j.blk j.fmt) (c.heldA.map fun h => (h.mm1, h.klen, h.fmt, h.left))

/-- A job keeps the hold rules (R182). -/
def holdOk (c : PCore) (b : V512) (f : BitVec 10) : Bool :=
  if mbAmode b = 2 then
    match holdAhead c with
    | some (m, k, g, _) => decide (m = b.extractLsb' 169 7) && decide (k = b.extractLsb' 176 16) && decide (g = f)
    | none => false
  else true

/-- The region word of a byte range of the core's own buffers: the smallest aligned region that holds it (R167). -/
def smallestRegion (a n : Nat) : Word :=
  let sz := ((upTo 31).find? fun k => decide ((a + n - 1) / 2 ^ (6 + k) = a / 2 ^ (6 + k))).getD 30
  BitVec.ofNat 64 (0xFF * 2 ^ 56 + sz * 2 ^ 51 + a / 2 ^ (6 + sz) * 2 ^ (6 + sz) + 1)

/-- Local address of a tile (R91). -/
def tileAddr (t : Nat) : Nat := if t < 32 then 0x100000 + 4096 * t else 0x200000 + 4096 * (t - 32)
/-- The region of a tile. -/
def tileRegion (t : Nat) : Word := smallestRegion (tileAddr t) 4096

/-- The tiles that a job names. -/
def mbTiles (b : V512) : List Nat := [mbAtile b, mbBtile b].filter fun t => decide (t < 48)

/-- Read regions of an MXQ job (R180). -/
def mxReads (b : V512) : List Word := [mbFrd0 b, mbFrd1 b] ++ (mbTiles b).map tileRegion
/-- Write regions of an MXQ job (R180). -/
def mxWrites (b : V512) : List Word := [mbFwr b, smallestRegion (0x300000 + mbAcc b) (4 * mbM b * mbN b)]

/-! ### The instructions -/

/-- Identifier of an engine job (R179, R190): logical core, slot, count. -/
def engineId (lc sl : Nat) (n : BitVec 20) : BitVec 32 := BitVec.ofNat 32 (lc % 2 ^ 8 * 2 ^ 24 + sl % 16 * 2 ^ 20 + n.toNat)

/-- A class 1 core has no matrix engine (R101, R360). -/
def hasMx (s : State) : Bool := !isClass1 s s.who.1

/-- MXQ's refusal result: the status in bits 34:32 (R361). -/
def mxRefusal (st : Nat) : Word := BitVec.ofNat 64 (st * 2 ^ 32)

/-- MXQ (R361, R444). -/
def execMxq (d a b : GReg) (s : State) : Host.Outcome State Fault Refusal := finish do
  require s (hasMx s) 0x01
  let srcs := [Opnd.g a, .g b]
  let (g, s) ← gather s srcs [d] ((peekSrcs s srcs).w 0)
  lockCheck s (g.w 0) 64
  noPoisonAt s g (g.w 0) [(0, 0), (1, 1)]
  ownLsCheck s (g.w 0) 64 64
  let sl := me s
  let p := s.who.1
  let c := getCore s p
  let blk : V512 := leWord 512 (ownBytes s (g.w 0) 64)
  require s (fmtValid sl.fmt && holdOk c blk sl.fmt) 0x06
  require s (rmOk sl) 0x01
  if mxqRefused blk sl.fmt sl.epi then return retire s g [.put d (mxRefusal 2) false] (npcOf s)
  else if workClosed s then return retire s g [.put d (mxRefusal 3) false] (npcOf s)
  else if 16 ≤ c.wide.mxq.length then await s .room
  else
    let sr := srOf sl
    let id := engineId c.lcore s.who.2 c.mxCount
    let j : MxJob := { id := id, job := myJob s, slot := s.who.2, blk := blk, fmt := sl.fmt, frm := sl.frm, epi := sl.epi
                       decay := (g.w 1).setWidth 32, seed := sl.lfsr, pert := sl.pert, launch := engLaunch s
                       order := s.nextOrder, footR := mxReads blk, footW := mxWrites blk }
    let s := updCore { s with nextOrder := s.nextOrder + 1 } p fun c =>
      { c with mxCount := c.mxCount + 1, wide := { c.wide with mxq := c.wide.mxq ++ [j] }, res := { c.res with mxseen := true } }
    return retire s g ((if sr then [.scr 7 ((lfsrStep sl.lfsr).setWidth 64)] else []) ++ [.pert 0, .put d (id.setWidth 64) false]) (npcOf s)
/-- Status word of an engine job (R188, R368). -/
def statusOf (st n : Nat) (shift : Nat) : Word := BitVec.ofNat 64 (st * 2 ^ 62 + n * 2 ^ shift)

/-- Job status of an identifier at the issuing core (R188, R362): all ones where the core does not hold it or it is
another job's (log 46). -/
def mxStatus (s : State) (x : Word) : Word :=
  let c := getCore s s.who.1
  let id : BitVec 32 := x.setWidth 32
  match c.wide.mxq.find? fun j => decide (j.id = id) && j.card.isNone with
  | some j => if j.job = myJob s then statusOf (if j.granted then 1 else 0) 0 16 else BitVec.allOnes 64
  | none => match c.mxEnded.find? fun e => e.id = id with
    | some e => if e.job = myJob s then statusOf e.state e.count 16 else BitVec.allOnes 64
    | none => BitVec.allOnes 64

/-- A status reports a job that has ended, or none (R362). -/
def statusEnded (w : Word) : Bool := tbit w 63

/-- MXWAIT (R362). -/
def execMxwait (d a : GReg) (s : State) : Host.Outcome State Fault Refusal := finish do
  require s (hasMx s) 0x01
  let (g, s) ← gather s [.g a] [d]
  noPoisonAt s g 0 [(0, 0)]
  let w := mxStatus s (g.w 0)
  if statusEnded w then return retire s g [.put d w false] (npcOf s) else park s .mxe

/-- MXPOLL (R362). -/
def execMxpoll (d a : GReg) (s : State) : Host.Outcome State Fault Refusal := finish do
  require s (hasMx s) 0x01
  let (g, s) ← gather s [.g a] [d]
  noPoisonAt s g 0 [(0, 0)]
  return retire s g [.put d (mxStatus s (g.w 0)) false] (npcOf s)

/-- MXEPI (R363): its slot is Waiting until the jobs queued before it have passed stage 5. -/
def execMxepi (a : GReg) (s : State) : Host.Outcome State Fault Refusal := finish do
  require s (hasMx s) 0x01
  require s (isOwner s) 0x04 ((peekSrcs s [.g a]).w 0)
  let (g, s) ← gather s [.g a] [] ((peekSrcs s [.g a]).w 0)
  lockCheck s (g.w 0) 1024
  noPoisonAt s g (g.w 0) [(0, 0)]
  ownLsCheck s (g.w 0) 1024 64
  let bs := ownBytes s (g.w 0) 1024
  if (getCore s s.who.1).wide.mxq = [] then
    return retire (updWide s s.who.1 fun w => { w with actTable := tableOf bs }) g [] (npcOf s)
  else
    return waitFor s g { pendOf s (.mxepi a) (g.w 0) with acc := BitVec.ofNat 64 s.nextOrder, got := [(0, .value bs false)] }

/-- MXPERT (R364). -/
def execMxpert (a : GReg) (s : State) : Host.Outcome State Fault Refusal := finish do
  require s (hasMx s) 0x01
  let (g, s) ← gather s [.g a] []
  noPoisonAt s g 0 [(0, 0)]
  require s (decide (bits (g.w 0) 47 32 = 0)) 0x01
  return retire s g [.pert (g.w 0)] (npcOf s)

/-- Whether MXDRAIN of the issuing slot waits for a job (R365). -/
def drains (s : State) (core : Bool) (j : MxJob) : Bool :=
  decide (j.job = myJob s) && (core || (j.card.isNone && decide (j.slot = s.who.2)))

/-- Cancel the jobs of a core's queue that a test accepts and that are not granted: STATE 3, footprints and holds
released; a card's job takes its card with it (R169, R365). -/
def cancelMx (s : State) (p : Nat) (gone : MxJob → Bool) : State :=
  let goneM := fun (j : MxJob) => !j.granted && gone j
  let js := (getCore s p).wide.mxq.filter goneM
  let s := cancelEngineJobs s p goneM fun _ => false
  js.foldl (fun s j => match j.card with | some (i, k) => cardFailed s i k | none => s) s

/-- MXDRAIN (R365): the count and the jobs are those of its issue, kept while the slot is parked. -/
def execMxdrain (d : GReg) (cancel core : Bool) (s : State) : Host.Outcome State Fault Refusal := finish do
  require s (hasMx s) 0x01
  let (g, s) ← gather s [] [d]
  let q := (getCore s s.who.1).wide.mxq.filter (drains s core)
  let (count, bound) := match (me s).pend with
    | some p => if p.instr = Instr.mxdrain d cancel core then (p.acc, p.addr) else (BitVec.ofNat 64 q.length, BitVec.ofNat 64 s.nextOrder)
    | none => (BitVec.ofNat 64 q.length, BitVec.ofNat 64 s.nextOrder)
  let s := if cancel then cancelMx s s.who.1 (fun j => drains s core j && decide (j.order < bound.toNat)) else s
  if (getCore s s.who.1).wide.mxq.any fun j => drains s core j && decide (j.order < bound.toNat) then
    .error (updMe s fun sl => { sl with
      st := .parked, park := .mxe
      pend := some { pendOf s (.mxdrain d cancel core) bound with acc := count } })
  else return retire s g [.put d count false] (npcOf s)

end Sys2Proof.Machine
end

