-- ==== Sys2Proof/Machine/Hod.lean ====
section
/-! DEFINITION. Hod and ring instructions (R190 to R193, R366 to R370, R445). What the hod does stands in HodEngine. -/

namespace Sys2Proof.Machine

/-! ### Control registers (R190, R191) -/

/-- Register `n` of slot `sl` of a core. -/
def hodReg (c : PCore) (sl n : Nat) : Word := (mget c.wide.hodRegs (16 * sl + n)).getD 0
/-- The eight registers of a slot. -/
def hodRegs (c : PCore) (sl : Nat) : List Word := (upTo 8).map fun n => hodReg c sl n

def hdReg (rs : List Word) (n : Nat) : Word := rs.getD n 0
def hdSrc (rs : List Word) : Word := hdReg rs 0
def hdDst (rs : List Word) : Word := hdReg rs 1
def hdRows (rs : List Word) : Nat := bits (hdReg rs 2) 39 24 + 1
def hdBytes (rs : List Word) : Nat := bits (hdReg rs 2) 23 0
def hdSstride (rs : List Word) : Word := sext64 ((hdReg rs 3).extractLsb' 32 32)
def hdDstride (rs : List Word) : Word := sext64 ((hdReg rs 3).extractLsb' 0 32)
def hdRcnt (rs : List Word) : Nat := bits (hdReg rs 4) 63 56
def hdNud (rs : List Word) : Nat := bits (hdReg rs 4) 55 51
def hdKind (rs : List Word) : Nat := bits (hdReg rs 4) 50 48
def hdCnt (rs : List Word) : Bool := tbit (hdReg rs 4) 47
def hdHold (rs : List Word) : Bool := tbit (hdReg rs 4) 46
def hdFrd (rs : List Word) : Word := hdReg rs 5
def hdFwr (rs : List Word) : Word := hdReg rs 6
def hdNotify (rs : List Word) : Word := hdReg rs 7

/-- Tiles of the weight and activation buffers that `n` bytes at a local address touch (R91). -/
def tilesOf (a : Word) (n : Nat) : List Nat :=
  if isLocal a then
    (upTo 48).filter fun t => decide (tileAddr t < offset48 a + n) && decide (offset48 a < tileAddr t + 4096)
  else []

/-- Tiles that rows touch. -/
def tilesRows (base stride : Word) (rows n : Nat) : List Nat :=
  (upTo 48).filter fun t => (upTo rows).any fun r => (tilesOf (base + stride * BitVec.ofNat 64 r) n).contains t

/-- Tiles that the sources of a transfer touch. -/
def hdTilesS (rs : List Word) : List Nat := tilesRows (hdSrc rs) (hdSstride rs) (hdRows rs) (hdBytes rs)
/-- Tiles that the sources of a copy-out job touch, which it holds (R191). -/
def hdTilesR (rs : List Word) : List Nat := if hdHold rs then hdTilesS rs else []
/-- Tiles that a transfer writes. -/
def hdTilesW (rs : List Word) : List Nat := if hdKind rs = 0 then tilesRows (hdDst rs) (hdDstride rs) (hdRows rs) (hdBytes rs) else []

/-- THE REGISTER CHECKS OF R191, in register order: the number of the first failing register. -/
def hodCheck (rs : List Word) : Option Nat :=
  let kind := hdKind rs
  let bytes := hdBytes rs
  if (hdSrc rs).toNat % 8 ≠ 0 then some 0
  else if kind = 0 ∧ (hdDst rs).toNat % 8 ≠ 0 then some 1
  else if bits (hdReg rs 2) 63 40 ≠ 0 ∨ bytes % 8 ≠ 0 ∨ bytes < 8 ∨ 2 ^ 20 < bytes then some 2
  else if (hdSstride rs).toNat % 8 ≠ 0 ∨ (hdDstride rs).toNat % 8 ≠ 0 then some 3
  else if bits (hdReg rs 4) 45 0 ≠ 0 ∨ 6 ≤ kind
      ∨ ((kind = 1 ∨ kind = 2) ∧ hdDst rs ≠ 0)
      ∨ ((kind = 3 ∨ kind = 4) ∧ bits (hdDst rs) 63 17 ≠ 0)
      ∨ (kind = 4 ∧ tbit (hdDst rs) 4 = true)
      ∨ (kind = 3 ∧ (hdRows rs ≠ 1 ∨ bytes ≠ 8)) ∨ (kind = 4 ∧ (hdRows rs ≠ 1 ∨ bytes ≠ 64))
      ∨ (hdTilesR rs).any (fun t => (hdTilesW rs).contains t) = true then some 4
  else if !regionGood (hdFrd rs) then some 5
  else if !regionGood (hdFwr rs) then some 6
  else if bits (hdNotify rs) 63 15 ≠ 0 then some 7
  else none

/-- The ring object's address is a 32-byte-aligned address of a local store (R193). -/
def ringAddrOk (a : Word) : Bool :=
  decide (a.toNat % 32 = 0) && (isOwnLs a || (decide (1 ≤ nodeField a) && decide (nodeField a ≤ 0xC0))) && decide (bits a 55 48 = 0)

/-- The rows of a transfer stay within a ring slot, and the ring object has no reserved field that is not 0 (R6, R193). -/
def ringRowsOk (o : BitVec 256) (rs : List Word) : Bool :=
  ringClean o && (upTo (hdRows rs)).all fun r =>
    let off := (hdDstride rs).toInt * (r : Int)
    decide (0 ≤ off) && decide (off + hdBytes rs ≤ 2 ^ bits o 103 96)

/-- A core's stream in a FIFO as a region of a footprint: node field 0xFE names no memory (R367, R181; log 68). -/
def fifoRegion (b : Bool) : Word := BitVec.ofNat 64 (0xFE * 2 ^ 56 + b2n b * 64 + 1)

/-- The FIFO that a transfer pours into, as a write region. -/
def hdFifo (rs : List Word) : List Word :=
  match hdKind rs with | 1 => [fifoRegion false] | 2 => [fifoRegion true] | _ => []

/-- The transfer that HDGO enqueues: its footprint is FRD and FWR with the tiles and FIFOs that SRC and DST name (R367). -/
def mkXfer (s : State) (id : BitVec 32) (job sl : Nat) (rs : List Word) (launch : Nat) : Xfer :=
  let tw := hdTilesW rs
  { id := id, job := job, slot := sl, regs := rs, launch := launch, order := s.nextOrder
    footR := hdFrd rs :: (hdTilesS rs).map tileRegion, footW := hdFwr rs :: tw.map tileRegion ++ hdFifo rs
    tilesW := tw, tilesR := hdTilesR rs }

/-! ### Waiting for an entry of the hod queue (R170, R192) -/

/-- The name of a card among those that wait. -/
def cardWaiter (ref card : Nat) : Nat := 16 + ref * 2 ^ 16 + card

/-- The name of a slot of a job's context among them. -/
def slotWaiter (job n : Nat) : Nat := 2 ^ 48 + 16 * job + n

/-- What is named in the list still waits: a slot of the resident context at the HDGO that began to wait, from there until the
transfer is enqueued, or a card of a running instance. A task that was cancelled meanwhile waits no more, and a saved context
keeps its place. -/
def stillWaits (s : State) (p w : Nat) : Bool :=
  if 2 ^ 48 ≤ w then
    let sl := getSlot s p (w % 16)
    decide (slotWaiter sl.jobId.toNat (w % 16) = w) && decide (sl.hodAt = some sl.pc)
      && (decide (sl.st = .waiting) || decide (sl.st = .parked) || decide (sl.st = .active))
  else match findGraph s ((w - 16) / 2 ^ 16) with
    | some g => decide (g.st = .running) && !g.started.contains ((w - 16) % 2 ^ 16)
    | none => false

/-- Those that began to wait before `w`: where it does not wait itself, all. -/
def hodAhead (s : State) (p w : Nat) : List Nat :=
  let ws := (getCore s p).hodWait
  if stillWaits s p w then ws.takeWhile fun x => x ≠ w else ws.filter fun x => x ≠ w

/-- A free entry is left for `w` after those that began to wait before it. -/
def hodTurn (s : State) (p w : Nat) : Bool :=
  decide ((getCore s p).hodq.length + ((hodAhead s p w).filter fun x => stillWaits s p x).length < 8)

/-- `w` begins to wait for an entry, or goes on. -/
def waitHod (s : State) (p w : Nat) : State :=
  updCore s p fun c => { c with
    hodWait := if stillWaits s p w && c.hodWait.contains w then c.hodWait else (c.hodWait.filter fun x => x ≠ w) ++ [w] }

/-- The issuing slot begins to wait at its HDGO, or goes on. -/
def waitSlotHod (s : State) : State :=
  updMe (waitHod s s.who.1 (slotWaiter (myJob s) s.who.2)) fun sl => { sl with hodAt := some sl.pc }

/-- `w` has taken an entry. -/
def tookHod (s : State) (p w : Nat) : State := updCore s p fun c => { c with hodWait := c.hodWait.filter fun x => x ≠ w }

/-! ### Instructions -/

/-- HDSET (R367). -/
def execHdset (n : BitVec 3) (a : GReg) (s : State) : Host.Outcome State Fault Refusal := finish do
  let (g, s) ← gather s [.g a] []
  noPoisonAt s g 0 [(0, 0)]
  let s' := retire s g [] (npcOf s)
  return updWide s' s.who.1 fun w => { w with hodRegs := mset w.hodRegs (16 * s.who.2 + n.toNat) (g.w 0) }

/-- The transfer is enqueued (R190, R367): its identifier, and the state. -/
def enqueueXfer (s : State) (rs : List Word) : BitVec 32 × State :=
  let p := s.who.1
  let n := s.who.2
  let c := getCore s p
  let count := (mget c.hodCount n).getD 0
  let id := engineId c.lcore n count
  let t := mkXfer s id (myJob s) n rs (engLaunch s)
  (id, updCore { s with nextOrder := s.nextOrder + 1 } p fun c =>
    { c with hodq := c.hodq ++ [t], hodCount := mset c.hodCount n (count + 1), hodWait := c.hodWait.filter fun x => x ≠ slotWaiter (myJob s) n })

/-- HDGO (R367, R445): with DKIND 5 the ring object is read at its owner first. -/
def execHdgo (d : GReg) (s : State) : Host.Outcome State Fault Refusal := finish do
  let (g, s) ← gather s [] [d]
  let rs := hodRegs (getCore s s.who.1) s.who.2
  if hdKind rs = 5 then lockCheck s (hdDst rs) 32 else .ok ()
  match hodCheck rs with
  | some n => faultWith s 0x07 (BitVec.ofNat 64 n)
  | none =>
    if hdKind rs = 5 then
      require s (ringAddrOk (hdDst rs)) 0x07 (hdDst rs)
      require s (!isLocal (hdDst rs) || (regionOk (getCore s s.who.1).res (myJob s) 0 (offset48 (hdDst rs)) 32 true false
        && !inTaskArea (offset48 (hdDst rs)) 32)) 0x07 (hdDst rs)
      return request s g (pendOf s (.hdgo d) (hdDst rs)) 30 .ringRead { addr := hdDst rs, size := 32 }
    else if !hodTurn s s.who.1 (slotWaiter (myJob s) s.who.2) then await (waitSlotHod s) .room
    else
      let (id, s) := enqueueXfer s rs
      return retire s g [.put d (id.setWidth 64) false] (npcOf s)

/-- HDGO after the ring object has been read (R193): the rows must stay in the slot; a full queue makes the slot wait and
reissue. -/
def hdgoFinish (s : State) (d : Pend) (r : GReg) : State :=
  let rs := hodRegs (getCore s s.who.1) s.who.2
  if gotPsn d || !ringRowsOk (leWord 256 (gotBytes d 0)) rs then freezeSlot s s.who.1 s.who.2 0x07 d.addr d.word
  else if !hodTurn s s.who.1 (slotWaiter (myJob s) s.who.2) then
    updMe (waitSlotHod s) fun sl => { sl with st := .waiting, park := .room, pend := none }
  else
    let (id, s) := enqueueXfer s rs
    retireLate s d [.put r (id.setWidth 64) false]

/-- Transfer status of an identifier at the issuing core (R368). -/
def hodStatus (s : State) (x : Word) : Word :=
  let c := getCore s s.who.1
  let id : BitVec 32 := x.setWidth 32
  match c.hodq.find? fun t => decide (t.id = id) && t.card.isNone with
  | some t => statusOf (if t.started then 1 else 0) t.done 0
  | none => match c.hodEnded.find? fun e => e.id = id with
    | some e => statusOf e.state e.count 0
    | none => BitVec.allOnes 64

/-- HDWAIT (R368). -/
def execHdwait (d a : GReg) (s : State) : Host.Outcome State Fault Refusal := finish do
  let (g, s) ← gather s [.g a] [d]
  noPoisonAt s g 0 [(0, 0)]
  let w := hodStatus s (g.w 0)
  if statusEnded w then return retire s g [.put d w false] (npcOf s) else park s .hod

/-- HDPOLL (R368). -/
def execHdpoll (d a : GReg) (s : State) : Host.Outcome State Fault Refusal := finish do
  let (g, s) ← gather s [.g a] [d]
  noPoisonAt s g 0 [(0, 0)]
  return retire s g [.put d (hodStatus s (g.w 0)) false] (npcOf s)

/-- The checks of a ring object's address (R369, R431): the code of the first that fails. A request that only waits
reads, the others update. -/
def ringCode (s : State) (a : Word) (update : Bool) : Option Nat :=
  if bits a 55 48 ≠ 0 || !(isOwnLs a || (decide (1 ≤ nodeField a) && decide (nodeField a ≤ 0xC0))) then some 0x02
  else if a.toNat % 32 ≠ 0 then some 0x03
  else if isLocal a && !(regionOk (getCore s s.who.1).res (myJob s) 0 (offset48 a) 32 (!update) update && !inTaskArea (offset48 a) 32) then
    some 0x04
  else none

/-- Stage 6 for a ring object. -/
def ringCheck (s : State) (a : Word) (update : Bool) : Chk Unit :=
  match ringCode s a update with
  | some c => faultWith s c a
  | none => .ok ()

/-- A ring image is well formed (R369). -/
def imageOk (o : BitVec 256) : Bool :=
  decide (6 ≤ bits o 103 96) && decide (bits o 103 96 ≤ 20) && decide (1 ≤ bits o 95 80) && decide (bits o 127 104 = 0)
    && decide (bits o 79 0 = 0) && decide (bits o 255 192 % 2 ^ bits o 103 96 = 0)

/-- RINGI (R369, R445): the address, then the alignment, then the image's readability, then its contents. -/
def execRingi (a b : GReg) (s : State) : Host.Outcome State Fault Refusal := finish do
  let srcs := [Opnd.g a, .g b]
  let (g, s) ← gather s srcs [] ((peekSrcs s srcs).w 0)
  lockCheck s (g.w 0) 32
  lockCheck s (g.w 1) 32
  noPoisonAt s g (g.w 0) [(0, 0), (1, 1)]
  ringCheck s (g.w 0) true
  ownLsCheck s (g.w 1) 32 32
  let bs := ownBytes s (g.w 1) 32
  require s (imageOk (leWord 256 bs)) 0x07 (g.w 0)
  return request s g (pendOf s (.ringi a b) (g.w 0)) 30 .ringInit
    { addr := g.w 0, size := 32, data := bs, psn := poisonRead 8 (getCore s s.who.1).res.lsPoison (offset48 (g.w 1)) 32 }

/-- RINGAW (R370). -/
def execRingaw (d a b : GReg) (s : State) : Host.Outcome State Fault Refusal := finish do
  let srcs := [Opnd.g a, .g b]
  let (g, s) ← gather s srcs [d] ((peekSrcs s srcs).w 0)
  lockCheck s (g.w 0) 32
  noPoisonAt s g (g.w 0) [(0, 0), (1, 1)]
  ringCheck s (g.w 0) false
  return request s g (pendOf s (.ringaw d a b) (g.w 0)) 30 (.ringWait ((g.w 1).setWidth 32)) { addr := g.w 0, size := 32 }

/-- RINGREL (R370): a release of chip scope. -/
def execRingrel (a b : GReg) (s : State) : Host.Outcome State Fault Refusal := finish do
  let srcs := [Opnd.g a, .g b]
  let (g, s) ← gather s srcs [] ((peekSrcs s srcs).w 0)
  lockCheck s (g.w 0) 32
  noPoisonAt s g (g.w 0) [(0, 0), (1, 1)]
  ringCheck s (g.w 0) true
  releaseGate s .chip
  return request s g (pendOf s (.ringrel a b) (g.w 0)) 30 (.ringRelease ((g.w 1).setWidth 32)) { addr := g.w 0, size := 32 }

end Sys2Proof.Machine
end

