-- ==== Sys2Proof/Machine/TileInstr.lean ====
section
/-! DEFINITION. Tile, card, reduction and log instructions (R91 to R93, R195, R371 to R378, R445, R446). -/

namespace Sys2Proof.Machine

/-! ### Tiles (R91 to R93, R372, R373) -/

/-- The tile-table entry of tile `t` in a context. -/
def tileEntry (x : Ctx) (t : Nat) : BitVec 32 := (mget x.tiles t).getD 0
/-- STATE of an entry: 0 empty, 1 filling, 2 ready, 3 draining. -/
def tileState (e : BitVec 32) : Nat := bits e 17 16
/-- The journal unit of a tile-table entry. -/
def tileUnit (x : Ctx) (t : Nat) : JUnit := { kind := 9, target := t, data := (tileEntry x t).setWidth 64 }

/-- TLST (R372). -/
def execTlst (d a : GReg) (s : State) : Host.Outcome State Fault Refusal := finish do
  let (g, s) ← gather s [.g a] [d]
  noPoisonAt s g 0 [(0, 0)]
  require s (decide ((g.w 0).toNat ≤ 47)) 0x02
  return retire s g [.put d ((tileEntry (getCore s s.who.1).res (g.w 0).toNat).setWidth 64) false] (npcOf s)

/-- TLWAIT (R372). -/
def execTlwait (d a : GReg) (state : BitVec 2) (s : State) : Host.Outcome State Fault Refusal := finish do
  let (g, s) ← gather s [.g a] [d]
  noPoisonAt s g 0 [(0, 0)]
  require s (decide ((g.w 0).toNat ≤ 47)) 0x02
  let e := tileEntry (getCore s s.who.1).res (g.w 0).toNat
  if tileState e = state.toNat then return retire s g [.put d (e.setWidth 64) false] (npcOf s)
  else park s (.tile (g.w 0).toNat)

/-- The entry after TLSET (R373): a tile that has the state already stays as it is. -/
def tlsetEntry (e : BitVec 32) (ready : Bool) (uses job : Nat) : BitVec 32 :=
  match ready, tileState e with
  | true, 0 => setBits (setBits (setBits (setBits e 17 16 2) 15 8 uses) 7 0 (bits e 7 0 + 1)) 31 25 job
  | false, 2 => setBits (setBits e 17 16 0) 31 25 job
  | _, _ => e

/-- TLSET (R373): parks while the tile is Filling or Draining (stage 3); a release of chip scope. -/
def execTlset (a b : GReg) (ready : Bool) (s : State) : Host.Outcome State Fault Refusal := finish do
  let (g, s) ← gather s [.g a, .g b] []
  let t := (g.w 0).toNat
  let x := (getCore s s.who.1).res
  let e := tileEntry x t
  if decide (t ≤ 47) && (decide (tileState e = 1) || decide (tileState e = 3)) then park s (.tile t)
  else
    noPoisonAt s g 0 [(0, 0), (1, 1)]
    require s (decide (t ≤ 47)) 0x02
    require s (regionOk x (myJob s) (if t < 32 then 1 else 2) (if t < 32 then 4096 * t else 4096 * (t - 32)) 4096 true false) 0x04
    releaseGate s .chip
    let e' := tlsetEntry e ready (bits (g.w 1) 7 0) (myJob s)
    if e' = e then return retire s g [] (npcOf s)
    else
      let s := updCtx s s.who.1 fun x => { x with tiles := mset x.tiles t e' }
      let s := commitPops s g.pops
      let s := retireAt s (popUnits g.pops ++ [tileUnit (getCore s s.who.1).res t]) [] (npcOf s) (issueCc s + 8)
      return wakeCore s s.who.1 fun w => decide (w = .tile t)

/-! ### Cards (R374, R375) -/

/-- CARDQ (R374): the status of R34, and for an accepted instance its generation and number. -/
def execCardq (d a : GReg) (s : State) : Host.Outcome State Fault Refusal := finish do
  let (g, s) ← gather s [.g a] [d]
  noPoisonAt s g 0 [(0, 0)]
  if bits (g.w 0) 63 16 ≠ 0 then return answered s g (.cardq d a) 2
  else
    let (topen, ticks) := match slotPhase s with
      | some j => (j.topen, j.fccTicks)
      | none => (s.plumb, 20)
    let gen := s.nextGen
    let (st, inst, s) := startGraph s (myJob s) (bits (g.w 0) 15 0) (phaseNumber s) (senderKey s s.who.1 s.who.2) topen ticks (workClosed s)
    return answered s g (.cardq d a) (BitVec.ofNat 64 (if st = 0 then gen.toNat * 2 ^ 16 + inst * 2 ^ 8 else st))

/-- The instance that a CARDQ result names, if the Keystone holds it. -/
def namedGraph (s : State) (x : Word) : Option Graph :=
  s.graphs.find? fun g => decide (g.inst = bits x 15 8) && decide (g.gen.toNat = bits x 31 16)

/-- What CARDW and SCW return for an ended instance. -/
def graphResult (g : Graph) : Word :=
  match g.st with
  | .complete => 0
  | .cancelled => 1
  | _ => 2

/-- CARDW (R374). -/
def execCardw (d a : GReg) (s : State) : Host.Outcome State Fault Refusal := finish do
  let (g, s) ← gather s [.g a] [d]
  noPoisonAt s g 0 [(0, 0)]
  match namedGraph s (g.w 0) with
  | none => return retire s g [.put d 3 false] (npcOf s)
  | some i => if i.st = .running then park s .card else return retire s g [.put d (graphResult i) false] (npcOf s)

/-- CANCEL's effect and result (R375): 0 cancelled, 1 already complete, 2 unknown. DESIGN CHOICE: a level that has been
cancelled or refused before has ended too, and a further CANCEL of it returns 1 (log 66). -/
def cancelLevel (s : State) (level : Level) (x : Word) : Nat × State :=
  match level with
  | .launch => match launchRec s (bits x 31 16) with
    | some r =>
      if r.job ≠ myJob s then (2, s)
      else if r.st = .running then (0, cancelLaunch s (bits x 31 16)) else (1, s)
    | none => (2, s)
  | .graph => match namedGraph s x with
    | some g => if g.job ≠ myJob s then (2, s) else if g.st = .running then (0, cancelGraph s (graphRef g)) else (1, s)
    | none => (2, s)
  | _ => match findJob s (myJob s) with
    | some j =>
      if j.number ≠ x.setWidth 32 || decide (j.phase = .closed) then (if j.prevNumber = some (x.setWidth 32) then 1 else 2, s)
      else if j.phase = .complete || j.phase = .cancelled then (1, s)
      else (0, cancelPhase s (myJob s))
    | none => (2, s)

/-- CANCEL (R375): the level is cancelled at its node; the issuing slot leaves the rotation, where its own task is of the
level, at its first issue boundary after the reply. -/
def execCancel (d a : GReg) (level : Level) (s : State) : Host.Outcome State Fault Refusal := finish do
  let (g, s) ← gather s [.g a] [d]
  noPoisonAt s g 0 [(0, 0)]
  let (r, s) := cancelLevel s level (g.w 0)
  return answered s g (.cancel d a level) (BitVec.ofNat 64 r)

/-! ### Reductions (R195, R376, R377) -/

/-- Reductions of a core whose results have not been taken: its interface holds up to two, whatever their jobs (R377). -/
def untaken (c : PCore) : Nat := c.contribs.length + c.results.length

/-- The cores of a set in tree order: columns by rising x, each by rising y (R195). -/
def treeOrder (ps : List Nat) : List (List Nat) :=
  ((upTo 16).map fun x => ((upTo 12).flatMap fun y => ps.filter fun p => decide (coreX p = x) && decide (coreY p = y))).filter
    fun col => col ≠ []

/-- The tree of a job's partition by the physical coordinates of now, as logical cores (R195). -/
def treeNow (s : State) (job : Nat) : List (List Nat) :=
  match findJob s job with
  | some j => (treeOrder (partCores s j.record)).map fun col => col.map fun p => logicalOf s p
  | none => []

/-- AREDC (R377): the poison of its source travels into the reduction (R342). -/
def execAredc (a : VReg) (op : RedOp) (s : State) : Host.Outcome State Fault Refusal := finish do
  let (g, s) ← gather s [.v a] []
  if 2 ≤ untaken (getCore s s.who.1) then park s .reduction
  else
    let k : Contribution := { job := myJob s, val := g.v 0, op := op, psn := g.psn, key := senderKey s s.who.1 s.who.2
                              time := s.plumb, tree := treeNow s (myJob s) }
    let s' := retire s g [] (npcOf s)
    return updCore s' s.who.1 fun c => { c with contribs := c.contribs ++ [k] }

/-- AREDW (R377). -/
def execAredw (d : VReg) (s : State) : Host.Outcome State Fault Refusal := finish do
  match (getCore s s.who.1).results.find? fun x => x.1 = myJob s with
  | none => park s .reduction
  | some r =>
    let s' := updCore (plain s [.putV d r.2.1 r.2.2]) s.who.1 fun c => { c with results := c.results.erase r }
    return wakeCore s' s.who.1 fun w => decide (w = .reduction)

/-! ### Log (R376, R378) -/

/-- MMARK (R378). -/
def execMmark (a : GReg) (tag : BitVec 6) (s : State) : Host.Outcome State Fault Refusal := finish do
  let (g, s) ← gather s [.g a] []
  noPoisonAt s g 0 [(0, 0)]
  let x : Resolution := { type := 9, arg := tag.toNat, agent := senderKey s s.who.1 s.who.2, data := g.w 0 }
  let s ← gateMine s g.pops x true
  return retireNoting s g x [] (npcOf s)

/-- Field `n` of the slot's own job's Mortar descriptor (R378). -/
def mortarField (m : Mortar) (n : Nat) : Word :=
  match n with
  | 0 => m.wptr.setWidth 64
  | 1 => m.rptr.setWidth 64
  | 2 => (m.wptr - m.rptr).setWidth 64
  | 3 => m.mode.setWidth 64
  | 4 => m.hwm.setWidth 64
  | _ => m.ovcnt.setWidth 64

/-- MLOGQ (R378). -/
def execMlogq (d : GReg) (field : BitVec 6) (s : State) : Host.Outcome State Fault Refusal := finish do
  let (g, s) ← gather s [] [d]
  return answered s g (.mlogq d field) (mortarField (getMortar s (myJob s)) field.toNat)

/-- Pair register 0x00 (R222). -/
def pairStatus (l : PairLink) : Nat := l.role.toNat + b2n l.link * 4 + b2n l.sync * 8

/-- PAIRQ (R378). -/
def execPairq (d : GReg) (s : State) : Host.Outcome State Fault Refusal :=
  finish do
    let (g, s) ← gather s [] [d]
    return answered s g (.pairq d)
      (BitVec.ofNat 64 (pairStatus s.pair + b2n (decide (s.pair.role ≠ 2)) * 16 + s.pair.syncStamp.toNat * 2 ^ 32))

end Sys2Proof.Machine
end

