-- ==== Sys2Proof/Machine/RegRead.lean ====
section
/-! DEFINITION. Reads of the registers at node fields 0xE0 to 0xE5 and of the debug window (R6, R100, R101, R106, R110,
R150, R157 to R160, R212 to R214, R222, R226, R228, R229, R236, R239, R403 to R408, R418, R422, R426, R450, R459, R469,
R473, R475, R476, R479, R490), and what a read clears (R5). -/

namespace Sys2Proof.Machine

/-! ### The debug window (R403, R422) -/

/-- The full/empty doubleword, or with `psn` the poison doubleword, of a slot (R422). -/
def flagsWord (sl : Slot) (psn : Bool) : Word :=
  let one := fun (c : Bool × Bool) (i : Nat) => if (if psn then c.2 else c.1) then 2 ^ i else 0
  let gs := (upTo 31).foldl (fun a i => let c := gCell sl (i + 1); a + one (c.full, c.psn) (i + 1)) (if psn then 0 else 1)
  let us := (upTo 16).foldl (fun a i => let c := gCell sl (48 + i); a + one (c.full, c.psn) (32 + i)) 0
  let vs := (upTo 16).foldl (fun a i => let c := vCell sl i; a + one (c.full, c.psn) (48 + i)) 0
  BitVec.ofNat 64 (gs + us + vs)

/-- A doubleword of a slot's region of the debug window. -/
def dbgSlot (s : State) (p n o : Nat) : Word :=
  let sl := getSlot s p n
  if o < 0x100 then (gCell sl (o / 8)).val
  else if o < 0x180 then (gCell sl (48 + (o - 0x100) / 8)).val
  else if o < 0x1C0 then mReg sl ((o - 0x180) / 8)
  else if o < 0x1E0 then
    let i := (o - 0x1C0) / 4
    BitVec.ofNat 64 ((kReg sl i).toNat + (kReg sl (i + 1)).toNat * 2 ^ 32)
  else if o = 0x1E0 then flagsWord sl false
  else if o = 0x1F8 then flagsWord sl true
  else if o < 0x200 then 0
  else if o < 0x600 then lane 64 (vCell sl ((o - 0x200) / 64)).val (o % 64 / 8)
  else if o < 0x658 then scrValue { s with who := (p, n) } ((o - 0x600) / 8)
  else match o with
    | 0x660 => sl.pc
    | 0x668 => sl.urgPc
    | 0x670 => sl.join
    | 0x678 => slotStateWord n sl
    | 0x680 => chanWord sl
    | 0x688 => sl.frame.base
    | 0x690 => frameControl sl.frame
    | 0x698 => sl.frameUrg.base
    | 0x6A0 => frameControl sl.frameUrg
    | 0x6A8 => sl.pert
    | _ => 0

/-- DSTAT of a slot (R408). -/
def dstatWord (sl : Slot) : Word :=
  BitVec.ofNat 64 (sl.was.toNat * 2 ^ 62 + b2n sl.wdrn * 2 ^ 61 + sl.cause.toNat * 2 ^ 56 + sl.skid.toNat * 2 ^ 48 + sl.dpc.toNat)

/-- STOPC.STOPPED: a slot of the core holds CAUSE 2 or 3 (R408). -/
def coreStopped (c : PCore) : Bool := c.res.slots.any fun e => decide (e.2.cause = 2) || decide (e.2.cause = 3)

/-- A stop is in force at a core: a slot holds CAUSE 2 or 3, or is to freeze with it at its reply or at the end of its step. -/
def stopInForce (c : PCore) : Bool :=
  coreStopped c || c.res.slots.any fun e => e.2.stepping || decide (e.2.stopNext = 2) || decide (e.2.stopNext = 3)

/-- The core that holds the state of core `p`: the lead of a coupled pair holds the shadow's too (R470, log 31). -/
def stateCore (s : State) (p : Nat) : Nat :=
  if p % 2 = 1 ∧ ((mget s.pairChk (p / 2)).getD {}).state = 2 then p - 1 else p

/-- A doubleword of the debug window of core `p`. -/
def dbgWord (s : State) (p o : Nat) : Word :=
  let own := getCore s p
  let p := stateCore s p
  let c := getCore s p
  let x := c.res
  if o < 0x20000 then dbgLs x o
  else if o < 0x20800 then
    BitVec.ofNat 64 ((upTo 64).foldl (fun a i => a + (if wordFull x ((o - 0x20000) * 8 + i) then 2 ^ i else 0)) 0)
  else if 0x28000 ≤ o ∧ o < 0x30000 then dbgSlot s p ((o - 0x28000) / 0x800) (o % 0x800)
  else if 0x3E000 ≤ o ∧ o < 0x3E080 then (mget x.c ((o - 0x3E000) / 8)).getD 0
  else if 0x3E100 ≤ o ∧ o < 0x3E500 then ((getQ x ((o - 0x3E100) / 128)).getD (o % 128 / 8) {}).val
  else if 0x3E500 ≤ o ∧ o < 0x3E540 then BitVec.ofNat 64 (getQ x ((o - 0x3E500) / 8)).length
  else if 0x3E540 ≤ o ∧ o < 0x3E580 then
    BitVec.ofNat 64 ((((getQ x ((o - 0x3E540) / 8)).map fun e => e.psn).zip (upTo 16)).foldl (fun a e => a + b2n e.1 * 2 ^ e.2) 0)
  else if 0x3E800 ≤ o ∧ o < 0x3E8C0 then
    let t := (o - 0x3E800) / 4
    BitVec.ofNat 64 ((tileEntry x t).toNat + (tileEntry x (t + 1)).toNat * 2 ^ 32)
  else if 0x3F020 ≤ o ∧ o < 0x3F040 then own.whit.extractLsb' (64 * ((o - 0x3F020) / 8)) 64
  else if 0x3F100 ≤ o ∧ o < 0x3F180 then dstatWord (getSlot s p ((o - 0x3F100) / 8))
  else match o with
    | 0x3F000 => own.watch
    | 0x3F040 => BitVec.ofNat 64 (own.stopSrc.toNat * 2 ^ 8 + b2n (coreStopped c) * 2 ^ 3)
    | 0x3F200 => own.lock
    | _ => 0

/-! ### Node field 0xE0 -/

/-- A Mortar descriptor as its 256 bits (R150): MODE as last written. -/
def mortarBits (m : Mortar) : BitVec 256 :=
  BitVec.ofNat 256 (m.base.toNat * 2 ^ 192 + m.wptr.toNat * 2 ^ 160 + m.rptr.toNat * 2 ^ 128 + m.hwm.toNat * 2 ^ 96
    + m.lsize.toNat * 2 ^ 91 + (m.nextMode.getD m.mode).toNat * 2 ^ 88 + m.ovcnt.toNat * 2 ^ 64 + m.divto.toNat)

/-- CLKCTL of a cluster (R229). -/
def clkctlWord (c : Cluster) : Word :=
  BitVec.ofNat 64 (c.bramp.toNat * 2 ^ 32 + c.dinj.toNat * 2 ^ 16 + b2n c.busy * 2 ^ 9 + c.cur.toNat * 2 ^ 4 + c.req.toNat)

/-- PWRFLT of a cluster (R479). -/
def pwrfltWord (c : Cluster) : Word :=
  BitVec.ofNat 64 (c.strcnt.toNat * 2 ^ 24 + b2n c.thot * 2 ^ 7 + b2n c.tfrz * 2 ^ 6 + b2n c.rfail * 2 ^ 2 + b2n c.forced * 2)

/-- LPCT register n (R101): the entry with CLASS, BUSY while a remap of n waits or runs, and ERR. -/
def lpctWord (s : State) (n : Nat) : Word :=
  let e := lpctEntry s n
  let busy := s.remaps.any fun r => decide (r.1 = n)
  BitVec.ofNat 64 (b2n busy * 2 ^ 63 + bits e 62 62 * 2 ^ 62 + b2n (lpctV s n) * 2 ^ 15
    + b2n (isClass1 s (physOf s n)) * 2 ^ 12 + physOf s n)

/-- RETSTAT of a memory node (R459): STATE 1 while it copies, 2 while it switches over. -/
def retstatWord (n : MNode) : Word :=
  BitVec.ofNat 64 ((match n.migration with | some m => 1 + b2n m.switching | none => 0) * 2 ^ 62 + n.restarts.toNat * 2 ^ 32 + b2n n.retErr)

/-- PAIRCHK of a pair (R469). -/
def pairchkWord (q : Pair) : Word := BitVec.ofNat 64 (q.disag.toNat * 2 ^ 32 + q.state * 2 ^ 4 + b2n q.en)

/-- The open fault record at an index, all zero when free (R450). -/
def frecAt (s : State) (i : Nat) : BitVec 256 :=
  match s.faultRecs.find? fun r => decide (r.index = i) with
  | some r => r.bits
  | none => 0

/-- A doubleword of node field 0xE0 below the debug windows. -/
def ctlWord (s : State) (o : Nat) : Word :=
  if 0x1400 ≤ o ∧ o < 0x14C0 then clkctlWord (getCluster s ((o - 0x1400) / 8))
  else if 0x1600 ≤ o ∧ o < 0x16C0 then pwrfltWord (getCluster s ((o - 0x1600) / 8))
  else if 0x1800 ≤ o ∧ o < 0x1820 then s.anonce.extractLsb' (64 * ((o - 0x1800) / 8)) 64
  else if 0x1900 ≤ o ∧ o < 0x19C0 then s.areport.extractLsb' (64 * ((o - 0x1900) / 8)) 64
  else if 0x2000 ≤ o ∧ o < 0x2400 then (mget s.meters ((o - 0x2000) / 8)).getD 0
  else if 0x2400 ≤ o ∧ o < 0x2800 then (mget s.quotas ((o - 0x2400) / 8)).getD 0
  else if 0x2800 ≤ o ∧ o < 0x2C00 then ((mget s.ovfl ((o - 0x2800) / 8)).getD 0).setWidth 64
  else if 0x5200 ≤ o ∧ o < 0x5300 then retstatWord (getNode s ((o - 0x5200) / 8))
  else if 0x5400 ≤ o ∧ o < 0x5700 then pairchkWord ((mget s.pairChk ((o - 0x5400) / 8)).getD {})
  else if 0x5800 ≤ o ∧ o < 0x5E00 then (getCore s ((o - 0x5800) / 8)).redStat
  else if 0x5E00 ≤ o ∧ o < 0x5EC0 then (getCluster s ((o - 0x5E00) / 8)).crect
  else if 0x6000 ≤ o ∧ o < 0x6600 then lpctWord s ((o - 0x6000) / 8)
  else if 0x100000 ≤ o ∧ o < 0x101000 then (mortarBits (getMortar s ((o - 0x100000) / 32))).extractLsb' (64 * (o % 32 / 8)) 64
  else if 0x600000 ≤ o ∧ o < 0x608000 then (frecAt s ((o - 0x600000) / 32)).extractLsb' (64 * (o % 32 / 8)) 64
  else match o with
    | 0x1000 => BitVec.ofNat 64 (b2n s.runErr * 2 + b2n s.run)
    | 0x1008 => s.period.setWidth 64
    | 0x1010 => s.start
    | 0x1018 => BitVec.ofNat 64 (s.stamp.toNat * 2 ^ 32 + s.stamp0.toNat)
    | 0x1100 => s.jobRegResult.setWidth 64
    | 0x1200 => s.arbSeq.setWidth 64
    | 0x1300 => s.inva
    | 0x1310 => BitVec.ofNat 64 (b2n s.invBusy * 2 ^ 63 + s.invDone.toNat)
    | 0x1500 => BitVec.ofNat 64 s.plumb
    | 0x1828 => BitVec.ofNat 64 (b2n s.attBusy * 2 ^ 63 + s.attSeq.toNat)
    | 0x3000 => s.ewp.setWidth 64
    | 0x3008 => s.ehost.setWidth 64
    | 0x3010 => s.emgt.setWidth 64
    | 0x3018 => s.elost.setWidth 64
    | 0x3800 => s.hbper.setWidth 64
    | 0x3808 => s.capto.setWidth 64
    | 0x5010 => BitVec.ofNat 64 (s.feivl.toNat * 2 ^ 16 + s.felim.toNat)
    | 0x5020 => s.memEcc.setWidth 64
    | _ => 0

/-- Harts and debug windows by the offset of node field 0xE0. -/
def hartWindow (o : Nat) : Option (Nat × Nat) :=
  if 0x2000000 ≤ o ∧ o < 0x2400000 then
    let h := (o - 0x2000000) / 0x80000
    let a := (o - 0x2000000) % 0x80000
    if a < 0x60000 then some (h, a) else none
  else none

/-- The core and the offset in its debug window. -/
def dbgWindow (o : Nat) : Option (Nat × Nat) :=
  if 0x8000000 ≤ o ∧ o < 0x8000000 + 192 * 0x40000 then some ((o - 0x8000000) / 0x40000, o % 0x40000) else none

/-! ### Node fields 0xE2 to 0xE4 -/

/-- A gate's entry as last written (R212, log 15). -/
def gateBits (g : Gate) : V512 := g.next.getD g.entry

/-- Counters of a gate, two to a doubleword (R213). -/
def gateCounters (g : Gate) (i : Nat) : Word :=
  match i with
  | 0 => BitVec.ofNat 64 (g.dup.toNat + g.ovsz.toNat * 2 ^ 32)
  | 1 => BitVec.ofNat 64 (g.policed.toNat + g.accepted.toNat * 2 ^ 32)
  | 2 => BitVec.ofNat 64 (g.late.toNat + g.nojob.toNat * 2 ^ 32)
  | _ => 0

/-- A doubleword of the pair registers (R222, R490). -/
def pairWord (s : State) (o : Nat) : Word :=
  if o = 0 then BitVec.ofNat 64 (pairStatus s.pair)
  else if 0x10 ≤ o ∧ o < 0x90 then (mget s.pair.windows ((o - 0x10) / 8)).getD 0
  else if o = 0x90 then s.pair.pol
  else 0

/-- The doubleword at an aligned offset of a node field 0xE0 to 0xE5; an offset that no chapter assigns reads 0 (R226). -/
def regWord (s : State) (nf o : Nat) : Word :=
  match nf with
  | 0xE0 =>
    match hartWindow o, dbgWindow o with
    | some (h, a), _ => leWord 64 (memBytes (getHart s h).mem a 8)
    | _, some (p, a) => dbgWord s p a
    | _, _ => ctlWord s o
  | 0xE2 =>
    if o < 0x600000 then leWord 64 (memBytes s.image o 8)
    else if 0x800000 ≤ o ∧ o < 0x801000 then lane 64 (gateBits (getGate s ((o - 0x800000) / 64))) (o % 64 / 8)
    else if 0x801000 ≤ o ∧ o < 0x801800 then gateCounters (getGate s ((o - 0x801000) / 32)) (o % 32 / 8)
    else 0
  | 0xE1 => if o < 2 ^ 24 then leWord 64 (memBytes s.durable o 8) else 0
  | 0xE3 => leWord 64 (memBytes s.vbuf o 8)
  | 0xE4 => pairWord s o
  | _ => 0

/-- Bytes that a read of 4 or 8 bytes returns, without its effect. -/
def regPeek (s : State) (nf o n : Nat) : List Byte :=
  ((natBytes 8 (regWord s nf (o / 8 * 8)).toNat).drop (o % 8)).take n

/-! ### What a read clears (R5: RC) -/

/-- Whether a read of `n` bytes at `o` takes in byte `b` of its doubleword. -/
def readsByte (o n b : Nat) : Bool := decide (o % 8 ≤ b) && decide (b < o % 8 + n)

/-- Clear OVFL of a job (R38). -/
def clearOvfl (s : State) (j : Nat) : State := { s with ovfl := mset s.ovfl j 0 }
/-- Clear OVCNT of a job (R150). -/
def clearOvcnt (s : State) (j : Nat) : State := updMortar s j fun m => { m with ovcnt := 0 }
/-- Clear DINJ of a cluster (R229). -/
def clearDinj (s : State) (i : Nat) : State := updCluster s i fun c => { c with dinj := 0 }
/-- Clear STRCNT of a cluster (R479). -/
def clearStrcnt (s : State) (i : Nat) : State := updCluster s i fun c => { c with strcnt := 0 }
/-- Clear one counter of a gate (R213). -/
def clearCounter (s : State) (g i : Nat) : State :=
  updGate s g fun x => match i with
    | 0 => { x with dup := 0 } | 1 => { x with ovsz := 0 } | 2 => { x with policed := 0 }
    | 3 => { x with accepted := 0 } | 4 => { x with late := 0 } | 5 => { x with nojob := 0 } | _ => x

/-- The effect of a read of `n` bytes of a register. -/
def regReadEffect (s : State) (nf o n : Nat) : State :=
  if nf = 0xE0 then
    if 0x1400 ≤ o ∧ o < 0x14C0 then (if readsByte o n 2 then clearDinj s ((o - 0x1400) / 8) else s)
    else if 0x1600 ≤ o ∧ o < 0x16C0 then (if readsByte o n 3 then clearStrcnt s ((o - 0x1600) / 8) else s)
    else if 0x2800 ≤ o ∧ o < 0x2C00 then (if readsByte o n 0 then clearOvfl s ((o - 0x2800) / 8) else s)
    else if 0x3018 ≤ o ∧ o < 0x3020 then (if readsByte o n 0 then { s with elost := 0 } else s)
    else if 0x5200 ≤ o ∧ o < 0x5300 then
      (if readsByte o n 0 then updNode s ((o - 0x5200) / 8) fun m => { m with retErr := false } else s)
    else if 0x100000 ≤ o ∧ o < 0x101000 then
      (if o % 32 / 8 = 1 ∧ readsByte o n 0 then clearOvcnt s ((o - 0x100000) / 32) else s)
    else s
  else if nf = 0xE2 then
    if 0x801000 ≤ o ∧ o < 0x801800 then
      let g := (o - 0x801000) / 32
      let i := o % 32 / 8 * 2
      let s := if readsByte o n 0 then clearCounter s g i else s
      if readsByte o n 4 then clearCounter s g (i + 1) else s
    else s
  else s

/-- A read of `n` bytes of a register: the bytes and the state after. -/
def regRead (s : State) (nf o n : Nat) : List Byte × State := (regPeek s nf o n, regReadEffect s nf o n)

/-- Whether a read of a register holds poison: only the process image does (R455, R457). -/
def regPoison (s : State) (nf o n : Nat) : Bool := decide (nf = 0xE2) && decide (o < 0x600000) && poisonRead 8 s.imagePoison o n

end Sys2Proof.Machine
end

