-- ==== Sys2Proof/Machine/Frame.lean ====
section
/-! DEFINITION. Instruction fetch (R431, R434) and the repeat frame (R336 to R340). -/

namespace Sys2Proof.Machine

/-! ### Reading an address once, as fetch does -/

/-- What a fetch meets. -/
inductive Fetched where
  | word (w : BitVec 32)
  /-- the fault that a load of the address would raise, with its DETAIL -/
  | fault (code detail : Nat)
  /-- a translation fault at a translating node (R99, R109) -/
  | miss (node va kinds : Nat)
  /-- the owner holds the access for now -/
  | wait
  deriving DecidableEq, Repr

/-- A window of the job covers an access and grants its kind (R161). -/
def windowOk (s : State) (job nf off n : Nat) (rd wr : Bool) : Bool :=
  match findJob s job with
  | none => false
  | some j => j.windows.any fun w =>
      decide (bits w 63 56 = nf) && (!rd || tbit w 55) && (!wr || tbit w 54)
        && decide (bits w 47 12 * 4096 ≤ off) && decide (off + n ≤ (bits w 47 12 + bits w 11 0 + 1) * 4096)

/-- The half of the input image that a latch is copying holds its accesses (R215). -/
def latchHolds (s : State) (nf off : Nat) : Bool :=
  s.latching && decide (nf = 0xE2) && decide (off / 0x200000 = s.stamp.toNat % 2)

/-- A fetched word, or the fault of its poison (R434). -/
def fetchedBytes (bs : List Byte) (psn : Bool) : Fetched := if psn then .fault 0x05 0 else .word (leWord 32 bs)

/-- A fetch by local address, its checks passed. -/
def fetchLocal (c : PCore) (a : Nat) : Fetched :=
  match bufferOf a with
  | some (0, off) => fetchedBytes (memBytes c.res.ls off 4) (poisonRead 8 c.res.lsPoison off 4)
  | some (1, off) => fetchedBytes (memBytes c.wb off 4) (poisonRead 8 c.wbPoison off 4)
  | some (2, off) => fetchedBytes (memBytes c.ab off 4) (poisonRead 8 c.abPoison off 4)
  | some (_, off) => fetchedBytes (memBytes c.wide.acc off 4) (poisonRead 8 c.wide.accPoison off 4)
  | none => .fault 0x02 0

/-- A fetch from a logical core's local store. -/
def fetchCore (s : State) (job lc va : Nat) : Fetched × State :=
  let q := physOf s lc
  if (getCluster s (clusterOf q)).fenced then (.fault 0x09 0x01, s)
  else if !lpctV s lc then (.fault 0x09 0x03, s)
  else if awayFor s q job || clockStands s q || (getCore s q).coreFault then (.wait, s)
  else match translate s q job va true false true false with
    | (.error k, s) => (.miss (0x40 + q) va k, s)
    | (.ok off, s) =>
      if inTaskArea off 4 then (.fault 0x04 0, s)
      else if lockTouches (getCore s q) off 4 then (.wait, s)
      else (fetchedBytes (memBytes (getCore s q).res.ls off 4) (poisonRead 8 (getCore s q).res.lsPoison off 4), s)

/-- A fetch from the partner's main memory: what the partner holds is free (log 6). -/
def fetchPartner (s : State) (va : Nat) : Fetched × State :=
  if !s.pair.link then (.fault 0x09 0x02, s)
  else
    let (k, s) := drawNat s
    let (x, s) := drawNat s
    if k % 2 = 0 then (.word ((Config.freeWord x).setWidth 32), s) else (.miss 0x20 va (k / 2 % 63 + 1), s)

/-- FETCH OF A WORD BY A SLOT OF CORE `p` in its job's space (R434): the checks of R431, then the owner. -/
def fetchAt (s : State) (p sl : Nat) (pc : Word) : Fetched × State :=
  let job := (getSlot s p sl).jobId.toNat
  let nf := nodeField pc
  let off := offset48 pc
  match addrCode { s with who := (p, sl) } .fetch pc 4 with
  | some c => (.fault c 0, s)
  | none =>
    if nf = 0xFF then (fetchLocal (getCore s p) off, s)
    else if (findJob s job).isNone then (.fault 0x09 0x07, s)
    else if nf = 0 then
      if nodeFenced s (homeNode off) then (.fault 0x09 0x01, s)
      else match translate s (homeNode off) job off true false false false with
      | (.error k, s) => (.miss (homeNode off) off k, s)
      | (.ok pa, s) =>
        let (bs, psn, s) := slRead s pa 4 30 job ((getSlot s p sl).launchId.toNat % 2 ^ 16)
        (fetchedBytes bs psn, s)
    else if nf ≤ 0xC0 then fetchCore s job (nf - 1) off
    else if edgeFenced s nf then (.fault 0x09 0x01, s)
    else if nf = 0xF0 then fetchPartner s off
    else if !windowOk s job nf off 4 true false then (.fault 0x04 0, s)
    else if nf = 0xE1 then (fetchedBytes (memBytes s.durable off 4) (poisonRead 32 s.durablePoison off 4), s)
    else if latchHolds s nf off then (.wait, s)
    else let psn := regPoison s nf off 4; let (bs, s) := regRead s nf off 4; (fetchedBytes bs psn, s)

/-- A slot meets a translation fault: it parks with its faulting block, and a notice leaves for the collector (R109,
R111). -/
def missSlot (s : State) (p n node va kinds : Nat) : State :=
  let job := (getSlot s p n).jobId.toNat
  let s := { s with net := s.net ++ [.notice node job va kinds p n] }
  updSlot s p n fun sl => { sl with st := .parked, park := .translation, block := some (job, va / 2 ^ 22), pend := none }

/-! ### Staggering (R338) -/

/-- Which fields of an instruction name g or v registers: d, a, b and the third one. -/
structure Named where
  d : Bool := true
  a : Bool := true
  b : Bool := true
  c : Bool := false
  deriving DecidableEq, Repr

/-- The fields that REP staggers in an instruction of the majors it captures. -/
def namedFields : Instr → Named
  | .li .. | .lim .. | .lih .. | .addpc .. | .viota .. | .vmpop .. => { a := false, b := false }
  | .addi .. | .andi .. | .ori .. | .xori .. | .slti .. | .sltiu .. | .slli .. | .srli .. | .srai .. | .rotri ..
  | .bfx .. | .bfi .. | .clz .. | .ctz .. | .popc .. | .bswap .. | .fsqrt .. | .fclass .. | .fmv .. | .fcvtI ..
  | .fcvtF .. | .fcvtFf .. | .vabs .. | .vneg .. | .vexp2 .. | .vlog2 .. | .vrcp .. | .vrsq .. | .vsqrt ..
  | .vcvt .. | .vcvts .. | .vmov .. | .vbcst .. | .vradd .. | .vrmax .. | .vrmin .. => { b := false }
  | .vcmp .. => { d := false }
  | .vmand .. | .vmor .. | .vmnot .. => { d := false, a := false, b := false }
  | .sel .. | .fma .. | .fms .. | .fnma .. | .fnms .. | .vfma .. | .vfms .. | .vfnma .. | .vclmp .. | .vext .. | .vdot .. =>
    { c := true }
  | _ => {}

/-- Add to a field of a word, modulo its width. -/
def addField (w : BitVec 32) (hi lo by_ : Nat) (on : Bool) : BitVec 32 :=
  if on then setBits w hi lo (bits w hi lo + by_) else w

/-- A captured word staggered for repeat `r` (R338). -/
def stagger (w : BitVec 32) (f : Frame) : BitVec 32 :=
  match decode w with
  | .error _ => w
  | .ok i =>
    let n := namedFields i
    let r := f.repi.toNat
    if 0x34 ≤ (fMajor w).toNat then
      addField (addField (addField (addField w 25 22 (r * f.sd.toNat) n.d) 21 18 (r * f.sa.toNat) n.a) 17 14 (r * f.sb.toNat) n.b)
        13 10 (r * f.sc.toNat) n.c
    else
      addField (addField (addField (addField w 25 21 (r * f.sd.toNat) n.d) 20 16 (r * f.sa.toNat) n.a) 15 11 (r * f.sb.toNat) n.b)
        10 6 (r * f.sc.toNat) n.c

/-! ### Capture (R336, R340) -/

/-- Majors that a frame may hold (R336). -/
def frameMajor (w : BitVec 32) : Bool :=
  let m := (fMajor w).toNat
  (decide (1 ≤ m) && decide (m ≤ 0x0E)) || [0x30, 0x31, 0x34, 0x35, 0x36].contains m

/-- A word that REP captures (R336). -/
def frameWord (w : BitVec 32) : Bool := frameMajor w && (match decode w with | .ok _ => true | .error _ => false)

/-- What a capture meets: the words, or the address at which it ends and why. -/
inductive Captured where
  | words (ws : List (BitVec 32))
  | illegal (addr : Word) (w : BitVec 32)
  | stop (addr : Word) (f : Fetched)
  deriving DecidableEq, Repr

/-- Fetch `n` words from an address: REP reads them all before it checks one (R336 steps 1 and 2). -/
def fetchWords (s : State) (p sl : Nat) (a : Word) : Nat → Captured × State
  | 0 => (.words [], s)
  | n + 1 =>
    match fetchAt s p sl a with
    | (.word w, s) =>
      match fetchWords s p sl (a + 4) n with
      | (.words ws, s) => (.words (w :: ws), s)
      | r => r
    | (f, s) => (.stop a f, s)

/-- The check of the words read from an address: the first illegal one ends the capture. -/
def checkWords (a : Word) : List (BitVec 32) → Captured
  | [] => .words []
  | w :: r =>
    if !frameWord w then .illegal a w
    else match checkWords (a + 4) r with
      | .words ws => .words (w :: ws)
      | c => c

/-- Fetch `n` words from an address, then check them. -/
def capture (s : State) (p sl : Nat) (a : Word) (n : Nat) : Captured × State :=
  match fetchWords s p sl a n with
  | (.words ws, s) => (checkWords a ws, s)
  | r => r

/-- REP (R336, R436). -/
def execRep (count : BitVec 6) (sd sa sb sc len : BitVec 4) (s : State) : Host.Outcome State Fault Refusal := finish do
  match capture s s.who.1 s.who.2 (npcOf s) (len.toNat + 1) with
  | (.words ws, s) =>
    return plain s [.frame { v := true, base := pcOf s, cntM1 := count, lenM1 := len, sd := sd, sa := sa, sb := sb, sc := sc
                             repi := 0, pos := 0, words := ws }]
  | (.illegal a _, s) => faultWith s 0x01 a
  | (.stop a (.fault c d), s) => faultWith s c a d
  | (.stop _ (.miss node va k), s) => .error (missSlot s s.who.1 s.who.2 node va k)
  | (.stop _ _, s) => .error s

/-- UNASSIGNED_ENCODING (R250, R435): the illegal-instruction fault of the slot that issued `s.word`. -/
def execUnassignedEncoding (s : State) : Host.Outcome State Fault Refusal := .next (freeze s 0x01 0)

/-! ### The word that a slot issues -/

/-- A context whose part of the sequencer buffer is lost: it is not shadowed (R340). -/
def dropWords (x : Ctx) : Ctx :=
  { x with slots := x.slots.map fun (n, sl) =>
      (n, { sl with frame := { sl.frame with words := [] }, frameUrg := { sl.frameUrg with words := [] } }) }

/-- A frame whose words were lost is captured anew; where that fails, its next replay meets the failure (R340). -/
def refilled (s : State) (p n : Nat) (f : Frame) : Frame × State :=
  if f.v && decide (f.words = []) then
    match capture s p n (f.base + 4) (f.lenM1.toNat + 1) with
    | (.words ws, s) => ({ f with words := ws }, s)
    | (_, s) => (f, s)
  else (f, s)

/-- THE SEQUENCER BUFFER OF CORE `p` IS REFILLED after a gang restore, a resume or a migration (R340). -/
def refillFrames (s : State) (p : Nat) : State :=
  (upTo 16).foldl (fun s n =>
    if (getSlot s p n).frame.v || (getSlot s p n).frameUrg.v then
      let (f, s) := refilled s p n (getSlot s p n).frame
      let (g, s) := refilled s p n (getSlot s p n).frameUrg
      updSlot s p n fun sl => { sl with frame := f, frameUrg := g }
    else s) s

/-- Put back the captured words of the frame in force. -/
def setFrameWords (sl : Slot) (ws : List (BitVec 32)) : Slot := setCurFrame sl { curFrame sl with words := ws }

/-- THE WORD AT A SLOT'S ISSUE (R337, R340, R434): the staggered captured word while a frame is set, its buffer
refilled where it was lost; else the word fetched at the PC. The slot may fault, park or wait instead. -/
def issueWord (s : State) (p n : Nat) : Except State (BitVec 32 × State) :=
  let sl := getSlot s p n
  let f := curFrame sl
  let bad := fun (s : State) (a : Word) (r : Fetched) => match r with
    | .fault c d => .error (freezeSlot s p n c a 0 d)
    | .miss node va k => .error (missSlot s p n node va k)
    | _ => .error s
  if f.v then
    if f.words = [] then
      match capture s p n (f.base + 4) (f.lenM1.toNat + 1) with
      | (.words ws, s) => .ok (stagger (ws.getD f.pos.toNat 0) f, updSlot s p n fun sl => setFrameWords sl ws)
      | (.illegal _ w, s) => .error (freezeSlot s p n 0x01 0 w)
      | (.stop a r, s) => bad s a r
    else .ok (stagger (f.words.getD f.pos.toNat 0) f, s)
  else match fetchAt s p n sl.pc with
    | (.word w, s) => .ok (w, s)
    | (r, s) => bad s sl.pc r

end Sys2Proof.Machine
end

