-- ==== Sys2Proof/Machine/Image.lean ====
section
/-! DEFINITION. Stores to the process image (R214, R216) and to the durable region (R132, R138, R146, R224). -/

namespace Sys2Proof.Machine

/-! ### Fields of a stream gate (R212) -/

def gtV (e : V512) : Bool := tbit e 195
def gtKind (e : V512) : Nat := bits e 197 196
def gtPorts (e : V512) : Nat := bits e 205 198
def gtMaxSdu (e : V512) : Nat := bits e 219 206
def gtCbs (e : V512) : Nat := bits e 235 220
def gtCir (e : V512) : Nat := bits e 255 236
def gtStride (e : V512) : Nat := bits e 281 256
def gtNbuf (e : V512) : Nat := bits e 285 282
def gtOfrz (e : V512) : Nat := bits e 305 286
def gtOtx (e : V512) : Nat := bits e 325 306
def gtIlen (e : V512) : Nat := bits e 336 326
def gtIoff (e : V512) : Nat := bits e 351 337
def gtCard (e : V512) : Nat := bits e 367 352
def gtUdpp (e : V512) : Nat := bits e 383 368
def gtCb (e : V512) : Bool := tbit e 384
def gtPcp (e : V512) : Nat := bits e 387 385
def gtVid (e : V512) : Nat := bits e 399 388
def gtMac (e : V512) : Nat := bits e 447 400
def gtAddr (e : V512) : Nat := bits e 511 448
def gtOpfx (e : V512) : Bool := tbit e 194

/-- Gates in force of a kind. -/
def validGates (s : State) (kind : Nat) : List Nat :=
  (upTo 64).filter fun g =>
    let e := (getGate s g).entry
    gtV e && decide (gtKind e = kind)

/-- Those whose job is registered: they pass frames (R212). -/
def liveGates (s : State) (kind : Nat) : List Nat := (validGates s kind).filter fun g => (findJob s (g + 1)).isSome

/-- The gate of a kind whose entry covers an offset in an image half. -/
def coveringGate (s : State) (kind o : Nat) : Option Nat :=
  (upTo 64).find? fun g =>
    let e := (getGate s g).entry
    gtV e && decide (gtKind e = kind) && decide (gtIoff e * 64 ≤ o) && decide (o < gtIoff e * 64 + gtIlen e)

/-- Base of an input half and of an output half. -/
def inHalf (h : Nat) : Nat := h % 2 * 0x200000
def outHalf (h : Nat) : Nat := 0x400000 + h % 2 * 0x100000

/-- Global address of an offset of the process image. -/
def imageAddr (o : Nat) : Word := BitVec.ofNat 64 (0xE2 * 2 ^ 56 + o)

/-- A 32-bit word of the image. -/
def imgWord (s : State) (o : Nat) : BitVec 32 := leWord 32 (memBytes s.image o 4)
/-- Write bytes of the image, clean or poison (R456). -/
def imgPut (s : State) (o : Nat) (bs : List Byte) (psn : Bool := false) : State :=
  let marks := poisonStore 8 s.imagePoison o bs.length psn
  { s with image := markedStore 8 s.image marks o bs, imagePoison := marks }
/-- Copy bytes of the image with their poison; the two places have one offset in a word. -/
def imgCopy (s : State) (dst src n : Nat) : State :=
  let bad := ((unitsOf 8 src n).filter s.imagePoison.contains).map fun k => k - src / 8 + dst / 8
  let marks := bad.foldl nadd (poisonStore 8 s.imagePoison dst n false)
  { s with image := markedStore 8 s.image marks dst (memBytes s.image src n), imagePoison := marks }
/-- Write a 32-bit word of the image. -/
def imgPutWord (s : State) (o : Nat) (v : BitVec 32) : State := imgPut s o (natBytes 4 v.toNat)

/-- Count a late store of a gate. -/
def countLate (s : State) (g : Option Nat) : State :=
  match g with | some g => updGate s g fun x => { x with late := x.late + 1 } | none => s

/-- A STORE TO THE PROCESS IMAGE (R214, R216): stamp words are read-only; an output entry takes a store only in the
current scan's half and before its freeze. Poison of an engine marks the image (R457). -/
def imageStore (s : State) (off : Nat) (bs : List Byte) (psn : Bool) : State :=
  let put := fun (s : State) => imgPut s off bs psn
  if off < 0x400000 then (if off % 0x200000 < 0x1000 then s else put s)
  else if off < 0x600000 then
    let h := (off - 0x400000) / 0x100000
    let o := off % 0x100000
    let g := coveringGate s 1 o
    if o < 0x1000 then s
    else if h ≠ s.stamp.toNat % 2 then countLate s g
    else match g with
      | none => put s
      | some k => if (getGate s k).frozen then countLate s g else imgPutWord (put s) (outHalf h + 0x40 + 4 * k) s.stamp
  else s

/-- What judges the store to an offset: its half, and the stamp words, the output gate that covers it, or none. -/
def imageKey (s : State) (a : Nat) : Nat × Nat :=
  if a < 0x400000 then (a / 0x200000, b2n (decide (a % 0x200000 < 0x1000)))
  else if a < 0x600000 then
    (a / 0x100000, if a % 0x100000 < 0x1000 then 0 else match coveringGate s 1 (a % 0x100000) with | none => 1 | some g => g + 2)
  else (6, 0)

/-- A long write cut where another entry begins: entries begin at 64-byte units (R212), so `first` judges the rest of its unit. -/
def imageRuns (s : State) (first : Nat) : Nat → List Byte → List (Nat × List Byte)
  | _, [] => []
  | a, b :: r =>
    let key := fun (x : Nat) => imageKey s (max first (x / 64 * 64))
    match imageRuns s first (a + 1) r with
    | (x, bs) :: rest => if key a = key (a + 1) then (a, b :: bs) :: rest else (a, [b]) :: (x, bs) :: rest
    | [] => [(a, [b])]

/-! ### The durable region -/

/-- Lines of 64 bytes of the carry set that a write touches (R222, R224). -/
def carryLines (l : PairLink) (off n : Nat) : List Nat :=
  (unitsOf 64 off n).filter fun k => l.windows.any fun e =>
    tbit e.2 63 && decide (bits e.2 23 12 ≤ k / 64) && decide (k / 64 ≤ bits e.2 23 12 + bits e.2 11 0)

/-- A carry-set line as a flit. -/
def carryFlit (s : State) (k : Nat) : Sent := .flit (1 :: natBytes 8 (64 * k) ++ memBytes s.durable (64 * k) 64)

/-- A write to the durable region: durable at once (R132); an active module sends the carry-set lines that it touches to the
standby (R224). -/
def durStore (s : State) (off : Nat) (bs : List Byte) (psn : Bool) : State :=
  let s := killResv s (0xE1 * 2 ^ 56 + off) bs.length
  let marks := poisonStore 32 s.durablePoison off bs.length psn
  let s := { s with durable := markedStore 32 s.durable marks off bs, durablePoison := marks }
  if s.pair.link && decide (s.pair.role = 1) then { s with sent := s.sent ++ (carryLines s.pair off bs.length).map (carryFlit s) } else s

end Sys2Proof.Machine
end

