-- ==== Sys2Proof/Machine/LsPerform.lean ====
section
/-! DEFINITION. What a core's network interface and local port do with a request to the core's buffers (R57, R87, R112,
R193, R297 to R301, R312, R313, R345 to R347, R369, R370, R456), and the held waits (R299). -/

namespace Sys2Proof.Machine

/-! ### Answers, records, the journal -/

/-- Answer part `k` of a request. -/
def answer (s : State) (r : Req) (k : Nat) (a : Answer) : State :=
  if r.tacked then s else
  match r.src with
  | .none | .hart _ => s
  | .partner => { s with sent := s.sent ++ [.partnerReply r.tag k a] }
  | .slot _ _ => { s with net := s.net ++ [.reply r.src r.tag k a] }

/-- Answer every part of a request alike. -/
def answerAll (s : State) (r : Req) (a : Answer) : State := r.parts.foldl (fun s q => answer s r q.lane a) s

/-- A write serialisation at a location (R152, TYPE 0). -/
def atom (arg : Nat) (key : BitVec 12) (addr : Word) : Resolution := { type := 0, arg := arg, agent := key, data := addr }

/-- The verdict of a replay on the resolutions of one operation after its first: they meet the records that follow; `fresh` at its
first arrival, when divergence is judged (R155, R488). -/
def gateRest (fresh : Bool) : List (BitVec 128) → List Resolution → Verdict
  | _, [] => .go
  | [], _ :: _ => .hold
  | h :: hs, x :: r =>
    if recMatches h x then gateRest fresh hs r
    else if fresh && (decide (recType h ≠ x.type) || decide (recAgent h = x.agent.toNat)) then .diverge
    else .hold

/-- The point's verdict on several resolutions of one operation, in order. -/
def gateAll (s : State) (job point : Nat) (fresh : Bool) (xs : List Resolution) : Verdict × State :=
  match xs with
  | [] => (.go, s)
  | x :: r =>
    match mortarMode s job with
    | 0 => (.go, s)
    | 2 =>
      match mortarGate s job point fresh x with
      | (.go, s) => (gateRest fresh ((handedTo (getMortar s job) point).drop 1) r, s)
      | v => v
    | _ => pairGate s job point xs.length x

/-- Leave the records of a performed operation. -/
def putAll (s : State) (job point : Nat) (xs : List Resolution) : State :=
  xs.foldl (fun s x => mortarPut s job point x) s

/-- The interface of core `p` accepts the event of a request and journals it with the units it wrote (R141, R148). -/
def commitAt (s : State) (p : Nat) (r : Req) (takes : Bool) (us : List JUnit) : State :=
  let accept := takes && decide (r.key.toNat < 3072)
  updCore s p fun c =>
    let t := acceptKey c.wide.accept r.key.toNat r.rsn
    let k : JUnit := { kind := 11, target := r.key.toNat, data := ((mget t r.key.toNat).getD r.rsn).setWidth 64 }
    let c := if accept then { c with wide := { c.wide with accept := t } } else c
    noteAuthor r.key.toNat (journalEng c (r.key.toNat % 16) (us ++ if accept then [k] else []))

/-- The access of a request, as the watch unit sees it. -/
def accessOf (r : Req) (off size kind sub : Nat) (rd wr : Bool) : Access :=
  { off := off, size := size, rd := rd, wr := wr, kind := kind, sub := sub, remote := r.remote, job := r.job, key := r.key, rsn := r.rsn }

/-- The outcome of an arrival: whether it has left the point, and the state. -/
abbrev Done := Bool × State

/-- Perform an operation at the interface of core `p` once the Mortar lets it: hold, declare divergence, or go. -/
def atPoint (s : State) (p : Nat) (r : Req) (xs : List Resolution) (act : State → State) : Done :=
  let point := logicalOf s p
  match gateAll s r.job point (!r.heldOp) xs with
  | (.go, s) => (true, act (putAll s r.job point xs))
  | (.hold, s) => (false, s)
  | (.diverge, s) => (true, answerAll (stopPoint s r.job point r.key.toNat) r (.raise 0x0B 0))

/-- A repeat is answered at a point, in the recorded order where its agent re-executes (R148, R471). -/
def asRepeat (s : State) (point : Nat) (xs : List Resolution) (act : State → State) : Done :=
  match xs with
  | x :: _ => match repeatTurn s point x with
    | some s => (true, act s)
    | none => (false, s)
  | [] => (true, act s)

/-! ### New values of an AMO (R300, R301, R456) -/

/-- The value that an AMO leaves, on `n` bytes. -/
def amoNew (sub n : Nat) (old y e : Nat) : Nat :=
  let w := 8 * n
  let m := 2 ^ w
  let sgn := fun (x : Nat) => if 2 ^ (w - 1) ≤ x then (x : Int) - 2 ^ w else (x : Int)
  match sub with
  | 0 => (old + y) % m
  | 1 => old &&& y
  | 2 => old ||| y
  | 3 => old ^^^ y
  | 4 => if sgn y < sgn old then y else old
  | 5 => if sgn old < sgn y then y else old
  | 6 => min old y
  | 7 => max old y
  | 8 => y
  | 9 => if old = e % m then y else old
  | 10 => (addVal .fp32 0 (valOf .fp32 old) (valOf .fp32 y)).1
  | _ => (addVal .f64 0 (valOf .f64 old) (valOf .f64 y)).1

/-! ### The local store -/

/-- Store bytes into core `p`'s local store for a request: data, bits, watch; the units written. -/
def lsPut (s : State) (p : Nat) (r : Req) (off : Nat) (bs : List Byte) (psn : Bool) (kind sub : Nat) (rd : Bool) : State :=
  let x := (getCore s p).res
  let s := updCtx s p fun x => lsStore x off bs psn r.key
  watchAccess s p (accessOf r off bs.length kind sub rd true) x

/-- Units of words after a write. -/
def unitsAt (s : State) (p off n : Nat) : List JUnit := lsUnits (getCore s p).res off n

/-- A repeat of a read-modify-write is not performed: its reply carries the location's value as it finds it (R148, R291). -/
def answerRepeat (s : State) (p : Nat) (r : Req) (off k n : Nat) : State :=
  let x := (getCore s p).res
  answer s r k (.value (memBytes x.ls off n) (poisonRead 8 x.lsPoison off n))

/-- Offsets and sizes of the bytes that a request names: of each part, and of a sub-byte store of each byte, since its bytes
are translated each for itself. -/
def reqSpans (r : Req) (offs : List Nat) : List (Nat × Nat) :=
  match r.act with
  | .storeSub _ _ => if offs.length = 1 then (offs.zip r.parts).map (fun e => (e.1, e.2.size)) else offs.map fun o => (o, 1)
  | _ => (offs.zip r.parts).map fun e => (e.1, e.2.size)

/-- Offset and bytes of each piece of an element that a sub-byte store writes. -/
def elemPieces (spans : List (Nat × Nat)) (bs : List Byte) : List (Nat × List Byte) :=
  match spans with
  | [(o, 1), (u, 1)] => if u = o + 1 then [(o, bs)] else [(o, bs.take 1), (u, bs.drop 1)]
  | _ => spans.map fun e => (e.1, bs)

/-- Write one part of a plain store. -/
def putPart (s : State) (p : Nat) (r : Req) (e : Nat × Part) : State := lsPut s p r e.1 e.2.data e.2.psn 1 0 false

/-- The element of a sub-byte store put into the bytes that hold it (R297). -/
def putElem (bs : List Byte) (bit : Nat) (six : Bool) (v : Nat) : List Byte :=
  let w := if six then 6 else 4
  let old := leNat bs
  natBytes bs.length (old - old / 2 ^ bit % 2 ^ w * 2 ^ bit + v % 2 ^ w * 2 ^ bit)

/-- What a full/empty form waits for (R298). -/
def feReady (x : Ctx) (form w : Nat) : Bool :=
  match form with
  | 0 | 1 | 3 => wordFull x w
  | 2 => !wordFull x w
  | _ => true

/-- The record of a full/empty form (R298). -/
def feRecord (x : Ctx) (r : Req) (form w : Nat) (addr : Word) : Resolution :=
  let setter := if form ≤ 3 then (mget x.lsSetter w).getD 0xFFF else 0xFFF
  { type := 1, arg := 3 * 2 ^ 8 + form, agent := r.key, data := BitVec.ofNat 64 (offset48 addr * 2 ^ 16 + setter.toNat) }

/-- The word and bit after a form; a poisoned word stays as it is (R298, R456). -/
def feEffect (x : Ctx) (form w : Nat) (data : List Byte) (key : BitVec 12) : Ctx :=
  if x.lsPoison.contains w then x
  else match form with
    | 0 => setWordFe x w false key
    | 1 => x
    | 2 | 3 => lsStore x (8 * w) data false key
    | 4 => setWordFe x w false key
    | _ => setWordFe x w true key

/-- Perform a full/empty form whose condition holds. -/
def feDo (s : State) (p : Nat) (r : Req) (form off : Nat) : Done :=
  let w := off / 8
  let q := r.parts.headD { addr := 0, size := 8 }
  let x := (getCore s p).res
  atPoint s p r [feRecord x r form w q.addr] fun s =>
    let bs := memBytes x.ls off 8
    let s := updCtx s p fun x => feEffect x form w q.data r.key
    let s := watchAccess s p (accessOf r off 8 3 form true (decide (form ≠ 1))) x
    let s := commitAt s p r true (if form = 1 then [] else unitsAt s p off 8)
    answer s r q.lane (.value bs (x.lsPoison.contains w))

/-- The ring object at an offset (R193). -/
def ringAt (x : Ctx) (off : Nat) : BitVec 256 := leWord 256 (memBytes x.ls off 32)
def ringBase (o : BitVec 256) : Word := BitVec.ofNat 64 (bits o 255 192)
def ringW (o : BitVec 256) : BitVec 32 := BitVec.ofNat 32 (bits o 191 160)
def ringR (o : BitVec 256) : BitVec 32 := BitVec.ofNat 32 (bits o 159 128)
def ringSlotLog (o : BitVec 256) : Nat := bits o 103 96
def ringSlots (o : BitVec 256) : Nat := bits o 95 80

/-- Address of ring slot `i`; a ring object of no slots has none, and gives a free value (log 6). -/
def ringSlot (s : State) (o : BitVec 256) (i : BitVec 32) : Word :=
  if ringSlots o = 0 then Config.freeWord s.draws
  else ringBase o + BitVec.ofNat 64 (i.toNat % ringSlots o * 2 ^ ringSlotLog o)

/-- Whether the condition of a held request holds (R299, R313, R346, R370). -/
def heldReady (x : Ctx) (r : Req) : Bool :=
  let off := r.phys.headD 0
  match r.act with
  | .fe form => feReady x form (off / 8)
  | .barrierWait gen | .barrierBoth gen => decide (bits (lsWord x (off / 8)) 31 0 ≠ gen.toNat)
  | .joinWatch => decide (lsWord x (off / 8) = 0)
  | .ringWait n => let o := ringAt x off; decide (n.toNat ≤ (ringW o - ringR o).toNat)
  | _ => true

/-- Perform a held request whose condition holds. -/
def heldDo (s : State) (p : Nat) (r : Req) : Done :=
  let off := r.phys.headD 0
  let x := (getCore s p).res
  let lane := match r.parts with | q :: _ => q.lane | [] => 0
  match r.act with
  | .fe form => feDo s p r form off
  | .barrierWait _ | .barrierBoth _ =>
    (true, answer s r lane (.value (memBytes x.ls off 4) (x.lsPoison.contains (off / 8))))
  | .joinWatch => (true, match r.src with
    | .slot q n => updSlot s q n fun sl => wakeIf (fun w => decide (w = .join)) sl
    | _ => s)
  | .ringWait _ =>
    let o := ringAt x off
    (true, answer s r lane (.value (natBytes 8 (ringSlot s o (ringR o)).toNat) (poisonRead 8 x.lsPoison off 32)))
  | _ => (true, s)

/-- Bytes of the local store that a held request is about. -/
def heldSpan : Act → Nat
  | .ringWait _ => 32
  | _ => 8

/-- A request held at core `p` may be performed: the core has power and the context of its job is not saved here (R174), its clock runs, and neither
LOCK nor a core-scope fault holds it (R422, R424). -/
def heldOpen (s : State) (p : Nat) (r : Req) : Bool :=
  let c := getCore s p
  !awayFor s p r.job && !clockStands s p && !faultHolds s p r.src && !lockTouches c (r.phys.headD 0) (heldSpan r.act)

/-- Perform the oldest held request that qualifies, if there is one. -/
def serveOnce (s : State) (p : Nat) : List Req → Done
  | [] => (false, s)
  | r :: rest =>
    if heldOpen s p r && heldReady (getCore s p).res r then
      match heldDo s p r with
      | (true, s) => (true, updCore s p fun c => { c with waits := c.waits.erase r })
      | (false, s) => serveOnce s p rest
    else serveOnce s p rest

/-- Repeat until no held request qualifies (R299). -/
def serveGo (p : Nat) : Nat → State → State
  | 0, s => s
  | n + 1, s => match serveOnce s p (getCore s p).waits with
    | (true, s) => serveGo p n s
    | (false, s) => s

/-- After a change of core `p`'s local store: held requests that now qualify are performed. -/
def serveWaits (s : State) (p : Nat) : State := serveGo p (getCore s p).waits.length s

/-- A request of a slot that is stopping, being stepped, or part of the outgoing context of a gang switch or of a saved one is not held:
its wait is withdrawn (R299, R406, R409). -/
def mayNotHold (s : State) (r : Req) : Bool :=
  match r.src with
  | .slot p n =>
    if (getCore s p).switching || savedFor s p r.job then true
    else let sl := getSlot s p n; sl.stepping || decide (sl.stopNext ≠ 0)
  | _ => false

/-- A request whose condition does not hold at its arrival: held, or refused when 64 waits are in use (R299, R453). -/
def holdWait (s : State) (p : Nat) (r : Req) (off : Nat) : State :=
  if mayNotHold s r then answerAll s r .withdrawn
  else if (getCore s p).waits.length < 64 then
    updCore s p fun c => { c with waits := c.waits ++ [{ r with phys := [off], heldOp := true }] }
  else answerAll s r (.waitfull { r with heldOp := false })

/-- Whether the interface of core `p` finds a request a repeat (R148); only slots have sender keys. One that was acknowledged or
dropped out is none: it has been accepted, or by no point. -/
def coreRepeat (s : State) (p : Nat) (r : Req) : Bool :=
  decide (r.key.toNat < 3072) && !r.tacked && !droppedOut s r.src r.tag && isRepeat (getCore s p).wide.accept r.key.toNat r.rsn

/-- A join-word update (R345, R347, R348): a subtract from 0 writes an error record and changes nothing. -/
def joinDo (s : State) (p : Nat) (r : Req) (off : Nat) (add : Option Nat) : Done :=
  let q := r.parts.headD { addr := 0, size := 8 }
  let x := (getCore s p).res
  let old := lsWord x (off / 8)
  let under := add.isNone && decide (old = 0)
  let xs := if under then [] else [atom (if add.isSome then 19 else 20) r.key q.addr]
  atPoint s p r xs fun s =>
    if under then
      answer (commitAt (record s 9 0x01 2 p r.job r.key.toNat q.addr) p r true []) r q.lane .tack
    else if x.lsPoison.contains (off / 8) then answer (commitAt s p r true []) r q.lane .tack
    else
      let new := match add with | some n => old + BitVec.ofNat 64 n | none => old - 1
      let s := lsPut s p r off (natBytes 8 new.toNat) false 2 0 true
      let s := commitAt s p r true (unitsAt s p off 8)
      answer s r q.lane .tack

/-- A barrier arrival (R313): the fault, or the word after the arrival. -/
def arriveDo (s : State) (p : Nat) (r : Req) (off : Nat) (wait : Option (BitVec 32)) : Done :=
  let q := r.parts.headD { addr := 0, size := 8 }
  let x := (getCore s p).res
  let w := lsWord x (off / 8)
  let count := bits w 63 48
  let arrived := bits w 47 32
  let gen := bits w 31 0
  if x.lsPoison.contains (off / 8) then (true, answer s r q.lane (.raise 0x05 q.addr))
  else if count = 0 ∨ count ≤ arrived then (true, answer s r q.lane (.raise 0x08 q.addr))
  else
    let last := decide (arrived + 1 = count)
    let xs : List Resolution := if last then [{ type := 2, arg := count, agent := r.key, data := q.addr }] else []
    atPoint s p r xs fun s =>
      let new := if last then count * 2 ^ 48 + (gen + 1) % 2 ^ 32 else count * 2 ^ 48 + (arrived + 1) * 2 ^ 32 + gen
      let s := lsPut s p r off (natBytes 8 new) false 6 0 false
      let s := commitAt s p r true (unitsAt s p off 8)
      match wait with
      | none => answer s r q.lane (.value (natBytes 4 gen) false)
      | some y =>
        let now := new % 2 ^ 32
        if now ≠ y.toNat then answer s r q.lane (.value (natBytes 4 now) false) else holdWait s p r off

/-- AN ACT ON THE LOCAL STORE OF CORE `p` at the offsets of its parts, all checks made. -/
def lsAct (s : State) (p : Nat) (r : Req) (offs : List Nat) : Done :=
  let x := (getCore s p).res
  let off := offs.headD 0
  let q := r.parts.headD { addr := 0, size := 8 }
  let n := q.size
  let psn := poisonRead 8 x.lsPoison off n
  let again := coreRepeat s p r
  match r.act with
  | .load | .fetch | .ringRead =>
    (true, (offs.zip r.parts).foldl (fun s (off, q) =>
      let s := watchAccess s p (accessOf r off q.size 0 0 true false) x
      answer s r q.lane (.value (memBytes x.ls off q.size) (poisonRead 8 x.lsPoison off q.size))) s)
  | .store =>
    if again then asRepeat s (logicalOf s p) [atom 16 r.key q.addr] fun s => answerAll s r .tack
    else atPoint s p r (r.parts.map fun q => atom 16 r.key q.addr) fun s =>
      let s := (offs.zip r.parts).foldl (fun s e => putPart s p r e) s
      let us := (offs.zip r.parts).flatMap fun e => unitsAt s p e.1 e.2.size
      answerAll (commitAt s p r true us) r .tack
  | .storeSub bit six =>
    if again then asRepeat s (logicalOf s p) [atom 17 r.key q.addr] fun s => answerAll s r .tack
    else atPoint s p r [atom 17 r.key q.addr] fun s =>
      let spans := reqSpans r offs
      let bs := putElem (spans.flatMap fun e => memBytes x.ls e.1 e.2) bit six (leNat q.data)
      let ps := elemPieces spans bs
      -- an element is never a whole unit: it leaves the poison of its word as it was (R456)
      let s := ps.foldl (fun s e => lsPut s p r e.1 e.2 q.psn 4 0 false) s
      answerAll (commitAt s p r true (ps.flatMap fun e => unitsAt s p e.1 e.2.length)) r .tack
  | .amo sub e =>
    let bs := memBytes x.ls off n
    if again then asRepeat s (logicalOf s p) [atom sub r.key q.addr] fun s => answerRepeat s p r off q.lane n
    else atPoint s p r [atom sub r.key q.addr] fun s =>
      let s := if psn then watchAccess s p (accessOf r off n 2 sub true true) x
        else lsPut s p r off (natBytes n (amoNew sub n (leNat bs) (leNat q.data) e.toNat)) false 2 sub true
      answer (commitAt s p r true (if psn then [] else unitsAt s p off n)) r q.lane (.value bs psn)
  | .fe form =>
    if again then asRepeat s (logicalOf s p) [feRecord x r form (off / 8) q.addr] fun s => answerRepeat s p r off q.lane 8
    else if feReady x form (off / 8) then feDo s p r form off
    else (true, holdWait s p r off)
  | .barrierArrive =>
    if again then (true, answerRepeat s p r off q.lane 4) else arriveDo s p r off none
  | .barrierWait y =>
    if bits (lsWord x (off / 8)) 31 0 ≠ y.toNat then (true, answer s r q.lane (.value (memBytes x.ls off 4) psn))
    else (true, holdWait s p r off)
  | .barrierBoth y =>
    if again then
      (if bits (lsWord x (off / 8)) 31 0 ≠ y.toNat then (true, answer s r q.lane (.value (memBytes x.ls off 4) psn))
       else (true, holdWait s p r off))
    else arriveDo s p r off (some y)
  | .joinAdd k =>
    if again then asRepeat s (logicalOf s p) [atom 19 r.key q.addr] fun s => answerAll s r .tack else joinDo s p r off (some k)
  | .joinSub =>
    if again then asRepeat s (logicalOf s p) [atom 20 r.key q.addr] fun s => answerAll s r .tack else joinDo s p r off none
  | .joinWatch =>
    if lsWord x (off / 8) = 0 then (true, answer s r q.lane (.value [] false))
    else if mayNotHold s r then (true, answerAll s r .withdrawn)
    else if (getCore s p).waits.length < 64 then
      (true, answer (updCore s p fun c => { c with waits := c.waits ++ [{ r with phys := [off] }] }) r q.lane .notYet)
    else (true, answer s r q.lane (.waitfull r))
  | .ringInit =>
    if again then asRepeat s (logicalOf s p) [atom 16 r.key q.addr] fun s => answerAll s r .tack
    else atPoint s p r [atom 16 r.key q.addr] fun s =>
      let s := if poisonRead 8 x.lsPoison off 32 then s
        else lsPut s p r off ((q.data.take 16) ++ natBytes 8 0 ++ (q.data.drop 24)) q.psn 2 0 true
      answerAll (commitAt s p r true (unitsAt s p off 32)) r .tack
  | .ringWait k =>
    let o := ringAt x off
    if ringSlots o < k.toNat || (!poisonRead 8 x.lsPoison off 32 && !ringClean o) then (true, answer s r q.lane (.raise 0x07 q.addr))
    else if heldReady x { r with phys := [off] } then heldDo s p { r with phys := [off] }
    else (true, holdWait s p r off)
  | .ringRelease k =>
    let o := ringAt x off
    if again then asRepeat s (logicalOf s p) [atom 0 r.key q.addr] fun s => answerAll s r .tack
    else if !poisonRead 8 x.lsPoison off 32 && (!ringClean o || decide ((ringW o - ringR o).toNat < k.toNat)) then (true, answer s r q.lane (.raise 0x07 q.addr))
    else atPoint s p r [atom 0 r.key q.addr] fun s =>
      let s := if poisonRead 8 x.lsPoison off 32 then s
        else lsPut s p r (off + 16) (natBytes 4 (ringR o + k).toNat) false 2 0 true
      answerAll (commitAt s p r true (unitsAt s p (off + 16) 4)) r .tack

/-- An act at a core's interface, and then the held requests that it lets through. -/
def lsPerform (s : State) (p : Nat) (r : Req) (offs : List Nat) : Done :=
  match lsAct s p r offs with
  | (true, s) => (true, serveWaits s p)
  | d => d

/-! ### The core's own port (R88, R112, R287) -/

/-- Whether an act by local address is one that the interface performs rather than the port (R112, R297, R298). -/
def byInterface : Act → Bool
  | .load | .store | .fetch => false
  | _ => true

/-- A plain load or store by local address at the core's own port: no record, no repeat check (R291). -/
def portPart (s : State) (p : Nat) (r : Req) (q : Part) : State :=
  let c := getCore s p
  let store := decide (r.act = .store)
  match bufferOf (offset48 q.addr) with
  | some (0, off) =>
    if store then answer (putPart s p r (off, q)) r q.lane .tack
    else
      let s := watchAccess s p (accessOf r off q.size 0 0 true false) c.res
      answer s r q.lane (.value (memBytes c.res.ls off q.size) (poisonRead 8 c.res.lsPoison off q.size))
  | some (1, off) => answer s r q.lane (.value (memBytes c.wb off q.size) (poisonRead 8 c.wbPoison off q.size))
  | some (2, off) =>
    if store then
      answer (updCore s p fun c => putAb c off q.data q.psn) r q.lane .tack
    else answer s r q.lane (.value (memBytes c.ab off q.size) (poisonRead 8 c.abPoison off q.size))
  | some (_, off) =>
    if store then
      answer (updWide s p fun w => putAcc w off q.data q.psn) r q.lane .tack
    else answer s r q.lane (.value (memBytes c.wide.acc off q.size) (poisonRead 8 c.wide.accPoison off q.size))
  | none => s

/-- The parts of a request at the core's own port. -/
def portParts (s : State) (p : Nat) (r : Req) : State := serveWaits (r.parts.foldl (fun s q => portPart s p r q) s) p

/-- The name of a sender at the port in the table of accepted events: its request to the interface carries the same RSN (R296). -/
def portKey (r : Req) : Nat := 0x1000 + r.key.toNat

/-- A request by local address (dst 0x1000 + p). A store that is one of several requests is accepted by its RSN, so that its
instruction does not perform it again when another of them has to be sent anew (R296). -/
def portPerform (s : State) (p : Nat) (r : Req) : Done :=
  if byInterface r.act then lsPerform s p r (r.parts.map fun q => offset48 q.addr)
  else if r.act = .store && r.oneOf then
    if !droppedOut s r.src r.tag && isRepeat (getCore s p).wide.accept (portKey r) r.rsn then (true, answerAll s r .tack)
    else
      let t := portParts s p r
      let t := commitAt t p r false (r.parts.flatMap fun q => storeUnits (getCore t p) (offset48 q.addr, q.size))
      (true, updWide t p fun w => { w with accept := acceptKey w.accept (portKey r) r.rsn })
  else (true, portParts s p r)

end Sys2Proof.Machine
end

