-- ==== Sys2Proof/Machine/MemNode.lean ====
section
/-! DEFINITION. What a memory node and the Footing port do with a request whose checks have passed (R112, R131, R146, R148,
R152, R153, R297, R300, R301, R456). -/

namespace Sys2Proof.Machine

/-- AGENT of the records that a request leaves: 0xFFF for the partner module (R153). -/
def recAgentOf (r : Req) : BitVec 12 := if r.src = .partner then 0xFFF else r.key

/-- Perform an operation at a point once the Mortar lets it: hold, declare divergence, or go. -/
def atNode (s : State) (point : Nat) (r : Req) (xs : List Resolution) (act : State → State) : Done :=
  match gateAll s r.job point (!r.heldOp) xs with
  | (.go, s) => (true, act (putAll s r.job point xs))
  | (.hold, s) => (false, s)
  | (.diverge, s) => (true, answerAll (stopPoint s r.job point r.key.toNat) r (.raise 0x0B 0))

/-! ### Memory nodes -/

/-- Whether memory node `n` finds a request a repeat (R148): the partner's slots have a table of their own, harts none. A store
that was acknowledged before is none, and one that came back from a drop-out neither (R135). -/
def nodeRepeat (s : State) (n : Nat) (r : Req) : Bool :=
  !r.tacked && !droppedOut s r.src r.tag && match r.src with
  | .slot _ _ => isRepeat (getNode s n).accept r.key.toNat r.rsn
  | .partner => isRepeat (getNode s n).acceptPartner r.key.toNat r.rsn
  | _ => false

/-- Memory node `n` accepts the event of a request. -/
def nodeAccept (s : State) (n : Nat) (r : Req) : State :=
  match r.src with
  | .slot _ _ => updNode s n fun m => { m with accept := acceptKey m.accept r.key.toNat r.rsn }
  | .partner => updNode s n fun m => { m with acceptPartner := acceptKey m.acceptPartner r.key.toNat r.rsn }
  | _ => s

/-- A store of a request at a physical address. -/
def memPut (s : State) (r : Req) (pa : Nat) (bs : List Byte) (psn : Bool) : State :=
  noteWriter (slWrite s pa bs psn r.nud.toNat r.job r.launch 0) pa r.key.toNat

/-- The bytes of an element at their physical addresses: one access where they stand side by side in a line (R290). -/
def putBytes (s : State) (r : Req) (psn : Bool) : List Nat → List Byte → State
  | [p, q], [x, y] => if q = p + 1 ∧ p / 128 = q / 128 then memPut s r p [x, y] psn else memPut (memPut s r p [x] psn) r q [y] psn
  | [p], [x] => memPut s r p [x] psn
  | _, _ => s

/-- Store each part at its physical address. -/
def memStores (s : State) (r : Req) : List (Nat × Part) → State
  | [] => s
  | (pa, q) :: rest => memStores (memPut s r pa q.data q.psn) r rest

/-- Load each part from its physical address and answer it. -/
def memLoads (s : State) (r : Req) : List (Nat × Part) → State
  | [] => s
  | (pa, q) :: rest =>
    let (bs, psn, s) := slRead s pa q.size r.nud.toNat r.job r.launch
    memLoads (answer s r q.lane (.value bs psn)) r rest

/-- AN ACT AT MEMORY NODE `n` on physical addresses: of each part, and of a sub-byte store of each byte. -/
def memAct (s : State) (n : Nat) (r : Req) (pas : List Nat) : Done :=
  let point := 0x100 + n
  let k := recAgentOf r
  let q := r.parts.headD { addr := 0, size := 8 }
  let pa := pas.headD 0
  let again := nodeRepeat s n r
  match r.act with
  | .store =>
    if again then asRepeat s point [atom 16 k q.addr] fun s => answerAll s r .tack
    else atNode s point r (r.parts.map fun q => atom 16 k q.addr) fun s =>
      answerAll (nodeAccept (memStores s r (pas.zip r.parts)) n r) r .tack
  | .storeSub bit six =>
    if again then asRepeat s point [atom 17 k q.addr] fun s => answerAll s r .tack
    else atNode s point r [atom 17 k q.addr] fun s =>
      let old := pas.map fun pa => ((memPeek s pa 1).1).headD 0
      let new := putElem old bit six (leNat q.data)
      answerAll (nodeAccept (putBytes s r q.psn pas new) n r) r .tack
  | .amo sub e =>
    let (bs, psn) := memPeek s pa q.size
    if again then asRepeat s point [atom sub k q.addr] fun s => answer s r q.lane (.value bs psn)
    else atNode s point r [atom sub k q.addr] fun s =>
      -- one access of the slice, which reads and writes the line (R290)
      let s := if psn then (slRead s pa q.size 30 r.job r.launch).2.2
        else memPut s { r with nud := 30 } pa (natBytes q.size (amoNew sub q.size (leNat bs) (leNat q.data) e.toNat)) false
      answer (nodeAccept s n r) r q.lane (.value bs psn)
  | _ => (true, memLoads s r (pas.zip r.parts))

/-! ### The Footing port (R146, R504) -/

/-- Whether the Footing port finds a request a repeat: it keeps its table like a node (R148). -/
def footRepeat (s : State) (r : Req) : Bool :=
  !droppedOut s r.src r.tag && match r.src with
  | .slot _ _ => isRepeat s.footAccept r.key.toNat r.rsn
  | _ => false

/-- The port accepts the event of a request. -/
def footTake (s : State) (r : Req) : State :=
  match r.src with
  | .slot _ _ => { s with footAccept := acceptKey s.footAccept r.key.toNat r.rsn }
  | _ => s

/-- Bytes of the durable region and whether they hold poison. -/
def durRead (s : State) (off n : Nat) : List Byte × Bool := (memBytes s.durable off n, poisonRead 32 s.durablePoison off n)

/-- AN ACT AT THE FOOTING PORT. -/
def footAct (s : State) (r : Req) : Done :=
  let q := r.parts.headD { addr := 0, size := 8 }
  let off := offset48 q.addr
  let (bs, psn) := durRead s off q.size
  let again := footRepeat s r
  match r.act with
  | .store =>
    if again then asRepeat s 0x300 [atom 16 r.key q.addr] fun s => answerAll s r .tack
    else atNode s 0x300 r (r.parts.map fun q => atom 16 r.key q.addr) fun s =>
      answerAll (footTake (r.parts.foldl (fun s q => durStore s (offset48 q.addr) q.data q.psn) s) r) r .tack
  | .amo sub e =>
    if again then asRepeat s 0x300 [atom sub r.key q.addr] fun s => answer s r q.lane (.value bs psn)
    else atNode s 0x300 r [atom sub r.key q.addr] fun s =>
      let s := if psn then s
        else durStore s off (natBytes q.size (amoNew sub q.size (leNat bs) (leNat q.data) e.toNat)) false
      answer (footTake s r) r q.lane (.value bs psn)
  | _ => (true, r.parts.foldl (fun s q =>
      let (bs, psn) := durRead s (offset48 q.addr) q.size
      answer s r q.lane (.value bs psn)) s)

end Sys2Proof.Machine
end

