-- ==== Sys2Proof/Machine/Regs.lean ====
section
/-! DEFINITION. Stores to node fields 0xE0 and 0xE2 to 0xE5 by slots, harts and engines (R161, R214, R226, R457). -/

namespace Sys2Proof.Machine

/-- A write that a node performs in the very next step. -/
def queuedWrite : Turn → Bool
  | .event .registerWrite a => a.flag
  | _ => false

/-- A write of a register whose effect follows in the very next step, before anything else can reach the node (R115, R121;
log 19); those of one access follow in its order (R191). -/
def queueWrite (s : State) (nf o : Nat) (bs : List Byte) : State :=
  { s with agenda := s.agenda.takeWhile queuedWrite ++ .event .registerWrite { n := nf * 2 ^ 28 + o, bytes := bs, flag := true }
      :: s.agenda.dropWhile queuedWrite }

/-- A store by a slot, a hart or an engine to node field `nf`: local memory of a hart, the process image and the vision
buffers take it at once. -/
def regStore (s : State) (nf o : Nat) (bs : List Byte) (psn : Bool := false) : State :=
  match nf with
  | 0xE2 => if o < 0x600000 then imageStore s o bs psn else queueWrite s nf o bs
  | 0xE3 =>
    if o < 0xC00000 then { s with vbuf := memStore s.vbuf o bs, vbufPoison := poisonStore 8 s.vbufPoison o bs.length false } else s
  | 0xE0 =>
    match hartWindow o with
    | some (h, a) => updHart (killResv s (0xE0 * 2 ^ 56 + o) bs.length) h fun t => { t with mem := memStore t.mem a bs }
    | none => queueWrite s nf o bs
  | _ => queueWrite s nf o bs

end Sys2Proof.Machine
end

