-- ==== Sys2Proof/Machine/Arrive.lean ====
section
/-! DEFINITION. A request at its owning node (R99, R109, R112, R115, R161, R172, R174, R422, R424, R432, R451, R457,
R461): refusals, translation, the TACK, and the act. -/

namespace Sys2Proof.Machine

/-- What becomes of a request that arrives: it has left the fabric, it stays there as given, or it drops out at core `p`
for a saved context and keeps its place (R174). -/
inductive Delivered where
  | gone (s : State)
  | stay (s : State) (r : Req)
  | out (s : State) (p : Nat) (r : Req)
  deriving Repr

/-- Refuse every part with a NACK (R451). -/
def nackAll (s : State) (r : Req) (code : Nat) : State := r.parts.foldl (fun s q => answer s r q.lane (.nack code q.addr)) s

/-- Raise a thread fault in the requesting slot (R432). -/
def raiseAll (s : State) (r : Req) (code : Nat) (addr : Word) : State := answerAll s r (.raise code addr)

/-- Whether an act reads, for the windows of R161, whose WR grants stores and AMOs. -/
def actReads : Act → Bool
  | .load | .fetch | .ringRead | .ringWait _ | .joinWatch => true
  | _ => false
/-- Whether the act needs write permission. -/
def actWrites (a : Act) : Bool := !actReads a
/-- Whether the page tables must grant a read: loads and atomics (R99 kind 2). Full/empty forms, barrier instructions, join
updates and ring updates count as stores (log 70). -/
def pageReads : Act → Bool
  | .amo _ _ => true
  | a => actReads a

/-- The addresses to translate: of each part, and of a sub-byte store of each byte. -/
def reqAddrs (r : Req) : List Nat :=
  match r.act with
  | .storeSub _ _ => r.parts.flatMap fun q => (upTo q.size).map fun i => offset48 q.addr + i
  | _ => r.parts.map fun q => offset48 q.addr

/-- Translate each address in turn: the results, or the first fault with its address. -/
def translateAll (s : State) (at_ : Nat) (r : Req) (loc : Bool) : List Nat → (Except (Nat × Nat) (List Nat)) × State
  | [] => (.ok [], s)
  | a :: rest =>
    match translate s at_ r.job a (pageReads r.act) (actWrites r.act) loc (decide (r.src = .partner)) with
    | (.error k, s) => (.error (k, a), s)
    | (.ok x, s) =>
      match translateAll s at_ r loc rest with
      | (.ok xs, s) => (.ok (x :: xs), s)
      | e => e

/-- A translation fault of a request (R109): the parts are answered, and a notice leaves for the collector. -/
def missReq (s : State) (node : Nat) (r : Req) (kinds va : Nat) : State :=
  let s := answerAll s r (.tfault kinds va)
  match r.src with
  | .slot p sl => { s with net := s.net ++ [.notice node r.job va kinds p sl] }
  | _ => s

/-- A request is the store of an STRL: its slot awaits the answer. -/
def isRelease (s : State) (r : Req) : Bool :=
  match r.src with
  | .slot p n => match (getSlot s p n).pend with
    | some d => decide (d.tag = r.tag) && (match d.instr with | .strl .. => true | _ => false)
    | none => false
  | _ => false

/-- Whether a request may be acknowledged before it is performed (R115): a plain store of a job whose Mortar is off. A
release is acknowledged when it is performed, so that it precedes every later acquire of its slot (R119 item 6; log 9). -/
def mayTack (s : State) (r : Req) (tackOnly : Bool) : Bool :=
  tackOnly && !r.tacked && decide (r.act = .store) && !isRelease s r && decide (mortarMode s r.job = 0)

/-- Acknowledge a store and queue it for performance. -/
def tackReq (s : State) (r : Req) (phys : List Nat) : Delivered :=
  .stay (answerAll s r .tack) { r with tacked := true, phys := phys }

/-- The outcome of an act: it has left its point, or it is held there (R154, R155). -/
def deliverDone (r : Req) (phys : List Nat) : Done → Delivered
  | (true, s) => .gone s
  | (false, s) => .stay s { r with heldOp := true, phys := phys }

/-- A REQUEST AT MEMORY NODE `n` (R95, R96, R115): one for a block that switches over is held (R460). -/
def arriveMem (s : State) (n : Nat) (r : Req) (tackOnly : Bool) : Delivered :=
  if r.tacked then (if r.phys.any (blockHeld s) then .stay s r else deliverDone r r.phys (memAct s n r r.phys))
  else if nodeFenced s n then .gone (nackAll s r 0x01)
  else if (findJob s r.job).isNone then .gone (nackAll s r 0x07)
  else match translateAll s n r false (reqAddrs r) with
    | (.error (k, va), s) => .gone (missReq s n r k va)
    | (.ok pas, s) =>
      if pas.any (blockHeld s) then .stay s r
      else if mayTack s r tackOnly then tackReq s r pas else deliverDone r pas (memAct s n r pas)

/-- A request waits at the interface of core `p` for LOCK or a core-scope fault to end (R422, R424). -/
def holdAtLock (s : State) (p : Nat) (r : Req) : Delivered :=
  .gone (updCore s p fun c => { c with lockHeld := c.lockHeld ++ [r] })

/-- A request at core `p` whose translation is done. -/
def actAtCore (s : State) (p : Nat) (r : Req) (offs : List Nat) (tackOnly : Bool) : Delivered :=
  let ps := reqSpans r offs
  match (ps.zip (upTo ps.length)).find? fun e => inTaskArea e.1.1 e.1.2 with
  | some (_, i) => .gone (raiseAll s r 0x04 (r.parts.getD i (r.parts.headD { addr := 0, size := 8 })).addr)
  | none =>
    if ps.any fun e => lockTouches (getCore s p) e.1 e.2 then holdAtLock s p r
    else if mayTack s r tackOnly then tackReq s r offs
    else deliverDone r offs (lsPerform s p r offs)

/-- A REQUEST AT THE INTERFACE OF LOGICAL CORE `lc` (R97, R112, R115, R174). -/
def arriveCore (s : State) (lc : Nat) (r : Req) (tackOnly : Bool) : Delivered :=
  let p := physOf s lc
  if !r.tacked && (getCluster s (clusterOf p)).fenced then .gone (nackAll s r 0x01)
  else if !r.tacked && !lpctV s lc then .gone (nackAll s r 0x03)
  else if !r.tacked && (findJob s r.job).isNone then .gone (nackAll s r 0x07)
  else if clockStands s p then .stay s r
  else if awayFor s p r.job then .out s p r
  else if faultHolds s p r.src then holdAtLock s p r
  else if r.tacked then actAtCore s p r r.phys false
  else match translateAll s p r true (reqAddrs r) with
    | (.error (k, va), s) => .gone (missReq s (0x40 + p) r k va)
    | (.ok offs, s) => actAtCore s p r offs tackOnly

/-- Every part lies in a window of the job (R161). -/
def windowsOk (s : State) (nf : Nat) (r : Req) : Bool :=
  r.parts.all fun q => windowOk s r.job nf (offset48 q.addr) q.size (actReads r.act) (actWrites r.act)

/-- First address of a request. -/
def reqAddr (r : Req) : Word := (r.parts.headD { addr := 0, size := 8 }).addr

/-- A REQUEST AT THE FOOTING PORT (R146). -/
def arriveFoot (s : State) (r : Req) : Delivered :=
  if edgeFenced s 0xE1 then .gone (nackAll s r 0x01)
  else if (findJob s r.job).isNone then .gone (nackAll s r 0x07)
  else if !windowsOk s 0xE1 r then .gone (raiseAll s r 0x04 (reqAddr r))
  else deliverDone r [] (footAct s r)

/-- Perform a load or store of registers, part by part. -/
def regParts (s : State) (nf : Nat) (r : Req) : List Part → State
  | [] => s
  | q :: rest =>
    let o := offset48 q.addr
    if actWrites r.act then regParts (answer (regStore s nf o q.data) r q.lane .tack) nf r rest
    else
      let psn := regPoison s nf o q.size
      let (bs, s) := regRead s nf o q.size
      regParts (answer s r q.lane (.value bs psn)) nf r rest

/-- A REQUEST AT A NODE OF FIELDS 0xE0 AND 0xE2 TO 0xE5 (R161, R215, R226, R457): registers leave no Mortar record. -/
def arriveReg (s : State) (nf : Nat) (r : Req) : Delivered :=
  let key := nf * 4096 + r.key.toNat
  if edgeFenced s nf then .gone (nackAll s r 0x01)
  else if (findJob s r.job).isNone then .gone (nackAll s r 0x07)
  else if !windowsOk s nf r then .gone (raiseAll s r 0x04 (reqAddr r))
  else if actWrites r.act && r.parts.any (fun q => q.psn) then .gone (nackAll s r 0x08)
  else if r.parts.any fun q => latchHolds s nf (offset48 q.addr) then .stay s r
  else if actReads r.act then .gone (regParts s nf r r.parts)
  else if !droppedOut s r.src r.tag && isRepeat s.regAccept key r.rsn then .gone (answerAll s r .tack)
  else .gone (regParts { s with regAccept := acceptKey s.regAccept key r.rsn } nf r r.parts)

/-- A store as the pair link carries it to the partner; a byte after poisoned data says so (R456; log 22). -/
def flitOf (r : Req) : List Byte := r.parts.flatMap fun q => natBytes 8 q.addr.toNat ++ q.data ++ if q.psn then [1] else []

/-- A REQUEST THROUGH 0xF0 (R461): what the partner holds and answers is free (log 6); with the link down it is refused. -/
def arrivePartner (s : State) (r : Req) : Delivered :=
  if edgeFenced s 0xF0 then .gone (nackAll s r 0x01)
  else if !s.pair.link then .gone (nackAll s r 0x02)
  else
    let (k, s) := drawNat s
    let (x, s) := drawNat s
    if k % 2 = 1 then .gone (missReq s 0x20 r (k / 2 % 63 + 1) (offset48 (reqAddr r)))
    else
      let s := if actReads r.act then s else { s with sent := s.sent ++ [.flit (flitOf r)] }
      .gone (match r.act with
        | .load | .amo _ _ => r.parts.foldl (fun s q =>
            answer s r q.lane (.value ((upTo q.size).map fun i => (Config.freeWord (x + i)).setWidth 8) (decide (k / 2 % 2 = 1)))) s
        | _ => answerAll s r .tack)

/-- A REQUEST AT ITS DESTINATION, by the codes of `destOf`. -/
def arriveAt (s : State) (dst : Nat) (r : Req) (tackOnly : Bool) : Delivered :=
  if 0x1000 ≤ dst then deliverDone r [] (portPerform s (dst - 0x1000) r)
  else if dst < 0x100 then arriveCore s dst r tackOnly
  else if dst < 0x120 then arriveMem s (dst - 0x100) r tackOnly
  else if dst = 0x300 then arriveFoot s r
  else if dst = 0x500 then arrivePartner s r
  else arriveReg s (dst - 0x200 + 0xE0) r

/-- Home nodes, other than the one it goes to, of the bytes of a sub-byte store that lies across two nodes. -/
def farNodes (dst : Nat) (r : Req) : List Nat :=
  if 0x100 ≤ dst ∧ dst < 0x120 then ((reqAddrs r).map fun a => 0x100 + homeNode a).filter (· ≠ dst) else []

/-- An earlier sub-byte store of the same source and job has a byte at a node. -/
def elementAhead (s : State) (n dst : Nat) (r : Req) : Bool :=
  (s.net.take n).any fun m => match m with
    | .req d q => decide (q.src = r.src) && decide (q.job = r.job) && (farNodes d q).contains dst
    | _ => false

/-- Something earlier of the same source and job to the same destination waits (R119, R121); two requests of the hardware itself
have no program order. -/
def behind (s : State) (n : Nat) (dst : Nat) (r : Req) : Bool :=
  earlierWaits s n r.src r.job dst none || elementAhead s n dst r || (farNodes dst r).any fun d => earlierWaits s n r.src r.job d none

/-- Put an element at a position. -/
def linsert {α : Type} (l : List α) (n : Nat) (x : α) : List α := l.take n ++ x :: l.drop n

/-- Deliver message `n`, a request whose act is of the kind asked for; otherwise nothing happens. -/
def deliver (s : State) (n : Nat) (kind : Act → Bool) (tackOnly : Bool) : State :=
  match s.net[n]? with
  | some (.req dst r) =>
    if !kind r.act || behind s n dst r then s
    else match arriveAt { s with net := ldrop s.net n } dst r tackOnly with
      | .gone s => s
      | .stay s r => { s with net := linsert s.net n (.req dst r) }
      | .out s p r => { s with net := linsert s.net n (.held p r) }
  | _ => s

/-- Full/empty forms and barrier acts have events of their own. -/
def isFe : Act → Bool
  | .fe _ => true
  | _ => false
def isBarrier : Act → Bool
  | .barrierArrive | .barrierWait _ | .barrierBoth _ => true
  | _ => false

/-- MEMORY_REQUEST_ARRIVE (R115): message `n`; `flag` asks for the acknowledgement alone. -/
def execMemoryRequestArrive (s : State) : Host.Outcome State Fault Refusal :=
  .next (deliver s s.input.n (fun a => !isFe a && !isBarrier a) s.input.flag)

/-- FE_REQUEST_ARRIVE (R298, R299): message `n`. -/
def execFeRequestArrive (s : State) : Host.Outcome State Fault Refusal := .next (deliver s s.input.n isFe false)

/-- BARRIER_ARRIVAL (R313): message `n`. -/
def execBarrierArrival (s : State) : Host.Outcome State Fault Refusal := .next (deliver s s.input.n isBarrier false)

end Sys2Proof.Machine
end

