-- ==== Sys2Proof/Machine/Reply.lean ====
section
/-! DEFINITION. Replies at a Waiting slot (R48, R109, R115, R296, R299, R346, R406, R409, R432, R433, R451, R453). -/

namespace Sys2Proof.Machine

/-- A wait that ends without retirement: the slot parks, or freezes where a step or a stop awaited the reply. -/
def endedWait (sl : Slot) (why : Park) : Slot :=
  if freezesNext sl then
    { sl with st := .frozen, park := .none, pend := none, cause := nextCause sl, dpc := sl.pc.setWidth 48, stepping := false
              stopNext := 0, wdrn := decide (why = .reissue) }
  else { sl with st := .parked, park := why, pend := none }

/-- What the slot popped at issue goes back, and its wait ends. -/
def endWait (s : State) (p n : Nat) (d : Pend) (why : Park) : State :=
  updSlot (undoPend s p n (some d)) p n fun sl => endedWait sl why

/-- A LAUNCH whose join add failed has started nothing (R348, R433). -/
def undoLaunch (s : State) (d : Pend) : State :=
  match d.instr with
  | .launch _ _ _ =>
    let l := bits d.acc 47 32
    match launchRec s l with
    | none => s
    | some r =>
      if tbit d.acc 63 || decide (r.st ≠ .running) then s
      else levelDown (updCore s (physOf s (l / 256)) fun c => { c with launches := c.launches.filter fun x => x.seq ≠ r.seq }) r.job r.phase
  | _ => s

/-- The watch of a SYNC still stands at its owner (R346). -/
def watchStands (s : State) (p n tag : Nat) : Bool :=
  s.cores.any fun (_, c) => c.waits.any fun r => decide (r.src = .slot p n) && decide (r.tag = tag)

/-- WAITFULL (R453): the slot stays Waiting until its interface sends the request again, or freezes at the limit. -/
def refusedWait (s : State) (p n : Nat) (d : Pend) (r : Req) : State :=
  let k := d.refused + 1
  if s.felim ≠ 0 ∧ s.felim.toNat ≤ k then
    let job := (getSlot s p n).jobId.toNat
    let s := freezeSlot s p n 0x0A d.addr d.word
    record s 2 0x0A 2 p job (senderKey s p n).toNat d.addr k
  else updSlot s p n fun sl => { sl with pend := some { d with again := some r, refused := k, left := 1, got := d.got.drop 1 } }

/-- The first answer, in part order, that keeps the instruction from retiring. -/
def badAnswer (d : Pend) : Option Answer :=
  let rec go : Nat → Nat → Option Answer
    | 0, _ => none
    | fuel + 1, k =>
      match d.got.find? fun e => e.1 = k with
      | some (_, .value _ _) | some (_, .tack) | none => go fuel (k + 1)
      | some (_, a) => some a
  go 64 0

/-- HDGO whose ring object cannot be read (R193): the hod-setup fault with the object's address. -/
def endRingRead (s : State) (p n : Nat) (d : Pend) : State := freezeSlot s p n 0x07 d.addr d.word

/-- THE INSTRUCTION OF A WAITING SLOT ENDS once every part is answered. -/
def endInstr (s : State) (p n : Nat) (d : Pend) : State :=
  let s := { s with who := (p, n), word := d.word }
  match badAnswer d with
  | none =>
    match d.instr with
    | .hdgo r => hdgoFinish s d r
    | _ => taskComplete s d
  | some (.tfault _ va) =>
    match d.instr with
    | .hdgo _ => endRingRead s p n d
    | _ =>
    let s := endWait (undoLaunch s d) p n d .translation
    updSlot s p n fun sl => { sl with block := some (sl.jobId.toNat, va / 2 ^ 22) }
  | some (.nack code addr) => freezeSlot (undoLaunch s d) p n 0x09 addr d.word code
  | some (.raise code addr) =>
    match d.instr with
    | .hdgo _ => if code = 0x0B then freezeSlot s p n code addr d.word else endRingRead s p n d
    | _ => freezeSlot (undoLaunch s d) p n code addr d.word
  | some (.waitfull r) => refusedWait s p n d r
  | some .notYet =>
    let s' := endWait s p n d .join
    if watchStands s p n d.tag then s' else updSlot s' p n fun sl => wakeIf (fun w => decide (w = .join)) sl
  | some _ => endWait (undoLaunch s d) p n d .reissue

/-- A part's answer arrives at slot `n` of core `p`. -/
def takeReply (s : State) (p n tag part : Nat) (a : Answer) : State :=
  match (getSlot s p n).pend with
  | some d =>
    if d.tag = tag ∧ (getSlot s p n).st = .waiting ∧ d.again = none then
      let d := { d with left := d.left - 1, got := (part, a) :: d.got.filter fun e => e.1 ≠ part }
      let s := updSlot s p n fun sl => { sl with pend := some d }
      if d.left = 0 then noteRetired s (endInstr s p n d) p n else s
    else s
  | none => s

/-- The slot that awaits a reply is part of a saved context: its answer waits for the restore. -/
def savedWait (s : State) (p n tag : Nat) : Bool :=
  match (getCore s p).sav with
  | some x => decide ((ctxSlot x n).pend.map (fun d => d.tag) = some tag)
  | none => false

/-- REPLY_ARRIVE (R48): message `n`. -/
def execReplyArrive (s : State) : Host.Outcome State Fault Refusal :=
  .next (match s.net[s.input.n]? with
    | some (.reply dst tag part a) =>
      match dst with
      | .slot p n => if savedWait s p n tag || clockStands s p then s else takeReply { s with net := ldrop s.net s.input.n } p n tag part a
      | _ => { s with net := ldrop s.net s.input.n }
    | _ => s)

/-- WAITFULL_RETRY (R453): the interface of core `n` sends the refused request of slot `k` again; it keeps its RSN. -/
def execWaitfullRetry (s : State) : Host.Outcome State Fault Refusal :=
  .next (match (getSlot s s.input.n s.input.k).pend with
    | some d =>
      match d.again with
      | some r =>
        let s := updSlot s s.input.n s.input.k fun sl => { sl with pend := some { d with again := none } }
        { s with net := s.net ++ [.req (destOf s.input.n (reqAddr r)) r] }
      | none => s
    | none => s)

end Sys2Proof.Machine
end

