-- ==== Sys2Proof/Machine/Deliver.lean ====
section
/-! DEFINITION. Messages at their target (R26, R42, R43, R56, R59, R60, R148, R172, R269, R306, R308, R348, R349, R451):
fills, SENDs, urgent messages, DECRs, launch frames, reuse-clock reports and reset notices. -/

namespace Sys2Proof.Machine

/-! ### Shared -/

/-- Answer an agent. -/
def reply (s : State) (src : Agent) (tag : Nat) (a : Answer) : State :=
  match src with
  | .slot _ _ => { s with net := s.net ++ [.reply src tag 0 a] }
  | _ => s

/-- The interface of core `p` accepts an event by its sender key and journals it with what it wrote (R141, R148). -/
def acceptMsg (s : State) (p : Nat) (key : BitVec 12) (rsn : BitVec 32) (n : Nat) (us : List JUnit) : State :=
  updCore s p fun c =>
    let t := acceptKey c.wide.accept key.toNat rsn
    noteAuthor key.toNat (journalEng { c with wide := { c.wide with accept := t } } n
      (us ++ [{ kind := 11, target := key.toNat, data := ((mget t key.toNat).getD rsn).setWidth 64 }]))

/-- Whether the interface of core `p` finds a message a repeat (R148): one that dropped out at a gang switch is none. -/
def msgRepeat (s : State) (p : Nat) (src : Agent) (tag : Nat) (key : BitVec 12) (rsn : BitVec 32) : Bool :=
  !droppedOut s src tag && isRepeat (getCore s p).wide.accept key.toNat rsn

/-- The refusals that come before everything else at a logical core (R101, R451, R476). -/
def coreRefusal (s : State) (lc job : Nat) : Option Nat :=
  if (getCluster s (clusterOf (physOf s lc))).fenced then some 0x01
  else if !lpctV s lc then some 0x03
  else if (findJob s job).isNone then some 0x07
  else none

/-- What becomes of a message: it has left the fabric, or it stays there. -/
inductive Landed where
  | gone (s : State)
  | stay (s : State)
  /-- held at its point by the Mortar (R155) -/
  | held (s : State)
  deriving Repr

/-- Take message `n` out of the fabric with an outcome. -/
def landed (s : State) (n : Nat) (m : Msg) (f : State → Landed) : State :=
  match f { s with net := ldrop s.net n } with
  | .gone s => { s with heldMsgs := s.heldMsgs.filter (· ≠ m) }
  | .stay s => { s with net := linsert s.net n m }
  | .held s => { s with net := linsert s.net n m, heldMsgs := if s.heldMsgs.contains m then s.heldMsgs else s.heldMsgs ++ [m] }

/-- The context from which a message comes is on its way out or saved: the message has fallen out, and comes back with it (R172). -/
def senderAway (s : State) (src : Agent) (job : Nat) : Bool :=
  match src with
  | .slot q _ => (getCore s q).switching || savedFor s q job
  | _ => false

/-- A message keeps its place: something earlier of the same source and job to the same core waits (R121, R308), or it has fallen out
with its sender's context. -/
def msgBehind (s : State) (n : Nat) (src : Agent) (job lc : Nat) (target : Option Nat := none) : Bool :=
  earlierWaits s n src job lc target || senderAway s src job

/-! ### Register fills (R56) -/

/-- The register takes the value and becomes full; the units. -/
def filled (sl : Slot) (vec : Bool) (reg : Nat) (val : V512) (psn : Bool) : Slot × List JUnit :=
  if vec then
    let c : Cell 512 := { val := val, psn := psn }
    (setVCell sl reg c, vUnits reg c)
  else
    let c : Cell 64 := { val := val.setWidth 64, psn := psn }
    (setGCell sl reg c, [{ kind := 0, target := reg, data := c.val, psn := psn }])

/-- The slot's own writeback of the register comes after the clock at which the fill is applied (R56). -/
def beforeWriteback (c : PCore) (sl : Slot) (vec : Bool) (reg : Nat) : Bool := decide (c.cc < sl.wbDue) && sl.wbRegs.contains (vec, reg)

/-- A fill applied before such a writeback: a register that the writeback writes keeps nothing of it, one that PURGE empties
takes the value and the poison flag and is empty (R56, R268). -/
def fillUnder (sl : Slot) (vec : Bool) (reg : Nat) (val : V512) (psn : Bool) : Slot × List JUnit :=
  if vec then
    if (vCell sl reg).full then (sl, [])
    else
      let c : Cell 512 := { val := val, full := false, psn := psn }
      (setVCell sl reg c, vUnits reg c)
  else if (gCell sl reg).full then (sl, [])
  else
    let c : Cell 64 := { val := val.setWidth 64, full := false, psn := psn }
    (setGCell sl reg c, [{ kind := 0, target := reg, data := c.val, full := false, psn := psn }])

/-- The record of a fill that wakes its slot (R152). -/
def fillRecord (s : State) (p n : Nat) (vec : Bool) (reg : Nat) (key : BitVec 12) : Resolution :=
  { type := 1, arg := b2n vec * 2 ^ 8 + reg, agent := senderKey s p n, data := key.setWidth 64 }

/-- The refusal of a fill by its slot (R56, R451). -/
def fillRefused (s : State) (p n job : Nat) (vec : Bool) (reg : Nat) : Bool :=
  let sl := getSlot s p n
  decide (sl.st = .empty) || decide (sl.st = .starting) || decide (sl.jobId.toNat ≠ job) || (!vec && decide (reg = 0))

/-- A fill at its slot. -/
def fillAt (s : State) (key : BitVec 12) (job : Nat) (rsn : BitVec 32) (src : Agent) (tag lc n : Nat) (vec : Bool)
    (reg : Nat) (val : V512) (psn : Bool) (fresh : Bool) : Landed :=
  let p := physOf s lc
  let sl := getSlot s p n
  let wakes := decide (sl.st = .parked) && decide (sl.park = .reg vec reg)
  match coreRefusal s lc job with
  | some c => .gone (reply s src tag (.nack c 0))
  | none =>
    if fallsOut s p job || clockStands s p || (decide (key.toNat < 3072) && faultHolds s p src) then .stay s
    else if key.toNat < 3072 ∧ msgRepeat s p src tag key rsn then .gone (reply s src tag .tack)
    else if fillRefused s p n job vec reg then .gone (reply s src tag (.nack 0x04 0))
    else
      let rs := if wakes then [fillRecord s p n vec reg key] else []
      match gateAll s job lc fresh rs with
      | (.hold, s) => .held s
      | (.diverge, s) =>
        let s := stopPoint s job lc key.toNat
        if src = .none then .held s else .gone (reply s src tag (.raise 0x0B 0))
      | (.go, s) =>
        let s := putAll s job lc rs
        let (t, us) := if beforeWriteback (getCore s p) (getSlot s p n) vec reg then fillUnder (getSlot s p n) vec reg val psn else filled (getSlot s p n) vec reg val psn
        let s := setSlot s p n (if wakes then wakeSlot t else t)
        let s := if key.toNat < 3072 then acceptMsg s p key rsn n us else updCore s p fun c => journalEng c n us
        .gone (wakeEventAt (reply s src tag .tack) p n)

/-- REGISTER_FILL (R56): message `n`. -/
def execRegisterFill (s : State) : Host.Outcome State Fault Refusal :=
  .next (match s.net[s.input.n]? with
    | some (.fill key job rsn src tag lc n vec reg val psn) =>
      if msgBehind s s.input.n src job lc then s
      else landed s s.input.n (.fill key job rsn src tag lc n vec reg val psn) fun s =>
        fillAt s key job rsn src tag lc n vec reg val psn (!s.heldMsgs.contains (.fill key job rsn src tag lc n vec reg val psn))
    | _ => s)

/-! ### SEND (R307, R308) -/

/-- The ring of a slot's channel is full. -/
def ringFull (sl : Slot) : Bool :=
  decide (chanSize sl ≤ (kReg sl sl.chanKa.toNat - kReg sl sl.chanKc.toNat).toNat)

/-- The receive entry of a message (R307). -/
def recvEntry (h : HeldSend) : List Byte :=
  natBytes 8 h.w0.toNat ++ natBytes 8 h.w1.toNat ++ natBytes 8 (h.key.toNat + h.tag.toNat * 2 ^ 12) ++ natBytes 8 h.rsn.toNat

/-- Offset of the entry that the next message takes in the ring of a slot's channel. -/
def entryOff (sl : Slot) : Nat := chanOff sl + 32 * ((kReg sl sl.chanKa.toNat).toNat % chanSize sl)

/-- Write a message into the ring of its slot: the entry, the counter, wakes; the units. -/
def writeEntry (s : State) (p : Nat) (h : HeldSend) : State × List JUnit :=
  let sl := getSlot s p h.slot
  let ka := sl.chanKa.toNat
  let k := kReg sl ka
  let off := entryOff sl
  let x := (getCore s p).res
  let bs := recvEntry h
  let s := updCtx s p fun x =>
    let x := lsStore x off (bs.take 8) h.psn0 h.key
    let x := lsStore x (off + 8) ((bs.drop 8).take 8) h.psn1 h.key
    lsStore x (off + 16) (bs.drop 16) false h.key
  let s := watchAccess s p { off := off, size := 32, rd := false, wr := true, kind := 5, engine := true
                             remote := decide (h.key.toNat / 16 ≠ logicalOf s p), job := h.job, key := h.key, rsn := h.rsn } x
  let s := updSlot s p h.slot fun sl => wakeIf (fun w => decide (w = .ring) || decide (w = .counter ka)) (setKReg sl ka (k + 1))
  (s, lsUnits (getCore s p).res off 32 ++ [{ kind := 3, target := ka, data := (k + 1).setWidth 64 }])

/-- The record of a message's arrival (R152). -/
def sendRecord (s : State) (p : Nat) (h : HeldSend) : Resolution :=
  { type := 4, arg := 0, agent := senderKey s p h.slot, data := BitVec.ofNat 64 (h.rsn.toNat * 2 ^ 12 + h.key.toNat) }

/-- Land a message in a ring with room, once the Mortar lets it; `fresh` when it comes from the fabric, which also
enters it in the acceptance table. -/
def landSend (s : State) (p : Nat) (h : HeldSend) (fresh : Bool) (judge : Bool) : Verdict × State :=
  let lc := logicalOf s p
  match gateAll s h.job lc judge [sendRecord s p h] with
  | (.go, s) =>
    let s := putAll s h.job lc [sendRecord s p h]
    let (s, us) := writeEntry s p h
    let s := if fresh then acceptMsg s p h.key h.rsn h.slot us
      else updCore s p fun c => noteAuthor h.key.toNat (journalEng c h.slot us)
    (.go, wakeEventAt (serveWaits s p) p h.slot)
  | v => v

/-- LOCK covers the entry that the next message for slot `n` takes (R422). -/
def entryLocked (s : State) (p n : Nat) : Bool := lockTouches (getCore s p) (entryOff (getSlot s p n)) 32

/-- What is held at core `p` may land: the core has power and is not being switched, its clock runs, and no core-scope fault holds it. -/
def mayLand (s : State) (p : Nat) : Bool :=
  (getCluster s (clusterOf p)).powered && !(getCore s p).switching && !clockStands s p && !(getCore s p).coreFault

/-- Messages of the overflow for slot `n` land in arrival order as the ring frees (R308). -/
def landHeld (s : State) (p n : Nat) : Nat → State
  | 0 => s
  | fuel + 1 =>
    match (getCore s p).res.overflow.find? fun h => h.slot = n with
    | none => s
    | some h =>
      if !mayLand s p || !chanBound (getSlot s p n) || ringFull (getSlot s p n) || entryLocked s p n then s
      else match landSend s p h false false with
        | (.go, s) => landHeld (updCtx s p fun x => { x with overflow := x.overflow.erase h }) p n fuel
        | (_, s) => s

/-- Messages held for the slots of core `p` land as their rings free, and as the Mortar lets them (R308, R154). -/
def landAll (s : State) (p : Nat) : State :=
  if (getCore s p).res.overflow = [] then s else (upTo 16).foldl (fun s n => landHeld s p n 32) s

/-- What core `p` holds goes on where it may: messages for its rings, and held requests. -/
def settleHeld (s : State) (p : Nat) : State := serveWaits (landAll s p) p

/-- A SEND at its interface. -/
def sendAt (s : State) (lc : Nat) (src : Agent) (tag : Nat) (h : HeldSend) (judge : Bool) : Landed :=
  let p := physOf s lc
  match coreRefusal s lc h.job with
  | some c => .gone (reply s src tag (.nack c 0))
  | none =>
    if fallsOut s p h.job || clockStands s p || faultHolds s p src then .stay s
    else if msgRepeat s p src tag h.key h.rsn then
      match repeatTurn s lc (sendRecord s p h) with
      | some s => .gone (reply s src tag .tack)
      | none => .stay s
    else
      let s := landHeld s p h.slot 32
      let sl := getSlot s p h.slot
      if sl.st = .empty || sl.st = .starting || decide (sl.jobId.toNat ≠ h.job) || !chanBound sl then
        .gone (reply s src tag (.nack 0x04 0))
      else if ringFull sl || (getCore s p).res.overflow.any (fun k => decide (k.slot = h.slot)) then
        (if (getCore s p).res.overflow.length < 32 then
          .gone (reply (acceptMsg (updCtx s p fun x => { x with overflow := x.overflow ++ [h] }) p h.key h.rsn h.slot []) src tag .tack)
         else .stay s)
      else if entryLocked s p h.slot then .stay s
      else match landSend s p h true judge with
        | (.go, s) => .gone (reply s src tag .tack)
        | (.hold, s) => .held s
        | (.diverge, s) => .gone (reply (stopPoint s h.job lc h.key.toNat) src tag (.raise 0x0B 0))

/-- SEND_ARRIVE (R308): message `n`. -/
def execSendArrive (s : State) : Host.Outcome State Fault Refusal :=
  .next (match s.net[s.input.n]? with
    | some (.send key job rsn src tag lc n w0 w1 p0 p1 mtag) =>
      if msgBehind s s.input.n src job lc (some n) then s
      else landed s s.input.n (.send key job rsn src tag lc n w0 w1 p0 p1 mtag) fun s =>
        sendAt s lc src tag { key := key, job := job, slot := n, rsn := rsn, w0 := w0, w1 := w1, psn0 := p0, psn1 := p1, tag := mtag }
          (!s.heldMsgs.contains (.send key job rsn src tag lc n w0 w1 p0 p1 mtag))
    | _ => s)

/-! ### Urgent messages (R59, R60) -/

/-- Whether a slot takes urgent messages of a job: it runs a task of the job, or it is Empty and allotted to it. -/
def takesUrgent (s : State) (p n job : Nat) : Bool :=
  let sl := getSlot s p n
  if sl.st = .empty then decide (allotted s p n = some job) else decide (sl.jobId.toNat = job)

/-- An urgent message at its interface. -/
def urgentAt (s : State) (src : Agent) (tag lc n : Nat) (u : Urgent) : Landed :=
  let p := physOf s lc
  match coreRefusal s lc u.job with
  | some c => .gone (reply s src tag (.nack c 0))
  | none =>
    if fallsOut s p u.job || clockStands s p || faultHolds s p src then .stay s
    else if msgRepeat s p src tag u.key u.rsn then .gone (reply s src tag .tack)
    else if !takesUrgent s p n u.job then .gone (reply s src tag (.nack 0x04 0))
    else if 4 ≤ (getSlot s p n).urgents.length then .gone (reply s src tag (.nack 0x05 0))
    else
      let s := updSlot s p n fun sl => { sl with urgents := sl.urgents ++ [u] }
      .gone (reply (acceptMsg s p u.key u.rsn n []) src tag .tack)

/-- URGENT_MESSAGE_ARRIVE (R60): message `n`. -/
def execUrgentMessageArrive (s : State) : Host.Outcome State Fault Refusal :=
  .next (match s.net[s.input.n]? with
    | some (.urgent src tag lc n u) =>
      if msgBehind s s.input.n src u.job lc then s
      else landed s s.input.n (.urgent src tag lc n u) fun s => urgentAt s src tag lc n u
    | _ => s)

/-! ### The run list and the pending area (R39, R42, R348) -/

/-- Journal unit of a dependence counter: its word of the task area (R33, R140). -/
def depUnit (i : Nat) (v : Word) : JUnit := { kind := 6, target := (14 * 0x2000 + 0x1C00) / 8 + i, data := v }

/-- A DECR at its home core (R42, R43, R349): the result word. -/
def decrAt (s : State) (src : Agent) (tag : Nat) (key : BitVec 12) (job : Nat) (rsn : BitVec 32) (lc idx : Nat) (judge : Bool) : Landed :=
  let p := physOf s lc
  match coreRefusal s lc job with
  | some c => .gone (reply s src tag (.nack c 0))
  | none =>
    if fallsOut s p job || clockStands s p || faultHolds s p src || lockTouches (getCore s p) (depOff idx) 8 then .stay s
    else if msgRepeat s p src tag key rsn then
      match repeatTurn s lc (atom 18 key (BitVec.ofNat 64 (lc * 2 ^ 8 + idx))) with
      | some s => let (x, s) := drawNat s; .gone (reply s src tag (.value (natBytes 8 (Config.freeWord x).toNat) false))
      | none => .stay s
    else
      let x := (getCore s p).res
      let n := (mget x.dep idx).getD 0
      let r := BitVec.ofNat 64 (lc * 2 ^ 8 + idx)
      if x.depClosed.contains idx then .gone (reply (acceptMsg s p key rsn 0 []) src tag (.value (natBytes 8 3) false))
      else if n = 0 then
        .gone (reply (acceptMsg (record s 9 0x01 2 p job key.toNat r) p key rsn 0 []) src tag (.value (natBytes 8 0x200) false))
      else
        let rs := [atom 18 key r]
        match gateAll s job lc judge rs with
        | (.hold, s) => .held s
        | (.diverge, s) => .gone (reply (stopPoint s job lc key.toNat) src tag (.raise 0x0B 0))
        | (.go, s) =>
          let s := putAll s job lc rs
          let s := updCtx s p fun x => { x with dep := mset x.dep idx (n - 1) }
          let s := watchTask s p job x [(depOff idx, 8)]
          let s := acceptMsg s p key rsn 0 [depUnit idx (n - 1)]
          match (if n = 1 then x.pending.find? fun f => decide (frDepw f.frame = idx) && !f.ready else none) with
          | some f =>
            .gone (reply (watchRefill (updCtx s p fun x => readyFrame x f) p (getCore s p).res) src tag (.value (natBytes 8 0x100) false))
          | none => .gone (reply s src tag (.value (natBytes 8 0) false))

/-- DECR_ARRIVE (R42): message `n`. -/
def execDecrArrive (s : State) : Host.Outcome State Fault Refusal :=
  .next (match s.net[s.input.n]? with
    | some (.decr src tag key job rsn lc idx) =>
      if msgBehind s s.input.n src job lc then s
      else landed s s.input.n (.decr src tag key job rsn lc idx) fun s => decrAt s src tag key job rsn lc idx
        (!s.heldMsgs.contains (.decr src tag key job rsn lc idx))
    | _ => s)

/-! ### Launch frames, clocks, notices -/

/-- A frame that cannot be delivered is discarded: the launch counter falls, the join word is decremented for it (R348). -/
def discardFrame (s : State) (lc src : Nat) (f : V512) : State :=
  let p := physOf s src
  let s := record s 9 0x05 2 p (frJob f) 0xFFF (frEntry f) lc
  let q : Req := { src := .none, tag := 0, key := 0xFFF, job := frJob f, rsn := 0, act := .joinSub, parts := [{ addr := frJoin f, size := 8 }] }
  let s := if frJoin f = 0 then s else { s with net := s.net ++ [.req (nodeField (frJoin f) - 1) q] }
  launchDrop s (frLaunch f)

/-- Offsets and sizes of what a launch frame writes in the task area. -/
def frameSpan (x : Ctx) (f : V512) : List (Nat × Nat) :=
  if frKind f = 2 then [(placeOff 6 x.pending.length, 64), (depOff (frDepw f), 8)]
  else if x.runList.length < 32 then [(placeOff 4 x.runList.length, 64)] else []

/-- A frame of a launch at its core (R348): to the run list, or to the pending area with its dependence counter. -/
def frameAt (s : State) (lc src : Nat) (f : V512) (dcount : Nat) : Landed :=
  let p := physOf s lc
  if (getCluster s (clusterOf p)).fenced || !lpctV s lc then .gone (discardFrame s lc src f)
  else if awayFor s p (frJob f) || unformed s p (frJob f) || clockStands s p || faultHolds s p (.slot src 0) then .stay s
  else if frameSpan (getCore s p).res f |>.any fun e => lockTouches (getCore s p) e.1 e.2 then .stay s
  else if frKind f ≠ 2 then
    let x := (getCore s p).res
    let i := x.runList.length
    let s := updCore s p fun c => journalEng c 0 (if i < 32 then frameUnits (placeOff 4 i) f else [])
    let s := updCtx s p fun x => pushRun x f
    .gone (watchTask s p (frJob f) x (placesOf 4 i ((getCore s p).res.runList.length - i)))
  else
    let i := frDepw f
    let d := BitVec.ofNat 64 dcount
    let x := (getCore s p).res
    let s := updCtx s p fun x => { x with dep := mset x.dep i d, depClosed := x.depClosed.filter (· ≠ i) }
    let place := placeOff 6 x.pending.length
    let s := updCore s p fun c => journalEng c 0 (frameUnits place f ++ [depUnit i d])
    let g : PendingFrame := { frame := f }
    let s := updCtx s p fun x => { x with pending := x.pending ++ [g] }
    let s := watchTask s p (frJob f) x [(place, 64), (depOff i, 8)]
    .gone (if dcount = 0 then watchRefill (updCtx s p fun x => readyFrame x g) p (getCore s p).res else s)

/-- An earlier frame to the same core is still on its way: frames of one source keep their order. -/
def frameBehind (s : State) (n lc src : Nat) : Bool :=
  (s.net.take n).any fun m => match m with
    | .frame c q _ _ => decide (c = lc) && decide (q = src)
    | _ => false

/-- LAUNCH_FRAME_DELIVER (R348): message `n`. -/
def execLaunchFrameDeliver (s : State) : Host.Outcome State Fault Refusal :=
  .next (match s.net[s.input.n]? with
    | some (.frame lc src f dc) =>
      if frameBehind s s.input.n lc src then s
      else landed s s.input.n (.frame lc src f dc) fun s => frameAt s lc src f dc
    | _ => s)

/-- A slot of a core runs a task of a launch. -/
def runsLaunch (c : PCore) (l : Nat) : Bool :=
  let runs := fun (x : Ctx) => x.slots.any fun e => decide (e.2.st ≠ .empty) && decide (e.2.launchId.toNat % 2 ^ 16 = l)
  runs c.res || match c.sav with | some x => runs x | none => false

/-- AN ADVANCE OF A LAUNCH'S REUSE CLOCK reaches every slice, and every core that runs the launch (R105). -/
def spreadClock (s : State) (l : Nat) (clk : BitVec 32) : State :=
  let put := fun (s : State) (i : Nat) => updNode s i fun n =>
    { n with tracked := match sliceClock n l with
        | some _ => n.tracked.map fun t => if t.launch = l then { t with clock := clk } else t
        | none => keepTracked n.tracked { launch := l, clock := clk, atWindow := clk } }
  let s := (upTo 32).foldl put s
  { s with cores := s.cores.map fun (p, c) => (p, if runsLaunch c l then { c with rclk := mset c.rclk l clk } else c) }

/-- REUSE_CLOCK_REPORT (R105): message `n`, a slice's batch; an advance of the clock is sent on. -/
def execReuseClockReport (s : State) : Host.Outcome State Fault Refusal :=
  .next (match s.net[s.input.n]? with
    | some (.clock l k) =>
      let s := { s with net := ldrop s.net s.input.n }
      match launchRec s l with
      | none => s
      | some r =>
        let clk := reuseClock { r with reported := r.reported + k }
        let s := updLaunch s l fun r => { r with reported := r.reported + k }
        if clk = reuseClock r then s else spreadClock s l clk
    | _ => s)

/-- Something that the reset core sent earlier to the notice's destination, or its wait for LOCK there, is still to be accepted:
the notice comes behind it (R121, R148). -/
def noticeWaits (s : State) (n dst lc : Nat) : Bool :=
  let mine := fun (a : Agent) => match a with | .slot p _ => decide (logicalOf s p = lc) | _ => false
  let same := fun (d : Nat) => if d < 0x100 then decide (physOf s d = dst) else decide (destClass d = if dst = 0x201 then 0x200 else dst)
  ((s.net.take n).any fun m => match msgPlace s m with | some (a, _, d) => mine a && same d | none => false)
    || (decide (dst < 0x100) && (getCore s dst).lockHeld.any fun r => mine r.src)

/-- CORE_RESET_NOTICE (R148): message `n` reaches an interface (0 to 191), a memory node (0x100 + n), or a node at 0xE0 to
0xE5 (0x200 + f). -/
def execCoreResetNotice (s : State) : Host.Outcome State Fault Refusal :=
  .next (match s.net[s.input.n]? with
    | some (.resetNotice dst lc) =>
      if noticeWaits s s.input.n dst lc then s else
      let s := { s with net := ldrop s.net s.input.n }
      if dst < 0x100 then updWide s dst fun w => { w with accept := forgetKeys lc w.accept }
      else if dst < 0x120 then updNode s (dst - 0x100) fun m => { m with accept := forgetKeys lc m.accept }
      else if dst = 0x201 then { s with footAccept := forgetKeys lc s.footAccept }
      else
        let keep := fun (e : Nat × BitVec 32) => decide (e.1 / 4096 ≠ dst - 0x200 + 0xE0) || decide (e.1 % 4096 / 16 ≠ lc)
        { s with regAccept := s.regAccept.filter keep }
    | _ => s)

end Sys2Proof.Machine
end

