-- ==== Sys2Proof/Machine/Alu.lean ====
section
/-! DEFINITION. Integer, constant and bit-field instructions (R270 to R275). Each reads its sources, writes one
result with their poison, and goes on to the next instruction. -/

namespace Sys2Proof.Machine

/-- An operation of two g sources. -/
def alu2 (s : State) (d a b : GReg) (f : Word → Word → Word) : Host.Outcome State Fault Refusal :=
  finish (compute s [.g a, .g b] d fun g => f (g.w 0) (g.w 1))

/-- An operation of one g source. -/
def alu1 (s : State) (d a : GReg) (f : Word → Word) : Host.Outcome State Fault Refusal :=
  finish (compute s [.g a] d fun g => f (g.w 0))

/-- A truth value as a result word. -/
def truth (b : Bool) : Word := if b then 1 else 0

/-- Shift count y[5:0]. -/
def shCount (y : Word) : Nat := y.toNat % 64

/-- DIV (R271). -/
def divS (x y : Word) : Word := if y = 0 then BitVec.allOnes 64 else x.sdiv y
/-- DIVU (R271). -/
def divU (x y : Word) : Word := if y = 0 then BitVec.allOnes 64 else x / y
/-- REM (R271). -/
def remS (x y : Word) : Word := if y = 0 then x else x.srem y
/-- REMU (R271). -/
def remU (x y : Word) : Word := if y = 0 then x else x % y

/-- Bits 127:64 of the signed product. -/
def mulHiS (x y : Word) : Word := BitVec.ofInt 64 (x.toInt * y.toInt / 2 ^ 64)
/-- Bits 127:64 of the unsigned product. -/
def mulHiU (x y : Word) : Word := BitVec.ofNat 64 (x.toNat * y.toNat / 2 ^ 64)

/-- Count of leading zero bits. -/
def clz64 (x : Word) : Word := if x = 0 then 64 else BitVec.ofNat 64 (63 - x.toNat.log2)
/-- Count of trailing zero bits, over `n` bits. -/
def ctzGo : Nat → Nat → Nat
  | 0, _ => 0
  | n + 1, x => if x % 2 = 1 then 0 else ctzGo n (x / 2) + 1
/-- Count of one bits, over `n` bits. -/
def popcGo : Nat → Nat → Nat
  | 0, _ => 0
  | n + 1, x => x % 2 + popcGo n (x / 2)
/-- x with byte i moved to byte 7 − i. -/
def bswap64 (x : Word) : Word := leWord 64 (natBytes 8 x.toNat).reverse

def execAdd (d a b : GReg) (s : State) := alu2 s d a b fun x y => x + y
def execSub (d a b : GReg) (s : State) := alu2 s d a b fun x y => x - y
def execAnd (d a b : GReg) (s : State) := alu2 s d a b fun x y => x &&& y
def execOr (d a b : GReg) (s : State) := alu2 s d a b fun x y => x ||| y
def execXor (d a b : GReg) (s : State) := alu2 s d a b fun x y => x ^^^ y
def execAndn (d a b : GReg) (s : State) := alu2 s d a b fun x y => x &&& ~~~y
def execOrn (d a b : GReg) (s : State) := alu2 s d a b fun x y => x ||| ~~~y
def execSll (d a b : GReg) (s : State) := alu2 s d a b fun x y => x <<< shCount y
def execSrl (d a b : GReg) (s : State) := alu2 s d a b fun x y => x >>> shCount y
def execSra (d a b : GReg) (s : State) := alu2 s d a b fun x y => x.sshiftRight (shCount y)
def execRotr (d a b : GReg) (s : State) := alu2 s d a b fun x y => x.rotateRight (shCount y)
def execSlt (d a b : GReg) (s : State) := alu2 s d a b fun x y => truth (x.slt y)
def execSltu (d a b : GReg) (s : State) := alu2 s d a b fun x y => truth (x.ult y)
def execSeq (d a b : GReg) (s : State) := alu2 s d a b fun x y => truth (decide (x = y))
def execMin (d a b : GReg) (s : State) := alu2 s d a b fun x y => if y.slt x then y else x
def execMax (d a b : GReg) (s : State) := alu2 s d a b fun x y => if x.slt y then y else x
def execMinu (d a b : GReg) (s : State) := alu2 s d a b fun x y => if y.ult x then y else x
def execMaxu (d a b : GReg) (s : State) := alu2 s d a b fun x y => if x.ult y then y else x
def execMul (d a b : GReg) (s : State) := alu2 s d a b fun x y => x * y
def execMulh (d a b : GReg) (s : State) := alu2 s d a b mulHiS
def execMulhu (d a b : GReg) (s : State) := alu2 s d a b mulHiU
def execDiv (d a b : GReg) (s : State) := alu2 s d a b divS
def execDivu (d a b : GReg) (s : State) := alu2 s d a b divU
def execRem (d a b : GReg) (s : State) := alu2 s d a b remS
def execRemu (d a b : GReg) (s : State) := alu2 s d a b remU
def execClz (d a : GReg) (s : State) := alu1 s d a clz64
def execCtz (d a : GReg) (s : State) := alu1 s d a fun x => BitVec.ofNat 64 (ctzGo 64 x.toNat)
def execPopc (d a : GReg) (s : State) := alu1 s d a fun x => BitVec.ofNat 64 (popcGo 64 x.toNat)
def execBswap (d a : GReg) (s : State) := alu1 s d a bswap64
/-- SEL: x if z ≠ 0, else y (R270). -/
def execSel (d a b c : GReg) (s : State) : Host.Outcome State Fault Refusal :=
  finish (compute s [.g a, .g b, .g c] d fun g => if g.w 2 ≠ 0 then g.w 0 else g.w 1)
def execShadd (d a b : GReg) (k : BitVec 5) (s : State) := alu2 s d a b fun x y => (x <<< k.toNat) + y

def execAddi (d a : GReg) (imm : BitVec 16) (s : State) := alu1 s d a fun x => x + sext64 imm
def execAndi (d a : GReg) (imm : BitVec 16) (s : State) := alu1 s d a fun x => x &&& sext64 imm
def execOri (d a : GReg) (imm : BitVec 16) (s : State) := alu1 s d a fun x => x ||| sext64 imm
def execXori (d a : GReg) (imm : BitVec 16) (s : State) := alu1 s d a fun x => x ^^^ sext64 imm
def execSlti (d a : GReg) (imm : BitVec 16) (s : State) := alu1 s d a fun x => truth (x.slt (sext64 imm))
def execSltiu (d a : GReg) (imm : BitVec 16) (s : State) := alu1 s d a fun x => truth (x.ult (sext64 imm))
def execSlli (d a : GReg) (k : BitVec 6) (s : State) := alu1 s d a fun x => x <<< k.toNat
def execSrli (d a : GReg) (k : BitVec 6) (s : State) := alu1 s d a fun x => x >>> k.toNat
def execSrai (d a : GReg) (k : BitVec 6) (s : State) := alu1 s d a fun x => x.sshiftRight k.toNat
def execRotri (d a : GReg) (k : BitVec 6) (s : State) := alu1 s d a fun x => x.rotateRight k.toNat

/-- LI (R274). -/
def execLi (d : GReg) (imm : BitVec 21) (s : State) : Host.Outcome State Fault Refusal :=
  finish (compute s [] d fun _ => sext64 imm)
/-- LIM: bits 41:21 of d (R274). -/
def execLim (d : GReg) (imm : BitVec 21) (s : State) : Host.Outcome State Fault Refusal :=
  finish (compute s [.g d] d fun g => setBits (g.w 0) 41 21 imm.toNat)
/-- LIH: bits 62:42 of d, and bit 63 the immediate's top bit (R274). -/
def execLih (d : GReg) (imm : BitVec 21) (s : State) : Host.Outcome State Fault Refusal :=
  finish (compute s [.g d] d fun g => setBits (setBits (g.w 0) 62 42 imm.toNat) 63 63 (b2n (tbit imm 20)))
/-- ADDPC (R274); in a replay pc is the address of R337. -/
def execAddpc (d : GReg) (imm : BitVec 21) (s : State) : Host.Outcome State Fault Refusal :=
  finish (compute s [] d fun _ => pcOf s + sext64 imm)
/-- BFX (R275). -/
def execBfx (d a : GReg) (l p : BitVec 6) (s : State) : Host.Outcome State Fault Refusal :=
  finish (compute s [.g a] d fun g => BitVec.ofNat 64 (bits (g.w 0) (p.toNat + l.toNat) p.toNat))
/-- BFI reads a, then d (R275). -/
def execBfi (d a : GReg) (l p : BitVec 6) (s : State) : Host.Outcome State Fault Refusal :=
  finish (compute s [.g a, .g d] d fun g => setBits (g.w 1) (p.toNat + l.toNat) p.toNat (g.w 0).toNat)

end Sys2Proof.Machine
end

