-- ==== Sys2Proof/Machine/EngMem.lean ====
section
/-! DEFINITION. Engine accesses (R88, R113, R114, R131, R149, R174, R191, R451, R452, R456, R457): the hods, the MXEs, the
vision engines and the ingress engine read and write the memories, each naturally aligned 8-byte word an access of its
own, performed at its owner at once (log 20). -/

namespace Sys2Proof.Machine

/-- On whose behalf an engine accesses memory. -/
structure Eng where
  job : Nat
  /-- agent code (R153) -/
  key : Nat
  /-- SRC code of its records (R417) -/
  src : Nat
  /-- physical core whose buffers local addresses name -/
  core : Nat := 0
  /-- slot of its journal entries -/
  slot : Nat := 0
  launch : Nat := noLaunch
  nud : Nat := 30
  /-- its accesses to node fields 0xE0 to 0xE5 stay within the windows of its job (R191) -/
  windowed : Bool := true
  /-- the access goes on in the line that the one before it has been served (R240) -/
  sameLine : Bool := false
  /-- it feeds an operand FIFO: no other engine access reads the weight buffer (R88) -/
  feeds : Bool := false
  deriving DecidableEq, Repr

/-- The answer to an engine access: done, refused with the CODE and DATA of its record, or held for now. -/
inductive EngAns (α : Type) where
  | ok (x : α) (s : State)
  | bad (code data : Nat) (s : State)
  | wait
  deriving Repr

/-- An address that does not decode, a protection refusal, a translation fault, a NACK (R452). -/
def noDecode {α : Type} (s : State) : EngAns α := .bad 0x0B 0x200 s
def refusedEng {α : Type} (s : State) : EngAns α := .bad 0x0B 0x100 s
def kindsEng {α : Type} (s : State) (k : Nat) : EngAns α := .bad 0x0B k s
def nackEng {α : Type} (s : State) (code : Nat) : EngAns α := .bad 0x02 code s

/-- The record of a refused access (R452). -/
def engRecord (s : State) (e : Eng) (code data : Nat) (a : Word) : State := record s 2 code 2 e.src e.job e.key a data

/-- The physical core and the offset that a local-store address of a logical core names, for an engine. -/
def engCore (s : State) (e : Eng) (a : Word) (rd wr : Bool) : EngAns (Nat × Nat) :=
  let lc := nodeField a - 1
  let p := physOf s lc
  if (getCluster s (clusterOf p)).fenced then nackEng s 0x01
  else if !lpctV s lc then nackEng s 0x03
  else if (findJob s e.job).isNone then nackEng s 0x07
  else if awayFor s p e.job || clockStands s p || (getCore s p).coreFault then .wait
  else match translate s p e.job (offset48 a) rd wr true false with
    | (.error k, s) => kindsEng s k
    | (.ok o, s) =>
      if inTaskArea o 8 then refusedEng s
      else if lockTouches (getCore s p) o 8 then .wait
      else .ok (p, o) s

/-- Read `n` bytes of core `p`'s local store for an engine: of the job's saved context while it is saved (R173). -/
def engLsRead (s : State) (e : Eng) (remote : Bool) (p o n : Nat) : (List Byte × Bool) × State :=
  if savedFor s p e.job then
    let x := (getCore s p).sav.getD {}
    ((memBytes x.ls o n, poisonRead 8 x.lsPoison o n), s)
  else
    let x := (getCore s p).res
    let s := watchAccess s p { off := o, size := n, rd := true, wr := false, kind := 5, remote := remote, engine := true, job := e.job, key := 0xFFF } x
    ((memBytes x.ls o n, poisonRead 8 x.lsPoison o n), s)

/-- Write bytes of core `p`'s local store for an engine: bits set full, held requests served, journalled. -/
def engLsWrite (s : State) (e : Eng) (remote : Bool) (p o : Nat) (bs : List Byte) (psn : Bool) : State :=
  if savedFor s p e.job then
    updCore s p fun c =>
      let x := lsStore (c.sav.getD {}) o bs psn 0xFFF
      noteAuthor e.key { c with sav := some x, shadow := c.shadow ++ mkEntries (lsUnits x o bs.length) 0 e.slot true (!c.set) 0 }
  else
    let x := (getCore s p).res
    let s := updCtx s p fun x => lsStore x o bs psn 0xFFF
    let s := watchAccess s p
      { off := o, size := bs.length, rd := false, wr := true, kind := 5, remote := remote, engine := true, job := e.job, key := 0xFFF } x
    serveWaits (updCore s p fun c => noteAuthor e.key (journalEng c e.slot (lsUnits c.res o bs.length))) p

/-- Journal units of accumulator-buffer words (R140 KIND 7). -/
def accUnits (c : PCore) (o n : Nat) : List JUnit :=
  (wordsOf o n).map fun w =>
    { kind := 7, target := w, data := leWord 64 (memBytes c.wide.acc (8 * w) 8), psn := c.wide.accPoison.contains w }

/-- A READ of `n` bytes within one 8-byte word, or one 64-byte unit. -/
def engRead1 (s : State) (e : Eng) (a : Word) (n : Nat) : EngAns (List Byte × Bool) :=
  let nf := nodeField a
  let o := offset48 a
  if bits a 55 48 ≠ 0 then noDecode s
  else if nf = 0xFF then
    let c := getCore s e.core
    match bufferOf o with
    | some (0, b) => if inTaskArea b n then refusedEng s else let (v, s) := engLsRead s e false e.core b n; .ok v s
    | some (1, b) => if e.feeds then .ok (memBytes c.wb b n, poisonRead 8 c.wbPoison b n) s else refusedEng s
    | some (2, b) => .ok (memBytes c.ab b n, poisonRead 8 c.abPoison b n) s
    | some (_, b) => .ok (memBytes c.wide.acc b n, poisonRead 8 c.wide.accPoison b n) s
    | none => noDecode s
  else if nf = 0 then
    if nodeFenced s (homeNode o) then nackEng s 0x01
    else if (findJob s e.job).isNone then nackEng s 0x07
    else match translate s (homeNode o) e.job o true false false false with
      | (.error k, s) => kindsEng s k
      | (.ok pa, s) => if blockHeld s pa then .wait else let (bs, psn, s) := slRead s pa n e.nud e.job e.launch !e.sameLine; .ok (bs, psn) s
  else if nf ≤ 0xC0 then
    match engCore s e a true false with
    | .ok (p, b) s => let (v, s) := engLsRead s e true p b n; .ok v s
    | .bad c d s => .bad c d s
    | .wait => .wait
  else if 0xE0 ≤ nf ∧ nf ≤ 0xE5 then
    if edgeFenced s nf then nackEng s 0x01
    else if e.windowed && !windowOk s e.job nf o n true false then refusedEng s
    else if nf = 0xE1 then .ok (durRead s o n) s
    else if latchHolds s nf o then .wait
    else let psn := regPoison s nf o n; let (bs, s) := regRead s nf o n; .ok (bs, psn) s
  else if nf = 0xF0 then
    if edgeFenced s nf then nackEng s 0x01
    else if !s.pair.link then nackEng s 0x02
    else let (k, s) := drawNat s; .ok ((upTo n).map fun i => (Config.freeWord (k + i)).setWidth 8, false) s
  else noDecode s

/-- A WRITE within one 8-byte word, or one 64-byte unit; `rcnt` is the read count of a hod fill (R108). -/
def engWrite1 (s : State) (e : Eng) (a : Word) (bs : List Byte) (psn : Bool) (rcnt : Nat) : EngAns Unit :=
  let nf := nodeField a
  let o := offset48 a
  let n := bs.length
  if bits a 55 48 ≠ 0 then noDecode s
  else if nf = 0xFF then
    if clockStands s e.core then .wait
    else match bufferOf o with
    | some (0, b) => if inTaskArea b n then refusedEng s else .ok () (engLsWrite s e false e.core b bs psn)
    | some (1, b) => .ok () (updCore s e.core fun c => putWb c b bs psn)
    | some (2, b) => .ok () (updCore s e.core fun c => putAb c b bs psn)
    | some (_, b) => .ok () (updCore s e.core fun c =>
        let c := { c with wide := putAcc c.wide b bs psn }
        journalEng c e.slot (accUnits c b n))
    | none => noDecode s
  else if nf = 0 then
    if nodeFenced s (homeNode o) then nackEng s 0x01
    else if (findJob s e.job).isNone then nackEng s 0x07
    else match translate s (homeNode o) e.job o false true false false with
      | (.error k, s) => kindsEng s k
      | (.ok pa, s) => if blockHeld s pa then .wait else .ok () (noteWriter (slWrite s pa bs psn e.nud e.job e.launch rcnt !e.sameLine) pa e.key)
  else if nf ≤ 0xC0 then
    match engCore s e a false true with
    | .ok (p, b) s => .ok () (engLsWrite s e true p b bs psn)
    | .bad c d s => .bad c d s
    | .wait => .wait
  else if 0xE0 ≤ nf ∧ nf ≤ 0xE5 then
    if edgeFenced s nf then nackEng s 0x01
    else if e.windowed && !windowOk s e.job nf o n false true then refusedEng s
    else if nf = 0xE1 then .ok () (durStore s o bs psn)
    else if latchHolds s nf o then .wait
    else if psn && !(decide (nf = 0xE2) && decide (0x400000 ≤ o) && decide (o < 0x600000)) then nackEng s 0x08
    else .ok () (regStore s nf o bs psn)
  else if nf = 0xF0 then
    if edgeFenced s nf then nackEng s 0x01
    else if !s.pair.link then nackEng s 0x02
    else .ok () { s with sent := s.sent ++ [.flit (natBytes 8 a.toNat ++ bs ++ if psn then [1] else [])] }
  else noDecode s

/-- Sizes of the pieces of an access of `n` bytes at an address, none crossing an 8-byte word; `fuel` bounds their
number. -/
def wordPieces : Nat → Nat → Nat → List Nat
  | 0, _, _ => []
  | fuel + 1, a, n => if n = 0 then [] else let k := min n (8 - a % 8); k :: wordPieces fuel (a + k) (n - k)

/-- The access to the piece at an address, after another unless it is the first: pieces of one line are served together. -/
def pieceOf (e : Eng) (a : Word) (first : Bool) : Eng := { e with sameLine := !first && decide (a.toNat % 128 ≠ 0) }

/-- A read of any length, word by word: the bytes, each with its poison. -/
def engReadGo (e : Eng) : List Nat → Word → State → List (Byte × Bool) → EngAns (List (Byte × Bool))
  | [], _, s, acc => .ok acc s
  | k :: ks, a, s, acc =>
    match engRead1 s (pieceOf e a (acc = [])) a k with
    | .ok (bs, psn) s => engReadGo e ks (a + BitVec.ofNat 64 k) s (acc ++ bs.map fun b => (b, psn))
    | .bad c d s => .bad c d (engRecord s e c d a)
    | .wait => .wait

/-- A READ OF `n` BYTES; a refusal has left its record. -/
def engRead (s : State) (e : Eng) (a : Word) (n : Nat) : EngAns (List (Byte × Bool)) :=
  engReadGo e (wordPieces (n / 8 + 2) a.toNat n) a s []

/-- A write of any length, word by word. -/
def engWriteGo (e : Eng) (rcnt : Nat) (first : Bool) : List Nat → Word → List (Byte × Bool) → State → EngAns Unit
  | [], _, _, s => .ok () s
  | k :: ks, a, bs, s =>
    let w := bs.take k
    match engWrite1 s (pieceOf e a first) a (w.map fun b => b.1) (w.any fun b => b.2) rcnt with
    | .ok _ s => engWriteGo e rcnt false ks (a + BitVec.ofNat 64 k) (bs.drop k) s
    | .bad c d s => .bad c d (engRecord s e c d a)
    | .wait => .wait

/-- Sizes of the pieces of a write: a whole clean sector of main memory is one, so that it clears the sector's poison (R456); else
words, as at the control complex (R191). -/
def writePieces (sectors : Bool) : Nat → Nat → List (Byte × Bool) → List Nat
  | 0, _, _ => []
  | fuel + 1, a, bs =>
    let whole := sectors && decide (a % 32 = 0) && decide (32 ≤ bs.length) && !(bs.take 32).any fun b => b.2
    let k := if whole then 32 else min bs.length (8 - a % 8)
    if bs = [] then [] else k :: writePieces sectors fuel (a + k) (bs.drop k)

/-- A WRITE OF BYTES, each with its poison; a refusal has left its record. -/
def engWrite (s : State) (e : Eng) (a : Word) (bs : List (Byte × Bool)) (rcnt : Nat := 0) : EngAns Unit :=
  engWriteGo e rcnt true (writePieces (decide (nodeField a = 0)) (bs.length / 8 + 2) a.toNat bs) a bs s

/-- Bytes without poison. -/
def clean (bs : List Byte) : List (Byte × Bool) := bs.map fun b => (b, false)

end Sys2Proof.Machine
end

