-- ==== Sys2Proof/Machine/Footprint.lean ====
section
/-! DEFINITION. The Keystone's footprint table (R128, R129, R131, R167): the engine jobs enqueued and not complete, and
whether one may begin before another ends. -/

namespace Sys2Proof.Machine

/-- What the footprint table holds of an engine job; `core` is the physical core whose buffers NODE 0xFF names. -/
structure Footprint where
  job : Nat
  order : Nat
  core : Nat
  reads : List Word
  writes : List Word
  deriving DecidableEq, Repr

/-- The footprint of an MXE job of core `p`. -/
def mxFootprint (p : Nat) (j : MxJob) : Footprint := { job := j.job, order := j.order, core := p, reads := j.footR, writes := j.footW }
/-- The footprint of a transfer of core `p`. -/
def hodFootprint (p : Nat) (t : Xfer) : Footprint := { job := t.job, order := t.order, core := p, reads := t.footR, writes := t.footW }
/-- The footprint of a vision job, which runs for no core. -/
def visFootprint (v : Vision) : Footprint := { job := v.job, order := v.order, core := 0, reads := v.footR, writes := v.footW }

/-- Every enqueued, incomplete engine job. -/
def footTable (s : State) : List Footprint :=
  (s.cores.flatMap fun (p, c) => c.wide.mxq.map (mxFootprint p) ++ c.hodq.map (hodFootprint p))
    ++ (s.visionQ.flatMap fun e => e.2.map visFootprint) ++ s.engines.map fun e => visFootprint e.2

/-- The address space, first byte and length that a region declares: NODE 0xFF by the core it belongs to. -/
def regionSpan (core : Nat) (r : Word) : Nat × Nat × Nat :=
  let nf := nodeField r
  let sz := 6 + bits r 55 51
  (if nf = 0xFF then 0x1000 + core else if nf = 0xFE then 0x2000 + core else nf, bits r 47 6 * 64 / 2 ^ sz * 2 ^ sz, 2 ^ sz)

/-- Two declared regions overlap. -/
def regionsMeet (ca cb : Nat) (a b : Word) : Bool :=
  let x := regionSpan ca a
  let y := regionSpan cb b
  tbit a 0 && tbit b 0 && decide (x.1 = y.1) && decide (x.2.1 < y.2.1 + y.2.2) && decide (y.2.1 < x.2.1 + x.2.2)

/-- A write region of either job overlaps a region of the other (R129). -/
def footConflict (a b : Footprint) : Bool :=
  (a.writes.any fun x => (b.reads ++ b.writes).any fun y => regionsMeet a.core b.core x y)
    || (b.writes.any fun y => a.reads.any fun x => regionsMeet a.core b.core x y)

/-- No earlier job of the same JOBID that is not complete must come before this one: its accesses may begin. -/
def footFree (s : State) (f : Footprint) : Bool :=
  (footTable s).all fun e => decide (e.job ≠ f.job) || decide (f.order ≤ e.order) || !footConflict e f

end Sys2Proof.Machine
end

