-- ==== Sys2Proof/Machine/Sha.lean ====
section
/-! DEFINITION. SHA-256 (R224, R227, R228), which the manual names without its algorithm: the function of FIPS 180-4
(assumption log 18). -/

namespace Sys2Proof.Machine

/-- The first primes, up to the 64th. -/
def primes64 : List Nat := (upTo 312).filter fun p => decide (2 ≤ p) && (upTo p).all fun d => decide (d < 2) || decide (p % d ≠ 0)

/-- The whole part of a `k`-th root of `x`, from `r` on by its bits below `2 ^ n`. -/
def rootFrom (k x : Nat) : Nat → Nat → Nat
  | 0, r => r
  | n + 1, r => rootFrom k x n (if (r + 2 ^ n) ^ k ≤ x then r + 2 ^ n else r)

/-- The first 32 bits of the fraction of the `k`-th root of a prime: where FIPS 180-4 takes its constants from. -/
def rootFraction (k p : Nat) : Nat := rootFrom k (p * 2 ^ (32 * k)) 37 0 % 2 ^ 32

/-- Round constants: cube roots of the first 64 primes. -/
def shaK : List Nat := primes64.map (rootFraction 3)

/-- The hash before the first block: square roots of the first eight. -/
def shaInit : List Nat := (primes64.take 8).map (rootFraction 2)

/-- Rotate a 32-bit number right. -/
def ror32 (x n : Nat) : Nat := x / 2 ^ n + x % 2 ^ n * 2 ^ (32 - n)

/-- The message schedule, latest word first: `n` words more. -/
def shaSchedule : Nat → List Nat → List Nat
  | 0, w => w
  | n + 1, w =>
    let a := w.getD 14 0
    let b := w.getD 1 0
    let s0 := (ror32 a 7 ^^^ ror32 a 18) ^^^ a / 8
    let s1 := (ror32 b 17 ^^^ ror32 b 19) ^^^ b / 1024
    shaSchedule n ((w.getD 15 0 + s0 + w.getD 6 0 + s1) % 2 ^ 32 :: w)

/-- One round: the eight variables, a constant and a schedule word. -/
def shaRound (v : List Nat) (kw : Nat × Nat) : List Nat :=
  match v with
  | [a, b, c, d, e, f, g, h] =>
    let s1 := (ror32 e 6 ^^^ ror32 e 11) ^^^ ror32 e 25
    let ch := (e &&& f) ^^^ ((2 ^ 32 - 1 - e) &&& g)
    let t1 := h + s1 + ch + kw.1 + kw.2
    let s0 := (ror32 a 2 ^^^ ror32 a 13) ^^^ ror32 a 22
    let maj := ((a &&& b) ^^^ (a &&& c)) ^^^ (b &&& c)
    [(t1 + s0 + maj) % 2 ^ 32, a, b, c, (d + t1) % 2 ^ 32, e, f, g]
  | v => v

/-- A big-endian number. -/
def beNat (bs : List Byte) : Nat := bs.foldl (fun a b => a * 256 + b.toNat) 0
/-- The `n` low bytes of a number, highest first. -/
def beBytes (n x : Nat) : List Byte := (natBytes n x).reverse

/-- One block of 64 bytes. -/
def shaBlock (h : List Nat) (bs : List Byte) : List Nat :=
  let ws := (upTo 16).map fun i => beNat ((bs.drop (4 * i)).take 4)
  let v := (shaK.zip (shaSchedule 48 ws.reverse).reverse).foldl shaRound h
  (h.zip v).map fun (a, b) => (a + b) % 2 ^ 32

/-- The blocks of a padded message. -/
def shaBlocks : Nat → List Byte → List Nat → List Nat
  | 0, _, h => h
  | n + 1, bs, h => shaBlocks n (bs.drop 64) (shaBlock h (bs.take 64))

/-- The SHA-256 digest of a message. -/
def sha256 (bs : List Byte) : BitVec 256 :=
  let n := bs.length
  let blocks := (n + 9 + 63) / 64
  let padded := bs ++ 0x80 :: (List.replicate (64 * blocks - n - 9) 0 ++ beBytes 8 (8 * n))
  BitVec.ofNat 256 ((shaBlocks blocks padded shaInit).foldl (fun a w => a * 2 ^ 32 + w) 0)

end Sys2Proof.Machine
end

