-- ==== Sys2Proof/Machine/Ingress.lean ====
section
/-! DEFINITION. The ingress engine (R210 to R217, R223, R452, R489): plant frames, the input latch, output transmission
and camera landing. The layouts of Ethernet, 802.1Q, 802.1CB, IPv4, UDP and GVSP are those of their standards (log 21). -/

namespace Sys2Proof.Machine

/-! ### Scan times (R19) -/

/-- PERIOD in ns. -/
def periodNs (s : State) : Nat := s.period.toNat * 1000
/-- Time of the current scan's boundary. -/
def boundaryTime (s : State) : Nat := s.start.toNat + (s.scans - 1) * periodNs s
/-- Time of the next boundary. -/
def nextBoundary (s : State) : Nat := s.start.toNat + s.scans * periodNs s

/-! ### Frames -/

/-- What identification reads in a frame: destination, VLAN, sequence number of an R-TAG, and the bytes from the
EtherType onwards. -/
structure Eth where
  dst : Nat
  vid : Nat
  seq : Option Nat
  body : List Byte
  deriving DecidableEq, Repr

/-- A big-endian field of `n` bytes at offset `o`. -/
def beAt (bs : List Byte) (o n : Nat) : Nat := beNat ((bs.drop o).take n)

/-- The fields of a frame. -/
def parseEth (bs : List Byte) : Eth :=
  let tagged := decide (beAt bs 12 2 = 0x8100)
  let vid := if tagged then beAt bs 14 2 % 4096 else 0
  let r := bs.drop (if tagged then 16 else 12)
  let rtag := decide (beAt r 0 2 = 0xF1C1)
  { dst := beAt bs 0 6, vid := vid, seq := if rtag then some (beAt r 4 2) else none, body := r.drop (if rtag then 6 else 0) }

/-- UDP destination port and payload of an IPv4 frame. -/
def udpOf (body : List Byte) : Option (Nat × List Byte) :=
  let ip := body.drop 2
  let udp := ip.drop (beAt ip 0 1 % 16 * 4)
  if beAt body 0 2 = 0x0800 ∧ beAt ip 9 1 = 17 then some (beAt udp 2 2, (udp.drop 8).take (beAt udp 4 2 - 8)) else none

/-- The gate that a frame on a port belongs to (R210, R212). -/
def gateOfFrame (s : State) (port : Nat) (f : Eth) : Option Nat :=
  (upTo 64).find? fun g =>
    let e := (getGate s g).entry
    gtV e && decide (gtPorts e / 2 ^ port % 2 = 1) &&
      (match gtKind e with
       | 0 => decide (gtMac e = f.dst) && decide (gtVid e = f.vid)
       | 2 => match udpOf f.body with | some (p, _) => decide (gtUdpp e = p) | none => false
       | _ => false)

/-! ### Sequence recovery and metering (R210, R213) -/

/-- The vector recovery algorithm with a history of 32: whether the frame is taken, and the state after. -/
def recover (r : Option (BitVec 16 × BitVec 32)) (seq : Nat) : Bool × Option (BitVec 16 × BitVec 32) :=
  let q := BitVec.ofNat 16 seq
  match r with
  | none => (true, some (q, 1))
  | some (h, v) =>
    let up := (q - h).toNat
    let down := (h - q).toNat
    if up = 0 then (false, r)
    else if up < 32 then (true, some (q, v <<< up ||| 1))
    else if down < 32 then (if v.getLsbD down then (false, r) else (true, some (h, v ||| (1#32 <<< down))))
    else (false, r)

/-- The flow meter: the bucket after the time that has passed, in bytes times 8 × 10^9. -/
def bucket (g : Gate) (now : Nat) : Nat :=
  let cap := gtCbs g.entry * 64 * 8000000000
  if g.tokenTime = 0 then cap else min cap (g.tokens + (now - g.tokenTime) * gtCir g.entry * 100000)

/-- Whether the meter passes a frame of `n` bytes, and the gate after. -/
def meter (g : Gate) (now n : Nat) : Bool × Gate :=
  if gtCir g.entry = 0 then (true, g)
  else
    let b := bucket g now
    let need := n * 8000000000
    if need ≤ b then (true, { g with tokens := b - need, tokenTime := now }) else (false, { g with tokens := b, tokenTime := now })

/-! ### Landing -/

/-- Exactly `n` bytes: cut, or filled with 0. -/
def fit (n : Nat) (bs : List Byte) : List Byte := bs.take n ++ List.replicate (n - bs.length) 0

/-- Another copy of a staged frame arrives, with its sequence number: the earliest arrival counts (R223). -/
def earlier (s : State) (g q t : Nat) (own : Bool) : State :=
  { s with staged := s.staged.map fun f =>
      if f.gate = g ∧ f.seq = some q then { f with time := min f.time t, own := if own && f.own.isNone then some t else f.own } else f }

/-- Staging offset of a gate's entry, and of its stamp. -/
def stageAt (e : V512) : Nat := 0x600000 + gtIoff e * 64

/-- Address of a landing buffer of a gate. -/
def bufAddr (e : V512) (b : Nat) : Word := BitVec.ofNat 64 (gtAddr e + b * gtStride e * 64)

/-- The ingress engine lands for job g + 1. -/
def ingressEng (g : Nat) : Eng := { job := g + 1, key := 0xC60, src := 0x260, windowed := false }

/-- A write of pixels of a block; one that is held, and those after it, wait with the block (R460). -/
def landWrite (g : Nat) (x : State × Block) (e : Word × List Byte) : Except State (State × Block) :=
  let (s, b) := x
  let wait := .ok (s, { b with late := b.late ++ [e] })
  if b.late ≠ [] then wait
  else match engWrite s (ingressEng g) e.1 (clean e.2) with
    | .ok _ s => .ok (s, b)
    | .bad _ _ s => .error s
    | .wait => wait

/-- The writes that wait with a block are tried again. -/
def landLate (s : State) (g : Nat) (b : Block) : Except State (State × Block) := b.late.foldlM (landWrite g) (s, { b with late := [] })

/-- A payload packet writes its pixels: `o` is the place of its first pixel in raster order. -/
def landPixels (g : Nat) (z : State × Block) : Nat → Nat → List Byte → Except State (State × Block)
  | 0, _, _ => .ok z
  | fuel + 1, o, bs =>
    let b := z.2
    if bs = [] ∨ b.width * b.height ≤ o then .ok z
    else
      let y := o / b.width
      let x := o % b.width
      let k := min bs.length (b.width - x)
      let pitch := (b.width + 63) / 64 * 64
      let a := bufAddr (getGate z.1 g).entry b.buf + BitVec.ofNat 64 (64 + y * pitch + x)
      match landWrite g z (a, bs.take k) with
      | .ok z => landPixels g z fuel (o + k) (bs.drop k)
      | .error s => .error s

/-- Number of payload packets of a block: `n` before its trailer; else from the payload size, or from the packets seen
where no size is known (log 75). -/
def blockPackets (b : Block) (trailer : Option Nat) : Nat :=
  match trailer with
  | some n => n
  | none => if b.last = 0 then max 1 (b.seen.foldl max 0) else (b.width * b.height + b.last - 1) / b.last

/-- A payload packet lands: its pixels, and its number; a refusal ends the block's landing. -/
def landPacket (s : State) (g : Nat) (b : Block) (o pkt : Nat) (d : List Byte) : State :=
  let b := { b with seen := nadd b.seen pkt }
  match (landLate s g b).bind fun z => landPixels g z (d.length + 1) o d with
  | .ok (s, b) => updGate s g fun x => { x with block := some b }
  | .error s => updGate s g fun x => { x with block := some { b with refused := true }, nojob := x.nojob + 1 }

/-- The packet that waits for the payload size lands at the block's end: as the last of the block where the trailer says so, else as
a full one (log 75). -/
def landKept (s : State) (g : Nat) (trailer : Option Nat) : State :=
  match (getGate s g).block with
  | some b =>
    match b.kept with
    | some (pkt, d) =>
      let last := decide (trailer = some pkt)
      let b := { b with kept := none, last := if last then 0 else d.length }
      landPacket s g b (if last then b.width * b.height - d.length else (pkt - 1) * d.length) pkt d
    | none => s
  | none => s

/-- The block on a gate has ended, with `trailer` payload packets by its trailer or with none: its header is due (R217). -/
def endBlock (s : State) (g : Nat) (trailer : Option Nat) : State :=
  updGate (landKept s g trailer) g fun x => match x.block with
    | some b => { x with block := none, ended := if b.refused then x.ended else x.ended ++ [{ b with total := blockPackets b trailer }] }
    | none => x

/-- A camera frame that is dropped in landing counts in OVSZ, as a discarded block does (R213, R217; log 75). -/
def dropLanding (s : State) (g : Nat) : State := updGate s g fun x => { x with ovsz := x.ovsz + 1 }

/-- A GVSP leader: a block starts, or is discarded when its geometry or format is not supported (R197, R217). -/
def gvspLeader (s : State) (g : Nat) (id : BitVec 64) (d : List Byte) (t : Nat) : State :=
  let s := endBlock s g none
  let w := beAt d 16 4
  let h := beAt d 20 4
  let ok := decide (beAt d 2 2 = 1) && decide (beAt d 12 4 = 0x01080001) && decide (64 ≤ w) && decide (w ≤ 4096) && decide (w % 16 = 0)
    && decide (16 ≤ h) && decide (h ≤ 4096) && decide (h % 4 = 0)
  if !ok then dropLanding s g
  else updGate s g fun x =>
    { x with frames := x.frames + 1
             block := some { buf := x.frames % (gtNbuf x.entry + 1), id := id, seen := [], tarr := t, stamp := s.stamp, width := w, height := h } }

/-- The payload size of a block, once a packet tells it: every packet but the last is as long, so the first packet tells it, and
so do any two. -/
def payloadSize (b : Block) (pkt n : Nat) : Option Nat :=
  if b.last ≠ 0 then some b.last
  else if pkt = 1 then some n
  else match b.kept with
    | some (q, d) => if q = pkt then none else some (max n d.length)
    | none => none

/-- A GVSP payload packet of the block being landed; it waits where the payload size, and so its place, is not known yet. -/
def gvspPayload (s : State) (g : Nat) (id : BitVec 64) (pkt : Nat) (d : List Byte) : State :=
  match (getGate s g).block with
  | some b =>
    if b.refused then updGate s g fun x => { x with nojob := x.nojob + 1 }
    else if b.id ≠ id ∨ pkt = 0 then dropLanding s g
    else match payloadSize b pkt d.length with
      | none => updGate s g fun x => { x with block := some { b with kept := some (pkt, d) } }
      | some size =>
        let s := landPacket s g { b with last := size, kept := none } ((pkt - 1) * size) pkt d
        match b.kept, (getGate s g).block with
        | some (q, e), some b' => if b'.refused then s else landPacket s g b' ((q - 1) * size) q e
        | _, _ => s
  | none => dropLanding s g

/-- A GVSP packet (standard and extended identifiers). -/
def gvspPacket (s : State) (g : Nat) (p : List Byte) (t : Nat) : State :=
  let ext := decide (128 ≤ beAt p 4 1)
  let id : BitVec 64 := BitVec.ofNat 64 (if ext then beAt p 8 8 else beAt p 2 2)
  let pkt := if ext then beAt p 16 4 else beAt p 5 3
  let d := p.drop (if ext then 20 else 8)
  match beAt p 4 1 % 16 with
  | 1 => gvspLeader s g id d t
  | 2 => if (getGate s g).block.map (fun b => b.id) = some id then endBlock s g (some (pkt - 1)) else dropLanding s g
  | 3 => gvspPayload s g id pkt d
  | _ => dropLanding s g

/-- A frame that has passed every stage lands; one accepted here is forwarded to the partner while the link is up (R223). -/
def landFrame (s : State) (g : Nat) (f : Eth) (t : Nat) (raw : List Byte) (own : Bool) : State :=
  let e := (getGate s g).entry
  let s := if own && s.pair.link then { s with sent := s.sent ++ [.flit (natBytes 8 t ++ raw)] } else s
  if gtKind e = 0 then
    { updGate s g fun x => { x with accepted := x.accepted + 1 } with
      staged := s.staged ++ [{ gate := g, place := stageAt e, bytes := fit (gtIlen e) f.body, time := t
                               own := if own then some t else none, seq := if gtCb e then f.seq else none }] }
  else match udpOf f.body with
    | some (_, p) => gvspPacket s g p t
    | none => dropLanding s g

/-- THE STAGES OF A FRAME (R213): identification, recovery, MAXSDU, meter, landing. `own` is false for a frame that the
partner forwarded, which joins at recovery (R223). -/
def takeFrameIn (s : State) (port : Nat) (raw : List Byte) (t : Nat) (own : Bool) : State :=
  let f := parseEth raw
  match gateOfFrame s port f with
  | none => if own && !s.mgmtOff then { s with sent := s.sent ++ [.bestEffort raw] } else s
  | some g =>
    if (findJob s (g + 1)).isNone then updGate s g fun x => { x with nojob := x.nojob + 1 }
    else
      let x := getGate s g
      let (taken, r) := match gtCb x.entry, f.seq with
        | true, some q => recover x.recov q
        | _, _ => (true, x.recov)
      if !taken then earlier (updGate s g fun x => { x with dup := x.dup + 1 }) g (f.seq.getD 0) t own
      else
        let s := updGate s g fun x => { x with recov := r }
        if own && decide (gtMaxSdu x.entry < f.body.length) then updGate s g fun x => { x with ovsz := x.ovsz + 1 }
        else
          let (pass, y) := if own then meter (getGate s g) t raw.length else (true, getGate s g)
          let s := updGate s g fun _ => y
          if pass then landFrame s g f t raw own else updGate s g fun x => { x with policed := x.policed + 1 }

/-- FRAME_ARRIVAL (R213): the frame `bytes` on port `n`. -/
def execFrameArrival (s : State) : Host.Outcome State Fault Refusal :=
  .next (if 8 ≤ s.input.n then s else takeFrameIn s s.input.n s.input.bytes s.plumb true)

/-- FORWARDED_FRAME_ARRIVE (R223): the frame `bytes` that the partner took on its port `n` at Plumb time `v`. -/
def execForwardedFrameArrive (s : State) : Host.Outcome State Fault Refusal :=
  .next (if s.pair.link then takeFrameIn { s with pair := { s.pair with lastFlit := s.plumb } } s.input.n s.input.bytes s.input.v.toNat false else s)

/-- The landing header of a block (R217). -/
def landHeader (g : Nat) (b : Block) : V512 :=
  let miss := b.total - b.seen.length
  BitVec.ofNat 512 (b.tarr % 2 ^ 64 * 2 ^ 448 + b.stamp.toNat * 2 ^ 416 + b.id.toNat % 2 ^ 32 * 2 ^ 384 + b.width * 2 ^ 368
    + b.height * 2 ^ 352 + miss % 2 ^ 32 * 2 ^ 320 + g * 2 ^ 313 + 2 ^ 312 + b2n (decide (miss ≠ 0)) * 2 ^ 311)

/-- The header of an ended block whose pixels have landed, and its card; a header write that is held keeps the block (R460). -/
def landBlock (s : State) (g : Nat) (b : Block) (r : List Block) : State :=
  let held := updGate s g fun x => { x with ended := b :: r }
  let s := updGate s g fun x => { x with ended := r }
  match engWrite s (ingressEng g) (bufAddr (getGate s g).entry b.buf) (clean (natBytes 64 (landHeader g b).toNat)) with
  | .ok _ s =>
    let s := updGate s g fun x => { x with accepted := x.accepted + 1 }
    let c := gtCard (getGate s g).entry
    if c = 0xFFFF then s
    else match findJob s (g + 1) with
      | some j =>
        (startGraph s (g + 1) c none 0xFFF s.plumb 20 j.cancelled).2.2
      | none => s
  | .bad _ _ s => updGate s g fun x => { x with nojob := x.nojob + 1 }
  | .wait => held

/-- CAMERA_BLOCK_LAND (R217): the first ended block of gate `n` gets its header after its pixels, and its card is armed. -/
def execCameraBlockLand (s : State) : Host.Outcome State Fault Refusal :=
  .next (let g := s.input.n
    match (getGate s g).ended with
    | [] => s
    | b :: r => match landLate s g b with
      | .error s => updGate s g fun x => { x with ended := r, nojob := x.nojob + 1 }
      | .ok (s, b) => if b.late = [] then landBlock s g b r else updGate s g fun x => { x with ended := b :: r })

/-! ### The input latch (R215) -/

/-- A staged frame comes before another: by earliest arrival, and by its bytes where two arrive at once, so that the two modules of a
pair stage alike (R223, log 22). -/
def stagedFirst (a b : Staged) : Bool := decide (a.time < b.time) || (decide (a.time = b.time) && decide (leNat a.bytes ≤ leNat b.bytes))

/-- A staged frame takes its place among others. -/
def stagedInsert (x : Staged) : List Staged → List Staged
  | [] => [x]
  | y :: r => if stagedFirst x y then x :: y :: r else y :: stagedInsert x r

/-- Frames that belong to the image latched now enter staging, with the stamp of that image. -/
def stageFrames (s : State) (tk : Nat) : State :=
  let due := fun (f : Staged) => decide (f.time < (if s.pair.link then tk - 2000 else tk))
  let s' := ((s.staged.filter due).foldl (fun l f => stagedInsert f l) []).foldl (fun s f =>
    imgPutWord (imgPut s f.place f.bytes) (0x600000 + 0x40 + 4 * f.gate) s.stamp) s
  { s' with staged := s.staged.filter fun f => !due f }

/-- INPUT_LATCH: staging into the scan's half; accesses to the half are held until the copy completes. -/
def inputLatch (s : State) (tk : Nat) : State :=
  let s := stageFrames s tk
  let h := inHalf s.stamp.toNat
  let gs := (upTo 64).filter fun g => let e := (getGate s g).entry; gtV e && decide (gtKind e = 0)
  let s := gs.foldl (fun s g =>
    let e := (getGate s g).entry
    imgCopy (imgCopy s (h + gtIoff e * 64) (stageAt e) (gtIlen e)) (h + 0x40 + 4 * g) (0x600000 + 0x40 + 4 * g) 4) s
  { s with latching := true }

/-- INPUT_LATCH_COMPLETE (R215, R221, R358): HSTAMP is written last; held accesses go on and waiters wake. -/
def execInputLatchComplete (s : State) : Host.Outcome State Fault Refusal :=
  .next (if !s.latching then s
    else
      let s := imgPutWord (imgPutWord s (inHalf s.stamp.toNat) s.stamp) (outHalf s.stamp.toNat) s.stamp
      let s := wakeAll { s with latching := false, latches := s.latches + 1 } fun w => decide (w = .latch)
      s.latchHeld.foldl (fun s e => regStore s 0xE2 e.1 e.2) { s with latchHeld := [] })

/-! ### Outputs (R211, R216) -/

/-- A new scan: no entry is frozen or sent. -/
def outputsRenew (s : State) : State :=
  { s with gates := s.gates.map fun (g, x) => (g, { x with frozen := false, stale := false, sent := [] }) }

/-- Poison of the output image within an entry. -/
def entryPoisoned (s : State) (o n : Nat) : Bool := poisonRead 8 s.imagePoison o n

/-- OUTPUT_FREEZE (R216): gate `n` at its OFRZ; an entry not written in this scan is copied from the other half. An active module
sends the entry with its stamp to the standby: the output half of the scan goes out entry by entry (R224, log 22). -/
def execOutputFreeze (s : State) : Host.Outcome State Fault Refusal :=
  .next (let g := s.input.n
    let x := getGate s g
    let e := x.entry
    if !(validGates s 1).contains g || x.frozen || decide (s.scans = 0) || decide (s.plumb < boundaryTime s + gtOfrz e * 1000) then s
    else
      let k := s.stamp.toNat
      let cur := outHalf k + gtIoff e * 64
      let fresh := decide (imgWord s (outHalf k + 0x40 + 4 * g) = s.stamp)
      let old := outHalf (k + 1)
      let s := if fresh then s
        else imgCopy (imgCopy s cur (old + gtIoff e * 64) (gtIlen e)) (outHalf k + 0x40 + 4 * g) (old + 0x40 + 4 * g) 4
      let s := if s.pair.link && decide (s.pair.role = 1) then { s with sent := s.sent ++ [.flit (0 :: natBytes 8 cur ++ memBytes s.image cur (gtIlen e)
        ++ natBytes 4 (imgWord s (outHalf k + 0x40 + 4 * g)).toNat)] } else s
      updGate s g fun x => { x with frozen := true, stale := !fresh || entryPoisoned s cur (gtIlen e) })

/-- The bytes that a gate sends: the entry from its EtherType, with the prefix of OPFX (R216). -/
def outputBody (s : State) (g : Nat) : List Byte :=
  let x := getGate s g
  let k := outHalf s.stamp.toNat
  let bs := memBytes s.image (k + gtIoff x.entry * 64) (gtIlen x.entry)
  let pfx := natBytes 4 (imgWord s (k + 0x40 + 4 * g)).toNat ++ natBytes 4 (b2n x.stale)
  if gtOpfx x.entry then bs.take 2 ++ pfx ++ bs.drop 2 else bs

/-- A frame of a gate on a port: addresses and 802.1Q tag, then the body. -/
def outputFrame (e : V512) (port : Nat) (body : List Byte) : List Byte :=
  beBytes 6 (gtMac e) ++ beBytes 6 (Config.portMac port).toNat ++ beBytes 2 0x8100 ++ beBytes 2 (gtPcp e * 2 ^ 13 + gtVid e) ++ body

/-- Whether a port's gate control list lets a traffic class send now (R211); a port without a list sends always. -/
def classOpen (s : State) (port cls : Nat) : Bool :=
  let q := (mget s.ports port).getD {}
  match q.gcl[q.cur]? with
  | some e => tbit e (56 + cls)
  | none => true

/-- A port sends frames of a class, or keeps them, in order, until its list opens the class. -/
def portSend (s : State) (port cls : Nat) (fs : List (List Byte)) : State :=
  let q := (mget s.ports port).getD {}
  if classOpen s port cls && !(q.waiting.any fun e => decide (e.1 = cls)) then { s with sent := s.sent ++ fs.map fun f => Sent.frame port f }
  else { s with ports := mset s.ports port { q with waiting := q.waiting ++ fs.map fun f => (cls, f) } }

/-- What a port keeps for classes that are open now goes out. -/
def portFlush (s : State) (port : Nat) : State :=
  match mget s.ports port with
  | none => s
  | some q =>
    let goes := fun (e : Nat × List Byte) => classOpen s port e.1
    { s with sent := s.sent ++ (q.waiting.filter goes).map (fun e => Sent.frame port e.2)
             ports := mset s.ports port { q with waiting := q.waiting.filter fun e => !goes e } }

/-- The first stale transmission of a gate after a fresh one is recorded (R489). -/
def noteStale (s : State) (g : Nat) : State :=
  let x := getGate s g
  if x.stale && !x.lastStale then record s 7 0x01 1 0x260 (g + 1) 0xC60 0 g else s

/-- Late entries of earlier scans that a standby taking over still owes (R491). -/
def owed (s : State) (g : Nat) : List (List Byte) :=
  (s.pair.stash.filter fun e => decide (e.gate = g) && (match s.pair.lateFrom with | some t => decide (t ≤ e.time) | none => false)).map
    fun e => e.body

/-- OUTPUT_TRANSMIT (R216, R224, R225, R491): gate `n` on port `k` at its OTX; a standby keeps its entry instead of sending it. At a
switchover neither module sends until both know which of them transmits. -/
def execOutputTransmit (s : State) : Host.Outcome State Fault Refusal :=
  .next (let g := s.input.n
    let port := s.input.k
    let x := getGate s g
    let e := x.entry
    if !(liveGates s 1).contains g || !x.frozen || x.sent.contains port || decide (gtPorts e / 2 ^ port % 2 = 0) || decide (8 ≤ port)
        || decide (s.plumb < boundaryTime s + gtOtx e * 1000) || s.pair.unsure then s
    else
      let body := outputBody s g
      let first := decide (x.sent = [])
      let standby := decide (s.pair.role = 2)
      let s := if first && !standby then updGate (noteStale s g) g fun x => { x with lastStale := x.stale } else s
      let s := updGate s g fun x => { x with sent := nadd x.sent port }
      if standby then
        (if first then { s with pair := { s.pair with
          stash := s.pair.stash ++ [{ time := boundaryTime s + gtOtx e * 1000, gate := g, stamp := s.stamp, body := body }] } } else s)
      else
        portSend s port (gtPcp e) ((owed s g ++ [body]).map (outputFrame e port)))

/-- Plumb time at which the entry in force of a gate control list ends (R211). -/
def gclEnd (q : Port) : Nat := q.since + bits (q.gcl.getD q.cur 0) 31 0

/-- GCL_INTERVAL_END (R210, R211): the interval of port `n`'s entry is over, and the next entry of its list is in force. -/
def execGclIntervalEnd (s : State) : Host.Outcome State Fault Refusal :=
  .next (match mget s.ports s.input.n with
    | some q =>
      if q.gcl = [] ∨ s.plumb < gclEnd q then s
      else portFlush { s with ports := mset s.ports s.input.n { q with cur := (q.cur + 1) % q.gcl.length, since := gclEnd q } } s.input.n
    | none => s)

end Sys2Proof.Machine
end

