-- ==== Sys2Proof/Machine/Pair.lean ====
section
/-! DEFINITION. The pair of modules (R222 to R225, R461, R490 to R493): commands, handshake, link failure and takeover,
flits from the partner, and what the pair does at a scan boundary. What a flit looks like the manual does not say: an
arrival names the kind of its contents (log 22). -/

namespace Sys2Proof.Machine

/-- Change the pair registers. -/
def updPair (s : State) (f : PairLink → PairLink) : State := { s with pair := f s.pair }

/-! ### Commands -/

/-- A valid output gate sends without the prefix: CMD 1 and CMD 2 are ignored (R490). -/
def bareOutput (s : State) : Bool :=
  (upTo 64).any fun g => let e := (getGate s g).entry; gtV e && decide (gtKind e = 1) && !gtOpfx e

/-- CMD 1 and CMD 2 (R222). -/
def pairAs (s : State) (role : BitVec 2) : State := if bareOutput s then s else updPair s fun l => { l with role := role }

/-- Accesses through 0xF0 that are in flight are answered PAIRDOWN (R461). -/
def pairDrop (s : State) : State :=
  let gone := fun (m : Msg) => match m with | .req d _ => decide (d = 0x500) | _ => false
  (s.net.filter gone).foldl (fun s m => match m with | .req _ r => nackAll s r 0x02 | _ => s)
    { s with net := s.net.filter fun m => !gone m }

/-- CMD 4 (R222). -/
def pairLeave (s : State) : State :=
  pairDrop (updPair { s with sent := s.sent ++ [.flit [4]] } fun l =>
    { windows := l.windows, pol := l.pol, lastFlit := l.lastFlit, syncStamp := l.syncStamp })

/-- CMD 3 (R225, R490): the partner is told, since both modules switch at one boundary. -/
def pairSwitch (s : State) : State :=
  if s.pair.link then updPair { s with sent := s.sent ++ [.flit [5]] } fun l => { l with switchPending := true } else s

/-! ### The carry set (R222, R224) -/

/-- The valid carry windows, in order. -/
def carryWindows (l : PairLink) : List Word := (l.windows.filter fun e => tbit e.2 63).map fun e => e.2

/-- The bytes of the carry set. -/
def carryBytes (s : State) : List Byte :=
  (carryWindows s.pair).flatMap fun w => memBytes s.durable (bits w 23 12 * 4096) ((bits w 11 0 + 1) * 4096)

/-- Every line of the carry set. -/
def carryAll (l : PairLink) : List Nat :=
  (carryWindows l).flatMap fun w => (upTo ((bits w 11 0 + 1) * 64)).map fun i => bits w 23 12 * 64 + i

/-! ### Link up and down -/

/-- Boundaries until SYNC can be 1 (R492). -/
def syncScans (s : State) : Nat :=
  if periodNs s = 0 then 0 else (s.plumb + 200000 - nextBoundary s + periodNs s - 1) / periodNs s + 1

/-- PAIR_HANDSHAKE (R492): the partner's role is `n`, its DEVID `v`. An active module sends its whole carry set; one that is made
standby writes CODE 0x07. -/
def execPairHandshake (s : State) : Host.Outcome State Fault Refusal :=
  .next (if s.pair.role = 0 || s.pair.link then s
    else
      let both := decide (s.pair.role = 1) && decide (s.input.n = 1)
      let yield_ := both && decide (s.input.v.toNat < s.devId.toNat)
      let role : BitVec 2 := if yield_ then 2 else s.pair.role
      let s := record s 7 0x06 0 0x270 0 0xFFF 0 (syncScans s)
      let s := if yield_ then record s 7 0x07 2 0x270 0 0xFFF 0 (s.devId.toNat % 2 ^ 32) else s
      let s := if role = 1 then { s with sent := s.sent ++ (carryAll s.pair).map (carryFlit s) } else s
      updPair s fun l => { l with
        link := true, role := role, lastFlit := s.plumb, syncFrom := s.plumb + 200000, sync := false, lines := [], digest := none
        stash := [], lateFrom := none, agreed := [], unsure := false })

/-- A staged frame as this module's own port received it; none where only the partner did. -/
def ownFrame (f : Staged) : Option Staged := f.own.map fun t => { f with time := t }

/-- THE PAIR IS DECLARED DOWN (R461, R491); a standby that takes over latches its own inputs only: causes 1 silence, 2 partner reset, 3 CMD 4. -/
def pairDown (s : State) (cause : Nat) : State :=
  if !s.pair.link then s
  else
    let takes := decide (s.pair.role = 2) && (decide (cause ≠ 1) || tbit s.pair.pol 0)
    let s := pairDrop (updPair s fun l => { l with
      link := false, sync := false, switchPending := false, lines := [], digest := none, unsure := false })
    if takes then updPair { s with staged := s.staged.filterMap ownFrame } fun l => { l with lateFrom := some l.lastFlit }
    else record s 7 0x04 2 0x270 0 0xFFF 0 cause

/-- PAIR_SILENCE_TIMEOUT (R461): no flit for 2 µs. -/
def execPairSilenceTimeout (s : State) : Host.Outcome State Fault Refusal :=
  .next (if s.pair.link && decide (s.pair.lastFlit + 2000 ≤ s.plumb) then pairDown s 1 else s)

/-- PARTNER_RESET_SIGNAL (R461): `flag` is CMD 4, else a reset or power-down. -/
def execPartnerResetSignal (s : State) : Host.Outcome State Fault Refusal :=
  .next (pairDown s (if s.input.flag then 3 else 2))

/-! ### Flits -/

/-- An access of the partner's that the flit carries: its act, and the request at the home node; `flag` is the poison of its
data. -/
def partnerReq (a : Input) : Req :=
  let f := fun (i : Nat) => a.pairs.getD i (0, 0)
  let size := (f 1).2
  { src := .partner, tag := (f 2).2, key := BitVec.ofNat 12 (f 0).2, job := (f 0).1 % 128, rsn := BitVec.ofNat 32 (f 1).1, nud := 30
    act := if (f 2).1 = 0 then .load else if (f 2).1 = 1 then .store else .amo ((f 2).1 - 2) (BitVec.ofNat 64 (f 3).1)
    parts := [{ addr := a.v, size := size, data := a.bytes, psn := a.flag }] }

/-- The standby's comparison reaches the active module: bit 0 is SYNC, bit 1 says that the standby transmits from this scan on
(R225). -/
def takeComparison (s : State) (v : Word) : State :=
  updPair s fun l =>
    let l := { l with sync := tbit v 0, syncStamp := if tbit v 0 && !l.sync then s.stamp else l.syncStamp, unsure := false }
    if tbit v 1 then { l with role := 2, switchPending := false, stash := [], lines := [] } else l

/-- The partner's reset notice: a core of its has been reset, the keys of logical core `lc` leave the tables of the memory
nodes (R148). -/
def partnerNotice (s : State) (lc : Nat) : State :=
  { s with nodes := s.nodes.map fun (i, m) => (i, { m with acceptPartner := forgetKeys lc m.acceptPartner }) }

/-- PAIR_FLIT_ARRIVE (R148, R224, R225, R461): `n` is 0 an entry of the output half, 1 the carry line at offset `k`, 2 the digest
with CMD 3 in `flag`, 3 the
standby's comparison in `v`, 4 an access of the partner's, 5 its CMD 3, 6 its reset notice of logical core `k`. -/
def execPairFlitArrive (s : State) : Host.Outcome State Fault Refusal :=
  .next (if !s.pair.link then s
    else
      let a := s.input
      let s := updPair s fun l => { l with lastFlit := s.plumb, stash := l.stash.filter fun e => decide (s.plumb ≤ e.time) }
      match a.n with
      | 1 => if s.pair.role = 2 then updPair s fun l => { l with lines := l.lines ++ [(a.k, a.bytes.take 64)] } else s
      | 2 => if s.pair.role = 2 then updPair s fun l => { l with
        digest := some (BitVec.ofNat 256 (beNat a.bytes)), switchPending := a.flag } else s
      | 3 => if s.pair.role = 1 then takeComparison s a.v else s
      | 4 =>
        if nodeField a.v = 0 ∧ bits a.v 55 48 = 0 then
          { s with net := s.net ++ [.req (0x100 + homeNode (offset48 a.v)) (partnerReq a)] }
        else s
      | 5 => updPair s fun l => { l with switchPending := true }
      | 6 => partnerNotice s a.k
      | _ => s)

/-! ### The scan boundary -/

/-- The carry set as windows: offset and bytes of each. -/
def carryNow (s : State) : List (Nat × List Byte) :=
  (carryWindows s.pair).map fun w => (bits w 23 12 * 4096, memBytes s.durable (bits w 23 12 * 4096) ((bits w 11 0 + 1) * 4096))

/-- Bytes of the carry set are written, clean. -/
def carryPut (s : State) (l : List (Nat × List Byte)) : State :=
  l.foldl (fun s (o, bs) =>
    let marks := poisonStore 32 s.durablePoison o bs.length false
    { s with durable := markedStore 32 s.durable marks o bs, durablePoison := marks }) s

/-- CARRY_DIGEST_COMPARE (R224, R225, R492): the standby writes the lines of the scan whose digest arrived, and compares; where
they agree and the digest came with CMD 3, it transmits from this scan on. Lines whose digest has not arrived are not written:
a takeover discards them (R491). -/
def carryCompare (s : State) : State :=
  match s.pair.digest with
  | none => updPair { s with sent := s.sent ++ [.flit [3, 0]] } fun l => { l with sync := false }
  | some d =>
    let s := carryPut s s.pair.lines
    let ok := decide (sha256 (carryBytes s) = d) && decide (s.pair.syncFrom ≤ s.plumb)
    let goes := ok && s.pair.switchPending
    updPair { s with sent := s.sent ++ [.flit [3, BitVec.ofNat 8 (b2n ok + 2 * b2n goes)]] } fun l =>
      let l := { l with
        sync := ok, lines := [], digest := none, syncStamp := if ok && !l.sync then s.stamp else l.syncStamp
        agreed := if ok then carryNow s else l.agreed }
      if goes then { l with role := 1, switchPending := false, stash := [] } else l

/-- The active module sends the digest of its carry set, with CMD 3 where it stands; the entries of its output half and the carry
lines went out during the scan (R224). While CMD 3 stands it transmits nothing until the comparison comes (R225). -/
def carrySend (s : State) : State :=
  updPair { s with sent := s.sent ++ [.flit (2 :: BitVec.ofNat 8 (b2n s.pair.switchPending) :: beBytes 32 (sha256 (carryBytes s)).toNat)] }
    fun l => { l with unsure := l.switchPending, agreed := carryNow s }

/-- WHAT THE PAIR DOES AT A BOUNDARY, before the latch (R224, R225): a standby that takes over keeps its carry set as at the last
boundary with SYNC = 1 (R491). -/
def pairBoundary (s : State) : State :=
  let takeover := s.pair.lateFrom.isSome
  let s := if s.pair.link && decide (s.pair.role = 2) then carryCompare s
    else if s.pair.link && decide (s.pair.role = 1) then carrySend s else s
  if s.pair.role = 2 ∧ takeover then
    let late := (s.pair.stash.filter fun e => match s.pair.lateFrom with | some t => decide (t ≤ e.time) | none => false).map fun e => e.stamp.toNat
    record (updPair (carryPut s s.pair.agreed) fun l => { l with role := 1 }) 7 0x05 2 0x270 0 0xFFF 0 (late.foldl nadd []).length
  else if takeover then updPair s fun l => { l with lateFrom := none, stash := [] }
  else s

end Sys2Proof.Machine
end

