-- ==== Sys2Proof/Machine/Urgent.lean ====
section
/-! DEFINITION. Acceptance of an urgent message by its slot (R39, R48, R59 to R61, R311, R339, R409). -/

namespace Sys2Proof.Machine

/-- The urgent message that a slot may accept now, if any: the first to arrive (R59, R60). -/
def acceptable (s : State) (p n : Nat) : Option Urgent :=
  let sl := getSlot s p n
  match sl.urgents with
  | [] => none
  | u :: _ =>
    if sl.urg || sl.mwin || freezesNext sl || coreHeld (getCore s p) then none
    else match sl.st with
      | .active | .parked => if sl.jobId.toNat = u.job then some u else none
      | .empty =>
        if allotted s p n = some u.job && !stopInForce (getCore s p) && !replayElsewhere s p n u.job 0 then some u else none
      | _ => none

/-- The slot after it has accepted a message (R59). -/
def acceptedSlot (sl : Slot) (u : Urgent) : Slot :=
  let fromEmpty := decide (sl.st = .empty)
  let g := mset (mset (mset sl.g 48 { val := u.w0, psn := u.psn0 }) 49 { val := u.w1, psn := u.psn1 }) 50 { val := u.key.setWidth 64 }
  { sl with
    g := g, urgents := sl.urgents.drop 1, urgPc := if fromEmpty then sl.urgPc else sl.pc, urgFromEmpty := fromEmpty
    urg := true, st := .active, park := .none, pend := none, block := none, pc := u.entry, heldOp := false
    jobId := if fromEmpty then BitVec.ofNat 7 u.job else sl.jobId
    launchId := if fromEmpty then BitVec.ofNat 23 (u.job % 128 * 2 ^ 16) else sl.launchId
    latchSeen := 0 }

/-- Journal units of an acceptance. -/
def acceptUnits (n : Nat) (sl : Slot) : List JUnit :=
  ([48, 49, 50].map fun k => { kind := 0, target := k, data := (gCell sl k).val, psn := (gCell sl k).psn })
  ++ [{ kind := 4, target := 17, data := sl.urgPc }, { kind := 4, target := 5, data := sl.jobId.setWidth 64 },
      { kind := 4, target := 16, data := sl.pc }, stateUnit n sl]

/-- Records of an acceptance: the message's arrival order, and from Empty the dispatch (R152, R175). -/
def acceptRecords (s : State) (p n : Nat) (u : Urgent) : List Resolution :=
  (if (getSlot s p n).st = .empty then [{ type := 6, arg := 0, agent := senderKey s p n, data := u.entry }] else [])
  ++ [{ type := 4, arg := 1, agent := senderKey s p n, data := BitVec.ofNat 64 (u.rsn.toNat * 2 ^ 12 + u.key.toNat) }]

/-- ACCEPTANCE (R59): the slot enters its handler. -/
def acceptUrgent (s : State) (p n : Nat) (u : Urgent) : State :=
  let rs := acceptRecords s p n u
  match gateAll s u.job (logicalOf s p) (!u.judged) rs with
  | (.go, s) =>
    let s := noteUndo (putAll s u.job (logicalOf s p) rs) p (.urgent n u)
    let t := acceptedSlot (getSlot s p n) u
    updCore (setSlot s p n t) p fun c => journalEng { c with killed := unkilled c n } n (acceptUnits n t)
  | (.hold, s) => updSlot s p n fun sl => { sl with urgents := { u with judged := true } :: sl.urgents.drop 1 }
  | (.diverge, s) => freezeSlot (stopPoint s u.job (logicalOf s p) (senderKey s p n).toNat) p n 0x0B 0 0

/-- URGENT_ACCEPT (R59): slot `k` of core `n` accepts its first waiting message. -/
def execUrgentAccept (s : State) : Host.Outcome State Fault Refusal :=
  .next (match acceptable s s.input.n s.input.k with
    | some u => acceptUrgent s s.input.n s.input.k u
    | none => s)

end Sys2Proof.Machine
end

