-- ==== Sys2Proof/Machine/Rotation.lean ====
section
/-! DEFINITION. The rotation of a core (R45 to R47, R54, R63, R350): which slot issues next and at which core clock. -/

namespace Sys2Proof.Machine

/-- Slots that own a frame position (R45). -/
def pinnedSlots (x : Ctx) : List Nat := (x.slots.filter fun e => e.2.pin && decide (e.2.st ≠ .empty)).map fun e => e.1

/-- The earliest shared position at or after a clock (R45): at most 16 positions are owned. -/
def sharedFrom (pins : List Nat) : Nat → Nat → Nat
  | 0, t => t
  | n + 1, t => if pins.contains (t % 16) then sharedFrom pins n (t + 1) else t

/-- The unpinned Active slots, in increasing slot number. -/
def activeSet (x : Ctx) : List Nat := (x.slots.filter fun e => decide (e.2.st = .active) && !e.2.pin).map fun e => e.1

/-- The members of the pass that starts now: a slot that has yielded is left out while another remains (R350). -/
def passMembers (x : Ctx) : List Nat :=
  let ms := activeSet x
  let stay := ms.filter fun n => !(ctxSlot x n).yielded
  if stay = [] then ms else stay

/-- Positions of the members of a pass (R46): shared, rising, at least 8 clocks after the member's own last issue. -/
def positions (x : Ctx) (pins : List Nat) : Nat → List Nat → List (Nat × Nat)
  | _, [] => []
  | t, n :: r =>
    let own := match (ctxSlot x n).lastIssue with | some l => l + 8 | none => 0
    let p := sharedFrom pins 16 (max t own)
    (n, p) :: positions x pins (p + 1) r

/-- Fix the pass at a rotation boundary. -/
def startPass (c : PCore) : PCore :=
  let ms := passMembers c.res
  { c with
    pass := positions c.res (pinnedSlots c.res) c.cc ms
    res := { c.res with slots := c.res.slots.map fun (n, sl) => (n, { sl with yielded := false }) } }

/-- The next position of a pinned Active slot at or after a clock. -/
def nextPinned (c : PCore) : Option (Nat × Nat) :=
  let at_ := fun (n : Nat) => c.cc + (n + 16 - c.cc % 16) % 16
  (((pinnedSlots c.res).filter fun n => (ctxSlot c.res n).st = .active).map fun n => (n, at_ n)).foldl
    (fun b e => match b with | none => some e | some m => if e.2 < m.2 then some e else some m) none

/-- A slot that has become pinned during the pass owns its frame position from now on (R45): it issues at no shared
position, and the members whose positions it takes away move to the next shared ones. -/
def refitPass (c : PCore) : PCore :=
  let pins := pinnedSlots c.res
  let ms := c.pass.filter fun e => !pins.contains e.1
  match ms with
  | [] => { c with pass := [] }
  | (_, t) :: _ =>
    if ms.any fun e => pins.contains (e.2 % 16) then { c with pass := positions c.res pins t (ms.map fun e => e.1) }
    else { c with pass := ms }

/-- The clock at which the core's next pending write or writeback takes effect. -/
def nextDue (c : PCore) : Option Nat :=
  ((c.res.cDue.map fun e => e.1) ++ (c.res.qDue.map fun e => e.1)
      ++ (c.res.slots.map fun e => e.2.wbDue).filter fun t => decide (c.cc < t)).foldl
    (fun b t => match b with | none => some t | some m => some (min m t)) none

/-- A write or writeback falls due before clock `u`: where no slot is in the active set, the core's clock comes to it first,
since every clock until then is a rotation boundary at which a slot that it wakes may join (R46). -/
def dueBefore (c : PCore) (u : Nat) : Bool := match nextDue c with | some d => decide (d < u) | none => false

/-- The same where a pinned slot waits that the write may wake: it issues at its own position during the pass (R45). -/
def pinnedFirst (c : PCore) (u : Nat) : Bool :=
  dueBefore c u && (pinnedSlots c.res).any fun n => decide ((ctxSlot c.res n).st ≠ .active)

/-- The core with its pass fixed. -/
def fixPass (c : PCore) : PCore := if c.pass = [] then startPass c else refitPass c

/-- THE NEXT ISSUE OF A CORE: the slot and the clock, and the core with its pass fixed and the position taken; none while
the core comes to its next writeback first. -/
def nextIssue (c : PCore) : Option (Nat × Nat × PCore) :=
  let c := fixPass c
  let pin := nextPinned c
  match c.pass, pin with
  | (n, t) :: r, some (m, u) =>
    if pinnedFirst c (min t u) then none
    else if u < t then some (m, u, { c with cc := u + 1 }) else some (n, t, { c with pass := r, cc := t + 1 })
  | (n, t) :: r, none => if pinnedFirst c t then none else some (n, t, { c with pass := r, cc := t + 1 })
  | [], some (m, u) => if dueBefore c u then none else some (m, u, { c with cc := u + 1 })
  | [], none => none

/-- A due push enters its queue (R63). -/
def pushDue (x : Ctx) (e : Nat × Nat × QEntry) : Ctx := { x with q := mset x.q e.2.1 (getQ x e.2.1 ++ [e.2.2]) }

/-- Writes to common registers and pushes whose clock `due` accepts take effect, in issue order (R54, R63). -/
def landWrites (x : Ctx) (due : Nat → Bool) : Ctx :=
  let cs := x.cDue.filter fun e => due e.1
  let qs := x.qDue.filter fun e => due e.1
  let y := { x with
    c := cs.foldl (fun m e => mset m e.2.1 e.2.2) x.c
    cDue := x.cDue.filter fun e => !due e.1, qDue := x.qDue.filter fun e => !due e.1 }
  let y := qs.foldl pushDue y
  wakeCtx (awaitsQueue (qs.map fun e => e.2.1)) y

/-- Those due at clock `t`. -/
def settleCtx (x : Ctx) (t : Nat) : Ctx := landWrites x fun d => decide (d ≤ t)

/-- What is due at core `p` by clock `t` takes effect. -/
def settle (s : State) (p t : Nat) : State := updCtx s p fun x => settleCtx x t

/-- All of them: the pipeline has drained, and every writeback has been made (R56). -/
def drainCtx (x : Ctx) : Ctx :=
  let y := landWrites x fun _ => true
  { y with slots := y.slots.map fun (n, sl) => (n, { sl with wbDue := 0, wbRegs := [] }) }

/-- What is pending at a core takes effect. -/
def settleAll (s : State) (p : Nat) : State := updCtx s p drainCtx

/-- A context whose core clock starts at 0: what was due on the old clock has taken effect, and no slot has issued since
(R45, R46, R63). -/
def unclocked (x : Ctx) : Ctx :=
  let y := drainCtx x
  { y with slots := y.slots.map fun (n, sl) => (n, { sl with lastIssue := none }) }


end Sys2Proof.Machine
end

