-- ==== Sys2Proof/Machine/Keystone.lean ====
section
/-! DEFINITION. Scans, phases and gang switches (R27 to R29, R53, R157, R158, R162 to R165, R171 to R174, R177, R178, R269,
R299, R340, R489). -/

namespace Sys2Proof.Machine

/-! ### Jobs and partitions -/

def jobClass (j : Job) : Nat := bits j.record 32 31
def jobPart (j : Job) : Nat := bits j.record 119 96
def jobBudget (j : Job) : Nat := bits j.record 151 120
def jobGraph0 (j : Job) : Nat := bits j.record 71 56
def jobResum (j : Job) : Bool := tbit j.record 30
def isRt (j : Job) : Bool := decide (jobClass j = 1)

/-- Period of a core clock at an operating point, in units of 1/24 ns (R16). -/
def ticksAt (point : Nat) : Nat := if point = 0 then 20 else if point = 1 then 15 else 12

/-- The slowest clock at which a cluster may run while a phase is open: the slower of its two points during a change. -/
def clusterTicks (c : Cluster) : Nat := max (ticksAt c.cur.toNat) (if c.busy then ticksAt c.target.toNat else 0)

/-- fcc of a phase that opens now (R27). -/
def phaseTicks (s : State) (cores : List Nat) : Nat :=
  let t := cores.foldl (fun m p => max m (clusterTicks (getCluster s (clusterOf p)))) 0
  if t = 0 then 20 else t

/-- ⌈B / fcc⌉ in ns. -/
def budgetNs (b ticks : Nat) : Nat := (b * ticks + 23) / 24

/-! ### Opening a phase (R27, R28, R163) -/

/-- The phase of a job opens at `tk` with the clock period `ticks`: a new phase, or one reopened from Suspended. -/
def openPhase (s : State) (job tk ticks : Nat) : State :=
  match findJob s job with
  | none => s
  | some j =>
    let texp := tk + budgetNs (jobBudget j) ticks
    if j.phase = .suspended then
      let s := updJob s job fun j => { j with phase := .opened, resumed := true, topen := tk, texp := texp, fccTicks := ticks }
      { s with graphs := s.graphs.map fun g =>
          if g.job = job ∧ g.phase = some j.number ∧ g.st = .running then { g with topen := tk, fccTicks := ticks } else g }
    else
      updJob s job fun j => { j with
        phase := .opened, resumed := false, number := j.number + 1, topen := tk, texp := texp, fccTicks := ticks, phaseCount := 0
        origin := s.stamp, phaseCancelled := false
        prevNumber := if j.number = 0 then none else some j.number, prevState := j.phase }

/-- GRAPH0 of a phase that has just opened starts, unless an instance of the phase was suspended (R163 step 5). -/
def startGraph0 (s : State) (job : Nat) : State :=
  match findJob s job with
  | none => s
  | some j =>
    let waiting := s.graphs.any fun g => decide (g.job = job) && decide (g.phase = some j.number) && decide (g.st = .running)
    if jobGraph0 j = 0xFFFF || waiting || decide (j.phase ≠ .opened) then s
    else (startGraph s job (jobGraph0 j) (some j.number) 0xFFF j.topen j.fccTicks false).2.2

/-- A phase that has nothing to do completes at once (R28). -/
def completeIdle (s : State) (job : Nat) : State :=
  match findJob s job with
  | some j => if j.phase = .opened ∧ j.phaseCount = 0 then phaseComplete s job .complete else s
  | none => s

/-- Steps 3 to 5 of a boundary for one real-time job. A phase that is Pre-empting opens when its save has drained, with the Texp of the
boundary (R28, R489). -/
def openJob (s : State) (job tk : Nat) : State :=
  match findJob s job with
  | none => s
  | some j =>
    let late := s.switches.any fun w => decide (w.job = job)
    let s := if late then record s 7 0x02 1 0x200 job 0xFFF 0 job else s
    let ticks := phaseTicks s (partCores s j.record)
    if j.phase = .preempting then updJob s job fun j => { j with pendingOpen := some (tk, ticks) }
    else completeIdle (startGraph0 (addSwitch (openPhase s job tk ticks) job true tk) job) job

/-! ### The boundary (R163) -/

/-- A wake event for each slot of a context, whatever its state, and the slots that it changes. -/
def wakeEvents (cc : Nat) (x : Ctx) : Ctx × List Nat :=
  (upTo 16).foldl (fun (x, ns) n =>
    let sl := ctxSlot x n
    let t := wakeEvent cc sl
    if t.st = sl.st ∧ t.idleLatch = sl.idleLatch then (x, ns) else ({ x with slots := mset x.slots n t }, ns ++ [n])) (x, [])

/-- A scan boundary at a core: a wake event for every slot of both contexts (R269). -/
def wakeCoreScan (c : PCore) : PCore :=
  let (x, ns) := wakeEvents c.cc c.res
  ns.foldl (fun c n => journalEng c n [stateUnit n (ctxSlot x n)]) { c with res := x, sav := c.sav.map fun y => (wakeEvents c.cc y).1 }

/-- A scan boundary at every core that has power. -/
def wakeScan (s : State) : State :=
  { s with cores := (upTo 192).map fun p =>
      let c := getCore s p
      (p, if (getCluster s (clusterOf p)).powered then wakeCoreScan c else c) }

/-- A MODE that was written while scanning ran takes effect (R150); a new scan lets each hold be noted again (R487). -/
def mortarRenewed (m : Mortar) : Mortar :=
  match m.nextMode with
  | some d => setMode { m with notedFull := false, notedFail := false } d
  | none => { m with notedFull := false, notedFail := false }

/-- Gate entries and gate control lists that were written take effect, and every list begins its cycle (R210 to R212). -/
def gatesRenewed (s : State) (tk : Nat) : State :=
  (upTo 8).foldl portFlush { s with
    gates := s.gates.map fun (g, x) => (g, match x.next with
      | some e => { x with entry := e, next := none, recov := none, tokenTime := 0, tokens := 0 }
      | none => x)
    ports := s.ports.map fun (i, q) => (i, match q.next with
      | some l => { q with gcl := l, next := none, cur := 0, since := tk }
      | none => { q with cur := 0, since := tk }) }

/-- Real-time jobs that own cores. -/
def rtJobs (s : State) : List Nat := (s.jobs.filter fun j => isRt j && decide (jobPart j ≠ 0) && !j.cancelled).map fun j => j.id

/-- A scan has ended: a best-effort job that retired nothing in it counts it, and after 64 in a row the management core is
told (R44). The scan in which a job last retired, or was registered, is not one of them. -/
def countIdle (s : State) : State :=
  let s := { s with jobs := s.jobs.map fun j => if jobClass j = 2 then { j with idle := j.idle + 1 } else j }
  { s with sent := s.sent ++ (s.jobs.filter fun j => decide (j.idle = 65)).map fun j => .note 2 (2 ^ 33 + j.id) }

/-- THE SCAN BOUNDARY at Plumb time `tk`: the latch is that of the gates under which the frames were accepted, and entries that were
written take effect after it. -/
def scanBoundary (s : State) (tk : Nat) : State :=
  let s := { countIdle s with stamp := if s.scans = 0 then s.stamp0 else s.stamp + 1, scans := s.scans + 1 }
  let s := wakeReplay { s with mortars := s.mortars.map fun (j, m) => (j, mortarRenewed m) }
  let s := inputLatch (pairBoundary s) tk
  let s := outputsRenew (gatesRenewed s tk)
  wakeScan ((rtJobs s).foldl (fun s j => openJob s j tk) s)

/-- SCAN_BOUNDARY (R163), at or after its time. -/
def execScanBoundary (s : State) : Host.Outcome State Fault Refusal :=
  .next (if s.run && !s.latching && decide (nextBoundary s ≤ s.plumb) then scanBoundary s (nextBoundary s) else s)

/-! ### Starting and stopping (R158) -/

/-- WSW at L and at N, in ns (R165). -/
def wswL : Nat := 4531
def wswN : Nat := 3914

/-- The fit check of a real-time job against a period in µs (R160, R165). -/
def fits (j : Job) (period : Nat) : Bool := decide (budgetNs (jobBudget j) 20 + 2 * wswL ≤ period * 1000)

/-- Intervals of a gate control list sum to the period. -/
def gclFits (l : List Word) (period : Nat) : Bool := decide ((l.map fun e => bits e 31 0).foldl (· + ·) 0 = period * 1000)

/-- The conditions on which RUN = 1 starts scanning. -/
def mayStart (s : State) : Bool :=
  decide (50 ≤ s.period.toNat) && decide (s.period.toNat ≤ 1000000) && decide (s.plumb + 100000 ≤ s.start.toNat)
    && (s.jobs.all fun j => !isRt j || decide (jobPart j = 0) || fits j s.period.toNat)
    && ((upTo 64).all fun g => let e := (getGate s g).next.getD (getGate s g).entry
        !(gtV e && decide (gtKind e = 1)) || decide (gtOtx e < s.period.toNat))
    && (s.ports.all fun (_, q) => let l := q.next.getD q.gcl; decide (l = []) || gclFits l s.period.toNat)
    && !s.stopPending && !s.run

/-- A write of RUN = 1 (R158); one that is accepted leaves ERR, which falls by a write of 1 alone (logs 40 and 93). -/
def startScan (s : State) : State :=
  if s.run then s else if mayStart s then { s with run := true, scans := 0 } else { s with runErr := true }

/-- A write of RUN = 0. -/
def stopScan (s : State) : State := if s.run then { s with run := false, stopPending := true } else s

/-- SCAN_STOP_TAKES_EFFECT (R158, R178): the boundary does not occur, and Suspended phases are cancelled. -/
def execScanStopTakesEffect (s : State) : Host.Outcome State Fault Refusal :=
  .next (if s.stopPending && decide (nextBoundary s ≤ s.plumb) then
      (s.jobs.filter fun j => decide (j.phase = .suspended)).foldl (fun s j => cancelPhase s j.id) { s with stopPending := false }
    else s)

/-! ### Pre-emption at Texp (R171, R178) -/

/-- TEXP_EXPIRY (R171): the phase of job `n`. -/
def execTexpExpiry (s : State) : Host.Outcome State Fault Refusal :=
  .next (match findJob s s.input.n with
    | some j =>
      if j.phase = .opened ∧ j.texp ≤ s.plumb then
        addSwitch (updJob s j.id fun j => { j with phase := .preempting }) j.id false j.texp
      else s
    | none => s)

/-! ### The gang stop (R164, R171, R299) -/

/-- The first switch of a job in the order in which they were agreed. -/
def firstSwitch (s : State) (job : Nat) : Option Switch := s.switches.find? fun w => w.job = job

/-- Replace the first switch of a job, or remove it. -/
def putSwitch (l : List Switch) (job : Nat) (w : Option Switch) : List Switch :=
  match l with
  | [] => []
  | x :: r => if x.job = job then (match w with | some y => y :: r | none => r) else x :: putSwitch r job w

/-- Held waits of the slots of a core, with the cores that hold them. -/
def waitsOf (s : State) (p : Nat) : List (Nat × Req) :=
  s.cores.flatMap fun (q, c) => (c.waits.filter fun r => match r.src with | .slot a _ => decide (a = p) | _ => false).map fun r => (q, r)

/-- Withdraw one held wait (R299): a request is answered, a SYNC watch makes its slot reissue. -/
def withdrawOne (s : State) (e : Nat × Req) : State :=
  let r := e.2
  let s := updCore s e.1 fun c => { c with waits := c.waits.erase r }
  match r.act, r.src with
  | .joinWatch, .slot p n => updSlot s p n fun sl => if sl.park = .join then { sl with park := .reissue } else sl
  | _, _ => answerAll s r .withdrawn

/-- Refused requests that wait to be sent again are withdrawn (R463). -/
def withdrawRetries (s : State) (p : Nat) : State :=
  (getCore s p).res.slots.foldl (fun s (n, sl) => match sl.pend with
    | some d => if d.again.isSome then endWait s p n d .reissue else s
    | none => s) s

/-- Withdraw every wait of a core's slots. -/
def withdrawAll (s : State) (p : Nat) : State := withdrawRetries ((waitsOf s p).foldl withdrawOne s) p

/-- The agreed time of a gang switch of core `p` has come: at its next rotation boundary the core stops, and none of its slots
issues any more (R171). A switch that falls due during a ratio change begins when the change ends (R241). -/
def stopAsked (s : State) (p : Nat) : Bool :=
  !(getCluster s (clusterOf p)).busy
    && s.switches.any fun w => decide (w.step = .due) && decide (w.time ≤ s.plumb) && w.cores.contains p && decide (firstSwitch s w.job = some w)

/-- The core leads a coupled pair that has disagreed, or one of whose slots awaits its exchange: a rollback comes before the stop
(R477). -/
def pairBusy (s : State) (p : Nat) : Bool := pairCoupled s p && (getPair s (p / 2)).failed.isSome
def pairAwaits (s : State) (p : Nat) : Bool :=
  pairBusy s p || (pairCoupled s p && (getCore s p).res.slots.any fun e => e.2.exchanging)

/-- GANG_STOP (R164, R171): core `k` of the partition of job `n` is at a rotation boundary at or after the agreed time. -/
def execGangStop (s : State) : Host.Outcome State Fault Refusal :=
  .next (match firstSwitch s s.input.n with
    | some w =>
      let p := s.input.k
      let c := getCore s p
      if w.step ≠ .due || decide (s.plumb < w.time) || !w.cores.contains p || c.switching || decide (c.pass ≠ [])
          || (getCluster s (clusterOf p)).busy || pairAwaits s p then s
      else
        let s := withdrawAll (updCore (settleAll s p) p fun c => { c with switching := true }) p
        if w.cores.all fun q => (getCore s q).switching then { s with switches := putSwitch s.switches w.job (some { w with step := .stopped }) }
        else s
    | none => s)

/-! ### The save (R164, R172, R173) -/

/-- A message that stays where it is until something else happens. -/
def msgStuck (s : State) : Msg → Bool
  | .req d r => r.heldOp || r.tacked || (decide (d < 0x100) && awayFor s (physOf s d) r.job)
  | .fill _ job _ _ _ lc _ _ _ _ _ | .send _ job _ _ _ lc _ _ _ _ _ _ | .decr _ _ _ job _ lc _ => fallsOut s (physOf s lc) job
  | .urgent _ _ lc _ u => fallsOut s (physOf s lc) u.job
  | _ => true

/-- The agent that awaits the answer to a message. -/
def msgAgent : Msg → Agent
  | .req _ r => r.src
  | .reply d _ _ _ => d
  | .fill _ _ _ a _ _ _ _ _ _ _ | .send _ _ _ a _ _ _ _ _ _ _ _ | .urgent a _ _ _ _ | .decr a _ _ _ _ _ _ => a
  | _ => .none

/-- Something of core `p`'s slots is in flight. -/
def ofCore (p : Nat) (m : Msg) : Bool := match msgAgent m with | .slot q _ => decide (q = p) | _ => false

/-- An answer for a slot of core `p` is still on its way. -/
def answersDue (s : State) (p : Nat) : Bool :=
  s.net.any fun m => ofCore p m && (match m with | .reply _ _ _ _ => true | _ => !msgStuck s m)

/-- The reply step of a save of core `p` is not over: replies, and requests to be performed; messages have fallen out (R164, R172). -/
def saveDue (s : State) (p : Nat) : Bool :=
  s.net.any fun m => ofCore p m && (match m with | .reply _ _ _ _ => true | .req _ _ => !msgStuck s m | _ => false)

/-- Every entry is folded: the base images are what the core holds (R145, R164). -/
def foldAll (c : PCore) : PCore := { c with ring := [], baseRes := c.res, baseSav := c.sav, baseWide := c.wide }

/-- The same where the Keystone has written the context itself: what was on its way to the ring is folded too. -/
def rebase (c : PCore) : PCore := { foldAll c with shadow := [] }

/-- A local store without what stands in its task areas. -/
def clearTaskArea (m : List Host.Cell) : List Host.Cell := m.filter fun c => !inTaskArea c.1 1

/-- The real-time context formed from a background context at the first switch: the local store and the tile table are copied,
the task area is cleared (R162). -/
def formCtx (bg : Ctx) (j : Job) : Ctx :=
  { ls := clearTaskArea bg.ls, lsEmpty := bg.lsEmpty.filter (fun w => !inTaskArea (8 * w) 8)
    lsPoison := bg.lsPoison.filter (fun w => !inTaskArea (8 * w) 8), lsSetter := bg.lsSetter, tiles := bg.tiles
    regions := [{ job := j.id, pregs := j.pregs }], rtJob := some j.id }

/-- The roles of the two sets of a core swap (R143, R162). -/
def swapCtx (res inc : Ctx) (keep : Bool) (c : PCore) : PCore :=
  foldAll { c with res := dropWords inc, sav := if keep then some (dropWords res) else none, set := !c.set, pass := [] }

/-- A core in a switch: into the real-time context, or back. A context that has used the MXE is not restored on a core
without one (R177). The context of a job deleted since is not kept, and none is formed for it. -/
def swapCore (s : State) (w : Switch) (p : Nat) : State :=
  let c := getCore s p
  match w.inward, c.sav, findJob s w.job with
  | true, some y, some j =>
    if w.void then s
    else if y.rtJob = some j.id then (if y.mxseen && isClass1 s p then s else setCore s p (swapCtx c.res y true c))
    else setCore s p (swapCtx c.res (formCtx c.res j) true c)
  | true, none, some j => if w.void then s else setCore s p (swapCtx c.res (formCtx c.res j) true c)
  | false, some y, j =>
    if c.res.rtJob = some w.job then
      let keep := j.isSome && !w.void
      let t := if keep then s else recordGone s p (ctxGone c.res)
      setCore t p (swapCtx c.res y keep c)
    else s
  | _, _, _ => s

/-- A coupled lead whose contexts a gang switch has exchanged is marked anew: its journal starts at the switch (log 83). -/
def markedAnew (s : State) (p : Nat) : State :=
  let c := getCore s p
  if !pairCoupled s p then s
  else updPairChk s (p / 2) fun q => { q with
    marks := marksAt c (nextPos c), undo := []
    noted := (upTo 16).map fun n => (n, mortarNext s ((allotted s p n).getD 0)) }

/-- The phase state moves on once the save has drained (R28, R178, R158). -/
def phaseSaved (s : State) (job : Nat) : State :=
  match findJob s job with
  | none => s
  | some j =>
    if j.phase ≠ .preempting then emptySaved s job
    else if j.phaseCancelled then
      wakeAll (emptySaved (updJob s job fun j => { j with phase := .cancelled, phaseCancelled := false }) job) fun w => decide (w = .level)
    else if j.phaseCount = 0 then
      wakeAll (emptySaved (updJob s job fun j => { j with phase := .complete }) job) fun w => decide (w = .level)
    else
      let s := updJob s job fun j => { j with phase := .suspended }
      if jobResum j && s.run then s
      else
        let s := cancelPhase s job
        if jobResum j then s else record s 7 0x03 1 0x200 job 0xFFF 0 job

/-- A boundary fell during the switch: the phase opens now, with its Texp from that boundary (R489). -/
def openPending (s : State) (job : Nat) : State :=
  match findJob s job with
  | some j =>
    match j.pendingOpen with
    | some (tk, ticks) =>
      let s := updJob s job fun j => { j with pendingOpen := none }
      completeIdle (startGraph0 (addSwitch (openPhase s job tk ticks) job true tk) job) job
    | none => s
  | none => s

/-- The energy of a save and a restore (R240): each entry folded, and the 2,944 reads of the incoming set, of each core.
The background context has no job of its own: its side goes to job 0. -/
def chargeSwitch (s : State) (w : Switch) : State :=
  w.cores.foldl (fun s p =>
    let save := (getCore s p).ring.length * scaledEnergy s (clusterOf p) 250000
    let load := 2944 * scaledEnergy s (clusterOf p) 250000
    charge (charge s (if w.inward then 0 else w.job) save) (if w.inward then w.job else 0) load) s

/-- What slots of some cores have on its way at the swap, not acknowledged, has dropped out or does so when it arrives (R172, R174);
earlier such events that have left the fabric are forgotten. -/
def noteDropped (s : State) (ps : List Nat) : State :=
  let of := fun (m : Msg) => match m with
    | .req _ r | .held _ r => some (r.src, r.tag)
    | .fill _ _ _ a t _ _ _ _ _ _ | .send _ _ _ a t _ _ _ _ _ _ _ | .urgent a t _ _ _ | .decr a t _ _ _ _ _ => some (a, t)
    | _ => none
  let there := s.net.filterMap of
  let mine := there.filter fun e => match e.1 with | .slot p _ => ps.contains p | _ => false
  { s with dropped := (s.dropped.filter there.contains) ++ mine.filter fun e => !s.dropped.contains e }

/-- GANG_SAVE_DRAINED (R173): the switch of job `n`; replies are applied and the shadow queues are empty. -/
def execGangSaveDrained (s : State) : Host.Outcome State Fault Refusal :=
  .next (match firstSwitch s s.input.n with
    | some w =>
      if w.step ≠ .stopped || (w.cores.any fun p => saveDue s p || decide ((getCore s p).shadow ≠ [])) then s
      else
        let s := chargeSwitch (w.cores.foldl withdrawRetries s) w
        let s := noteDropped s w.cores
        let s := w.cores.foldl (fun s p => markedAnew (swapCore s w p) p) s
        let s := { s with switches := putSwitch s.switches w.job (some { w with step := .drained }) }
        if w.inward then s else openPending (phaseSaved s w.job) w.job
    | none => s)

/-! ### The restore (R164, R172 to R174) -/

/-- A request that a core held goes there anew: by its port where it came from the core's own slots by local address. -/
def resend (c : PCore) (p : Nat) (r : Req) : Msg := .req (if r.remote then c.lcore else 0x1000 + p) r

/-- Requests held for the context that is now resident go on, in their order (R174). -/
def reinject (s : State) (p : Nat) : State :=
  { s with net := s.net.map fun m => match m with
      | .held q r => if q = p ∧ !awayFor s p r.job then resend (getCore s p) p r else .held q r
      | m => m }

/-- GANG_RESTORE_DONE (R164): the incoming context of job `n`'s switch is in the cores; issue goes on, and an MXEPI that was
saved Waiting completes where the jobs before it have ended (R363); the frames' words are captured anew (R340), and slots
whose task was cancelled meanwhile are on their way out (R25). -/
def execGangRestoreDone (s : State) : Host.Outcome State Fault Refusal :=
  .next (match firstSwitch s s.input.n with
    | some w =>
      if w.step ≠ .drained then s
      else
        let s := { s with switches := putSwitch s.switches w.job none }
        w.cores.foldl (fun s p =>
          let s := updCore s p fun c => { c with switching := false, res := wakeCtx (fun w => decide (w = .reissue)) c.res }
          serveWaits (reinject (mxepiReady (refillFrames (wakeDoomed s p) p) p) p) p) (if w.inward || w.void then s else updJob s w.job fun j => { j with closedAt := some s.plumb })
    | none => s)

end Sys2Proof.Machine
end

