-- ==== Sys2Proof/Machine/Jobs.lean ====
section
/-! DEFINITION. Job registration and deletion, the job's cache quotas, INVAL, and the logical-to-physical core table (R38,
R53, R90, R100 to R102, R106, R150, R159 to R162, R494). -/

namespace Sys2Proof.Machine

/-! ### Registration (R159 to R161) -/

def recJobId (r : V512) : Nat := bits r 39 33
def recClass (r : V512) : Nat := bits r 32 31
def recPart (r : V512) : Nat := bits r 119 96
def recSlots (r : V512) : Nat := bits r 95 80
def recCown (r : V512) : Bool := tbit r 29
/-- The job owns the background contexts of its partition: COWN, and not real-time (R53). -/
def ownsBackground (r : V512) : Bool := recCown r && decide (bits r 32 31 ≠ 1)
def recSpilln (r : V512) : Nat := bits r 28 24
def recNwin (r : V512) : Nat := bits r 23 16
/-- Its bits 63:48 are dropped (log 94). -/
def recPregb (r : V512) : Nat := bits r 255 192 % 2 ^ 48

/-- A window entry that R161 refuses. -/
def windowBad (w : Word) : Bool :=
  let nf := nodeField w
  !(decide (0xE0 ≤ nf) && decide (nf ≤ 0xE5)) || decide (bits w 53 48 ≠ 0) || (!tbit w 55 && !tbit w 54)
    || decide ((if nf = 0xE1 then 2 ^ 24 else 2 ^ 28) < (bits w 47 12 + bits w 11 0 + 1) * 2 ^ 12)

/-- Consecutive 8-byte words of main memory at a physical address; none where one is poisoned or lies beyond the memory. -/
def physWords (job pa : Nat) : Nat → State → Option (List Word) × State
  | 0, s => (some [], s)
  | n + 1, s =>
    if 2 ^ 39 < pa + 8 then (none, s)
    else
      let (bs, psn, s) := slRead s pa 8 30 job noLaunch
      if psn then (none, s)
      else match physWords job (pa + 8) n s with
        | (some ws, s) => (some (leWord 64 bs :: ws), s)
        | (none, s) => (none, s)

/-- The PREG values from index `i` on, through the new job's page tables. -/
def readPregs (job root va : Nat) : Nat → State → Option (List Word) × State
  | 0, s => (some [], s)
  | n + 1, s =>
    match walk s job va root 4 with
    | (.error _, s) => (none, s)
    | (.ok e, s) =>
      if leafKinds e true false false false ≠ 0 then (none, s)
      else
        let (bs, psn, s) := slRead s (leafBase e + va % 2 ^ (12 + leafT e)) 8 30 job noLaunch
        if psn then (none, s)
        else match readPregs job root (va + 8) n s with
          | (some ws, s) => (some (leWord 64 bs :: ws), s)
          | (none, s) => (none, s)

/-- What registration reads: the record, its window entries, the PREG values; none gives READ. -/
def readRegistration (s : State) (a : Word) : Option (V512 × List Word × List Word) × State :=
  let pa := offset48 a
  if a.toNat % 64 ≠ 0 ∨ bits a 63 48 ≠ 0 then (none, s)
  else match physWords 0 pa 8 s with
    | (none, s) => (none, s)
    | (some ws, s) =>
      let r : V512 := ofLanes 64 ws
      match physWords 0 (pa + 64) (recNwin r) s with
      | (none, s) => (none, s)
      | (some wins, s) =>
        match readPregs (recJobId r) (bits r 191 152 * 2 ^ 12) (recPregb r) 8 s with
        | (some ps, s) => (some (r, wins, ps), s)
        | (none, s) => (none, s)

/-- RSVD of R160: CLASS against the JOBID ranges of R22, SPILLN, reserved fields, windows. -/
def recordBad (r : V512) (wins pregs : List Word) : Bool :=
  let n := recSpilln r
  let j := recJobId r
  decide (bits r 15 0 ≠ 0) || decide (recClass r = 3) || !(decide (n = 0) || (decide (4 ≤ n) && decide (n ≤ 16)))
    || (match recClass r with
      | 0 => decide (j ≠ 0)
      | 1 => !(decide (1 ≤ j) && decide (j ≤ 64))
      | _ => decide (j < 65))
    || wins.any windowBad || pregs.any fun w => tbit w 60 || decide (bits w 57 32 ≠ 0)

/-- OVERLAP of R160. -/
def partOverlaps (s : State) (r : V512) : Bool :=
  decide (recClass r = 1) && s.jobs.any fun j => isRt j && decide (jobPart j &&& recPart r ≠ 0)

/-- SLOTS of R160: by cluster, since every core of a cluster has the same allotments. -/
def slotsClash (s : State) (r : V512) : Bool :=
  decide (recClass r ≠ 1) && (upTo 24).any fun c =>
    decide (recPart r / 2 ^ c % 2 = 1) &&
      (let there := s.jobs.filter fun j => !isRt j && decide (jobPart j / 2 ^ c % 2 = 1)
       (there.any fun j => decide (recSlots j.record &&& recSlots r ≠ 0))
        || decide (4 < (there.filter fun j => decide (recSlots j.record ≠ 0)).length + b2n (decide (recSlots r ≠ 0)))
        || (recCown r && there.any fun j => recCown j.record))

/-- FIT of R160. -/
def fitFails (s : State) (r : V512) : Bool :=
  decide (recClass r = 1) && decide (recPart r ≠ 0) && decide (s.period ≠ 0)
    && !fits { id := recJobId r, record := r, pregs := [], windows := [] } s.period.toNat

/-- The code of R160 for what was read. Its reserved fields are those of the record and the windows; reserved bits of a PREG value are
not looked at (log 84). -/
def registerCode (s : State) (r : V512) (wins pregs : List Word) : Nat :=
  if recordBad r wins pregs then 1
  else if (findJob s (recJobId r)).isSome then 2
  else if partOverlaps s r then 3
  else if slotsClash s r then 4
  else if fitFails s r then 5
  else 0

/-- The gang switches of a deleted job go on without its context (R162). -/
def voidSwitches (s : State) (job : Nat) : State :=
  { s with switches := s.switches.map fun w => if w.job = job then { w with void := true } else w }

/-- A context's common registers and queues are set to 0 and emptied for a new core owner (R53). -/
def clearOwned (x : Ctx) : Ctx := { x with c := [], cDue := [], q := [], qDue := [] }

/-- Change the background context of a core: the resident one, or the saved one while a real-time context is resident. -/
def updBackground (f : Ctx → Ctx) (c : PCore) : PCore :=
  rebase (if c.res.rtJob.isNone then { c with res := f c.res } else { c with sav := c.sav.map f })

/-- A background context of a newly registered job's core: its region set, and a new owner's registers. -/
def joinBackground (r : V512) (pregs : List Word) (x : Ctx) : Ctx :=
  let x := { x with regions := (x.regions.filter fun g => g.job ≠ recJobId r) ++ [{ job := recJobId r, pregs := pregs }] }
  if recCown r then clearOwned x else x

/-- REGISTRATION OF A JOB from the record at an address: the state, whose JOBREG reads the code. -/
def registerJob (s : State) (a : Word) : State :=
  match readRegistration s a with
  | (none, s) => { s with jobRegResult := 6 }
  | (some (r, wins, pregs), s) =>
    let code := registerCode s r wins pregs
    if code ≠ 0 then { s with jobRegResult := BitVec.ofNat 32 code }
    else
      let j := recJobId r
      let s := { s with jobRegResult := 0, meters := mset s.meters j 0, activity := merase s.activity j, jobs := s.jobs ++ [{ id := j, record := r, pregs := pregs, windows := wins }]
                        ovfl := mset s.ovfl j 0 }
      let s := updMortar s j fun m => { m with seq := [] }
      if recClass r = 1 then s
      else (partCores s r).foldl (fun s p => updCore s p (updBackground (joinBackground r pregs))) s

/-! ### Deletion (R25, R53, R159) -/

/-- What a deleted job leaves of a context. -/
def leaveCtx (job : Nat) (owned : Bool) (x : Ctx) : Ctx :=
  let x := dropFrames (fun f => decide (frJob f = job)) x
  let x := { x with regions := x.regions.filter (fun g => g.job ≠ job), spilled := merase x.spilled job }
  if owned && x.rtJob.isNone then clearOwned x else x

/-- What a deleted job leaves of a core: engine jobs not granted or started go; its saved real-time context goes. -/
def leaveCore (job : Nat) (owned : Bool) (c : PCore) : PCore :=
  let c := { c with
    res := leaveCtx job owned c.res
    sav := match c.sav with
      | some x => if x.rtJob = some job then none else some (leaveCtx job owned x)
      | none => none
    wide := { c.wide with mxq := c.wide.mxq.filter fun j => j.granted || decide (j.job ≠ job) }
    hodq := c.hodq.filter fun t => t.started || decide (t.job ≠ job) }
  rebase { c with contribs := c.contribs.filter (fun x => x.job ≠ job), results := c.results.filter fun x => x.1 ≠ job }

/-- Cards of a job leave the vision queues. -/
def leaveVision (s : State) (job : Nat) : State :=
  { s with visionQ := s.visionQ.map fun (k, l) => (k, l.filter fun v => v.job ≠ job) }

/-- DELETION OF A JOB: it is cancelled and its identifier is freed; 0 and an identifier not registered are ignored. -/
def deleteJob (s : State) (j : Nat) : State :=
  match findJob s j with
  | none => s
  | some r =>
    if j = 0 then s
    else
      let part := partCores s r.record
      let s := emptySaved (voidSwitches (leaveVision (cancelJob s j) j) j) j
      let s := s.cores.foldl (fun s (p, c) => match c.sav with
        | some x => if x.rtJob = some j then recordGone s p (ctxGone x) else s
        | none => s) s
      let before := s.cores
      let s := { s with jobs := s.jobs.filter fun x => x.id ≠ j
                        cores := s.cores.map fun (p, c) => (p, leaveCore j (ownsBackground r.record && part.contains p) c) }
      let s := before.foldl (fun s (p, c) => watchRefill s p (withoutFrames (fun f => decide (frJob f = j)) c.res)) s
      wakeAll s fun w => decide (w = .mxe) || decide (w = .hod) || decide (w = .room) || decide (w = .reduction) || decide (w = .level)

/-! ### Quotas (R106) -/

/-- The sum of a field of the other jobs' quotas. -/
def quotaSum (s : State) (job hi lo : Nat) : Nat := (s.quotas.filter fun e => e.1 ≠ job).foldl (fun n e => n + bits e.2 hi lo) 0

/-- A write of QUOTA of a job: refused, it keeps its value and sets QERR. -/
def writeQuota (s : State) (job : Nat) (v : Word) : State :=
  let old := (mget s.quotas job).getD 0
  let err := tbit old 63 && !tbit v 63
  let way := bits v 4 0
  let keep := bits v 12 8
  if 16 < way ∨ 15 < keep ∨ 16 < quotaSum s job 4 0 + way ∨ 15 < quotaSum s job 12 8 + keep then
    { s with quotas := mset s.quotas job (BitVec.ofNat 64 (2 ^ 63 + bits old 12 0)) }
  else { s with quotas := mset s.quotas job (BitVec.ofNat 64 (b2n err * 2 ^ 63 + keep * 2 ^ 8 + way)) }

/-- QUOTA_WRITE (R106): job `n`, value `v`. -/
def execQuotaWrite (s : State) : Host.Outcome State Fault Refusal := .next (writeQuota s (s.input.n % 128) s.input.v)

/-! ### INVAL (R100) -/

/-- INVC is ignored: SZ above 36, or VA not aligned to the size. -/
def invcBad (a v : Word) : Bool := decide (36 < bits v 27 22) || decide (bits a 47 12 % 2 ^ bits v 27 22 ≠ 0)

/-- A write of INVC that the arbiter performs as number `q`. -/
def writeInvc (s : State) (v : Word) (q : BitVec 32) : State :=
  if !tbit v 0 || s.invBusy || invcBad s.inva v then s
  else { s with invc := v, invAt := s.inva, invBusy := true, invSeq := q }

/-- A range of virtual addresses that the command in progress names. -/
def invRange (s : State) : Nat × Nat × Nat := (bits s.invc 39 33, bits s.invAt 47 12 * 2 ^ 12, 2 ^ (12 + bits s.invc 27 22))

/-- A cached translation that a command drops. -/
def invHits (r : Nat × Nat × Nat) (t : Tlb) : Bool :=
  decide (t.job = r.1) && decide (t.va * 2 ^ t.bits < r.2.1 + r.2.2) && decide (r.2.1 < (t.va + 1) * 2 ^ t.bits)

/-- An address of the job was translated by an entry that a command drops: it lies in the range, or an entry that covers it does
in part. -/
def invTouches (s : State) (r : Nat × Nat × Nat) (va : Nat) : Bool :=
  let covers := fun (t : Tlb) => invHits r t && decide (va / 2 ^ t.bits = t.va)
  (decide (r.2.1 ≤ va) && decide (va < r.2.1 + r.2.2)) || (s.nodes.any fun e => e.2.tlb.any covers) || s.coreTlb.any fun e => e.2.any covers

/-- An access that such an entry translated is not complete: it is in flight, it dropped out after its acknowledgement, or a core's
interface holds it, as a wait or acknowledged for LOCK. One that LOCK holds without an acknowledgement is translated anew. -/
def translatedDue (s : State) (i : Nat × Nat × Nat) : Bool :=
  let due := fun (r : Req) => decide (r.job = i.1) && decide (r.phys ≠ []) && (reqAddrs r).any (invTouches s i)
  (s.net.any fun m => match m with
    | .req _ r => due r
    | .held _ r => due r
    | _ => false) || s.cores.any fun (_, c) => c.waits.any due || c.lockHeld.any fun r => r.tacked && due r

/-- Every node drops the entries. -/
def dropTlbs (s : State) (r : Nat × Nat × Nat) : State :=
  { s with nodes := s.nodes.map fun (i, n) => (i, { n with tlb := n.tlb.filter fun t => !invHits r t })
           coreTlb := s.coreTlb.map fun (p, l) => (p, l.filter fun t => !invHits r t) }

/-- The command in progress completes: DONE advances. -/
def completeInval (s : State) : State :=
  if !s.invBusy || translatedDue s (invRange s) then s
  else { dropTlbs s (invRange s) with invBusy := false, invDone := s.invSeq }

/-! ### The LPCT (R101, R102) -/

/-- A slot that a remap would destroy. -/
def slotBusy (sl : Slot) : Bool := decide (sl.st ≠ .empty) && decide (sl.st ≠ .starting)

/-- A physical core that takes a logical core's state must be named by no other mapped entry and hold no busy slot. -/
def coreFreeFor (s : State) (n p : Nat) : Bool :=
  let c := getCore s p
  !((upTo 192).any fun m => decide (m ≠ n) && lpctV s m && decide (physOf s m = p))
    && !(c.res.slots.any fun e => slotBusy e.2) && !(match c.sav with | some x => x.slots.any fun e => slotBusy e.2 | none => false)

/-- A write to entry `n` is refused (R101); one of a PCORE above 191 is too (log 39). -/
def lpctRefused (s : State) (n : Nat) (v : Word) : Bool :=
  let p := bits v 7 0
  (s.remaps.any fun r => decide (r.1 = n)) || decide (191 < p) || (isClass1 s p != isClass1 s (physOf s n))
    || (decide (p ≠ physOf s n) && !coreFreeFor s n p)

/-- A WRITE TO LPCTn: refused with ERR, or a remap for the LPCT unit when it changes PCORE or V. -/
def writeLpct (s : State) (n : Nat) (v : Word) : State :=
  let e := lpctEntry s n
  let e := if tbit v 62 then setBits e 62 62 0 else e
  let s := { s with lpct := mset s.lpct n e }
  if lpctRefused s n v then { s with lpct := mset s.lpct n (setBits e 62 62 1) }
  else if bits v 7 0 = physOf s n ∧ tbit v 15 = lpctV s n then s
  else { s with remaps := s.remaps ++ [(n, v)] }

/-- LPCT_WRITE (R101): entry `n`, value `v`. -/
def execLpctWrite (s : State) : Host.Outcome State Fault Refusal := .next (writeLpct s (s.input.n % 192) s.input.v)

/-- The entry with PCORE and V of a write. -/
def setEntry (s : State) (n : Nat) (v : Word) : State :=
  let e := setBits (setBits (lpctEntry s n) 7 0 (bits v 7 0)) 15 15 (bits v 15 15)
  { s with lpct := mset s.lpct n e, remaps := s.remaps.filter fun r => r.1 ≠ n }

/-- The physical core of the remap in progress, whose tiles no new grant or transfer start may touch. -/
def remapCore (s : State) : Option Nat :=
  match s.remaps with
  | (n, v) :: _ => if bits v 7 0 = physOf s n then none else some (physOf s n)
  | [] => none

/-- No tile is Filling or Draining (R102 step 1), and none of the core's jobs is in its cluster's array, which a move does not take along
(log 57). -/
def tilesQuiet (c : PCore) : Bool :=
  let quiet := fun (x : Ctx) => x.tiles.all fun e => decide (tileState e.2 ≠ 1) && decide (tileState e.2 ≠ 3)
  quiet c.res && (match c.sav with | some x => quiet x | none => true) && !(c.wide.mxq.any fun j => j.granted)

/-- A tile that moves with its core: it is not Empty in the table of either context (R102, R162). -/
def tileMoves (c : PCore) (t : Nat) : Bool :=
  let full := fun (x : Ctx) => decide (tileState (tileEntry x t) ≠ 0)
  full c.res || match c.sav with | some x => full x | none => false

/-- The bytes of a buffer after a move: those of tiles that are not Empty, from the old core; the rest as they were. -/
def moveTiles (c : PCore) (lo n : Nat) (old new : List Host.Cell) : List Host.Cell :=
  (upTo n).foldl (fun m t =>
    if tileMoves c (lo + t) then memStore m (4096 * t) (memBytes old (4096 * t) 4096) else m) new

/-- Poison of a buffer after a move. -/
def moveMarks (c : PCore) (lo n : Nat) (old new : List Nat) : List Nat :=
  let moves := fun (k : Nat) => decide (k / 512 < n) && tileMoves c (lo + k / 512)
  (old.filter moves).foldl nadd (new.filter fun k => !moves k)

/-- A context on another core: its captured frame words are fetched anew, as after a restore (R340), and its slots have not
issued on that core's clock (R46). -/
def movedCtx (x : Ctx) : Ctx := unclocked (dropWords x)

/-- The state of a logical core as the core that takes it holds it: contexts, core-wide image, interface, the tiles not
Empty; the rest belongs to the physical core. -/
def moveInto (src dst : PCore) : PCore :=
  let c := foldAll { src with
    res := movedCtx src.res, sav := src.sav.map movedCtx
    wb := moveTiles src 0 32 src.wb dst.wb, wbPoison := moveMarks src 0 32 src.wbPoison dst.wbPoison
    ab := moveTiles src 32 16 src.ab dst.ab, abPoison := moveMarks src 32 16 src.abPoison dst.abPoison }
  { c with
    cc := dst.cc, pass := [], watch := dst.watch, whit := dst.whit, stopping := none, stopSrc := dst.stopSrc, lock := dst.lock
    temp := dst.temp, thermFrozen := dst.thermFrozen, hotSamples := dst.hotSamples, beaten := dst.beaten, misses := dst.misses
    captured := dst.captured, beatFrom := dst.beatFrom, capturedAt := dst.capturedAt, killed := 0, dcmdSeen := dst.dcmdSeen, coreFault := dst.coreFault, corrected := dst.corrected
    victim := dst.victim, vacated := false, halted := false, lockHeld := [] }

/-- The core that a logical core has left: its slots are Empty and it takes no frame until an entry names it again. -/
def moveOut (src dst : PCore) : PCore :=
  { moveInto { PCore.init dst.lcore with lcore := dst.lcore } src with
    wb := src.wb, wbPoison := src.wbPoison, ab := src.ab, abPoison := src.abPoison, vacated := true }

/-- Agents of a moved core's slots. -/
def moveAgent (old new : Nat) : Agent → Agent
  | .slot p n => if p = old then .slot new n else if p = new then .slot old n else .slot p n
  | a => a

/-- The core that takes the place of another, when two change places. -/
def otherCore (old new p : Nat) : Nat := if p = old then new else if p = new then old else p

/-- The local port of a moved core. -/
def movePort (old new d : Nat) : Nat := if 0x1000 ≤ d then 0x1000 + otherCore old new (d - 0x1000) else d

/-- A message in flight after a logical core has moved between physical cores: what belongs to its slots follows. -/
def moveMsg (old new : Nat) : Msg → Msg
  | .req d r => .req (movePort old new d) { r with src := moveAgent old new r.src }
  | .held p r => .held (otherCore old new p) { r with src := moveAgent old new r.src }
  | .reply a t n x => .reply (moveAgent old new a) t n x
  | .fill k j r a t lc sl v reg val q => .fill k j r (moveAgent old new a) t lc sl v reg val q
  | .send k j r a t lc sl x y q z m => .send k j r (moveAgent old new a) t lc sl x y q z m
  | .urgent a t lc sl u => .urgent (moveAgent old new a) t lc sl u
  | .decr a t k j r lc i => .decr (moveAgent old new a) t k j r lc i
  | .steal p sl v j => .steal (otherCore old new p) sl v j
  | .notice n j va k p sl => .notice n j va k (otherCore old new p) sl
  | m => m

/-- Requests of moved slots that other cores hold. -/
def moveWaits (old new : Nat) (c : PCore) : PCore :=
  let f := fun (r : Req) => { r with src := moveAgent old new r.src }
  { c with waits := c.waits.map f, lockHeld := c.lockHeld.map f }

/-- A gang switch of a partition after a core of it has moved. -/
def moveSwitch (old new : Nat) (w : Switch) : Switch := { w with cores := w.cores.map (otherCore old new) }

/-- THE MOVE OF A LOGICAL CORE from a physical core to another (R102): state, requests held there, and what is in
flight for its slots. -/
def moveCore (s : State) (old new : Nat) : State :=
  let a := getCore s old
  let b := getCore s new
  let held := a.lockHeld.map (resend a old)
  let s := setCore (setCore s new (moveInto a b)) old (moveOut a b)
  { s with cores := s.cores.map fun (p, c) => (p, moveWaits old new c)
           net := (held ++ s.net).map (moveMsg old new), heldMsgs := s.heldMsgs.map (moveMsg old new)
           dropped := s.dropped.map fun e => (moveAgent old new e.1, e.2), switches := s.switches.map (moveSwitch old new) }

/-- LPCT_REMAP (R102): the remap at the head of the LPCT unit. A change of V alone is applied; a move waits for the tiles,
stops the core at a rotation boundary, waits for its replies and its drain, and then is one step. -/
def execLpctRemap (s : State) : Host.Outcome State Fault Refusal :=
  .next (match s.remaps with
    | [] => s
    | (n, v) :: _ =>
      let p := physOf s n
      let q := bits v 7 0
      let c := getCore s p
      if p = q then updCore (setEntry s n v) p fun c => { c with vacated := false }
      else if !tilesQuiet c || (s.migrations.any fun m => [m.1, m.2].contains p || [m.1, m.2].contains q) then s
      else if !c.halted then (if c.pass = [] then updCore (settleAll s p) p fun c => { c with halted := true } else s)
      else if answersDue s p || decide (c.shadow ≠ []) then s
      else refillFrames (setEntry (moveCore s p q) n v) q)

end Sys2Proof.Machine
end

