-- ==== Sys2Proof/Machine/MortarUnit.lean ====
section
/-! DEFINITION. The Mortar unit at the Keystone (R150, R154, R155, R478, R487, R488): descriptor writes, appending, replay,
divergence by timeout. -/

namespace Sys2Proof.Machine

/-! ### The descriptor (R150) -/

/-- A byte string with bytes replaced from a position on. -/
def patch (old : List Byte) (at_ : Nat) (bs : List Byte) : List Byte := old.take at_ ++ bs ++ old.drop (at_ + bs.length)

/-- LSIZE as stored: 8 to 28, anything else stores 8. -/
def storedLsize (n : Nat) : BitVec 5 := if 8 ≤ n ∧ n ≤ 28 then BitVec.ofNat 5 n else 8

/-- MODE after a write of `d`: while scanning runs it waits for the boundary; a write of the mode in force is no change. -/
def putMode (run : Bool) (m : Mortar) (d : BitVec 3) : Mortar :=
  if run then { m with nextMode := if d = m.mode then none else some d }
  else if d = m.mode then { m with nextMode := none }
  else setMode m d

/-- The descriptor after a write that gives it these 256 bits; `moded` when the write covers MODE. -/
def putDescriptor (run moded : Bool) (m : Mortar) (v : BitVec 256) : Mortar :=
  let m := { m with
    base := v.extractLsb' 192 64, wptr := v.extractLsb' 160 32, rptr := v.extractLsb' 128 32, hwm := v.extractLsb' 96 32
    lsize := storedLsize (bits v 95 91), divto := v.extractLsb' 0 32 }
  if moded then putMode run m (v.extractLsb' 88 3) else m

/-- A write of bytes at an offset of a job's descriptor. -/
def writeMortar (s : State) (job off : Nat) (bs : List Byte) : State :=
  let v : BitVec 256 := leWord 256 (patch (natBytes 32 (mortarBits (getMortar s job)).toNat) off bs)
  wakeReplay (updMortar s job fun m => putDescriptor s.run (decide (off ≤ 11) && decide (11 < off + bs.length)) m v)

/-- MORTAR_DESC_WRITE (R150): doubleword `k` of the descriptor of job `n` := `v`. -/
def execMortarDescWrite (s : State) : Host.Outcome State Fault Refusal :=
  .next (writeMortar s (s.input.n % 128) (8 * (s.input.k % 4)) (natBytes 8 s.input.v.toNat))

/-! ### Appending (R154) -/

/-- Room for one more record: in mode 3 a full ring loses its oldest. -/
def makeRoom (m : Mortar) : Mortar :=
  if (m.wptr - m.rptr).toNat < 2 ^ m.lsize.toNat then m
  else { m with rptr := m.rptr + 1, ovcnt := if m.ovcnt = BitVec.allOnes 24 then m.ovcnt else m.ovcnt + 1 }

/-- The slot of a job that an agent code names, in the resident context or in the saved one. -/
def agentSlot (s : State) (job agent : Nat) : Slot :=
  let p := physOf s (agent / 16)
  let c := getCore s p
  ctxSlot (if savedFor s p job then c.sav.getD {} else c.res) (agent % 16)

/-- A record of a pop by an instruction that waits for its reply, and exists only if the instruction retires (R433). -/
def provisional (s : State) (job : Nat) (r : BitVec 128) : Bool :=
  let m := getMortar s job
  let a := BitVec.ofNat 12 (recAgent r)
  decide (recAgent r < 3072) && popRecord a r && (match lentTo m a, (agentSlot s job (recAgent r)).pend with
    | some l, some d => decide (d.pops ≠ []) && decide ((m.queue.filter (popRecord a)).length ≤ l.recs)
    | _, _ => false)

/-- The oldest record that can be appended: one that must wait keeps those of its point behind it (log 90). -/
def appendable (waits : BitVec 128 → Bool) : List Nat → List (BitVec 128) → Option (BitVec 128)
  | _, [] => none
  | ps, r :: l =>
    if ps.contains (recPoint r) then appendable waits ps l
    else if waits r then appendable waits (recPoint r :: ps) l
    else some r

/-- The oldest record that can go goes to the ring; a write that fails keeps it. -/
def appendRecord (s : State) (job : Nat) : State :=
  let m := getMortar s job
  match appendable (provisional s job) [] m.queue with
  | none => s
  | some r =>
    match writeVirtual s job (ringAddr m m.wptr) (natBytes 16 r.toNat) with
    | (.ok _, s) => updMortar s job fun m =>
        let m := if m.mode = 3 then makeRoom m else m
        { m with queue := m.queue.erase r, wptr := m.wptr + 1 }
    | (.error _, s) => noteHold s job 0x09 (r.extractLsb' 92 12) (BitVec.ofNat 64 (ringAddr m m.wptr)) (recPoint r)

/-- MORTAR_RECORD_APPEND (R154): the unit appends the oldest record that it holds for job `n`. -/
def execMortarRecordAppend (s : State) : Host.Outcome State Fault Refusal := .next (appendRecord s s.input.n)

/-- MORTAR_WRITE_RETRY (R154): the write of job `n` is tried again, and operations held for it look again. -/
def execMortarWriteRetry (s : State) : Host.Outcome State Fault Refusal :=
  .next (if (getMortar s s.input.n).notedFail then wakeReplay (appendRecord s s.input.n) else s)

/-! ### Replay (R155, R488) -/

/-- A corrupt record is not handed to its point, nor is any after it. -/
def corruptRecord (s : State) (job : Nat) (va point : Nat) : State :=
  record (updMortar s job fun m => { m with corrupt := true }) 6 0x06 2 0x200 job 0xFFF (BitVec.ofNat 64 va) point

/-- Hand a record to its point: where the point had none, its timeout starts. -/
def handRecord (s : State) (job : Nat) (r : BitVec 128) : State :=
  wakeReplay (updMortar s job fun m =>
    { m with handed := m.handed ++ [(m.loaded, r)], loaded := m.loaded + 1
             since := if handedTo m (recPoint r) = [] then mset m.since (recPoint r) s.plumb else m.since })

/-- MORTAR_REPLAY_FETCH (R155): the unit reads the next record of job `n`. -/
def execMortarReplayFetch (s : State) : Host.Outcome State Fault Refusal :=
  .next (
    let job := s.input.n
    let m := getMortar s job
    if m.mode ≠ 2 ∨ m.corrupt ∨ m.loaded = m.wptr ∨ 2 ^ m.lsize.toNat ≤ (m.loaded - m.rptr).toNat then s
    else
      let va := ringAddr m m.loaded
      match readVirtual s job va 16 with
      | (.ok (bs, psn), s) =>
        let r : BitVec 128 := leWord 128 bs
        if psn || !recGood r then corruptRecord s job va (recPoint r) else handRecord s job r
      | (.error _, s) => let (x, s) := drawNat s; corruptRecord s job va (x % 2 ^ 12))

/-- The slot of a job that an agent code names is Frozen (R410, R414). -/
def agentFrozen (s : State) (job agent : Nat) : Bool := decide (agent < 0xC00) && decide ((agentSlot s job agent).st = .frozen)

/-- DIVTO in ns: 0 means 1,000 µs. -/
def divergeNs (m : Mortar) : Nat := if m.divto = 0 then 1000000 else m.divto.toNat * 1000

/-- The point that holds a message in flight. -/
def pointOfMsg (s : State) : Msg → Option (Nat × Nat)
  | .req d r => if !r.heldOp then none else some (if 0x1000 ≤ d then logicalOf s (d - 0x1000) else d, r.job)
  | .fill k j r a t lc n v g x q =>
    if s.heldMsgs.contains (.fill k j r a t lc n v g x q) then some (lc, j) else none
  | .send k j r a t lc n w x y z g =>
    if s.heldMsgs.contains (.send k j r a t lc n w x y z g) then some (lc, j) else none
  | .decr a t k j r lc i => if s.heldMsgs.contains (.decr a t k j r lc i) then some (lc, j) else none
  | _ => none

/-- The sender of a held message freezes by the reply it gets. -/
def raiseMsg (s : State) : Msg → State
  | .req _ r => answerAll s r (.raise 0x0B 0)
  | .fill _ _ _ a t _ _ _ _ _ _ => reply s a t (.raise 0x0B 0)
  | .send _ _ _ a t _ _ _ _ _ _ _ => reply s a t (.raise 0x0B 0)
  | .decr a t _ _ _ _ _ => reply s a t (.raise 0x0B 0)
  | _ => s

/-- Slots of the resident context whose own operations a point holds freeze with fault 0x0B. -/
def freezeHere (s : State) (p job : Nat) : State :=
  (getCore s p).res.slots.foldl (fun s (n, sl) =>
    if sl.heldOp && decide (sl.park = .replay) && decide (sl.jobId.toNat = job) then freezeSlot s p n 0x0B 0 0 else s) s

/-- An operation on the saved context of core `p`, done as if it were the resident one. -/
def onSaved (s : State) (p : Nat) (f : State → State) : State :=
  let c := getCore s p
  match c.sav with
  | none => s
  | some y =>
    let t := f (setCore s p { c with res := y })
    updCore t p fun d => { d with res := c.res, sav := some d.res }

/-- Slots whose own operations a point holds freeze with fault 0x0B, also those of a saved context. -/
def freezeHeld (s : State) (job point : Nat) : State :=
  let p := physOf s point
  onSaved (freezeHere s p job) p fun s => freezeHere s p job

/-- Full/empty forms of a job that a core's interface holds although their condition holds: the Mortar holds them, and their slots
freeze by the reply. -/
def raiseWaits (s : State) (p job : Nat) : State :=
  let c := getCore s p
  let mine := fun (r : Req) => decide (r.job = job) && (match r.act with | .fe _ => heldReady c.res r | _ => false)
  (c.waits.filter mine).foldl (fun s r => answerAll s r (.raise 0x0B 0))
    (updCore s p fun c => { c with waits := c.waits.filter fun r => !mine r })

/-- Every slot with an operation of a job held at a point freezes. -/
def divergeAll (s : State) (job point : Nat) : State :=
  let mine := fun m => decide (pointOfMsg s m = some (point, job))
  let gone := s.net.filter mine
  let t := { s with net := s.net.filter fun m => !mine m, heldMsgs := s.heldMsgs.filter fun m => !mine m }
  let t := gone.foldl raiseMsg t
  if point < 192 then freezeHeld (raiseWaits t (physOf t point) job) job point else t

/-- DIVERGENCE_TIMEOUT (R488): at point `k` of job `n`. -/
def execDivergenceTimeout (s : State) : Host.Outcome State Fault Refusal :=
  .next (
    let m := getMortar s s.input.n
    match handedTo m s.input.k with
    | r :: _ =>
      let t := (mget m.since s.input.k).getD s.plumb
      if m.mode ≠ 2 ∨ m.stopped.contains s.input.k ∨ agentFrozen s s.input.n (recAgent r) ∨ s.plumb < t + divergeNs m then s
      else stopPoint (divergeAll s s.input.n s.input.k) s.input.n s.input.k 0xFFF
    | [] => s)

/-- A slot resumes from Frozen: the timeouts of the points that wait for it start anew (R410). -/
def restartTimeouts (s : State) (p n : Nat) : State :=
  let k := (senderKey s p n).toNat
  { s with mortars := s.mortars.map fun (j, m) =>
      (j, m.handed.foldl (fun m e =>
        match handedTo m (recPoint e.2) with
        | r :: _ => if recAgent r = k then { m with since := mset m.since (recPoint e.2) s.plumb } else m
        | [] => m) m) }

end Sys2Proof.Machine
end

