-- ==== Sys2Proof/Machine/VisionBlock.lean ====
section
/-! DEFINITION. Vision command blocks and their checks (R196 to R198). -/

namespace Sys2Proof.Machine

/-! ### Fields (R197) -/

def vbSrc0 (b : V512) : Word := b.extractLsb' 448 64
def vbSrc1 (b : V512) : Word := b.extractLsb' 384 64
def vbOut (b : V512) : Word := b.extractLsb' 320 64
def vbFine (b : V512) : Word := b.extractLsb' 256 64
def vbPred (b : V512) : Word := b.extractLsb' 192 64
def vbPar2 (b : V512) : Word := b.extractLsb' 128 64
def vbPar1 (b : V512) : Word := b.extractLsb' 64 64
def vbW (b : V512) : Nat := 16 * (bits b 63 56 + 1)
def vbH (b : V512) : Nat := 4 * (bits b 55 46 + 1)
def vbPitch (b : V512) : Nat := bits b 45 32 * 64
def vbEng (b : V512) : Nat := bits b 31 30
def vbUnit (b : V512) : Nat := bits b 29 28
def vbRthr (b : V512) : Nat := bits b 27 20
def vbOsidx (b : V512) : Nat := bits b 19 8

/-! ### Parameters (R198) -/

def stP1 (b : V512) : Nat := bits (vbPar1 b) 63 56
def stP2 (b : V512) : Nat := bits (vbPar1 b) 55 48
def stTexmin (b : V512) : Nat := bits (vbPar1 b) 47 40
def stLrt (b : V512) : Nat := bits (vbPar1 b) 39 32
def stDmax (b : V512) : Nat := bits (vbPar1 b) 31 20
def stPmode (b : V512) : Nat := bits (vbPar1 b) 19 18
def stPa (b : V512) : Int := ((vbPar2 b).extractLsb' 48 16).toInt
def stPb (b : V512) : Int := ((vbPar2 b).extractLsb' 32 16).toInt
def stPc (b : V512) : Nat := bits (vbPar2 b) 31 16
def flEref (b : V512) : BitVec 32 := (vbPar1 b).extractLsb' 32 32
def flKx (b : V512) : Int := ((vbPar1 b).extractLsb' 16 16).toInt
def flKy (b : V512) : Int := ((vbPar1 b).extractLsb' 0 16).toInt
def flEncw (b : V512) : Nat := bits (vbPar2 b) 63 45
def flTexmin (b : V512) : Nat := bits (vbPar2 b) 44 37
def ftThr (b : V512) : Nat := bits (vbPar1 b) 63 56
def ftMaxf (b : V512) : Nat := bits (vbPar1 b) 55 43
def ftMw (b : V512) : Nat := bits (vbPar1 b) 42 36
def ftMaxd (b : V512) : Nat := bits (vbPar1 b) 35 27
def wpMode (b : V512) : Nat := bits (vbPar1 b) 63 62
def wpFill (b : V512) : Nat := bits (vbPar1 b) 61 54
def wpSw (b : V512) : Nat := 16 * (bits (vbPar1 b) 53 46 + 1)
def wpSh (b : V512) : Nat := 4 * (bits (vbPar1 b) 45 36 + 1)
def wpSpitch (b : V512) : Nat := bits (vbPar1 b) 35 22 * 64

/-! ### Checks -/

/-- Width, height and pitch in bytes are within their limits. -/
def sizesOk (w h pitch : Nat) : Bool :=
  decide (64 ≤ w) && decide (w ≤ 4096) && decide (16 ≤ h) && decide (h ≤ 4096) && decide (w ≤ pitch)

/-- An address is 64-byte aligned in node field 0x00 or 0xE3. -/
def vAddrOk (a : Word) : Bool := decide (a.toNat % 64 = 0) && (decide (bits a 63 56 = 0) || decide (bits a 63 56 = 0xE3))

/-- The addresses that an engine needs. -/
def vNeeded (b : V512) : List Word :=
  match vbEng b with
  | 0 => [vbSrc0 b, vbSrc1 b, vbOut b, vbFine b] ++ if stPmode b = 0 then [vbPred b] else []
  | 1 => [vbSrc0 b, vbSrc1 b, vbOut b, vbFine b]
  | 2 => [vbSrc0 b, vbOut b, vbPred b]
  | _ => [vbSrc0 b, vbOut b, if wpMode b = 0 then vbPred b else vbSrc1 b]

/-- PAR1 and PAR2 hold no reserved value and nothing outside its limits (R198). -/
def vParsOk (b : V512) : Bool :=
  match vbEng b with
  | 0 => decide (stP1 b ≤ stP2 b) && decide (stPmode b ≠ 3) && decide (bits (vbPar1 b) 17 0 = 0) && decide (bits (vbPar2 b) 15 0 = 0)
  | 1 => decide (bits (vbPar2 b) 36 0 = 0) && decide (vbPred b = 0)
  | 2 => decide (1 ≤ ftMaxf b) && decide (ftMaxf b ≤ 4096) && decide (ftMw b ≤ 64) && decide (ftMaxd b ≤ 256)
      && decide (bits (vbPar1 b) 26 0 = 0) && decide (vbPar2 b = 0) && decide (vbFine b = 0)
  | _ => decide (wpMode b ≤ 1) && decide (bits (vbPar1 b) 21 0 = 0) && decide (vbPar2 b = 0) && decide (vbFine b = 0)
      && sizesOk (wpSw b) (wpSh b) (wpSpitch b)

/-- A card's block is refused with RSVD (R198). -/
def visionRefused (b : V512) : Bool :=
  decide (bits b 7 0 ≠ 0) || decide (vbUnit b = 3) || !sizesOk (vbW b) (vbH b) (vbPitch b) || !vParsOk b
    || !([vbSrc0 b, vbSrc1 b, vbOut b, vbFine b, vbPred b].all vAddrOk) || (vNeeded b).any fun a => decide (a = 0)

end Sys2Proof.Machine
end

