-- ==== Sys2Proof/Machine/Cards.lean ====
section
/-! DEFINITION. Time points and starts of job cards (R34, R166 to R170, R173, R180, R191, R193, R196, R494). -/

namespace Sys2Proof.Machine

/-! ### Triggers (R168) -/

/-- A card of an instance that has not started, while the instance runs. -/
def cardWaits (g : Graph) (card : Nat) : Bool :=
  decide (g.st = .running) && g.cards.contains card && !g.started.contains card

/-- The phase of an instance is Open, or it belongs to none: its cards may start (R173). -/
def phaseOpenFor (s : State) (g : Graph) : Bool :=
  match g.phase with
  | none => true
  | some n => match findJob s g.job with
    | some j => decide (j.number = n) && decide (j.phase = .opened)
    | none => false

/-- The Plumb time of a card's time point, in the current opening. -/
def timePoint (g : Graph) (c : V512) : Nat := g.topen + budgetNs (cardOffset c * 256) g.fccTicks

/-- The time point lies within the opening. -/
def pointInPhase (s : State) (g : Graph) (t : Nat) : Bool :=
  match g.phase, findJob s g.job with
  | some _, some j => decide (t ≤ j.texp)
  | _, _ => true

/-- CARD_TIME_POINT (R168): card `k` of the instance `n` (generation × 256 + number). -/
def execCardTimePoint (s : State) : Host.Outcome State Fault Refusal :=
  .next (match findGraph s s.input.n with
    | none => s
    | some g =>
      if !cardWaits g s.input.k || g.timeMet.contains s.input.k || !phaseOpenFor s g then s
      else match findJob s g.job with
        | none => s
        | some j => match readRecord s g.job (cardAddr j s.input.k) with
          | (none, s) => s
          | (some c, t) =>
            if timePoint g c ≤ s.plumb && pointInPhase s g (timePoint g c) then
              updGraph t s.input.n fun g => { g with timeMet := nadd g.timeMet s.input.k }
            else s)

/-- The trigger of a card is met; the reserved TRIG 3 counts as the predecessor's, and the card is then refused. -/
def triggerMet (g : Graph) (card : Nat) (c : V512) : Bool :=
  match cardTrig c with
  | 1 => g.timeMet.contains card
  | 2 => g.timeMet.contains card && g.predMet.contains card
  | _ => g.predMet.contains card

/-! ### The checks of R169 -/

/-- Regions of a card. -/
def cardReads (c : V512) : List Word := [lane 64 c 2, lane 64 c 3, lane 64 c 4, lane 64 c 5]
def cardWrites (c : V512) : List Word := [lane 64 c 6, lane 64 c 7]

/-- RSVD of a card's own fields. -/
def cardBad (c : V512) : Bool :=
  decide (2 ^ 31 < cardLimit c) || decide (bits c 23 0 ≠ 0) || decide (4 < cardKind c) || decide (cardTrig c = 3)
    || !((cardReads c ++ cardWrites c).all regionGood) || (decide (cardKind c ≤ 2) && decide (192 ≤ cardCore c) && decide (cardCore c ≠ 0xFF))

/-- STALE: none where the stamp word cannot be read. -/
def cardStale (s : State) (j : Job) (c : V512) : Option Bool × State :=
  if cardSidx c = 0xFFF then (some false, s)
  else match readVirtual s j.id (bits j.record 383 320 % 2 ^ 48 + 4 * cardSidx c) 4 with
    | (.ok (bs, false), s) => (some (decide (cardLimit c < (s.stamp - leWord 32 bs).toNat)), s)
    | (_, s) => (none, s)

/-! ### The card core (R170) -/

/-- A logical core lies in the job's PART and is mapped and not fenced. -/
def cardCoreOk (s : State) (j : Job) (lc : Nat) : Bool :=
  decide (lc < 192) && tbit j.record (96 + lc / 8) && lpctV s lc && !(getCluster s (clusterOf (physOf s lc))).fenced

/-- The lowest-numbered core that the Keystone may choose. -/
def chooseCore (s : State) (j : Job) : Option Nat :=
  (upTo 192).find? fun n => cardCoreOk s j n && (isRt j || decide (recSlots j.record ≠ 0))

/-- In Mortar mode 2, the core whose point's next record is a DISP record with ARG 1 that names an ENTRY (R494). -/
def replayCore (s : State) (job : Nat) (entry : Word) : Option Nat :=
  let m := getMortar s job
  (upTo 192).find? fun n => match handedTo m n with
    | r :: _ => decide (recType r = 6) && decide (recArg r = 1) && decide (recData r = entry)
    | [] => false

/-- Where a card runs: a core, a refusal, or not yet. -/
inductive Placement where
  | core (lc : Nat)
  | refused
  | later
  deriving DecidableEq, Repr

/-- The card core of a card of KIND 0, 1 or 2; `entry` is a task frame's first PC. The reserved CORE 192 to 254 is refused. -/
def placeCard (s : State) (j : Job) (c : V512) (entry : Word) : Placement :=
  if cardCore c ≠ 0xFF then (if cardCoreOk s j (cardCore c) then .core (cardCore c) else .refused)
  else if cardKind c = 0 && decide (mortarMode s j.id = 2) then
    match replayCore s j.id entry with
    | some n => .core n
    | none => .later
  else match chooseCore s j with
    | some n => .core n
    | none => .refused

/-! ### Room (R170, R196) -/

/-- The command block of a card; none where it cannot be read. Kind 4 and the reserved kinds have none to read. -/
def cardBlock (s : State) (j : Job) (c : V512) (card : Nat) : Option V512 × State :=
  if 4 ≤ cardKind c then (some 0, s) else readRecord s j.id (cmdAddr j card)

/-- The queue of a card's engine, or the launch numbers of its core, have room: for a hod transfer in the order in which
slots and cards began to wait (R170). -/
def roomAt (s : State) (ref card : Nat) (c b : V512) (p : Nat) : Bool :=
  match cardKind c with
  | 0 => (freeSeq (getCore s p)).isSome
  | 1 => decide ((getCore s p).wide.mxq.length < 16)
  | 2 => hodTurn s p (cardWaiter ref card)
  | 3 => decide (((mget s.visionQ (vbEng b)).getD []).length < 16)
  | _ => true

/-- Where a card would run now: its card core with room for it, a refusal, or not yet. -/
def cardRoom (s : State) (g : Graph) (j : Job) (c : V512) (b : Option V512) (card : Nat) : Placement :=
  match b with
  | none => .refused
  | some b =>
    let at_ := if cardKind c ≤ 2 then placeCard s j c (frEntry b) else .core 0
    match at_ with
    | .core lc => if roomAt s (graphRef g) card c b (physOf s lc) then .core lc else .later
    | x => x

/-- A card goes on waiting for room: one for a hod's queue keeps its place among those that wait (R170). -/
def keepArmed (s : State) (g : Graph) (j : Job) (c : V512) (b : Option V512) (card : Nat) : State :=
  match cardKind c, placeCard s j c (frEntry (b.getD 0)) with
  | 2, .core lc => waitHod s (physOf s lc) (cardWaiter (graphRef g) card)
  | _, _ => s

/-! ### Checks of each kind (R31, R169, R180, R191, R193, R494) -/

/-- The ring object of a card's transfer, read on the part of its hod: refused where it cannot be read (R193). -/
def cardRing (s : State) (j p : Nat) (rs : List Word) : EngAns Bool :=
  if hdKind rs ≠ 5 then .ok true s
  else if !ringAddrOk (hdDst rs) then .ok false s
  else match engRead1 s { job := j, key := 0xC10 + clusterOf p, src := 0x230 + clusterOf p, core := p } (hdDst rs) 32 with
    | .ok (bs, psn) s => .ok (!psn && ringRowsOk (leWord 256 bs) rs) s
    | .bad _ _ s => .ok false s
    | .wait => .wait

/-- The registers of a hod transfer in a command block. -/
def blockRegs (b : V512) : List Word := (upTo 8).map fun i => lane 64 b i

/-- RSVD of a command block for a card that runs on core `p`. -/
def blockRefused (s : State) (j : Job) (c b : V512) (p : Nat) : EngAns Bool :=
  match cardKind c with
  | 0 => .ok (frReserved b || decide (frKind b ≠ 0) || decide (frJob b ≠ j.id)) s
  | 1 => .ok (cardBlockRefused b || !holdOk (getCore s p) b (mbFmtc b)) s
  | 2 =>
    let rs := blockRegs b
    if (hodCheck rs).isSome || decide (hdFrd rs ≠ 0) || decide (hdFwr rs ≠ 0) then .ok true s
    else match cardRing s j.id p rs with
      | .ok good s => .ok (!good) s
      | e => e
  | 3 => .ok (visionRefused b) s
  | _ => .ok false s

/-! ### Starting each kind -/

/-- The instance counts a card as started and the card takes STAT 2, with the enqueue status 0. -/
def noteStart (s : State) (ref card job : Nat) : State :=
  setCardStat (updGraph s ref fun g => { g with started := nadd g.started card }) job card 2 (some 0)

/-- A launch of one task (KIND 0), counted in the levels above it (R23, R170). -/
def startLaunch (s : State) (g : Graph) (j : Job) (b : V512) (card lc : Nat) : State :=
  let p := physOf s lc
  match freeSeq (getCore s p) with
  | none => s
  | some q =>
    let l := lc * 256 + q
    let s := addLaunch s p { seq := q, job := j.id, phase := g.phase, card := some (graphRef g, card), count := 1 }
    let s := levelUp s j.id g.phase
    { s with net := s.net ++ [.frame lc lc (setBits b 175 160 l) 0] }

/-- The stochastic seed of a card's epilogue. -/
def cardSeed (g : Graph) (card : Nat) : BitVec 32 :=
  let v := BitVec.ofNat 32 (g.gen.toNat * 2 ^ 16 + card % 2 ^ 16)
  if v = 0 then 1 else v

/-- An MXE job (KIND 1). -/
def startMxe (s : State) (g : Graph) (j : Job) (c b : V512) (card lc : Nat) : State :=
  let p := physOf s lc
  let m : MxJob := { id := engineId lc 15 (getCore s p).mxCount, job := j.id, slot := 15, blk := b, fmt := mbFmtc b, frm := mbFrmc b
                     epi := mbEpic b, decay := mbDecay b, seed := cardSeed g card, card := some (graphRef g, card)
                     launch := noLaunch, order := s.nextOrder, footR := cardReads c, footW := cardWrites c }
  updCore { s with nextOrder := s.nextOrder + 1 } p fun k =>
    { k with mxCount := k.mxCount + 1, wide := { k.wide with mxq := k.wide.mxq ++ [m] } }

/-- A hod transfer (KIND 2). -/
def startHod (s : State) (g : Graph) (j : Job) (c b : V512) (card lc : Nat) : State :=
  let p := physOf s lc
  let rs := blockRegs b
  let n := (mget (getCore s p).hodCount 16).getD 0
  let t : Xfer := { id := engineId lc 15 n, job := j.id, slot := 15, regs := rs, card := some (graphRef g, card), launch := noLaunch
                    order := s.nextOrder, footR := cardReads c, footW := cardWrites c, tilesW := hdTilesW rs, tilesR := hdTilesR rs }
  tookHod (updCore { s with nextOrder := s.nextOrder + 1 } p fun k =>
    { k with hodq := k.hodq ++ [t], hodCount := mset k.hodCount 16 (n + 1) }) p (cardWaiter (graphRef g) card)

/-- A vision job (KIND 3). -/
def startVision (s : State) (g : Graph) (j : Job) (c b : V512) (card : Nat) : State :=
  let e := vbEng b
  let q := (mget s.visionQ e).getD []
  let v : Vision := { inst := graphRef g, card := card, job := j.id, blk := b, order := s.nextOrder, footR := cardReads c, footW := cardWrites c }
  { s with nextOrder := s.nextOrder + 1, visionQ := mset s.visionQ e (q ++ [v]) }

/-- The start by KIND: STAT 2 and the job is enqueued; a note is complete at its start. -/
def startKind (s : State) (g : Graph) (j : Job) (c b : V512) (card lc : Nat) : State :=
  let s := noteStart s (graphRef g) card j.id
  match cardKind c with
  | 0 => startLaunch s g j b card lc
  | 1 => startMxe s g j c b card lc
  | 2 => startHod s g j c b card lc
  | 3 => startVision s g j c b card
  | _ => cardComplete s (graphRef g) card

/-- The checks of R34 and R169 of a card that has room at core `lc`, in their order after NEED: the code of the first that
fails, 0 where none does; none while a ring object cannot be read yet. -/
def cardCode (s : State) (j : Job) (c b : V512) (lc : Nat) : Option (Nat × State) :=
  if cardBad c then some (2, s)
  else match blockRefused s j c b (physOf s lc) with
    | .wait => none
    | .bad _ _ s => some (2, s)
    | .ok true s => some (2, s)
    | .ok false s => match cardStale s j c with
      | (none, s) => some (2, s)
      | (some true, s) => some (4, s)
      | (some false, s) => some (0, s)

/-- A CARD WHOSE TRIGGER IS MET (R34, R169, R170, R196): it stays armed until there is room for it; then the checks in
their order, and its start or its refusal. -/
def startCard (s : State) (g : Graph) (j : Job) (c : V512) (card : Nat) : State :=
  let ref := graphRef g
  let (b, t) := cardBlock s j c card
  match cardRoom t g j c b card with
  | .later => keepArmed s g j c b card
  | .refused => cardRefused t ref card (if cardKind c = 0 ∧ 112 < frNeed (b.getD 0) then 1 else 2)
  | .core lc =>
    if cardKind c = 0 ∧ 112 < frNeed (b.getD 0) then cardRefused t ref card 1
    else match cardCode t j c (b.getD 0) lc with
      | none => s
      | some (0, t) => startKind t g j c (b.getD 0) card lc
      | some (code, t) => cardRefused t ref card code

/-- CARD_START (R169): card `k` of the instance `n` (generation × 256 + number), when its trigger is met; one whose record can no
longer be read is refused at once, its trigger met or not (log 27). -/
def execCardStart (s : State) : Host.Outcome State Fault Refusal :=
  .next (match findGraph s s.input.n with
    | none => s
    | some g =>
      if !cardWaits g s.input.k || !phaseOpenFor s g then s
      else match findJob s g.job with
        | none => s
        | some j => match readRecord s g.job (cardAddr j s.input.k) with
          | (none, t) => cardRefused t s.input.n s.input.k 2
          | (some c, t) => if triggerMet g s.input.k c then startCard t g j c s.input.k else s)

end Sys2Proof.Machine
end

