-- ==== Sys2Proof/Machine/Ecc.lean ====
section
/-! DEFINITION. The Reed–Solomon code word of a burst of main memory, its check symbols and its decoder (R454). -/

namespace Sys2Proof.Machine

/-! ### The field of 256 elements -/

/-- α times an element, by the field polynomial x⁸ + x⁴ + x³ + x² + 1. -/
def gfTwice (a : Nat) : Nat := if a < 128 then 2 * a else (2 * a) ^^^ 0x11D

/-- The product by the `n` low bits of the second factor. -/
def gfTimes : Nat → Nat → Nat → Nat
  | 0, _, _ => 0
  | n + 1, a, b => (if b % 2 = 1 then a else 0) ^^^ gfTimes n (gfTwice a) (b / 2)

/-- The product of two elements. -/
def gfMul (a b : Nat) : Nat := gfTimes 8 a b

/-- A power of α. -/
def gfAlpha : Nat → Nat
  | 0 => 1
  | n + 1 => gfTwice (gfAlpha n)

/-- The inverse of an element: its power 254. -/
def gfInv (a : Nat) : Nat :=
  let a2 := gfMul a a
  let a4 := gfMul a2 a2
  let a8 := gfMul a4 a4
  let a16 := gfMul a8 a8
  let a32 := gfMul a16 a16
  let a64 := gfMul a32 a32
  [a4, a8, a16, a32, a64, gfMul a64 a64].foldl gfMul a2

/-! ### The code word -/

/-- A polynomial, highest coefficient first, times x - r. -/
def polyTimesRoot (l : List Nat) (r : Nat) : List Nat :=
  (l ++ [0]).zipWith (· ^^^ ·) (0 :: l.map (gfMul r))

/-- g(x), whose roots are α⁰ to α³. -/
def burstPoly : List Nat := ((upTo 4).map gfAlpha).foldl polyTimesRoot [1]

/-- One step of the division by g(x): a data symbol enters the remainder. -/
def divideStep (r : List Nat) (d : Nat) : List Nat :=
  (r.drop 1 ++ [0]).zipWith (· ^^^ ·) ((burstPoly.drop 1).map (gfMul (d ^^^ r.headD 0)))

/-- The check symbols of 32 data symbols: the remainder by g(x). -/
def burstChecks (l : List Nat) : List Nat := l.foldl divideStep [0, 0, 0, 0]

/-- The code word of a sector. -/
def burstOf (bs : List Byte) : List Nat :=
  let l := bs.map fun b => b.toNat
  l ++ burstChecks l

/-- The poison code word, which is none of the code. -/
def poisonBurst : List Nat := List.replicate 32 0 ++ [0xA5, 0x00, 0x5A, 0x00]

/-! ### The decoder -/

/-- Value at α^j of a received word as a polynomial. -/
def syndrome (l : List Nat) (j : Nat) : Nat := l.foldl (fun a d => gfMul a (gfAlpha j) ^^^ d) 0

/-- What the decoder makes of a burst. -/
inductive Decoded where
  | poison
  /-- a code word, after the correction of this number of symbols -/
  | word (data : List Nat) (fixed : Nat)
  | uncorrectable
  deriving DecidableEq, Repr

/-- Change the symbol whose power of x is `k`. -/
def fixSymbol (l : List Nat) (k y : Nat) : List Nat :=
  (l.zip (upTo 36)).map fun (d, i) => if i + k = 35 then d ^^^ y else d

/-- One symbol of value y at power k gives the syndromes y α^(jk). -/
def oneSymbol (l : List Nat) (s : List Nat) : Option (List Nat) :=
  ((upTo 36).find? fun k => decide (s = (upTo 4).map fun j => gfMul (s.headD 0) (gfAlpha (j * k)))).bind fun k =>
    if s.headD 0 = 0 then none else some (fixSymbol l k (s.headD 0))

/-- Two symbols at powers i < k: their values follow from the first two syndromes, and all four must agree. -/
def twoSymbols (l : List Nat) (s : List Nat) : Option (List Nat) :=
  ((upTo 36).flatMap fun i => (upTo i).map fun k => (i, k)).findSome? fun (i, k) =>
    let a := gfAlpha i
    let b := gfAlpha k
    let y := gfMul (s.getD 1 0 ^^^ gfMul b (s.getD 0 0)) (gfInv (a ^^^ b))
    let z := s.getD 0 0 ^^^ y
    if y ≠ 0 ∧ z ≠ 0 ∧ s = (upTo 4).map (fun j => gfMul y (gfAlpha (j * i)) ^^^ gfMul z (gfAlpha (j * k)))
    then some (fixSymbol (fixSymbol l i y) k z) else none

/-- THE DECODER of MEMECC.DMODE: every burst is compared with the poison code word first. -/
def decodeBurst (dmode : BitVec 2) (l : List Nat) : Decoded :=
  let s := (upTo 4).map (syndrome l)
  if l = poisonBurst then .poison
  else if s = [0, 0, 0, 0] then .word (l.take 32) 0
  else match dmode.toNat with
    | 0 => match oneSymbol l s with
      | some w => .word (w.take 32) 1
      | none => match twoSymbols l s with
        | some w => .word (w.take 32) 2
        | none => .uncorrectable
    | 1 => match oneSymbol l s with
      | some w => .word (w.take 32) 1
      | none => .uncorrectable
    | _ => .uncorrectable

end Sys2Proof.Machine
end

