-- ==== Sys2Proof/Machine/MxMath.lean ====
section
/-! DEFINITION. What the matrix engine computes (R69, R84 to R86, R184 to R187, R189, R465): steps, the entry check,
the epilogue. -/

namespace Sys2Proof.Machine

/-! ### Element formats (R70) -/

/-- Format of an element code: a float format, or the width and signedness of integers. -/
def elemFloat (c : Nat) : Option FFmt :=
  match c with
  | 0 => some .bf16 | 1 => some .f16 | 2 => some .fp8a | 3 => some .fp8b | 4 => some .fp6a | 5 => some .fp6b | 6 => some .fp4
  | _ => none
/-- An integer element code is signed. -/
def elemSigned (c : Nat) : Bool := decide (c = 7) || decide (c = 9)

/-- The value of an element's bits (R65, R86 for integers): a 16-bit element may be an infinity, although R85 names fp8b alone
(log 77). -/
def elemVal (c x : Nat) : Val :=
  match elemFloat c with
  | some f => valOf f x
  | none =>
    let w := elemBits c
    if elemSigned c && decide (2 ^ (w - 1) ≤ x) then .fin true (2 ^ w - x) 0 else .fin false x 0

/-- `n` elements of `w` bits from a number, the lowest first (R69). -/
def unpackNat (w : Nat) : Nat → Nat → List Nat
  | 0, _ => []
  | n + 1, x => x % 2 ^ w :: unpackNat w n (x / 2 ^ w)

/-- Elements packed into a number (R69). -/
def packElems (w : Nat) : List Nat → Nat
  | [] => 0
  | x :: r => x % 2 ^ w + 2 ^ w * packElems w r

/-! ### Exact sums (R84, R85, R465) -/

/-- Exact sum: a NaN or opposite infinities give NaN. -/
def exactAdd (x y : Val) : Val :=
  match x, y with
  | .nan s, _ => .nan s
  | _, .nan s => .nan s
  | .inf a, .inf b => if a = b then .inf a else .nan false
  | .inf a, .fin _ _ _ => .inf a
  | .fin _ _ _, .inf b => .inf b
  | .fin n1 m1 e1, .fin n2 m2 e2 => let (n, m, e) := sumExact n1 m1 e1 n2 m2 e2; .fin n m e

/-- Exact product: 0 × ∞ gives NaN. -/
def exactMul (x y : Val) : Val := (mulExact x y).getD (.nan false)

/-- Exact sum of a list; an exact sum of zero is +0 (log 77). -/
def exactSum (vs : List Val) : Val := vs.foldl exactAdd (.fin false 0 0)

/-- A value times a block scale (R84): the scale 0xFF is NaN. -/
def scaled (v : Val) (x : Nat) : Val := if x = 0xFF then .nan false else v.scale ((x : Int) - 127)

/-! ### Streams (R181) -/

/-- One row of a step: its elements, each with its block scale. -/
abbrev StepRow := List Val

/-- Rows of a step from the bytes of a stream. -/
def stepRows (c n : Nat) : List Nat → List Byte → List StepRow
  | [], _ => []
  | x :: r, bs =>
    let k := n * elemBits c / 8
    ((unpackNat (elemBits c) n (leNat (bs.take k))).map fun e => scaled (elemVal c e) x) :: stepRows c n r (bs.drop k)

/-- The steps of an operand: `steps` left, first index `at_`, the scales in force, the bytes. -/
def parseSteps (c n rows : Nat) (sc : Bool) : Nat → Nat → List Nat → List Byte → List (List StepRow)
  | 0, _, _, _ => []
  | steps + 1, at_, xs, bs =>
    let load := sc && decide (at_ % 32 = 0)
    let xs := if load then (bs.take rows).map fun b => b.toNat else xs
    let bs := if load then bs.drop rows else bs
    stepRows c n xs bs :: parseSteps c n rows sc steps (at_ + n) xs (bs.drop (rows * (n * elemBits c / 8)))

/-- Number of steps of a job. -/
def mbSteps (b : V512) (f : BitVec 10) : Nat := mbK b / fmtTerms f

/-- The A steps of a job. -/
def stepsA (b : V512) (f : BitVec 10) (bs : List Byte) : List (List StepRow) :=
  parseSteps (fmtA f) (fmtTerms f) (mbM b) (fmtSa f) (mbSteps b f) 0 (List.replicate (mbM b) 127) bs
/-- The B steps of a job. -/
def stepsB (b : V512) (f : BitVec 10) (bs : List Byte) : List (List StepRow) :=
  parseSteps (fmtB f) (fmtTerms f) (mbN b) (fmtSb f) (mbSteps b f) 0 (List.replicate (mbN b) 127) bs

/-! ### Accumulation (R84 to R86, R184) -/

/-- Exact dot product of two rows of a step. -/
def stepSum (a b : StepRow) : Val := exactSum ((a.zip b).map fun e => exactMul e.1 e.2)

/-- An exact integer. -/
def valInt : Val → Int
  | .fin n m e => (if n then -1 else 1) * ((m * 2 ^ e.toNat : Nat) : Int)
  | _ => 0

/-- The accumulator after one step. -/
def accStep (int : Bool) (acc : BitVec 32) (v : Val) : BitVec 32 :=
  if int then acc + BitVec.ofInt 32 (valInt v)
  else BitVec.ofNat 32 (addVal .fp32 0 (valOf .fp32 acc.toNat) v).1

/-- The accumulator before the first step. -/
def accStart (int : Bool) (acm : Nat) (d x : BitVec 32) : BitVec 32 :=
  if acm = 0 then 0
  else if acm = 2 && !int then BitVec.ofNat 32 (mulVal .fp32 0 (valOf .fp32 x.toNat) (valOf .fp32 d.toNat)).1
  else x

/-- One step over the whole tile, row by row. -/
def tileStep (int : Bool) (tile : List (BitVec 32)) (as bs : List StepRow) : List (BitVec 32) :=
  (tile.zip (as.flatMap fun a => bs.map fun b => stepSum a b)).map fun e => accStep int e.1 e.2

/-- Every step, in increasing order of K. -/
def tileSteps (int : Bool) (tile : List (BitVec 32)) (as bs : List (List StepRow)) : List (BitVec 32) :=
  (as.zip bs).foldl (fun t e => tileStep int t e.1 e.2) tile

/-- The perturbation of STAGE 0 (R189). -/
def perturb (int : Bool) (m n : Nat) (w : Word) (tile : List (BitVec 32)) : List (BitVec 32) :=
  let i := bits w 61 55
  let j := bits w 54 48
  if tbit w 63 && !tbit w 62 && decide (i < m) && decide (j < n) then
    let k := i * n + j
    let v : BitVec 32 := w.setWidth 32
    lset tile k (accStep int ((tile[k]?).getD 0) (if int then .fin false v.toNat 0 else valOf .fp32 v.toNat))
  else tile

/-! ### The entry check (R465) -/

/-- Value of an accumulator element. -/
def accVal (int : Bool) (x : BitVec 32) : Val :=
  if int then .fin (decide (x.toInt < 0)) x.toInt.natAbs 0 else valOf .fp32 x.toNat

/-- Columns of a matrix of rows of `n`. -/
def columns {α : Type} (n : Nat) (rows : List (List α)) : List (List α) := (upTo n).map fun j => rows.filterMap fun r => r[j]?

/-- Cut a tile into rows of `n`. -/
def tileRows {α : Type} (n m : Nat) (t : List α) : List (List α) := (upTo m).map fun i => (t.drop (i * n)).take n

/-- A sum passes: an exact value against the check sum, magnitude `mu`, `terms` elements, `k` roundings. -/
def sumPasses (int : Bool) (terms k : Nat) (got want mu : Val) : Bool :=
  if int then decide ((valInt got - valInt want) % 2 ^ 32 = 0)
  else match exactAdd got want.neg with
    | .fin _ m e =>
      let tol := exactAdd (exactMul (.fin false k (-24)) mu) (.fin false (terms * k) (-150))
      match tol with
      | .fin _ _ _ => cmpVal (.fin false m e) tol ≠ .gt
      | _ => true
    | _ => true

/-- Check sums of the rows of one operand order: rows of c0, steps of the row operand, steps of the other. -/
def checkSums (c0 : List (List Val)) (as bs : List (List StepRow)) : List Val :=
  let add := fun (acc : List Val) (e : List StepRow × List StepRow) =>
    let beta := (columns ((e.2.head?.getD []).length) e.2).map exactSum
    (acc.zip e.1).map fun r => exactAdd r.1 (stepSum r.2 beta)
  (as.zip bs).foldl add (c0.map exactSum)

/-- Magnitudes. -/
def absRows (t : List (List Val)) : List (List Val) := t.map fun r => r.map Val.abs

/-- First failing row of a tile, counted from 1; 0 where none fails. -/
def firstFailing (int : Bool) (k : Nat) (c0 tile : List (List Val)) (as bs : List (List StepRow)) : Nat :=
  let want := checkSums c0 as bs
  let mu := checkSums (absRows c0) (as.map absRows) (bs.map absRows)
  let terms := (tile.head?.getD []).length
  match (((tile.map exactSum).zip (want.zip mu)).map fun e => sumPasses int terms k e.1 e.2.1 e.2.2).findIdx? (fun ok => !ok) with
  | some i => i + 1
  | none => 0

/-- The first failing row and column, counted from 1; 0 where none fails. -/
def entryCheck (int : Bool) (m n k : Nat) (c0 tile : List (BitVec 32)) (as bs : List (List StepRow)) : Nat × Nat :=
  let c := tileRows n m (c0.map (accVal int))
  let t := tileRows n m (tile.map (accVal int))
  (firstFailing int k c t as bs, firstFailing int k (columns n c) (columns n t) bs as)

/-! ### Activations (R186) -/

/-- x × σ(num / den) rounded once to fp32, for a finite x and an exact argument: x / (1 + e^(−y)). -/
def sigmoidTimes (neg : Bool) (m : Nat) (e : Int) (num : Int) (den : Nat) : Nat :=
  let z := num.natAbs
  let code :=
    if 128 * den ≤ z then if num < 0 then 0 else (roundMag .fp32 0 false neg { m := m, e := e }).1
    else
      let zf := z * 2 ^ fxBits / den
      let k := zf / ln2Fx
      let ex := expFx (zf % ln2Fx)
      -- e^z = 2^k × ex; σ(−z) = 1 / (1 + e^z), σ(z) = e^z / (1 + e^z)
      let d := 2 ^ fxBits / 2 ^ k + ex
      if num < 0 then (roundMag .fp32 0 false neg { m := m * (2 ^ (2 * fxBits) / d), e := e - (fxBits : Int) - (k : Int), sticky := true }).1
      else (roundMag .fp32 0 false neg { m := m * (ex * 2 ^ fxBits / d), e := e - (fxBits : Int), sticky := true }).1
  if code % 2 ^ 31 < 0x00800000 then 0 else code

/-- SiLU. -/
def silu (x : Nat) : Nat :=
  match valOf .fp32 x with
  | .nan _ => FFmt.fp32.canonNan
  | .inf n => if n then 0 else FFmt.fp32.infCode
  | .fin n m e =>
    let v : Int := if n then -(m : Int) else m
    if 0 ≤ e then sigmoidTimes n m e (v * 2 ^ e.toNat) 1 else sigmoidTimes n m e v (2 ^ (-e).toNat)

/-- GELU, tanh form: 0.5 (1 + tanh u) = σ(2 u), with u = 0.797884561 (x + 0.044715 x³). -/
def gelu (x : Nat) : Nat :=
  match valOf .fp32 x with
  | .nan _ => FFmt.fp32.canonNan
  | .inf n => if n then 0 else FFmt.fp32.infCode
  | .fin n m e =>
    let v : Int := if n then -(m : Int) else m
    let c : Int := 2 * 797884561
    if 0 ≤ e then
      let y := v * 2 ^ e.toNat
      sigmoidTimes n m e (c * (1000000 * y + 44715 * y * y * y)) (10 ^ 15)
    else
      let d := 2 ^ (-e).toNat
      sigmoidTimes n m e (c * (1000000 * v * (d * d : Nat) + 44715 * v * v * v)) (10 ^ 15 * (d * d * d))

/-- The floor of a finite value. -/
def floorVal (n : Bool) (m : Nat) (e : Int) : Int :=
  let v : Int := if n then -(m : Int) else m
  if 0 ≤ e then v * 2 ^ e.toNat else v / 2 ^ (-e).toNat

/-- Entry of the activation table. -/
def tableIndex (x tlo tstep : Val) : Nat :=
  match exactMul (exactAdd x tlo.neg) tstep with
  | .nan _ => 0
  | .inf n => if n then 0 else 255
  | .fin n m e => (clampInt 0 255 (floorVal n m e)).1.toNat

/-- Stage 5. -/
def activate (epi : Word) (table : Map (BitVec 32)) (x : Nat) : Nat :=
  let v := valOf .fp32 x
  if v.isNan then FFmt.fp32.canonNan
  else match epiAct epi with
    | 0 => x
    | 1 => (minMax .fp32 true x 0).1
    | 2 => gelu x
    | 3 => silu x
    | _ => ((mget table (tableIndex v (valOf .bf16 (bits epi 63 48)) (valOf .bf16 (bits epi 47 32)))).getD 0).toNat

/-- Stages 2 to 5 of one element: bias and scale of its column. -/
def elementOut (int : Bool) (epi : Word) (table : Map (BitVec 32)) (bias scale : Nat) (x : BitVec 32) : Nat :=
  let x := if int then (ofInt .fp32 0 x.toInt).1 else x.toNat
  let x := if tbit epi 9 then (addVal .fp32 0 (valOf .fp32 x) (valOf .fp32 bias)).1 else x
  let x := if tbit epi 8 then (mulVal .fp32 0 (valOf .fp32 x) (valOf .fp32 scale)).1 else x
  activate epi table x

/-! ### Quantisation (R77, R80, R186, R188) -/

/-- The quantisation of an element overflowed or saturated. -/
def saturated (v : Val) (fl : Flags) : Bool := fl &&& flOF ≠ 0 || (fl &&& flNV ≠ 0 && !v.isNan)

/-- One value to an element code: its encoding, whether it saturated, the stochastic state. -/
def quantOne (ofmt : Nat) (frm : BitVec 6) (v : Val) (l : BitVec 32) : Nat × Bool × BitVec 32 :=
  let rm := bits frm 2 0
  let nsat := tbit frm 5
  match elemFloat ofmt with
  | some f =>
    if tbit frm 3 && decide (2 ≤ ofmt) then
      let (c, fl, l) := sroundVal f nsat v l
      (c, saturated v fl, l)
    else
      let (c, fl) := roundVal f rm nsat v
      (c, saturated v fl, l)
  | none =>
    let w := elemBits ofmt
    let lo : Int := if elemSigned ofmt then -(2 ^ (w - 1) : Int) else 0
    let hi : Int := if elemSigned ofmt then 2 ^ (w - 1) - 1 else 2 ^ w - 1
    let (r, fl) := toInt rm lo hi v
    ((r % 2 ^ w).toNat, saturated v fl, l)

/-- Values in order: encodings, number saturated, stochastic state. -/
def quantMany (ofmt : Nat) (frm : BitVec 6) : List Val → BitVec 32 → List Nat × Nat × BitVec 32
  | [], l => ([], 0, l)
  | v :: r, l =>
    let (c, sat, l) := quantOne ofmt frm v l
    let (cs, n, l) := quantMany ofmt frm r l
    (c :: cs, n + b2n sat, l)

/-- A block of R80: its scale, encodings, number saturated, stochastic state. -/
def quantBlock (ofmt : Nat) (frm : BitVec 6) (vs : List Val) (l : BitVec 32) : Nat × List Nat × Nat × BitVec 32 :=
  let f := (elemFloat ofmt).getD .fp4
  let bad := vs.any fun v => v.isNan || (match v with | .inf _ => !f.hasInf | _ => false)
  if bad then (0xFF, vs.map fun _ => 0, 0, l)
  else match maxTop vs with
    | none => (0, vs.map fun v => f.signCode v.isNeg, 0, l)
    | some t =>
      let x := (clampInt 0 254 (t - emaxOf f + 127)).1
      let (cs, n, l) := quantMany ofmt frm (vs.map fun v => v.scale (127 - x)) l
      (x.toNat, cs, n, l)

/-- The blocks of a row. -/
def quantBlocks (ofmt : Nat) (frm : BitVec 6) : List (List Val) → BitVec 32 → List Nat × List Nat × Nat × BitVec 32
  | [], l => ([], [], 0, l)
  | b :: r, l =>
    let (x, cs, n, l) := quantBlock ofmt frm b l
    let (xs, ds, k, l) := quantBlocks ofmt frm r l
    (x :: xs, cs ++ ds, n + k, l)

/-- A row as it goes to memory: bytes, number saturated, stochastic state. The bits of its last byte after the last element are 0
(log 47). -/
def rowOut (epi : Word) (frm : BitVec 6) (xs : List Nat) (l : BitVec 32) : List Byte × Nat × BitVec 32 :=
  if epiF32 epi then (xs.flatMap fun x => natBytes 4 x, 0, l)
  else
    let w := elemBits (epiOfmt epi)
    let vs := xs.map fun x => valOf .fp32 x
    let bytes := fun (cs : List Nat) => natBytes ((cs.length * w + 7) / 8) (packElems w cs)
    if epiOblk epi then
      let (scales, cs, n, l) := quantBlocks (epiOfmt epi) frm (tileRows 32 (vs.length / 32) vs) l
      (bytes cs ++ natBytes scales.length (packElems 8 scales), n, l)
    else
      let (cs, n, l) := quantMany (epiOfmt epi) frm vs l
      (bytes cs, n, l)

/-- Every row, in order. -/
def rowsOut (epi : Word) (frm : BitVec 6) : List (List Nat) → BitVec 32 → List (List Byte) × Nat
  | [], _ => ([], 0)
  | r :: rs, l =>
    let (b, n, l) := rowOut epi frm r l
    let (bs, k) := rowsOut epi frm rs l
    (b :: bs, n + k)

end Sys2Proof.Machine
end

