-- ==== Sys2Proof/Machine/HodEngine.lean ====
section
/-! DEFINITION. The hods and the reduction network (R92, R130, R148, R173, R174, R181, R190 to R195, R269, R368, R377,
R452, R456, R473). -/

namespace Sys2Proof.Machine

/-! ### Tiles (R92, R174) -/

/-- A tile's entry changes: it is journalled, and slots that wait for the tile look again. -/
def setTile (s : State) (p job t : Nat) (e : BitVec 32) : State :=
  let s := updJobCtx s p job fun x => { x with tiles := mset x.tiles t e }
  let s := journalJob s p job 0 [tileUnit (jobCtx s p job) t]
  wakeCore s p fun w => decide (w = .tile t)

/-- Entries after the events of R92. -/
def tileFilling (e : BitVec 32) (uses job : Nat) : BitVec 32 := setBits (setBits (setBits e 17 16 1) 15 8 uses) 31 25 job
def tileReady (e : BitVec 32) : BitVec 32 := setBits (setBits e 17 16 2) 7 0 (bits e 7 0 + 1)
/-- A tile becomes Empty: its USES too is 0 (log 91). -/
def tileEmptied (e : BitVec 32) : BitVec 32 := setBits (setBits e 17 16 0) 15 8 0
def tileDraining (e : BitVec 32) : BitVec 32 := setBits e 17 16 3
/-- A consumer job has ended. -/
def tileConsumed (e : BitVec 32) : BitVec 32 :=
  match bits e 15 8 with
  | 0 => tileReady e
  | 1 => tileEmptied e
  | u => tileReady (setBits e 15 8 (u - 1))

/-- Apply an event to each of some tiles that are in a state. -/
def tilesGo (s : State) (p job : Nat) (ts : List Nat) (st : Nat) (f : BitVec 32 → BitVec 32) : State :=
  ts.foldl (fun s t =>
    let e := tileEntry (jobCtx s p job) t
    if tileState e = st then setTile s p job t (f e) else s) s

/-- Every tile of a list is in a state. -/
def tilesAre (s : State) (p job : Nat) (ts : List Nat) (st : Nat) : Bool :=
  ts.all fun t => decide (tileState (tileEntry (jobCtx s p job) t) = st)

/-! ### Packets (R192) -/

/-- Lengths of the packets of `n` bytes whose first byte stands at `a`: cut at every 128-byte boundary. -/
def cutRow : Nat → Nat → Nat → List Nat
  | 0, _, _ => []
  | fuel + 1, a, n => if n = 0 then [] else let k := min n (128 - a % 128); k :: cutRow fuel (a + k) (n - k)

/-- Packets of a row, from its source and destination addresses. -/
def rowPackets (src dst : Nat) : List Nat → List Packet
  | [] => []
  | k :: r => { index := 0, src := src, dst := dst, len := k } :: rowPackets ((src + k) % 2 ^ 64) ((dst + k) % 2 ^ 64) r

/-- Number the packets of a transfer from 0. -/
def numberPackets : Nat → List Packet → List Packet
  | _, [] => []
  | i, q :: r => { q with index := i } :: numberPackets (i + 1) r

/-- The packets of a transfer, row by row; `base` is the address of row 0 in memory. -/
def packetsOf (rs : List Word) (base : Word) : List Packet :=
  let inMem := decide (hdKind rs = 0) || decide (hdKind rs = 5)
  numberPackets 0 ((upTo (hdRows rs)).flatMap fun r =>
    let k := BitVec.ofNat 64 r
    let src := hdSrc rs + hdSstride rs * k
    let dst := if inMem then base + hdDstride rs * k else 0
    rowPackets src.toNat dst.toNat (cutRow (hdBytes rs / 8 + 1) (if inMem then dst.toNat else 0) (hdBytes rs)))

/-! ### Transfers -/

/-- On whose behalf the hod of core `p` accesses memory for a transfer. -/
def hodEng (p : Nat) (t : Xfer) : Eng :=
  { job := t.job, key := if t.card.isSome then 0xC10 + clusterOf p else bits t.id 31 24 * 16 + t.slot, src := 0x230 + clusterOf p
    core := p, slot := t.slot % 16, launch := t.launch, nud := hdNud t.regs
    feeds := decide (hdKind t.regs = 1) || decide (hdKind t.regs = 2) }

/-- The transfer of a core by its `uid`. -/
def findXfer (s : State) (p id : Nat) : Option Xfer := (getCore s p).hodq.find? fun t => t.uid = id

/-- Change a transfer. -/
def updXfer (s : State) (p id : Nat) (f : Xfer → Xfer) : State :=
  updCore s p fun c => { c with hodq := c.hodq.map fun t => if t.uid = id then f t else t }

/-- A transfer is refused: it sends no further packet (R452). The packets that will not land stay listed in `todo`. -/
def failXfer (s : State) (p id : Nat) : State := updXfer s p id fun t => { t with failed := true }

/-- The head transfer of a core: the first that has packets to issue, or that has not started. -/
def hodHead (c : PCore) : Option Xfer := c.hodq.find? fun t => !t.failed && (!t.started || decide (t.todo ≠ []))

/-- A thermal migration of core `p` keeps a job from beginning that touches these tiles (R234 step 1). -/
def migrationHolds (s : State) (p : Nat) (tiles : List Nat) : Bool :=
  decide (tiles ≠ []) && s.migrations.any fun m => decide (m.1 = p) || decide (m.2 = p)

/-- Engine jobs of a core may begin: it has power, no switch or remap is under way, and the job's context is resident
(R102, R173). -/
def mayBegin (s : State) (p job : Nat) (tiles : List Nat) : Bool :=
  let cl := getCluster s (clusterOf p)
  cl.powered && !cl.fenced && !(getCore s p).switching && !savedFor s p job && !unformed s p job && decide (remapCore s ≠ some p)
    && !migrationHolds s p tiles

/-- The ring slot that a transfer of DKIND 5 will fill (R193): none while there is no room; `.bad` when the ring object
cannot be read, or breaks R193 since HDGO read it (log 48). -/
def ringRoom (s : State) (p : Nat) (t : Xfer) : EngAns (Option Word) :=
  match engRead1 s (hodEng p t) (hdDst t.regs) 32 with
  | .ok (bs, psn) s =>
    let o : BitVec 256 := leWord 256 bs
    let n := bits o 95 80
    let w := bits o 191 160
    if psn || !ringClean o then .bad 0x0B 0x200 s
    else if n = 0 || decide (n ≤ (w + 2 ^ 32 - bits o 159 128) % 2 ^ 32) then .ok none s
    else .ok (some (BitVec.ofNat 64 (bits o 255 192 + w % n * 2 ^ bits o 103 96))) s
  | .bad c d s => .bad c d s
  | .wait => .wait

/-- A transfer starts: its tiles move in one step, its packets stand to be issued. -/
def beginXfer (s : State) (p : Nat) (t : Xfer) (base : Word) : State :=
  let s := tilesGo s p t.job t.tilesW 0 fun e => tileFilling e (hdRcnt t.regs) t.job
  let s := tilesGo s p t.job t.tilesR 2 tileDraining
  updXfer s p t.uid fun t => { t with started := true, ringBase := base, todo := packetsOf t.regs base }

/-- HOD_TRANSFER_START (R191 to R193): the head transfer of core `n`. -/
def execHodTransferStart (s : State) : Host.Outcome State Fault Refusal :=
  .next (
    let p := s.input.n
    match hodHead (getCore s p) with
    | none => s
    | some t =>
      if t.started || !mayBegin s p t.job (t.tilesW ++ t.tilesR) || !footFree s (hodFootprint p t) || !tilesAre s p t.job t.tilesW 0
        || !tilesAre s p t.job t.tilesR 2 then s
      else if hdKind t.regs ≠ 5 then beginXfer s p t (hdDst t.regs)
      else match ringRoom s p t with
        | .ok (some a) s => beginXfer s p t a
        | .ok none _ => s
        | .wait => s
        | .bad c d s => failXfer (engRecord s (hodEng p t) c d (hdDst t.regs)) p t.uid)

/-- Issue the next packet of a transfer of core `p`: the hod reads its source; none where the read must wait. -/
def issuePacket (s : State) (p : Nat) (t : Xfer) : Option State :=
  match t.todo with
  | [] => none
  | q :: rest =>
    match engRead s (hodEng p t) (BitVec.ofNat 64 q.src) q.len with
    | .wait => none
    | .bad _ _ s => some (failXfer s p t.uid)
    | .ok data s =>
      let s := updXfer s p t.uid fun t => { t with todo := rest, flying := t.flying + 1 }
      some { s with net := s.net ++ [.packet (getCore s p).lcore t.uid t.job q data] }

/-- The cores of a cluster in the hod's order: job 0's transfers first, then in round robin. -/
def hodOrder (s : State) (cl : Nat) : List (Nat × Xfer) :=
  let from_ := (getCluster s cl).hodNext
  let cs := (upTo 8).map fun k => 8 * cl + (from_ + k) % 8
  let heads := cs.filterMap fun p => match hodHead (getCore s p) with
    | some t => if t.started then some (p, t) else none
    | none => none
  (heads.filter fun e => decide (e.2.job = 0)) ++ heads.filter fun e => decide (e.2.job ≠ 0)

/-- The first core of an order that can issue a packet. -/
def issueFirst (s : State) (cl : Nat) : List (Nat × Xfer) → State
  | [] => s
  | (p, t) :: r =>
    match issuePacket s p t with
    | some s => updCluster s cl fun c => { c with hodNext := (p % 8 + 1) % 8 }
    | none => issueFirst s cl r

/-- HOD_PACKET_ISSUE (R192): the hod of cluster `n` issues one packet. -/
def execHodPacketIssue (s : State) : Host.Outcome State Fault Refusal :=
  .next (if (getCluster s s.input.n).powered then issueFirst s s.input.n (hodOrder s s.input.n) else s)

/-! ### Performing a packet -/

/-- What becomes of a packet at its destination. -/
inductive PkAns where
  | done (s : State)
  | fail (s : State)
  | wait
  /-- held at its point by the Mortar (R154, R155) -/
  | held (s : State)

/-- Code of the receiver that a packet goes to: a node, a FIFO, or a slot's core. -/
def packetDest (p : Nat) (t : Xfer) (q : Packet) : Nat :=
  match hdKind t.regs with
  | 1 => 0x2000 + p
  | 2 => 0x3000 + p
  | 3 | 4 => bits (hdDst t.regs) 16 9
  | _ => destOf p (BitVec.ofNat 64 q.dst)

/-- Key of a transfer at a receiver (R148). -/
def packetKey (p : Nat) (t : Xfer) (dest : Nat) : Nat := (dest * 4096 + 0xC10 + clusterOf p) * 2 ^ 33 + t.uid

/-- Bytes of step `i` of an operand: the scales before a step whose first index is a multiple of 32, and the elements (R181). -/
def stepBytes (c n rows : Nat) (sc : Bool) (i : Nat) : Nat :=
  (if sc && decide (i * n % 32 = 0) then rows else 0) + rows * (n * elemBits c / 8)

/-- Bytes of the first steps for which both operands are there, from step `i` on: of A and of B. -/
def stepsThere (a b : Nat → Nat) : Nat → Nat → Nat → Nat → Nat × Nat
  | 0, _, _, _ => (0, 0)
  | k + 1, i, x, y =>
    if a i ≤ x ∧ b i ≤ y then
      let (u, v) := stepsThere a b k (i + 1) (x - a i) (y - b i)
      (a i + u, b i + v)
    else (0, 0)

/-- Bytes of its streams that a granted job has consumed, in FIFO A or `b`: all once its entry check has passed; before that a job
whose spans do not both fit keeps nothing for a retry and consumes each step as it runs (R466). From FIFO A a job that holds
its span frees nothing, and one that reads the held span consumes nothing (R181, R182). -/
def eaten (c : PCore) (j : MxJob) (b : Bool) : Nat :=
  let sa := spanA j.blk j.fmt
  let sb := spanB j.blk j.fmt
  if !j.granted || (!b && decide (mbAmode j.blk ≠ 0)) then 0
  else if j.rest ≠ [] then if b then min c.fifoB.length sb else min c.fifoA.length sa
  else if sa ≤ 262144 ∧ sb ≤ 262144 then 0
  else
    let n := fmtTerms j.fmt
    let stepA := fun (i : Nat) => if mbAmode j.blk = 2 then 0 else stepBytes (fmtA j.fmt) n (mbM j.blk) (fmtSa j.fmt) i
    let got := stepsThere stepA (stepBytes (fmtB j.fmt) n (mbN j.blk) (fmtSb j.fmt)) (mbSteps j.blk j.fmt) 0 c.fifoA.length c.fifoB.length
    if b then got.2 else got.1

/-- Bytes of the streams and holds of a cluster's FIFO that occupy its storage. -/
def fifoUsed (s : State) (cl : Nat) (b : Bool) : Nat :=
  (upTo 8).foldl (fun n k =>
    let c := getCore s (8 * cl + k)
    let stream := if b then c.fifoB.length else c.fifoA.length
    let held := match c.heldA with | some h => if b then 0 else h.bytes.length | none => 0
    let gone := match c.wide.mxq with | j :: _ => eaten c j b | [] => 0
    n + stream - gone + held) 0

/-- A packet joins its core's stream in a FIFO when the storage has room. -/
def pour (s : State) (p : Nat) (b : Bool) (data : List Byte) : PkAns :=
  if 262144 < fifoUsed s (clusterOf p) b + data.length then .wait
  else .done (updCore s p fun c => if b then { c with fifoB := c.fifoB ++ data } else { c with fifoA := c.fifoA ++ data })

/-- A fill by the hod (R56, R191). -/
def hodFill (s : State) (e : Eng) (d : Word) (vec fresh : Bool) (data : List (Byte × Bool)) : PkAns :=
  let lc := bits d 16 9
  let n := bits d 8 5
  let reg := if vec then bits d 3 0 else bits d 4 0
  let p := physOf s lc
  if 192 ≤ lc then .fail (engRecord s e 0x0B 0x200 d)
  else match coreRefusal s lc e.job with
    | some c => .fail (engRecord s e 0x02 c d)
    | none =>
      if awayFor s p e.job then .wait
      else if fillRefused s p n e.job vec reg then .fail (engRecord s e 0x02 0x04 d)
      else match fillAt s 0xFFF e.job 0 .none 0 lc n vec reg (leWord 512 (data.map fun b => b.1)) (data.any fun b => b.2) fresh with
        | .gone s => .done (updCore s p (noteAuthor e.key))
        | .held s => .held s
        | .stay _ => .wait

/-- A counter of a slot rises (R194, R269; log 95). -/
def countPacket (s : State) (who : Nat) (notify : Word) : State :=
  let lc := bits notify 11 4
  let n := bits notify 3 0
  let k := bits notify 14 12
  if 192 ≤ lc then s
  else
    let p := physOf s lc
    let v := kReg (getSlot s p n) k + 1
    let s := updSlot s p n fun sl => wakeIf (fun w => decide (w = .counter k)) (setKReg sl k v)
    wakeEventAt (updCore s p fun c => noteAuthor who (journalEng c n [{ kind := 3, target := k, data := v.setWidth 64 }])) p n

/-- The core whose slot a transfer counts for cannot be told: the slot's context is away, or its core stands for a ratio
change. The packet waits (R174, R231, R483). -/
def notifySaved (s : State) (t : Xfer) : Bool :=
  hdCnt t.regs && decide (bits (hdNotify t.regs) 11 4 < 192) &&
    (let q := physOf s (bits (hdNotify t.regs) 11 4)
     awayFor s q t.job || clockStands s q)

/-- Write a packet at its destination; `fresh` unless the Mortar has held it there before; bytes poured into a FIFO leave their poison behind (log 80). -/
def writePacket (s : State) (p : Nat) (t : Xfer) (q : Packet) (fresh : Bool) (data : List (Byte × Bool)) : PkAns :=
  match hdKind t.regs with
  | 1 => pour s p false (data.map fun b => b.1)
  | 2 => pour s p true (data.map fun b => b.1)
  | 3 => hodFill s (hodEng p t) (hdDst t.regs) false fresh data
  | 4 => hodFill s (hodEng p t) (hdDst t.regs) true fresh data
  | _ => match engWrite s (hodEng p t) (BitVec.ofNat 64 q.dst) data (hdRcnt t.regs) with
    | .ok _ s => .done s
    | .bad _ _ s => .fail s
    | .wait => .wait

/-- A packet of the transfer touches a tile. -/
def packetIn (q : Packet) (t : Nat) : Bool := (tilesOf (BitVec.ofNat 64 q.dst) q.len).contains t

/-- Packets of a transfer that are issued and not performed. -/
def flyingOf (s : State) (id : Nat) : List Packet :=
  s.net.filterMap fun m => match m with
    | .packet _ i _ q _ => if i = id then some q else none
    | _ => none

/-- Tiles whose last write has landed become Ready, also those of a transfer that has failed (R92). -/
def fillTiles (s : State) (p id : Nat) : State :=
  match findXfer s p id with
  | none => s
  | some t =>
    let left := t.todo ++ flyingOf s id
    let full := t.tilesW.filter fun n => !(left.any fun q => packetIn q n)
    let s := tilesGo s p t.job full 1 tileReady
    updXfer s p id fun t => { t with tilesW := t.tilesW.filter fun n => !full.contains n }

/-- A packet has been performed. -/
def packetDone (s : State) (p : Nat) (t : Xfer) (q : Packet) : State :=
  let key := packetKey p t (packetDest p t q)
  let s := { s with hodAccept := mset s.hodAccept key q.index }
  let s := updXfer s p t.uid fun t => { t with flying := t.flying - 1, done := t.done + 1 }
  let s := fillTiles s p t.uid
  if hdCnt t.regs then countPacket s (hodEng p t).key (hdNotify t.regs) else s

/-- An earlier packet of the same core and FIFO, or of the same transfer and node, must be performed first. -/
def packetBehind (s : State) (n p : Nat) (t : Xfer) (q : Packet) : Bool :=
  (s.net.take n).any fun m => match m with
    | .packet lc i _ x _ =>
      decide (physOf s lc = p) && (match findXfer s p i with
        | some u => decide (packetDest p u x = packetDest p t q) && (decide (u.uid = t.uid) || decide (0x2000 ≤ packetDest p t q))
        | none => false)
    | _ => false

/-- A packet that its receiver has accepted before is acknowledged without effect (R148). -/
def packetRepeat (s : State) (p : Nat) (t : Xfer) (q : Packet) : Bool :=
  match mget s.hodAccept (packetKey p t (packetDest p t q)) with
  | some i => decide (q.index ≤ i)
  | none => false

/-- HOD_PACKET_PERFORM (R192): message `n`. -/
def execHodPacketPerform (s : State) : Host.Outcome State Fault Refusal :=
  .next (match s.net[s.input.n]? with
    | some (.packet lc id a q data) =>
      let p := physOf s lc
      let m := Msg.packet lc id a q data
      let freed := fun (s : State) => { s with heldMsgs := s.heldMsgs.filter (· ≠ m) }
      let away := { s with net := ldrop s.net s.input.n }
      match findXfer s p id with
      | none => away
      | some t =>
        if packetBehind s s.input.n p t q || notifySaved s t then s
        else if packetRepeat s p t q then fillTiles (updXfer away p id fun t => { t with flying := t.flying - 1, done := t.done + 1 }) p id
        else match writePacket away p t q (!s.heldMsgs.contains m) data with
          | .done s => packetDone (freed s) p t q
          | .fail s => failXfer (updXfer (freed s) p id fun t => { t with flying := t.flying - 1, todo := q :: t.todo }) p id
          | .wait => s
          | .held s' => { s' with net := s.net, heldMsgs := if s.heldMsgs.contains m then s.heldMsgs else s.heldMsgs ++ [m] }
    | _ => s)

/-! ### The end of a transfer (R92, R188, R193, R269, R368) -/

/-- The record of the hod's atomic at the interface that owns a ring object, and that interface (R112, R152, R153). -/
def ringRecord (s : State) (p : Nat) (t : Xfer) : Nat × Resolution :=
  (if isOwnLs (hdDst t.regs) then logicalOf s p else nodeField (hdDst t.regs) - 1,
    atom 0 (BitVec.ofNat 12 (0xC10 + clusterOf p)) (hdDst t.regs))

/-- What the last act of a transfer into a ring comes to: done, refused with its record written, or not yet. -/
inductive RingEnd where
  | done (s : State)
  | refused (s : State)
  | stays (s : State)

/-- WPTR of the ring object rises by one, as an atomic at its owner, once the Mortar lets it; a poisoned object stays as it is
(R154, R193, R456). -/
def ringAdvance (s0 : State) (p : Nat) (t : Xfer) : RingEnd :=
  let e := hodEng p t
  let (lc, x) := ringRecord s0 p t
  match engRead1 s0 e (hdDst t.regs) 32 with
  | .ok (bs, psn) s =>
    let o : BitVec 256 := leWord 256 bs
    if psn then .done s
    else match gateAll s t.job lc (!t.judged) [x] with
      | (.go, s) =>
        match engWrite1 s e (hdDst t.regs) (natBytes 32 (setBits o 191 160 (bits o 191 160 + 1)).toNat) false 0 with
        | .ok _ s => .done (putAll s t.job lc [x])
        | .bad c d s => .refused (engRecord s e c d (hdDst t.regs))
        | .wait => .stays s0
      | (.hold, s) => .stays (updXfer s p t.uid fun t => { t with judged := true })
      | (.diverge, s) => .stays (stopPoint (updXfer s p t.uid fun t => { t with judged := true }) t.job lc x.agent.toNat)
  | .bad c d s => .refused (engRecord s e c d (hdDst t.regs))
  | .wait => .stays s0

/-- Remove an ended transfer and tell those who wait. -/
def endXfer (s : State) (p : Nat) (t : Xfer) (ok : Bool) : State :=
  let s := tilesGo s p t.job t.tilesW 1 tileEmptied
  let s := if t.started then tilesGo s p t.job t.tilesR 3 tileConsumed else s
  let s := updCore s p fun c => { c with hodq := c.hodq.filter fun x => x.uid ≠ t.uid }
  let s := { s with hodAccept := s.hodAccept.filter fun e => e.1 % 2 ^ 33 ≠ t.uid || decide (e.1 / 2 ^ 33 % 4096 ≠ 0xC10 + clusterOf p) }
  let s := match t.card with
    | some (i, k) => if ok then cardComplete s i k else cardFailed s i k
    | none => wakeRequester (updCore s p fun c =>
        { c with hodEnded := addEnded c.hodEnded { id := t.id, job := t.job, state := if ok then 2 else 3, count := t.done } }) p t.job t.slot
  wakeCore s p fun w => decide (w = .hod) || decide (w = .room)

/-- The first transfer of a core whose packets have all been performed. -/
def endable (s : State) (p : Nat) : Option Xfer :=
  (getCore s p).hodq.find? fun t => (t.failed || (t.started && decide (t.todo = []))) && decide (t.flying = 0)

/-- HOD_TRANSFER_END (R192, R193): a transfer of core `n`. -/
def execHodTransferEnd (s : State) : Host.Outcome State Fault Refusal :=
  .next (
    let p := s.input.n
    match endable s p with
    | none => s
    | some t =>
      if t.failed then endXfer s p t false
      else if hdKind t.regs ≠ 5 then endXfer s p t true
      else match ringAdvance s p t with
        | .done s => endXfer s p t true
        | .refused s => endXfer s p t false
        | .stays s => s)

/-! ### Reductions (R195, R377, R473) -/

/-- One lane of two partial sums. -/
def redLane (op : RedOp) (a b : BitVec 32) : BitVec 32 :=
  match op with
  | .addF32 => BitVec.ofNat 32 (addVal .fp32 0 (valOf .fp32 a.toNat) (valOf .fp32 b.toNat)).1
  | .addI32 => a + b
  | .maxF32 => BitVec.ofNat 32 (minMax .fp32 true a.toNat b.toNat).1
  | .maxI32 => if a.toInt < b.toInt then b else a

/-- Two partial sums, lane by lane. -/
def redVec (op : RedOp) (a b : V512) : V512 := ofLanes 32 ((upTo 16).map fun i => redLane op (lane 32 a i) (lane 32 b i))

/-- A left fold. -/
def redFold (op : RedOp) : List V512 → V512
  | [] => 0
  | x :: r => r.foldl (redVec op) x

/-- The oldest contribution of a core to a job's reductions. -/
def oldestOf (s : State) (job p : Nat) : Option Contribution := (getCore s p).contribs.find? fun c => c.job = job

/-- The result reaches a contributor, with its REDSTAT: first poisoned contributor in tree order. -/
def deliverResult (s : State) (job : Nat) (v : V512) (psn : Bool) (bad : Option (BitVec 12)) (p : Nat) : State :=
  let s := updCore s p fun c =>
    let st := match bad with | some k => k.toNat + 2 ^ 12 | none => 0
    { c with
      contribs := match c.contribs.find? fun x => x.job = job with | some x => c.contribs.erase x | none => c.contribs
      results := c.results ++ [(job, v, psn)]
      redStat := BitVec.ofNat 64 (c.redSeq.toNat * 2 ^ 32 + st), redSeq := c.redSeq + 1 }
  wakeCore s p fun w => decide (w = .reduction)

/-- One record for each poisoned contribution. -/
def recordPoisoned (s : State) (job : Nat) (cs : List (Nat × Contribution)) : State :=
  (cs.filter fun e => e.2.psn).foldl (fun s e => record s 3 0x06 2 e.1 job e.2.key.toNat 0 (getCore s e.1).redSeq.toNat) s

/-- A REDUCTION OF WHICH EVERY CORE OF THE PARTITION HAS CONTRIBUTED. -/
def completeReduction (s : State) (job : Nat) (cols : List (List (Nat × Contribution))) : State :=
  let flat := cols.flatten
  match flat with
  | [] => s
  | (_, c0) :: _ =>
    let s := recordPoisoned s job flat
    let bad := (flat.find? fun e => e.2.psn).map fun e => e.2.key
    match flat.find? fun e => e.2.op ≠ c0.op with
    | some (p, d) =>
      let s := record s 9 0x02 2 p job d.key.toNat
      flat.foldl (fun s e => deliverResult s job 0 true bad e.1) s
    | none =>
      let v := redFold c0.op (cols.map fun col => redFold c0.op (col.map fun e => e.2.val))
      flat.foldl (fun s e => deliverResult s job v bad.isSome bad e.1) s

/-- The contribution that started the oldest reduction of a job: the earliest of the cores' oldest ones. -/
def firstContribution (s : State) (job : Nat) : Option Contribution :=
  (s.cores.filterMap fun e => oldestOf s job e.1).foldl
    (fun b c => match b with | none => some c | some d => if c.time < d.time then some c else some d) none

/-- REDUCTION_COMPLETE (R195): of job `n`, by the tree fixed when the reduction started. -/
def execReductionComplete (s : State) : Host.Outcome State Fault Refusal :=
  .next (match findJob s s.input.n, firstContribution s s.input.n with
    | some j, some c =>
      let cols := c.tree.map fun col => col.map fun lc => physOf s lc
      if cols.all fun col => col.all fun p => (oldestOf s j.id p).isSome && !clockStands s p then
        completeReduction s j.id (cols.map fun col => col.filterMap fun p => (oldestOf s j.id p).map fun c => (p, c))
      else s
    | _, _ => s)

end Sys2Proof.Machine
end

