-- ==== Sys2Proof/Machine/MxEngine.lean ====
section
/-! DEFINITION. The matrix engines (R92, R149, R173, R176, R181 to R189, R452, R465 to R468): grants, the end of a job, the
second write of a chunk. Ballast steps stand in Power. -/

namespace Sys2Proof.Machine

/-- On whose behalf the MXE of core `p`'s cluster accesses memory for a job. -/
def mxEng (p : Nat) (j : MxJob) : Eng :=
  { job := j.job, key := if j.card.isSome then 0xC30 + clusterOf p else bits j.id 31 24 * 16 + j.slot, src := 0x210 + clusterOf p
    core := p, slot := j.slot % 16, launch := j.launch }

/-- Change a queued job of core `p`. -/
def updMx (s : State) (p : Nat) (id : BitVec 32) (f : MxJob → MxJob) : State :=
  updWide s p fun w => { w with mxq := w.mxq.map fun j => if j.id = id then f j else j }

/-! ### Grants (R176, R182, R183) -/

/-- Bytes of a job's first step in a stream: scales and elements. -/
def firstStep (c n rows : Nat) (sc : Bool) : Nat := (if sc then rows else 0) + rows * (n * elemBits c / 8)
/-- FIFO A holds the first step of a job, or the job replays a hold (log 96). -/
def firstA (c : PCore) (j : MxJob) : Bool :=
  if mbAmode j.blk = 2 then c.heldA.isSome
  else decide (firstStep (fmtA j.fmt) (fmtTerms j.fmt) (mbM j.blk) (fmtSa j.fmt) ≤ c.fifoA.length)
/-- FIFO B holds the first step of a job. -/
def firstB (c : PCore) (j : MxJob) : Bool :=
  decide (firstStep (fmtB j.fmt) (fmtTerms j.fmt) (mbN j.blk) (fmtSb j.fmt) ≤ c.fifoB.length)

/-- The queue head of core `p` is eligible. -/
def mxEligible (s : State) (p : Nat) : Option MxJob :=
  let c := getCore s p
  match c.wide.mxq with
  | j :: _ =>
    if !j.granted && !isClass1 s p && mayBegin s p j.job (mbTiles j.blk) && tilesAre s p j.job (mbTiles j.blk) 2 && firstA c j && firstB c j
      && footFree s (mxFootprint p j) then some j else none
  | [] => none

/-- The GRANT record of a job (R152). -/
def grantRecord (j : MxJob) : Resolution :=
  { type := 7, arg := 0, agent := BitVec.ofNat 12 (bits j.id 31 24 * 16 + bits j.id 23 20), data := j.id.setWidth 64 }

/-- The weight of a job at the arbiters. -/
def mxWeight (s : State) (job : Nat) : Nat :=
  if job = 0 then 256 else match findJob s job with | some j => bits j.record 79 72 | none => 0

/-- The next core of a round: the one in turn while it has grants left, else the next eligible one after it. -/
def roundNext (s : State) (cl : Nat) (es : List (Nat × MxJob)) : Option (Nat × MxJob) :=
  let c := getCluster s cl
  let again := es.find? fun e => decide (e.1 % 8 = c.round) && decide (c.taken < mxWeight s e.2.job)
  match again with
  | some e => some e
  | none => ((upTo 8).filterMap fun k => es.find? fun e => e.1 % 8 = (c.round + 1 + k) % 8).head?

/-- The head that the arbiter of a cluster grants next, a replayed job's matching head ahead of the round; true where the grant
is the round's own. -/
def mxChoice (s : State) (cl : Nat) : Option (Nat × MxJob × Bool) :=
  let es := (upTo 8).filterMap fun k => (mxEligible s (8 * cl + k)).map fun j => (8 * cl + k, j)
  let replayed := fun (e : Nat × MxJob) => decide (mortarMode s e.2.job = 2)
  let next := fun (e : Nat × MxJob) => match handedTo (getMortar s e.2.job) (0x210 + cl) with
    | r :: _ => recMatches r (grantRecord e.2)
    | [] => false
  match es.find? fun e => replayed e && next e with
  | some e => some (e.1, e.2, false)
  | none =>
    let es := es.filter fun e => !replayed e
    let heavy := es.filter fun e => mxWeight s e.2.job ≠ 0
    (roundNext s cl (if heavy = [] then es else heavy)).map fun e => (e.1, e.2, true)

/-- The accumulator tile as the array reads it, and its poisoned elements. -/
def readTile (c : PCore) (b : V512) : List (BitVec 32) × List Nat :=
  let at_ := fun k => mbAcc b + 4 * k
  ((upTo (mbM b * mbN b)).map fun k => leWord 32 (memBytes c.wide.acc (at_ k) 4),
   (upTo (mbM b * mbN b)).filter fun k => decide (mbAcm b ≠ 0) && c.wide.accPoison.contains (at_ k / 8))

/-- MXE_GRANT (R176, R182 to R184): the arbiter of cluster `n`. -/
def execMxeGrant (s : State) : Host.Outcome State Fault Refusal :=
  .next (
    let cl := s.input.n
    if (getCluster s cl).grant.isSome || clockStopped s cl then s
    else match mxChoice s cl with
      | none => s
      | some (p, j, inRound) =>
        match gateAll s j.job (0x210 + cl) false [grantRecord j] with
        | (.go, s) =>
          let s := putAll s j.job (0x210 + cl) [grantRecord j]
          let s := tilesGo s p j.job (mbTiles j.blk) 2 tileDraining
          let (t, psn) := readTile (getCore s p) j.blk
          let int := fmtInt j.fmt
          let s := updMx s p j.id fun j => { j with granted := true, c0 := t.map (accStart int (mbAcm j.blk) j.decay), c0Psn := psn }
          let s := updCore s p fun c => if mbAmode j.blk = 2 then c else { c with heldA := none }
          updCluster s cl fun c =>
            let c := { c with grant := some (p, j.id), lastFmt := some j.fmt }
            if inRound then
              { c with taken := if decide (c.round = p % 8) && decide (c.taken < mxWeight s j.job) then c.taken + 1 else 1, round := p % 8 }
            else c
        | (_, s) => s)

/-! ### The end of a job (R149, R186, R465 to R467) -/

/-- Both spans of a job fit their FIFOs: they are kept until its entry check passes (R466). -/
def spansKept (j : MxJob) : Bool := decide (spanA j.blk j.fmt ≤ 262144) && decide (spanB j.blk j.fmt ≤ 262144)

/-- The A span of a job: the head of its core's stream, or the held span. -/
def bytesA (c : PCore) (j : MxJob) : List Byte :=
  if mbAmode j.blk = 2 then (c.heldA.map fun h => h.bytes).getD [] else c.fifoA.take (spanA j.blk j.fmt)

/-- The streams hold the whole of a granted job's spans. -/
def spansThere (c : PCore) (j : MxJob) : Bool :=
  (decide (mbAmode j.blk = 2) || decide (spanA j.blk j.fmt ≤ c.fifoA.length)) && decide (spanB j.blk j.fmt ≤ c.fifoB.length)

/-- The job's spans leave their streams; a hold begins or is used (R181, R182). -/
def consumeSpans (c : PCore) (j : MxJob) : PCore :=
  let a := bytesA c j
  let c := { c with fifoB := c.fifoB.drop (spanB j.blk j.fmt) }
  if mbAmode j.blk = 2 then
    { c with heldA := match c.heldA with | some h => if h.left ≤ 1 then none else some { h with left := h.left - 1 } | none => none }
  else
    let c := { c with fifoA := c.fifoA.drop (spanA j.blk j.fmt) }
    if mbAmode j.blk = 1 then
      { c with heldA := some { bytes := a, left := mbHold j.blk, mm1 := j.blk.extractLsb' 169 7, klen := j.blk.extractLsb' 176 16, fmt := j.fmt } }
    else c

/-- The commit group of a tile (R149), and the tile in the accumulator buffer. -/
def commitTile (s : State) (p : Nat) (j : MxJob) (tile : List (BitVec 32)) : State :=
  let a := mbAcc j.blk
  let bytes := tile.flatMap fun x => natBytes 4 x.toNat
  let bad := (j.c0Psn.map fun k => (a + 4 * k) / 8)
  updCore s p fun c =>
    let marks := bad.foldl nadd (poisonStore 8 c.wide.accPoison a bytes.length false)
    let c := { c with wide := { c.wide with acc := markedStore 8 c.wide.acc marks a bytes, accPoison := marks } }
    let frame := fun (n : Nat) => ({ kind := 12, target := n, data := j.id.setWidth 64 } : JUnit)
    let words := accUnits c a bytes.length
    let sl := j.slot % 16
    let body := (frame 0 :: words).map fun u => mkEntry u 0 sl false true c.set 0
    { c with shadow := c.shadow ++ body ++ [mkEntry (frame 1) 0 sl true true c.set 0] }

/-- A job leaves its queue with a STATE: 2 done, 3 failed; the end of one that ran again has been told (R149). -/
def endMx (s : State) (p : Nat) (j : MxJob) (state : Nat) : State :=
  let s := tilesGo s p j.job (mbTiles j.blk) 3 tileConsumed
  let s := updCore s p fun c => { c with wide := { c.wide with mxq := c.wide.mxq.filter fun x => x.id ≠ j.id } }
  let s := updCluster s (clusterOf p) fun c => { c with grant := none }
  let s := if j.redo then s else match j.card with
    | some (i, k) => if state = 2 then cardComplete s i k else cardFailed s i k
    | none => wakeRequester (updCore s p fun c =>
        { c with mxEnded := addEnded c.mxEnded { id := j.id, job := j.job, state := state, count := min j.count 0xFFFF } }) p j.job j.slot
  mxepiReady (wakeCore s p fun w => decide (w = .mxe) || decide (w = .room)) p

/-- Bytes in 64-byte chunks from an address on. -/
def chunksOf : Nat → Word → List (Byte × Bool) → List (Word × List (Byte × Bool))
  | 0, _, _ => []
  | fuel + 1, a, bs => if bs = [] then [] else (a, bs.take 64) :: chunksOf fuel (a + 64) (bs.drop 64)

/-- The bias and scale vectors of a job; `.bad` where the local store refuses them. -/
def readVectors (s : State) (p : Nat) (j : MxJob) : EngAns (List (Nat × Bool) × List (Nat × Bool)) :=
  let n := mbN j.blk
  let at_ := fun (o : Nat) => BitVec.ofNat 64 (0xFF * 2 ^ 56 + mbVoff j.blk * 64 + o)
  let words := fun (bs : List (Byte × Bool)) => (tileRows 4 n bs).map fun w => (leNat (w.map fun b => b.1), w.any fun b => b.2)
  let ask := fun (s : State) (on : Bool) (o : Nat) =>
    if !on then EngAns.ok ([] : List (Byte × Bool)) s
    else if 0x20000 < mbVoff j.blk * 64 + o + 4 * n then .bad 0x0B 0x200 (engRecord s (mxEng p j) 0x0B 0x200 (at_ o))
    else engRead s (mxEng p j) (at_ o) (4 * n)
  match ask s (tbit j.epi 9) 0 with
  | .ok b s => match ask s (tbit j.epi 8) 512 with
    | .ok c s => .ok (words b, words c) s
    | .bad x y s => .bad x y s
    | .wait => .wait
  | .bad x y s => .bad x y s
  | .wait => .wait

/-- Poison of one element of a row: of the accumulator it started from, or of its column's vectors (R456). -/
def elementPsn (j : MxJob) (bias scale : List (Nat × Bool)) (i k : Nat) : Bool :=
  j.c0Psn.contains (i * mbN j.blk + k) || ((bias[k]?).map fun b => b.2).getD false || ((scale[k]?).map fun b => b.2).getD false

/-- The output chunks of a job in order, and SATCNT. -/
def outputChunks (c : PCore) (j : MxJob) (tile : List (BitVec 32)) (bias scale : List (Nat × Bool)) :
    List (Word × List (Byte × Bool)) × Nat :=
  let n := mbN j.blk
  let int := fmtInt j.fmt
  let val := fun (v : List (Nat × Bool)) (k : Nat) => ((v[k]?).map fun b => b.1).getD 0
  let row := fun (xs : List (BitVec 32)) => (xs.zip (upTo n)).map fun e =>
    elementOut int j.epi c.wide.actTable (val bias e.2) (val scale e.2) e.1
  let (rows, sat) := rowsOut j.epi j.frm ((tileRows n (mbM j.blk) tile).map row) j.seed
  let w := if epiF32 j.epi then 32 else elemBits (epiOfmt j.epi)
  let marks := fun (i : Nat) (bs : List Byte) => (bs.zip (upTo bs.length)).map fun e =>
    -- elements with bits in byte e.2; scale bytes lie after the last element
    let lo := e.2 * 8 / w
    let hi := (e.2 * 8 + 7) / w
    (e.1, (upTo (hi + 1 - lo)).any fun d => decide (lo + d < n) && elementPsn j bias scale i (lo + d))
  let chunk := fun (e : List Byte × Nat) =>
    chunksOf (e.1.length / 64 + 1) (mbOuta j.blk + BitVec.ofNat 64 (e.2 * mbOpitch j.blk * 64)) (marks e.2 e.1)
  (if epiOut j.epi then (rows.zip (upTo rows.length)).flatMap chunk else [], sat)

/-- The address of the chunk that STAGE 1 of the perturbation word alters (R189). -/
def perturbedChunk (j : MxJob) : Option Word :=
  let w := j.pert
  let i := bits w 61 55
  let k := bits w 54 48
  if tbit w 63 && tbit w 62 && epiOut j.epi && decide (i < mbM j.blk) && decide (k < mbN j.blk) && decide (bits w 7 0 ≠ 0) then
    let size := if epiF32 j.epi then 32 else elemBits (epiOfmt j.epi)
    some (mbOuta j.blk + BitVec.ofNat 64 (i * mbOpitch j.blk * 64 + k * size / 8 / 64 * 64))
  else none

/-- What the writes of a job come to. -/
inductive Written where
  /-- all performed -/
  | all (s : State)
  /-- one was refused; its record is written -/
  | refused (s : State)
  /-- the first of the listed chunks failed its CRC -/
  | failed (s : State) (rest : List (Word × List (Byte × Bool)))
  | wait

/-- Write the chunks of a job in order, up to the one whose CRC fails. -/
def writeChunks (e : Eng) (bad : Option Word) : List (Word × List (Byte × Bool)) → State → Written
  | [], s => .all s
  | (a, bs) :: r, s =>
    if bad = some a then .failed s ((a, bs) :: r)
    else match engWrite s e a bs with
      | .ok _ s => writeChunks e bad r s
      | .bad _ _ s => .refused s
      | .wait => .wait

/-- The K steps of a job from c0, without and with its perturbation word. -/
def accumulate (c : PCore) (j : MxJob) : List (BitVec 32) × List (BitVec 32) × Nat × Nat :=
  let int := fmtInt j.fmt
  let m := mbM j.blk
  let n := mbN j.blk
  let as := stepsA j.blk j.fmt (bytesA c j)
  let bs := stepsB j.blk j.fmt (c.fifoB.take (spanB j.blk j.fmt))
  let tile := tileSteps int j.c0 as bs
  let hit := perturb int m n j.pert tile
  let k := mbSteps j.blk j.fmt + if mbAcm j.blk = 2 then 1 else 0
  let (r, q) := entryCheck int m n k j.c0 hit as bs
  (tile, hit, r, q)

/-- The record of a failed entry check or chunk (R464). -/
def mxRecord (s : State) (p : Nat) (j : MxJob) (code sev : Nat) (a : Word) : State :=
  record s 3 code sev (0x210 + clusterOf p) j.job (bits j.id 31 24 * 16 + bits j.id 23 20) a j.id.toNat true

/-- The steps of a job in the array take their energy (R240). -/
def chargeSteps (s : State) (p : Nat) (j : MxJob) : State :=
  charge s j.job (mbSteps j.blk j.fmt * scaledEnergy s (clusterOf p) 20300000)

/-- The tile after the entry check, with the record of a failure; none where the job has failed (R466). -/
def checkedTile (s : State) (p : Nat) (j : MxJob) : Option (List (BitVec 32)) × State :=
  let (tile, hit, r, q) := accumulate (getCore s p) j
  if r = 0 ∧ q = 0 then (some hit, s)
  else
    let a := BitVec.ofNat 64 (r * 256 + q)
    if !spansKept j then (none, mxRecord s p j 0x01 2 a)
    else
      let s := chargeSteps s p j
      let again := accumulate (getCore s p) { j with pert := 0 }
      if again.2.2.1 = 0 ∧ again.2.2.2 = 0 then (some tile, mxRecord s p j 0x01 1 a) else (none, mxRecord s p j 0x01 2 a)

/-- A job whose writes are over commits its tile, its spans leave their streams, and it ends with a STATE. What a second run
would need is kept until its commit group is folded (R149). -/
def closeMx (s : State) (p : Nat) (j : MxJob) (tile : List (BitVec 32)) (state : Nat) : State :=
  let c := getCore s p
  let s := commitTile (updCore s p fun c => consumeSpans c j) p j tile
  let s := updCore s p fun d => { d with
    commits := { pos := d.ringPos + d.shadow.length, job := j, spanA := if mbAmode j.blk = 2 then [] else bytesA c j
                 spanB := c.fifoB.take (spanB j.blk j.fmt), held := c.heldA }
      :: d.commits.filter fun x => decide (d.ringPos - d.ring.length < x.pos) }
  endMx s p j state

/-- Stage 7 and the end: the chunks, then the commit. -/
def finishMx (s : State) (p : Nat) (j : MxJob) (tile : List (BitVec 32)) (bad : Option Word)
    (chunks : List (Word × List (Byte × Bool))) : Option State :=
  match writeChunks (mxEng p j) bad chunks s with
  | .all s => some (closeMx s p j tile 2)
  | .refused s => some (closeMx s p j tile 3)
  | .failed s rest => some (updMx s p j.id fun x => { x with tile := tile, rest := rest, count := j.count })
  | .wait => none

/-- The granted job of a cluster. -/
def grantedJob (s : State) (cl : Nat) : Option (Nat × MxJob) :=
  match (getCluster s cl).grant with
  | some (p, id) => ((getCore s p).wide.mxq.find? fun j => j.id = id).map fun j => (p, j)
  | none => none

/-- A granted job whose spans are in its streams runs its steps, its check, its epilogue and its writes. -/
def runMx (s : State) (p : Nat) (j : MxJob) : Option State :=
  let (t, s) := checkedTile (chargeSteps s p j) p j
  match t with
  | none => some (endMx (updCore s p fun c => consumeSpans c j) p j 3)
  | some tile =>
    match readVectors s p j with
    | .wait => none
    | .bad _ _ s => some (closeMx s p j tile 3)
    | .ok (bias, scale) s =>
      let (chunks, sat) := outputChunks (getCore s p) j tile bias scale
      finishMx s p { j with count := sat } tile (perturbedChunk j) chunks

/-- MXE_JOB_END (R186): the granted job of cluster `n`. -/
def execMxeJobEnd (s : State) : Host.Outcome State Fault Refusal :=
  .next (match grantedJob s s.input.n with
    | some (p, j) =>
      if j.rest ≠ [] || !spansThere (getCore s p) j || !(getCluster s s.input.n).powered || clockStopped s s.input.n then s else (runMx s p j).getD s
    | none => s)

/-- MXE_CHUNK_RETRY (R467): the chunk that failed is written again; `flag`: it fails again. -/
def execMxeChunkRetry (s : State) : Host.Outcome State Fault Refusal :=
  .next (match grantedJob s s.input.n with
    | some (p, j) => match j.rest with
      | [] => s
      | (a, _) :: _ =>
        if !(getCluster s s.input.n).powered || clockStopped s s.input.n then s
        else if s.input.flag then closeMx (mxRecord s p j 0x02 2 a) p j j.tile 3
        else (finishMx (mxRecord s p j 0x02 1 a) p j j.tile none j.rest).getD s
    | none => s)

end Sys2Proof.Machine
end

