-- ==== Sys2Proof/Machine/TakeWork.lean ====
section
/-! DEFINITION. How an idle slot takes work, steals, and ends its start (R32, R38 to R41, R47, R64, R155, R494). -/

namespace Sys2Proof.Machine

/-- Whether core `p` takes frames: it runs, is not stopped or frozen by a fault, and an LPCT entry names it (R102, R406,
R424). -/
def takesFrames (s : State) (p : Nat) : Bool :=
  let c := getCore s p
  !coreHeld c && !c.coreFault && !c.vacated && !stopInForce c && (getCluster s (clusterOf p)).powered
    && !(getCluster s (clusterOf p)).fenced && !(decide (p % 2 = 1) && pairCoupled s (p - 1))

/-! ### Frames that nobody can take (R39) -/

/-- No slot of the core is allotted to the frame's job in the resident context. -/
def strayFrame (s : State) (p : Nat) (f : V512) : Bool := (upTo 16).all fun n => decide (allotted s p n ≠ some (frJob f))

/-- One record for each stray frame that an idle slot passes over for the first time. -/
def passOver (s : State) (p : Nat) (fs : List V512) : State :=
  fs.foldl (fun s f =>
    if strayFrame s p f && !(getCore s p).res.strays.contains f then
      record (updCtx s p fun x => { x with strays := x.strays ++ [f] }) 9 0x03 2 p (frJob f) 0xFFF (frEntry f)
    else s) s

/-! ### Sources -/

/-- A slot takes a frame once its DISP record may be made: the frame leaves its source and the slot is Starting. -/
def takeFrame (s : State) (p n job src : Nat) (f : V512) (remove : Ctx → Ctx) : State :=
  let r := dispRes s p n src (frEntry f)
  match gateAll s job (logicalOf s p) true [r] with
  | (.go, s) =>
    let s := noteUndo (putAll s job (logicalOf s p) [r]) p (.popped src f)
    beginStart (watchRefill (updCtx s p remove) p (getCore s p).res) p n f []
  | (_, s) => s

/-- Remove the first frame equal to one. -/
def dropRun (f : V512) (x : Ctx) : Ctx := refillRun { x with runList := x.runList.erase f } 32
/-- Remove the frame nearest to the near end equal to one. -/
def dropNear (f : V512) (x : Ctx) : Ctx := { x with deque := (x.deque.reverse.erase f).reverse }

/-- The nearest frame of a job's spill area on core `p`: the next of the job once the local part of the deque holds none of
it (R38, R39). -/
def nearSpilled (s : State) (p job : Nat) : Option V512 × State :=
  let (first, n) := spillAt (getCore s p).res job
  if n = 0 then (none, s) else readRecord s job (spillAddr s job (logicalOf s p) (first + n - 1))

/-- That frame leaves the spill area. -/
def dropSpill (job : Nat) (x : Ctx) : Ctx :=
  let (first, n) := spillAt x job
  { x with spilled := mset x.spilled job (first * 2 ^ 32 + (n - 1)) }

/-- A frame is the one that a slot wants: any, or in replay the one whose first PC is recorded. -/
def wanted (want : Option Word) (f : V512) : Bool := match want with | some e => decide (frEntry f = e) | none => true

/-- The frame of the run list that a slot takes: the first of the job, in replay the one whose first PC is recorded. -/
def runFrame (x : Ctx) (job : Nat) (want : Option Word) : Option V512 :=
  x.runList.find? fun f => decide (frJob f = job) && wanted want f

/-- The frame of the deque that a slot takes, from the near end. -/
def nearFrame (x : Ctx) (job : Nat) (want : Option Word) : Option V512 :=
  x.deque.reverse.find? fun f => decide (frJob f = job) && wanted want f

/-- Take from the run list; false when it holds no frame of the job. -/
def fromRun (s : State) (p n job : Nat) (want : Option Word) : Bool × State :=
  let x := (getCore s p).res
  let s := passOver s p (x.runList.takeWhile fun f => decide (frJob f ≠ job))
  match runFrame x job want with
  | some f => (true, takeFrame s p n job 1 f (dropRun f))
  | none => (false, s)

/-- No frame of the job is left in a core's deque and spill area: the time of the pop is noted (R41). -/
def notePop (s : State) (p job : Nat) : State :=
  let x := (getCore s p).res
  if (nearFrame x job none).isNone && decide ((spillAt x job).2 = 0) then
    updCore s p fun c => { c with lastPop := mset c.lastPop job s.plumb }
  else s

/-- Take from the near end of the own deque, whose far end is the spill area (R38); false when neither it nor the spill area holds a frame of the job. -/
def fromDeque (s : State) (p n job : Nat) (want : Option Word) : Bool × State :=
  let s := passOver s p ((getCore s p).res.deque.reverse.takeWhile fun f => decide (frJob f ≠ job))
  match nearFrame (getCore s p).res job want with
  | some f => (true, notePop (reload (takeFrame s p n job 2 f (dropNear f)) p job) p job)
  | none => match nearSpilled s p job with
    | (some f, s) => if wanted want f then (true, notePop (takeFrame s p n job 2 f (dropSpill job)) p job) else (false, s)
    | (none, s) => (false, s)

/-! ### Steals (R40, R41) -/

/-- One step of the victim sequence. -/
def victimStep (v : BitVec 16) : BitVec 16 := if v.toNat % 2 = 1 then (v >>> 1) ^^^ 0xB400 else v >>> 1

/-- Victims of a sweep by a thief on logical core `lc`: the other mapped cores. A core whose entry has V = 0 is no victim and
counts in no list, and the first group is the logical cluster (log 69). -/
def allVictims (s : State) (lc : Nat) : List Nat := (upTo 192).filter fun n => decide (n ≠ lc) && lpctV s n

/-- The group or class of the victims left that is tried now. -/
def victimGroup (s : State) (p lc : Nat) (left : List Nat) : List Nat :=
  let near := left.filter fun n => decide (n / 8 = lc / 8)
  if near ≠ [] then near
  else
    let d := fun (n : Nat) => meshDist p (physOf s n)
    let least := left.foldl (fun m n => min m (d n)) 1000
    left.filter fun n => decide (d n = least)

/-- A steal request of the slot is on its way. -/
def stealing (s : State) (p n : Nat) : Bool :=
  s.net.any fun m => match m with
    | .steal q k _ _ => decide (q = p) && decide (k = n)
    | _ => false

/-- The next try of a sweep (R40). -/
def trySteal (s : State) (p n job : Nat) : State :=
  let lc := logicalOf s p
  let sl := getSlot s p n
  let left := if sl.victims = [] then allVictims s lc else sl.victims
  let grp := victimGroup s p lc left
  if grp = [] then s
  else
    let v := victimStep (getCore s p).victim
    let w := grp.getD (v.toNat * grp.length / 65536) 0
    let rest := left.filter (· ≠ w)
    let s := updCore s p fun c => { c with victim := v }
    let s := updSlot s p n fun sl => { sl with victims := rest, resting := decide (rest = []) }
    { s with net := s.net ++ [.steal p n w job] }

/-- Records that are still to be met where an agent's operations are replayed, in mode 2 and in the re-execution of a checked pair
(R155, R471). -/
def toMeet (s : State) (job : Nat) (key : BitVec 12) : List (BitVec 128) :=
  if mortarMode s job = 2 then (getMortar s job).handed.map fun r => r.2
  else match rollingPair s key with
    | some (_, q) => q.replay
    | none => []

/-- The next of them at a point. -/
def nextAt (s : State) (job point : Nat) (key : BitVec 12) : Option (BitVec 128) := (toMeet s job key).find? fun r => decide (recPoint r = point)

/-- What slot `n` of core `p` takes next is given by a replay. -/
def replays (s : State) (p n job : Nat) : Bool :=
  decide (mortarMode s job = 2) || (pairNext s (logicalOf s p) (senderKey s p n)).isSome

/-- The victim that the Mortar's STEAL record gives a thief in replay (R494). -/
def replayVictim (s : State) (job : Nat) (key : BitVec 12) : Option Nat :=
  ((toMeet s job key).find? fun r => decide (recType r = 5) && decide (recAgent r = key.toNat)).map recPoint

/-- Replay: the slot takes only what its point's next record, a DISP record that names it, gives (R494). -/
def takeReplay (s : State) (p n job : Nat) : State :=
  match nextAt s job (logicalOf s p) (senderKey s p n) with
  | some r =>
    if recType r ≠ 6 || decide (recAgent r ≠ (senderKey s p n).toNat) then s
    else match recArg r with
      | 0 => match acceptable s p n with
        | some u => if recData r = u.entry then acceptUrgent s p n u else s
        | none => s
      | 1 => (fromRun s p n job (some (recData r))).2
      | 2 => (fromDeque s p n job (some (recData r))).2
      | 3 => match replayVictim s job (senderKey s p n) with
        | some w => { s with net := s.net ++ [.steal p n w job] }
        | none => s
      | _ => s
  | none => s

/-- SLOT_TAKE_WORK (R39): slot `k` of core `n`, if it is idle. -/
def execSlotTakeWork (s : State) : Host.Outcome State Fault Refusal := .next
  (let p := s.input.n
   let n := s.input.k
   let sl := getSlot s p n
   if n ≥ 16 || sl.st ≠ .empty || !takesFrames s p || stealing s p n then s
   else match allotted s p n with
    | none => s
    | some job =>
      if replays s p n job then takeReplay s p n job
      else match acceptable s p n with
      | some u => acceptUrgent s p n u
      | none =>
        if sl.victims ≠ [] then trySteal s p n job
        else if sl.resting then updSlot s p n fun sl => { sl with resting := false }
        else match fromRun s p n job none with
          | (true, s) => s
          | (false, s) => match fromDeque s p n job none with
            | (true, s) => s
            | (false, s) => if sl.pinnedIdle then s else trySteal s p n job)

/-- The farthest frame of a job in the local part of a deque. -/
def farLocal (x : Ctx) (job : Nat) (want : Option Word) : Option V512 := x.deque.find? fun f => decide (frJob f = job) && wanted want f

/-- The farthest frame of a job in a core's deque (R38, R40), the spill area first; in replay the frame that the thief's DISP
record names (R494). -/
def farFrame (s : State) (q job : Nat) (want : Option Word) : Option V512 × State :=
  let (first, n) := spillAt (getCore s q).res job
  if n ≠ 0 then
    match readRecord s job (spillAddr s job (logicalOf s q) first) with
    | (some f, s) => if wanted want f then (some f, s) else (farLocal (getCore s q).res job want, s)
    | (none, s) => (none, s)
  else (farLocal (getCore s q).res job want, s)

/-- That frame leaves the deque. -/
def dropFar (s : State) (q job : Nat) (want : Option Word) (f : V512) : State :=
  let (first, n) := spillAt (getCore s q).res job
  if n ≠ 0 && (want.isNone || decide (farLocal (getCore s q).res job want ≠ some f)) then setSpill s q job (first + 1) (n - 1)
  else updCtx s q fun x => { x with deque := x.deque.erase f }

/-- The first PC of the frame that slot `n` of core `p` takes next, where a replay gives it (R155, R494). -/
def wantedBy (s : State) (p n job : Nat) : Option Word :=
  match nextAt s job (logicalOf s p) (senderKey s p n) with
  | some r => if recType r = 6 ∧ recAgent r = (senderKey s p n).toNat then some (recData r) else none
  | none => none

/-- The record of a steal (R152). -/
def stealRecord (s : State) (p n victim : Nat) (taken : Bool) : Resolution :=
  { type := 5, arg := b2n taken, agent := senderKey s p n, data := BitVec.ofNat 64 victim }

/-- In replay the victim's next record lets the thief find it empty (R494, ARG 0). -/
def replayEmpty (s : State) (job victim : Nat) (key : BitVec 12) : Bool :=
  match nextAt s job victim key with
  | some r => decide (recType r = 5) && decide (recAgent r = key.toNat) && decide (recArg r = 0)
  | none => false

/-- Records that an operation makes anew: none where a re-executing pair replays it. -/
def madeAnew (s : State) (point : Nat) (x : Resolution) : Nat :=
  match pairNext s point x.agent with
  | some r => if recMatches r x then 0 else 1
  | none => 1

/-- The verdicts of the two points of a steal, whose records both need room (R154, R155). -/
def gateTwo (s : State) (job a b : Nat) (x y : Resolution) : Bool × State :=
  let gate := fun (s : State) (point : Nat) (x : Resolution) =>
    if mortarMode s job = 0 ∨ mortarMode s job = 2 then gateAll s job point true [x]
    else pairGate s job point (madeAnew s a x + madeAnew s b y) x
  match gate s a x with
  | (.go, s) => match gate s b y with
    | (.go, s) => (true, s)
    | (_, s) => (false, s)
  | (_, s) => (false, s)

/-- A frame leaves the victim and starts in the thief, both records made. -/
def stealFrame (s : State) (p n victim job : Nat) (f : V512) : Landed :=
  let q := physOf s victim
  let x := stealRecord s p n victim true
  let d := dispRes s p n 3 (frEntry f)
  let t := s
  match gateTwo s job victim (logicalOf s p) x d with
  | (true, s) =>
    let s := putAll (putAll s job victim [x]) job (logicalOf s p) [d]
    let s := noteUndo (dropFar s q job (wantedBy t p n job) f) p (.stolen q f)
    .gone (updSlot (beginStart s p n f []) p n fun sl => { sl with victims := [], resting := false })
  | (false, s) => .stay s

/-- A steal that finds no frame of the job: where a pop took the last one within the same ns, the two may have contended in
one fabric clock, and the steal that lost the race leaves a record with ARG 0 (R41, R494; log 64). -/
def stealNone (s : State) (p n victim job : Nat) : Landed :=
  let m := Msg.steal p n victim job
  let near := decide (mget (getCore s (physOf s victim)).lastPop job = some s.plumb)
  if mortarMode s job = 0 || !(near || s.heldMsgs.contains m) then .gone s
  else
    let (x, s) := drawNat s
    if !s.heldMsgs.contains m && decide (x % 2 = 0) then .gone s
    else match gateAll s job victim true [stealRecord s p n victim false] with
      | (.go, s) => .gone (putAll s job victim [stealRecord s p n victim false])
      | (_, s) => .held s

/-- A steal at its victim. -/
def stealAt (s : State) (p n victim job : Nat) : Landed :=
  let q := physOf s victim
  if clockStands s q || clockStands s p then .stay s
  else if (getSlot s p n).st ≠ .empty || decide (allotted s p n ≠ some job) || !takesFrames s p then .gone s
  else if !lpctV s victim || (getCluster s (clusterOf q)).fenced then .gone s
  else if !(getCluster s (clusterOf q)).powered || (getCore s q).coreFault then .stay s
  else if replayEmpty s job victim (senderKey s p n) then .gone (putAll s job victim [stealRecord s p n victim false])
  else match farFrame s q job (wantedBy s p n job) with
    | (some f, s) => stealFrame s p n victim job f
    | (none, s) => if replays s p n job then .stay s else stealNone s p n victim job

/-- STEAL_REQUEST (R40, R41): message `n` at the victim's interface. -/
def execStealRequest (s : State) : Host.Outcome State Fault Refusal :=
  .next (match s.net[s.input.n]? with
    | some (.steal p n victim job) => landed s s.input.n (.steal p n victim job) fun s => stealAt s p n victim job
    | _ => s)

/-- SLOT_START_DONE (R32, R64): slot `k` of core `n` ends its 4 cc of Starting. -/
def execSlotStartDone (s : State) : Host.Outcome State Fault Refusal := .next
  (let p := s.input.n
   let sl := getSlot s p s.input.k
   match sl.st, sl.starting with
   | .starting, some f => if coreHeld (getCore s p) then s else endStart s p s.input.k f
   | _, _ => s)

end Sys2Proof.Machine
end

