-- ==== Sys2Proof/Machine/Stop.lean ====
section
/-! DEFINITION. How the slots of a core freeze together and resume (R299, R406, R409, R410, R423, R424, R426, R482). -/

namespace Sys2Proof.Machine

/-- A slot frozen with a CAUSE, holding its PC; `was` as DSTAT codes it. -/
def stoppedSlot (sl : Slot) (was : BitVec 2) (cause : BitVec 4) (wdrn : Bool) : Slot :=
  { sl with st := .frozen, park := .none, pend := none, was := was, wdrn := wdrn, cause := cause, dpc := sl.pc.setWidth 48
            stepping := false, stopNext := 0 }

/-- A wait of the slot is held at an owner, or waits to be sent again (R299, R453). -/
def waitHeld (s : State) (p n : Nat) (sl : Slot) : Bool :=
  ((waitsOf s p).any fun e => decide (e.2.src = .slot p n)) || (match sl.pend with | some d => d.again.isSome | none => false)

/-- THE FREEZING OF ONE SLOT by a stop, a core-scope fault or a capture (R406): a Frozen slot keeps its CAUSE; one that is
Starting ends its start first; any other that waits freezes when its instruction retires, and its CAUSE stays 0 until
then (R408). -/
def stopOne (s : State) (p n : Nat) (cause : BitVec 4) : State :=
  let s := match (getSlot s p n).st, (getSlot s p n).starting with
    | .starting, some f => endStart s p n f
    | _, _ => s
  let sl := getSlot s p n
  match sl.st with
  | .empty => updSlot s p n fun sl => { sl with was := 3 }
  | .frozen => s
  | .active => updSlot s p n fun sl => stoppedSlot sl 0 cause false
  | .parked =>
    let held := waitHeld s p n sl
    updSlot (dropWaits s p n) p n fun sl => stoppedSlot sl (if held then 1 else 2) cause held
  | .waiting =>
    if waitHeld s p n sl then updSlot (undoPend (dropWaits s p n) p n sl.pend) p n fun sl => stoppedSlot sl 1 cause true
    else updSlot s p n fun sl => { sl with was := 1, wdrn := false, stopNext := cause }
  | .starting => s

/-- All sixteen slots of a core. -/
def stopCore (s : State) (p : Nat) (cause : BitVec 4) : State :=
  (upTo 16).foldl (fun s n => stopOne s p n cause) (settleAll (updCore s p fun c => { c with pass := [] }) p)

/-- A slot of the core is Frozen with a CAUSE, or is to freeze with it once its reply is applied. -/
def anyFrozen (c : PCore) (cause : BitVec 4) : Bool :=
  c.res.slots.any fun e => decide (e.2.cause = cause) || decide (e.2.stopNext = cause)

/-- A core-scope fault (R424). -/
def coreScope (s : State) (p : Nat) : State :=
  let s := stopCore s p 4
  updCore s p fun c => { c with coreFault := anyFrozen c 4 }

/-- Requests held by LOCK or a core-scope fault go on in arrival order (R422, R424). -/
def releaseHeld (s : State) (p : Nat) : State :=
  let c := getCore s p
  { updCore s p fun c => { c with lockHeld := [] } with net := (c.lockHeld.map fun r => Msg.req c.lcore r) ++ s.net }

/-- The core-scope fault ends when no slot holds CAUSE 4. -/
def endScope (s : State) (p : Nat) : State :=
  let c := getCore s p
  if c.coreFault && !anyFrozen c 4 then
    releaseHeld (updCore s p fun c => { c with coreFault := false }) p
  else s

/-- A FROZEN SLOT RESUMES (R409, R423); timeouts of the points whose next record names it start anew (R410). -/
def wakeFrozen (s : State) (p n : Nat) : State := endScope (restartTimeouts (resumeSlot s p n) p n) p

/-- Every slot of a core resumes that is Frozen with a CAUSE that a test accepts. -/
def wakeFrozenAll (s : State) (p : Nat) (test : Nat → Bool) : State :=
  (upTo 16).foldl (fun s n =>
    let sl := getSlot s p n
    if sl.st = .frozen ∧ test sl.cause.toNat then wakeFrozen s p n else s) s

/-- The reason to freeze has gone: a slot that waits no longer freezes when its instruction retires (log 81). -/
def liftStops (s : State) (p : Nat) (test : Nat → Bool) : State :=
  (upTo 16).foldl (fun s n =>
    let sl := getSlot s p n
    if sl.stopNext ≠ 0 ∧ test sl.stopNext.toNat then endScope (updSlot s p n fun sl => { sl with stopNext := 0, wdrn := false }) p
    else s) s

end Sys2Proof.Machine
end

