-- ==== Sys2Proof/Machine/Power.lean ====
section
/-! DEFINITION. Operating points, droop, heat, ballast, energy (R45, R102, R173, R229 to R241, R478 to R482). -/

namespace Sys2Proof.Machine

/-- The partition of a job holds a cluster. -/
def jobHolds (s : State) (j : Job) (cl : Nat) : Bool := (partCores s j.record).any fun p => decide (clusterOf p = cl)

/-! ### Ratio changes (R229 to R231, R241, R480, R481) -/

/-- A gang switch of a cluster is in progress. -/
def switchIn (s : State) (cl : Nat) : Bool :=
  s.switches.any fun w => (decide (w.step ≠ .due) || decide (w.time ≤ s.plumb)) && w.cores.any fun p => decide (clusterOf p = cl)

/-- A thermal migration of a core is in progress. -/
def coreMigrates (s : State) (p : Nat) : Bool := s.migrations.any fun m => decide (m.1 = p) || decide (m.2 = p)

/-- A thermal migration of a cluster is in progress. -/
def migrationIn (s : State) (cl : Nat) : Bool :=
  s.migrations.any fun m => decide (clusterOf m.1 = cl) || decide (clusterOf m.2 = cl)

/-- The conditions of R230, REQ ≠ CUR apart. -/
def mayChange (s : State) (cl : Nat) : Bool :=
  let c := getCluster s cl
  !c.busy && !c.forced && !c.rfail && c.powered && !switchIn s cl && !migrationIn s cl
    && !(s.jobs.any fun j => decide (j.phase = .opened) && jobHolds s j cl)

/-- The clocks that a cluster has run at a Plumb time: one lasts a period of its point, or two while it is stretched (R480). -/
def ccNow (c : Cluster) (now : Nat) : Nat :=
  c.clk.base + if c.clk.runs then 24 * (now - c.clk.since) / (ticksAt c.cur.toNat * if c.stretched then 2 else 1) else 0

/-- The count goes on from a Plumb time, with the clock running or not. -/
def recount (now : Nat) (runs : Bool) (c : Cluster) : Cluster := { c with clk := { base := ccNow c now, since := now, runs := runs } }

/-- A change to a point starts: BUSY. -/
def startChange (s : State) (cl : Nat) (point : BitVec 2) : State :=
  updCluster s cl fun c => { c with busy := true, target := point, tries := 0, failStep := 0 }

/-- Each core of the cluster that is at a rotation boundary stops (step 2 of R231). -/
def haltCores (s : State) (cl : Nat) : State :=
  let s := (coresOf cl).foldl (fun s p =>
    let c := getCore s p
    if c.halted || decide (c.pass ≠ []) then s else updCore (settleAll s p) p fun c => { c with halted := true }) s
  if clockStopped s cl then updCluster s cl (recount s.plumb false) else s

/-- RATIO_CHANGE_START (R230): cluster `n`. -/
def execRatioChangeStart (s : State) : Host.Outcome State Fault Refusal :=
  .next (
    let cl := s.input.n
    let c := getCluster s cl
    if c.req ≠ c.cur && mayChange s cl then haltCores (startChange s cl c.req) cl else s)

/-- Clocks of a closure that lie in the last 4,096 cc of its cluster at a Plumb time: those that ended before then have left
(R232). -/
def closureIn (c : Cluster) (now : Nat) (e : Nat × Nat) : Nat := min e.2 (e.1 + 4096 - ccNow c now)

/-- Clocks in which the switch was closed, of the last 4,096 cc (R232). -/
def closedCc (s : State) (c : Cluster) : Nat := (c.closed.map (closureIn c s.plumb)).foldl (· + ·) 0

/-- A closure of the injection switch begins, unless the 64 cc of the last 4,096 are used up (R232). -/
def closeSwitch (s : State) (c : Cluster) : Cluster :=
  if c.inj || decide (64 ≤ closedCc s c) then c else { c with inj := true, dinj := if c.dinj = 255 then 255 else c.dinj + 1 }

/-- A closure of `k` cc ends; closures that have left the last 4,096 cc are forgotten. -/
def openSwitch (s : State) (k : Nat) (c : Cluster) : Cluster :=
  { c with inj := false, closed := (c.closed.filter fun e => decide (closureIn c s.plumb e ≠ 0)) ++ [(ccNow c s.plumb, k)] }

/-- The clock of a cluster starts: positions count anew (R45), injection that was held off begins (R241). -/
def restartClock (s : State) (cl : Nat) : State :=
  let s := (coresOf cl).foldl (fun s p => updCore s p fun c =>
    { c with halted := false, cc := 0, pass := [], res := unclocked c.res, sav := c.sav.map unclocked }) s
  updCluster s cl fun c => let c := recount s.plumb true c; if c.droop then closeSwitch s c else c

/-- A FORCED CHANGE to L (R480, R482): `why` is 1 for droop, 2 for heat. Each is recorded, also while FORCED is still 1; one that
falls into a change in progress follows it, whatever becomes of that change and of FORCED (log 57). -/
def forceChange (s : State) (cl why : Nat) : State :=
  let c := getCluster s cl
  let s := record (updCluster s cl fun c => { c with forced := true }) 5 0x02 2 (0x290 + cl) 0 0xFFF 0 why
  if c.busy then updCluster s cl fun c => { c with forceDue := true }
  else if c.cur = 0 then s else haltCores (startChange s cl 0) cl

/-- The forced change that has waited for the end of a change starts, unless the cluster is at L. -/
def startForced (s : State) (cl : Nat) : State :=
  let c := getCluster s cl
  if !c.forceDue then s
  else
    let s := updCluster s cl fun c => { c with forceDue := false }
    if c.cur = 0 then s else haltCores (startChange s cl 0) cl

/-- The end of a change at the point that its clock then runs at. -/
def endChange (s : State) (cl : Nat) (point : BitVec 2) : State :=
  startForced (restartClock (updCluster s cl fun c => { recount s.plumb false c with busy := false, cur := point }) cl) cl

/-- RATIO_CHANGE_DONE (R230, R231): cluster `n`; cores that still run stop first. -/
def execRatioChangeDone (s : State) : Host.Outcome State Fault Refusal :=
  .next (
    let cl := s.input.n
    let c := getCluster s cl
    if !c.busy then s
    else if !allHalted s cl then haltCores s cl
    else
      let s := if c.tries = 1 then record s 5 0x03 1 (0x290 + cl) 0 0xFFF 0 c.failStep true else s
      endChange s cl c.target)

/-- RATIO_STEP_TIMEOUT (R481): step `k` of the change of cluster `n` exceeds its bound; `flag`: the converter does not settle
at the old ratio either. -/
def execRatioStepTimeout (s : State) : Host.Outcome State Fault Refusal :=
  .next (
    let cl := s.input.n
    let c := getCluster s cl
    if !c.busy then s
    else if s.input.flag then
      let s := record s 5 0x04 3 (0x290 + cl) 0 0xFFF 0 cl
      let s := restartClock (updCluster s cl fun c => { c with busy := false }) cl
      { s with agenda := s.agenda ++ [.event .containFence { v := BitVec.ofNat 64 (2 ^ 63 + cl * 2 ^ 58) }] }
    else if c.tries = 0 then
      -- steps 4 to 6 run at the old point; the cores stop again for the second try at their next boundaries
      restartClock (updCluster s cl fun c => { c with tries := 1, failStep := s.input.k }) cl
    else
      let s := record s 5 0x03 2 (0x290 + cl) 0 0xFFF 0 s.input.k true
      startForced (restartClock (updCluster s cl fun c => { c with busy := false, req := c.cur, rfail := true }) cl) cl)

/-- A write of CLKCTL of a cluster (R229). -/
def writeClkctl (s : State) (cl : Nat) (v : Word) : State :=
  if bits v 1 0 = 3 then s else updCluster s cl fun c => { c with req := v.extractLsb' 0 2, bramp := v.extractLsb' 32 8 }

/-- A write of PWRFLT: FORCED and RFAIL are W1C (R479). -/
def writePwrflt (s : State) (cl : Nat) (v : Word) : State :=
  updCluster s cl fun c => { c with rfail := c.rfail && !tbit v 2, forced := c.forced && !tbit v 1 }

/-! ### Droop (R232, R241, R480) -/

/-- DROOP_TRIP (R232): the detector of cluster `n`; while its cores stand for a ratio change the injection is held off. -/
def execDroopTrip (s : State) : Host.Outcome State Fault Refusal :=
  .next (
    let cl := s.input.n
    if (getCluster s cl).droop then s
    else updCluster s cl fun c =>
      let c := { c with droop := true }
      if clockStopped s cl then c else closeSwitch s c)

/-- DROOP_RESTORED (R232): the rail of cluster `n` has been restored for 2 cc, after `k` cc of closure, by which the limit
has not been reached; a switch that the limit opened counts nothing. -/
def execDroopRestored (s : State) : Host.Outcome State Fault Refusal :=
  .next (
    let cl := s.input.n
    let c := getCluster s cl
    if !c.droop then s
    else if !c.inj then updCluster s cl fun c => { c with droop := false }
    else if 64 ≤ closedCc s c + s.input.k then s
    else updCluster s cl fun c => openSwitch s s.input.k { c with droop := false })

/-- The clock of a cluster is stretched until its window ends: an episode (R480). -/
def stretchClock (s : State) (c : Cluster) : Cluster :=
  { openSwitch s (64 - closedCc s c) (recount s.plumb c.clk.runs c) with
    stretched := true, limited := c.limited + 1, strcnt := if c.strcnt = 255 then 255 else c.strcnt + 1 }

/-- DROOP_LIMIT (R480): the closure counter of cluster `n`, whose switch is closed, reaches 64 cc; `k` cc of the window are
stretched. A window in which the limit has been reached before counts once. -/
def execDroopLimit (s : State) : Host.Outcome State Fault Refusal :=
  .next (
    let cl := s.input.n
    let c := getCluster s cl
    if !c.inj || clockStopped s cl then s
    else if c.stretched then updCluster s cl (openSwitch s (64 - closedCc s c))
    else
      let s := updCluster s cl (stretchClock s)
      let s := record s 5 0x01 1 (0x290 + cl) 0 0xFFF 0 s.input.k
      if 4 ≤ c.limited + 1 then forceChange (updCluster s cl fun c => { c with limited := 0 }) cl 1 else s)

/-- STRETCH_WINDOW_END (R480): a window of 4,096 cc of cluster `n` ends; a detector still tripped closes the switch again. -/
def execStretchWindowEnd (s : State) : Host.Outcome State Fault Refusal :=
  .next (
    let stands := clockStopped s s.input.n
    updCluster s s.input.n fun c =>
      let t := { recount s.plumb c.clk.runs c with stretched := false, limited := if c.stretched then c.limited else 0 }
      if c.droop && !stands then closeSwitch s t else t)

/-! ### Heat (R233, R234, R482) -/

/-- A sample above 105 °C. -/
def isHot (c : PCore) : Bool := decide (105 < c.temp)

/-- A cool idle core for a hot one (R233). -/
def coolIdle (s : State) (hot p : Nat) : Bool :=
  let own := getCore s p
  let c := getCore s (stateCore s p)
  decide (p ≠ hot) && decide (own.temp ≤ 95) && (decide (isClass1 s p = isClass1 s hot) || !isClass1 s p)
    && !(c.res.slots.any fun e => slotBusy e.2) && !(match c.sav with | some x => x.slots.any fun e => slotBusy e.2 | none => false)
    && decide (c.wide.mxq = []) && decide (c.hodq = [])
    && !(s.migrations.any fun m => [m.1, m.2].contains p) && (getCluster s (clusterOf p)).powered && !(getCluster s (clusterOf p)).fenced

/-- The rank of a candidate: the hot core's cluster first, then by distance, then by number. -/
def coolRank (hot p : Nat) : Nat := ((if clusterOf p = clusterOf hot then 0 else 1) * 64 + meshDist hot p) * 256 + p

/-- The cool idle core that the exchange takes. -/
def chooseCool (s : State) (hot : Nat) : Option Nat :=
  ((upTo 192).filter (coolIdle s hot)).foldl (fun (b : Option Nat) p => match b with
    | some q => if coolRank hot p < coolRank hot q then some p else some q
    | none => some p) none

/-- A core's slots freeze for heat. -/
def freezeHot (s : State) (p : Nat) : State :=
  let s := coreScope (updCore s p fun c => { c with thermFrozen := true }) p
  record s 5 0x06 2 (0x290 + clusterOf p) 0 0xFFF 0 p

/-- The slots of a saved context that heat froze resume with it. -/
def thawCtx (x : Ctx) : Ctx :=
  { x with slots := x.slots.map fun (n, sl) => (n,
      if sl.st = .frozen ∧ sl.cause = 4 then resumedFrom sl else if sl.stopNext = 4 then { sl with stopNext := 0, wdrn := false } else sl) }

/-- A thermally frozen core whose sample is 95 °C or less: its slots resume. -/
def thawCore (s : State) (p : Nat) : State :=
  let s := updCore s p fun c => { c with thermFrozen := false, hotSamples := 0, hotAlone := false }
  let s := updCore (liftStops (wakeFrozenAll s p fun k => decide (k = 4)) p fun k => decide (k = 4)) p fun c => { c with sav := c.sav.map thawCtx }
  record s 5 0x07 0 (0x290 + clusterOf p) 0 0xFFF 0 p

/-- A hot core: a migration starts, or none can (R482). -/
def handleHot (s : State) (p : Nat) : State :=
  let cl := clusterOf p
  if s.migrations.any fun m => decide (m.1 = p) then s
  else match chooseCool s p with
    | some q => { updCore s p (fun c => { c with hotAlone := false }) with migrations := s.migrations ++ [(p, q)] }
    | none =>
      let c := getCore s p
      let s := if c.hotAlone then s
        else forceChange (record (updCore s p fun c => { c with hotAlone := true }) 5 0x05 1 (0x290 + cl) 0 0xFFF 0 p) cl 2
      let s := updCore s p fun c => { c with hotSamples := if (getCluster s cl).cur = 0 then c.hotSamples + 1 else 0 }
      if (getCore s p).thermFrozen then s
      else if 100 ≤ (getCore s p).hotSamples ∨ 115 < c.temp then freezeHot s p else s

/-- What one core's sample brings about. -/
def handleSample (s : State) (p : Nat) : State :=
  let c := getCore s p
  let s := if c.thermFrozen && decide (c.temp ≤ 95) then thawCore s p else s
  if isHot c then handleHot s p else updCore s p fun c => { c with hotSamples := 0, hotAlone := false }

/-- THOT and TFRZ of every cluster. -/
def heatFlags (s : State) : State :=
  (upTo 24).foldl (fun s cl =>
    let hot := (coresOf cl).any fun p => (getCore s p).hotAlone
    let frz := (coresOf cl).any fun p => (getCore s p).thermFrozen
    if (getCluster s cl).thot = hot ∧ (getCluster s cl).tfrz = frz then s else updCluster s cl fun c => { c with thot := hot, tfrz := frz }) s

/-- THERMAL_SAMPLE (R233, R482): the samples, core and °C; a core not listed keeps its sample. -/
def execThermalSample (s : State) : Host.Outcome State Fault Refusal :=
  .next (
    let s := s.input.pairs.foldl (fun s e => if e.1 < 192 then updCore s e.1 fun c => { c with temp := e.2 } else s) s
    heatFlags ((s.cores.map fun e => e.1).foldl handleSample s))

/-- Two physical cores change places (R234): state each way, LPCT entries, what is held and in flight. -/
def exchangeCores (s : State) (p q : Nat) : State :=
  let a := getCore s p
  let b := getCore s q
  let held := a.lockHeld.map (resend a p) ++ b.lockHeld.map (resend b q)
  let heat := fun (x : PCore) (c : PCore) => { c with
    thermFrozen := x.thermFrozen, hotSamples := 0, hotAlone := false, coreFault := x.coreFault, vacated := x.vacated }
  let s := setCore (setCore s q (heat a (moveInto a b))) p (heat b (moveInto b a))
  let entries := (upTo 192).filter fun n => decide (physOf s n = p) || decide (physOf s n = q)
  let lpct := entries.foldl (fun m n => mset m n (setBits (lpctEntry s n) 7 0 (otherCore p q (physOf s n)))) s.lpct
  { s with cores := s.cores.map fun (i, c) => (i, moveWaits p q c)
           net := (held ++ s.net).map (moveMsg p q), heldMsgs := s.heldMsgs.map (moveMsg p q)
           dropped := s.dropped.map fun e => (moveAgent p q e.1, e.2), switches := s.switches.map (moveSwitch p q), lpct := lpct }

/-- A core is at rest for a move: its tiles quiet, its replies applied, its shadow queue drained. -/
def moveReady (s : State) (p : Nat) : Bool := (getCore s p).halted && !answersDue s p && decide ((getCore s p).shadow = [])

/-- THERMAL_MIGRATION (R234): the hot core `n` and its cool core; it waits for tiles, ratio changes and the LPCT unit. -/
def execThermalMigration (s : State) : Host.Outcome State Fault Refusal :=
  .next (match s.migrations.find? fun m => m.1 = s.input.n with
    | none => s
    | some (p, q) =>
      let busy := (getCluster s (clusterOf p)).busy || (getCluster s (clusterOf q)).busy
      if busy || decide (s.remaps ≠ []) || !tilesQuiet (getCore s p) || !tilesQuiet (getCore s q) then s
      else if moveReady s p && moveReady s q then
        let s := { exchangeCores s p q with migrations := s.migrations.filter fun m => m ≠ (p, q) }
        refillFrames (refillFrames s p) q
      else [p, q].foldl (fun s p =>
        let c := getCore s p
        if c.halted || decide (c.pass ≠ []) then s else updCore (settleAll s p) p fun c => { c with halted := true }) s)

/-! ### Ballast and energy (R235, R239, R240) -/

/-- The target duty of a cluster's ballast for one job, in units of 1 / (1,000 b) (R235). -/
def ballastDuty (s : State) (b : Nat) (j : Job) : Nat :=
  let full := 1000 * b
  if decide (j.phase = .opened) || decide (j.phase = .preempting) || s.switches.any (fun w => decide (w.job = j.id)) then full
  else
    let rise := if s.run ∧ nextBoundary s ≤ s.plumb + full ∧ s.plumb ≤ nextBoundary s then s.plumb + full - nextBoundary s else 0
    let fall := match j.closedAt with | some t => full - (s.plumb - t) | none => 0
    max rise fall

/-- The fraction accumulator in units of 1 / (1,000 b): a new BRAMP keeps the fraction (R235). -/
def ballastAt (c : Cluster) (b : Nat) : Nat := if c.ballastOf = b then c.ballast else c.ballast * b / max c.ballastOf 1

/-- BALLAST_STEP (R235): one ac of cluster `n` that carries no step of a granted job: its FIFOs are short, or it is in its
bubble or its epilogue, or there is none. The steps of a job are those of MXE_JOB_END. -/
def execBallastStep (s : State) : Host.Outcome State Fault Refusal :=
  .next (
    let cl := s.input.n
    let c := getCluster s cl
    let b := c.bramp.toNat
    if b = 0 || clockStopped s cl || !c.powered then s
    else
      let d := ((s.jobs.filter fun j => isRt j && jobHolds s j cl).map (ballastDuty s b)).foldl max 0
      let n := ballastAt c b + d
      if n < 1000 * b then updCluster s cl fun c => { c with ballast := n, ballastOf := b }
      else charge (updCluster s cl fun c => { c with ballast := n - 1000 * b, ballastOf := b }) 0 (scaledEnergy s cl 20300000))

/-- ENERGY_UPDATE (R239): each meter takes the whole nJ of its job's activity since the last update. -/
def execEnergyUpdate (s : State) : Host.Outcome State Fault Refusal :=
  .next { s with
    meters := s.activity.foldl (fun m e => mset m e.1 (((mget m e.1).getD 0) + BitVec.ofNat 64 (e.2 / 1000000))) s.meters
    activity := (s.activity.map fun e => (e.1, e.2 % 1000000)).filter fun e => e.2 ≠ 0 }

/-- A write of PSET (R236). -/
def writePset (s : State) (v : Word) : State := if s.run then s else { s with plumb := v.toNat }

end Sys2Proof.Machine
end

