-- ==== Sys2Proof/Machine/Journal.lean ====
section
/-! DEFINITION. The journal ring, compaction, and the state that a base image and entries give (R139 to R145, R147, R484),
and the reset of a core (R428). -/

namespace Sys2Proof.Machine

/-! ### The ring (R139, R141) -/

/-- Entries of a journal ring. -/
def ringCap : Nat := 16384

/-- An entry as it stands at a write position of the ring: with its LAP and its check. -/
def ringEntry (pos : Nat) (e : BitVec 256) : BitVec 256 :=
  let b := (bits e 231 0) + pos / ringCap % 256 * 2 ^ 232
  BitVec.ofNat 256 (b + (crc16 240 b).toNat * 2 ^ 240)

/-- The oldest entry of the shadow queue enters the ring, unless it would overtake the compaction pointer. -/
def drainOne (c : PCore) : PCore :=
  match c.shadow with
  | [] => c
  | e :: r => if ringCap ≤ c.ring.length then c else { c with shadow := r, ring := c.ring ++ [ringEntry c.ringPos e], ringPos := c.ringPos + 1 }

/-! ### Folding an entry (R140, R145) -/

/-- A frame control word as frame state; the captured words are no part of it (R340). -/
def frameOf (base w : Word) : Frame :=
  { v := tbit w 63, base := base, cntM1 := w.extractLsb' 30 6, lenM1 := w.extractLsb' 26 4, sd := w.extractLsb' 22 4
    sa := w.extractLsb' 18 4, sb := w.extractLsb' 14 4, sc := w.extractLsb' 10 4, repi := w.extractLsb' 4 6, pos := w.extractLsb' 0 4 }

/-- The slot state of a code of R140; the codes that are not written count as Empty. -/
def slotStateOf (n : Nat) : SlotState :=
  match n with
  | 1 => .starting | 2 => .active | 3 => .waiting | 4 => .parked | 5 => .frozen | _ => .empty

/-- A slot with the slot state word `w`: Empty and Starting stand for a cleared slot (R64). -/
def withStateWord (sl : Slot) (w : Word) : Slot :=
  let st := slotStateOf (bits w 34 32)
  let sl := if st = .empty ∨ st = .starting then clearedSlot sl else sl
  { sl with st := st, park := if st = .parked then .idle else .none, idleLatch := tbit w 35, pinnedIdle := tbit w 36
            qbind := w.extractLsb' 24 8, pin := tbit w 15, urg := tbit w 14, mwin := tbit w 13 }

/-- KIND 4: slot control state. -/
def foldControl (sl : Slot) (target : Nat) (x : Word) : Slot :=
  match target with
  | 4 => { sl with launchId := x.setWidth 23 }
  | 5 => { sl with jobId := x.setWidth 7 }
  | 16 => { sl with pc := x }
  | 17 => { sl with urgPc := x }
  | 18 => { sl with join := x }
  | 19 => withStateWord sl x
  | 20 => { sl with chan := x.setWidth 17, chanKa := x.extractLsb' 17 3, chanKc := x.extractLsb' 20 3 }
  | 21 => { sl with frame := { sl.frame with base := x } }
  | 22 => { sl with frame := frameOf sl.frame.base x }
  | 23 => { sl with frameUrg := { sl.frameUrg with base := x } }
  | 24 => { sl with frameUrg := frameOf sl.frameUrg.base x }
  | 25 => { sl with pert := x }
  | n => scrWrite sl n x

/-- Kinds 0 to 4 and 10: a slot's unit takes its value, its full/empty bit and its poison flag. -/
def foldSlot (sl : Slot) (kind target : Nat) (x : Word) (full psn : Bool) : Slot :=
  match kind with
  | 0 => setGCell sl (target % 64) { val := x, full := full, psn := psn }
  | 1 =>
    let r := target % 16
    let c := vCell sl r
    setVCell sl r { val := setBits c.val (64 * (target / 16 % 8) + 63) (64 * (target / 16 % 8)) x.toNat, full := full, psn := psn }
  | 2 => setMReg sl (target % 8) x
  | 3 => setKReg sl (target % 8) (x.setWidth 32)
  | 4 => foldControl sl target x
  | 10 =>
    if target / 128 = 1 then setVCell sl (target % 16) { vCell sl (target % 16) with full := full }
    else setGCell sl (target % 64) { gCell sl (target % 64) with full := full }
  | _ => sl

/-- Kinds 5, 6, 8 and 9: a unit of the context; `key` is that of the slot whose writeback made the entry. The task area is
held as the lists of R33, which the fold leaves. -/
def foldCtx (x : Ctx) (kind target : Nat) (d : Word) (full psn : Bool) (key : BitVec 12) : Ctx :=
  match kind with
  | 5 => { x with c := mset x.c target d }
  | 6 =>
    if inTaskArea (8 * target) 8 then x
    else { x with ls := memStore x.ls (8 * target) (natBytes 8 d.toNat), lsEmpty := nflag x.lsEmpty target (!full)
                  lsPoison := nflag x.lsPoison target psn }
  | 8 =>
    let q := target % 8
    if 8 ≤ target then { x with q := mset x.q q ((getQ x q).drop 1) }
    else { x with q := mset x.q q (getQ x q ++ [{ val := d, psn := psn, key := key }]) }
  | 9 => { x with tiles := mset x.tiles target (d.setWidth 32) }
  | _ => x

/-- Kinds 7 and 11: a unit of the core-wide image. -/
def foldWide (w : Wide) (kind target : Nat) (d : Word) (psn : Bool) : Wide :=
  match kind with
  | 7 => { w with acc := memStore w.acc (8 * target) (natBytes 8 d.toNat), accPoison := nflag w.accPoison target psn }
  | 11 => { w with accept := mset w.accept target (d.setWidth 32) }
  | _ => w

/-- An entry of logical core `lc` on a context set and the core-wide image; the last of a slot's instruction gives PC and RSN (R147). -/
def foldEntry (lc : Nat) (b : Ctx × Wide) (e : BitVec 256) : Ctx × Wide :=
  let kind := bits e 195 192
  let n := bits e 199 196
  let target := bits e 179 160
  let d : Word := e.extractLsb' 64 64
  let x := foldCtx b.1 kind target d (tbit e 190) (tbit e 189) (BitVec.ofNat 12 (lc * 16 + n))
  let sl := foldSlot (ctxSlot x n) kind target d (tbit e 190) (tbit e 189)
  let w := foldWide b.2 kind target d (tbit e 189)
  if tbit e 191 && !tbit e 187 then
    ({ x with slots := mset x.slots n { sl with pc := e.extractLsb' 0 64 } }, { w with rsn := mset w.rsn n (e.extractLsb' 200 32) })
  else if kind ≤ 4 ∨ kind = 10 then ({ x with slots := mset x.slots n sl }, w)
  else (x, w)

/-- An entry on the base images of a core, in the set that CTX names. -/
def foldBase (c : PCore) (e : BitVec 256) : PCore :=
  if tbit e 188 = c.set then
    let b := foldEntry c.lcore (c.baseRes, c.baseWide) e
    { c with baseRes := b.1, baseWide := b.2 }
  else match c.baseSav with
    | some y => let b := foldEntry c.lcore (y, c.baseWide) e; { c with baseSav := some b.1, baseWide := b.2 }
    | none => c

/-- Length of the group of entries at the head of a ring that ends with LAST = 1; 0 where none does. -/
def headGroup (l : List (BitVec 256)) : Nat :=
  let k := (l.takeWhile fun e => !tbit e 191).length
  if k < l.length then k + 1 else 0

/-- Number of entries at the head of a ring that whole instructions make up. -/
def wholeGroups (l : List (BitVec 256)) : Nat := l.length - (l.reverse.takeWhile fun e => !tbit e 191).length

/-- Fold the first `n` entries of the ring. -/
def foldRing (c : PCore) (n : Nat) : PCore := (c.ring.take n).foldl foldBase { c with ring := c.ring.drop n }

/-- The position in the ring past which compaction folds nothing (R470): that of the oldest mark while a pair is coupled. -/
def foldLimit (s : State) (p : Nat) : Nat :=
  if pairCoupled s p then oldestMark ((mget s.pairChk (p / 2)).getD {}) (getCore s p) else (getCore s p).ringPos

/-- Compaction folds the group at the head of the ring (R145). -/
def compactOne (s : State) (p : Nat) : State :=
  let c := getCore s p
  let n := headGroup c.ring
  if n = 0 ∨ foldLimit s p < c.ringPos - c.ring.length + n then s else setCore s p (foldRing c n)

/-- The job that the switch of core `p` under way pre-empts; the background context has no job of its own: job 0 (R240). -/
def savingJob (s : State) (p : Nat) : Option Nat :=
  if (getCore s p).switching then
    (s.switches.find? fun w => w.cores.contains p && decide (w.step = .due ∨ w.step = .stopped)).map fun w => if w.inward then 0 else w.job
  else none

/-- The entry at the head of the shadow queue becomes durable; one that a gang-switch save writes is charged to the job pre-empted
(R240). -/
def drainCharged (s : State) (p : Nat) : State :=
  let t := updCore s p drainOne
  match savingJob s p with
  | some job => if (getCore t p).ringPos = (getCore s p).ringPos then t else charge t job (scaledEnergy s (clusterOf p) 250000)
  | none => t

/-- JOURNAL_DRAIN (R141): core `n`. -/
def execJournalDrain (s : State) : Host.Outcome State Fault Refusal := .next (drainCharged s s.input.n)

/-- COMPACTION_STEP (R145): core `n`. -/
def execCompactionStep (s : State) : Host.Outcome State Fault Refusal := .next (compactOne s s.input.n)

/-- Every entry of the shadow queue becomes durable: compaction makes room where the ring is full. -/
def drainAll (s : State) (p : Nat) : State :=
  (upTo (getCore s p).shadow.length).foldl (fun s _ =>
    drainCharged (if ringCap ≤ (getCore s p).ring.length then compactOne s p else s) p) s

/-! ### The state that base image and entries give (R147, R471, R484) -/

/-- A slot as it resumes: shadowed state from the journal, what belongs to its position as it stands. A slot that was
Frozen, or that was to freeze at its reply, is Frozen (log 23). -/
def resumedSlot (live f : Slot) : Slot :=
  if live.st = .starting then { live with pend := none }
  else
    let f := { f with
      urgents := live.urgents, held := live.held, lsneed := live.lsneed, urgFromEmpty := live.urgFromEmpty, lastIssue := none
      victims := live.victims, resting := live.resting, block := none, latchSeen := 0, pend := none, sinceEntry := 0
      doomed := live.doomed && decide (live.taskId = f.taskId), stepping := live.stepping, stopNext := 0, wbDue := 0, wbRegs := [] }
    match f.st with
    | .empty => f
    | .parked => f
    | _ =>
      if live.st = .frozen || decide (live.stopNext ≠ 0) then
        { f with st := .frozen, park := .none, cause := if live.st = .frozen then live.cause else live.stopNext, was := live.was, wdrn := live.wdrn, skid := live.skid, dpc := f.pc.setWidth 48 }
      else { f with st := .active, park := .none }

/-- A context as it resumes: the lists of the task area as they stand, the sequencer buffer to be refilled (R340). -/
def resumedCtx (live f : Ctx) : Ctx :=
  dropWords { live with
              slots := (upTo 16).map fun n => (n, resumedSlot (ctxSlot live n) (ctxSlot f n))
              ls := f.ls, lsEmpty := f.lsEmpty, lsPoison := f.lsPoison, c := f.c, cDue := [], q := f.q, qDue := [] }

/-- The frames that SPAWN pushed in entries that are discarded: eight words of KIND 6 of a slot (R345). -/
def pushedFrames : List (BitVec 256) → List V512
  | [] => []
  | e :: r =>
    let ws := ((e :: r).take 8).map fun x => x.extractLsb' 64 64
    let one := decide (bits e 195 192 = 6) && !tbit e 187 && inTaskArea (8 * bits e 179 160) 8 && decide (bits e 179 160 % 8 = 0)
    if one then ofLanes 64 ws :: pushedFrames r else pushedFrames r

/-- A core as base image and the first `k` entries of its ring give it; entries after them are discarded. A key that a reset notice has
cleared stays cleared (R148). -/
def rebuilt (c : PCore) (k : Nat) : PCore :=
  let gone := pushedFrames (c.ring.drop k)
  let d := foldRing { c with ring := c.ring.take k } k
  let x := resumedCtx c.res d.baseRes
  let x := { x with deque := gone.foldl (fun l f => (l.reverse.erase f).reverse) x.deque }
  { d with res := x, shadow := [], authors := [], pass := [], ringPos := c.ringPos - (c.ring.length - k)
           wide := { c.wide with acc := d.baseWide.acc, accPoison := d.baseWide.accPoison, accept := d.baseWide.accept.filter (fun e => (mget c.wide.accept e.1).isSome), rsn := d.baseWide.rsn } }

/-! ### Core reset (R53, R57, R62, R142, R148, R428, R476) -/

/-- The protection region sets of the jobs that have slots in a core's background context (R90, R162). -/
def backgroundRegions (s : State) (p : Nat) : List RegionSet :=
  (s.jobs.filter fun j => !isRt j && decide (j.id ≠ 0) && (partCores s j.record).contains p).map fun j => { job := j.id, pregs := j.pregs }

/-- The notices of R148: each logical core mapped to a core, to every interface, memory node and register node. -/
def resetNotices (s : State) (p : Nat) : List Msg :=
  let lcs := (upTo 192).filter fun n => lpctV s n && decide (physOf s n = p)
  let dsts := upTo 192 ++ (upTo 32).map (fun n => 0x100 + n) ++ (upTo 6).map fun n => 0x200 + n
  lcs.flatMap fun lc => dsts.map fun d => .resetNotice d lc

/-- A CORE RESET: the slots are Empty, registers, queues and local store 0 and full, tiles Empty, journal and base images
cleared. Waits of other agents that the core holds are withdrawn; what it launched stays at its interface (log 24). -/
def coreReset (s : State) (p : Nat) : State :=
  let c := getCore s p
  let s := { s with cores := s.cores.map fun (q, c) => (q, { c with
    waits := c.waits.filter (fun r => match r.src with | .slot a _ => decide (a ≠ p) | _ => true) }) }
  let s := (getCore s p).waits.foldl (fun s r => withdrawOne s (p, r)) s
  let s := (getCore s p).lockHeld.foldl (fun s r => answerAll s r .withdrawn) s
  let s := recordGone s p (ctxGone c.res ++ (match c.sav with | some x => ctxGone x | none => []))
  let s := setCore s p { PCore.init p with
    lcore := c.lcore, launches := c.launches, nextSeq := c.nextSeq, temp := c.temp, cc := c.cc, halted := c.halted, vacated := c.vacated
    set := c.set, beatFrom := c.beatFrom, res := { regions := backgroundRegions s p } }
  let s := updCluster s (clusterOf p) fun cl => if cl.grant.map (fun g => g.1) = some p then { cl with grant := none } else cl
  let partner := if s.pair.link then [Sent.flit [6, BitVec.ofNat 8 c.lcore]] else []
  { s with net := s.net ++ resetNotices s p, sent := s.sent ++ partner }

end Sys2Proof.Machine
end

