-- ==== Sys2Proof/Machine/Errors.lean ====
section
/-! DEFINITION. The chip error arbiter and its ring, the fault collector, heartbeats, corrected and uncorrectable words, and
the registers that a read clears (R38, R105, R109 to R111, R132, R150, R213, R229, R358, R416 to R426, R449, R450, R454 to
R456, R476, R479). -/

namespace Sys2Proof.Machine

/-! ### The error ring (R416 to R419, R425) -/

/-- Fields of a record. -/
def recSrc (r : BitVec 256) : Nat := bits r 51 40
def recClassOf (r : BitVec 256) : Nat := bits r 24 21
def recSev (r : BitVec 256) : Nat := bits r 20 19

/-- The cluster in which a detecting unit lies, if it lies in one (R417). -/
def srcCluster (x : Nat) : Option Nat :=
  if x < 0xC0 then some (x / 8)
  else if 0x210 ≤ x ∧ x ≤ 0x227 then some (x - 0x210)
  else if 0x230 ≤ x ∧ x ≤ 0x247 then some (x - 0x230)
  else if 0x290 ≤ x ∧ x ≤ 0x2A7 then some (x - 0x290)
  else if 0x400 ≤ x ∧ x < 0x4C0 then some ((x - 0x400) / 32 * 4 + (x - 0x400) % 16 / 4)
  else none

/-- The supervisor core that hears of a record. -/
def recSup (x : Nat) : Nat := match srcCluster x with | some c => if c < 12 then 0 else 1 | none => 0

/-- Records not yet consumed (R419): the host counts while its link is up. -/
def ringBehind (s : State) : Nat :=
  (s.ewp - (if s.pcieUp && decide (s.ehost.toNat < s.emgt.toNat) then s.ehost else s.emgt)).toNat

/-- A record with its SEQ and its check. -/
def sealRecord (seq : BitVec 32) (r : BitVec 256) : BitVec 256 :=
  let b := setBits (setBits r 127 96 seq.toNat) 15 0 0
  setBits b 15 0 (crc16 240 (bits b 255 16)).toNat

/-- THE ARBITER WRITES A RECORD and only then tells of it. -/
def writeRecord (s : State) (r : BitVec 256) : State :=
  let full := decide (131072 ≤ ringBehind s)
  let src := recSrc r
  { s with
    errRing := (sealRecord s.ewp r :: s.errRing).take 131072
    ewp := s.ewp + 1
    elost := if full && decide (s.elost ≠ BitVec.allOnes 32) then s.elost + 1 else s.elost
    transients := if recSev r = 1 && tbit r 18 then mset s.transients src ((mget s.transients src).getD 0 + 1) else s.transients
    sent := s.sent ++ [.msix (32 + recClassOf r), .note (recSup src) s.ewp.toNat, .note 2 s.ewp.toNat] }

/-- Plumb time of a record. -/
def recTime (r : BitVec 256) : Nat := bits r 255 192

/-- The record that the arbiter takes from its ports: of those detected at the time of the oldest, the one of the lowest SRC (R429). -/
def nextRecord (r : BitVec 256) (q : List (BitVec 256)) : BitVec 256 :=
  q.foldl (fun b x => if recTime x = recTime r ∧ recSrc x < recSrc b then x else b) r

/-- ERROR_RECORD (R418, R429): the next record on its way. -/
def execErrorRecord (s : State) : Host.Outcome State Fault Refusal :=
  .next (match s.errQueue with
    | [] => s
    | r :: rest =>
      let x := nextRecord r rest
      writeRecord { s with errQueue := (r :: rest).erase x } x)

/-- Every record on its way is written, `n` of them. -/
def flushRecords : Nat → State → State
  | 0, s => s
  | n + 1, s => match s.errQueue with
    | [] => s
    | r :: rest =>
      let x := nextRecord r rest
      flushRecords n (writeRecord { s with errQueue := (r :: rest).erase x } x)

/-- Step 7 of this start failed or was skipped: the link stays down (R427). -/
def pcieAway (s : State) : Bool :=
  s.bootJournal.any fun e => decide (bits e 127 96 = s.starts.toNat) && decide (bits e 95 88 = 7) && (decide (bits e 87 80 = 1) || decide (bits e 87 80 = 2))

/-- PCIE_LINK_TRAINED (R419). -/
def execPcieLinkTrained (s : State) : Host.Outcome State Fault Refusal := .next (if pcieAway s then s else { s with pcieUp := true })
/-- PCIE_LINK_DOWN (R419). -/
def execPcieLinkDown (s : State) : Host.Outcome State Fault Refusal := .next { s with pcieUp := false }

/-! ### The fault collector (R110, R111, R449, R450) -/

/-- A new record of a notice. -/
def newFault (time node job va kinds : Nat) : BitVec 256 :=
  BitVec.ofNat 256 (2 ^ (va / 2 ^ 16 % 64) * 2 ^ 192 + va / 2 ^ 22 % 2 ^ 26 * 2 ^ 166 + job % 128 * 2 ^ 159 + kinds % 256 * 2 ^ 144
    + 1 * 2 ^ 128 + time % 2 ^ 64 * 2 ^ 64 + node % 256 * 2 ^ 48 + va % 2 ^ 48)

/-- A notice merged into an open record. -/
def mergeFault (b : BitVec 256) (va kinds : Nat) : BitVec 256 :=
  let b := setBits b 255 192 (bits b 255 192 ||| 2 ^ (va / 2 ^ 16 % 64))
  let b := setBits b 151 144 (bits b 151 144 ||| kinds % 256)
  setBits b 143 128 (min 0xFFFF (bits b 143 128 + 1))

/-- A record is that of a block. -/
def ofBlock (r : FaultRec) (job block : Nat) : Bool := decide (bits r.bits 165 159 = job) && decide (bits r.bits 191 166 = block)

/-- A notice at the collector: merged, recorded, or refused. -/
def takeNotice (s : State) (node job va kinds p sl : Nat) : State :=
  let block := va / 2 ^ 22 % 2 ^ 26
  if s.faultRecs.any fun r => ofBlock r job block then
    { s with faultRecs := s.faultRecs.map fun r => if ofBlock r job block then { r with bits := mergeFault r.bits va kinds } else r }
  else match (upTo 1024).find? fun i => !s.faultRecs.any fun r => decide (r.index = i) with
    | some i => { s with faultRecs := s.faultRecs ++ [{ index := i, bits := newFault s.plumb node job va kinds }]
                         sent := s.sent ++ [.note 0 (2 ^ 32 + i), .note 1 (2 ^ 32 + i)] }
    | none =>
      let s := { s with refusedNotices := s.refusedNotices ++ [.notice node job va kinds p sl] }
      if s.collectorFull then s
      else record { s with collectorFull := true } 2 0x01 1 0x200 job (senderKey s p sl).toNat (BitVec.ofNat 64 va) s.faultRecs.length

/-- FAULT_NOTICE (R110): message `n`. -/
def execFaultNotice (s : State) : Host.Outcome State Fault Refusal :=
  .next (match s.net[s.input.n]? with
    | some (.notice node job va kinds p sl) => takeNotice { s with net := ldrop s.net s.input.n } node job va kinds p sl
    | _ => s)

/-- FAULT_NOTICE_RETRY (R449): refused notice `n` is sent again. -/
def execFaultNoticeRetry (s : State) : Host.Outcome State Fault Refusal :=
  .next (match s.refusedNotices[s.input.n]? with
    | some m => { s with net := s.net ++ [m], refusedNotices := ldrop s.refusedNotices s.input.n }
    | none => s)

/-- A slot parked on a block becomes Active. -/
def wakeBlock (job block : Nat) (sl : Slot) : Slot :=
  if sl.st = .parked ∧ sl.park = .translation ∧ sl.block = some (job, block) then { wakeSlot sl with block := none } else sl

/-- The wake of a block: its record closes and the slots parked on it reissue; with no open record it is ignored. -/
def faultWake (s : State) (v : Word) : State :=
  let job := bits v 38 32
  let block := bits v 25 0
  if !s.faultRecs.any fun r => ofBlock r job block then s
  else
    let ctx := fun (x : Ctx) => { x with slots := x.slots.map fun (n, sl) => (n, wakeBlock job block sl) }
    { s with faultRecs := s.faultRecs.filter (fun r => !ofBlock r job block), collectorFull := false
             cores := s.cores.map fun (p, c) => (p, { c with res := ctx c.res, sav := c.sav.map ctx }) }

/-- FAULT_WAKE (R450): a write of `v`. -/
def execFaultWake (s : State) : Host.Outcome State Fault Refusal := .next (faultWake s s.input.v)

/-! ### Heartbeats (R426, R476) -/

/-- A store to the heartbeat word of core `p`. -/
def beat (s : State) (p : Nat) : State := updCore s p fun c => { c with beaten := true }

/-- HEARTBEAT_WRITE (R426): core `n`. -/
def execHeartbeatWrite (s : State) : Host.Outcome State Fault Refusal := .next (beat s (s.input.n % 192))

/-- The count of misses of a core pauses (R410, R426, R482). -/
def missPaused (s : State) (p : Nat) : Bool :=
  let c := getCore s p
  c.res.rtJob.isSome || coreStopped c || (getCluster s (clusterOf p)).busy || coreMigrates s p || c.thermFrozen || c.captured

/-- A cluster whose AUTO bit is set fences itself. -/
def autoFence (s : State) (cl : Nat) : State :=
  if tbit (getCluster s cl).crect 16 then
    { s with agenda := s.agenda ++ [.event .containFence { v := BitVec.ofNat 64 (2 ^ 63 + cl * 2 ^ 58) }] }
  else s

/-- The fault packets of a core-scope fault: the PC of each slot (R420, R421). -/
def corePackets (s : State) (p code : Nat) : List Sent :=
  (upTo 16).map fun n =>
    let sl := getSlot s p n
    .packet (supervisorOf p) (mkPacket s.plumb 0 sl.pc 0 code 0 p (logicalOf s p) n sl.jobId.toNat)

/-- The capture of a core after two misses in a row. -/
def captureCore (s : State) (p : Nat) : State :=
  let s := { s with sent := s.sent ++ corePackets s p 0x22 }
  let s := updCore (stopCore s p 5) p fun c => { c with captured := true, capturedAt := s.plumb, dcmdSeen := false, misses := 0 }
  record (drainAll s p) 1 0x22 2 0x320 0 0xFFF 0 p

/-- HEARTBEAT_PERIOD_END (R426): the period of core `n`. -/
def execHeartbeatPeriodEnd (s : State) : Host.Outcome State Fault Refusal :=
  .next (
    let p := s.input.n
    let c := getCore s p
    if s.hbper = 0 ∨ s.plumb < c.beatFrom + 1000 * s.hbper.toNat then s
    else
      let n := if c.beaten then 0 else if missPaused s p then c.misses else c.misses + 1
      let s := updCore s p fun c => { c with beaten := false, beatFrom := s.plumb, misses := n }
      if 2 ≤ n then captureCore s p else s)

/-- CAPTURE_TIMEOUT (R476): captured core `n` has had no DCMD for CAPTO ms. -/
def execCaptureTimeout (s : State) : Host.Outcome State Fault Refusal :=
  .next (
    let c := getCore s s.input.n
    if !c.captured || c.dcmdSeen || decide (s.capto = 0) || decide (s.plumb < c.capturedAt + 1000000 * s.capto.toNat) then s
    else autoFence (updCore s s.input.n fun c => { c with dcmdSeen := true }) (clusterOf s.input.n))

/-! ### Code words (R424, R454 to R456) -/

/-- One SEV 0 record for the corrections of a source in the millisecond that ends, if there were any. -/
def countRecord (s : State) (code x k : Nat) : State := if k = 0 then s else record s 2 code 0 x 0 0xFFF 0 k

/-- ECC_COUNT_REPORT (R455): source `n` (codes of R417) at the end of a millisecond. -/
def execEccCountReport (s : State) : Host.Outcome State Fault Refusal :=
  .next (
    let x := s.input.n
    if x < 0xC0 then
      let k := (getCore s x).corrected
      if k = 0 then s else countRecord (updCore s x fun c => { c with corrected := 0 }) 0x03 x k
    else if 0x100 ≤ x ∧ x < 0x120 then
      let m := getNode s (x - 0x100)
      if m.corrected = 0 ∧ m.sramCorrected = 0 then s
      else
        let s := updNode s (x - 0x100) fun m => { m with corrected := 0, sramCorrected := 0 }
        countRecord (countRecord s 0x05 x m.corrected) 0x03 x m.sramCorrected
    else if x = 0x260 then countRecord { s with imageCorrected := 0 } 0x03 x s.imageCorrected
    else s)

/-- A core-scope fault of a core (R421, R424): its slots freeze, fault packets and a CLASS 1 record leave; the read was tried again
(R425). -/
def coreFaultAt (s : State) (p code : Nat) : State :=
  let s := { s with sent := s.sent ++ corePackets s p code }
  autoFence (record (coreScope s p) 1 code 2 p 0 0xFFF 0 0 true) (clusterOf p)

/-- The job for which a word is read: that of the access which finds the error, and job 0 for the scrub (R240, R457). -/
def readJob (s : State) : Nat := if s.input.flag then bits s.input.v 22 16 else 0

/-- AN UNCORRECTABLE WORD OR BANK IS READ AGAIN (R425): a success is a transient error, SEV 1; else it is lasting. -/
def readAgain (s : State) (cls code src : Nat) (addr : Word) (again : Bool) (lasting : State → State) : State :=
  if again then record s cls code 1 src (if cls = 2 then readJob s else 0) 0xFFF addr 0 true else lasting s

/-- A word of an SRAM is poison from now on, with its record (R455, R456). -/
def sramPoison (src : Nat) (addr : Word) (f : State → State) (s : State) : State := record (f s) 2 0x04 2 src (readJob s) 0xFFF addr 0 true

/-- Eight bytes of poison pattern: data 0. -/
def blankWord : List Byte := List.replicate 8 0

/-- A word of a buffer of core `p`, by local address, takes the poison pattern. -/
def poisonWord (p a : Nat) (s : State) : State :=
  let w := a % 0x100000 / 8
  updCore s p fun c => match a / 0x100000 with
    | 0 => { c with res := { c.res with ls := memStore c.res.ls (8 * w) blankWord, lsPoison := nadd c.res.lsPoison w } }
    | 1 => { c with wb := memStore c.wb (8 * w) blankWord, wbPoison := nadd c.wbPoison w }
    | 2 => { c with ab := memStore c.ab (8 * w) blankWord, abPoison := nadd c.abPoison w }
    | _ => { c with wide := { c.wide with
        acc := memStore c.wide.acc (8 * w) blankWord, accPoison := nadd c.wide.accPoison w } }

/-- An entry of a queue of core `p` takes the poison pattern. -/
def poisonEntry (p q i : Nat) (s : State) : State :=
  updCtx s p fun x => { x with q := mset x.q q (((mget x.q q).getD []).modify i fun e => { e with val := 0, psn := true }) }

/-- THE SCRUB OF A WORD OF CORE `p` whose first read has `e` bits in error and whose second has `r`: local address `a`, 2^24 for a
register file, above that entry `a` mod 16 of a queue. One bit is corrected in line. -/
def scrubWord (s : State) (p a e r : Nat) : State :=
  let entry := a - 2 ^ 24 - 1
  let known := decide (2 ^ 24 ≤ a) && decide (a ≤ 2 ^ 24 + 128) || (bufferOf a).isSome
  let task := match bufferOf a with | some (0, o) => decide (a < 2 ^ 24) && inTaskArea o 1 | _ => false
  let addr := BitVec.ofNat 64 (0xFF * 2 ^ 56 + a / 8 * 8)
  let again := decide (r ≤ 1)
  if e = 0 ∨ !known then s
  else if e = 1 then updCore s p fun c => { c with corrected := c.corrected + 1 }
  else if a = 2 ^ 24 then readAgain s 1 0x20 p 0 again fun s => coreFaultAt s p 0x20
  else if task then readAgain s 1 0x21 p 0 again fun s => coreFaultAt s p 0x21
  else if 2 ^ 24 < a then
    if (((mget (getCore s p).res.q (entry / 16)).getD []).length ≤ entry % 16) then s
    else readAgain s 2 0x04 p 0 again (sramPoison p 0 (poisonEntry p (entry / 16) (entry % 16)))
  else readAgain s 2 0x04 p addr again (sramPoison p addr (poisonWord p a))

/-- The scrub of a word of the slice line that holds a PA; the unit of poison in a slice is the sector (R456). -/
def scrubSlice (s : State) (n pa e r : Nat) : State :=
  let src := 0x100 + n
  let i := pa % 128 / 32
  let addr := BitVec.ofNat 64 (pa / 32 * 32)
  if e = 0 ∨ (lineAt s pa).isNone then s
  else if e = 1 then updNode s n fun m => { m with sramCorrected := m.sramCorrected + 1 }
  else readAgain s 2 0x04 src addr (decide (r ≤ 1)) (sramPoison src addr fun s =>
    updSet s pa fun ls => ls.map fun l => if l.line = redirect s pa / 128 then
      { l with data := l.data.take (32 * i) ++ List.replicate 32 0 ++ l.data.drop (32 * i + 32)
               poison := nadd l.poison i, dirty := true } else l)

/-- The scrub of a word of the process image. -/
def scrubImage (s : State) (o e r : Nat) : State :=
  let addr := imageAddr (o / 8 * 8)
  if e = 0 ∨ 0x800000 ≤ o then s
  else if e = 1 then { s with imageCorrected := s.imageCorrected + 1 }
  else readAgain s 2 0x04 0x260 addr (decide (r ≤ 1)) (sramPoison 0x260 addr fun s =>
    { s with image := memStore s.image (o / 8 * 8) blankWord, imagePoison := nadd s.imagePoison (o / 8) })

/-- A burst as it is read: what the devices hold with the errors of the read, each a symbol and what is added to it. -/
def readBurst (l : List Nat) (errs : List (Nat × Nat)) : List Nat :=
  errs.foldl (fun l e => l.modify e.1 fun d => d ^^^ e.2 % 256) l

/-- A sector of main memory holds these bytes, poison or not, without a write of its own. -/
def sectorHolds (s : State) (u : Nat) (l : List Nat) (psn : Bool) : State :=
  { s with mem := memStore s.mem (32 * u) (l.map (BitVec.ofNat 8)), memPoison := nflag s.memPoison u psn }

/-- THE SECTOR OF MAIN MEMORY AT `pa` IS READ WITH ERRORS (R454, R455), by the scrub or by another access (`own` false): what the
decoder corrects is written back and counted, what it cannot correct is read again and becomes poison, an arriving write for a
migration (R463). A burst that is a code word, or the poison code word, is taken for what it says. -/
def scrubSector (s : State) (pa : Nat) (own : Bool) (errs again : List (Nat × Nat)) : State :=
  let u := redirect s pa / 32
  let n := homeNode pa
  let held := if s.memPoison.contains u then poisonBurst else burstOf (memBytes s.mem (32 * u) 32)
  let paid := fun (s : State) => if own then charge s 0 (3870000 / 4) else s
  let back := fun (s : State) (l : List Nat) (psn : Bool) => devWrite (paid s) (pa / 32 * 32) (l.map (BitVec.ofNat 8)) psn
  let blank := List.replicate 32 0
  let note := fun (s : State) (sev : Nat) => record s 2 0x06 sev (0x100 + n) (readJob s) 0xFFF (BitVec.ofNat 64 (pa / 32 * 32)) 0 true
  let s := paid s
  if errs = [] then s
  else match decodeBurst s.memEcc (readBurst held errs) with
    | .poison => sectorHolds s u blank true
    | .word l k => if k = 0 then sectorHolds s u l false
      else back (updNode s n fun m => { m with corrected := m.corrected + 1 }) l false
    | .uncorrectable => match decodeBurst s.memEcc (readBurst held again) with
      | .poison => note (paid s) 1
      | .word l _ => note (back (paid s) l false) 1
      | .uncorrectable => note (back (paid s) blank true) 2

/-- An entry of a TLB that fails its parity check is dropped and the walk is repeated (R449). -/
def tlbParity (s : State) (src : Nat) : State := record s 2 0x03 0 src 0 0xFFF 0 1

/-- The TLB of core `p`'s interface loses entry `i`. -/
def dropCoreTlb (s : State) (p i : Nat) : State :=
  let l := (mget s.coreTlb p).getD []
  if i < l.length then tlbParity { s with coreTlb := mset s.coreTlb p (ldrop l i) } p else s

/-- The TLB of memory node `n` loses entry `i`. -/
def dropNodeTlb (s : State) (n i : Nat) : State :=
  if i < (getNode s n).tlb.length then tlbParity (updNode s n fun m => { m with tlb := ldrop m.tlb i }) (0x100 + n) else s

/-- PATROL_SCRUB (R449, R454, R455): source `n` (codes of R417) finds an error, in the scrub or, with `flag`, in another read of the
word. `k` is a local address of a core, 2^24 its register file, from 2^24 + 1 on its queues, from 2^25 on its TLB; a PA of a node, 2^40 + a
PA in its slice, from 2^41 on its TLB; an offset in the process image. `v` holds the wrong bits of the first read and 2^8 × those
of the second, and in bits 22:16 the job that reads where it is no scrub (log 87); for main memory `pairs` holds the wrong symbols, those of the second read from 36 on. -/
def execPatrolScrub (s : State) : Host.Outcome State Fault Refusal :=
  .next (
    let a := s.input
    let e := bits a.v 7 0
    let r := bits a.v 15 8
    if a.n < 0xC0 then (if 2 ^ 25 ≤ a.k then dropCoreTlb s a.n (a.k - 2 ^ 25) else scrubWord s a.n a.k e r)
    else if 0x100 ≤ a.n ∧ a.n < 0x120 then
      let n := a.n - 0x100
      if 2 ^ 41 ≤ a.k then dropNodeTlb s n (a.k - 2 ^ 41)
      else if homeNode (a.k % 2 ^ 40) ≠ n then s
      else if 2 ^ 40 ≤ a.k then scrubSlice s n (a.k - 2 ^ 40) e r
      else scrubSector s a.k (!a.flag) (a.pairs.filter fun x => decide (x.1 < 36))
        ((a.pairs.filter fun x => decide (36 ≤ x.1)).map fun x => (x.1 - 36, x.2))
    else if a.n = 0x260 then scrubImage s a.k e r
    else s)

/-! ### Reads that clear (R5) -/

/-- A register read returns a doubleword to the agent that reads it. -/
def answerRead (s : State) (nf o : Nat) : State := { s with sent := s.sent ++ [.value (regWord s nf o)] }

/-- OVFL_READ (R38): job `n`. -/
def execOvflRead (s : State) : Host.Outcome State Fault Refusal :=
  .next (clearOvfl (answerRead s 0xE0 (0x2800 + 8 * (s.input.n % 128))) (s.input.n % 128))
/-- OVCNT_READ (R150): job `n`. -/
def execOvcntRead (s : State) : Host.Outcome State Fault Refusal :=
  .next (clearOvcnt (answerRead s 0xE0 (0x100008 + 32 * (s.input.n % 128))) (s.input.n % 128))
/-- DINJ_READ (R229): cluster `n`. -/
def execDinjRead (s : State) : Host.Outcome State Fault Refusal :=
  .next (clearDinj (answerRead s 0xE0 (0x1400 + 8 * (s.input.n % 24))) (s.input.n % 24))
/-- STRCNT_READ (R479): cluster `n`. -/
def execStrcntRead (s : State) : Host.Outcome State Fault Refusal :=
  .next (clearStrcnt (answerRead s 0xE0 (0x1600 + 8 * (s.input.n % 24))) (s.input.n % 24))
/-- ELOST_READ (R418). -/
def execElostRead (s : State) : Host.Outcome State Fault Refusal := .next { answerRead s 0xE0 0x3018 with elost := 0 }
/-- GATE_COUNTER_READ (R213): counter `k` of gate `n`, a 32-bit read. -/
def execGateCounterRead (s : State) : Host.Outcome State Fault Refusal :=
  .next (
    let g := s.input.n % 64
    let i := s.input.k % 6
    let v := (gateCounters (getGate s g) (i / 2)).toNat / 2 ^ (32 * (i % 2)) % 2 ^ 32
    clearCounter { s with sent := s.sent ++ [.value (BitVec.ofNat 64 v)] } g i)

/-! ### Time, reuse windows, device writes -/

/-- WAITT_TIME_REACHED (R358): the Plumb has reached the time for which slot `k` of core `n` is parked. -/
def execWaittTimeReached (s : State) : Host.Outcome State Fault Refusal :=
  .next (match (getSlot s s.input.n s.input.k).park with
    | .time t => if t.toNat ≤ s.plumb then updSlot s s.input.n s.input.k wakeSlot else s
    | _ => s)

/-- REUSE_WINDOW_END (R105): a window of slice `n` completes. -/
def execReuseWindowEnd (s : State) : Host.Outcome State Fault Refusal :=
  .next (updNode s s.input.n fun m => { m with tracked := m.tracked.map fun t => { t with delta := t.clock - t.atWindow, atWindow := t.clock } })

/-- The line of slice `n` with line number `k`, written to the devices. -/
def cleanLine (s : State) (n k : Nat) : State :=
  let pa := 128 * k
  match lineAt s pa with
  | some l => if homeNode pa = n ∧ l.dirty then updSet (writeBack s l l.job) pa fun ls =>
      ls.map fun x => if x.line = k then { x with dirty := false, by_ := [] } else x else s
  | none => s

/-- DEVICE_WRITTEN (R132): line `k` of slice `n`; a PFENCE that awaits it looks again. -/
def execDeviceWritten (s : State) : Host.Outcome State Fault Refusal :=
  .next (wakeAll (cleanLine s s.input.n s.input.k) fun w => decide (w = .performed))

end Sys2Proof.Machine
end

