-- ==== Sys2Proof/Machine/Retire.lean ====
section
/-! DEFINITION. Retirement of memory blocks (R459, R460, R463). -/

namespace Sys2Proof.Machine

/-- Physical address of line `k` of block `b` at memory node `n`. -/
def blockLine (n b k : Nat) : Nat := b * 2 ^ 21 + k / 32 % 16 * 2 ^ 17 + n * 2 ^ 12 + k % 32 * 128

/-- Copy one line between blocks of a node, poison with it: two transfers that no job asked for, charged to job 0 (R240;
log 73). -/
def copyLine (s : State) (n src dst k : Nat) : State :=
  let a := blockLine n src k
  let b := blockLine n dst k
  let s := charge s 0 7740000
  { s with mem := memStore s.mem b (memBytes s.mem a 128)
           memPoison := (upTo 4).foldl (fun m i => nflag m (b / 32 + i) (s.memPoison.contains (a / 32 + i))) s.memPoison }

/-- The lines of a block leave the slice, dirty ones written back (step 1). -/
def flushBlock (s : State) (n b : Nat) : State :=
  let of := fun (l : Line) => decide (blockOf (l.line * 128) = b)
  let s := ((getNode s n).sets.flatMap fun e => e.2.filter of).foldl (fun s l => writeBack s l l.job) s
  updNode s n fun m => { m with sets := m.sets.map fun (k, ls) => (k, ls.filter fun l => !of l) }

/-- A retire command is refused. -/
def retireRefused (m : MNode) (src dst : Nat) : Bool :=
  decide (16 ≤ m.retired.length) || m.migration.isSome || decide (src = dst)
    || m.retired.any fun e => [e.1, e.2].contains src || [e.1, e.2].contains dst

/-- OP 1: a migration starts; the destination has no line of its own in the slice either. -/
def startRetire (s : State) (n src dst : Nat) : State :=
  if retireRefused (getNode s n) src dst then updNode s n fun m => { m with retErr := true }
  else updNode (flushBlock (flushBlock s n src) n dst) n fun m => { m with migration := some { src := src, dst := dst }, restarts := 0 }

/-- OP 2: the entry whose SRC matches is freed. -/
def releaseRetired (s : State) (n src : Nat) : State :=
  updNode s n fun m => { m with retired := m.retired.filter fun e => e.1 ≠ src }

/-- A write of RETCMD. -/
def retireCommand (s : State) (v : Word) : State :=
  match bits v 63 62 with
  | 1 => startRetire s (bits v 60 56) (bits v 53 36) (bits v 35 18)
  | 2 => releaseRetired s (bits v 60 56) (bits v 53 36)
  | _ => s

/-- RETIRE_BLOCK (R459): memory node `n`, the command `v`. -/
def execRetireBlock (s : State) : Host.Outcome State Fault Refusal :=
  .next (startRetire s (s.input.n % 32) (bits s.input.v 53 36) (bits s.input.v 35 18))

/-- RETIRE_RELEASE (R459): memory node `n`, the command `v`. -/
def execRetireRelease (s : State) : Host.Outcome State Fault Refusal :=
  .next (releaseRetired s (s.input.n % 32) (bits s.input.v 53 36))

/-- A sector of a source line cannot be corrected, read again or not: it becomes poison, with its record (R425, R456). -/
def spoilSource (s : State) (n src k i : Nat) : State :=
  let a := blockLine n src k + 32 * (i % 4)
  if s.memPoison.contains (a / 32) then s
  else record { s with mem := memStore s.mem a (List.replicate 32 0), memPoison := nadd s.memPoison (a / 32) }
    2 0x06 2 (0x100 + n) 0 0xFFF (BitVec.ofNat 64 a) 0 true

/-- The lines from the copy pointer up to line `k` are copied in order; `bad` names sectors, by line and place, that the copy finds
uncorrectable. -/
def copyTo (s : State) (n k : Nat) (bad : List (Nat × Nat)) : State :=
  match (getNode s n).migration with
  | none => s
  | some m =>
    let s := ((upTo k).filter fun i => decide (m.copied ≤ i)).foldl (fun s i =>
      copyLine ((bad.filter fun e => decide (e.1 = i)).foldl (fun s e => spoilSource s n m.src i e.2) s) n m.src m.dst i) s
    updNode s n fun x => { x with migration := some { m with copied := max m.copied k } }

/-- The copy has come to its end: the node holds what arrives for the block from now on. -/
def beginSwitch (s : State) (n : Nat) : State :=
  updNode s n fun x => { x with migration := x.migration.map fun m => { m with switching := true } }

/-- The end of a migration (step 4): the dirty lines again, then the map entry; held arrivals go on. -/
def switchBlock (s : State) (n : Nat) : State :=
  match (getNode s n).migration with
  | none => s
  | some m =>
    let s := m.dirty.foldl (fun s i => copyLine s n m.src m.dst i) (flushBlock s n m.dst)
    let s := updNode s n fun x => { x with migration := none, retired := x.retired ++ [(m.src, m.dst)] }
    record s 2 0x07 0 (0x100 + n) 0 0xFFF 0 (getNode s n).restarts.toNat

/-- A migration switches over now. -/
def switchingNow (m : MNode) : Bool := match m.migration with | some x => x.switching | none => false

/-- RETIRE_COPY_DONE (R460): the copy of memory node `n` has reached line `k`, `pairs` being the sectors that it found uncorrectable; at
512 arrivals are held, and the next such event ends the migration. -/
def execRetireCopyDone (s : State) : Host.Outcome State Fault Refusal :=
  .next (
    let n := s.input.n
    if switchingNow (getNode s n) then switchBlock s n
    else
      let s' := copyTo s n (min 512 s.input.k) s.input.pairs
      if 512 ≤ s.input.k then beginSwitch s' n else s')

/-- Containment fences a memory node: its migration is abandoned (R463). -/
def abandonRetire (s : State) (n : Nat) : State :=
  if (getNode s n).migration.isSome then updNode s n fun m => { m with migration := none, retErr := true } else s

end Sys2Proof.Machine
end

