-- ==== Sys2Proof/Machine/Contain.lean ====
section
/-! DEFINITION. Containment rectangles (R475 to R477) and the levels that have work on a core (R476, R485). -/

namespace Sys2Proof.Machine

/-! ### Work on a core -/

/-- Frames that a context holds: lists of the task area, starting slots, held continuations. -/
def ctxFrames (x : Ctx) : List V512 :=
  x.deque ++ x.runList ++ x.runWait ++ (x.pending.map fun f => f.frame)
    ++ x.slots.flatMap fun e => e.2.held ++ (match e.2.starting with | some f => [f] | none => [])

/-- Launches of the tasks and frames of a context. -/
def ctxLaunches (x : Ctx) : List Nat :=
  (x.slots.filterMap fun e => slotLaunch e.2) ++ (ctxFrames x).map frLaunch

/-- Launches of the frames in the spill areas of core `p`, of both contexts. -/
def spilledLaunches (s : State) (p : Nat) : List Nat :=
  let c := getCore s p
  let of := fun (x : Ctx) => x.spilled.flatMap fun e =>
    let (first, n) := spillAt x e.1
    ((spillRead s c.lcore e.1 first n).1).map frLaunch
  of c.res ++ (match c.sav with | some x => of x | none => [])

/-- The launches that have a task, a frame or an engine job on core `p`. -/
def launchesOn (s : State) (p : Nat) : List Nat :=
  let c := getCore s p
  ctxLaunches c.res ++ (match c.sav with | some x => ctxLaunches x | none => []) ++ spilledLaunches s p
    ++ ((c.wide.mxq.filter fun j => j.card.isNone).map fun j => j.launch) ++ (c.hodq.filter fun t => t.card.isNone).map fun t => t.launch

/-- The graph instances that have an engine job on core `p`, or a task or frame of one of their cards' launches. -/
def graphsOn (s : State) (p : Nat) : List Nat :=
  let c := getCore s p
  (c.wide.mxq.filterMap fun j => j.card.map fun k => k.1) ++ (c.hodq.filterMap fun t => t.card.map fun k => k.1)
    ++ (launchesOn s p).filterMap fun l => (launchRec s l).bind fun r => r.card.map fun k => k.1

/-- Every launch and instance with work on core `p` is cancelled (R25). -/
def cancelOn (s : State) (p : Nat) : State :=
  let ls := launchesOn s p
  let gs := graphsOn s p
  ls.foldl cancelLaunch (gs.foldl cancelGraph s)

/-! ### CRECT (R475) -/

/-- The clusters of a rectangle. -/
def rectClusters (w : Word) : List Nat :=
  (upTo 24).filter fun c => decide (bits w 8 6 ≤ c / 4) && decide (c / 4 ≤ bits w 11 9) && decide (bits w 3 2 ≤ c % 4) && decide (c % 4 ≤ bits w 5 4)

/-- A write of CRECT of cluster `i`. -/
def writeCrect (s : State) (i : Nat) (v : Word) : State :=
  if bits v 63 17 ≠ 0 ∨ bits v 15 12 ≠ 0 ∨ bits v 1 0 ≠ 0 ∨ 5 < bits v 11 9 ∨ !(rectClusters v).contains i then s
  else updCluster s i fun c => { c with crect := v }

/-! ### Fencing (R476, R477) -/

/-- The point of a message outside the cores has taken it up: it has acknowledged it, or holds it for the Mortar (R115, R155). -/
def takenOutside (s : State) (ps : List Nat) (m : Msg) : Bool :=
  let outside := fun (lc : Nat) => !(decide (lc < 192) && ps.contains (physOf s lc))
  match m with
  | .req d r => r.tacked || (r.heldOp && outside d)
  | .frame lc _ _ _ => s.heldMsgs.contains m && outside lc
  | m => s.heldMsgs.contains m && (match msgPlace s m with | some (_, _, d) => outside d | none => false)

/-- Traffic that leaves a core or one of its hod's transfers is discarded; what its point outside has taken up is past the
boundary and proceeds (log 89). -/
def leavesCores (s : State) (ps : List Nat) (m : Msg) : Bool :=
  !takenOutside s ps m && match m with
  | .packet lc _ _ _ _ => ps.contains (physOf s lc)
  | .steal p _ _ _ => ps.contains p
  | .notice _ _ _ _ p _ => ps.contains p
  | .frame _ src _ _ => ps.contains (physOf s src)
  | m => match msgAgent m with | .slot p _ => ps.contains p | _ => false

/-- Requests that wait for a saved context of a fenced core are answered FENCED. -/
def refuseHeld (s : State) (ps : List Nat) : State :=
  let mine := fun (m : Msg) => match m with | .held p _ => ps.contains p | _ => false
  (s.net.filter mine).foldl (fun s m => match m with | .held _ r => nackAll s r 0x01 | _ => s)
    { s with net := s.net.filter fun m => !mine m }

/-- A checked pair whose lead is fenced is decoupled: EN and STATE are 0, and DISAG stays (R477; log 85). -/
def dropPair (s : State) (p : Nat) : State :=
  match mget s.pairChk (p / 2) with
  | some q => { s with pairChk := mset s.pairChk (p / 2) { q with en := false, state := 0, retry := [], marks := [], noted := [], replay := [], failed := none, undo := [] } }
  | none => s

/-- A CLUSTER RESET (R428): its registers return to their reset values (R7), which ends a ratio change; the fence stands,
with CRECT, and so do the rail's detector and the power. -/
def clusterReset (i : Nat) (c : Cluster) : Cluster :=
  { Cluster.init i with fenced := true, crect := c.crect, powered := c.powered, droop := c.droop }

/-- FENCING the rectangle of cluster `i`; clusters that are fenced already are not reset again. Traffic between cores outside
goes on, also where its route passes through the rectangle (log 89). -/
def fenceRect (s : State) (i : Nat) : State :=
  let w := (getCluster s i).crect
  let cls := (rectClusters w).filter fun c => !(getCluster s c).fenced
  let ps := cls.flatMap coresOf
  let s := cls.foldl (fun s c => updCluster s c (clusterReset c)) s
  let goes := fun (m : Msg) => !leavesCores s ps m
  let s := { s with net := s.net.filter goes, heldMsgs := s.heldMsgs.filter goes }
  let s := refuseHeld s ps
  let s := ps.foldl cancelOn s
  let s := ps.foldl (fun s p => updCore (coreReset (dropPair s p) p) p fun c => { c with halted := false, cc := 0 }) s
  let s := ((upTo 32).filter fun n => cls.contains (nodeCluster n)).foldl abandonRetire s
  let s := { s with migrations := s.migrations.filter fun m => !ps.contains m.1 && !ps.contains m.2 }
  record s 4 0x01 2 0x200 0 0xFFF 0 (w.toNat % 2 ^ 32)

/-- The rectangle of cluster `i` returns to service. -/
def returnRect (s : State) (i : Nat) : State :=
  let w := (getCluster s i).crect
  if (rectClusters w).any fun c => (getCluster s c).fenced then
    let s := (rectClusters w).foldl (fun s c => updCluster s c fun c => { c with fenced := false }) s
    record s 4 0x02 0 0x200 0 0xFFF 0 (w.toNat % 2 ^ 32)
  else s

/-- A write of CCMD. -/
def writeCcmd (s : State) (v : Word) : State :=
  let i := bits v 62 58
  if 24 ≤ i then s else if tbit v 63 then fenceRect s i else returnRect s i

/-- CONTAIN_FENCE (R476): a write of CCMD, or a trigger of the part's own: the cluster in bits 62:58 of `v`. -/
def execContainFence (s : State) : Host.Outcome State Fault Refusal := .next (fenceRect s (bits s.input.v 62 58 % 24))

/-- CONTAIN_RETURN (R476): a write of CCMD with bit 63 0. -/
def execContainReturn (s : State) : Host.Outcome State Fault Refusal := .next (returnRect s (bits s.input.v 62 58 % 24))

end Sys2Proof.Machine
end

