-- ==== Sys2Proof/Machine/Debug.lean ====
section
/-! DEFINITION. The debug window: watch, stop, step, resume, kill, LOCK, and writes to the state of slots and cores (R403 to
R410, R414, R422, R423, R428, R476). -/

namespace Sys2Proof.Machine

/-! ### Watch and stop (R403, R406, R408) -/

/-- A write of WATCH. -/
def writeWatch (s : State) (p : Nat) (v : Word) : State :=
  if bits v 57 56 = 3 ∨ bits v 39 14 ≠ 0 then s
  else updCore s p fun c => { c with watch := v, whit := if tbit v 63 then 0 else c.whit }

/-- WATCH_WRITE (R403): core `n`. -/
def execWatchWrite (s : State) : Host.Outcome State Fault Refusal := .next (writeWatch s (s.input.n % 192) s.input.v)

/-- A stop awaits the core at its rotation boundary: a gang switch that is due (R171), a ratio change of its cluster
(R231 step 2), or a disagreement of its checked pair (R471). -/
def stopsHere (s : State) (p : Nat) : Bool :=
  decide ((getCore s p).pass = []) && (stopAsked s p || (getCluster s (clusterOf p)).busy || pairBusy s p)

/-- Whether core `p` issues: it is not stopped, its cluster has power, and it is no shadow of a coupled pair (R469). -/
def mayIssue (s : State) (p : Nat) : Bool :=
  !coreHeld (getCore s p) && (getCluster s (clusterOf p)).powered && !(decide (p % 2 = 1) && pairCoupled s (p - 1))
    && !stopsHere s p

/-- Core clocks between the hit and the stop at the cluster's point (R407). -/
def stopWindow (s : State) (p : Nat) : Nat :=
  match (getCluster s (clusterOf p)).cur.toNat with | 0 => 12 | 1 => 16 | _ => 20

/-- A stop is on its way, and its clock has come by clock `t` (R406, R407). -/
def stopDue (s : State) (p t : Nat) : Bool :=
  match (getCore s p).stopping with
  | some (h, _) => decide (h + stopWindow s p ≤ t)
  | none => false

/-- The stop on its way to core `q` may arrive: the core's clock runs (R231), and its time has come, or the core issues nothing before it (R406, R407). -/
def stopComes (s : State) (q : Nat) : Bool :=
  !clockStands s q && ((getCore s q).stopping.isNone || !mayIssue s q
    || (match nextIssue (getCore (settle s q (getCore s q).cc) q) with
      | some (_, t, _) => stopDue s q t
      | none => true))

/-- A stop reaches core `q`: its slots freeze with CAUSE 2 at its stop cc (R406, R407). A context that a gang switch has
stopped keeps the stop for its slots. -/
def stopArrives (s : State) (q src : Nat) : State :=
  let due := match (getCore s q).stopping with | some (h, _) => h + stopWindow s q | none => 0
  let s := stopCore s q 2
  updCore s q fun c => { c with stopping := none, stopSrc := BitVec.ofNat 8 src, cc := max c.cc due }

/-- WATCH_STOP_ARRIVE (R406): message `n`, at the clock that R407 fixes. -/
def execWatchStopArrive (s : State) : Host.Outcome State Fault Refusal :=
  .next (match s.net[s.input.n]? with
    | some (.watchStop q src) => if stopComes s q then stopArrives { s with net := ldrop s.net s.input.n } q src else s
    | _ => s)

/-- The cores that a write of STOPC names. -/
def stopcCores (p : Nat) (bc : Bool) : List Nat := if bc then coresOf (clusterOf p) else [p]

/-- STOPC.STOP: the stop is on its way to every core it names; one that is on its way already stays the one stop. -/
def debugStop (s : State) (p : Nat) (bc : Bool) : State :=
  (stopcCores p bc).foldl (fun s q =>
    if (getCore s q).stopping.isNone then startStop s q (getCore s q).stopSrc.toNat else s) s

/-- DEBUG_STOP (R408): core `n`; `flag` is BC. -/
def execDebugStop (s : State) : Host.Outcome State Fault Refusal := .next (debugStop s (s.input.n % 192) s.input.flag)

/-- CAUSE 2 or 3. -/
def isStopped (k : Nat) : Bool := decide (k = 2) || decide (k = 3)

/-- STOPC.GO: every slot with CAUSE 2 or 3 resumes. -/
def debugGo (s : State) (p : Nat) (bc : Bool) : State :=
  (stopcCores p bc).foldl (fun s q => wakeFrozenAll (updCore s q fun c => { c with killed := 0 }) q isStopped) s

/-- DEBUG_GO (R408): core `n`; `flag` is BC. -/
def execDebugGo (s : State) : Host.Outcome State Fault Refusal := .next (debugGo s (s.input.n % 192) s.input.flag)

/-- A write of STOPC. -/
def writeStopc (s : State) (p : Nat) (v : Word) : State :=
  let s := if tbit v 2 then debugStop s p (tbit v 1) else s
  if tbit v 0 then debugGo s p (tbit v 1) else s

/-! ### DCMD (R409, R423, R428) -/

/-- A DCMD reached the core: a capture no longer times out, and it ends with its last slot (R476). -/
def dcmdCame (s : State) (p : Nat) : State := updCore s p fun c => { c with dcmdSeen := true }
def captureEnds (s : State) (p : Nat) : State :=
  updCore s p fun c => { c with captured := c.captured && anyFrozen c 5 }

/-- A slot is Frozen with one of some CAUSEs: DCMD acts on no other (R409, R423). -/
def frozenWith (s : State) (p n : Nat) (causes : List Nat) : Bool :=
  decide ((getSlot s p n).st = .frozen) && causes.contains (getSlot s p n).cause.toNat

/-- Value 1: the slot resumes. -/
def debugResume (s : State) (p n : Nat) : State := if frozenWith s p n [2, 3] then wakeFrozen s p n else s

/-- Value 2: the slot issues one instruction and freezes again; it is Active meanwhile, with CAUSE 0. -/
def debugStep (s : State) (p n : Nat) : State :=
  if frozenWith s p n [2, 3] then
    restartTimeouts (updSlot s p n fun sl =>
      { sl with st := .active, cause := 0, stepping := true, wdrn := false, park := .none, pend := none }) p n
  else s

/-- Value 3: a slot frozen by a fault or a capture resumes. -/
def faultResume (s : State) (p n : Nat) : State :=
  if frozenWith s p n [1, 4, 5] then captureEnds (wakeFrozen s p n) p else s

/-- Value 4: the task is killed; applied to all sixteen slots it resets the core (R428). -/
def killTask (s : State) (p n : Nat) : State :=
  let sl := getSlot s p n
  if !frozenWith s p n [1, 2, 3, 4, 5] then s
  else
    let t := dropWaits s p n
    let t := match slotLaunch sl with | some l => launchDrop t l | none => t
    let s := captureEnds (endScope (emptySlot t p n) p) p
    let mask := (getCore s p).killed ||| BitVec.ofNat 16 (2 ^ n)
    let all := decide (mask = BitVec.allOnes 16) && (upTo 16).all fun k => decide ((getSlot s p k).st = .empty)
    if all then coreReset s p else updCore s p fun c => { c with killed := mask }

/-- Any other command than a kill breaks a series of kills. -/
def noKill (s : State) (p : Nat) : State := updCore s p fun c => { c with killed := 0 }

/-- A write of DCMD of slot `n`. -/
def writeDcmd (s : State) (p n : Nat) (v : Word) : State :=
  let s := dcmdCame s p
  match v.toNat with
  | 1 => debugResume (noKill s p) p n
  | 2 => debugStep (noKill s p) p n
  | 3 => faultResume (noKill s p) p n
  | 4 => killTask s p n
  | _ => s

/-- DEBUG_RESUME (R409): slot `k` of core `n`. -/
def execDebugResume (s : State) : Host.Outcome State Fault Refusal :=
  .next (debugResume (noKill (dcmdCame s (s.input.n % 192)) (s.input.n % 192)) (s.input.n % 192) (s.input.k % 16))
/-- DEBUG_STEP (R409): slot `k` of core `n`. -/
def execDebugStep (s : State) : Host.Outcome State Fault Refusal :=
  .next (debugStep (noKill (dcmdCame s (s.input.n % 192)) (s.input.n % 192)) (s.input.n % 192) (s.input.k % 16))
/-- FAULT_RESUME (R423): slot `k` of core `n`. -/
def execFaultResume (s : State) : Host.Outcome State Fault Refusal :=
  .next (faultResume (noKill (dcmdCame s (s.input.n % 192)) (s.input.n % 192)) (s.input.n % 192) (s.input.k % 16))
/-- KILL_TASK (R423): slot `k` of core `n`. -/
def execKillTask (s : State) : Host.Outcome State Fault Refusal :=
  .next (killTask (dcmdCame s (s.input.n % 192)) (s.input.n % 192) (s.input.k % 16))

/-! ### LOCK (R422) -/

/-- A write of LOCK: slots and requests that the old region held look again, the requests in arrival order (log 99). -/
def writeLock (s : State) (p : Nat) (v : Word) : State :=
  let s := updCore s p fun c => { c with lock := BitVec.ofNat 64 (bits v 63 63 * 2 ^ 63 + bits v 31 0) }
  releaseHeld (wakeCore s p fun w => decide (w = .lock)) p

/-- DEBUG_LOCK_WRITE (R422): core `n`. -/
def execDebugLockWrite (s : State) : Host.Outcome State Fault Refusal := .next (writeLock s (s.input.n % 192) s.input.v)

/-! ### State of slots and cores (R422) -/

/-- A PC whose bits 1:0 are 0 (R242). -/
def wordAligned (v : Word) : Word := setBits v 1 0 0

/-- A register with its poison flag or its full/empty bit written. -/
def putFlag {w : Nat} (psn : Bool) (c : Cell w) (b : Bool) : Cell w := if psn then { c with psn := b } else { c with full := b }

/-- Registers whose bits of a full/empty or poison doubleword are written. -/
def putFlags (sl : Slot) (v : Word) (psn : Bool) : Slot :=
  let sl := (upTo 31).foldl (fun sl i => setGCell sl (i + 1) (putFlag psn (gCell sl (i + 1)) (tbit v (i + 1)))) sl
  let sl := (upTo 16).foldl (fun sl i => setGCell sl (48 + i) (putFlag psn (gCell sl (48 + i)) (tbit v (32 + i)))) sl
  (upTo 16).foldl (fun sl i => setVCell sl i (putFlag psn (vCell sl i) (tbit v (48 + i)))) sl

/-- A doubleword of a slot's region is written while the slot is Frozen; what is read-only stays. -/
def putSlotWord (sl : Slot) (o : Nat) (v : Word) : Slot :=
  if o < 0x100 then setGCell sl (o / 8) { gCell sl (o / 8) with val := v }
  else if o < 0x180 then
    let k := (o - 0x100) / 8
    setGCell sl (48 + k) { gCell sl (48 + k) with val := v }
  else if o < 0x1C0 then setMReg sl ((o - 0x180) / 8) v
  else if o < 0x1E0 then
    let i := (o - 0x1C0) / 4
    setKReg (setKReg sl i (v.setWidth 32)) (i + 1) (v.extractLsb' 32 32)
  else if o = 0x1E0 then putFlags sl v false
  else if o = 0x1F8 then putFlags sl v true
  else if o < 0x200 then sl
  else if o < 0x600 then
    let r := (o - 0x200) / 64
    let c := vCell sl r
    let lo := 64 * (o % 64 / 8)
    setVCell sl r { c with val := setBits c.val (lo + 63) lo v.toNat }
  else if o < 0x658 then
    (mtsWrites sl ((o - 0x600) / 8) v).foldl (fun sl w => (wrSlot 0 sl w).1) sl
  else match o with
    | 0x660 => { setCurFrame sl {} with pc := wordAligned v, dpc := (wordAligned v).setWidth 48 }
    | 0x668 => { sl with urgPc := wordAligned v, frame := if sl.urg then {} else sl.frame }
    | 0x670 => { sl with join := v }
    | _ => sl

/-- Journal units of a slot whose registers the window has written. -/
def slotUnits (n : Nat) (old new : Slot) : List JUnit :=
  let g := (upTo 64).filter fun k => gCell old k ≠ gCell new k
  let v := (upTo 16).filter fun k => vCell old k ≠ vCell new k
  let m := (upTo 8).filter fun k => mReg old k ≠ mReg new k
  let k := (upTo 8).filter fun k => kReg old k ≠ kReg new k
  (g.map fun k => { kind := 0, target := k, data := (gCell new k).val, full := (gCell new k).full, psn := (gCell new k).psn })
    ++ v.flatMap (fun k => vUnits k (vCell new k)) ++ (m.map fun k => { kind := 2, target := k, data := mReg new k })
    ++ (k.map fun k => { kind := 3, target := k, data := (kReg new k).setWidth 64 })
    ++ [{ kind := 4, target := 0, data := new.fmt.setWidth 64 }, { kind := 4, target := 1, data := new.frm.setWidth 64 },
        { kind := 4, target := 2, data := new.fflg.setWidth 64 }, { kind := 4, target := 7, data := new.lfsr.setWidth 64 },
        { kind := 4, target := 8, data := new.epi }, { kind := 4, target := 16, data := new.pc },
        { kind := 4, target := 17, data := new.urgPc }, { kind := 4, target := 18, data := new.join },
        { kind := 4, target := 22, data := frameControl new.frame }, { kind := 4, target := 24, data := frameControl new.frameUrg },
        stateUnit n new]

/-- A write to a slot's region. -/
def writeSlotWord (s : State) (p n o : Nat) (v : Word) : State :=
  let sl := getSlot s p n
  if sl.st ≠ .frozen then s
  else
    let t := putSlotWord sl o v
    if t = sl then s else updCore (setSlot s p n t) p fun c => journalEng c n (slotUnits n sl t)

/-- Replace the frame at a place of a list. -/
def putFrame (l : List V512) (i : Nat) (f : V512 → V512) : List V512 := match l[i]? with | some x => lset l i (f x) | none => l

/-- A doubleword of the task area is written: a dependence counter, a frame of a list, or bytes that no list holds. -/
def writeTaskWord (x : Ctx) (off : Nat) (v : Word) : Ctx :=
  let share := off / 0x2000
  let i := (off % 0x2000 - 0x1C00) / 64
  let lo := 64 * (off % 64 / 8)
  let f := fun (w : V512) => setBits w (lo + 63) lo v.toNat
  if share = 14 then { x with dep := mset x.dep ((off % 0x2000 - 0x1C00) / 8) v }
  else if (taskFrame x off).isNone then { x with ls := memStore x.ls (off / 8 * 8) (natBytes 8 v.toNat) }
  else if share ≤ 3 then { x with deque := putFrame x.deque (16 * share + i) f }
  else if share ≤ 5 then { x with runList := putFrame x.runList (16 * (share - 4) + i) f }
  else { x with pending := match x.pending[16 * (share - 6) + i]? with
      | some g => lset x.pending (16 * (share - 6) + i) { g with frame := f g.frame }
      | none => x.pending }

/-- A doubleword of the local store is written through the window; its full/empty bit stays. -/
def writeLsWord (s : State) (p o : Nat) (v : Word) : State :=
  if inTaskArea o 8 then updCtx s p fun x => writeTaskWord x o v
  else
    let s := updCtx s p fun x => { x with ls := memStore x.ls o (natBytes 8 v.toNat), lsPoison := poisonStore 8 x.lsPoison o 8 false }
    serveWaits (updCore s p fun c => journalEng c 0 (lsUnits c.res o 8)) p

/-- Full/empty bits of 64 words from `w` on are written. -/
def writeFeWord (s : State) (p w : Nat) (v : Word) : State :=
  let s := updCtx s p fun x => (upTo 64).foldl (fun x i =>
    if wordFull x (w + i) = tbit v i then x else setWordFe x (w + i) (tbit v i) 0xFFF) x
  serveWaits (updCore s p fun c => journalEng c 0 (lsUnits c.res (8 * w) 512)) p

/-- A WRITE of a doubleword of the debug window of core `p`: the registers of R403 and R408, LOCK, and state. -/
def writeWindow (s : State) (p o : Nat) (v : Word) : State :=
  if o < 0x20000 then writeLsWord s p o v
  else if o < 0x20800 then writeFeWord s p ((o - 0x20000) * 8) v
  else if 0x28000 ≤ o ∧ o < 0x30000 then writeSlotWord s p ((o - 0x28000) / 0x800) (o % 0x800) v
  else if 0x3E000 ≤ o ∧ o < 0x3E080 then
    let k := (o - 0x3E000) / 8
    updCore s p fun c => journalEng { c with res := { c.res with c := mset c.res.c k v } } 0 [{ kind := 5, target := k, data := v }]
  else if 0x3F180 ≤ o ∧ o < 0x3F200 then writeDcmd s p ((o - 0x3F180) / 8) v
  else match o with
    | 0x3F000 => writeWatch s p v
    | 0x3F040 => writeStopc s p v
    | 0x3F200 => writeLock s p v
    | _ => s

/-- DEBUG_WINDOW_WRITE (R422): doubleword `k` of the window of core `n` := `v`. -/
def execDebugWindowWrite (s : State) : Host.Outcome State Fault Refusal :=
  .next (writeWindow s (s.input.n % 192) (s.input.k % 0x40000 / 8 * 8) s.input.v)

end Sys2Proof.Machine
end

