-- ==== Sys2Proof/Machine/Ecdsa.lean ====
section
/-! DEFINITION. The verification of an ECDSA P-256 signature (R227), which the manual names without its algorithm: the curve and the
procedure of FIPS 186-5 (assumption log 18). -/

namespace Sys2Proof.Machine

/-- The prime of the field of the curve. -/
def curveP : Nat := 2 ^ 256 - 2 ^ 224 + 2 ^ 192 + 2 ^ 96 - 1
/-- The order of its base point. -/
def curveN : Nat := 2 ^ 256 - 2 ^ 224 + 2 ^ 192 - 0x4319055258E8617B0C46353D039CDAAF
/-- The constant of its equation y² = x³ - 3 x + b. -/
def curveB : Nat := 0x5AC635D8AA3A93E7B3EBBD55769886BC651D06B0CC53B0F63BCE3C3E27D2604B

/-- A point by its projective coordinates: x = X / Z², y = Y / Z³; Z = 0 is the neutral one. -/
structure Point where
  x : Nat
  y : Nat
  z : Nat

/-- The base point of the curve. -/
def curveG : Point :=
  { x := 0x6B17D1F2E12C4247F8BCE6E563A440F277037D812DEB33A0F4A13945D898C296
    y := 0x4FE342E2FE1A7F9B8EE7EB4A7C0F9E162BCE33576B315ECECBB6406837BF51F5, z := 1 }

/-- Difference and product in the field. -/
def fieldSub (a b : Nat) : Nat := (a + curveP - b % curveP) % curveP
def fieldMul (a b : Nat) : Nat := a * b % curveP

/-- Twice a point. -/
def pointTwice (a : Point) : Point :=
  let zz := fieldMul a.z a.z
  let yy := fieldMul a.y a.y
  let beta := fieldMul a.x yy
  let alpha := 3 * fieldMul (fieldSub a.x zz) (a.x + zz)
  let x := fieldSub (alpha * alpha) (8 * beta)
  { x := x, y := fieldSub (alpha * fieldSub (4 * beta) x) (8 * (yy * yy)), z := 2 * a.y * a.z % curveP }

/-- The sum of two points. -/
def pointSum (a b : Point) : Point :=
  if a.z = 0 then b else if b.z = 0 then a
  else
    let za := fieldMul a.z a.z
    let zb := fieldMul b.z b.z
    let ua := fieldMul a.x zb
    let sa := fieldMul a.y (b.z * zb)
    let h := fieldSub (b.x * za) ua
    let r := fieldSub (b.y * (a.z * za)) sa
    if h = 0 then (if r = 0 then pointTwice a else { x := 1, y := 1, z := 0 })
    else
      let hh := fieldMul h h
      let v := fieldMul ua hh
      let x := fieldSub (r * r) (h * hh + 2 * v)
      { x := x, y := fieldSub (r * fieldSub v x) (sa * (h * hh)), z := h * (a.z * b.z) % curveP }

/-- A point times a number of `n` bits. -/
def pointTimes (a : Point) : Nat → Nat → Point
  | 0, _ => { x := 1, y := 1, z := 0 }
  | n + 1, k =>
    let q := pointTwice (pointTimes a n (k / 2))
    if k % 2 = 1 then pointSum q a else q

/-- A power modulo `m`, of an exponent of `n` bits. -/
def powMod (m a : Nat) : Nat → Nat → Nat
  | 0, _ => 1
  | n + 1, e =>
    let q := powMod m a n (e / 2)
    if e % 2 = 1 then q * q % m * a % m else q * q % m

/-- The inverse modulo a prime. -/
def invMod (m a : Nat) : Nat := powMod m a 256 (m - 2)

/-- The x coordinate of a point. -/
def pointX (a : Point) : Nat := fieldMul a.x (invMod curveP (fieldMul a.z a.z))

/-- A signature (`r`, `s`) of a digest `e` verifies under the public key (`x`, `y`). -/
def ecdsaVerifies (x y e r s : Nat) : Bool :=
  let w := invMod curveN s
  let q := pointSum (pointTimes curveG 256 (e * w % curveN)) (pointTimes { x := x, y := y, z := 1 } 256 (r * w % curveN))
  decide (x < curveP) && decide (y < curveP) && decide (y * y % curveP = (x * x * x + (curveP - 3) * x + curveB) % curveP)
    && decide (1 ≤ r) && decide (r < curveN) && decide (1 ≤ s) && decide (s < curveN) && decide (q.z ≠ 0)
    && decide (pointX q % curveN = r)

end Sys2Proof.Machine
end

