-- ==== Sys2Proof/Machine/Pairchk.lean ====
section
/-! DEFINITION. Checked pairs: coupling, decoupling, the exchange of fingerprints, marks and rollback (R469 to R471, R477). While a
pair is coupled one execution stands for both cores, and the lead holds the state of both (log 31). -/

namespace Sys2Proof.Machine

/-! ### Coupling -/

/-- The job that owns the lead's real-time context, or else its core owner. -/
def pairJob (s : State) (p : Nat) : Option Nat :=
  match s.jobs.find? fun j => isRt j && (partCores s j.record).contains p with
  | some j => some j.id
  | none => coreOwner s p

/-- Every slot of a core is Empty. -/
def allEmpty (c : PCore) : Bool :=
  let quiet := fun (x : Ctx) => x.slots.all fun e => decide (e.2.st = .empty)
  quiet c.res && (match c.sav with | some x => quiet x | none => true)

/-- The three conditions of coupling. -/
def mayCouple (s : State) (m : Nat) : Bool :=
  !((upTo 192).any fun n => lpctV s n && decide (physOf s n = 2 * m + 1)) && allEmpty (getCore s (2 * m + 1))
    && (match pairJob s (2 * m) with | some j => decide (mortarMode s j = 1) | none => false)

/-- The fingerprints of a core's slots start at 0. -/
def clearFingers (x : Ctx) : Ctx := { x with slots := x.slots.map fun (n, sl) => (n, { sl with finger := 0, exchanging := false }) }

/-- The lead stands: the pair is coupled. -/
def finishCouple (s : State) (m : Nat) : State :=
  let p := 2 * m
  let c := getCore s p
  let at_ := match pairJob s p with | some j => mortarNext s j | none => 0
  let s := updPairChk s m fun q => { q with
    state := 2, retry := [], failed := none, undo := [], marks := marksAt c (nextPos c), noted := (upTo 16).map (fun n => (n, at_)), replay := [] }
  updCore s p fun c => { c with halted := false, res := clearFingers c.res }

/-- Coupling goes on: the lead stops at a rotation boundary, its replies are applied and its shadow queue drains. -/
def goCouple (s : State) (m : Nat) : State :=
  let p := 2 * m
  let c := getCore s p
  if (getPair s m).state ≠ 1 || !tilesQuiet c then s
  else if moveReady s p then finishCouple s m
  else if c.halted || decide (c.pass ≠ []) then s
  else updCore (settleAll s p) p fun c => { c with halted := true }

/-- A write of EN = 1. -/
def coupleWrite (s : State) (m : Nat) : State :=
  if (getPair s m).state = 0 ∧ mayCouple s m then goCouple (updPairChk s m fun q => { q with en := true, state := 1 }) m else goCouple s m

/-- A context without tasks and frames. -/
def emptied (x : Ctx) : Ctx :=
  { x with slots := [], deque := [], runList := [], runWait := [], pending := [], overflow := [], strays := [], spilled := [] }

/-- The shadow as coupling leaves it: what the lead holds, its slots Empty. -/
def shadowOf (lead old : PCore) : PCore :=
  rebase { old with
    res := emptied lead.res, sav := none, set := lead.set, wide := { lead.wide with mxq := [] }
    wb := lead.wb, wbPoison := lead.wbPoison, ab := lead.ab, abPoison := lead.abPoison, cc := lead.cc, ring := [], ringPos := lead.ringPos }

/-- The end of coupling. -/
def endCouple (s : State) (m : Nat) : State :=
  let lead := getCore s (2 * m)
  let s := updCore s (2 * m + 1) fun c => shadowOf lead c
  let s := updCtx s (2 * m) clearFingers
  updPairChk s m fun q => { disag := q.disag }

/-- A write of EN = 0: coupling ends at the lead's next rotation boundary. -/
def decoupleWrite (s : State) (m : Nat) : State :=
  let q := getPair s m
  if q.state = 0 then s
  else if q.state = 1 then updCore (updPairChk s m fun q => { q with en := false, state := 0 }) (2 * m) fun c => { c with halted := false }
  else if q.state = 2 ∧ (getCore s (2 * m)).pass ≠ [] then updPairChk s m fun q => { q with en := false }
  else endCouple s m

/-! ### Agreement (R470) -/

/-- The record of a disagreement. -/
def disagreement (s : State) (m n : Nat) (rsn : BitVec 32) (sev : Nat) (retry : Bool) : State :=
  record s 3 0x03 sev 0x200 (getSlot s (2 * m) n).jobId.toNat (senderKey s (2 * m) n).toNat (BitVec.ofNat 64 (2 * m)) rsn.toNat retry

/-- A slot's mark: the KIND 13 entry, and the Mortar's position. -/
def markSlot (s : State) (m n : Nat) : State :=
  let p := 2 * m
  let sl := getSlot s p n
  let rsn := slotRsn s p n
  let f := BitVec.ofNat 64 (rsn.toNat * 2 ^ 32 + bits sl.finger 31 0)
  let s := updCore s p fun c => { c with shadow := c.shadow ++ mkEntries [{ kind := 13, target := 0, data := f }] rsn n false c.set sl.pc }
  let s := updSlot s p n fun sl => { sl with finger := 0, exchanging := false, sinceEntry := 0 }
  let pos := nextPos (getCore s p)
  let s := updPairChk s m fun q => { q with
    marks := mset q.marks n (pos * 2 ^ 32 + rsn.toNat), noted := mset q.noted n (mortarNext s sl.jobId.toNat) }
  let oldest := oldestMark (getPair s m) (getCore s p)
  updPairChk s m fun q => { q with undo := q.undo.filter fun e => decide (oldest ≤ e.1) }

/-- Agreement; a re-execution that passes the exchange it failed ends its retry (R471). -/
def agree (s : State) (m n : Nat) : State :=
  if !(getSlot s (2 * m) n).exchanging then s
  else
    let rsn := slotRsn s (2 * m) n
    let s := match (getPair s m).retry.find? fun e => e.1 = n with
      | some (_, r) =>
        if r.toNat ≤ rsn.toNat then
          wakeReplay <| updPairChk (disagreement s m n r 1 true) m fun q =>
            let left := q.retry.filter fun e => e.1 ≠ n
            { q with retry := left, replay := if left = [] then [] else q.replay
                     disag := if q.disag = BitVec.allOnes 16 then q.disag else q.disag + 1 }
        else s
      | none => s
    markSlot s m n

/-! ### Disagreement (R471) -/

/-- The records that the pair's slots made at any point from a ring index on. -/
def recordsFrom (s : State) (p job : Nat) (i : BitVec 32) : List (BitVec 128) :=
  let m := getMortar s job
  let made := (m.wptr - i).toNat
  let behind := if made < 2 ^ 31 then made else 0
  let inRing := (upTo behind).filterMap fun k =>
    match (readVirtual s job (ringAddr m (i + BitVec.ofNat 32 k)) 16).1 with
    | .ok (bs, _) => some (leWord 128 bs)
    | .error _ => none
  let lc := logicalOf s p
  (inRing ++ m.queue.drop (if behind = 0 then (i - m.wptr).toNat else 0)).filter fun r => decide (recAgent r / 16 = lc)

/-- One thing that the lead did outside its journal is taken back. A launch that has ended stays ended. -/
def takeBack (s : State) (p : Nat) : Undo → State
  | .popped src f =>
    updCtx s p fun x => if src = 1 then { x with runList := f :: x.runList } else { x with deque := x.deque ++ [f] }
  | .stolen q f => updCtx s q fun x => { x with deque := f :: x.deque }
  | .held n l => updSlot s p n fun sl => { sl with held := l }
  | .urgent n u => updSlot s p n fun sl => { sl with urgents := u :: sl.urgents }
  | .level l up => updLaunch s l fun r => { r with count := if up then r.count - 1 else r.count + 1 }

/-- Starts under way on core `p` end: the slots are rebuilt from the journal. -/
def endStarts (s : State) (p : Nat) : State :=
  (upTo 16).foldl (fun s n => match (getSlot s p n).st, (getSlot s p n).starting with
    | .starting, some f => endStart s p n f
    | _, _ => s) s

/-- THE ROLLBACK of a pair to the last mark of slot `n`, at the lead's rotation boundary. -/
def rollback (s : State) (m n : Nat) : State :=
  let p := 2 * m
  let q := getPair s m
  let s := drainAll (withdrawAll (endStarts (settleAll s p) p) p) p
  let pos := (mget q.marks n).getD 0 / 2 ^ 32
  let s := (q.undo.filter fun e => decide (pos ≤ e.1)).foldl (fun s e => takeBack s p e.2) s
  let c := getCore s p
  let k := pos - (c.ringPos - c.ring.length)
  let job := (getSlot s p n).jobId.toNat
  let from_ := (mget q.noted n).getD 0
  let old := recordsFrom s p job from_
  let s := setCore s p { rebuilt c k with res := clearFingers (wakeCtx (fun w => decide (w = .reissue)) (rebuilt c k).res) }
  let c := getCore s p
  updPairChk s m fun x => { x with
    marks := marksAt c (nextPos c), failed := none, undo := []
    noted := (upTo 16).map fun i => (i, from_), replay := old, replayCtx := c.res.rtJob }

/-- A lasting disagreement: both cores freeze. -/
def failPair (s : State) (m n : Nat) (rsn : BitVec 32) : State :=
  let s := disagreement s m n rsn 2 true
  let s := updCore s (2 * m + 1) fun c => { (getCore s (2 * m)) with
    lcore := c.lcore, launches := c.launches, nextSeq := c.nextSeq, temp := c.temp, waits := [], lockHeld := [], hodq := [], wide := { (getCore s (2 * m)).wide with mxq := [] } }
  let s := coreScope (coreScope s (2 * m)) (2 * m + 1)
  updPairChk s m fun q => { q with state := 3, retry := [], failed := none, undo := [], replay := [] }

/-- A disagreement of slot `n`, held to the lead's next rotation boundary: a second one at the same RSN lasts. -/
def disagree (s : State) (m n : Nat) : State :=
  let rsn := slotRsn s (2 * m) n
  if (getCore s (2 * m)).pass ≠ [] then updPairChk s m fun q => { q with failed := some n }
  else if (getPair s m).retry.contains (n, rsn) then failPair s m n rsn
  else
    updPairChk (rollback s m n) m fun q => { q with retry := (q.retry.filter fun e => e.1 ≠ n) ++ [(n, rsn)] }

/-- FINGERPRINT_EXCHANGE (R470, R471): slot `k` of pair `n`; `flag`: the two cores differ. A disagreement that waits for the boundary
comes first. -/
def execFingerprintExchange (s : State) : Host.Outcome State Fault Refusal :=
  .next (
    let m := s.input.n
    let n := s.input.k % 16
    if (getPair s m).state ≠ 2 then s
    else match (getPair s m).failed with
      | some k => disagree s m k
      | none => if s.input.flag then disagree s m n else agree s m n)

end Sys2Proof.Machine
end

