-- ==== Sys2Proof/Machine/Footing.lean ====
section
/-! DEFINITION. Loss of power and resume (R134, R147, R149, R483 to R486), and the start of the module (R7, R227, R427, R428). -/

namespace Sys2Proof.Machine

/-! ### Cluster power loss (R134, R483) -/

/-- A slot whose reply will not come: its instruction issues again. -/
def reissued (sl : Slot) : Slot :=
  if sl.st = .waiting ∨ (sl.st = .parked ∧ sl.park ≠ .idle) then { sl with st := .active, park := .none, pend := none, heldOp := false } else sl

/-- The packets of a core's transfers in flight are lost, and with them what its own tiles had accepted; its streams in the
FIFOs stand, so that a job is granted again (R149; log 76). -/
def loseTransfers (s : State) (p : Nat) : State :=
  let c := getCore s p
  let mine := fun (m : Msg) => match m with | .packet lc _ _ _ _ => decide (lc = c.lcore) | _ => false
  let keys := (c.hodq.filter fun t => hdTilesW t.regs ≠ []).map fun t => packetKey p t (0x1000 + p)
  { s with net := s.net.filter fun m => !mine m, hodAccept := s.hodAccept.filter fun e => !keys.contains e.1 }

/-- A core at the loss: its shadow queue becomes durable and its waits leave their holders. -/
def coreDown (s : State) (p : Nat) : State :=
  let s := drainAll (settleAll s p) p
  let s := (upTo 16).foldl (fun s n => dropWaits s p n) s
  let s := loseTransfers s p
  updCore s p fun c => { c with halted := true, pass := [], res := { c.res with slots := c.res.slots.map fun (n, sl) => (n, reissued sl) } }

/-- CLUSTER_POWER_LOSS (R483): cluster `n`. -/
def execClusterPowerLoss (s : State) : Host.Outcome State Fault Refusal :=
  .next (
    let cl := s.input.n % 24
    if !(getCluster s cl).powered then s
    else
      let s := (coresOf cl).foldl coreDown s
      updCluster s cl fun c => { recount s.plumb false c with powered := false, grant := none, busy := false, droop := false, inj := false })

/-! ### Cluster resume (R147, R149, R484, R485) -/

/-- A record of the Footing (CLASS 6). -/
def footRecord (s : State) (code sev job data : Nat) (addr : Word := 0) : State := record s 6 code sev 0x300 job 0xFFF addr data

/-- A read of the Footing that was uncorrectable has been tried again (R425). -/
def footReread (s : State) (again : Bool) (addr : Word) : State := record s 6 0x08 (if again then 1 else 2) 0x300 0 0xFFF addr 0 true

/-- A transfer as it goes on: one that had started is at packet 0. The tiles that it writes or holds are Empty now, and it starts
again when they allow it (R92); one that was refused sends nothing more. -/
def restartXfer (t : Xfer) : Xfer :=
  if !t.started then t
  else if t.failed then { t with todo := [], flying := 0 }
  else if hdTilesW t.regs = [] ∧ t.tilesR = [] then { t with todo := packetsOf t.regs t.ringBase, flying := 0, done := 0 }
  else { t with started := false, todo := [], flying := 0, done := 0, tilesW := hdTilesW t.regs }

/-- The core's MXE jobs and transfers as they go on: none is granted. -/
def restartJobs (c : PCore) : PCore :=
  { c with
    wide := { c.wide with mxq := c.wide.mxq.map fun j => { j with granted := false, c0 := [], c0Psn := [], tile := [], rest := [], count := 0 } }
    hodq := c.hodq.map restartXfer }

/-- An entry of a commit group: a frame, or a word of the accumulator buffer that does not end an act (R149). -/
def groupEntry (e : BitVec 256) : Bool := decide (bits e 195 192 = 12) || (decide (bits e 195 192 = 7) && !tbit e 191)

/-- A job whose group is lost stands at the head of its queue again, its spans at the heads of their streams. -/
def queueAgain (c : PCore) (x : Commit) : PCore :=
  { c with
    wide := { c.wide with mxq := { x.job with redo := true } :: c.wide.mxq }
    fifoA := x.spanA ++ c.fifoA, fifoB := x.spanB ++ c.fifoB, heldA := x.held }

/-- THE JOBS WHOSE COMMIT GROUPS ARE NOT DURABLE: a group without its end frame before ring position `pos` folds into nothing, and
its job is granted again after the resume (R149, R402). -/
def regrant (c : PCore) (pos : Nat) : PCore :=
  let lost := c.commits.filter fun x => decide (pos < x.pos)
  lost.foldl queueAgain { c with commits := c.commits.filter fun x => decide (x.pos ≤ pos) }

/-- Every tile is Empty with USES 0 and its generation (R91, R147). -/
def emptyTiles (x : Ctx) : Ctx := { x with tiles := x.tiles.map fun (t, e) => (t, e &&& 0xFE0000FF#32) }

/-- The weight and activation buffers of the core read 0. -/
def lostBuffers (c : PCore) : PCore :=
  { c with wb := [], wbPoison := [], ab := [], abPoison := [], res := emptyTiles c.res, sav := c.sav.map emptyTiles }

/-- A resume that fails: the levels with work on the core are cancelled and it is reset. -/
def failResume (s : State) (p : Nat) : State :=
  let c := getCore s p
  let s := coreReset (cancelOn s p) p
  let s := footRecord s 0x03 2 (c.res.rtJob.getD ((coreOwner s p).getD 0)) p
  match c.sav with
  | some x => footRecord s 0x03 2 (x.rtJob.getD ((coreOwner s p).getD 0)) p
  | none => s

/-- How a core's base image and ring read at resume: at entry `j` the kept run ends. -/
inductive Tail where
  | intact
  /-- entry `j` fails its check -/
  | torn (j : Nat)
  /-- a read of the journal, of the base image or of the core-wide image is uncorrectable, at this Footing address; `again`: the second
  read of it succeeds (R425) -/
  | unreadable (a : Nat) (again : Bool)
  /-- the header names two resident sets -/
  | twoSets
  deriving DecidableEq, Repr

/-- A Footing address in the journal, the base image or the core-wide image of core `p` (R138). -/
def ownFooting (p a : Nat) : Bool :=
  let within := fun (base size : Nat) => decide (base + p * size ≤ a) && decide (a < base + (p + 1) * size)
  within 0 0x80000 || within 0x06000000 0x5C000 || within 0x0BD00000 0x14000

/-- What the event says of core `p`: the entry that fails, 2^32 for two resident sets, or 2^33 and the address that cannot be
read, or 2^34 and an address whose second read succeeds. -/
def tailOf (a : Input) (p : Nat) : Tail :=
  match a.pairs.find? fun e => decide (e.1 = p) with
  | none => .intact
  | some (_, j) =>
    if j < 2 ^ 32 then .torn j else if j < 2 ^ 33 then .twoSets
    else if ownFooting p (j % 2 ^ 33) then .unreadable (j % 2 ^ 33) (decide (2 ^ 34 ≤ j)) else .intact

/-- THE RESUME OF A CORE with the first `j` entries of its ring: the entries of a lost commit group are no other agent's effect
(R149, R402). -/
def resumeKept (s : State) (p j : Nat) : State :=
  let c := getCore s p
  let k := wholeGroups (c.ring.take j)
  let gone := c.ring.drop k
  if gone.any fun e => tbit e 187 && !groupEntry e then failResume s p
  else
    let s := setCore s p (restartJobs (lostBuffers (regrant (rebuilt c k) (c.ringPos - gone.length))))
    if gone = [] then s else footRecord s 0x02 1 0 gone.length

/-- A core of a cluster whose rail is good. -/
def resumeCore (s : State) (a : Input) (p : Nat) : State :=
  match tailOf a p with
  | .intact => resumeKept s p (getCore s p).ring.length
  | .torn j => resumeKept s p j
  | .unreadable a again =>
    let s := footReread s again (BitVec.ofNat 64 a)
    if again then resumeKept s p (getCore s p).ring.length else failResume s p
  | .twoSets => failResume s p

/-- CLUSTER_RESUME (R484): the rail of cluster `n` is good; `pairs` says which cores' journals or images fail. -/
def execClusterResume (s : State) : Host.Outcome State Fault Refusal :=
  .next (
    let cl := s.input.n % 24
    if (getCluster s cl).powered then s
    else
      let s := (coresOf cl).foldl (fun s p => resumeCore s s.input p) s
      let s := restartClock (updCluster s cl fun c => { c with powered := true, grant := none }) cl
      let s := (coresOf cl).foldl (fun s p => refillFrames (reinject s p) p) s
      footRecord s 0x01 1 0 cl)

/-! ### The start of the module (R227, R427, R428, R486) -/

/-- A boot-journal entry (R427). -/
def bootEntry (start step result time : Nat) : BitVec 128 :=
  BitVec.ofNat 128 (start % 2 ^ 32 * 2 ^ 96 + step % 256 * 2 ^ 88 + result % 256 * 2 ^ 80 + time % 2 ^ 64)

/-- An entry joins the boot journal, newest first. -/
def journalBoot (s : State) (step result : Nat) : State :=
  { s with bootJournal := (bootEntry s.starts.toNat step result s.plumb :: s.bootJournal).take 65536 }

/-- A step failed in the start before this one. -/
def failedBefore (s : State) (step : Nat) : Bool :=
  s.bootJournal.any fun e => decide (bits e 127 96 + 1 = s.starts.toNat) && decide (bits e 95 88 = step) && decide (bits e 87 80 = 1)

/-- What stands in the flash for step 2 or 3, as the event brings it in three pairs of its input: the public key (x, y), the signature
(r, s), and the version with 2^32 × the length, and the image's bytes as a number (log 35). -/
def flashPair (s : State) (step i : Nat) : Nat × Nat := s.input.pairs.getD (3 * (step - 2) + i) (0, 0)

/-- The image that stands in the flash. -/
def flashImage (s : State) (step : Nat) : List Byte :=
  let (v, x) := flashPair s step 2
  natBytes (v / 2 ^ 32) x

/-- AN IMAGE IS ACCEPTED (R227): its public key hashes to a fused key hash that is not revoked, its version is at least the fused
minimum, and its signature over the SHA-256 of the image verifies. -/
def imageAccepted (s : State) (step : Nat) : Bool :=
  let (x, y) := flashPair s step 0
  let (r, sg) := flashPair s step 1
  ((s.keyHashes.zip (upTo 4)).any fun k => decide (k.1 = sha256 (beBytes 32 x ++ beBytes 32 y)) && !s.keyRevoked.getLsbD k.2)
    && decide (s.imageMin.toNat ≤ (flashPair s step 2).1 % 2 ^ 32)
    && ecdsaVerifies x y (sha256 (flashImage s step)).toNat r sg

/-- The image of step 2 or 3 is loaded: its digest joins those of the attestation report (R227, R228). -/
def noteImage (s : State) (step : Nat) : State := { s with imageDigests := s.imageDigests ++ [sha256 (flashImage s step)] }

/-- The image of the scan cores is loaded into the local memory of each (R218, R227), from its first byte on (log 35). -/
def loadHarts (s : State) (bs : List Byte) : State :=
  if bs = [] then s
  else (upTo 8).foldl (fun s h => updHart s h fun t => { t with mem := memStore t.mem 0 (bs.take 0x60000) }) s

/-- The result of a step: an image that is not accepted fails steps 2 and 3; whether another step fails comes with the event, byte `step`
of its input (log 35); its alternative is the one that the rule gives. -/
def bootResult (s : State) (step : Nat) : Nat :=
  let fails := if step = 2 ∨ step = 3 then !imageAccepted s step else decide (s.input.bytes.getD step 0 = 1)
  if !failedBefore s step || decide (step = 1) then b2n fails
  else if step = 7 ∨ step = 8 then 2
  else if step = 4 then 3
  else if fails then 1 else 3

/-- The clusters that the self-test rejected in the previous start, a bit each from byte 9 of the input on, are fenced, and no logical
core names their cores (log 35). -/
def fenceRejected (s : State) : State :=
  let bad := (upTo 24).filter fun cl => leNat (s.input.bytes.drop 9) / 2 ^ cl % 2 = 1
  let lcs := (upTo 192).filter fun n => bad.contains (clusterOf (physOf s n))
  let s := { s with lpct := lcs.foldl (fun m n => mset m n (setBits (lpctEntry s n) 15 15 0)) s.lpct }
  bad.foldl (fun s cl => updCluster s cl fun c => { c with fenced := true }) s

/-- One step: its entry, its record when it failed, and what it leaves. In its alternative form step 4 clears the Footing apart from the
keys and the durable region (R486); journals, base images and core-wide images are clear by then, and the error ring and the boot
journal survive every reset (R428; log 35). -/
def bootOne (s : State) (step : Nat) : State :=
  if s.bootFailed then s
  else
    let r := bootResult s step
    let s := journalBoot s step r
    let s := if r = 1 then record s 8 step (if step = 1 then 3 else 2) 0x310 0 0xFFF else s
    match step, r with
    | 1, 1 => { s with bootFailed := true }
    | 2, 1 => { s with mgmtOff := true }
    | 2, _ => noteImage s 2
    | 3, 1 => { s with imagesOff := true }
    | 6, 3 => fenceRejected s
    | 3, _ => loadHarts (noteImage s 3) (flashImage s 3)
    | _, _ => s

/-- What every reset keeps: the error ring and its pointers, the boot journal, the durable region, the fuses; records on
their way are written first. -/
def kept (s : State) : State :=
  let s := flushRecords s.errQueue.length s
  { State.reset with
    durable := s.durable, durablePoison := s.durablePoison, errRing := s.errRing, ewp := s.ewp, ehost := s.ehost, emgt := s.emgt
    elost := s.elost, bootJournal := s.bootJournal, starts := s.starts + 1, class1 := s.class1, devId := s.devId
    keyRevoked := s.keyRevoked, keyHashes := s.keyHashes, imageMin := s.imageMin
    sent := s.sent, draws := s.draws, input := s.input }

/-- A START OF THE MODULE: `lost` after a loss of power. -/
def startModule (s : State) (lost : Bool) : State :=
  let s := kept s
  let s := (upTo 8).foldl (fun s i => bootOne s (i + 1)) s
  if lost && !s.bootFailed then footRecord s 0x04 2 0 s.starts.toNat else s

/-- MODULE_RESET (R427, R428): the reset-in pin, or with `flag` the start after a loss of power; `bytes`: which boot steps fail (1),
`pairs`: the images. Where step 1 fails the module stays in reset. -/
def execModuleReset (s : State) : Host.Outcome State Fault Refusal := .next (startModule s s.input.flag)

/-- A durable sector reads uncorrectable: where the second read fails too it becomes poison (R425, R456, R486). -/
def spoilSector (s : State) (k : Nat) (again : Bool) : State :=
  let addr := BitVec.ofNat 64 (0x0A500000 + 32 * k)
  if again then footReread s true addr
  else footReread { s with durable := memStore s.durable (32 * k) (List.replicate 32 0), durablePoison := nadd s.durablePoison k } false addr

/-- MODULE_POWER_LOSS (R486): every context is lost; the next thing that happens is a start. The first `n` of `pairs` list the durable
sectors that then read uncorrectable, each with 1 where its second read succeeds; the rest, and `bytes`, are the start's. -/
def execModulePowerLoss (s : State) : Host.Outcome State Fault Refusal :=
  .next ((s.input.pairs.take s.input.n).foldl (fun s e => spoilSector s (e.1 % 0x80000) (decide (e.2 = 1)))
    { kept s with
      starts := s.starts
      agenda := [.event .moduleReset { flag := true, bytes := s.input.bytes, pairs := s.input.pairs.drop s.input.n }] })

end Sys2Proof.Machine
end

