-- ==== Sys2Proof/Machine/Fp.lean ====
section
/-! DEFINITION. Scalar floating point (R279 to R284). -/

namespace Sys2Proof.Machine

/-- Format of a precision (R249). -/
def precFmt : Prec → FFmt
  | .f32 => .fp32
  | .f64 => .f64
  | .f16 => .f16
  | .bf16 => .bf16

/-- The value of a source of a precision: its low bits (R279). -/
def fpVal (p : Prec) (x : Word) : Val := valOf (precFmt p) (x.toNat % 2 ^ (precFmt p).width)

/-- A result encoding as a register value (R279). -/
def fpWord (r : Nat × Flags) : Word × Flags := (BitVec.ofNat 64 r.1, r.2)

/-- A rounding operation of two sources. -/
def fp2 (s : State) (d a b : GReg) (p : Prec) (op : FFmt → Nat → Val → Val → Nat × Flags) :
    Host.Outcome State Fault Refusal :=
  let rm := rmOf (me s)
  finish (computeF s [.g a, .g b] d (rmOk (me s)) fun g => fpWord (op (precFmt p) rm (fpVal p (g.w 0)) (fpVal p (g.w 1))))

def execFadd (d a b : GReg) (p : Prec) (s : State) := fp2 s d a b p addVal
def execFsub (d a b : GReg) (p : Prec) (s : State) := fp2 s d a b p fun f rm x y => addVal f rm x y.neg
def execFmul (d a b : GReg) (p : Prec) (s : State) := fp2 s d a b p mulVal
def execFdiv (d a b : GReg) (p : Prec) (s : State) := fp2 s d a b p divVal
/-- FSQRT (R280). -/
def execFsqrt (d a : GReg) (p : Prec) (s : State) : Host.Outcome State Fault Refusal :=
  let rm := rmOf (me s)
  finish (computeF s [.g a] d (rmOk (me s)) fun g => fpWord (sqrtVal (precFmt p) rm (fpVal p (g.w 0))))

/-- Low bits of a source as an encoding. -/
def fpCode (p : Prec) (x : Word) : Nat := x.toNat % 2 ^ (precFmt p).width

/-- FMIN (R281). -/
def execFmin (d a b : GReg) (p : Prec) (s : State) : Host.Outcome State Fault Refusal :=
  finish (computeF s [.g a, .g b] d true fun g => fpWord (minMax (precFmt p) false (fpCode p (g.w 0)) (fpCode p (g.w 1))))
/-- FMAX (R281). -/
def execFmax (d a b : GReg) (p : Prec) (s : State) : Host.Outcome State Fault Refusal :=
  finish (computeF s [.g a, .g b] d true fun g => fpWord (minMax (precFmt p) true (fpCode p (g.w 0)) (fpCode p (g.w 1))))

/-- A comparison (R76, R281): 0 with any NaN; NV for any NaN when `loud`, else only for a signalling one. -/
def fpCompare (loud : Bool) (want : Ordering → Bool) (x y : Val) : Bool × Flags :=
  if x.isNan || y.isNan then (false, if loud || x.isSig || y.isSig then flNV else 0)
  else (want (cmpVal x y), 0)

/-- A comparison instruction. -/
def fpCmp (s : State) (d a b : GReg) (p : Prec) (loud : Bool) (want : Ordering → Bool) : Host.Outcome State Fault Refusal :=
  finish (computeF s [.g a, .g b] d true fun g =>
    let r := fpCompare loud want (fpVal p (g.w 0)) (fpVal p (g.w 1))
    (if r.1 then 1 else 0, r.2))

def execFeq (d a b : GReg) (p : Prec) (s : State) := fpCmp s d a b p false fun o => o = .eq
def execFlt (d a b : GReg) (p : Prec) (s : State) := fpCmp s d a b p true fun o => o = .lt
def execFle (d a b : GReg) (p : Prec) (s : State) := fpCmp s d a b p true fun o => o ≠ .gt

/-- The class bit of an encoding (R281). -/
def fpClass (f : FFmt) (x : Nat) : Nat :=
  let neg := decide (x / 2 ^ (f.eb + f.mb) % 2 = 1)
  match valOf f x with
  | .inf n => if n then 0 else 7
  | .nan sg => if sg then 8 else 9
  | .fin _ m _ =>
    if m = 0 then (if neg then 3 else 4)
    else if m < 2 ^ f.mb then (if neg then 2 else 5)
    else (if neg then 1 else 6)

/-- FCLASS (R281). -/
def execFclass (d a : GReg) (p : Prec) (s : State) : Host.Outcome State Fault Refusal :=
  finish (compute s [.g a] d fun g => BitVec.ofNat 64 (2 ^ fpClass (precFmt p) (fpCode p (g.w 0))))

/-- Sign operations (R282): the sign from `sg`, the rest from x. -/
def fpSign (s : State) (d a b : GReg) (p : Prec) (sg : Bool → Bool → Bool) : Host.Outcome State Fault Refusal :=
  let w := (precFmt p).width
  finish (compute s [.g a, .g b] d fun g =>
    let x := fpCode p (g.w 0)
    BitVec.ofNat 64 (x % 2 ^ (w - 1) + b2n (sg (tbit (g.w 0) (w - 1)) (tbit (g.w 1) (w - 1))) * 2 ^ (w - 1)))

def execFsgnj (d a b : GReg) (p : Prec) (s : State) := fpSign s d a b p fun _ y => y
def execFsgnjn (d a b : GReg) (p : Prec) (s : State) := fpSign s d a b p fun _ y => !y
def execFsgnjx (d a b : GReg) (p : Prec) (s : State) := fpSign s d a b p fun x y => xor x y
/-- FMV (R282). -/
def execFmv (d a : GReg) (p : Prec) (s : State) : Host.Outcome State Fault Refusal :=
  finish (compute s [.g a] d fun g => BitVec.ofNat 64 (fpCode p (g.w 0)))

/-- Width and signedness of an integer type (R283). -/
def intTyWidth : IntTy → Nat
  | .i64 => 64 | .i32 => 32 | .i16 => 16 | .i8 => 8 | .n8 => 8
/-- Range of an integer type (R67). -/
def intTyLo : IntTy → Int
  | .n8 => 0
  | t => -(2 ^ (intTyWidth t - 1) : Int)
def intTyHi : IntTy → Int
  | .n8 => 255
  | t => 2 ^ (intTyWidth t - 1) - 1

/-- FCVT.I (R283). -/
def execFcvtI (d a : GReg) (ty : IntTy) (p : Prec) (s : State) : Host.Outcome State Fault Refusal :=
  let rm := rmOf (me s)
  finish (computeF s [.g a] d (rmOk (me s)) fun g =>
    let r := toInt rm (intTyLo ty) (intTyHi ty) (fpVal p (g.w 0))
    (BitVec.ofInt 64 r.1, r.2))
/-- The integer that FCVT.F converts (R283). -/
def intTyValue (ty : IntTy) (x : Word) : Int :=
  match ty with
  | .n8 => ((x.toNat % 256 : Nat) : Int)
  | t => (x.setWidth (intTyWidth t)).toInt
/-- FCVT.F (R283). -/
def execFcvtF (d a : GReg) (ty : IntTy) (p : Prec) (s : State) : Host.Outcome State Fault Refusal :=
  let rm := rmOf (me s)
  finish (computeF s [.g a] d (rmOk (me s)) fun g => fpWord (ofInt (precFmt p) rm (intTyValue ty (g.w 0))))
/-- FCVT.FF (R283). -/
def execFcvtFf (d a : GReg) (src p : Prec) (s : State) : Host.Outcome State Fault Refusal :=
  let rm := rmOf (me s)
  finish (computeF s [.g a] d (rmOk (me s)) fun g => fpWord (roundVal (precFmt p) rm false (fpVal src (g.w 0))))

/-- A fused operation (R284): the product negated when `np`, the addend when `nz`. -/
def fpFused (s : State) (d a b c : GReg) (p : Prec) (np nz : Bool) : Host.Outcome State Fault Refusal :=
  let rm := rmOf (me s)
  finish (computeF s [.g a, .g b, .g c] d (rmOk (me s)) fun g =>
    let x := fpVal p (g.w 0)
    let z := fpVal p (g.w 2)
    fpWord (fmaVal (precFmt p) rm (if np then x.neg else x) (fpVal p (g.w 1)) (if nz then z.neg else z)))

def execFma (d a b c : GReg) (p : Prec) (s : State) := fpFused s d a b c p false false
def execFms (d a b c : GReg) (p : Prec) (s : State) := fpFused s d a b c p false true
def execFnma (d a b c : GReg) (p : Prec) (s : State) := fpFused s d a b c p true true
def execFnms (d a b c : GReg) (p : Prec) (s : State) := fpFused s d a b c p true false

end Sys2Proof.Machine
end

