-- ==== Sys2Proof/Machine/RegWrites.lean ====
section
/-! DEFINITION. Writes to registers: the command arbiter, and the effect of a write at each offset of node fields 0xE0 to 0xE5 (R6,
R38, R53, R100, R101, R106, R150, R157 to R159, R211, R212, R214, R222, R226, R228, R229, R236, R418, R426, R450, R454, R459, R469,
R475, R476, R479, R490). -/

namespace Sys2Proof.Machine

/-! ### Stream gates and gate control lists (R211, R212) -/

/-- Size of the half that holds a gate's entry. -/
def halfSize (kind : Nat) : Nat := if kind = 0 then 0x200000 else 0x100000

/-- The landing base of a camera gate: node field 0x00 or 0xE3, aligned to 64 bytes. -/
def landingOk (a : Nat) : Bool :=
  (decide (a / 2 ^ 56 = 0) || decide (a / 2 ^ 56 = 0xE3)) && decide (a / 2 ^ 48 % 256 = 0) && decide (a % 64 = 0)

/-- No reserved field or value is set and every field lies within its limits. -/
def gateOk (period : Nat) (e : V512) : Bool :=
  let k := gtKind e
  decide (bits e 193 0 = 0) && decide (k ≠ 3) && (if k = 2 then landingOk (gtAddr e) else decide (gtAddr e = 0))
    && (decide (k = 2) || (decide (64 ≤ gtIoff e) && decide (2 ≤ gtIlen e) && decide (gtIlen e ≤ 1500)
        && decide (gtIoff e * 64 + gtIlen e ≤ halfSize k)))
    && (decide (k ≠ 1) || (decide (gtOfrz e + 2 ≤ gtOtx e) && (decide (period = 0) || decide (gtOtx e < period))))

/-- The arbiter refuses write `q` with status RSVD. -/
def refuseWrite (s : State) (q : BitVec 32) : State := { s with sent := s.sent ++ [.status q 2] }

/-- Write `q` to a gate's entry: refused, the previous entry stands. -/
def writeGate (s : State) (q : BitVec 32) (g : Nat) (e : V512) : State :=
  if gateOk s.period.toNat e then updGate s g fun x => { x with next := some e } else refuseWrite s q

/-- A gate control list is accepted: at most 64 entries, no reserved field set, the sum R211 asks for. -/
def gclOk (period : Nat) (l : List Word) : Bool :=
  decide (l.length ≤ 64) && (l.all fun e => decide (bits e 55 32 = 0)) && (decide (period = 0) || gclFits l period)

/-- Write `q` of the gate control list of a port. -/
def writeGcl (s : State) (q : BitVec 32) (port : Nat) (l : List Word) : State :=
  if gclOk s.period.toNat l then { s with ports := mset s.ports port { (mget s.ports port).getD {} with next := some l } } else refuseWrite s q

/-! ### Attestation (R228) -/

/-- What CFGD is taken over: the gate table, the pair registers, the registration records by JOBID (log 36). -/
def configBytes (s : State) : List Byte :=
  ((upTo 64).flatMap fun g => natBytes 64 (gateBits (getGate s g)).toNat)
    ++ ((upTo 19).flatMap fun i => natBytes 8 (pairWord s (8 * i)).toNat)
    ++ ((upTo 128).flatMap fun j => match findJob s j with | some r => natBytes 64 r.record.toNat | none => [])

/-- Bits 1023:0 of the report. -/
def reportBody (s : State) : BitVec 1024 :=
  s.attNonce ++ sha256 (s.imageDigests.flatMap fun d => beBytes 32 d.toNat) ++ sha256 (configBytes s)
    ++ BitVec.ofNat 64 s.plumb ++ s.devId ++ s.attCur ++ 0#96

/-- The root of trust places the report in AREP. -/
def completeReport (s : State) : State :=
  if s.attBusy then { s with areport := Config.signature (reportBody s) ++ reportBody s, attBusy := false, attSeq := s.attCur } else s

/-! ### Partial writes -/

/-- The value that a write of some bytes patches: what the register reads, with bits that a 1 clears taken as 0; 0 for a
register whose write is an action. -/
def patchBase (s : State) (nf o : Nat) : Word :=
  let v := regWord s nf o
  if nf ≠ 0xE0 then v
  else if o = 0x1000 ∨ (0x1600 ≤ o ∧ o < 0x16C0) then v &&& ~~~(6 : Word)
  else if 0x2400 ≤ o ∧ o < 0x2800 then setBits v 63 63 0
  else if 0x6000 ≤ o ∧ o < 0x6600 then setBits v 62 62 0
  else if o = 0x1100 ∨ o = 0x1108 ∨ (0x8000000 ≤ o ∧ decide (o % 0x40000 = 0x3F040) = true) then 0
  else v

/-- The doubleword at aligned offset `o` after a write of bytes at `a`. -/
def wordAfter (s : State) (nf a : Nat) (bs : List Byte) : Word :=
  leWord 64 (patch (natBytes 8 (patchBase s nf (a / 8 * 8)).toNat) (a % 8) (bs.take (8 - a % 8)))

/-! ### Registers that only the command arbiter writes -/

/-- Whether a register is written only through the command arbiter. -/
def arbiterOnly (nf o : Nat) : Bool :=
  if nf = 0xE0 then
    decide (0x1000 ≤ o ∧ o < 0x1020) || decide (0x1100 ≤ o ∧ o < 0x1110) || decide (0x1300 ≤ o ∧ o < 0x1310)
      || decide (0x1400 ≤ o ∧ o < 0x14C0) || decide (0x1500 ≤ o ∧ o < 0x1508) || decide (0x1800 ≤ o ∧ o < 0x1828)
      || decide (0x5400 ≤ o ∧ o < 0x5700) || decide (0x5E00 ≤ o ∧ o < 0x5EC0)
  else if nf = 0xE2 then decide (0x800000 ≤ o ∧ o < 0x801000)
  else decide (nf = 0xE4)

/-- A write to a Keystone register (R157, R158). -/
def writeKeystone (s : State) (o : Nat) (v : Word) : State :=
  if o = 0x1000 then
    let s := if tbit v 1 then { s with runErr := false } else s
    if tbit v 0 then startScan s else stopScan s
  else if s.run || s.stopPending then s
  else match o with
    | 0x1008 => { s with period := v.setWidth 32 }
    | 0x1010 => { s with start := v }
    | 0x1018 => { s with stamp0 := v.setWidth 32 }
    | _ => s

/-- The valid windows of a carry set lie in the durable region and total at most 4 MiB (R222). -/
def carryFits (ws : Map Word) : Bool :=
  let vs := ws.filter fun e => tbit e.2 63
  (vs.all fun e => decide (bits e.2 23 12 + bits e.2 11 0 < 4096)) && decide ((vs.map fun e => bits e.2 11 0 + 1).foldl (· + ·) 0 ≤ 1024)

/-- A write to the pair registers (R222, R490): a nonzero reserved field stays 0 (R6); one that would carry the set past its limit
is ignored (log 15). -/
def writePair (s : State) (o : Nat) (v : Word) : State :=
  if o = 0x08 then
    match bits v 2 0 with
    | 1 => pairAs s 1
    | 2 => pairAs s 2
    | 3 => pairSwitch s
    | 4 => pairLeave s
    | _ => s
  else if 0x10 ≤ o ∧ o < 0x90 then
    let ws := mset s.pair.windows ((o - 0x10) / 8) (BitVec.ofNat 64 (bits v 63 63 * 2 ^ 63 + bits v 23 0))
    if carryFits ws then updPair s fun l => { l with windows := ws } else s
  else if o = 0x90 then updPair s fun l => { l with pol := BitVec.ofNat 64 (bits v 0 0) }
  else s

/-- DCMD of a slot: writes of the host and of the management core come in arbiter order (R429). -/
def isDcmd (o : Nat) : Bool := match dbgWindow o with | some (_, a) => decide (0x3F180 ≤ a) && decide (a < 0x3F200) | none => false

/-- A doubleword write that the arbiter performs as number `q`. -/
def arbWord (s : State) (q : BitVec 32) (nf o : Nat) (v : Word) : State :=
  if nf = 0xE4 then writePair s o v
  else if 0x1000 ≤ o ∧ o < 0x1020 then writeKeystone s o v
  else if 0x1400 ≤ o ∧ o < 0x14C0 then writeClkctl s ((o - 0x1400) / 8) v
  else if 0x1800 ≤ o ∧ o < 0x1820 then
    { s with anonce := setBits s.anonce (64 * ((o - 0x1800) / 8) + 63) (64 * ((o - 0x1800) / 8)) v.toNat }
  else if 0x5400 ≤ o ∧ o < 0x5700 then
    if tbit v 0 then coupleWrite s ((o - 0x5400) / 8) else decoupleWrite s ((o - 0x5400) / 8)
  else if 0x5E00 ≤ o ∧ o < 0x5EC0 then writeCrect s ((o - 0x5E00) / 8) v
  else if 0x6000 ≤ o ∧ o < 0x6600 then writeLpct s ((o - 0x6000) / 8) v
  else if isDcmd o then (match dbgWindow o with | some (p, a) => writeWindow s p a v | none => s)
  else match o with
    | 0x1100 => registerJob s v
    | 0x1108 => deleteJob s (bits v 6 0)
    | 0x1300 => { s with inva := BitVec.ofNat 64 (bits v 47 12 * 2 ^ 12) }
    | 0x1308 => writeInvc s v q
    | 0x1500 => writePset s v
    | 0x1820 => { s with attBusy := true, attCur := q, attNonce := s.anonce }
    | _ => s

/-- The bytes of a write, doubleword by doubleword: offset and bytes. -/
def byWords : Nat → Nat → List Byte → List (Nat × List Byte)
  | 0, _, _ => []
  | fuel + 1, o, bs =>
    if bs = [] then []
    else (o, bs.take (8 - o % 8)) :: byWords fuel (o + (8 - o % 8)) (bs.drop (8 - o % 8))

/-- THE ARBITER PERFORMS A WRITE: number `q`, node field, offset, bytes; node field 0x100 stands for the gate control list
of a port. -/
def arbPerform (s : State) (q : BitVec 32) (nf o : Nat) (bs : List Byte) : State :=
  if nf = 0x100 then writeGcl s q o ((upTo (bs.length / 8)).map fun i => leWord 64 ((bs.drop (8 * i)).take 8))
  else if nf = 0xE2 then
    let g := (o - 0x800000) / 64
    writeGate s q g (leWord 512 (patch (natBytes 64 (gateBits (getGate s g)).toNat) (o % 64) (bs.take (64 - o % 64))))
  else (byWords 64 o bs).foldl (fun s e => arbWord s q nf (e.1 / 8 * 8) (wordAfter s nf e.1 e.2)) s

/-- A write that waits in the arbiter: INVC while an INVAL is in progress, AGO while a report is. -/
def arbBlocked (s : State) (nf o : Nat) : Bool :=
  decide (nf = 0xE0) && ((decide (o / 8 = 0x1308 / 8) && s.invBusy) || (decide (o / 8 = 0x1820 / 8) && s.attBusy))

/-- Writes that wait go on in their order. -/
def arbDrain (s : State) : List (BitVec 32 × Nat × Nat × List Byte) → State
  | [] => { s with arbWait := [] }
  | (q, nf, o, bs) :: r =>
    if arbBlocked s nf o then { s with arbWait := (q, nf, o, bs) :: r } else arbDrain (arbPerform s q nf o bs) r

/-- A WRITE AT THE COMMAND ARBITER takes the next number; writes are performed in that order. -/
def arbiter (s : State) (nf o : Nat) (bs : List Byte) : State :=
  let s := { s with arbSeq := s.arbSeq + 1 }
  arbDrain s (s.arbWait ++ [(s.arbSeq, nf, o, bs)])

/-- A doubleword write of a master to a register of node field 0xE0. -/
def arbiter64 (s : State) (o : Nat) (v : Word) : State := arbiter s 0xE0 o (natBytes 8 v.toNat)

/-! ### Registers written directly -/

/-- A doubleword write to a register of node field 0xE0. -/
def directWord (s : State) (o : Nat) (v : Word) : State :=
  if 0x1600 ≤ o ∧ o < 0x16C0 then writePwrflt s ((o - 0x1600) / 8) v
  else if 0x2400 ≤ o ∧ o < 0x2800 then writeQuota s ((o - 0x2400) / 8) v
  else if 0x4000 ≤ o ∧ o < 0x4600 then beat s ((o - 0x4000) / 8)
  else if 0x6000 ≤ o ∧ o < 0x6600 then writeLpct s ((o - 0x6000) / 8) v
  else match dbgWindow o with
    | some (p, a) => writeWindow s p a v
    | none => match o with
      | 0x3008 => { s with ehost := v.setWidth 32 }
      | 0x3010 => { s with emgt := v.setWidth 32 }
      | 0x3800 => { s with hbper := v.setWidth 32 }
      | 0x3808 => { s with capto := v.setWidth 32 }
      | 0x5000 => faultWake s v
      | 0x5010 => { s with feivl := v.extractLsb' 16 16, felim := v.extractLsb' 0 16 }
      | 0x5020 => { s with memEcc := if bits v 1 0 = 3 then 0 else v.extractLsb' 0 2 }
      | 0x5100 => retireCommand s v
      | 0x5F00 => writeCcmd s v
      | _ => s

/-- A write to node field 0xE0 outside the arbiter. -/
def directStore (s : State) (o : Nat) (bs : List Byte) : State :=
  if 0x100000 ≤ o ∧ o < 0x101000 then writeMortar s ((o - 0x100000) / 32) (o % 32) (bs.take (32 - o % 32))
  else (byWords 64 o bs).foldl (fun s e => directWord s (e.1 / 8 * 8) (wordAfter s 0xE0 e.1 e.2)) s

/-- A store of a slot, a hart or an engine is performed: one to a register of the arbiter has no effect (log 33). -/
def storePerform (s : State) (nf o : Nat) (bs : List Byte) : State :=
  if arbiterOnly nf o || decide (nf ≠ 0xE0) then s else directStore s o bs

/-- A write to the process image by a master: each entry that it touches judges its part (R216); a part in the half that a latch
copies is held (R215). -/
def imageWrite (s : State) (o : Nat) (bs : List Byte) : State :=
  (imageRuns s o o bs).foldl (fun s r =>
    if latchHolds s 0xE2 r.1 then { s with latchHeld := s.latchHeld ++ [r] } else regStore s 0xE2 r.1 r.2) s

/-- A write by the host or the management core: through the arbiter where it applies; one to an offset of 0xE1 that is not assigned is discarded (R226). -/
def masterWrite (s : State) (nf o : Nat) (bs : List Byte) : State :=
  if arbiterOnly nf o then arbiter s nf o bs
  else if nf = 0xE0 ∧ ((0x6000 ≤ o ∧ o < 0x6600) ∨ isDcmd o) then arbiter s nf o bs
  else if nf = 0xE1 then (if o + bs.length ≤ 2 ^ 24 then durStore s o bs false else s)
  else if nf = 0xE2 then imageWrite s o bs
  else if nf = 0xE3 ∨ (hartWindow o).isSome then regStore s nf o bs
  else if nf = 0xE0 then directStore s o bs
  else s

/-! ### Events -/

/-- REGISTER_WRITE (R226): offset `n` mod 2^28 of node field `n` / 2^28, `bytes`; `flag`: a store that its node performs, else a
write of the host or the management core. -/
def execRegisterWrite (s : State) : Host.Outcome State Fault Refusal :=
  .next (
    let nf := s.input.n / 2 ^ 28
    let o := s.input.n % 2 ^ 28
    if s.input.flag then storePerform s nf o s.input.bytes else masterWrite s nf o s.input.bytes)

/-- INVAL_START (R100): a write of `v` to INVC. -/
def execInvalStart (s : State) : Host.Outcome State Fault Refusal := .next (arbiter64 s 0x1308 s.input.v)

/-- INVAL_COMPLETE (R100): the command in progress completes, and writes that waited for it go on. -/
def execInvalComplete (s : State) : Host.Outcome State Fault Refusal := .next (let t := completeInval s; arbDrain t t.arbWait)

/-- GATE_WRITE (R212): the entry of gate `n` in `bytes`. -/
def execGateWrite (s : State) : Host.Outcome State Fault Refusal :=
  .next (arbiter s 0xE2 (0x800000 + s.input.n % 64 * 64) (s.input.bytes.take 64))

/-- GCL_WRITE (R211): the gate control list of port `n` in `bytes`. -/
def execGclWrite (s : State) : Host.Outcome State Fault Refusal := .next (arbiter s 0x100 (s.input.n % 8) s.input.bytes)

/-- ATTEST_REQUEST (R228): a write to AGO. -/
def execAttestRequest (s : State) : Host.Outcome State Fault Refusal := .next (arbiter64 s 0x1820 s.input.v)

/-- ATTEST_COMPLETE (R228): the report stands in AREP, and writes that waited for it go on. -/
def execAttestComplete (s : State) : Host.Outcome State Fault Refusal := .next (let t := completeReport s; arbDrain t t.arbWait)

/-- CLKCTL_WRITE (R229): cluster `n`, value `v`. -/
def execClkctlWrite (s : State) : Host.Outcome State Fault Refusal := .next (arbiter64 s (0x1400 + 8 * (s.input.n % 24)) s.input.v)

/-- PLUMB_SET (R236): a write of `v` to PSET. -/
def execPlumbSet (s : State) : Host.Outcome State Fault Refusal := .next (arbiter64 s 0x1500 s.input.v)

/-- JOB_REGISTER (R160): a write of `v` to JOBREG. -/
def execJobRegister (s : State) : Host.Outcome State Fault Refusal := .next (arbiter64 s 0x1100 s.input.v)

/-- JOB_DELETE (R159): a write of `v` to JOBDEL. -/
def execJobDelete (s : State) : Host.Outcome State Fault Refusal := .next (arbiter64 s 0x1108 s.input.v)

/-- SCAN_START (R158): a write of RUN = 1. -/
def execScanStart (s : State) : Host.Outcome State Fault Refusal := .next (arbiter64 s 0x1000 1)

/-- SCAN_STOP (R158): a write of RUN = 0. -/
def execScanStop (s : State) : Host.Outcome State Fault Refusal := .next (arbiter64 s 0x1000 0)

/-- PAIR_AS_ACTIVE (R222): CMD 1. -/
def execPairAsActive (s : State) : Host.Outcome State Fault Refusal := .next (arbiter s 0xE4 0x08 [1])
/-- PAIR_AS_STANDBY (R222): CMD 2. -/
def execPairAsStandby (s : State) : Host.Outcome State Fault Refusal := .next (arbiter s 0xE4 0x08 [2])
/-- PAIR_SWITCH_OVER (R225): CMD 3. -/
def execPairSwitchOver (s : State) : Host.Outcome State Fault Refusal := .next (arbiter s 0xE4 0x08 [3])
/-- PAIR_UNPAIR (R222): CMD 4. -/
def execPairUnpair (s : State) : Host.Outcome State Fault Refusal := .next (arbiter s 0xE4 0x08 [4])

/-- PAIRCHK_COUPLE (R469): EN = 1 is written for pair `n`; with `flag` the coupling that was started goes on. -/
def execPairchkCouple (s : State) : Host.Outcome State Fault Refusal :=
  .next (if s.input.flag then goCouple s (s.input.n % 96) else arbiter64 s (0x5400 + 8 * (s.input.n % 96)) 1)

/-- PAIRCHK_DECOUPLE (R469): EN = 0 is written for pair `n`; with `flag` the lead has come to its rotation boundary. -/
def execPairchkDecouple (s : State) : Host.Outcome State Fault Refusal :=
  .next (
    let m := s.input.n % 96
    if !s.input.flag then arbiter64 s (0x5400 + 8 * m) 0
    else if !(getPair s m).en && decide ((getPair s m).state = 2) then decoupleWrite s m
    else s)

end Sys2Proof.Machine
end

