-- ==== Sys2Proof/Machine/Hart.lean ====
section
/-! DEFINITION. The scan cores (R136, R218, R219): registers, CSRs, traps, physical memory protection and memory
accesses. The base architecture is RISC-V, which the manual names and does not restate (log 4). -/

namespace Sys2Proof.Machine

/-! ### Registers -/

/-- Register x[r] of a hart; x0 reads 0. -/
def hx (t : Hart) (r : XReg) : Word := if r = 0 then 0 else (mget t.x r.toNat).getD 0
/-- Write register x[r]; x0 discards writes. -/
def setHx (t : Hart) (r : XReg) (v : Word) : Hart := if r = 0 then t else { t with x := mset t.x r.toNat v }
/-- Register f[r] of a hart. -/
def hf (t : Hart) (r : XReg) : Word := (mget t.f r.toNat).getD 0
/-- A CSR held under its number. -/
def hcsr (t : Hart) (n : Nat) : Word := (mget t.csr n).getD 0
/-- Set a CSR held under its number. -/
def setHcsr (t : Hart) (n : Nat) (v : Word) : Hart := { t with csr := mset t.csr n v }

/-- mstatus as held: MIE 3, MPIE 7, MPP 12:11, FS 14:13, MPRV 17, TW 21. -/
def hstatus (t : Hart) : Word := hcsr t 0x300
/-- FS of mstatus: 0 off, 3 dirty. -/
def hFs (t : Hart) : Nat := bits (hstatus t) 14 13
/-- Set FS to dirty. -/
def fsDirty (t : Hart) : Hart := setHcsr t 0x300 (setBits (hstatus t) 14 13 3)
/-- Write register f[r]. -/
def setHf (t : Hart) (r : XReg) (v : Word) : Hart := fsDirty { t with f := mset t.f r.toNat v }
/-- Code of a mode in MPP. -/
def modeCode : Mode → Nat
  | .m => 3
  | .u => 0
/-- Mode of a code in MPP. -/
def modeOf (c : Nat) : Mode := if c = 3 then .m else .u

/-! ### Traps -/

/-- TAKING A TRAP into M mode: the cause, its value, the interrupted pc and mode saved, interrupts off. -/
def hartTrapped (t : Hart) (cause : Nat) (tval : Word) : Hart :=
  let st := hstatus t
  let st := setBits (setBits (setBits st 7 7 (bits st 3 3)) 3 3 0) 12 11 (modeCode t.mode)
  let t := setHcsr (setHcsr (setHcsr (setHcsr t 0x300 st) 0x341 t.pc) 0x342 (BitVec.ofNat 64 cause)) 0x343 tval
  { t with mode := .m, waiting := false, pc := BitVec.ofNat 64 (bits (hcsr t 0x305) 63 2 * 4) }

/-- The issuing hart takes a trap. -/
def htrap {α : Type} (s : State) (cause : Nat) (tval : Word := 0) : Chk α :=
  .error (updHart s s.hartId fun t => hartTrapped t cause tval)

/-- The issuing hart. -/
def hme (s : State) : Hart := getHart s s.hartId

/-- Illegal instruction: mtval holds the word. -/
def hillegal {α : Type} (s : State) : Chk α := htrap s 2 (s.word.setWidth 64)

/-- An instruction of the issuing hart ends: its pc and the count of retirements advance. -/
def hdone (s : State) (npc : Word) (f : Hart → Hart) : State :=
  updHart s s.hartId fun t => let t := f t; { t with pc := npc, retired := t.retired + 1, waiting := false }

/-! ### Physical memory protection: 16 entries over global addresses -/

/-- Configuration byte of entry i. -/
def pmpCfg (t : Hart) (i : Nat) : Nat := bits (hcsr t (0x3A0 + 2 * (i / 8))) (8 * (i % 8) + 7) (8 * (i % 8))
/-- Address register of entry i: address bits 63:2. -/
def pmpAddr (t : Hart) (i : Nat) : Nat := (hcsr t (0x3B0 + i)).toNat % 2 ^ 62
/-- The range of entry i: first address and end; none when the entry is off. -/
def pmpRange (t : Hart) (i : Nat) : Option (Nat × Nat) :=
  match pmpCfg t i / 8 % 4 with
  | 0 => none
  | 1 => some (if i = 0 then 0 else pmpAddr t (i - 1) * 4, pmpAddr t i * 4)
  | 2 => some (pmpAddr t i * 4, pmpAddr t i * 4 + 4)
  | _ =>
    let k := trailingOnes 62 (pmpAddr t i)
    let n := 2 ^ (k + 3)
    some (pmpAddr t i * 4 / n * n, pmpAddr t i * 4 / n * n + n)

/-- The lowest entry that touches an access decides: it must cover the access and grant the kind; M mode is bound only
by locked entries, and without an entry M mode passes and U mode does not. Permission bits: 0 R, 1 W, 2 X. -/
def pmpFrom (t : Hart) (md : Mode) (a n perm : Nat) : List Nat → Bool
  | [] => decide (md = .m)
  | i :: r =>
    match pmpRange t i with
    | none => pmpFrom t md a n perm r
    | some (lo, hi) =>
      if a < hi ∧ lo < a + n then
        decide (lo ≤ a) && decide (a + n ≤ hi)
          && ((decide (md = .m) && decide (pmpCfg t i < 128)) || decide (pmpCfg t i / 2 ^ perm % 2 = 1))
      else pmpFrom t md a n perm r

/-- The PMP check of an access of mode `m`. -/
def pmpOk (t : Hart) (md : Mode) (a : Word) (n perm : Nat) : Bool := pmpFrom t md a.toNat n perm (upTo 16)

/-- Mode of the hart's loads and stores: MPP under MPRV. -/
def dataMode (t : Hart) : Mode := if t.mode = .m && tbit (hstatus t) 17 then modeOf (bits (hstatus t) 12 11) else t.mode

/-! ### Accesses (R218) -/

/-- What an address is to a hart. -/
inductive HartPlace where
  /-- main memory at a physical address -/
  | mem (pa : Nat)
  /-- local memory of a hart -/
  | own (h off : Nat)
  | reg (nf off : Nat)
  | durable (off : Nat)
  | partner
  | nowhere
  deriving DecidableEq, Repr

/-- Find an address of the issuing hart; main memory is translated in the space of job SJOB. -/
def hartPlace (s : State) (a : Word) (rd wr : Bool) : HartPlace × State :=
  let nf := nodeField a
  let off := offset48 a
  if bits a 55 48 ≠ 0 then (.nowhere, s)
  else if nf = 0 then
    if nodeFenced s (homeNode off) then (.nowhere, s)
    else match translate s (homeNode off) (hme s).sjob.toNat off rd wr false false with
    | (.ok pa, s) => (.mem pa, s)
    | (.error _, s) => (.nowhere, s)
  else if nf = 0xE0 then
    match hartWindow off with
    | some (h, o) => (.own h o, s)
    | none => (.reg nf off, s)
  else if nf = 0xE1 then (if off < 2 ^ 24 then .durable off else .nowhere, s)
  else if 0xE2 ≤ nf ∧ nf ≤ 0xE5 then (if edgeFenced s nf then .nowhere else .reg nf off, s)
  else if nf = 0xF0 then (if s.pair.link && !edgeFenced s nf then .partner else .nowhere, s)
  else (.nowhere, s)

/-- A request of the issuing hart to an owning node. -/
def hartReq (s : State) (act : Act) (a : Word) (n : Nat) (data : List Byte) : Req :=
  { src := .hart s.hartId, tag := 0, key := BitVec.ofNat 12 (0xC00 + s.hartId), job := (hme s).sjob.toNat, rsn := 0
    launch := noLaunch, nud := 30, act := act, parts := [{ addr := a, size := n, data := data }] }

/-- Checks before the access: alignment and protection. `k` is 0 load, 1 store or AMO. -/
def hartCheck (s : State) (a : Word) (n k : Nat) : Chk Unit :=
  if a.toNat % n ≠ 0 then htrap s (if k = 0 then 4 else 6) a
  else if !pmpOk (hme s) (dataMode (hme s)) a n k then htrap s (if k = 0 then 5 else 7) a
  else .ok ()

/-- LOAD of `n` bytes; poison raises the access fault. -/
def hartLoad (s : State) (a : Word) (n : Nat) : Chk (List Byte × State) := do
  hartCheck s a n 0
  match hartPlace s a true false with
  | (.mem pa, s) =>
    if blockHeld s pa then .error s
    else
    let (bs, psn, s) := slRead s pa n 30 (hme s).sjob.toNat noLaunch
    if psn then htrap s 5 a else return (bs, s)
  | (.own h o, s) =>
    if o + n ≤ 0x60000 then return (memBytes (getHart s h).mem o n, s) else htrap s 5 a
  | (.durable o, s) =>
    let (bs, psn) := durRead s o n
    if psn then htrap s 5 a else return (bs, s)
  | (.reg nf o, s) =>
    if n = 4 ∨ n = 8 then
      (if latchHolds s nf o then .error s else return regRead s nf o n)
    else htrap s 5 a
  | (.partner, s) =>
    let (k, s) := drawNat s
    return (natBytes n (Config.freeWord k).toNat, s)
  | (.nowhere, s) => htrap s 5 a

/-- The outcome of a node's act for the hart: a held operation leaves the hart at its instruction. -/
def hartDid : Done → Chk State
  | (true, s) => .ok s
  | (false, s) => .error s

/-- Store bytes to a hart's local memory. -/
def ownStore (s : State) (h o : Nat) (bs : List Byte) : State :=
  let s := killResv s (0xE0 * 2 ^ 56 + 0x2000000 + h * 0x80000 + o) bs.length
  updHart s h fun t => { t with mem := memStore t.mem o bs }

/-- STORE of bytes. -/
def hartStore (s : State) (a : Word) (bs : List Byte) : Chk State := do
  hartCheck s a bs.length 1
  match hartPlace s a false true with
  | (.mem pa, s) => if blockHeld s pa then .error s else hartDid (memAct s (homeNode (offset48 a)) (hartReq s .store a bs.length bs) [pa])
  | (.own h o, s) => if o + bs.length ≤ 0x60000 then return ownStore s h o bs else htrap s 7 a
  | (.durable _, s) => hartDid (footAct s (hartReq s .store a bs.length bs))
  | (.reg nf o, s) =>
    if bs.length = 4 ∨ bs.length = 8 then
      (if latchHolds s nf o then .error s else return regStore s nf o bs)
    else htrap s 7 a
  | (.partner, s) => return { s with sent := s.sent ++ [.flit (natBytes 8 a.toNat ++ bs)] }
  | (.nowhere, s) => htrap s 7 a

/-- AMO by its sub-operation of R300: the old bytes. -/
def hartAmo (s : State) (a : Word) (n sub : Nat) (y : Word) : Chk (List Byte × State) := do
  hartCheck s a n 1
  match hartPlace s a true true with
  | (.mem pa, s) =>
    if blockHeld s pa then .error s
    else
    let old := (memPeek s pa n).1
    let s ← hartDid (memAct s (homeNode (offset48 a)) (hartReq s (.amo sub 0) a n (natBytes n y.toNat)) [pa])
    return (old, s)
  | (.own h o, s) =>
    let old := memBytes (getHart s h).mem o n
    if o + n ≤ 0x60000 then return (old, ownStore s h o (natBytes n (amoNew sub n (leNat old) (y.toNat % 2 ^ (8 * n)) 0)))
    else htrap s 7 a
  | (.durable o, s) =>
    let old := (durRead s o n).1
    let s ← hartDid (footAct s (hartReq s (.amo sub 0) a n (natBytes n y.toNat)))
    return (old, s)
  | (_, s) => htrap s 7 a

/-- Where a reservation stands: the physical address of main memory, else the global address. -/
def resvKey (s : State) (a : Word) : Nat :=
  match (hartPlace s a true false).1 with
  | .mem pa => pa
  | _ => a.toNat

/-! ### CSRs (R219) -/

/-- The standard CSRs that read as a constant: misa RV64ACDFIMU with custom instructions, identification and absent
counters. -/
def csrConst (s : State) (n : Nat) : Option Word :=
  if n = 0x301 then some (BitVec.ofNat 64 (2 * 2 ^ 62 + 0x0090112D))
  else if n = 0xF14 then some (BitVec.ofNat 64 s.hartId)
  else if (0xF11 ≤ n ∧ n ≤ 0xF15) ∨ n = 0x344 ∨ n = 0x306 ∨ n = 0x30A ∨ n = 0x320 ∨ (0x323 ≤ n ∧ n ≤ 0x33F)
      ∨ (0xB03 ≤ n ∧ n ≤ 0xB1F) then some 0
  else none

/-- READ OF A CSR; none where the CSR does not exist, or FS is off for a floating-point CSR. -/
def csrRead (s : State) (n : Nat) : Option (Word × State) :=
  let t := hme s
  match csrConst s n with
  | some v => some (v, s)
  | none =>
    if 1 ≤ n ∧ n ≤ 3 then
      if hFs t = 0 then none
      else
        let v := hcsr t 3
        some (BitVec.ofNat 64 (if n = 1 then bits v 4 0 else if n = 2 then bits v 7 5 else bits v 7 0), s)
    else if n = 0x300 then
      some (setBits (setBits (hstatus t) 33 32 2) 63 63 (if hFs t = 3 then 1 else 0), s)
    else if n = 0x7C0 then some (t.sjob.setWidth 64, s)
    else if n = 0x800 then some (t.slim.setWidth 64, s)
    else if n = 0x801 then some (t.sflag.setWidth 64, s)
    else if n = 0xCC0 then some (t.sview.setWidth 64, s)
    else if n = 0xB02 then some (BitVec.ofNat 64 t.retired, s)
    else if n = 0xB00 then let (k, s) := drawNat s; some (Config.freeWord k, s)
    else if n ∈ [0x304, 0x305, 0x340, 0x341, 0x342, 0x343, 0x3A0, 0x3A2] ∨ (0x3B0 ≤ n ∧ n ≤ 0x3BF) then some (hcsr t n, s)
    else none

/-- One byte of a pmpcfg register as written: a locked entry stays, W without R is reserved and keeps the old value. -/
def pmpCfgByte (old new : Nat) : Nat :=
  if 128 ≤ old then old else if new % 4 = 2 then old else new % 32 + new / 128 * 128

/-- An entry's address register is locked: by its own L, or by the next entry's when that is a locked top of range. -/
def pmpAddrLocked (t : Hart) (i : Nat) : Bool :=
  decide (128 ≤ pmpCfg t i) || (decide (i < 15) && decide (128 ≤ pmpCfg t (i + 1)) && decide (pmpCfg t (i + 1) / 8 % 4 = 1))

/-- WRITE OF A CSR of a hart; numbers without a writable field keep their value. -/
def csrPut (t : Hart) (n : Nat) (v : Word) : Hart :=
  match n with
  | 0x001 => fsDirty (setHcsr t 3 (setBits (hcsr t 3) 4 0 v.toNat))
  | 0x002 => fsDirty (setHcsr t 3 (setBits (hcsr t 3) 7 5 v.toNat))
  | 0x003 => fsDirty (setHcsr t 3 (BitVec.ofNat 64 (v.toNat % 256)))
  | 0x300 =>
    let mpp := if bits v 12 11 = 3 then 3 else 0
    setHcsr t 0x300 (BitVec.ofNat 64 (bits v 3 3 * 2 ^ 3 + bits v 7 7 * 2 ^ 7 + mpp * 2 ^ 11 + bits v 14 13 * 2 ^ 13
      + bits v 17 17 * 2 ^ 17 + bits v 21 21 * 2 ^ 21))
  | 0x304 => setHcsr t n (BitVec.ofNat 64 (v.toNat / 2 ^ 3 % 2 * 2 ^ 3 + bits v 7 7 * 2 ^ 7 + bits v 11 11 * 2 ^ 11))
  | 0x305 => setHcsr t n (setBits v 1 0 0)
  | 0x341 => setHcsr t n (setBits v 0 0 0)
  | 0x340 | 0x342 | 0x343 => setHcsr t n v
  | 0x7C0 => { t with sjob := v.setWidth 7 }
  | 0x800 => { t with slim := if 2 ^ 31 < v.toNat % 2 ^ 32 then BitVec.ofNat 32 (2 ^ 31) else v.setWidth 32 }
  | 0x801 => { t with sflag := BitVec.ofNat 14 (bits v 13 8 * 2 ^ 8 + bits v 2 0) }
  | 0xB02 => { t with retired := v.toNat + (2 ^ 64 - 1) }
  | 0x3A0 | 0x3A2 =>
    let old := hcsr t n
    setHcsr t n (BitVec.ofNat 64 (leNat ((upTo 8).map fun i =>
      BitVec.ofNat 8 (pmpCfgByte (bits old (8 * i + 7) (8 * i)) (bits v (8 * i + 7) (8 * i))))))
  | _ =>
    if 0x3B0 ≤ n ∧ n ≤ 0x3BF then
      (if pmpAddrLocked t (n - 0x3B0) then t else setHcsr t n (BitVec.ofNat 64 (v.toNat % 2 ^ 62)))
    else t

end Sys2Proof.Machine
end

