-- ==== Sys2Proof/Machine/RvDecode.lean ====
section
/-! DEFINITION. Instruction words of the base architecture of the scan cores (R218): fields, immediates, and the 32-bit
word that a 16-bit compressed instruction stands for (log 4). -/

namespace Sys2Proof.Machine

/-! ### Fields and immediates -/

def rvOp (w : BitVec 32) : Nat := bits w 6 0
def rvRd (w : BitVec 32) : XReg := w.extractLsb' 7 5
def rvF3 (w : BitVec 32) : Nat := bits w 14 12
def rvRs1 (w : BitVec 32) : XReg := w.extractLsb' 15 5
def rvRs2 (w : BitVec 32) : XReg := w.extractLsb' 20 5
def rvRs3 (w : BitVec 32) : XReg := w.extractLsb' 27 5
def rvF7 (w : BitVec 32) : Nat := bits w 31 25
def immI (w : BitVec 32) : Word := sext64 (w.extractLsb' 20 12)
def immS (w : BitVec 32) : Word := sext64 (w.extractLsb' 25 7 ++ w.extractLsb' 7 5)
def immB (w : BitVec 32) : Word :=
  sext64 (w.extractLsb' 31 1 ++ w.extractLsb' 7 1 ++ w.extractLsb' 25 6 ++ w.extractLsb' 8 4 ++ (0 : BitVec 1))
def immU (w : BitVec 32) : Word := sext64 (w.extractLsb' 12 20 ++ (0 : BitVec 12))
def immJ (w : BitVec 32) : Word :=
  sext64 (w.extractLsb' 31 1 ++ w.extractLsb' 12 8 ++ w.extractLsb' 20 1 ++ w.extractLsb' 21 10 ++ (0 : BitVec 1))

/-! ### Words built from fields -/

def rvR (op rd f3 rs1 rs2 f7 : Nat) : BitVec 32 :=
  BitVec.ofNat 32 (op + rd * 2 ^ 7 + f3 * 2 ^ 12 + rs1 * 2 ^ 15 + rs2 * 2 ^ 20 + f7 * 2 ^ 25)
def rvI (op rd f3 rs1 imm : Nat) : BitVec 32 :=
  BitVec.ofNat 32 (op + rd * 2 ^ 7 + f3 * 2 ^ 12 + rs1 * 2 ^ 15 + imm % 2 ^ 12 * 2 ^ 20)
def rvS (op f3 rs1 rs2 imm : Nat) : BitVec 32 :=
  BitVec.ofNat 32 (op + imm % 32 * 2 ^ 7 + f3 * 2 ^ 12 + rs1 * 2 ^ 15 + rs2 * 2 ^ 20 + imm / 32 % 128 * 2 ^ 25)
/-- A branch of displacement `imm` modulo 2^13. -/
def rvB (f3 rs1 rs2 imm : Nat) : BitVec 32 :=
  BitVec.ofNat 32 (0x63 + imm / 2 ^ 11 % 2 * 2 ^ 7 + imm / 2 % 16 * 2 ^ 8 + f3 * 2 ^ 12 + rs1 * 2 ^ 15 + rs2 * 2 ^ 20
    + imm / 2 ^ 5 % 64 * 2 ^ 25 + imm / 2 ^ 12 % 2 * 2 ^ 31)
/-- JAL of displacement `imm` modulo 2^21. -/
def rvJ (rd imm : Nat) : BitVec 32 :=
  BitVec.ofNat 32 (0x6F + rd * 2 ^ 7 + imm / 2 ^ 12 % 256 * 2 ^ 12 + imm / 2 ^ 11 % 2 * 2 ^ 20 + imm / 2 % 1024 * 2 ^ 21
    + imm / 2 ^ 20 % 2 * 2 ^ 31)

/-- Sign-extend the `n` low bits of a number, modulo 2^21. -/
def sx (n v : Nat) : Nat := if v / 2 ^ (n - 1) % 2 = 1 then v % 2 ^ n + 2 ^ 21 - 2 ^ n else v % 2 ^ n

/-! ### Compressed instructions -/

/-- Fields of a compressed word: the registers rd' and rs1' of 3 bits. -/
def cLow (h : BitVec 16) : Nat := 8 + bits h 4 2
def cHigh (h : BitVec 16) : Nat := 8 + bits h 9 7
def cRd (h : BitVec 16) : Nat := bits h 11 7
def cRs2 (h : BitVec 16) : Nat := bits h 6 2
/-- Immediate of 6 bits, sign-extended. -/
def cImm6 (h : BitVec 16) : Nat := sx 6 (bits h 12 12 * 32 + bits h 6 2)
/-- Shift amount of 6 bits. -/
def cShamt (h : BitVec 16) : Nat := bits h 12 12 * 32 + bits h 6 2
def cImmW (h : BitVec 16) : Nat := bits h 12 10 * 8 + bits h 6 6 * 4 + bits h 5 5 * 64
def cImmD (h : BitVec 16) : Nat := bits h 12 10 * 8 + bits h 6 5 * 64
def cImmJ (h : BitVec 16) : Nat :=
  sx 12 (bits h 12 12 * 2 ^ 11 + bits h 11 11 * 2 ^ 4 + bits h 10 9 * 2 ^ 8 + bits h 8 8 * 2 ^ 10 + bits h 7 7 * 2 ^ 6
    + bits h 6 6 * 2 ^ 7 + bits h 5 3 * 2 + bits h 2 2 * 2 ^ 5)
def cImmB (h : BitVec 16) : Nat :=
  sx 9 (bits h 12 12 * 2 ^ 8 + bits h 11 10 * 2 ^ 3 + bits h 6 5 * 2 ^ 6 + bits h 4 3 * 2 + bits h 2 2 * 2 ^ 5)

/-- Quadrant 0. -/
def expandC0 (h : BitVec 16) : Option (BitVec 32) :=
  match bits h 15 13 with
  | 0 =>
    let imm := bits h 12 11 * 2 ^ 4 + bits h 10 7 * 2 ^ 6 + bits h 6 6 * 4 + bits h 5 5 * 8
    if imm = 0 then none else some (rvI 0x13 (cLow h) 0 2 imm)
  | 1 => some (rvI 0x07 (cLow h) 3 (cHigh h) (cImmD h))
  | 2 => some (rvI 0x03 (cLow h) 2 (cHigh h) (cImmW h))
  | 3 => some (rvI 0x03 (cLow h) 3 (cHigh h) (cImmD h))
  | 5 => some (rvS 0x27 3 (cHigh h) (cLow h) (cImmD h))
  | 6 => some (rvS 0x23 2 (cHigh h) (cLow h) (cImmW h))
  | 7 => some (rvS 0x23 3 (cHigh h) (cLow h) (cImmD h))
  | _ => none

/-- Arithmetic of quadrant 1, funct3 100. -/
def expandC1Alu (h : BitVec 16) : Option (BitVec 32) :=
  let d := cHigh h
  match bits h 11 10 with
  | 0 => some (rvI 0x13 d 5 d (cShamt h))
  | 1 => some (rvI 0x13 d 5 d (cShamt h + 0x400))
  | 2 => some (rvI 0x13 d 7 d (cImm6 h))
  | _ =>
    match bits h 12 12, bits h 6 5 with
    | 0, 0 => some (rvR 0x33 d 0 d (cLow h) 0x20)
    | 0, 1 => some (rvR 0x33 d 4 d (cLow h) 0)
    | 0, 2 => some (rvR 0x33 d 6 d (cLow h) 0)
    | 0, 3 => some (rvR 0x33 d 7 d (cLow h) 0)
    | 1, 0 => some (rvR 0x3B d 0 d (cLow h) 0x20)
    | 1, 1 => some (rvR 0x3B d 0 d (cLow h) 0)
    | _, _ => none

/-- Quadrant 1. -/
def expandC1 (h : BitVec 16) : Option (BitVec 32) :=
  match bits h 15 13 with
  | 0 => some (rvI 0x13 (cRd h) 0 (cRd h) (cImm6 h))
  | 1 => if cRd h = 0 then none else some (rvI 0x1B (cRd h) 0 (cRd h) (cImm6 h))
  | 2 => some (rvI 0x13 (cRd h) 0 0 (cImm6 h))
  | 3 =>
    if cRd h = 2 then
      let imm := sx 10 (bits h 12 12 * 2 ^ 9 + bits h 6 6 * 2 ^ 4 + bits h 5 5 * 2 ^ 6 + bits h 4 3 * 2 ^ 7 + bits h 2 2 * 2 ^ 5)
      if imm = 0 then none else some (rvI 0x13 2 0 2 imm)
    else if cImm6 h = 0 then none
    else some (BitVec.ofNat 32 (0x37 + cRd h * 2 ^ 7 + cImm6 h % 2 ^ 20 * 2 ^ 12))
  | 4 => expandC1Alu h
  | 5 => some (rvJ 0 (cImmJ h))
  | 6 => some (rvB 0 (cHigh h) 0 (cImmB h))
  | _ => some (rvB 1 (cHigh h) 0 (cImmB h))

/-- Quadrant 2. -/
def expandC2 (h : BitVec 16) : Option (BitVec 32) :=
  let d := cRd h
  match bits h 15 13 with
  | 0 => some (rvI 0x13 d 1 d (cShamt h))
  | 1 => some (rvI 0x07 d 3 2 (bits h 12 12 * 32 + bits h 6 5 * 8 + bits h 4 2 * 64))
  | 2 => if d = 0 then none else some (rvI 0x03 d 2 2 (bits h 12 12 * 32 + bits h 6 4 * 4 + bits h 3 2 * 64))
  | 3 => if d = 0 then none else some (rvI 0x03 d 3 2 (bits h 12 12 * 32 + bits h 6 5 * 8 + bits h 4 2 * 64))
  | 4 =>
    if bits h 12 12 = 0 then
      (if cRs2 h = 0 then (if d = 0 then none else some (rvI 0x67 0 0 d 0)) else some (rvR 0x33 d 0 0 (cRs2 h) 0))
    else if cRs2 h = 0 then (if d = 0 then some 0x00100073 else some (rvI 0x67 1 0 d 0))
    else some (rvR 0x33 d 0 d (cRs2 h) 0)
  | 5 => some (rvS 0x27 3 2 (cRs2 h) (bits h 12 10 * 8 + bits h 9 7 * 64))
  | 6 => some (rvS 0x23 2 2 (cRs2 h) (bits h 12 9 * 4 + bits h 8 7 * 64))
  | _ => some (rvS 0x23 3 2 (cRs2 h) (bits h 12 10 * 8 + bits h 9 7 * 64))

/-- The 32-bit word of a compressed instruction; none for a reserved or illegal one. -/
def expandC (h : BitVec 16) : Option (BitVec 32) :=
  match bits h 1 0 with
  | 0 => expandC0 h
  | 1 => expandC1 h
  | 2 => expandC2 h
  | _ => none

end Sys2Proof.Machine
end

