-- ==== Sys2Proof/Machine/RvAlu.lean ====
section
/-! DEFINITION. Integer and floating-point results of the base architecture of the scan cores: RV64IM, Zba, Zbb, F and D
(R218, log 4). -/

namespace Sys2Proof.Machine

/-! ### Integers -/

/-- The low 32 bits, sign-extended. -/
def sx32 (x : Word) : Word := sext64 (x.setWidth 32)
/-- The low 32 bits, zero-extended. -/
def zx32 (x : Word) : Word := (x.setWidth 32).setWidth 64

/-- Signed division toward zero: by zero gives all ones; overflow gives the dividend. -/
def rvDiv {w : Nat} (a b : BitVec w) : BitVec w := if b = 0 then BitVec.allOnes w else BitVec.sdiv a b
def rvDivu {w : Nat} (a b : BitVec w) : BitVec w := if b = 0 then BitVec.allOnes w else BitVec.udiv a b
def rvRem {w : Nat} (a b : BitVec w) : BitVec w := if b = 0 then a else BitVec.srem a b
def rvRemu {w : Nat} (a b : BitVec w) : BitVec w := if b = 0 then a else BitVec.umod a b

/-- Leading zeros of a value of `n` bits, and ones. -/
def clzGo (x : Nat) : Nat → Nat
  | 0 => 0
  | n + 1 => if x / 2 ^ n % 2 = 1 then 0 else clzGo x n + 1
def popN : Nat → Nat → Nat
  | 0, _ => 0
  | n + 1, x => x % 2 + popN n (x / 2)
/-- ORC.B: each byte becomes all ones unless it is 0. -/
def orcB (x : Word) : Word := BitVec.ofNat 64 (leNat ((natBytes 8 x.toNat).map fun b => if b = 0 then 0 else 0xFF))
/-- REV8. -/
def rev8 (x : Word) : Word := BitVec.ofNat 64 (leNat (natBytes 8 x.toNat).reverse)

/-- OP (opcode 0x33) by funct7 and funct3. -/
def rvOpR (f7 f3 : Nat) (a b : Word) : Option Word :=
  let n := b.toNat % 64
  match f7, f3 with
  | 0x00, 0 => some (a + b)
  | 0x20, 0 => some (a - b)
  | 0x00, 1 => some (a <<< n)
  | 0x00, 2 => some (if a.slt b then 1 else 0)
  | 0x00, 3 => some (if a.ult b then 1 else 0)
  | 0x00, 4 => some (a ^^^ b)
  | 0x00, 5 => some (a >>> n)
  | 0x20, 5 => some (a.sshiftRight n)
  | 0x00, 6 => some (a ||| b)
  | 0x00, 7 => some (a &&& b)
  | 0x01, 0 => some (a * b)
  | 0x01, 1 => some (BitVec.ofInt 64 (a.toInt * b.toInt / 2 ^ 64))
  | 0x01, 2 => some (BitVec.ofInt 64 (a.toInt * b.toNat / 2 ^ 64))
  | 0x01, 3 => some (BitVec.ofNat 64 (a.toNat * b.toNat / 2 ^ 64))
  | 0x01, 4 => some (rvDiv a b)
  | 0x01, 5 => some (rvDivu a b)
  | 0x01, 6 => some (rvRem a b)
  | 0x01, 7 => some (rvRemu a b)
  | 0x10, 2 => some (b + (a <<< 1))
  | 0x10, 4 => some (b + (a <<< 2))
  | 0x10, 6 => some (b + (a <<< 3))
  | 0x20, 7 => some (a &&& ~~~b)
  | 0x20, 6 => some (a ||| ~~~b)
  | 0x20, 4 => some (~~~(a ^^^ b))
  | 0x05, 4 => some (if a.slt b then a else b)
  | 0x05, 5 => some (if a.ult b then a else b)
  | 0x05, 6 => some (if a.slt b then b else a)
  | 0x05, 7 => some (if a.ult b then b else a)
  | 0x30, 1 => some (a.rotateLeft n)
  | 0x30, 5 => some (a.rotateRight n)
  | _, _ => none

/-- OP-32 (opcode 0x3B); `rs2` is the field, for ZEXT.H. -/
def rvOpR32 (f7 f3 rs2 : Nat) (a b : Word) : Option Word :=
  let n := b.toNat % 32
  let x : BitVec 32 := a.setWidth 32
  let y : BitVec 32 := b.setWidth 32
  match f7, f3 with
  | 0x00, 0 => some (sx32 (a + b))
  | 0x20, 0 => some (sx32 (a - b))
  | 0x00, 1 => some (sext64 (x <<< n))
  | 0x00, 5 => some (sext64 (x >>> n))
  | 0x20, 5 => some (sext64 (x.sshiftRight n))
  | 0x01, 0 => some (sext64 (x * y))
  | 0x01, 4 => some (sext64 (rvDiv x y))
  | 0x01, 5 => some (sext64 (rvDivu x y))
  | 0x01, 6 => some (sext64 (rvRem x y))
  | 0x01, 7 => some (sext64 (rvRemu x y))
  | 0x04, 0 => some (b + zx32 a)
  | 0x04, 4 => if rs2 = 0 then some ((a.setWidth 16).setWidth 64) else none
  | 0x10, 2 => some (b + (zx32 a <<< 1))
  | 0x10, 4 => some (b + (zx32 a <<< 2))
  | 0x10, 6 => some (b + (zx32 a <<< 3))
  | 0x30, 1 => some (sext64 (x.rotateLeft n))
  | 0x30, 5 => some (sext64 (x.rotateRight n))
  | _, _ => none

/-- OP-IMM (opcode 0x13); `imm` is the 12-bit field. -/
def rvOpI (f3 imm : Nat) (a i : Word) : Option Word :=
  let n := imm % 64
  match f3 with
  | 0 => some (a + i)
  | 2 => some (if a.slt i then 1 else 0)
  | 3 => some (if a.ult i then 1 else 0)
  | 4 => some (a ^^^ i)
  | 6 => some (a ||| i)
  | 7 => some (a &&& i)
  | 1 =>
    if imm / 64 = 0 then some (a <<< n)
    else match imm with
      | 0x600 => some (BitVec.ofNat 64 (clzGo a.toNat 64))
      | 0x601 => some (BitVec.ofNat 64 (clzGo (a.reverse).toNat 64))
      | 0x602 => some (BitVec.ofNat 64 (popN 64 a.toNat))
      | 0x604 => some (sext64 (a.setWidth 8))
      | 0x605 => some (sext64 (a.setWidth 16))
      | _ => none
  | _ =>
    if imm / 64 = 0 then some (a >>> n)
    else if imm / 64 = 0x10 then some (a.sshiftRight n)
    else if imm / 64 = 0x18 then some (a.rotateRight n)
    else if imm = 0x287 then some (orcB a)
    else if imm = 0x6B8 then some (rev8 a)
    else none

/-- OP-IMM-32 (opcode 0x1B). -/
def rvOpI32 (f3 imm : Nat) (a i : Word) : Option Word :=
  let n := imm % 32
  let x : BitVec 32 := a.setWidth 32
  match f3 with
  | 0 => some (sx32 (a + i))
  | 1 =>
    if imm / 32 = 0 then some (sext64 (x <<< n))
    else if imm / 64 = 2 then some (zx32 a <<< (imm % 64))
    else match imm with
      | 0x600 => some (BitVec.ofNat 64 (clzGo x.toNat 32))
      | 0x601 => some (BitVec.ofNat 64 (clzGo (x.reverse).toNat 32))
      | 0x602 => some (BitVec.ofNat 64 (popN 32 x.toNat))
      | _ => none
  | 5 =>
    if imm / 32 = 0 then some (sext64 (x >>> n))
    else if imm / 32 = 0x20 then some (sext64 (x.sshiftRight n))
    else if imm / 32 = 0x30 then some (sext64 (x.rotateRight n))
    else none
  | _ => none

/-- Whether a branch is taken; none for a reserved funct3. -/
def rvBranch (f3 : Nat) (a b : Word) : Option Bool :=
  match f3 with
  | 0 => some (decide (a = b))
  | 1 => some (decide (a ≠ b))
  | 4 => some (a.slt b)
  | 5 => some (!a.slt b)
  | 6 => some (a.ult b)
  | 7 => some (!a.ult b)
  | _ => none

/-! ### Floating point -/

/-- The format of fmt 0 and 1. -/
def rvFmt (f : Nat) : Option FFmt := if f = 0 then some .fp32 else if f = 1 then some .f64 else none

/-- A register as an operand of a format: an unboxed single is the canonical NaN. -/
def unbox (f : FFmt) (x : Word) : Nat :=
  if f = .f64 then x.toNat else if bits x 63 32 = 2 ^ 32 - 1 then bits x 31 0 else f.canonNan
/-- A result in a register: a single is boxed. -/
def box (f : FFmt) (n : Nat) : Word := if f = .f64 then BitVec.ofNat 64 n else BitVec.ofNat 64 (0xFFFFFFFF * 2 ^ 32 + n)

/-- Rounding mode of an instruction; none where it is reserved. -/
def rvRm (t : Hart) (rm : Nat) : Option Nat :=
  let m := if rm = 7 then bits (hcsr t 3) 7 5 else rm
  if m ≤ 4 then some m else none

/-- Conversion to an integer range: NaN gives the largest value. -/
def rvToInt (rm : Nat) (lo hi : Int) (v : Val) : Int × Flags :=
  if v.isNan then (hi, flNV) else toInt rm lo hi v

/-- Range of an integer type by rs2: 0 W, 1 WU, 2 L, 3 LU. -/
def rvRange (k : Nat) : Int × Int :=
  match k with
  | 0 => (-2 ^ 31, 2 ^ 31 - 1)
  | 1 => (0, 2 ^ 32 - 1)
  | 2 => (-2 ^ 63, 2 ^ 63 - 1)
  | _ => (0, 2 ^ 64 - 1)

/-- The source integer of a conversion. -/
def rvIntOf (k : Nat) (x : Word) : Int :=
  match k with
  | 0 => (x.setWidth 32 : BitVec 32).toInt
  | 1 => (x.toNat % 2 ^ 32 : Nat)
  | 2 => x.toInt
  | _ => (x.toNat : Int)

/-- The integer result as a register holds it: a 32-bit one is sign-extended. -/
def rvIntWord (k : Nat) (v : Int) : Word :=
  if k < 2 then sext64 (BitVec.ofInt 32 v) else BitVec.ofInt 64 v

/-- A floating-point comparison by funct3: 0 le, 1 lt, 2 eq. -/
def rvCmp (f3 : Nat) (x y : Val) : Word × Flags :=
  let nan := x.isNan || y.isNan
  let fl : Flags := if f3 = 2 then (if x.isSig || y.isSig then flNV else 0) else if nan then flNV else 0
  let c := cmpVal x y
  let r := if nan then false
    else match f3 with
      | 0 => decide (c ≠ .gt)
      | 1 => decide (c = .lt)
      | _ => decide (c = .eq)
  (if r then 1 else 0, fl)

/-- What an FP instruction writes: a register of either file, and the flags it raises. -/
inductive RvResult where
  | f (v : Word) (fl : Flags)
  | x (v : Word) (fl : Flags)
  deriving DecidableEq, Repr

/-- OP-FP (opcode 0x53) on operands a, b of format `f` and integer operand x; none for an illegal encoding. `f5` is
funct7[6:2], `r2` the rs2 field. -/
def rvOpFp (t : Hart) (f : FFmt) (f5 f3 r2 : Nat) (wa wb xa : Word) : Option RvResult :=
  let a := unbox f wa
  let b := unbox f wb
  let va := valOf f a
  let vb := valOf f b
  let w := f.width
  let res := fun (p : Nat × Flags) => RvResult.f (box f p.1) p.2
  let sgn := fun (n : Nat) => n / 2 ^ (w - 1)
  let withSign := fun (s : Nat) => some (RvResult.f (box f (a % 2 ^ (w - 1) + s % 2 * 2 ^ (w - 1))) 0)
  match f5 with
  | 0x00 => (rvRm t f3).map fun rm => res (addVal f rm va vb)
  | 0x01 => (rvRm t f3).map fun rm => res (addVal f rm va vb.neg)
  | 0x02 => (rvRm t f3).map fun rm => res (mulVal f rm va vb)
  | 0x03 => (rvRm t f3).map fun rm => res (divVal f rm va vb)
  | 0x0B => if r2 ≠ 0 then none else (rvRm t f3).map fun rm => res (sqrtVal f rm va)
  | 0x04 =>
    match f3 with
    | 0 => withSign (sgn b)
    | 1 => withSign (sgn b + 1)
    | 2 => withSign (sgn a + sgn b)
    | _ => none
  | 0x05 => if f3 ≤ 1 then some (res (minMax f (decide (f3 = 1)) a b)) else none
  | 0x08 =>
    match rvFmt r2, rvRm t f3 with
    | some g, some rm => if g = f then none else some (res (roundVal f rm false (valOf g (unbox g wa))))
    | _, _ => none
  | 0x14 => if f3 ≤ 2 then (let (v, fl) := rvCmp f3 va vb; some (.x v fl)) else none
  | 0x18 =>
    if 3 < r2 then none
    else (rvRm t f3).map fun rm =>
      let (lo, hi) := rvRange r2
      let (v, fl) := rvToInt rm lo hi va
      .x (rvIntWord r2 v) fl
  | 0x1A => if 3 < r2 then none else (rvRm t f3).map fun rm => res (ofInt f rm (rvIntOf r2 xa))
  | 0x1C =>
    if r2 ≠ 0 then none
    else if f3 = 0 then some (.x (if f = .f64 then wa else sx32 wa) 0)
    else if f3 = 1 then some (.x (BitVec.ofNat 64 (2 ^ fpClass f a)) 0)
    else none
  | 0x1E => if r2 = 0 ∧ f3 = 0 then some (.f (box f (xa.toNat % 2 ^ w)) 0) else none
  | _ => none

/-- Fused multiply-add by opcode: 0x43 +ab+c, 0x47 +ab−c, 0x4B −ab+c, 0x4F −ab−c. -/
def rvFma (t : Hart) (f : FFmt) (op rm : Nat) (wa wb wc : Word) : Option RvResult :=
  (rvRm t rm).map fun rm =>
    let va := valOf f (unbox f wa)
    let vb := valOf f (unbox f wb)
    let vc := valOf f (unbox f wc)
    let (c, fl) := fmaVal f rm (if op = 0x4B ∨ op = 0x4F then va.neg else va) vb (if op = 0x47 ∨ op = 0x4F then vc.neg else vc)
    .f (box f c) fl

end Sys2Proof.Machine
end

