-- ==== Sys2Proof/Machine/ScanCore.lean ====
section
/-! DEFINITION. The instructions of the scan cores: the base architecture (R218) and the custom instructions (R220,
R221). A meaning acts for the hart `s.hartId`; an illegal word or an access that fails takes the RISC-V trap. -/

namespace Sys2Proof.Machine

/-! ### Groups of the base architecture -/

/-- The instruction writes x[rd] and goes on at `npc`. -/
def hwrite (s : State) (npc : Word) (rd : XReg) (v : Word) : State := hdone s npc fun t => setHx t rd v

/-- The instruction writes x[rd] if it has a result; otherwise its word is illegal. -/
def hresult (s : State) (npc : Word) (rd : XReg) : Option Word → Chk State
  | some v => .ok (hwrite s npc rd v)
  | none => hillegal s

/-- LOAD and LOAD-FP. -/
def rvLoad (s : State) (w : BitVec 32) (npc : Word) : Chk State := do
  let t := hme s
  let a := hx t (rvRs1 w) + immI w
  let f3 := rvF3 w
  if rvOp w = 0x07 then
    if hFs t = 0 ∨ (f3 ≠ 2 ∧ f3 ≠ 3) then hillegal s
    else
      let n := 2 ^ f3
      let (bs, s) ← hartLoad s a n
      return hdone s npc fun t => setHf t (rvRd w) (box (if f3 = 2 then .fp32 else .f64) (leNat bs))
  else if f3 = 7 then hillegal s
  else
    let n := 2 ^ (f3 % 4)
    let (bs, s) ← hartLoad s a n
    let v := BitVec.ofNat 64 (leNat bs)
    return hwrite s npc (rvRd w) (match f3 with
      | 0 => sext64 (v.setWidth 8) | 1 => sext64 (v.setWidth 16) | 2 => sext64 (v.setWidth 32) | _ => v)

/-- STORE and STORE-FP. -/
def rvStore (s : State) (w : BitVec 32) (npc : Word) : Chk State := do
  let t := hme s
  let a := hx t (rvRs1 w) + immS w
  let f3 := rvF3 w
  if rvOp w = 0x27 then
    if hFs t = 0 ∨ (f3 ≠ 2 ∧ f3 ≠ 3) then hillegal s
    else
      let s ← hartStore s a (natBytes (2 ^ f3) (hf t (rvRs2 w)).toNat)
      return hdone s npc id
  else if 3 < f3 then hillegal s
  else
    let s ← hartStore s a (natBytes (2 ^ f3) (hx t (rvRs2 w)).toNat)
    return hdone s npc id

/-- Sub-operation of R300 of an AMO by funct5. -/
def rvAmoSub (f5 : Nat) : Option Nat :=
  match f5 with
  | 0x00 => some 0 | 0x01 => some 8 | 0x04 => some 3 | 0x08 => some 2 | 0x0C => some 1
  | 0x10 => some 4 | 0x14 => some 5 | 0x18 => some 6 | 0x1C => some 7 | _ => none

/-- LR: the load reserves the location. -/
def rvLr (s : State) (w : BitVec 32) (npc : Word) (n : Nat) : Chk State := do
  let a := hx (hme s) (rvRs1 w)
  if rvRs2 w ≠ 0 then hillegal s
  else
    let key := resvKey s a
    let (bs, s) ← hartLoad s a n
    return hdone s npc fun t =>
      { setHx t (rvRd w) (if n = 4 then sx32 (BitVec.ofNat 64 (leNat bs)) else BitVec.ofNat 64 (leNat bs)) with resv := some (key, n) }

/-- SC: stores only under a reservation of the location, and gives 0; without one it gives 1. -/
def rvSc (s : State) (w : BitVec 32) (npc : Word) (n : Nat) : Chk State := do
  let t := hme s
  let a := hx t (rvRs1 w)
  hartCheck s a n 1
  if t.resv = some (resvKey s a, n) then
    let s ← hartStore s a (natBytes n (hx t (rvRs2 w)).toNat)
    return hdone s npc fun t => { setHx t (rvRd w) 0 with resv := none }
  else return hdone s npc fun t => { setHx t (rvRd w) 1 with resv := none }

/-- AMO (opcode 0x2F). -/
def rvAmo (s : State) (w : BitVec 32) (npc : Word) : Chk State := do
  let t := hme s
  let f3 := rvF3 w
  let f5 := rvF7 w / 4
  let n := 2 ^ f3
  if f3 ≠ 2 ∧ f3 ≠ 3 then hillegal s
  else if f5 = 2 then rvLr s w npc n
  else if f5 = 3 then rvSc s w npc n
  else match rvAmoSub f5 with
    | none => hillegal s
    | some sub =>
      let (bs, s) ← hartAmo s (hx t (rvRs1 w)) n sub (hx t (rvRs2 w))
      return hwrite s npc (rvRd w) (if n = 4 then sx32 (BitVec.ofNat 64 (leNat bs)) else BitVec.ofNat 64 (leNat bs))

/-- Zicsr: read, and write unless a set or clear names x0 or immediate 0. -/
def rvCsr (s : State) (w : BitVec 32) (npc : Word) : Chk State :=
  let t := hme s
  let n := bits w 31 20
  let f3 := rvF3 w
  let src := if 4 ≤ f3 then (rvRs1 w).setWidth 64 else hx t (rvRs1 w)
  let writes := decide (f3 % 4 = 1) || decide (rvRs1 w ≠ 0)
  if modeCode t.mode < n / 2 ^ 8 % 4 || (writes && decide (n / 2 ^ 10 = 3)) then hillegal s
  else match csrRead s n with
    | none => hillegal s
    | some (old, s) =>
      let new := match f3 % 4 with
        | 1 => src
        | 2 => old ||| src
        | _ => old &&& ~~~src
      .ok (hdone s npc fun t => setHx (if writes then csrPut t n new else t) (rvRd w) old)

/-- MRET: the mode and interrupt enable come back from mstatus. -/
def hartReturned (t : Hart) : Hart :=
  let st := hstatus t
  let md := modeOf (bits st 12 11)
  let st := setBits (setBits (setBits st 3 3 (bits st 7 7)) 7 7 1) 12 11 0
  let st := if md = .m then st else setBits st 17 17 0
  { setHcsr t 0x300 st with mode := md }

/-- SYSTEM (opcode 0x73). -/
def rvSystem (s : State) (w : BitVec 32) (npc : Word) : Chk State :=
  let t := hme s
  if rvF3 w = 4 then hillegal s
  else if rvF3 w ≠ 0 then rvCsr s w npc
  else match w.toNat with
    | 0x00000073 => htrap s (if t.mode = .m then 11 else 8)
    | 0x00100073 => htrap s 3 t.pc
    | 0x30200073 => if t.mode = .m then .ok (hdone s (hcsr t 0x341) hartReturned) else hillegal s
    | 0x10500073 => if t.mode = .u && tbit (hstatus t) 21 then hillegal s else .ok (hdone s npc id)
    | _ => hillegal s

/-- A floating-point result enters its register file and fflags. -/
def hfp (s : State) (npc : Word) (rd : XReg) : Option RvResult → Chk State
  | none => hillegal s
  | some (.f v fl) => .ok (hdone s npc fun t => setHcsr (setHf t rd v) 3 (hcsr t 3 ||| fl.setWidth 64))
  | some (.x v fl) => .ok (hdone s npc fun t =>
      let t := if fl = 0 then t else fsDirty (setHcsr t 3 (hcsr t 3 ||| fl.setWidth 64))
      setHx t rd v)

/-- OP-FP and the fused multiply-adds. -/
def rvFp (s : State) (w : BitVec 32) (npc : Word) : Chk State :=
  let t := hme s
  match rvFmt (rvF7 w % 4) with
  | none => hillegal s
  | some f =>
    if hFs t = 0 then hillegal s
    else if rvOp w = 0x53 then
      hfp s npc (rvRd w) (rvOpFp t f (rvF7 w / 4) (rvF3 w) (rvRs2 w).toNat (hf t (rvRs1 w)) (hf t (rvRs2 w)) (hx t (rvRs1 w)))
    else hfp s npc (rvRd w) (rvFma t f (rvOp w) (rvF3 w) (hf t (rvRs1 w)) (hf t (rvRs2 w)) (hf t (rvRs3 w)))

/-- BRANCH. -/
def rvBr (s : State) (w : BitVec 32) (npc : Word) : Chk State :=
  let t := hme s
  match rvBranch (rvF3 w) (hx t (rvRs1 w)) (hx t (rvRs2 w)) with
  | none => hillegal s
  | some b => .ok (hdone s (if b then t.pc + immB w else npc) id)

/-- A 32-bit word of the base architecture; `npc` is the address of the next instruction. -/
def rvExec (s : State) (w : BitVec 32) (npc : Word) : Chk State :=
  let t := hme s
  let a := hx t (rvRs1 w)
  let b := hx t (rvRs2 w)
  match rvOp w with
  | 0x37 => .ok (hwrite s npc (rvRd w) (immU w))
  | 0x17 => .ok (hwrite s npc (rvRd w) (t.pc + immU w))
  | 0x6F => .ok (hwrite s (t.pc + immJ w) (rvRd w) npc)
  | 0x67 => if rvF3 w = 0 then .ok (hwrite s ((a + immI w) &&& ~~~1) (rvRd w) npc) else hillegal s
  | 0x63 => rvBr s w npc
  | 0x03 | 0x07 => rvLoad s w npc
  | 0x23 | 0x27 => rvStore s w npc
  | 0x13 => hresult s npc (rvRd w) (rvOpI (rvF3 w) (bits w 31 20) a (immI w))
  | 0x1B => hresult s npc (rvRd w) (rvOpI32 (rvF3 w) (bits w 31 20) a (immI w))
  | 0x33 => hresult s npc (rvRd w) (rvOpR (rvF7 w) (rvF3 w) a b)
  | 0x3B => hresult s npc (rvRd w) (rvOpR32 (rvF7 w) (rvF3 w) (rvRs2 w).toNat a b)
  | 0x0F => if rvF3 w ≤ 1 then .ok (hdone s npc id) else hillegal s
  | 0x2F => rvAmo s w npc
  | 0x73 => rvSystem s w npc
  | 0x43 | 0x47 | 0x4B | 0x4F | 0x53 => rvFp s w npc
  | _ => hillegal s

/-- SCAN_CORE_BASE_INSTRUCTION (R218): the word `s.word` of the base architecture, 16 or 32 bits long. The stores of a
hart are performed as they execute, so FENCE has nothing to wait for (R136, log 16). -/
def execScanCoreBaseInstruction (s : State) : Host.Outcome State Fault Refusal := finish
  (if bits s.word 1 0 = 3 then rvExec s s.word ((hme s).pc + 4)
   else match expandC (s.word.setWidth 16) with
    | some w => rvExec s w ((hme s).pc + 2)
    | none => hillegal s)

/-! ### Custom instructions (R220, R221) -/

/-- Address of the instruction after a custom one. -/
def hnext (s : State) : Word := (hme s).pc + 4
/-- SVIEW is valid. -/
def viewValid (t : Hart) : Bool := tbit t.sview 32
/-- Stamp of SVIEW. -/
def viewStamp (t : Hart) : BitVec 32 := t.sview.setWidth 32
/-- IMLW's age check and load, in the half of a valid view. -/
def imlwRead (s : State) (rd : XReg) (ea : Nat) : Chk State :=
  let t := hme s
  let h := (viewStamp t).toNat
  let a := imageAddr (inHalf h + ea)
  if !pmpOk t (dataMode t) a 4 0 || edgeFenced s 0xE2 then htrap s 5 a
  else if latchHolds s 0xE2 (inHalf h + ea) then .error s
  else
    let g := coveringGate s 0 ea
    let stamp := match g with | some g => imgWord s (inHalf h + 0x40 + 4 * g) | none => viewStamp t
    if t.slim.toNat < (s.stamp - stamp).toNat then
      -- outside every gate the gate number is not stated: a free value (log 6)
      let (k, s) := match g with | some g => (g, s) | none => drawNat s
      .ok (hdone s (hnext s) fun t => setHx { t with sflag := BitVec.ofNat 14 (k % 64 * 2 ^ 8 + bits t.sflag 2 1 * 2 + 1) } rd 0)
    else .ok (hwrite s (hnext s) rd (sext64 (imgWord s (inHalf h + ea))))

/-- IMLW (R221). -/
def execImlw (rd rs1 : XReg) (imm : BitVec 12) (s : State) : Host.Outcome State Fault Refusal := finish
  (let t := hme s
   let ea := hx t rs1 + sext64 imm
   if 0x200000 ≤ ea.toNat then htrap s 5 ea
   else if ea.toNat % 4 ≠ 0 then htrap s 4 ea
   else if !viewValid t || decide (2 ≤ (s.stamp - viewStamp t).toNat) then
     .ok (hdone s (hnext s) fun t => setHx { t with sflag := t.sflag ||| 2 } rd 0)
   else imlwRead s rd ea.toNat)

/-- OMSW (R221). -/
def execOmsw (rs2 rs1 : XReg) (imm : BitVec 12) (s : State) : Host.Outcome State Fault Refusal := finish
  (let t := hme s
   let ea := hx t rs1 + sext64 imm
   let late := Except.ok (hdone s (hnext s) fun t => { t with sflag := t.sflag ||| 4 })
   if ea.toNat < 0x1000 ∨ 0x100000 ≤ ea.toNat then htrap s 7 ea
   else if ea.toNat % 4 ≠ 0 then htrap s 6 ea
   else if !viewValid t || decide (viewStamp t ≠ s.stamp) then late
   else
     let o := outHalf s.stamp.toNat + ea.toNat
     if !pmpOk t (dataMode t) (imageAddr o) 4 1 || edgeFenced s 0xE2 then htrap s 7 (imageAddr o)
     else if (match coveringGate s 1 ea.toNat with | some g => (getGate s g).frozen | none => false) then late
     else .ok (hdone (imageStore s o (natBytes 4 (hx t rs2).toNat) false) (hnext s) id))

/-- The half whose latch completed last. -/
def latchedHalf (s : State) : Nat := if s.latching then s.stamp.toNat + 1 else s.stamp.toNat

/-- WSCAN (R221): the hart stays at the instruction until a latch completes. -/
def execWscan (rd : XReg) (s : State) : Host.Outcome State Fault Refusal := .next
  (let t := hme s
   if !t.waiting then updHart s s.hartId fun t => { t with waiting := true, latchSeen := s.latches }
   else if s.latches ≤ t.latchSeen then s
   else
     let v := imgWord s (inHalf (latchedHalf s))
     hdone s (hnext s) fun t => setHx { t with sview := BitVec.ofNat 33 (2 ^ 32 + v.toNat) } rd (v.setWidth 64))

/-- The point of a hart's interface (R153). -/
def hartPoint (s : State) : Nat := 0x400 + s.hartId

/-- RTIME (R221): TIME is recorded for job SJOB; in replay the record gives the value (R355). -/
def execRtime (rd : XReg) (s : State) : Host.Outcome State Fault Refusal := .next
  (let job := (hme s).sjob.toNat
   let p := hartPoint s
   let now := BitVec.ofNat 64 s.plumb
   let v := if mortarMode s job = 2 then
       match handedTo (getMortar s job) p with
       | r :: _ => if recType r = 8 then recData r else now
       | [] => now
     else now
   let x : Resolution := { type := 8, arg := 0, agent := BitVec.ofNat 12 (0xC00 + s.hartId), data := v }
   match mortarGate s job p true x with
   | (.go, s) => hwrite (mortarPut s job p x) (hnext s) rd v
   | (.hold, s) => s
   | (.diverge, s) => stopPoint s job p (0xC00 + s.hartId))

/-- SAGE (R221). -/
def execSage (rd rs1 rs2 : XReg) (s : State) : Host.Outcome State Fault Refusal := finish
  (let t := hme s
   let age := s.stamp - (hx t rs1).setWidth 32
   if 2 ^ 31 < (hx t rs2).toNat then hillegal s
   else .ok (hwrite s (hnext s) rd (if age.toNat ≤ (hx t rs2).toNat then age.setWidth 64 else BitVec.allOnes 64)))

/-- SCQ (R221): an instance outside any phase takes its start time and 1.2 GHz (R168). -/
def execScq (rd rs1 : XReg) (s : State) : Host.Outcome State Fault Refusal := .next
  (let x := hx (hme s) rs1
   let job := (hme s).sjob.toNat
   if bits x 63 16 ≠ 0 then hwrite s (hnext s) rd 2
   else
     let closed := match findJob s job with | some j => j.cancelled | none => true
     let gen := s.nextGen
     let (st, inst, s) := startGraph s job (bits x 15 0) none (BitVec.ofNat 12 (0xC00 + s.hartId)) s.plumb 20 closed
     hwrite s (hnext s) rd (BitVec.ofNat 64 (if st = 0 then gen.toNat * 2 ^ 16 + inst * 2 ^ 8 else st)))

/-- SCW (R221): the instance number in bits 7:0, the generation in bits 23:8. -/
def execScw (rd rs1 : XReg) (s : State) : Host.Outcome State Fault Refusal := .next
  (let x := hx (hme s) rs1
   match namedGraph s (x <<< 8) with
   | none => hwrite s (hnext s) rd 3
   | some g =>
     if g.st = .running then updHart s s.hartId fun t => { t with waiting := true }
     else hwrite s (hnext s) rd (graphResult g))

end Sys2Proof.Machine
end

