-- ==== Sys2Proof/Machine/Vector.lean ====
section
/-! DEFINITION. Vector instructions (R316 to R335). Lanes are handled as numbers. -/

namespace Sys2Proof.Machine

/-! ### Lanes -/

/-- Lane `i` of width `w` as a number (R316). -/
def laneNat (w : Nat) (x : V512) (i : Nat) : Nat := x.toNat / 2 ^ (w * i) % 2 ^ w

/-- Numbers packed in fields of width `w`, the first lowest. -/
def packNat (w : Nat) : List Nat → Nat
  | [] => 0
  | x :: r => x % 2 ^ w + 2 ^ w * packNat w r

/-- A register from its lanes. -/
def vecOf (w : Nat) (xs : List Nat) : V512 := BitVec.ofNat 512 (packNat w xs)

/-- Lanes of a type (R316). -/
def laneCount (ty : VTy) : Nat := 512 / ty.width

/-- Format of a float or storage-float lane type. -/
def vFmt : VTy → FFmt
  | .f32 => .fp32
  | .bf16 => .bf16
  | .f16 => .f16
  | .fp8a => .fp8a
  | .fp8b => .fp8b
  | .i32 | .i16 | .i8 => .fp32

/-- A lane read as two's complement. -/
def laneInt (w x : Nat) : Int := if 2 ^ (w - 1) ≤ x then (x : Int) - 2 ^ w else (x : Int)
/-- An integer as a lane of width `w`, wrapping. -/
def intLane (w : Nat) (v : Int) : Nat := (v % 2 ^ w).toNat

/-- The lanes of a masked operation and the OR of the flags of its active lanes (R317). -/
def lanesGo (w : Nat) (mk : Word) (o : V512) (f : Nat → Nat × Flags) : List Nat → List Nat × Flags
  | [] => ([], 0)
  | i :: r =>
    let (xs, fl) := lanesGo w mk o f r
    if tbit mk i then let (x, g) := f i; (x :: xs, g ||| fl) else (laneNat w o i :: xs, fl)

/-- The result of a masked lane operation (R317). -/
def laneOp (w : Nat) (mk : Word) (o : V512) (f : Nat → Nat × Flags) : V512 × Flags :=
  let (xs, fl) := lanesGo w mk o f (upTo (512 / w))
  (vecOf w xs, fl)

/-- THE GENERIC VECTOR INSTRUCTION (R317): sources, then the merge operand when a mask is named; lane results in
active lanes; one write of vd with the OR of every poison flag. -/
def vecInstr (s : State) (d : VReg) (srcs : List VReg) (m : MReg) (w : Nat) (ok : Bool)
    (f : Nat → Got → Nat → Nat × Flags) : Host.Outcome State Fault Refusal := finish do
  let mk := mReg (me s) m.toNat
  let rm := rmOf (me s)
  let (g, s) ← gather s (srcs.map .v ++ if m = 0 then [] else [.v d]) [] 0 ok
  let o := if m = 0 then 0 else g.v srcs.length
  let (v, fl) := laneOp w mk o (f rm g)
  return retire s g (.putV d v g.psn :: flagWr fl) (npcOf s)

/-- A lane operation of two sources: float lanes by `ff`, integer lanes by `fi`. -/
def vec2 (s : State) (d a b : VReg) (m : MReg) (ty : VTy) (rounds : Bool) (ff : FFmt → Nat → Nat → Nat → Nat × Flags)
    (fi : Nat → Nat → Nat → Nat) : Host.Outcome State Fault Refusal :=
  let w := ty.width
  vecInstr s d [a, b] m w (!(rounds && ty.isF) || rmOk (me s)) fun rm g i =>
    let x := laneNat w (g.v 0) i
    let y := laneNat w (g.v 1) i
    if ty.isF then ff (vFmt ty) rm x y else (fi w x y, 0)

/-- A float operation on lane encodings from one on values. -/
def onVals (op : FFmt → Nat → Val → Val → Nat × Flags) (f : FFmt) (rm x y : Nat) : Nat × Flags :=
  op f rm (valOf f x) (valOf f y)

def execVadd (d a b : VReg) (m : MReg) (ty : VTy) (s : State) :=
  vec2 s d a b m ty true (onVals addVal) fun w x y => (x + y) % 2 ^ w
def execVsub (d a b : VReg) (m : MReg) (ty : VTy) (s : State) :=
  vec2 s d a b m ty true (onVals fun f rm x y => addVal f rm x y.neg) fun w x y => (x + (2 ^ w - y)) % 2 ^ w
def execVmul (d a b : VReg) (m : MReg) (ty : VTy) (s : State) :=
  vec2 s d a b m ty true (onVals mulVal) fun w x y => x * y % 2 ^ w
def execVmin (d a b : VReg) (m : MReg) (ty : VTy) (s : State) :=
  vec2 s d a b m ty false (fun f _ x y => minMax f false x y) fun w x y => if laneInt w y < laneInt w x then y else x
def execVmax (d a b : VReg) (m : MReg) (ty : VTy) (s : State) :=
  vec2 s d a b m ty false (fun f _ x y => minMax f true x y) fun w x y => if laneInt w x < laneInt w y then y else x

/-- A fused lane operation (R318): the product negated when `np`, the addend when `nz`. -/
def vecFused (s : State) (d a b c : VReg) (m : MReg) (ty : VTy) (np nz : Bool) : Host.Outcome State Fault Refusal :=
  let w := ty.width
  let f := vFmt ty
  vecInstr s d [a, b, c] m w (!ty.isF || rmOk (me s)) fun rm g i =>
    let x := laneNat w (g.v 0) i
    let y := laneNat w (g.v 1) i
    let z := laneNat w (g.v 2) i
    if ty.isF then
      let vx := valOf f x
      let vz := valOf f z
      fmaVal f rm (if np then vx.neg else vx) (valOf f y) (if nz then vz.neg else vz)
    else
      let p : Int := (x : Int) * y
      (intLane w ((if np then -p else p) + (if nz then -(z : Int) else (z : Int))), 0)

def execVfma (d a b c : VReg) (m : MReg) (ty : VTy) (s : State) := vecFused s d a b c m ty false false
def execVfms (d a b c : VReg) (m : MReg) (ty : VTy) (s : State) := vecFused s d a b c m ty false true
def execVfnma (d a b c : VReg) (m : MReg) (ty : VTy) (s : State) := vecFused s d a b c m ty true true

/-- A lane operation of one source without flags. -/
def vec1 (s : State) (d a : VReg) (m : MReg) (ty : VTy) (f : Nat → Nat → Nat) : Host.Outcome State Fault Refusal :=
  let w := ty.width
  vecInstr s d [a] m w true fun _ g i => (f w (laneNat w (g.v 0) i), 0)

/-- Whether a type's lanes are integers. -/
def isInt (ty : VTy) : Bool := ty.isI

def execVabs (d a : VReg) (m : MReg) (ty : VTy) (s : State) := vec1 s d a m ty fun w x =>
  if isInt ty then intLane w (laneInt w x).natAbs else x % 2 ^ (w - 1)
def execVneg (d a : VReg) (m : MReg) (ty : VTy) (s : State) := vec1 s d a m ty fun w x =>
  if isInt ty then intLane w (-laneInt w x) else x ^^^ 2 ^ (w - 1)

/-- A bit operation of two sources (R318). -/
def vecBits (s : State) (d a b : VReg) (m : MReg) (ty : VTy) (f : Nat → Nat → Nat → Nat) : Host.Outcome State Fault Refusal :=
  let w := ty.width
  vecInstr s d [a, b] m w true fun _ g i => (f w (laneNat w (g.v 0) i) (laneNat w (g.v 1) i), 0)

def execVand (d a b : VReg) (m : MReg) (ty : VTy) (s : State) := vecBits s d a b m ty fun _ x y => x &&& y
def execVor (d a b : VReg) (m : MReg) (ty : VTy) (s : State) := vecBits s d a b m ty fun _ x y => x ||| y
def execVxor (d a b : VReg) (m : MReg) (ty : VTy) (s : State) := vecBits s d a b m ty fun _ x y => x ^^^ y
def execVsll (d a b : VReg) (m : MReg) (ty : VTy) (s : State) := vecBits s d a b m ty fun w x y => x * 2 ^ (y % w) % 2 ^ w
def execVsrl (d a b : VReg) (m : MReg) (ty : VTy) (s : State) := vecBits s d a b m ty fun w x y => x / 2 ^ (y % w)
def execVsra (d a b : VReg) (m : MReg) (ty : VTy) (s : State) := vecBits s d a b m ty fun w x y =>
  intLane w (laneInt w x / 2 ^ (y % w))

/-! ### Functions and conversions (R319 to R325) -/

/-- A fixed function of R81 on f32 lanes. -/
def vecFixed (s : State) (d a : VReg) (m : MReg) (f : Nat → Nat × Flags) : Host.Outcome State Fault Refusal :=
  vecInstr s d [a] m 32 true fun _ g i => f (laneNat 32 (g.v 0) i)

def execVexp2 (d a : VReg) (m : MReg) (_ : VTy) (s : State) := vecFixed s d a m vexp2
def execVlog2 (d a : VReg) (m : MReg) (_ : VTy) (s : State) := vecFixed s d a m vlog2
def execVrcp (d a : VReg) (m : MReg) (_ : VTy) (s : State) := vecFixed s d a m vrcp
def execVrsq (d a : VReg) (m : MReg) (_ : VTy) (s : State) := vecFixed s d a m vrsq
def execVsqrt (d a : VReg) (m : MReg) (_ : VTy) (s : State) : Host.Outcome State Fault Refusal :=
  vecInstr s d [a] m 32 (rmOk (me s)) fun rm g i => sqrtVal .fp32 rm (valOf .fp32 (laneNat 32 (g.v 0) i))
def execVdiv (d a b : VReg) (m : MReg) (ty : VTy) (s : State) := vec2 s d a b m ty true (onVals divVal) fun _ x _ => x

/-- A format that VCVT names: a float format, or an integer of a width, signed or not (R320). -/
inductive AnyFmt where
  | flt (f : FFmt)
  | int (w : Nat) (signed : Bool)
  deriving DecidableEq, Repr

/-- Format of a lane type. -/
def vAny : VTy → AnyFmt
  | .f32 => .flt .fp32
  | .bf16 => .flt .bf16
  | .f16 => .flt .f16
  | .fp8a => .flt .fp8a
  | .fp8b => .flt .fp8b
  | .i32 => .int 32 true
  | .i16 => .int 16 true
  | .i8 => .int 8 true

/-- Format of a packed format code (R320). -/
def pAny : PFmt → AnyFmt
  | .f32 => .flt .fp32
  | .bf16 => .flt .bf16
  | .f16 => .flt .f16
  | .fp8a => .flt .fp8a
  | .fp8b => .flt .fp8b
  | .i32 => .int 32 true
  | .i16 => .int 16 true
  | .i8 => .int 8 true
  | .fp6a => .flt .fp6a
  | .fp6b => .flt .fp6b
  | .fp4 => .flt .fp4
  | .i4 => .int 4 true
  | .n8 => .int 8 false
  | .n4 => .int 4 false

/-- Float format of a packed format; integers give fp4, which no rule uses. -/
def pFmt (c : PFmt) : FFmt :=
  match pAny c with
  | .flt f => f
  | .int _ _ => .fp4

/-- Range of an integer format (R67). -/
def intLo (w : Nat) (signed : Bool) : Int := if signed then -(2 ^ (w - 1) : Int) else 0
def intHi (w : Nat) (signed : Bool) : Int := if signed then 2 ^ (w - 1) - 1 else 2 ^ w - 1
/-- Value of an integer encoding. -/
def intVal (w : Nat) (signed : Bool) (x : Nat) : Int := if signed then laneInt w x else (x : Int)

/-- `cvt(v, S, D)` (R321). An infinity converted into its own format is kept: R321 gives the exact value for an equal width (log 77). -/
def cvt (src dst : AnyFmt) (rm : Nat) (nsat : Bool) (x : Nat) : Nat × Flags :=
  match src, dst with
  | .flt f, .flt g => if f = g ∧ valOf f x = .inf (valOf f x).isNeg then (x, 0) else roundVal g rm nsat (valOf f x)
  | .flt f, .int w sg => let (v, fl) := toInt rm (intLo w sg) (intHi w sg) (valOf f x); (intLane w v, fl)
  | .int w sg, .flt g => let v := intVal w sg x; roundMag g rm nsat (decide (v < 0)) (magOf v.natAbs 0)
  | .int w sg, .int w2 sg2 => (intLane w2 (clampInt (intLo w2 sg2) (intHi w2 sg2) (intVal w sg x)).1, 0)

/-- Element `i` of part `p` of a register, elements of width `w`, `n` elements in a part (R321). -/
def partElem (w n p : Nat) (x : V512) (i : Nat) : Nat := x.toNat / 2 ^ (w * (n * p + i)) % 2 ^ w

/-- A register with part `p` replaced by elements of width `w` (R321). -/
def withPart (w n p : Nat) (x : V512) (es : List Nat) : V512 :=
  BitVec.ofNat 512 (x.toNat - x.toNat / 2 ^ (w * n * p) % 2 ^ (w * n) * 2 ^ (w * n * p) + packNat w es * 2 ^ (w * n * p))

/-- Elements of a masked pack: active ones converted, the others kept from the merge operand. -/
def packGo (mk : Word) (keep : Nat → Nat) (f : Nat → Nat × Flags) : List Nat → List Nat × Flags
  | [] => ([], 0)
  | i :: r =>
    let (xs, fl) := packGo mk keep f r
    if tbit mk i then let (x, g) := f i; (x :: xs, g ||| fl) else (keep i :: xs, fl)

/-- VCVT (R321). -/
def execVcvt (d a : VReg) (unpack : Bool) (part : BitVec 3) (c : PFmt) (m : MReg) (ty : VTy) (s : State) :
    Host.Outcome State Fault Refusal :=
  let w := ty.width
  let n := laneCount ty
  let wc := c.width
  let nsat := nsatOf (me s)
  if unpack then
    vecInstr s d [a] m w (rmOk (me s)) fun rm g i => cvt (pAny c) (vAny ty) rm nsat (partElem wc n part.toNat (g.v 0) i)
  else finish do
    let mk := mReg (me s) m.toNat
    let rm := rmOf (me s)
    let (g, s) ← gather s [.v a, .v d] [] 0 (rmOk (me s))
    let (es, fl) := packGo mk (partElem wc n part.toNat (g.v 1))
      (fun i => cvt (vAny ty) (pAny c) rm nsat (laneNat w (g.v 0) i)) (upTo n)
    return retire s g (.putV d (withPart wc n part.toNat (g.v 1) es) g.psn :: flagWr fl) (npcOf s)

/-- Stochastic packing of active elements in rising order (R322). -/
def spackGo (f : FFmt) (nsat : Bool) (mk : Word) (keep : Nat → Nat) (val : Nat → Val) :
    List Nat → BitVec 32 → List Nat × Flags × BitVec 32
  | [], l => ([], 0, l)
  | i :: r, l =>
    if tbit mk i then
      let (x, fl, l) := sroundVal f nsat (val i) l
      let (xs, fl2, l) := spackGo f nsat mk keep val r l
      (x :: xs, fl ||| fl2, l)
    else
      let (xs, fl, l) := spackGo f nsat mk keep val r l
      (keep i :: xs, fl, l)

/-- The write of a stepped LFSR. -/
def lfsrWr (old new : BitVec 32) : List Wr := if old = new then [] else [.scr 7 (new.setWidth 64)]

/-- VCVTS (R322). -/
def execVcvts (d a : VReg) (part : BitVec 3) (c : PFmt) (m : MReg) (ty : VTy) (s : State) :
    Host.Outcome State Fault Refusal := finish do
  let mk := mReg (me s) m.toNat
  let n := laneCount ty
  let lf := (me s).lfsr
  let nsat := nsatOf (me s)
  let (g, s) ← gather s [.v a, .v d] []
  let (es, fl, l) := spackGo (pFmt c) nsat mk (partElem c.width n part.toNat (g.v 1))
    (fun i => valOf (vFmt ty) (laneNat ty.width (g.v 0) i)) (upTo n) lf
  return retire s g (.putV d (withPart c.width n part.toNat (g.v 1) es) g.psn :: (lfsrWr lf l ++ flagWr fl)) (npcOf s)

/-- VQNT (R323): reads va, va + 1 for f32, vb, vd. -/
def execVqnt (d a b : VReg) (c : PFmt) (part : BitVec 3) (ty : VTy) (s : State) : Host.Outcome State Fault Refusal :=
  finish do
    let rm := rmOf (me s)
    let nsat := nsatOf (me s)
    let wide := decide (ty = .f32)
    let (g, s) ← gather s (if wide then [.v a, .v (a + 1), .v b, .v d] else [.v a, .v b, .v d]) [] 0 (rmOk (me s))
    let k := if wide then 1 else 0
    let w := ty.width
    let vals := (upTo 32).map fun i =>
      valOf (vFmt ty) (if wide && decide (16 ≤ i) then laneNat w (g.v 1) (i - 16) else laneNat w (g.v 0) i)
    let (x, es, fl, _) := quantise (pFmt c) rm nsat false vals 1
    let sc := setBits (g.v (k + 1)) (8 * part.toNat + 7) (8 * part.toNat) x
    return retire s g (.putV d (withPart c.width 32 part.toNat (g.v (k + 2)) es) g.psn :: .putV b sc g.psn :: flagWr fl) (npcOf s)

/-- VDQNT (R324). -/
def execVdqnt (d a b : VReg) (c : PFmt) (part : BitVec 3) (ty : VTy) (s : State) : Host.Outcome State Fault Refusal :=
  finish do
    let rm := rmOf (me s)
    let (g, s) ← gather s [.v a, .v b] [] 0 (rmOk (me s))
    let x := laneNat 8 (g.v 1) part.toNat
    let f := vFmt ty
    let elem := fun (i : Nat) =>
      if x = 0xFF then (f.canonNan, (0 : Flags))
      else roundVal f rm false (blockVal (pFmt c) x (partElem c.width 32 part.toNat (g.v 0) i))
    let fl := (upTo 32).foldl (fun (fl : Flags) i => fl ||| (elem i).2) 0
    let ws : List Wr :=
      if ty = .f32 then
        [.putV d (vecOf 32 ((upTo 16).map fun i => (elem i).1)) g.psn,
         .putV (d + 1) (vecOf 32 ((upTo 16).map fun i => (elem (i + 16)).1)) g.psn]
      else [.putV d (vecOf 16 ((upTo 32).map fun i => (elem i).1)) g.psn]
    return retire s g (ws ++ flagWr fl) (npcOf s)

/-- VCLMP (R325): minimumNumber(maximumNumber(x, y), z). -/
def execVclmp (d a b c : VReg) (m : MReg) (ty : VTy) (s : State) : Host.Outcome State Fault Refusal :=
  let w := ty.width
  vecInstr s d [a, b, c] m w true fun _ g i =>
    let x := laneNat w (g.v 0) i
    let y := laneNat w (g.v 1) i
    let z := laneNat w (g.v 2) i
    if ty.isF then
      let (p, f1) := minMax (vFmt ty) true x y
      let (q, f2) := minMax (vFmt ty) false p z
      (q, f1 ||| f2)
    else
      let p := if laneInt w x < laneInt w y then y else x
      (if laneInt w z < laneInt w p then z else p, 0)

/-- VSCL (R325): val(x) × 2^n. -/
def execVscl (d a b : VReg) (m : MReg) (ty : VTy) (s : State) : Host.Outcome State Fault Refusal :=
  let w := ty.width
  vecInstr s d [a, b] m w (rmOk (me s)) fun rm g i =>
    roundVal (vFmt ty) rm false ((valOf (vFmt ty) (laneNat w (g.v 0) i)).scale (laneInt w (laneNat w (g.v 1) i)))

/-- Bit of a VCMP lane with its flags (R326). -/
def vcmpLane (cond : VCond) (ty : VTy) (x y : Nat) : Bool × Flags :=
  let w := ty.width
  if isInt ty then
    (match cond with
      | .eq => decide (x = y) | .ne => decide (x ≠ y)
      | .lt => decide (laneInt w x < laneInt w y) | .le => decide (laneInt w x ≤ laneInt w y)
      | .ltu => decide (x < y) | .leu => decide (x ≤ y), 0)
  else
    let vx := valOf (vFmt ty) x
    let vy := valOf (vFmt ty) y
    let nan := vx.isNan || vy.isNan
    let sig := vx.isSig || vy.isSig
    let o := cmpVal vx vy
    match cond with
    | .eq => (!nan && decide (o = .eq), if sig then flNV else 0)
    | .ne => (nan || decide (o ≠ .eq), if sig then flNV else 0)
    | .lt | .ltu => (!nan && decide (o = .lt), if nan then flNV else 0)
    | .le | .leu => (!nan && decide (o ≠ .gt), if nan then flNV else 0)

/-- VCMP (R326): poison faults; the mask written is m(mask)[i] and cond. -/
def execVcmp (k : MReg) (a b : VReg) (cond : VCond) (m : MReg) (ty : VTy) (s : State) : Host.Outcome State Fault Refusal :=
  finish do
    let w := ty.width
    let mk := mReg (me s) m.toNat
    let (g, s) ← gather s [.v a, .v b] []
    noPoison s g
    let res := ((upTo (laneCount ty)).filter fun i => tbit mk i).map fun i =>
      (i, vcmpLane cond ty (laneNat w (g.v 0) i) (laneNat w (g.v 1) i))
    let out := res.foldl (fun n e => if e.2.1 then n + 2 ^ e.1 else n) 0
    let fl := res.foldl (fun (fl : Flags) e => fl ||| e.2.2) 0
    return retire s g (.setM k (BitVec.ofNat 64 out) :: flagWr fl) (npcOf s)

/-- VSEL (R327): no merge operand. -/
def execVsel (d a b : VReg) (m : MReg) (ty : VTy) (s : State) : Host.Outcome State Fault Refusal := finish do
  let mk := mReg (me s) m.toNat
  let w := ty.width
  let (g, s) ← gather s [.v a, .v b] []
  let (v, _) := laneOp w mk (g.v 1) fun i => (laneNat w (g.v 0) i, 0)
  return retire s g [.putV d v g.psn] (npcOf s)

def execVmov (d a : VReg) (m : MReg) (ty : VTy) (s : State) := vec1 s d a m ty fun _ x => x
/-- VBCST: lane 0 in every active lane (R319). -/
def execVbcst (d a : VReg) (m : MReg) (ty : VTy) (s : State) : Host.Outcome State Fault Refusal :=
  vecInstr s d [a] m ty.width true fun _ g _ => (laneNat ty.width (g.v 0) 0, 0)

/-! ### Reductions (R329, R330) -/

/-- One level of the binary tree: nodes 2i and 2i + 1 combine; a single present input passes (R329). -/
def treeLevel (op : Nat → Nat → Nat × Flags) : List (Option Nat) → List (Option Nat) × Flags
  | [] => ([], 0)
  | [x] => ([x], 0)
  | x :: y :: r =>
    let (xs, fl) := treeLevel op r
    match x, y with
    | some a, some b => let (c, f) := op a b; (some c :: xs, f ||| fl)
    | some a, none => (some a :: xs, fl)
    | none, b => (b :: xs, fl)

/-- The tree, level by level. -/
def treeGo (op : Nat → Nat → Nat × Flags) : Nat → List (Option Nat) → Option Nat × Flags
  | 0, xs => ((xs.head?).join, 0)
  | n + 1, xs =>
    let (ys, f1) := treeLevel op xs
    let (r, f2) := treeGo op n ys
    (r, f1 ||| f2)

/-- A reduction (R329): no merge; lane 0 takes the result and every other bit is 0. -/
def vecReduce (s : State) (d a : VReg) (m : MReg) (ty : VTy) (rounds : Bool) (op : FFmt → Nat → Nat → Nat → Nat × Flags)
    (absent : FFmt → Nat) (ints : Nat → List Int → Nat) : Host.Outcome State Fault Refusal := finish do
  let mk := mReg (me s) m.toNat
  let rm := rmOf (me s)
  let w := ty.width
  let n := laneCount ty
  let (g, s) ← gather s [.v a] [] 0 (!(rounds && ty.isF) || rmOk (me s))
  let act := (upTo n).filter fun i => tbit mk i
  let f := vFmt ty
  let r : Nat × Flags :=
    if ty.isF then
      let leaves := (upTo n).map fun i => if tbit mk i then some (laneNat w (g.v 0) i) else none
      let (o, fl) := treeGo (op f rm) 6 leaves
      let sig := act.any fun i => (valOf f (laneNat w (g.v 0) i)).isSig
      (o.getD (absent f), fl ||| (if sig then flNV else 0))
    else (ints w (act.map fun i => laneInt w (laneNat w (g.v 0) i)), 0)
  return retire s g (.putV d (BitVec.ofNat 512 r.1) g.psn :: flagWr r.2) (npcOf s)

def execVradd (d a : VReg) (m : MReg) (ty : VTy) (s : State) :=
  vecReduce s d a m ty true (onVals addVal) (fun _ => 0) fun _ xs => intLane 32 xs.sum
def execVrmax (d a : VReg) (m : MReg) (ty : VTy) (s : State) :=
  vecReduce s d a m ty false (fun f _ x y => minMax f true x y) (fun f => infResult f true) fun w xs =>
    intLane w (xs.foldl max (-(2 ^ (w - 1) : Int)))
def execVrmin (d a : VReg) (m : MReg) (ty : VTy) (s : State) :=
  vecReduce s d a m ty false (fun f _ x y => minMax f false x y) (fun f => infResult f false) fun w xs =>
    intLane w (xs.foldl min (2 ^ (w - 1) - 1 : Int))

/-- A running sum over active lanes (R330). -/
def scanGo (w : Nat) (mk : Word) (o x : V512) (add : Nat → Nat → Nat × Flags) : List Nat → Nat → List Nat × Flags
  | [], _ => ([], 0)
  | i :: r, c =>
    if tbit mk i then
      let (t, f) := add c (laneNat w x i)
      let (xs, fl) := scanGo w mk o x add r t
      (t :: xs, f ||| fl)
    else
      let (xs, fl) := scanGo w mk o x add r c
      (laneNat w o i :: xs, fl)

/-- VSCANA (R330). -/
def execVscana (d a b : VReg) (m : MReg) (ty : VTy) (s : State) : Host.Outcome State Fault Refusal := finish do
  let mk := mReg (me s) m.toNat
  let rm := rmOf (me s)
  let w := ty.width
  let n := laneCount ty
  let (g, s) ← gather s ([.v a, .v b] ++ if m = 0 then [] else [.v d]) [] 0 (!ty.isF || rmOk (me s))
  let o := if m = 0 then 0 else g.v 2
  let (xs, fl) := scanGo w mk o (g.v 0)
    (fun c x => if ty.isF then addVal (vFmt ty) rm (valOf (vFmt ty) c) (valOf (vFmt ty) x) else ((c + x) % 2 ^ w, 0))
    (upTo n) (laneNat w (g.v 1) (n - 1))
  return retire s g (.putV d (vecOf w xs) g.psn :: flagWr fl) (npcOf s)

/-! ### Permutations (R328, R331, R332) -/

def execVshuf (d a b : VReg) (m : MReg) (ty : VTy) (s : State) : Host.Outcome State Fault Refusal :=
  let w := ty.width
  let n := laneCount ty
  vecInstr s d [a, b] m w true fun _ g i => (laneNat w (g.v 0) (laneNat w (g.v 1) i % n), 0)
def execVrotl (d a b : VReg) (m : MReg) (ty : VTy) (s : State) : Host.Outcome State Fault Refusal :=
  let w := ty.width
  let n := laneCount ty
  vecInstr s d [a, b] m w true fun _ g i => (laneNat w (g.v 0) ((i + (n - laneNat w (g.v 1) 0 % n)) % n), 0)
def execVext (d a b c : VReg) (m : MReg) (ty : VTy) (s : State) : Host.Outcome State Fault Refusal :=
  let w := ty.width
  let n := laneCount ty
  vecInstr s d [a, b, c] m w true fun _ g i =>
    let k := i + laneNat w (g.v 2) 0 % n
    (if k < n then laneNat w (g.v 0) k else laneNat w (g.v 1) (k - n), 0)

/-- A pair of results gated lane by lane, merged from vd and vd + 1 when a mask is named (R331). -/
def vecPair (s : State) (d a b : VReg) (m : MReg) (ty : VTy) (f : Nat → (Nat → Nat) → (Nat → Nat) → Bool → Nat → Nat) :
    Host.Outcome State Fault Refusal := finish do
  let mk := mReg (me s) m.toNat
  let w := ty.width
  let n := laneCount ty
  let (g, s) ← gather s ([.v a, .v b] ++ if m = 0 then [] else [.v d, .v (d + 1)]) []
  let half := fun (hi : Bool) =>
    (laneOp w mk (if m = 0 then 0 else g.v (if hi then 3 else 2)) fun i =>
      (f n (laneNat w (g.v 0)) (laneNat w (g.v 1)) hi i, 0)).1
  return retire s g [.putV d (half false) g.psn, .putV (d + 1) (half true) g.psn] (npcOf s)

/-- VZIP (R331). -/
def execVzip (d a b : VReg) (m : MReg) (ty : VTy) (s : State) := vecPair s d a b m ty fun n x y hi i =>
  let j := i / 2 + (if hi then n / 2 else 0)
  if i % 2 = 0 then x j else y j
/-- VUNZIP (R331). -/
def execVunzip (d a b : VReg) (m : MReg) (ty : VTy) (s : State) := vecPair s d a b m ty fun n x y hi i =>
  let k := if hi then 1 else 0
  if i < n / 2 then x (2 * i + k) else y (2 * (i - n / 2) + k)

/-- VINS (R332) always reads vd. -/
def execVins (d a b : VReg) (m : MReg) (ty : VTy) (s : State) : Host.Outcome State Fault Refusal := finish do
  let mk := mReg (me s) m.toNat
  let w := ty.width
  let (g, s) ← gather s [.v a, .v b, .v d] []
  let n := laneNat w (g.v 1) 0 % laneCount ty
  let v := (laneOp w mk (g.v 2) fun i => (if i = n then laneNat w (g.v 0) 0 else laneNat w (g.v 2) i, 0)).1
  return retire s g [.putV d v g.psn] (npcOf s)

/-! ### Masks (R333, R334) -/

/-- Ones of a mask below bit `i`. -/
def onesBelow (mk : Word) (i : Nat) : Nat := ((upTo i).filter fun j => tbit mk j).length

/-- VIOTA (R333). -/
def execViota (d : VReg) (m : MReg) (ty : VTy) (s : State) : Host.Outcome State Fault Refusal :=
  let mk := mReg (me s) m.toNat
  .next (retire s {} [.putV d (vecOf ty.width ((upTo (laneCount ty)).map fun i => onesBelow mk i)) false] (npcOf s))
/-- VMPOP (R333). -/
def execVmpop (d : VReg) (m : MReg) (ty : VTy) (s : State) : Host.Outcome State Fault Refusal :=
  .next (retire s {} [.putV d (vecOf ty.width [onesBelow (mReg (me s) m.toNat) (laneCount ty)]) false] (npcOf s))

/-- A mask operation (R334). -/
def maskOp (s : State) (d : MReg) (x : Word) : Host.Outcome State Fault Refusal :=
  .next (retire s {} [.setM d x] (npcOf s))

def execVmand (d a b : MReg) (s : State) := maskOp s d (mReg (me s) a.toNat &&& mReg (me s) b.toNat)
def execVmor (d a b : MReg) (s : State) := maskOp s d (mReg (me s) a.toNat ||| mReg (me s) b.toNat)
def execVmnot (d a : MReg) (s : State) := maskOp s d (~~~mReg (me s) a.toNat)

/-! ### Dot products (R335) -/

/-- Exact sum of values, rounded once into fp32 (R335): NaNs, opposite infinities, the sign of an exact zero. -/
def sumVals (rm : Nat) (invalid : Bool) (vs : List Val) : Nat × Flags :=
  let f := FFmt.fp32
  let sig := vs.any fun v => v.isSig
  if vs.any fun v => v.isNan then nanResult f (sig || invalid)
  else if invalid then (f.canonNan, flNV)
  else
    let pos := vs.any fun v => decide (v = .inf false)
    let neg := vs.any fun v => decide (v = .inf true)
    if pos && neg then (f.canonNan, flNV)
    else if pos || neg then (infResult f neg, 0)
    else
      let (n, k, e) := vs.foldl (fun (acc : Bool × Nat × Int) v =>
        match v with
        | .fin n m e => sumExact acc.1 acc.2.1 acc.2.2 n m e
        | _ => acc) (false, 0, 0)
      if k = 0 then
        let allNeg := vs.all fun v => match v with | .fin n m _ => n && decide (m = 0) | _ => false
        let allPos := vs.all fun v => match v with | .fin n m _ => !n && decide (m = 0) | _ => false
        (f.signCode (if allNeg then true else if allPos then false else decide (rm = 2)), 0)
      else roundMag f rm false n (magOf k e)

/-- One lane of a float VDOT. -/
def dotFloat (f : FFmt) (rm : Nat) (xs ys : List Nat) (z : Nat) : Nat × Flags :=
  let ps := (xs.zip ys).map fun e => (valOf f e.1, valOf f e.2)
  let nanOp := ps.filter fun e => e.1.isNan || e.2.isNan
  let clean := ps.filter fun e => !(e.1.isNan || e.2.isNan)
  let invalid := clean.any fun e => (mulExact e.1 e.2).isNone
  let vals := nanOp.map (fun e => Val.nan (e.1.isSig || e.2.isSig)) ++ clean.filterMap (fun e => mulExact e.1 e.2)
  sumVals rm invalid (vals ++ [valOf .fp32 z])

/-- VDOT (R335). -/
def execVdot (d a b c : VReg) (m : MReg) (ty : VTy) (s : State) : Host.Outcome State Fault Refusal :=
  let w := ty.width
  let k := 32 / w
  vecInstr s d [a, b, c] m 32 (isInt ty || rmOk (me s)) fun rm g j =>
    let xs := (upTo k).map fun i => laneNat w (g.v 0) (k * j + i)
    let ys := (upTo k).map fun i => laneNat w (g.v 1) (k * j + i)
    let z := laneNat 32 (g.v 2) j
    if isInt ty then
      (intLane 32 (((xs.zip ys).map fun e => laneInt w e.1 * laneInt w e.2).sum + laneInt 32 z), 0)
    else dotFloat (vFmt ty) rm xs ys z

end Sys2Proof.Machine
end

