-- ==== Sys2Proof/Machine/VisionMath.lean ====
section
/-! DEFINITION. The searches and fits of the vision engines (R204 to R208), over frames that have been read. -/

namespace Sys2Proof.Machine

/-- A frame: its pixels by row, each with the poison of its unit. -/
structure VFrame where
  w : Nat
  h : Nat
  px : Array (Nat × Bool)
  /-- some pixel is poisoned -/
  hurt : Bool

/-- Pixel at a position; none outside the frame. -/
def vpx (f : VFrame) (x y : Int) : Option Nat :=
  if 0 ≤ x ∧ x < f.w ∧ 0 ≤ y ∧ y < f.h then (f.px[y.toNat * f.w + x.toNat]?).map fun e => e.1 else none

/-- A rectangle holds a poisoned pixel. -/
def rectHurt (f : VFrame) (x0 x1 y0 y1 : Int) : Bool :=
  f.hurt && (upTo (y1 + 1 - y0).toNat).any fun j => (upTo (x1 + 1 - x0).toNat).any fun i =>
    let x := x0 + (i : Int)
    let y := y0 + (j : Int)
    decide (0 ≤ x ∧ x < f.w ∧ 0 ≤ y ∧ y < f.h) && ((f.px[y.toNat * f.w + x.toNat]?).map fun e => e.2).getD false

/-- rnd(n / d) = ⌊n / d + 1/2⌋ (R204). -/
def rndDiv (n : Int) (d : Nat) : Int := (2 * n + d) / (2 * d : Nat)

/-- Whole numbers from `lo` to `hi`. -/
def intsTo (lo hi : Int) : List Int := (upTo (hi + 1 - lo).toNat).map fun (k : Nat) => lo + (k : Int)

/-! ### Search and confidence (R204) -/

/-- A candidate: cost and displacement. -/
structure VCand where
  cost : Nat
  x : Int
  y : Int
  deriving DecidableEq, Repr

/-- The better of two candidates: the lower cost, then the smaller y, then the smaller x. -/
def better (a b : VCand) : VCand :=
  if b.cost < a.cost ∨ (b.cost = a.cost ∧ (b.y < a.y ∨ (b.y = a.y ∧ b.x < a.x))) then b else a

/-- The best of a list. -/
def bestCand : List VCand → Option VCand
  | [] => none
  | c :: r => some (r.foldl better c)

/-- CONF of the best candidate. -/
def confOf (cs : List VCand) (b : VCand) : Nat :=
  let far := (cs.filter fun c => decide (1 < (c.x - b.x).natAbs) || decide (1 < (c.y - b.y).natAbs)).map fun c => c.cost
  match far with
  | [] => 0
  | a :: r => let c2 := r.foldl min a; if c2 = 0 then 0 else 255 * (c2 - b.cost) / c2

/-- The result of a search: position, CONF, REASON. The cases that override are taken in the order of R204. -/
def searchCell (cs : List VCand) (texmin : Nat) (px py : Int) (border : VCand → Bool) : VisCell :=
  match bestCand cs with
  | none => { reason := 3 }
  | some b =>
    if (cs.map fun c => c.cost).foldl max 0 - b.cost < texmin then { x := px, y := py, reason := 1 }
    else { x := b.x, y := b.y, conf := confOf cs b, reason := if border b then 5 else 0 }

/-- Pass 2 refines a cell (R204). -/
def refines (rthr : Nat) (c : VisCell) : Bool := (decide (c.reason = 0) || decide (c.reason = 5)) && decide (c.conf < rthr)

/-- rnd(16 d + 16 δ) of R205 from the costs at d − 1, d and d + 1, δ within ±1/2. -/
def fitAt (d : Int) (lo mid hi : Nat) : Int :=
  let num : Int := (lo : Int) - hi
  let den : Int := 2 * ((lo : Int) - 2 * mid + hi)
  let (num, den) := if den < 0 then (-num, -den) else (num, den)
  if den = 0 then 16 * d
  else if den ≤ 2 * num then 16 * d + 8
  else if 2 * num ≤ -den then 16 * d - 8
  else rndDiv (16 * d * den + 16 * num) den.toNat

/-! ### Stereo (R205) -/

/-- The 48-bit census of a pixel, as the list of its bits: a neighbour darker than the centre. -/
def census (f : VFrame) (x y : Int) : List Bool :=
  let c := (vpx f x y).getD 0
  (intsTo (-3) 3).flatMap fun j => (intsTo (-3) 3).filterMap fun i =>
    if i = 0 ∧ j = 0 then none else some (match vpx f (x + i) (y + j) with | some v => decide (v < c) | none => false)

/-- Censuses of a frame, by row. -/
def censusAll (f : VFrame) : Array (List Bool) :=
  ((upTo f.h).flatMap fun (y : Nat) => (upTo f.w).map fun (x : Nat) => census f x y).toArray

/-- Number of places where two lists differ. -/
def hamming (a b : List Bool) : Nat := (a.zip b).countP fun e => e.1 ≠ e.2

/-- Pixel cost of left (x, y) and right (x − d, y). -/
def pixCost (w : Nat) (cl cr : Array (List Bool)) (x y : Nat) (d : Int) : Nat :=
  hamming ((cl[y * w + x]?).getD []) ((cr[y * w + ((x : Int) - d).toNat]?).getD [])

/-- A search window: its lowest disparity and its costs. -/
abbrev Win := Int × List Nat

/-- Cost at a disparity of a window. -/
def winAt (w : Win) (d : Int) : Option Nat := if d < w.1 then none else w.2[(d - w.1).toNat]?

/-- Smallest of two costs, where there are any. -/
def omin (a b : Option Nat) : Option Nat :=
  match a, b with
  | some x, some y => some (min x y)
  | some x, none => some x
  | none, y => y

/-- One step of a path: `prev` the window of the path's previous cell; a disparity outside it takes m + P2, the first cell of a path
keeps its costs. -/
def pathStep (p1 p2 : Nat) (prev cur : Win) : Win :=
  match prev.2 with
  | [] => cur
  | a :: r =>
    let m := r.foldl min a
    (cur.1, (cur.2.zip (upTo cur.2.length)).map fun e =>
      let d := cur.1 + (e.2 : Int)
      if (winAt prev d).isNone then e.1 + p2
      else
      let side := omin (winAt prev (d - 1)) (winAt prev (d + 1))
      let best := omin (winAt prev d) (side.map fun v => v + p1)
      e.1 + ((omin best (some (m + p2))).getD 0) - m)

/-- The paths of the row above: downward and the two diagonals. -/
structure Paths where
  down : List Win := []
  right : List Win := []
  left : List Win := []

/-- Windows of one row from the left. -/
def rowPath (p1 p2 : Nat) : Win → List Win → List Win
  | _, [] => []
  | prev, c :: r => let w := pathStep p1 p2 prev c; w :: rowPath p1 p2 w r

/-- Windows of a row from those of the row above, shifted. -/
def downPath (p1 p2 : Nat) (prev cur : List Win) : List Win :=
  (cur.zip (upTo cur.length)).map fun e => pathStep p1 p2 ((prev[e.2]?).getD (0, [])) e.1

/-- Element-wise sum of windows. -/
def winSum (ws : List Win) : Win :=
  match ws with
  | [] => (0, [])
  | w :: r => r.foldl (fun a b => (a.1, (a.2.zip b.2).map fun e => e.1 + e.2)) w

/-- Aggregation, row by row. -/
def aggregate (p1 p2 : Nat) : Paths → List (List Win) → List (List Win)
  | _, [] => []
  | above, row :: rest =>
    let flat := rowPath p1 p2 (0, []) row
    let down := downPath p1 p2 above.down row
    let right := downPath p1 p2 ((0, []) :: above.right) row
    let left := downPath p1 p2 (above.left.drop 1) row
    let sums := (upTo row.length).map fun i =>
      winSum [(flat[i]?).getD (0, []), (down[i]?).getD (0, []), (right[i]?).getD (0, []), (left[i]?).getD (0, [])]
    sums :: aggregate p1 p2 { down := down, right := right, left := left } rest

/-- The cells of a frame pair, searched: `left`: the left view, else the right view. -/
def stereoView (b : V512) (pred : Nat → Nat → Int) (cl cr : Array (List Bool)) (left : Bool) : List (List VisCell) :=
  let w := vbW b
  let cols := w / 4
  let window := fun (cx cy : Nat) =>
    let dp := pred cx cy
    let lim : Int := min (stDmax b : Int) (if left then 4 * cx else (w : Int) - 4 - 4 * cx)
    (max 0 (dp - 32), min (dp + 32) lim)
  let cost := fun (cx cy : Nat) (d : Int) => ((upTo 4).flatMap fun j => (upTo 4).map fun i =>
    let x := 4 * cx + i
    if left then pixCost w cl cr x (4 * cy + j) d else pixCost w cl cr (x + d.toNat) (4 * cy + j) d).foldl (· + ·) 0
  let grid := (upTo (vbH b / 4)).map fun cy => (upTo cols).map fun cx =>
    let (lo, hi) := window cx cy
    ((lo, (intsTo lo hi).map fun d => cost cx cy d) : Win)
  ((aggregate (stP1 b) (stP2 b) {} grid).zip (upTo (vbH b / 4))).map fun (row, cy) =>
    (row.zip (upTo cols)).map fun (win, cx) =>
      let cs := (win.2.zip (upTo win.2.length)).map fun e => ({ cost := e.1, x := win.1 + (e.2 : Int), y := 0 } : VCand)
      let hi := win.1 + (win.2.length : Int) - 1
      searchCell cs (stTexmin b) (pred cx cy) 0 fun c => decide (c.x = win.1) || decide (c.x = hi)

/-- A cell fails the left–right check. -/
def occludedAt (lrt : Nat) (right : List VisCell) (cx : Nat) (c : VisCell) : Bool :=
  let at_ := (cx : Int) - rndDiv c.x 4
  if at_ < 0 then false
  else match right[at_.toNat]? with
    | some r => decide (lrt < (c.x - r.x).natAbs)
    | none => false

/-- The check over a row, and the values of occluded cells. -/
def checkRow (lrt : Nat) (left right : List VisCell) : List VisCell :=
  if lrt = 0xFF then left
  else
    let marked := (left.zip (upTo left.length)).map fun e => (e.1, occludedAt lrt right e.2 e.1)
    (marked.zip (upTo marked.length)).map fun e =>
      if !e.1.2 then e.1.1
      else
        let seen := fun (l : List (VisCell × Bool)) => (l.find? fun x => !x.2).map fun x => x.1.x
        let x := match seen (marked.take e.2).reverse, seen (marked.drop (e.2 + 1)) with
          | some a, some c => min a c
          | some a, none => a
          | none, some c => c
          | none, none => 0
        { x := x, reason := 2 }

/-- The search of one pixel around the cell's disparity, which is its prediction, and its DISP by the fit. -/
def stereoFine (w tex : Nat) (cl cr : Array (List Bool)) (x y : Nat) (d : Int) : VisCell × Int :=
  let ds := (intsTo (d - 2) (d + 2)).filter fun k => decide (k ≤ (x : Int)) && decide ((x : Int) - k < w)
  let cost := fun k => pixCost w cl cr x y k
  let c := searchCell (ds.map fun k => { cost := cost k, x := k, y := 0 }) tex d 0 fun b => !(ds.contains (b.x - 1) && ds.contains (b.x + 1))
  (c, if c.reason = 0 then fitAt c.x (cost (c.x - 1)) (cost c.x) (cost (c.x + 1)) else 16 * c.x)

/-! ### Flow (R206) -/

/-- SAD of the current support of n × n at (x0, y0) against the reference at the support minus the displacement; none
where a support leaves its frame. -/
def sadAt (a b : VFrame) (n : Nat) (x0 y0 dx dy : Int) : Option Nat :=
  let inside := fun (f : VFrame) (x y : Int) => decide (0 ≤ x) && decide (0 ≤ y) && decide (x + n ≤ f.w) && decide (y + n ≤ f.h)
  if inside a x0 y0 && inside b (x0 - dx) (y0 - dy) then
    some (((upTo n).flatMap fun (j : Nat) => (upTo n).map fun (i : Nat) =>
      let p := (vpx a (x0 + i) (y0 + j)).getD 0
      let q := (vpx b (x0 + i - dx) (y0 + j - dy)).getD 0
      (p - q) + (q - p)).foldl (· + ·) 0)
  else none

/-- Candidates of a square of displacements around a centre. -/
def sadCands (a b : VFrame) (n : Nat) (x0 y0 px py : Int) (r : Int) : List VCand :=
  (intsTo (py - r) (py + r)).flatMap fun dy => (intsTo (px - r) (px + r)).filterMap fun dx =>
    (sadAt a b n x0 y0 dx dy).map fun c => { cost := c, x := dx, y := dy }

/-- One cell of the flow engine. -/
def flowCell (a b : VFrame) (tex cx cy : Nat) (px py : Int) : VisCell :=
  let x0 : Int := 4 * cx - 2
  let y0 : Int := 4 * cy - 2
  let c := searchCell (sadCands a b 8 x0 y0 px py 16) tex px py fun c => decide ((c.x - px).natAbs = 16) || decide ((c.y - py).natAbs = 16)
  { c with psn := rectHurt a x0 (x0 + 7) y0 (y0 + 7) || rectHurt b (x0 - px - 16) (x0 - px + 23) (y0 - py - 16) (y0 - py + 23) }

/-- The search of one pixel around the cell's vector, which is its prediction, and its displacement in x and in y by the fit, four
fraction bits. -/
def flowFine (a b : VFrame) (tex x y : Nat) (c : VisCell) : VisCell × Int × Int :=
  let cs := sadCands a b 5 ((x : Int) - 2) ((y : Int) - 2) c.x c.y 1
  let k := searchCell cs tex c.x c.y fun e => decide ((e.x - c.x).natAbs = 1) || decide ((e.y - c.y).natAbs = 1)
  let at_ := fun dx dy => (cs.find? fun e => e.x = dx ∧ e.y = dy).map fun e => e.cost
  let fit := fun (d : Int) (lo mid hi : Option Nat) => match lo, mid, hi with
    | some l, some m, some h => if k.reason = 1 ∨ k.reason = 3 then 16 * d else fitAt d l m h
    | _, _, _ => 16 * d
  let mid := at_ k.x k.y
  (k, fit k.x (at_ (k.x - 1) k.y) mid (at_ (k.x + 1) k.y), fit k.y (at_ k.x (k.y - 1)) mid (at_ k.x (k.y + 1)))

/-! ### Feature (R207) -/

/-- The circle of radius 3, in order. -/
def circle : List (Int × Int) :=
  [(0, -3), (1, -3), (2, -2), (3, -1), (3, 0), (3, 1), (2, 2), (1, 3), (0, 3), (-1, 3), (-2, 2), (-3, 1), (-3, 0), (-3, -1), (-2, -2), (-1, -3)]

/-- `n` or more in a row are set, the list taken as a ring. -/
def ringRun (n : Nat) (l : List Bool) : Bool := (upTo l.length).any fun i => ((l ++ l).drop i |>.take n).all id

/-- Score of a pixel: 0 where it is no corner. -/
def cornerScore (f : VFrame) (thr : Nat) (x y : Int) : Nat :=
  if 15 ≤ x ∧ x + 15 < f.w ∧ 15 ≤ y ∧ y + 15 < f.h then
    let i := (vpx f x y).getD 0
    let cs := circle.map fun e => (vpx f (x + e.1) (y + e.2)).getD 0
    if ringRun 9 (cs.map fun c => decide (i + thr < c)) || ringRun 9 (cs.map fun c => decide (c + thr < i)) then
      (cs.map fun c => (c - i) + (i - c) - thr).foldl (· + ·) 0
    else 0
  else 0

/-- A corner survives the 3 × 3 suppression: among equal scores the first in raster order. -/
def survives (f : VFrame) (thr : Nat) (x y : Int) (sc : Nat) : Bool :=
  (intsTo (-1) 1).all fun j => (intsTo (-1) 1).all fun i =>
    let o := cornerScore f thr (x + i) (y + j)
    if j < 0 ∨ (j = 0 ∧ i < 0) then decide (o < sc) else decide (o ≤ sc)

/-- Insert a corner in descending score order, after those of the same score. -/
def insertCorner (c : VisCell) : List VisCell → List VisCell
  | [] => [c]
  | d :: r => if d.key < c.key then c :: d :: r else d :: insertCorner c r

/-- A corner pixel needs a positive score to be distinguished from no corner: every corner has one. -/
def cornersOf (f : VFrame) (thr : Nat) : List VisCell :=
  ((upTo f.h).flatMap fun (y : Nat) => (upTo f.w).filterMap fun (x : Nat) =>
    let sc := cornerScore f thr x y
    if sc ≠ 0 ∧ survives f thr x y sc then some ({ x := x, y := y, key := sc, conf := min 255 (sc / 16) } : VisCell) else none).foldl
    (fun l c => insertCorner c l) []

/-- DESC of a corner from the pattern table; `open_` gives the bits of pattern points outside the frame. -/
def descriptor (f : VFrame) (pat : List Byte) (c : VisCell) (open_ : Nat → Bool) : BitVec 256 :=
  let off := fun (k : Nat) => ((pat[k]?).getD 0).toInt
  (upTo 256).foldl (fun (d : BitVec 256) i =>
    let bit := match vpx f (c.x + off (4 * i)) (c.y + off (4 * i + 1)), vpx f (c.x + off (4 * i + 2)) (c.y + off (4 * i + 3)) with
      | some p, some q => decide (p < q)
      | _, _ => open_ i
    if bit then d ||| BitVec.ofNat 256 (2 ^ i) else d) 0

/-- Distance of two descriptors. -/
def descDist (a b : BitVec 256) : Nat := (upTo 256).countP fun i => tbit a i ≠ tbit b i

/-- The two lowest distances of a list of (index, distance): the lower index first among ties. -/
def twoBest : List (Nat × Nat) → Option ((Nat × Nat) × Option Nat)
  | [] => none
  | e :: r => some (r.foldl (fun (a : (Nat × Nat) × Option Nat) x =>
      if x.2 < a.1.2 then (x, some a.1.2) else (a.1, some (match a.2 with | some d => min d x.2 | none => x.2))) (e, none))

/-- The match of a corner in set B: index and distance (log 97). -/
def matchOf (b : V512) (setB : List V512) (c : VisCell) : Option (Nat × Nat) :=
  let near := fun (p q : Int) => decide ((p - q).natAbs ≤ ftMw b)
  let cs := (setB.zip (upTo setB.length)).filterMap fun (r, i) =>
    if near c.x (bits r 255 240 / 16 : Nat) && near c.y (bits r 239 224 / 16 : Nat) then
      some (i, descDist c.desc (r.extractLsb' 256 256)) else none
  match twoBest cs with
  | some ((i, d1), d2) => if d1 ≤ ftMaxd b && (match d2 with | some d => decide (d1 < d) | none => true) then some (i, d1) else none
  | none => none

/-- Refined position of a corner by the parabola of its score (log 97). -/
def featureFine (f : VFrame) (thr : Nat) (c : VisCell) : Int × Int :=
  let sc := fun i j => cornerScore f thr (c.x + i) (c.y + j)
  (fitAt c.x (sc (-1) 0) c.key (sc 1 0), fitAt c.y (sc 0 (-1)) c.key (sc 0 1))

/-! ### Warp (R208) -/

/-- An fp32 operation, RNE. -/
def f32Mul (a b : Nat) : Nat := (mulVal .fp32 0 (valOf .fp32 a) (valOf .fp32 b)).1
def f32Add (a b : Nat) : Nat := (addVal .fp32 0 (valOf .fp32 a) (valOf .fp32 b)).1
def f32Div (a b : Nat) : Nat := (divVal .fp32 0 (valOf .fp32 a) (valOf .fp32 b)).1

/-- (u, v) of an output pixel by the homography; none where w ≤ 0. -/
def homography (h : List Nat) (x y : Nat) : Option (Nat × Nat) :=
  let k := fun i => (h[i]?).getD 0
  let fx := (ofInt .fp32 0 x).1
  let fy := (ofInt .fp32 0 y).1
  let row := fun i => f32Add (f32Add (f32Mul (k i) fx) (f32Mul (k (i + 1)) fy)) (k (i + 2))
  let w := row 6
  if cmpVal (valOf .fp32 w) (.fin false 0 0) = .gt && !(valOf .fp32 w).isNan then some (f32Div (row 0) w, f32Div (row 3) w) else none

/-- rnd(256 u) of a finite u. -/
def warpCoord (u : Nat) : Option Int :=
  match valOf .fp32 u with
  | .fin n m e => match exactHalf n m (e + 8) with | v => some v
  | _ => none
where
  /-- ⌊v + 1/2⌋ of (−1)^n m 2^e. -/
  exactHalf (n : Bool) (m : Nat) (e : Int) : Int :=
    let v : Int := if n then -(m : Int) else m
    if 0 ≤ e then v * 2 ^ e.toNat else rndDiv v (2 ^ (-e).toNat)

/-- A warp element: VALUE, CONF, REASON and poison. -/
def warpPixel (src : VFrame) (fill : Nat) (uv : Option (Nat × Nat)) : Nat × Nat × Nat × Bool :=
  match uv with
  | none => (fill, 0, 3, false)
  | some (u, v) =>
    match warpCoord u, warpCoord v with
    | some U, some V =>
      let fu := (U % 256).toNat
      let fv := (V % 256).toNat
      let x0 := U / 256
      let y0 := V / 256
      let taps := [((256 - fu) * (256 - fv), x0, y0), (fu * (256 - fv), x0 + 1, y0), ((256 - fu) * fv, x0, y0 + 1), (fu * fv, x0 + 1, y0 + 1)]
      let sum := (taps.map fun (w, x, y) => w * (vpx src x y).getD fill).foldl (· + ·) 0
      let inw := (taps.map fun (w, x, y) => if (vpx src x y).isSome then w else 0).foldl (· + ·) 0
      let conf := 255 * inw / 65536
      ((sum + 32768) / 65536, conf, if conf = 0 then 3 else 0, taps.any fun (_, x, y) => rectHurt src x x y y)
    | _, _ => (fill, 0, 3, false)

end Sys2Proof.Machine
end

