-- ==== Sys2Proof/Machine/Vision.lean ====
section
/-! DEFINITION. The vision engines' jobs (R129, R169, R196 to R203, R206, R452, R464, R474): the start with pass 1, the
end with pass 2, the watchdog. Engine 2 t + u is engine u of type t. -/

namespace Sys2Proof.Machine

/-- On whose behalf vision engine `e` accesses memory. -/
def visEng (e : Nat) (v : Vision) : Eng := { job := v.job, key := 0xC50 + e, src := 0x250 + e, windowed := false }

/-- Go on with an engine access. -/
def engBind {α β : Type} (x : EngAns α) (f : α → State → EngAns β) : EngAns β :=
  match x with
  | .ok a s => f a s
  | .bad c d s => .bad c d s
  | .wait => .wait

/-- Rows of a frame: `n` rows of `w` bytes from an address on, the next row a pitch further. -/
def readRows (e : Eng) (w pitch : Nat) : Nat → Word → State → EngAns (List (Byte × Bool))
  | 0, _, s => .ok [] s
  | n + 1, a, s =>
    engBind (engRead s e a w) fun bs s =>
      engBind (readRows e w pitch n (a + BitVec.ofNat 64 pitch) s) fun rest s => .ok (bs ++ rest) s

/-- A frame of R199: its landing header and its pixels. -/
def readFrame (s : State) (e : Eng) (a : Word) (w h pitch : Nat) : EngAns (V512 × VFrame) :=
  engBind (engRead s e a 64) fun hd s =>
    engBind (readRows e w pitch h (a + 64) s) fun px s =>
      .ok (leWord 512 (hd.map fun b => b.1),
           { w := w, h := h, px := (px.map fun b => (b.1.toNat, b.2)).toArray, hurt := px.any fun b => b.2 }) s

/-- Main-memory unit of the first poisoned pixel of a frame. -/
def firstHurt (f : VFrame) (a : Word) (pitch : Nat) : Option Word :=
  if !f.hurt then none
  else ((f.px.toList.zip (upTo f.px.size)).find? fun e => e.1.2).map fun e =>
    BitVec.ofNat 64 ((a.toNat + 64 + e.2 / f.w * pitch + e.2 % f.w) / 32 * 32)

/-- One record for each job that reads a poisoned pixel (R474). -/
def noteHurt (s : State) (e : Nat) (v : Vision) (a : Option Word) : Vision × State :=
  match a with
  | some x => if v.noted then (v, s) else ({ v with noted := true }, record s 3 0x07 2 (0x250 + e) v.job 0xFFF x v.card)
  | none => (v, s)

/-! ### Elements (R200, R201) -/

/-- A signed value in `w` bits. -/
def twos (w : Nat) (x : Int) : Nat := (x % 2 ^ w).toNat

/-- Bytes of an element, poisoned or not. -/
def elementBytes (n x : Nat) (psn : Bool) : List (Byte × Bool) := (natBytes n x).map fun b => (b, psn)

/-- Stereo element: DISP with four fraction bits. A prediction that DISP cannot hold leaves the field open (log 6). -/
def stereoElement (c : VisCell) (ref : Bool) (disp : Int) (open_ : Nat) : List (Byte × Bool) :=
  let d := if 0 ≤ disp ∧ disp < 65536 then disp.toNat else open_ % 65536
  elementBytes 4 (c.conf * 2 ^ 24 + c.reason * 2 ^ 20 + b2n ref * 2 ^ 19 + d) c.psn
/-- Flow element. -/
def flowElement (c : VisCell) (ref : Bool) (dx dy : Int) : List (Byte × Bool) :=
  elementBytes 8 (c.conf * 2 ^ 56 + c.reason * 2 ^ 52 + b2n ref * 2 ^ 51 + twos 16 dy * 2 ^ 16 + twos 16 dx) c.psn
/-- Feature record: the match is kept in `dist` as 2 × distance + 1 of index `key / 2^20`. -/
def featureElement (c : VisCell) (ref : Bool) (x y : Int) (mat hd : Nat) : List (Byte × Bool) :=
  elementBytes 64 (c.desc.toNat * 2 ^ 256 + twos 16 x * 2 ^ 240 + twos 16 y * 2 ^ 224 + c.conf * 2 ^ 216 + c.reason * 2 ^ 212
    + b2n ref * 2 ^ 211 + mat % 2 ^ 13 * 2 ^ 198 + hd % 2 ^ 9 * 2 ^ 189) c.psn
/-- Warp element. -/
def warpElement (r : Nat × Nat × Nat × Bool) : List (Byte × Bool) :=
  elementBytes 4 (r.2.1 * 2 ^ 24 + r.2.2.1 * 2 ^ 20 + r.1 % 256) r.2.2.2

/-- The result header. -/
def resultHeader (v : Vision) (pass : Nat) : V512 :=
  let n := fun (p : VisCell → Bool) => (v.cells.filter p).length
  let nfeat := if vbEng v.blk = 2 then v.cells.length else 0
  BitVec.ofNat 512 (v.tarr.toNat * 2 ^ 448 + v.stamp.toNat * 2 ^ 416 + v.enc.toNat * 2 ^ 384 + n (fun c => c.ref) % 2 ^ 20 * 2 ^ 364
    + n (fun c => decide (c.reason = 1)) % 2 ^ 20 * 2 ^ 344 + n (fun c => decide (c.reason = 2)) % 2 ^ 20 * 2 ^ 324
    + nfeat % 2 ^ 13 * 2 ^ 311 + b2n v.pz * 2 ^ 310 + twos 16 v.pdx * 2 ^ 294 + twos 16 v.pdy * 2 ^ 278 + pass * 2 ^ 276)

/-! ### Start (R196, R199, R206) -/

/-- TARR and STAMP of a landing header. -/
def ldTarr (h : V512) : Word := h.extractLsb' 448 64
def ldStamp (h : V512) : BitVec 32 := h.extractLsb' 416 32

/-- What a job takes from its frames' headers and, for flow, from the encoder. -/
def noteFrames (s : State) (v : Vision) (h0 h1 : V512) : Vision :=
  let older := decide ((s.stamp - ldStamp h0).toNat < (s.stamp - ldStamp h1).toNat)
  let h := if vbEng v.blk = 0 && older then h1 else h0
  let v := { v with tarr := ldTarr h, stamp := ldStamp h }
  if vbEng v.blk ≠ 1 then v
  else
    let st := ldStamp h0
    let o := st.toNat % 2 * 0x200000 + 4 * flEncw v.blk
    if 1 < (s.stamp - st).toNat || poisonRead 8 s.imagePoison o 4 then { v with pz := true, enc := 0, pdx := 0, pdy := 0 }
    else
      let e : BitVec 32 := leWord 32 (memBytes s.image o 4)
      let de := (e - flEref v.blk).toInt
      let go := fun (k : Int) => max (-2031) (min 2031 (rndDiv (de * k) 256))
      { v with pz := false, enc := e, pdx := go (flKx v.blk), pdy := go (flKy v.blk) }

/-- The frames of a job. -/
def jobFrames (s : State) (en : Nat) (v : Vision) : EngAns (Vision × V512 × V512 × VFrame × VFrame) :=
  let b := v.blk
  let e := visEng en v
  let (w, h, pitch) := if vbEng b = 3 then (wpSw b, wpSh b, wpSpitch b) else (vbW b, vbH b, vbPitch b)
  engBind (readFrame s e (vbSrc0 b) w h pitch) fun (h0, f0) s =>
    if vbEng b ≤ 1 then
      engBind (readFrame s e (vbSrc1 b) w h pitch) fun (h1, f1) s =>
        let a := match firstHurt f0 (vbSrc0 b) pitch with | some x => some x | none => firstHurt f1 (vbSrc1 b) pitch
        let (v, s) := noteHurt s en v a
        .ok (v, h0, h1, f0, f1) s
    else
      let (v, s) := noteHurt s en v (firstHurt f0 (vbSrc0 b) pitch)
      .ok (v, h0, h0, f0, f0) s

/-! ### Pass 1 -/

/-- The previous coarse plane of a stereo job (PMODE 0): ⌊DISP / 16⌋ by cell. -/
def readPlane (s : State) (e : Eng) (b : V512) : EngAns (Array Int) :=
  engBind (engRead s e (vbPred b) (vbW b / 4 * (vbH b / 4) * 4)) fun bs s =>
    .ok ((tileRows' 4 (vbW b / 4 * (vbH b / 4)) (bs.map fun x => x.1)).map fun w => ((leNat w % 65536 / 16 : Nat) : Int)).toArray s
where
  /-- Cut a list into `m` rows of `n`. -/
  tileRows' (n m : Nat) (t : List Byte) : List (List Byte) := (upTo m).map fun i => (t.drop (i * n)).take n

/-- The prediction of a cell (R205). -/
def stereoPred (b : V512) (plane : Array Int) (cx cy : Nat) : Int :=
  match stPmode b with
  | 0 => (plane[cy * (vbW b / 4) + cx]?).getD 0
  | 1 => rndDiv (16 * stPc b + cx * stPa b + cy * stPb b) 256
  | _ => rndDiv (stPc b) 16

/-- The cells of a stereo job. -/
def stereoCells (b : V512) (plane : Array Int) (l r : VFrame) : List VisCell :=
  let cl := censusAll l
  let cr := censusAll r
  let pred := stereoPred b plane
  let left := stereoView b pred cl cr true
  let rows := if stLrt b = 0xFF then left else (left.zip (stereoView b pred cl cr false)).map fun e => checkRow (stLrt b) e.1 e.2
  (rows.zip (upTo rows.length)).flatMap fun (row, cy) => (row.zip (upTo row.length)).map fun (c, cx) =>
    let x : Int := 4 * cx
    let y : Int := 4 * cy
    let dp := pred cx cy
    let hi := min (dp + 32) (min (stDmax b : Int) x)
    { c with ref := refines (vbRthr b) c
             psn := rectHurt l (x - 3) (x + 6) (y - 3) (y + 6) || rectHurt r (x - 3 - hi) (x + 6 - max 0 (dp - 32)) (y - 3) (y + 6) }

/-- The cells of a flow job. -/
def flowCells (v : Vision) (a r : VFrame) : List VisCell :=
  let b := v.blk
  (upTo (vbH b / 4)).flatMap fun cy => (upTo (vbW b / 4)).map fun cx =>
    let c := flowCell a r (flTexmin b) cx cy v.pdx v.pdy
    { c with ref := refines (vbRthr b) c }

/-- Set B: the records of a feature list; NFEAT of the header 64 bytes before it says how many (log 97). -/
def readSetB (s : State) (e : Eng) (b : V512) : EngAns (List V512) :=
  if vbSrc1 b = 0 || decide (ftMw b = 0) then .ok [] s
  else engBind (engRead s e (vbSrc1 b - 64) 64) fun h s =>
    let n := min 4096 (bits (leWord 512 (h.map fun x => x.1) : V512) 323 311)
    engBind (engRead s e (vbSrc1 b) (64 * n)) fun bs s =>
      .ok ((upTo n).map fun i => leWord 512 (((bs.drop (64 * i)).take 64).map fun x => x.1)) s

/-- The corners of a feature job, with descriptor and match: `dist` holds 0 for none, else 1 + 2^13 × distance + index. -/
def featureCells (b : V512) (pat : List Byte) (setB : List V512) (open_ : Nat → Nat) (f : VFrame) : List VisCell :=
  let match_ := decide (vbSrc1 b ≠ 0) && decide (ftMw b ≠ 0)
  let cs := (cornersOf f (ftThr b)).take (ftMaxf b)
  (cs.zip (upTo cs.length)).map fun (c, i) =>
    let c := { c with desc := descriptor f pat c fun k => decide (open_ (256 * i + k) % 2 = 1)
                      psn := rectHurt f (c.x - 15) (c.x + 15) (c.y - 15) (c.y + 15) }
    let m := if match_ then matchOf b setB c else none
    let c := match m with
      | some (j, d) => { c with dist := 1 + d * 2 ^ 13 + j }
      | none => { c with reason := if match_ then 4 else 0 }
    { c with ref := refines (vbRthr b) c }

/-- MATCH and HDIST of a corner; HDIST without a match is open (log 6). -/
def matchFields (c : VisCell) (open_ : Nat) : Nat × Nat :=
  if c.dist = 0 then (0x1FFF, open_) else ((c.dist - 1) % 2 ^ 13, (c.dist - 1) / 2 ^ 13)

/-- The elements of a warp job. -/
def warpPlane (b : V512) (tab : List (Nat × Bool)) (src : VFrame) : List (Byte × Bool) :=
  let arr := tab.toArray
  let at_ := fun (k : Nat) => (arr[k]?).getD (0, false)
  (upTo (vbH b)).flatMap fun y => (upTo (vbW b)).flatMap fun x =>
    let k := 2 * (y * vbW b + x)
    let (uv, hurt) := if wpMode b = 0 then (homography (tab.map fun e => e.1) x y, tab.any fun e => e.2)
      else (some ((at_ k).1, (at_ (k + 1)).1), (at_ k).2 || (at_ (k + 1)).2)
    let r := warpPixel src (wpFill b) uv
    warpElement (r.1, r.2.1, r.2.2.1, r.2.2.2 || hurt)

/-- 32-bit words of bytes, each with its poison. -/
def wordsPsn (n : Nat) (bs : List (Byte × Bool)) : List (Nat × Bool) :=
  (upTo n).map fun i => let w := (bs.drop (4 * i)).take 4; (leNat (w.map fun b => b.1), w.any fun b => b.2)

/-- What pass 1 writes at OUT + 64, and the cells that it leaves. -/
def passOne (s : State) (en : Nat) (v : Vision) (f0 f1 : VFrame) : EngAns (List (Byte × Bool) × Vision) :=
  let b := v.blk
  let e := visEng en v
  let (k, s) := drawNat s
  let open_ := fun n => (Config.freeWord (k + n)).toNat
  match vbEng b with
  | 0 => engBind (if stPmode b = 0 then readPlane s e b else .ok #[] s) fun plane s =>
      let cs := stereoCells b plane f0 f1
      .ok ((cs.zip (upTo cs.length)).flatMap fun (c, i) => stereoElement c c.ref (16 * c.x) (open_ i), { v with cells := cs }) s
  | 1 =>
      let cs := flowCells v f0 f1
      .ok (cs.flatMap fun c => flowElement c c.ref (16 * c.x) (16 * c.y), { v with cells := cs }) s
  | 2 => engBind (engRead s e (vbPred b) 1024) fun pat s => engBind (readSetB s e b) fun setB s =>
      let cs := featureCells b (pat.map fun x => x.1) setB open_ f0
      .ok ((cs.zip (upTo cs.length)).flatMap fun (c, i) =>
        let m := matchFields c (open_ i)
        featureElement c false (16 * c.x) (16 * c.y) m.1 m.2, { v with cells := cs }) s
  | _ =>
      let n := if wpMode b = 0 then 9 else 2 * vbW b * vbH b
      engBind (engRead s e (if wpMode b = 0 then vbPred b else vbSrc1 b) (4 * n)) fun t s =>
        .ok (warpPlane b (wordsPsn n t) f0, { v with cells := [] }) s

/-- The encoder word of a flow job lies in the half that a latch is copying: the access is held (R215). -/
def encoderHeld (s : State) (v : Vision) (h0 : V512) : Bool :=
  decide (vbEng v.blk = 1) && latchHolds s 0xE2 ((ldStamp h0).toNat % 2 * 0x200000 + 4 * flEncw v.blk)

/-- The pixels of a job's frames, row by row. -/
def pixelsOf (f0 f1 : VFrame) : List Nat := (f0.px.toList ++ f1.px.toList).map fun x => x.1

/-- Pass 1 and the header with PASS = 1 (R203). -/
def runPassOne (s : State) (en : Nat) (v : Vision) (first : Bool) : EngAns Vision :=
  engBind (jobFrames s en v) fun (v, h0, h1, f0, f1) s =>
    if first && encoderHeld s v h0 then .wait
    else
    let v := { (if first then noteFrames s v h0 h1 else v) with rows := pixelsOf f0 f1 }
    engBind (passOne s en v f0 f1) fun (bs, v) s =>
      engBind (engWrite s (visEng en v) (vbOut v.blk + 64) bs) fun _ s =>
        engBind (engWrite s (visEng en v) (vbOut v.blk) (clean (natBytes 64 (resultHeader v 1).toNat))) fun _ s =>
          .ok { v with done := true } s

/-! ### Pass 2 -/

/-- Writes of pass 2, each an address and its bytes. -/
def passTwo (v : Vision) (f0 f1 : VFrame) (open_ : Nat → Nat) : List (Word × List (Byte × Bool)) :=
  let b := v.blk
  let cols := vbW b / 4
  let cells := (v.cells.zip (upTo v.cells.length)).filter fun e => e.1.ref
  let fine := fun (size : Nat) (f : VisCell → Nat → Nat → List (Byte × Bool)) => cells.flatMap fun (c, i) =>
    (upTo 4).map fun j =>
      let y := 4 * (i / cols) + j
      let x := 4 * (i % cols)
      (vbFine b + BitVec.ofNat 64 (size * (y * vbW b + x)), (upTo 4).flatMap fun k => f c (x + k) y)
  match vbEng b with
  | 0 =>
    let cl := censusAll f0
    let cr := censusAll f1
    fine 4 fun c x y =>
      let hurt := rectHurt f0 ((x : Int) - 3) (x + 3) ((y : Int) - 3) (y + 3)
        || rectHurt f1 ((x : Int) - 5 - c.x) ((x : Int) + 5 - c.x) ((y : Int) - 3) (y + 3)
      let r := stereoFine (vbW b) (stTexmin b) cl cr x y c.x
      stereoElement { r.1 with psn := hurt } true r.2 (open_ (y * vbW b + x))
  | 1 => fine 8 fun c x y =>
      let d := flowFine f0 f1 (flTexmin b) x y c
      let hurt := rectHurt f0 ((x : Int) - 2) (x + 2) ((y : Int) - 2) (y + 2)
        || rectHurt f1 ((x : Int) - c.x - 3) ((x : Int) - c.x + 3) ((y : Int) - c.y - 3) ((y : Int) - c.y + 3)
      flowElement { d.1 with psn := hurt } true d.2.1 d.2.2
  | 2 => cells.map fun (c, i) =>
      let p := featureFine f0 (ftThr b) c
      let m := matchFields c (open_ i)
      let hurt := c.psn || rectHurt f0 (c.x - 15) (c.x + 15) (c.y - 15) (c.y + 15)
      (vbOut b + BitVec.ofNat 64 (64 * (i + 1)), featureElement { c with psn := hurt } true p.1 p.2 m.1 m.2)
  | _ => []

/-- Several writes in order. -/
def writeAll (e : Eng) : List (Word × List (Byte × Bool)) → State → EngAns Unit
  | [], s => .ok () s
  | (a, bs) :: r, s => engBind (engWrite s e a bs) fun _ s => writeAll e r s

/-- Address of a stamp word of a job. -/
def stampAddr (s : State) (job i : Nat) : Option Word :=
  (findJob s job).map fun j => BitVec.ofNat 64 (bits j.record 383 320 % 2 ^ 48 + 4 * i)

/-- Pass 2, the header with PASS = 2, the stamp word (R203): `false`, with nothing of pass 2 written, where a row that it reads again
differs from what pass 1 read; a record of poison stays noted (R474; log 50). -/
def runPassTwo (s : State) (en : Nat) (v : Vision) : EngAns Bool :=
  let e := visEng en v
  let again := v.cells.any fun c => c.ref
  engBind (if again then jobFrames s en v else .ok (v, 0, 0, ⟨0, 0, #[], false⟩, ⟨0, 0, #[], false⟩) s) fun (w, _, _, f0, f1) s =>
    let (k, s) := drawNat s
    if again && decide (pixelsOf f0 f1 ≠ v.rows) then .ok false { s with engines := mset s.engines en { v with noted := w.noted } }
    else engBind (writeAll e (passTwo v f0 f1 fun n => (Config.freeWord (k + n)).toNat) s) fun _ s =>
      engBind (engWrite s e (vbOut v.blk) (clean (natBytes 64 (resultHeader v 2).toNat))) fun _ s =>
        match stampAddr s v.job (vbOsidx v.blk) with
        | some a => if vbOsidx v.blk = 0xFFF then .ok true s
          else engBind (engWrite s e a (clean (natBytes 4 v.stamp.toNat))) fun _ s => .ok true s
        | none => .ok true s

/-! ### The events -/

/-- The engine of number `n` is free. -/
def engineFree (s : State) (n : Nat) : Bool := (mget s.engines n).isNone

/-- UNIT lets a job run on engine `n`; a job for either engine takes the first that is free (R196). -/
def unitAllows (s : State) (n : Nat) (v : Vision) : Bool :=
  match vbUnit v.blk with
  | 1 => decide (n % 2 = 0)
  | 2 => decide (n % 2 = 1)
  | _ => decide (n % 2 = 0) || !engineFree s (n - 1)

/-- The job that engine `n` may take: the head of its type's queue, which is served in card-start order. -/
def nextVision (s : State) (n : Nat) : Option Vision :=
  ((mget s.visionQ (n / 2)).getD []).head?.filter fun v => unitAllows s n v && footFree s (visFootprint v)

/-- Busy vclk of a job, at the bounds of R209, in femtojoules of R240. -/
def visionEnergy (v : Vision) : Nat :=
  let b := v.blk
  let px := vbW b * vbH b
  let nref := (v.cells.filter fun c => c.ref).length
  let clocks := match vbEng b with
    | 0 => 3072 + px / 4 + 16 * nref
    | 1 => 3072 + px / 2 + 24 * nref
    | 2 => 3072 + px / 8 + 64 * v.cells.length + 8 * nref
    | _ => 1024 + px / 2
  clocks * 1560000

/-- A job leaves its engine and its card takes STAT 4 (R452, R474); the engine was busy for it. -/
def visionFails (s : State) (n : Nat) (v : Vision) : State :=
  cardFailed (charge { s with engines := merase s.engines n } v.job (visionEnergy v)) v.inst v.card

/-- VISION_JOB_START (R196, R203): engine `n` takes a job and runs its pass 1. -/
def execVisionJobStart (s : State) : Host.Outcome State Fault Refusal :=
  .next (
    let n := s.input.n
    if 8 ≤ n || !engineFree s n then s
    else match nextVision s n with
      | none => s
      | some v =>
        let t := { s with
          visionQ := mset s.visionQ (n / 2) (((mget s.visionQ (n / 2)).getD []).filter fun x => decide (x.inst ≠ v.inst) || decide (x.card ≠ v.card))
          engines := mset s.engines n v }
        match runPassOne t n v true with
        | .ok v t => { t with engines := mset t.engines n v }
        | .bad _ _ t => visionFails t n v
        | .wait => s)

/-- A SELF-CHECK OF A JOB FAILS (R474): it runs again from pass 1, once; the first run was busy time too. A second failure ends it. -/
def visionAgain (s : State) (n : Nat) (v : Vision) : State :=
  if v.retried then visionFails (record s 3 0x05 2 (0x250 + n) v.job 0xFFF (vbOut v.blk) v.card true) n v
  else
    let v := { v with retried := true }
    match runPassOne (charge { s with engines := mset s.engines n v } v.job (visionEnergy v)) n v false with
    | .ok v t => { t with engines := mset t.engines n v }
    | .bad _ _ t => visionFails t n v
    | .wait => s

/-- VISION_JOB_END (R203, R474): pass 2 of engine `n`'s job, and its end. -/
def execVisionJobEnd (s : State) : Host.Outcome State Fault Refusal :=
  .next (match mget s.engines s.input.n with
    | none => s
    | some v =>
      let n := s.input.n
      match runPassTwo s n v with
      | .wait => s
      | .bad _ _ t => visionFails t n v
      | .ok false t => visionAgain t n ((mget t.engines n).getD v)
      | .ok true t =>
        let t := if v.retried then record t 3 0x05 1 (0x250 + n) v.job 0xFFF (vbOut v.blk) v.card true else t
        cardComplete (charge { t with engines := merase t.engines n } v.job (visionEnergy v)) v.inst v.card)

/-- VISION_WATCHDOG (R474): a parity check or the watchdog of engine `n` fails. -/
def execVisionWatchdog (s : State) : Host.Outcome State Fault Refusal :=
  .next (match mget s.engines s.input.n with
    | none => s
    | some v => visionAgain s s.input.n v)

end Sys2Proof.Machine
end

