-- ==== Sys2Proof/Machine/Dispatch.lean ====
section
/-! DEFINITION. One arm for each constructor of Instr: a direct call of its meaning, or a refusal by name. -/

namespace Sys2Proof.Machine

/-- The step that an instruction or an event is. -/
def exec (i : Instr) (s : State) : Host.Outcome State Fault Refusal :=
  match i with
  | .nop => Sys2Proof.Machine.execNop s
  | .halt => Sys2Proof.Machine.execHalt s
  | .trapi n a => Sys2Proof.Machine.execTrapi n a s
  | .bkpt n => Sys2Proof.Machine.execBkpt n s
  | .mfs d n => Sys2Proof.Machine.execMfs d n s
  | .mts n a => Sys2Proof.Machine.execMts n a s
  | .mfc d n => Sys2Proof.Machine.execMfc d n s
  | .mtc n a => Sys2Proof.Machine.execMtc n a s
  | .idle => Sys2Proof.Machine.execIdle s
  | .slotid d => Sys2Proof.Machine.execSlotid d s
  | .purge first last vec => Sys2Proof.Machine.execPurge first last vec s
  | .add d a b => Sys2Proof.Machine.execAdd d a b s
  | .sub d a b => Sys2Proof.Machine.execSub d a b s
  | .and d a b => Sys2Proof.Machine.execAnd d a b s
  | .or d a b => Sys2Proof.Machine.execOr d a b s
  | .xor d a b => Sys2Proof.Machine.execXor d a b s
  | .andn d a b => Sys2Proof.Machine.execAndn d a b s
  | .orn d a b => Sys2Proof.Machine.execOrn d a b s
  | .sll d a b => Sys2Proof.Machine.execSll d a b s
  | .srl d a b => Sys2Proof.Machine.execSrl d a b s
  | .sra d a b => Sys2Proof.Machine.execSra d a b s
  | .rotr d a b => Sys2Proof.Machine.execRotr d a b s
  | .slt d a b => Sys2Proof.Machine.execSlt d a b s
  | .sltu d a b => Sys2Proof.Machine.execSltu d a b s
  | .seq d a b => Sys2Proof.Machine.execSeq d a b s
  | .min d a b => Sys2Proof.Machine.execMin d a b s
  | .max d a b => Sys2Proof.Machine.execMax d a b s
  | .minu d a b => Sys2Proof.Machine.execMinu d a b s
  | .maxu d a b => Sys2Proof.Machine.execMaxu d a b s
  | .mul d a b => Sys2Proof.Machine.execMul d a b s
  | .mulh d a b => Sys2Proof.Machine.execMulh d a b s
  | .mulhu d a b => Sys2Proof.Machine.execMulhu d a b s
  | .div d a b => Sys2Proof.Machine.execDiv d a b s
  | .divu d a b => Sys2Proof.Machine.execDivu d a b s
  | .rem d a b => Sys2Proof.Machine.execRem d a b s
  | .remu d a b => Sys2Proof.Machine.execRemu d a b s
  | .clz d a => Sys2Proof.Machine.execClz d a s
  | .ctz d a => Sys2Proof.Machine.execCtz d a s
  | .popc d a => Sys2Proof.Machine.execPopc d a s
  | .bswap d a => Sys2Proof.Machine.execBswap d a s
  | .sel d a b c => Sys2Proof.Machine.execSel d a b c s
  | .shadd d a b k => Sys2Proof.Machine.execShadd d a b k s
  | .addi d a imm => Sys2Proof.Machine.execAddi d a imm s
  | .andi d a imm => Sys2Proof.Machine.execAndi d a imm s
  | .ori d a imm => Sys2Proof.Machine.execOri d a imm s
  | .xori d a imm => Sys2Proof.Machine.execXori d a imm s
  | .slti d a imm => Sys2Proof.Machine.execSlti d a imm s
  | .sltiu d a imm => Sys2Proof.Machine.execSltiu d a imm s
  | .slli d a k => Sys2Proof.Machine.execSlli d a k s
  | .srli d a k => Sys2Proof.Machine.execSrli d a k s
  | .srai d a k => Sys2Proof.Machine.execSrai d a k s
  | .rotri d a k => Sys2Proof.Machine.execRotri d a k s
  | .li d imm => Sys2Proof.Machine.execLi d imm s
  | .lim d imm => Sys2Proof.Machine.execLim d imm s
  | .lih d imm => Sys2Proof.Machine.execLih d imm s
  | .addpc d imm => Sys2Proof.Machine.execAddpc d imm s
  | .bfx d a l p => Sys2Proof.Machine.execBfx d a l p s
  | .bfi d a l p => Sys2Proof.Machine.execBfi d a l p s
  | .beq a b disp => Sys2Proof.Machine.execBeq a b disp s
  | .bne a b disp => Sys2Proof.Machine.execBne a b disp s
  | .blt a b disp => Sys2Proof.Machine.execBlt a b disp s
  | .bge a b disp => Sys2Proof.Machine.execBge a b disp s
  | .bltu a b disp => Sys2Proof.Machine.execBltu a b disp s
  | .bgeu a b disp => Sys2Proof.Machine.execBgeu a b disp s
  | .bful a disp => Sys2Proof.Machine.execBful a disp s
  | .bemp a disp => Sys2Proof.Machine.execBemp a disp s
  | .j disp => Sys2Proof.Machine.execJ disp s
  | .jal disp => Sys2Proof.Machine.execJal disp s
  | .jalr d a imm => Sys2Proof.Machine.execJalr d a imm s
  | .rep count sd sa sb sc len => Sys2Proof.Machine.execRep count sd sa sb sc len s
  | .ld t base nud sz off => Sys2Proof.Machine.execLd t base nud sz off s
  | .st t base nud sz off => Sys2Proof.Machine.execSt t base nud sz off s
  | .ldv t base nud off => Sys2Proof.Machine.execLdv t base nud off s
  | .stv t base nud off => Sys2Proof.Machine.execStv t base nud off s
  | .ldaq t base nud sz scope off => Sys2Proof.Machine.execLdaq t base nud sz scope off s
  | .strl t base nud sz scope off => Sys2Proof.Machine.execStrl t base nud sz scope off s
  | .gath d a b m dword sh nud => Sys2Proof.Machine.execGath d a b m dword sh nud s
  | .scat d a b m dword sh nud => Sys2Proof.Machine.execScat d a b m dword sh nud s
  | .ldfe t base nud off => Sys2Proof.Machine.execLdfe t base nud off s
  | .ldff t base nud off => Sys2Proof.Machine.execLdff t base nud off s
  | .stef t base nud off => Sys2Proof.Machine.execStef t base nud off s
  | .stff t base nud off => Sys2Proof.Machine.execStff t base nud off s
  | .sete base nud off => Sys2Proof.Machine.execSete base nud off s
  | .setf base nud off => Sys2Proof.Machine.execSetf base nud off s
  | .stsb t base nud six idx => Sys2Proof.Machine.execStsb t base nud six idx s
  | .amoAdd d a b ord scope word => Sys2Proof.Machine.execAmoAdd d a b ord scope word s
  | .amoAnd d a b ord scope word => Sys2Proof.Machine.execAmoAnd d a b ord scope word s
  | .amoOr d a b ord scope word => Sys2Proof.Machine.execAmoOr d a b ord scope word s
  | .amoXor d a b ord scope word => Sys2Proof.Machine.execAmoXor d a b ord scope word s
  | .amoMin d a b ord scope word => Sys2Proof.Machine.execAmoMin d a b ord scope word s
  | .amoMax d a b ord scope word => Sys2Proof.Machine.execAmoMax d a b ord scope word s
  | .amoMinu d a b ord scope word => Sys2Proof.Machine.execAmoMinu d a b ord scope word s
  | .amoMaxu d a b ord scope word => Sys2Proof.Machine.execAmoMaxu d a b ord scope word s
  | .amoSwp d a b ord scope word => Sys2Proof.Machine.execAmoSwp d a b ord scope word s
  | .amoCas d a b ord scope word => Sys2Proof.Machine.execAmoCas d a b ord scope word s
  | .amoFaddS d a b ord scope => Sys2Proof.Machine.execAmoFaddS d a b ord scope s
  | .amoFaddD d a b ord scope => Sys2Proof.Machine.execAmoFaddD d a b ord scope s
  | .fence p q scope => Sys2Proof.Machine.execFence p q scope s
  | .pfence scope mm => Sys2Proof.Machine.execPfence scope mm s
  | .pref hint base nud off => Sys2Proof.Machine.execPref hint base nud off s
  | .send d a b tag => Sys2Proof.Machine.execSend d a b tag s
  | .sendu d a b => Sys2Proof.Machine.execSendu d a b s
  | .sendg a b => Sys2Proof.Machine.execSendg a b s
  | .recv d a b poll => Sys2Proof.Machine.execRecv d a b poll s
  | .waitk d a k poll => Sys2Proof.Machine.execWaitk d a k poll s
  | .clrk a k subtract => Sys2Proof.Machine.execClrk a k subtract s
  | .mskw => Sys2Proof.Machine.execMskw s
  | .opnw => Sys2Proof.Machine.execOpnw s
  | .retu => Sys2Proof.Machine.execRetu s
  | .chbind a kc ka => Sys2Proof.Machine.execChbind a kc ka s
  | .bara d a => Sys2Proof.Machine.execBara d a s
  | .barw d a b => Sys2Proof.Machine.execBarw d a b s
  | .baraw d a b => Sys2Proof.Machine.execBaraw d a b s
  | .fadd d a b p => Sys2Proof.Machine.execFadd d a b p s
  | .fsub d a b p => Sys2Proof.Machine.execFsub d a b p s
  | .fmul d a b p => Sys2Proof.Machine.execFmul d a b p s
  | .fdiv d a b p => Sys2Proof.Machine.execFdiv d a b p s
  | .fsqrt d a p => Sys2Proof.Machine.execFsqrt d a p s
  | .fmin d a b p => Sys2Proof.Machine.execFmin d a b p s
  | .fmax d a b p => Sys2Proof.Machine.execFmax d a b p s
  | .feq d a b p => Sys2Proof.Machine.execFeq d a b p s
  | .flt d a b p => Sys2Proof.Machine.execFlt d a b p s
  | .fle d a b p => Sys2Proof.Machine.execFle d a b p s
  | .fclass d a p => Sys2Proof.Machine.execFclass d a p s
  | .fsgnj d a b p => Sys2Proof.Machine.execFsgnj d a b p s
  | .fsgnjn d a b p => Sys2Proof.Machine.execFsgnjn d a b p s
  | .fsgnjx d a b p => Sys2Proof.Machine.execFsgnjx d a b p s
  | .fcvtI d a ty p => Sys2Proof.Machine.execFcvtI d a ty p s
  | .fcvtF d a ty p => Sys2Proof.Machine.execFcvtF d a ty p s
  | .fcvtFf d a src p => Sys2Proof.Machine.execFcvtFf d a src p s
  | .fmv d a p => Sys2Proof.Machine.execFmv d a p s
  | .fma d a b c p => Sys2Proof.Machine.execFma d a b c p s
  | .fms d a b c p => Sys2Proof.Machine.execFms d a b c p s
  | .fnma d a b c p => Sys2Proof.Machine.execFnma d a b c p s
  | .fnms d a b c p => Sys2Proof.Machine.execFnms d a b c p s
  | .vadd d a b m ty => Sys2Proof.Machine.execVadd d a b m ty s
  | .vsub d a b m ty => Sys2Proof.Machine.execVsub d a b m ty s
  | .vmul d a b m ty => Sys2Proof.Machine.execVmul d a b m ty s
  | .vfma d a b c m ty => Sys2Proof.Machine.execVfma d a b c m ty s
  | .vfms d a b c m ty => Sys2Proof.Machine.execVfms d a b c m ty s
  | .vfnma d a b c m ty => Sys2Proof.Machine.execVfnma d a b c m ty s
  | .vmin d a b m ty => Sys2Proof.Machine.execVmin d a b m ty s
  | .vmax d a b m ty => Sys2Proof.Machine.execVmax d a b m ty s
  | .vabs d a m ty => Sys2Proof.Machine.execVabs d a m ty s
  | .vneg d a m ty => Sys2Proof.Machine.execVneg d a m ty s
  | .vand d a b m ty => Sys2Proof.Machine.execVand d a b m ty s
  | .vor d a b m ty => Sys2Proof.Machine.execVor d a b m ty s
  | .vxor d a b m ty => Sys2Proof.Machine.execVxor d a b m ty s
  | .vsll d a b m ty => Sys2Proof.Machine.execVsll d a b m ty s
  | .vsrl d a b m ty => Sys2Proof.Machine.execVsrl d a b m ty s
  | .vsra d a b m ty => Sys2Proof.Machine.execVsra d a b m ty s
  | .vexp2 d a m ty => Sys2Proof.Machine.execVexp2 d a m ty s
  | .vlog2 d a m ty => Sys2Proof.Machine.execVlog2 d a m ty s
  | .vrcp d a m ty => Sys2Proof.Machine.execVrcp d a m ty s
  | .vrsq d a m ty => Sys2Proof.Machine.execVrsq d a m ty s
  | .vsqrt d a m ty => Sys2Proof.Machine.execVsqrt d a m ty s
  | .vdiv d a b m ty => Sys2Proof.Machine.execVdiv d a b m ty s
  | .vcvt d a unpack part c m ty => Sys2Proof.Machine.execVcvt d a unpack part c m ty s
  | .vcvts d a part c m ty => Sys2Proof.Machine.execVcvts d a part c m ty s
  | .vqnt d a b c part ty => Sys2Proof.Machine.execVqnt d a b c part ty s
  | .vdqnt d a b c part ty => Sys2Proof.Machine.execVdqnt d a b c part ty s
  | .vclmp d a b c m ty => Sys2Proof.Machine.execVclmp d a b c m ty s
  | .vscl d a b m ty => Sys2Proof.Machine.execVscl d a b m ty s
  | .vcmp k a b cond m ty => Sys2Proof.Machine.execVcmp k a b cond m ty s
  | .vsel d a b m ty => Sys2Proof.Machine.execVsel d a b m ty s
  | .vmov d a m ty => Sys2Proof.Machine.execVmov d a m ty s
  | .vbcst d a m ty => Sys2Proof.Machine.execVbcst d a m ty s
  | .vradd d a m ty => Sys2Proof.Machine.execVradd d a m ty s
  | .vrmax d a m ty => Sys2Proof.Machine.execVrmax d a m ty s
  | .vrmin d a m ty => Sys2Proof.Machine.execVrmin d a m ty s
  | .vscana d a b m ty => Sys2Proof.Machine.execVscana d a b m ty s
  | .vshuf d a b m ty => Sys2Proof.Machine.execVshuf d a b m ty s
  | .vrotl d a b m ty => Sys2Proof.Machine.execVrotl d a b m ty s
  | .vzip d a b m ty => Sys2Proof.Machine.execVzip d a b m ty s
  | .vunzip d a b m ty => Sys2Proof.Machine.execVunzip d a b m ty s
  | .vext d a b c m ty => Sys2Proof.Machine.execVext d a b c m ty s
  | .vins d a b m ty => Sys2Proof.Machine.execVins d a b m ty s
  | .viota d m ty => Sys2Proof.Machine.execViota d m ty s
  | .vmpop d m ty => Sys2Proof.Machine.execVmpop d m ty s
  | .vmand d a b => Sys2Proof.Machine.execVmand d a b s
  | .vmor d a b => Sys2Proof.Machine.execVmor d a b s
  | .vmnot d a => Sys2Proof.Machine.execVmnot d a s
  | .vdot d a b c m ty => Sys2Proof.Machine.execVdot d a b c m ty s
  | .spawn d a b => Sys2Proof.Machine.execSpawn d a b s
  | .sync a => Sys2Proof.Machine.execSync a s
  | .finish => Sys2Proof.Machine.execFinish s
  | .launch d a b => Sys2Proof.Machine.execLaunch d a b s
  | .decr d a => Sys2Proof.Machine.execDecr d a s
  | .yield => Sys2Proof.Machine.execYield s
  | .tskst d a wait level => Sys2Proof.Machine.execTskst d a wait level s
  | .role mask => Sys2Proof.Machine.execRole mask s
  | .stamp d origin => Sys2Proof.Machine.execStamp d origin s
  | .time d => Sys2Proof.Machine.execTime d s
  | .chkage d a b => Sys2Proof.Machine.execChkage d a b s
  | .budget d texp => Sys2Proof.Machine.execBudget d texp s
  | .waitt d a scan => Sys2Proof.Machine.execWaitt d a scan s
  | .phaseid d => Sys2Proof.Machine.execPhaseid d s
  | .mxq d a b => Sys2Proof.Machine.execMxq d a b s
  | .mxwait d a => Sys2Proof.Machine.execMxwait d a s
  | .mxpoll d a => Sys2Proof.Machine.execMxpoll d a s
  | .mxepi a => Sys2Proof.Machine.execMxepi a s
  | .mxpert a => Sys2Proof.Machine.execMxpert a s
  | .mxdrain d cancel core => Sys2Proof.Machine.execMxdrain d cancel core s
  | .hdset n a => Sys2Proof.Machine.execHdset n a s
  | .hdgo d => Sys2Proof.Machine.execHdgo d s
  | .hdwait d a => Sys2Proof.Machine.execHdwait d a s
  | .hdpoll d a => Sys2Proof.Machine.execHdpoll d a s
  | .ringi a b => Sys2Proof.Machine.execRingi a b s
  | .ringaw d a b => Sys2Proof.Machine.execRingaw d a b s
  | .ringrel a b => Sys2Proof.Machine.execRingrel a b s
  | .tlst d a => Sys2Proof.Machine.execTlst d a s
  | .tlwait d a state => Sys2Proof.Machine.execTlwait d a state s
  | .tlset a b ready => Sys2Proof.Machine.execTlset a b ready s
  | .cardq d a => Sys2Proof.Machine.execCardq d a s
  | .cardw d a => Sys2Proof.Machine.execCardw d a s
  | .cancel d a level => Sys2Proof.Machine.execCancel d a level s
  | .aredc a op => Sys2Proof.Machine.execAredc a op s
  | .aredw d => Sys2Proof.Machine.execAredw d s
  | .mmark a tag => Sys2Proof.Machine.execMmark a tag s
  | .mlogq d field => Sys2Proof.Machine.execMlogq d field s
  | .pairq d => Sys2Proof.Machine.execPairq d s
  | .imlw d rs1 imm => Sys2Proof.Machine.execImlw d rs1 imm s
  | .omsw rs2 rs1 imm => Sys2Proof.Machine.execOmsw rs2 rs1 imm s
  | .wscan d => Sys2Proof.Machine.execWscan d s
  | .rtime d => Sys2Proof.Machine.execRtime d s
  | .sage d rs1 rs2 => Sys2Proof.Machine.execSage d rs1 rs2 s
  | .scq d rs1 => Sys2Proof.Machine.execScq d rs1 s
  | .scw d rs1 => Sys2Proof.Machine.execScw d rs1 s
  | .replyArrive => Sys2Proof.Machine.execReplyArrive s
  | .memoryRequestArrive => Sys2Proof.Machine.execMemoryRequestArrive s
  | .feRequestArrive => Sys2Proof.Machine.execFeRequestArrive s
  | .waitfullRetry => Sys2Proof.Machine.execWaitfullRetry s
  | .barrierArrival => Sys2Proof.Machine.execBarrierArrival s
  | .registerFill => Sys2Proof.Machine.execRegisterFill s
  | .sendArrive => Sys2Proof.Machine.execSendArrive s
  | .urgentMessageArrive => Sys2Proof.Machine.execUrgentMessageArrive s
  | .urgentAccept => Sys2Proof.Machine.execUrgentAccept s
  | .decrArrive => Sys2Proof.Machine.execDecrArrive s
  | .slotTakeWork => Sys2Proof.Machine.execSlotTakeWork s
  | .stealRequest => Sys2Proof.Machine.execStealRequest s
  | .slotStartDone => Sys2Proof.Machine.execSlotStartDone s
  | .launchFrameDeliver => Sys2Proof.Machine.execLaunchFrameDeliver s
  | .reuseClockReport => Sys2Proof.Machine.execReuseClockReport s
  | .coreResetNotice => Sys2Proof.Machine.execCoreResetNotice s
  | .scanBoundary => Sys2Proof.Machine.execScanBoundary s
  | .inputLatchComplete => Sys2Proof.Machine.execInputLatchComplete s
  | .gangStop => Sys2Proof.Machine.execGangStop s
  | .gangSaveDrained => Sys2Proof.Machine.execGangSaveDrained s
  | .gangRestoreDone => Sys2Proof.Machine.execGangRestoreDone s
  | .texpExpiry => Sys2Proof.Machine.execTexpExpiry s
  | .scanStart => Sys2Proof.Machine.execScanStart s
  | .scanStop => Sys2Proof.Machine.execScanStop s
  | .scanStopTakesEffect => Sys2Proof.Machine.execScanStopTakesEffect s
  | .jobRegister => Sys2Proof.Machine.execJobRegister s
  | .jobDelete => Sys2Proof.Machine.execJobDelete s
  | .cardTimePoint => Sys2Proof.Machine.execCardTimePoint s
  | .cardStart => Sys2Proof.Machine.execCardStart s
  | .invalStart => Sys2Proof.Machine.execInvalStart s
  | .invalComplete => Sys2Proof.Machine.execInvalComplete s
  | .lpctWrite => Sys2Proof.Machine.execLpctWrite s
  | .lpctRemap => Sys2Proof.Machine.execLpctRemap s
  | .quotaWrite => Sys2Proof.Machine.execQuotaWrite s
  | .mortarDescWrite => Sys2Proof.Machine.execMortarDescWrite s
  | .mortarRecordAppend => Sys2Proof.Machine.execMortarRecordAppend s
  | .mortarWriteRetry => Sys2Proof.Machine.execMortarWriteRetry s
  | .mortarReplayFetch => Sys2Proof.Machine.execMortarReplayFetch s
  | .divergenceTimeout => Sys2Proof.Machine.execDivergenceTimeout s
  | .mxeGrant => Sys2Proof.Machine.execMxeGrant s
  | .mxeJobEnd => Sys2Proof.Machine.execMxeJobEnd s
  | .mxeChunkRetry => Sys2Proof.Machine.execMxeChunkRetry s
  | .ballastStep => Sys2Proof.Machine.execBallastStep s
  | .hodTransferStart => Sys2Proof.Machine.execHodTransferStart s
  | .hodPacketIssue => Sys2Proof.Machine.execHodPacketIssue s
  | .hodPacketPerform => Sys2Proof.Machine.execHodPacketPerform s
  | .hodTransferEnd => Sys2Proof.Machine.execHodTransferEnd s
  | .reductionComplete => Sys2Proof.Machine.execReductionComplete s
  | .visionJobStart => Sys2Proof.Machine.execVisionJobStart s
  | .visionJobEnd => Sys2Proof.Machine.execVisionJobEnd s
  | .visionWatchdog => Sys2Proof.Machine.execVisionWatchdog s
  | .frameArrival => Sys2Proof.Machine.execFrameArrival s
  | .cameraBlockLand => Sys2Proof.Machine.execCameraBlockLand s
  | .outputFreeze => Sys2Proof.Machine.execOutputFreeze s
  | .outputTransmit => Sys2Proof.Machine.execOutputTransmit s
  | .gateWrite => Sys2Proof.Machine.execGateWrite s
  | .gclWrite => Sys2Proof.Machine.execGclWrite s
  | .forwardedFrameArrive => Sys2Proof.Machine.execForwardedFrameArrive s
  | .pairAsActive => Sys2Proof.Machine.execPairAsActive s
  | .pairAsStandby => Sys2Proof.Machine.execPairAsStandby s
  | .pairSwitchOver => Sys2Proof.Machine.execPairSwitchOver s
  | .pairUnpair => Sys2Proof.Machine.execPairUnpair s
  | .pairHandshake => Sys2Proof.Machine.execPairHandshake s
  | .pairSilenceTimeout => Sys2Proof.Machine.execPairSilenceTimeout s
  | .partnerResetSignal => Sys2Proof.Machine.execPartnerResetSignal s
  | .attestRequest => Sys2Proof.Machine.execAttestRequest s
  | .attestComplete => Sys2Proof.Machine.execAttestComplete s
  | .clkctlWrite => Sys2Proof.Machine.execClkctlWrite s
  | .ratioChangeStart => Sys2Proof.Machine.execRatioChangeStart s
  | .ratioChangeDone => Sys2Proof.Machine.execRatioChangeDone s
  | .ratioStepTimeout => Sys2Proof.Machine.execRatioStepTimeout s
  | .droopTrip => Sys2Proof.Machine.execDroopTrip s
  | .droopLimit => Sys2Proof.Machine.execDroopLimit s
  | .thermalSample => Sys2Proof.Machine.execThermalSample s
  | .thermalMigration => Sys2Proof.Machine.execThermalMigration s
  | .plumbSet => Sys2Proof.Machine.execPlumbSet s
  | .energyUpdate => Sys2Proof.Machine.execEnergyUpdate s
  | .heartbeatWrite => Sys2Proof.Machine.execHeartbeatWrite s
  | .heartbeatPeriodEnd => Sys2Proof.Machine.execHeartbeatPeriodEnd s
  | .captureTimeout => Sys2Proof.Machine.execCaptureTimeout s
  | .errorRecord => Sys2Proof.Machine.execErrorRecord s
  | .eccCountReport => Sys2Proof.Machine.execEccCountReport s
  | .patrolScrub => Sys2Proof.Machine.execPatrolScrub s
  | .faultNotice => Sys2Proof.Machine.execFaultNotice s
  | .faultNoticeRetry => Sys2Proof.Machine.execFaultNoticeRetry s
  | .faultWake => Sys2Proof.Machine.execFaultWake s
  | .retireBlock => Sys2Proof.Machine.execRetireBlock s
  | .retireRelease => Sys2Proof.Machine.execRetireRelease s
  | .retireCopyDone => Sys2Proof.Machine.execRetireCopyDone s
  | .pairchkCouple => Sys2Proof.Machine.execPairchkCouple s
  | .pairchkDecouple => Sys2Proof.Machine.execPairchkDecouple s
  | .fingerprintExchange => Sys2Proof.Machine.execFingerprintExchange s
  | .containFence => Sys2Proof.Machine.execContainFence s
  | .containReturn => Sys2Proof.Machine.execContainReturn s
  | .watchWrite => Sys2Proof.Machine.execWatchWrite s
  | .watchStopArrive => Sys2Proof.Machine.execWatchStopArrive s
  | .debugStop => Sys2Proof.Machine.execDebugStop s
  | .debugGo => Sys2Proof.Machine.execDebugGo s
  | .debugResume => Sys2Proof.Machine.execDebugResume s
  | .debugStep => Sys2Proof.Machine.execDebugStep s
  | .faultResume => Sys2Proof.Machine.execFaultResume s
  | .killTask => Sys2Proof.Machine.execKillTask s
  | .debugLockWrite => Sys2Proof.Machine.execDebugLockWrite s
  | .debugWindowWrite => Sys2Proof.Machine.execDebugWindowWrite s
  | .moduleReset => Sys2Proof.Machine.execModuleReset s
  | .modulePowerLoss => Sys2Proof.Machine.execModulePowerLoss s
  | .clusterPowerLoss => Sys2Proof.Machine.execClusterPowerLoss s
  | .clusterResume => Sys2Proof.Machine.execClusterResume s
  | .journalDrain => Sys2Proof.Machine.execJournalDrain s
  | .compactionStep => Sys2Proof.Machine.execCompactionStep s
  | .ovflRead => Sys2Proof.Machine.execOvflRead s
  | .ovcntRead => Sys2Proof.Machine.execOvcntRead s
  | .dinjRead => Sys2Proof.Machine.execDinjRead s
  | .strcntRead => Sys2Proof.Machine.execStrcntRead s
  | .elostRead => Sys2Proof.Machine.execElostRead s
  | .gateCounterRead => Sys2Proof.Machine.execGateCounterRead s
  | .registerWrite => Sys2Proof.Machine.execRegisterWrite s
  | .unassignedEncoding => Sys2Proof.Machine.execUnassignedEncoding s
  | .waittTimeReached => Sys2Proof.Machine.execWaittTimeReached s
  | .scanCoreBaseInstruction => Sys2Proof.Machine.execScanCoreBaseInstruction s
  | .pcieLinkTrained => Sys2Proof.Machine.execPcieLinkTrained s
  | .pcieLinkDown => Sys2Proof.Machine.execPcieLinkDown s
  | .pairFlitArrive => Sys2Proof.Machine.execPairFlitArrive s
  | .droopRestored => Sys2Proof.Machine.execDroopRestored s
  | .stretchWindowEnd => Sys2Proof.Machine.execStretchWindowEnd s
  | .gclIntervalEnd => Sys2Proof.Machine.execGclIntervalEnd s
  | .reuseWindowEnd => Sys2Proof.Machine.execReuseWindowEnd s
  | .deviceWritten => Sys2Proof.Machine.execDeviceWritten s

end Sys2Proof.Machine
end

