-- ==== Sys2Proof/Machine/Issue.lean ====
section
/-! DEFINITION. A core's turn: the issue of one slot (R45 to R48, R141, R240, R406, R409, R430); a hart's turn: fetch and
one instruction (R218). -/

namespace Sys2Proof.Machine

/-! ### Barrel cores -/

/-- Whether the slot's instruction has issued: it retired, waits for its answer, or faulted. -/
def hasIssued (s0 s1 : State) (p n : Nat) : Bool :=
  let t := getSlot s1 p n
  decide (slotRsn s0 p n ≠ slotRsn s1 p n) || t.pend.isSome || decide (t.st = .frozen) || decide (t.st = .empty)

/-- A slot that is being stepped, or is to freeze, and fails its issue check freezes: nothing is held during a step (R406, R409). One
whose release waits has issued, and freezes when it retires (R288). -/
def steppedSlot (sl : Slot) : Slot :=
  if freezesNext sl && decide (sl.st = .parked) then
    { sl with st := .frozen, park := .none, cause := nextCause sl, dpc := sl.pc.setWidth 48, stepping := false, stopNext := 0 }
  else sl

/-- After an instruction of slot `n`, issued in state `s0` where its last issue was at `was`: what the core holds goes on where it may (R299, R308);
a full shadow queue passes
the slot over (R47, R141); a slot that did not issue keeps its last issue; a stop on its way counts the skid (R406). -/
def afterIssue (s0 : State) (was : Option Nat) (p n : Nat) (s1 : State) : State :=
  let q0 := (getCore s0 p).shadow
  let q1 := (getCore s1 p).shadow
  if 64 < q1.length ∧ q0 ≠ [] ∧ q0.length < q1.length then updSlot s0 p n fun sl => { sl with lastIssue := was }
  else
    let s1 := settleHeld (updSlot (noteRetired s0 s1 p n) p n steppedSlot) p
    if hasIssued s0 s1 p n then
      let s1 := charge s1 (getSlot s0 p n).jobId.toNat (scaledEnergy s1 (clusterOf p) 174000)
      if (getCore s0 p).stopping.isSome then
        updSlot s1 p n fun sl => { sl with skid := if sl.skid = 255 then 255 else sl.skid + 1 }
      else s1
    else updSlot s1 p n fun sl => { sl with lastIssue := was }

/-- The instruction of slot `n` at its position: fetch, decode, the decoded instruction's meaning. -/
def runSlot (s : State) (p n : Nat) : Host.Outcome State Fault Refusal :=
  match issueWord s p n with
  | .error s => .next s
  | .ok (w, s) =>
    match decode w with
    | .ok i => exec i { s with word := w }
    | .error _ => exec .unassignedEncoding { s with word := w }

/-- THE ISSUE OF SLOT `n` of core `p` at core clock `t`: an Active slot whose task is cancelled becomes Empty (R25); one
that awaits its fingerprint exchange is passed over (R470). -/
def issueAt (s : State) (p n t : Nat) : Host.Outcome State Fault Refusal :=
  let sl := getSlot s p n
  if sl.st ≠ .active || sl.exchanging then .next s
  else if taskCancelled s sl then .next (emptySlot s p n)
  else
    let s0 := { updSlot s p n fun sl => { sl with lastIssue := some t } with who := (p, n) }
    match runSlot s0 p n with
    | .next s1 => .next (afterIssue s0 sl.lastIssue p n s1)
    | o => o

/-- A core without a slot to issue before its next pending write: that takes effect, and a pass that is on its way stays as it is. -/
def idleCore (s : State) (p : Nat) : State :=
  let s := if (fixPass (getCore s p)).pass = [] then s else updCore s p fixPass
  let s := settleHeld s p
  match nextDue (getCore s p) with
  | none => s
  | some t => settle (updCore s p fun c => { c with cc := max c.cc t }) p t

/-- A CORE'S TURN (R45 to R47): what is due takes effect, the rotation names a slot, which first accepts a waiting
urgent message if it may (R59), and otherwise issues. -/
def coreTurn (s : State) (p : Nat) : Host.Outcome State Fault Refusal :=
  if !mayIssue s p then .next s
  else
    let s := settle s p (getCore s p).cc
    match nextIssue (getCore s p) with
    | none => .next (idleCore s p)
    | some (n, t, c) =>
      if stopDue s p t then .next s
      else
      let go := fun (s : State) => issueAt (settle (setCore s p c) p t) p n t
      match acceptable s p n with
      | none => go s
      | some u =>
        let s' := acceptUrgent s p n u
        if getSlot s' p n = getSlot s p n then go s else .next s'

/-! ### Scan cores -/

/-- Fetch of a halfword by the issuing hart, by its protection (R218). -/
def hartFetch (s : State) (a : Word) : Chk (BitVec 16 × State) := do
  if !pmpOk (hme s) (hme s).mode a 2 2 then htrap s 1 a
  else match hartPlace s a true false with
    | (.mem pa, s) =>
      let (bs, psn, s) := slRead s pa 2 30 (hme s).sjob.toNat noLaunch
      if psn then htrap s 1 a else return (leWord 16 bs, s)
    | (.own h o, s) => return (leWord 16 (memBytes (getHart s h).mem o 2), s)
    | (.durable o, s) =>
      let (bs, psn) := durRead s o 2
      if psn then htrap s 1 a else return (leWord 16 bs, s)
    | (_, s) => htrap s 1 a

/-- The word at the hart's pc: 16 or 32 bits. -/
def hartWord (s : State) : Chk (BitVec 32 × State) := do
  let (lo, s) ← hartFetch s (hme s).pc
  if bits lo 1 0 ≠ 3 then return (lo.setWidth 32, s)
  else
    let (hi, s) ← hartFetch s ((hme s).pc + 2)
    return (hi ++ lo, s)

/-- The custom instruction that a word of 32 bits holds. -/
def hartDecode (w : BitVec 32) : Instr :=
  match decodeScan w with
  | some i => i
  | none => .scanCoreBaseInstruction

/-- A HART'S TURN: one instruction, or the trap that its fetch takes. -/
def hartTurn (s : State) (h : Nat) : Host.Outcome State Fault Refusal :=
  if s.imagesOff then .next s
  else match hartWord { s with hartId := h } with
  | .error s => .next s
  | .ok (w, s) => exec (hartDecode w) { s with word := w }

end Sys2Proof.Machine
end

