-- ==== Sys2Proof/Machine/Sched.lean ====
section
/-! DEFINITION. Who moves next (assumption log 5): the turn at the head of the agenda, or when the agenda is empty a free
choice among the turns that can be taken. -/

namespace Sys2Proof.Machine

/-- Cores whose full shadow queues an event would overfill. -/
def overfilled (s t : State) : List Nat :=
  (t.cores.filter fun (p, c) =>
    decide (64 < c.shadow.length) && decide ((getCore s p).shadow ≠ []) && decide ((getCore s p).shadow.length < c.shadow.length)).map
    fun e => e.1

/-- After an event: what the cores hold goes on where it may (R299, R308, R150, R154, R155), and slots that wait for the performance
of earlier events look again. -/
def afterEvent (t : State) : State :=
  let held := t.cores.filter fun e => decide (e.2.waits ≠ []) || decide (e.2.res.overflow ≠ [])
  wakeAll (held.foldl (fun s e => settleHeld s e.1) t) fun w => decide (w = .performed)

/-- An event and what follows it. -/
def runEvent (s : State) (e : Instr) (a : Input) : Host.Outcome State Fault Refusal :=
  match exec e { s with input := a } with
  | .next t => .next (afterEvent t)
  | o => o

/-- An event of the part's units. One whose entries would not fit a core's shadow queue waits until the queue has drained (R141). -/
def eventTurn (s : State) (e : Instr) (a : Input) : Host.Outcome State Fault Refusal :=
  match runEvent s e a with
  | .next t => if overfilled s t = [] then .next t else runEvent ((overfilled s t).foldl drainAll s) e a
  | o => o

/-- Carry out a turn. -/
def runTurn (s : State) : Turn → Host.Outcome State Fault Refusal
  | .core p => coreTurn s p
  | .hart h => hartTurn s h
  | .event e a => eventTurn s e a

/-! ### What can happen by itself -/

/-- The event that a request brings about when it arrives. -/
def actEvent : Act → Instr
  | .fe _ => .feRequestArrive
  | .barrierArrive | .barrierWait _ | .barrierBoth _ => .barrierArrival
  | _ => .memoryRequestArrive

/-- The event that a thing in flight brings about when it arrives. -/
def msgEvent : Msg → Option Instr
  | .req _ r => some (actEvent r.act)
  | .held .. => none
  | .reply .. => some .replyArrive
  | .fill .. => some .registerFill
  | .send .. => some .sendArrive
  | .urgent .. => some .urgentMessageArrive
  | .decr .. => some .decrArrive
  | .steal .. => some .stealRequest
  | .frame .. => some .launchFrameDeliver
  | .clock .. => some .reuseClockReport
  | .resetNotice .. => some .coreResetNotice
  | .packet .. => some .hodPacketPerform
  | .notice .. => some .faultNotice
  | .watchStop .. => some .watchStopArrive

/-- Turns that deliver what is in flight; a request may get its acknowledgement before it is performed (R115). -/
def netTurns (s : State) : List Turn :=
  (s.net.zip (upTo s.net.length)).flatMap fun (m, i) => match msgEvent m with
    | some e => .event e { n := i } :: (if e = .memoryRequestArrive then [.event e { n := i, flag := true }] else [])
    | none => []

/-- An event of unit `n`. -/
def evt (e : Instr) (n : Nat) : Turn := .event e { n := n }
/-- An event of unit `n` and its part `k`. -/
def evt2 (e : Instr) (n k : Nat) : Turn := .event e { n := n, k := k }

/-- Turns about slot `n` of core `p`. -/
def slotTurns (p n : Nat) (sl : Slot) : List Turn :=
  (match sl.st with | .empty => [evt2 .slotTakeWork p n] | .starting => [evt2 .slotStartDone p n] | _ => [])
    ++ (if sl.urgents = [] then [] else [evt2 .urgentAccept p n])
    ++ (match sl.park with | .time _ => [evt2 .waittTimeReached p n] | _ => [])
    ++ (match sl.pend with | some d => (if d.again.isSome then [evt2 .waitfullRetry p n] else []) | none => [])
    ++ (if sl.exchanging then [evt2 .fingerprintExchange (p / 2) n] else [])

/-- Turns of a core: its rotation, its slots, its journal and its engines. -/
def coreTurns (s : State) : List Turn :=
  s.cores.flatMap fun (p, c) =>
    [.core p, evt .journalDrain p, evt .compactionStep p, evt .hodTransferStart p, evt .hodTransferEnd p]
      ++ (if c.corrected = 0 then [] else [evt .eccCountReport p])
      ++ (upTo 16).flatMap fun n => slotTurns p n (ctxSlot c.res n)

/-- Turns of the clusters. -/
def clusterTurns (s : State) : List Turn :=
  (upTo 24).flatMap fun i => [evt .hodPacketIssue i, evt .mxeGrant i, evt .mxeJobEnd i, evt .mxeChunkRetry i, evt .ratioChangeStart i]
    ++ (if (getCluster s i).busy then [evt .ratioChangeDone i] else [])
    ++ (if (getCluster s i).bramp = 0 then [] else [evt .ballastStep i])
    ++ (if (getCluster s i).stretched || (getCluster s i).droop then [evt .stretchWindowEnd i] else [])

/-- Turns of the memory nodes. -/
def nodeTurns (s : State) : List Turn :=
  s.nodes.flatMap fun (i, n) => evt .reuseWindowEnd i
    :: (match n.migration with | some m => [evt2 .retireCopyDone i (m.copied + 1), evt2 .retireCopyDone i 512] | none => [])
    ++ (if n.corrected = 0 then [] else [evt .eccCountReport (0x100 + i)])
    ++ n.sets.flatMap fun e => (e.2.filter fun l => l.dirty).map fun l => evt2 .deviceWritten i l.line

/-- Turns of the jobs: reductions, gang switches, the Mortar. -/
def jobTurns (s : State) : List Turn :=
  (s.jobs.map fun j => evt .reductionComplete j.id)
    ++ (s.switches.flatMap fun w => w.cores.map (fun p => evt2 .gangStop w.job p) ++ [evt .gangSaveDrained w.job, evt .gangRestoreDone w.job])
    ++ s.mortars.flatMap fun (j, m) => [evt .mortarRecordAppend j, evt .mortarWriteRetry j, evt .mortarReplayFetch j]
        ++ m.handed.map fun r => evt2 .divergenceTimeout j (recPoint r.2)

/-- Turns of the graph instances and of the vision engines. -/
def graphTurns (s : State) : List Turn :=
  (s.graphs.flatMap fun g => g.cards.flatMap fun k =>
      [evt2 .cardTimePoint (graphRef g) k, evt2 .cardStart (graphRef g) k])
    ++ (upTo 8).flatMap fun i => [evt .visionJobStart i, evt .visionJobEnd i]

/-- Turns of ingress and of the pair. -/
def edgeTurns (s : State) : List Turn :=
  (s.gates.flatMap fun (g, _) => evt .cameraBlockLand g :: evt .outputFreeze g :: (upTo 8).map fun p => evt2 .outputTransmit g p)
    ++ (s.ports.map fun e => evt .gclIntervalEnd e.1) ++ [.event .pairSilenceTimeout {}]

/-- Turns of the control complex. -/
def controlTurns (s : State) : List Turn :=
  (if s.errQueue = [] then [] else [.event .errorRecord {}])
    ++ (if s.remaps = [] then [] else [.event .lpctRemap {}])
    ++ (if s.invBusy then [.event .invalComplete {}] else [])
    ++ (if s.attBusy then [.event .attestComplete {}] else [])
    ++ (s.migrations.map fun m => evt .thermalMigration m.1)
    ++ ((upTo s.refusedNotices.length).map fun i => evt .faultNoticeRetry i)
    ++ (s.pairChk.flatMap fun (m, q) => if q.failed.isSome then [evt2 .fingerprintExchange m 0] else if q.state = 1 then [.event .pairchkCouple { n := m, flag := true }]
        else if q.state = 2 ∧ !q.en then [.event .pairchkDecouple { n := m, flag := true }] else [])
    ++ ((upTo 192).flatMap fun p => [evt .heartbeatPeriodEnd p, evt .captureTimeout p])
    ++ [.event .energyUpdate {}, .event .inputLatchComplete {}]

/-- Every turn that can be taken without something from outside. -/
def turns (s : State) : List Turn :=
  netTurns s ++ coreTurns s ++ ((upTo 8).map fun h => .hart h) ++ clusterTurns s ++ nodeTurns s ++ jobTurns s ++ graphTurns s
    ++ edgeTurns s ++ controlTurns s

/-! ### Deadlines -/

/-- The time points of armed cards that are still to be met in this opening (R168). One at Texp stands before Texp, which
does not cut it off. -/
def cardPoints (s : State) : List (Nat × Turn) :=
  s.graphs.flatMap fun g => g.cards.filterMap fun k =>
    if !cardWaits g k || g.timeMet.contains k || !phaseOpenFor s g then none
    else match findJob s g.job with
      | none => none
      | some j => match readRecord s g.job (cardAddr j k) with
        | (some c, _) =>
          if (decide (cardTrig c = 1) || decide (cardTrig c = 2)) && pointInPhase s g (timePoint g c) then
            some (timePoint g c, evt2 .cardTimePoint (graphRef g) k)
          else none
        | _ => none

/-- The freeze of an output gate, and its transmission on each of its ports (R216). -/
def gateDeadlines (s : State) (g : Nat) : List (Nat × Turn) :=
  let x := getGate s g
  if !x.frozen then [(boundaryTime s + gtOfrz x.entry * 1000, evt .outputFreeze g)]
  else if (findJob s (g + 1)).isNone then []
  else ((upTo 8).filter fun p => decide (gtPorts x.entry / 2 ^ p % 2 = 1) && !x.sent.contains p).map fun p =>
    (boundaryTime s + gtOtx x.entry * 1000, evt2 .outputTransmit g p)

/-- What happens at a time that the manual fixes: boundaries (R158, R163), the end of a latch (R215), Texp (R171), freezes and
transmissions (R216), the intervals of gate control lists (R211), times for which slots are parked (R358). -/
def deadlines (s : State) : List (Nat × Turn) :=
  (if s.run && !s.latching then [(nextBoundary s, .event .scanBoundary {})] else [])
    ++ (if s.stopPending then [(nextBoundary s, .event .scanStopTakesEffect {})] else [])
    ++ (if s.latching then [(boundaryTime s + 640, .event .inputLatchComplete {})] else [])
    ++ cardPoints s
    ++ ((s.jobs.filter fun j => decide (j.phase = .opened)).map fun j => (j.texp, evt .texpExpiry j.id))
    ++ (if s.scans = 0 then [] else (validGates s 1).flatMap (gateDeadlines s))
    ++ (s.ports.filterMap fun (i, q) => if q.gcl = [] then none else some (gclEnd q, evt .gclIntervalEnd i))
    ++ s.cores.flatMap fun (p, c) => c.res.slots.filterMap fun (n, sl) => match sl.park with
        | .time t => some (t.toNat, evt2 .waittTimeReached p n)
        | _ => none

/-- The earliest deadline that falls by a time. -/
def dueBy (s : State) (t : Nat) : Option (Nat × Turn) :=
  (deadlines s).foldl (fun b d => if t < d.1 then b else match b with
    | some e => if d.1 < e.1 then some d else b
    | none => some d) none

/-- The turn after the agenda ran out: Plumb time passes to the next deadline, which is met, or one of the turns is taken. -/
def freeTurn (s : State) : Turn × State :=
  let t := s.plumb + Config.elapsed s.draws
  let s := { s with draws := s.draws + 1 }
  match dueBy s t with
  | some (d, e) => (e, { s with plumb := max s.plumb d })
  | none =>
    let (k, s) := drawNat { s with plumb := t }
    let ts := turns s
    (ts.getD (k % ts.length) (.core 0), s)

/-- The turn at the head of the agenda starts the module or takes its power: all that reaches a module in reset. -/
def startsModule (s : State) : Bool :=
  match s.agenda with
  | .event .moduleReset _ :: _ | .event .modulePowerLoss _ :: _ => true
  | _ => false

/-- ONE STEP: the module stays in reset after a failed boot (R427); otherwise one turn. -/
def stepTurn (s : State) : Host.Outcome State Fault Refusal :=
  if s.bootFailed && !startsModule s then .fault .bootFailed
  else match s.agenda with
    | t :: r => runTurn { s with agenda := r } t
    | [] => let (t, s) := freeTurn s; runTurn s t

/-! ### The first instruction (log 17) -/

/-- A region set of job 0 that covers the local store for reads and writes (R90). -/
def openRegions : List RegionSet :=
  [{ job := 0, pregs := [BitVec.ofNat 64 (2 ^ 63 + 2 ^ 62 + 2 ^ 61 + 2047 * 2 ^ 16), 0, 0, 0, 0, 0, 0, 0] }]

/-- Place a barrel word: slot 0 of core 0 is Active with its PC at offset 0 of its local store, which holds the word, and
core 0 has the next turn. -/
def placeSlot (s : State) (word : BitVec 32) : State :=
  let s := updCore s 0 fun c => { c with res := { c.res with
    ls := memStore c.res.ls 0 (natBytes 4 word.toNat), regions := openRegions
    slots := mset c.res.slots 0 { ctxSlot c.res 0 with st := .active, pc := BitVec.ofNat 64 (0xFF * 2 ^ 56) } } }
  { s with agenda := [.core 0] }

/-- Place a word of a scan core at the pc of hart 0, whose turn is next. -/
def placeHart (s : State) (word : BitVec 32) : State :=
  let s := updHart s 0 fun t => { t with mem := memStore t.mem 0 (natBytes 4 word.toNat)
                                         pc := BitVec.ofNat 64 (0xE0 * 2 ^ 56 + 0x2000000) }
  { s with agenda := [.hart 0] }

/-- A word of the opcode table where the next step fetches it: a custom word of the scan cores at hart 0, any other at
slot 0 of core 0. -/
def placeWord (s : State) (nbits w : Nat) : State :=
  let word : BitVec 32 := BitVec.ofNat 32 (w % 2 ^ nbits)
  match decode word, decodeScan word with
  | .error _, some _ => placeHart s word
  | _, _ => placeSlot s word

end Sys2Proof.Machine
end

