-- ==== Sys2Proof/Laws/Encoding.lean ====
section
/-! SUPPORT. The fields of a word built in a format of R243 or R244 are what it was built from. -/

namespace Sys2Proof

theorem extHi {w v : Nat} (x : BitVec w) (y : BitVec v) (i n : Nat) (h : v ≤ i) :
    (x ++ y).extractLsb' i n = x.extractLsb' (i - v) n := by
  apply BitVec.eq_of_getLsbD_eq
  intro j hj
  simp only [BitVec.getLsbD_extractLsb', BitVec.getLsbD_append]
  rw [if_neg (by omega)]
  congr 2; omega

theorem extLo {w v : Nat} (x : BitVec w) (y : BitVec v) (i n : Nat) (h : i + n ≤ v) :
    (x ++ y).extractLsb' i n = y.extractLsb' i n := by
  apply BitVec.eq_of_getLsbD_eq
  intro j hj
  simp only [BitVec.getLsbD_extractLsb', BitVec.getLsbD_append]
  rw [if_pos (by omega)]

theorem extAll {w : Nat} (x : BitVec w) : x.extractLsb' 0 w = x := by simp

/-! ### Codes of the modifiers -/

@[simp] theorem unbit_bit (b : Bool) : unbit (bit b) = b := by cases b <;> rfl
@[simp] theorem ldSizeOf_bits (x : LdSize) : ldSizeOf (ldSizeBits x) = some x := by cases x <;> rfl
@[simp] theorem stSizeOf_bits (x : StSize) : stSizeOf (stSizeBits x) = some x := by cases x <;> rfl
@[simp] theorem scopeOf_bits (x : Scope) : scopeOf (scopeBits x) = some x := by cases x <;> rfl
@[simp] theorem amoOrdOf_bits (x : AmoOrd) : amoOrdOf (amoOrdBits x) = x := by cases x <;> rfl
@[simp] theorem precOf_bits (x : Prec) : precOf (precBits x) = x := by cases x <;> rfl
@[simp] theorem intTyOf_bits (x : IntTy) : intTyOf (intTyBits x) = some x := by cases x <;> rfl
@[simp] theorem vTyOf_bits (x : VTy) : vTyOf (vTyBits x) = x := by cases x <;> rfl
@[simp] theorem pFmtOf_bits (x : PFmt) : pFmtOf (pFmtBits x) = some x := by cases x <;> rfl
@[simp] theorem vCondOf_bits (x : VCond) : vCondOf (vCondBits x) = some x := by cases x <;> rfl
@[simp] theorem levelOf_bits (x : Level) : levelOf (levelBits x) = x := by cases x <;> rfl
@[simp] theorem redOpOf_bits (x : RedOp) : redOpOf (redOpBits x) = x := by cases x <;> rfl

/-! ### Fields of the formats -/

@[simp] theorem fF_fmtA (maj : BitVec 6) (d : BitVec 5) (a : BitVec 5) (b : BitVec 5) (f : BitVec 11) : fF (fmtA maj d a b f) = f :=
  (extLo _ f _ _ (by decide)).trans <| extAll f
@[simp] theorem fB_fmtA (maj : BitVec 6) (d : BitVec 5) (a : BitVec 5) (b : BitVec 5) (f : BitVec 11) : fB (fmtA maj d a b f) = b :=
  (extHi _ f _ _ (by decide)).trans <| (extLo _ b _ _ (by decide)).trans <| extAll b
@[simp] theorem fA_fmtA (maj : BitVec 6) (d : BitVec 5) (a : BitVec 5) (b : BitVec 5) (f : BitVec 11) : fA (fmtA maj d a b f) = a :=
  (extHi _ f _ _ (by decide)).trans <| (extHi _ b _ _ (by decide)).trans <| (extLo _ a _ _ (by decide)).trans <| extAll a
@[simp] theorem fD_fmtA (maj : BitVec 6) (d : BitVec 5) (a : BitVec 5) (b : BitVec 5) (f : BitVec 11) : fD (fmtA maj d a b f) = d :=
  (extHi _ f _ _ (by decide)).trans <| (extHi _ b _ _ (by decide)).trans <| (extHi _ a _ _ (by decide)).trans <| (extLo _ d _ _ (by decide)).trans <| extAll d
@[simp] theorem fMajor_fmtA (maj : BitVec 6) (d : BitVec 5) (a : BitVec 5) (b : BitVec 5) (f : BitVec 11) : fMajor (fmtA maj d a b f) = maj :=
  (extHi _ f _ _ (by decide)).trans <| (extHi _ b _ _ (by decide)).trans <| (extHi _ a _ _ (by decide)).trans <| (extHi _ d _ _ (by decide)).trans <| extAll maj
@[simp] theorem fImm16_fmtI (maj : BitVec 6) (d : BitVec 5) (a : BitVec 5) (imm : BitVec 16) : fImm16 (fmtI maj d a imm) = imm :=
  (extLo _ imm _ _ (by decide)).trans <| extAll imm
@[simp] theorem fA_fmtI (maj : BitVec 6) (d : BitVec 5) (a : BitVec 5) (imm : BitVec 16) : fA (fmtI maj d a imm) = a :=
  (extHi _ imm _ _ (by decide)).trans <| (extLo _ a _ _ (by decide)).trans <| extAll a
@[simp] theorem fD_fmtI (maj : BitVec 6) (d : BitVec 5) (a : BitVec 5) (imm : BitVec 16) : fD (fmtI maj d a imm) = d :=
  (extHi _ imm _ _ (by decide)).trans <| (extHi _ a _ _ (by decide)).trans <| (extLo _ d _ _ (by decide)).trans <| extAll d
@[simp] theorem fMajor_fmtI (maj : BitVec 6) (d : BitVec 5) (a : BitVec 5) (imm : BitVec 16) : fMajor (fmtI maj d a imm) = maj :=
  (extHi _ imm _ _ (by decide)).trans <| (extHi _ a _ _ (by decide)).trans <| (extHi _ d _ _ (by decide)).trans <| extAll maj
@[simp] theorem fImm21_fmtL (maj : BitVec 6) (d : BitVec 5) (imm : BitVec 21) : fImm21 (fmtL maj d imm) = imm :=
  (extLo _ imm _ _ (by decide)).trans <| extAll imm
@[simp] theorem fD_fmtL (maj : BitVec 6) (d : BitVec 5) (imm : BitVec 21) : fD (fmtL maj d imm) = d :=
  (extHi _ imm _ _ (by decide)).trans <| (extLo _ d _ _ (by decide)).trans <| extAll d
@[simp] theorem fMajor_fmtL (maj : BitVec 6) (d : BitVec 5) (imm : BitVec 21) : fMajor (fmtL maj d imm) = maj :=
  (extHi _ imm _ _ (by decide)).trans <| (extHi _ d _ _ (by decide)).trans <| extAll maj
@[simp] theorem fOff_fmtM (maj : BitVec 6) (t : BitVec 5) (base : BitVec 5) (nud : BitVec 5) (sz : BitVec 3) (off : BitVec 8) : fOff (fmtM maj t base nud sz off) = off :=
  (extLo _ off _ _ (by decide)).trans <| extAll off
@[simp] theorem fSz_fmtM (maj : BitVec 6) (t : BitVec 5) (base : BitVec 5) (nud : BitVec 5) (sz : BitVec 3) (off : BitVec 8) : fSz (fmtM maj t base nud sz off) = sz :=
  (extHi _ off _ _ (by decide)).trans <| (extLo _ sz _ _ (by decide)).trans <| extAll sz
@[simp] theorem fB_fmtM (maj : BitVec 6) (t : BitVec 5) (base : BitVec 5) (nud : BitVec 5) (sz : BitVec 3) (off : BitVec 8) : fB (fmtM maj t base nud sz off) = nud :=
  (extHi _ off _ _ (by decide)).trans <| (extHi _ sz _ _ (by decide)).trans <| (extLo _ nud _ _ (by decide)).trans <| extAll nud
@[simp] theorem fA_fmtM (maj : BitVec 6) (t : BitVec 5) (base : BitVec 5) (nud : BitVec 5) (sz : BitVec 3) (off : BitVec 8) : fA (fmtM maj t base nud sz off) = base :=
  (extHi _ off _ _ (by decide)).trans <| (extHi _ sz _ _ (by decide)).trans <| (extHi _ nud _ _ (by decide)).trans <| (extLo _ base _ _ (by decide)).trans <| extAll base
@[simp] theorem fD_fmtM (maj : BitVec 6) (t : BitVec 5) (base : BitVec 5) (nud : BitVec 5) (sz : BitVec 3) (off : BitVec 8) : fD (fmtM maj t base nud sz off) = t :=
  (extHi _ off _ _ (by decide)).trans <| (extHi _ sz _ _ (by decide)).trans <| (extHi _ nud _ _ (by decide)).trans <| (extHi _ base _ _ (by decide)).trans <| (extLo _ t _ _ (by decide)).trans <| extAll t
@[simp] theorem fMajor_fmtM (maj : BitVec 6) (t : BitVec 5) (base : BitVec 5) (nud : BitVec 5) (sz : BitVec 3) (off : BitVec 8) : fMajor (fmtM maj t base nud sz off) = maj :=
  (extHi _ off _ _ (by decide)).trans <| (extHi _ sz _ _ (by decide)).trans <| (extHi _ nud _ _ (by decide)).trans <| (extHi _ base _ _ (by decide)).trans <| (extHi _ t _ _ (by decide)).trans <| extAll maj
@[simp] theorem fDisp26_fmtJ (maj : BitVec 6) (disp : BitVec 26) : fDisp26 (fmtJ maj disp) = disp :=
  (extLo _ disp _ _ (by decide)).trans <| extAll disp
@[simp] theorem fMajor_fmtJ (maj : BitVec 6) (disp : BitVec 26) : fMajor (fmtJ maj disp) = maj :=
  (extHi _ disp _ _ (by decide)).trans <| extAll maj
@[simp] theorem fImm6_fmtX (maj : BitVec 6) (d : BitVec 5) (a : BitVec 5) (b : BitVec 5) (sub : BitVec 5) (imm : BitVec 6) : fImm6 (fmtX maj d a b sub imm) = imm :=
  (extLo _ imm _ _ (by decide)).trans <| extAll imm
@[simp] theorem fSub_fmtX (maj : BitVec 6) (d : BitVec 5) (a : BitVec 5) (b : BitVec 5) (sub : BitVec 5) (imm : BitVec 6) : fSub (fmtX maj d a b sub imm) = sub :=
  (extHi _ imm _ _ (by decide)).trans <| (extLo _ sub _ _ (by decide)).trans <| extAll sub
@[simp] theorem fB_fmtX (maj : BitVec 6) (d : BitVec 5) (a : BitVec 5) (b : BitVec 5) (sub : BitVec 5) (imm : BitVec 6) : fB (fmtX maj d a b sub imm) = b :=
  (extHi _ imm _ _ (by decide)).trans <| (extHi _ sub _ _ (by decide)).trans <| (extLo _ b _ _ (by decide)).trans <| extAll b
@[simp] theorem fA_fmtX (maj : BitVec 6) (d : BitVec 5) (a : BitVec 5) (b : BitVec 5) (sub : BitVec 5) (imm : BitVec 6) : fA (fmtX maj d a b sub imm) = a :=
  (extHi _ imm _ _ (by decide)).trans <| (extHi _ sub _ _ (by decide)).trans <| (extHi _ b _ _ (by decide)).trans <| (extLo _ a _ _ (by decide)).trans <| extAll a
@[simp] theorem fD_fmtX (maj : BitVec 6) (d : BitVec 5) (a : BitVec 5) (b : BitVec 5) (sub : BitVec 5) (imm : BitVec 6) : fD (fmtX maj d a b sub imm) = d :=
  (extHi _ imm _ _ (by decide)).trans <| (extHi _ sub _ _ (by decide)).trans <| (extHi _ b _ _ (by decide)).trans <| (extHi _ a _ _ (by decide)).trans <| (extLo _ d _ _ (by decide)).trans <| extAll d
@[simp] theorem fMajor_fmtX (maj : BitVec 6) (d : BitVec 5) (a : BitVec 5) (b : BitVec 5) (sub : BitVec 5) (imm : BitVec 6) : fMajor (fmtX maj d a b sub imm) = maj :=
  (extHi _ imm _ _ (by decide)).trans <| (extHi _ sub _ _ (by decide)).trans <| (extHi _ b _ _ (by decide)).trans <| (extHi _ a _ _ (by decide)).trans <| (extHi _ d _ _ (by decide)).trans <| extAll maj
@[simp] theorem fVsub_fmtV (maj : BitVec 6) (vd : BitVec 4) (va : BitVec 4) (vb : BitVec 4) (vc : BitVec 4) (mask : BitVec 3) (ty : BitVec 3) (sub : BitVec 4) : fVsub (fmtV maj vd va vb vc mask ty sub) = sub :=
  (extLo _ sub _ _ (by decide)).trans <| extAll sub
@[simp] theorem fRepLen_fmtV (maj : BitVec 6) (vd : BitVec 4) (va : BitVec 4) (vb : BitVec 4) (vc : BitVec 4) (mask : BitVec 3) (ty : BitVec 3) (sub : BitVec 4) : fRepLen (fmtV maj vd va vb vc mask ty sub) = sub :=
  (extLo _ sub _ _ (by decide)).trans <| extAll sub
@[simp] theorem fTy_fmtV (maj : BitVec 6) (vd : BitVec 4) (va : BitVec 4) (vb : BitVec 4) (vc : BitVec 4) (mask : BitVec 3) (ty : BitVec 3) (sub : BitVec 4) : fTy (fmtV maj vd va vb vc mask ty sub) = ty :=
  (extHi _ sub _ _ (by decide)).trans <| (extLo _ ty _ _ (by decide)).trans <| extAll ty
@[simp] theorem fMask_fmtV (maj : BitVec 6) (vd : BitVec 4) (va : BitVec 4) (vb : BitVec 4) (vc : BitVec 4) (mask : BitVec 3) (ty : BitVec 3) (sub : BitVec 4) : fMask (fmtV maj vd va vb vc mask ty sub) = mask :=
  (extHi _ sub _ _ (by decide)).trans <| (extHi _ ty _ _ (by decide)).trans <| (extLo _ mask _ _ (by decide)).trans <| extAll mask
@[simp] theorem fVc_fmtV (maj : BitVec 6) (vd : BitVec 4) (va : BitVec 4) (vb : BitVec 4) (vc : BitVec 4) (mask : BitVec 3) (ty : BitVec 3) (sub : BitVec 4) : fVc (fmtV maj vd va vb vc mask ty sub) = vc :=
  (extHi _ sub _ _ (by decide)).trans <| (extHi _ ty _ _ (by decide)).trans <| (extHi _ mask _ _ (by decide)).trans <| (extLo _ vc _ _ (by decide)).trans <| extAll vc
@[simp] theorem fVb_fmtV (maj : BitVec 6) (vd : BitVec 4) (va : BitVec 4) (vb : BitVec 4) (vc : BitVec 4) (mask : BitVec 3) (ty : BitVec 3) (sub : BitVec 4) : fVb (fmtV maj vd va vb vc mask ty sub) = vb :=
  (extHi _ sub _ _ (by decide)).trans <| (extHi _ ty _ _ (by decide)).trans <| (extHi _ mask _ _ (by decide)).trans <| (extHi _ vc _ _ (by decide)).trans <| (extLo _ vb _ _ (by decide)).trans <| extAll vb
@[simp] theorem fVa_fmtV (maj : BitVec 6) (vd : BitVec 4) (va : BitVec 4) (vb : BitVec 4) (vc : BitVec 4) (mask : BitVec 3) (ty : BitVec 3) (sub : BitVec 4) : fVa (fmtV maj vd va vb vc mask ty sub) = va :=
  (extHi _ sub _ _ (by decide)).trans <| (extHi _ ty _ _ (by decide)).trans <| (extHi _ mask _ _ (by decide)).trans <| (extHi _ vc _ _ (by decide)).trans <| (extHi _ vb _ _ (by decide)).trans <| (extLo _ va _ _ (by decide)).trans <| extAll va
@[simp] theorem fVd_fmtV (maj : BitVec 6) (vd : BitVec 4) (va : BitVec 4) (vb : BitVec 4) (vc : BitVec 4) (mask : BitVec 3) (ty : BitVec 3) (sub : BitVec 4) : fVd (fmtV maj vd va vb vc mask ty sub) = vd :=
  (extHi _ sub _ _ (by decide)).trans <| (extHi _ ty _ _ (by decide)).trans <| (extHi _ mask _ _ (by decide)).trans <| (extHi _ vc _ _ (by decide)).trans <| (extHi _ vb _ _ (by decide)).trans <| (extHi _ va _ _ (by decide)).trans <| (extLo _ vd _ _ (by decide)).trans <| extAll vd
@[simp] theorem fMajor_fmtV (maj : BitVec 6) (vd : BitVec 4) (va : BitVec 4) (vb : BitVec 4) (vc : BitVec 4) (mask : BitVec 3) (ty : BitVec 3) (sub : BitVec 4) : fMajor (fmtV maj vd va vb vc mask ty sub) = maj :=
  (extHi _ sub _ _ (by decide)).trans <| (extHi _ ty _ _ (by decide)).trans <| (extHi _ mask _ _ (by decide)).trans <| (extHi _ vc _ _ (by decide)).trans <| (extHi _ vb _ _ (by decide)).trans <| (extHi _ va _ _ (by decide)).trans <| (extHi _ vd _ _ (by decide)).trans <| extAll maj
@[simp] theorem fVsub_fmtRep (maj : BitVec 6) (count : BitVec 6) (sd : BitVec 4) (sa : BitVec 4) (sb : BitVec 4) (sc : BitVec 4) (len : BitVec 4) : fVsub (fmtRep maj count sd sa sb sc len) = len :=
  (extLo _ len _ _ (by decide)).trans <| extAll len
@[simp] theorem fRepLen_fmtRep (maj : BitVec 6) (count : BitVec 6) (sd : BitVec 4) (sa : BitVec 4) (sb : BitVec 4) (sc : BitVec 4) (len : BitVec 4) : fRepLen (fmtRep maj count sd sa sb sc len) = len :=
  (extLo _ len _ _ (by decide)).trans <| extAll len
@[simp] theorem fRepSc_fmtRep (maj : BitVec 6) (count : BitVec 6) (sd : BitVec 4) (sa : BitVec 4) (sb : BitVec 4) (sc : BitVec 4) (len : BitVec 4) : fRepSc (fmtRep maj count sd sa sb sc len) = sc :=
  (extHi _ len _ _ (by decide)).trans <| (extLo _ sc _ _ (by decide)).trans <| extAll sc
@[simp] theorem fRepSb_fmtRep (maj : BitVec 6) (count : BitVec 6) (sd : BitVec 4) (sa : BitVec 4) (sb : BitVec 4) (sc : BitVec 4) (len : BitVec 4) : fRepSb (fmtRep maj count sd sa sb sc len) = sb :=
  (extHi _ len _ _ (by decide)).trans <| (extHi _ sc _ _ (by decide)).trans <| (extLo _ sb _ _ (by decide)).trans <| extAll sb
@[simp] theorem fRepSa_fmtRep (maj : BitVec 6) (count : BitVec 6) (sd : BitVec 4) (sa : BitVec 4) (sb : BitVec 4) (sc : BitVec 4) (len : BitVec 4) : fRepSa (fmtRep maj count sd sa sb sc len) = sa :=
  (extHi _ len _ _ (by decide)).trans <| (extHi _ sc _ _ (by decide)).trans <| (extHi _ sb _ _ (by decide)).trans <| (extLo _ sa _ _ (by decide)).trans <| extAll sa
@[simp] theorem fRepSd_fmtRep (maj : BitVec 6) (count : BitVec 6) (sd : BitVec 4) (sa : BitVec 4) (sb : BitVec 4) (sc : BitVec 4) (len : BitVec 4) : fRepSd (fmtRep maj count sd sa sb sc len) = sd :=
  (extHi _ len _ _ (by decide)).trans <| (extHi _ sc _ _ (by decide)).trans <| (extHi _ sb _ _ (by decide)).trans <| (extHi _ sa _ _ (by decide)).trans <| (extLo _ sd _ _ (by decide)).trans <| extAll sd
@[simp] theorem fRepCount_fmtRep (maj : BitVec 6) (count : BitVec 6) (sd : BitVec 4) (sa : BitVec 4) (sb : BitVec 4) (sc : BitVec 4) (len : BitVec 4) : fRepCount (fmtRep maj count sd sa sb sc len) = count :=
  (extHi _ len _ _ (by decide)).trans <| (extHi _ sc _ _ (by decide)).trans <| (extHi _ sb _ _ (by decide)).trans <| (extHi _ sa _ _ (by decide)).trans <| (extHi _ sd _ _ (by decide)).trans <| (extLo _ count _ _ (by decide)).trans <| extAll count
@[simp] theorem fMajor_fmtRep (maj : BitVec 6) (count : BitVec 6) (sd : BitVec 4) (sa : BitVec 4) (sb : BitVec 4) (sc : BitVec 4) (len : BitVec 4) : fMajor (fmtRep maj count sd sa sb sc len) = maj :=
  (extHi _ len _ _ (by decide)).trans <| (extHi _ sc _ _ (by decide)).trans <| (extHi _ sb _ _ (by decide)).trans <| (extHi _ sa _ _ (by decide)).trans <| (extHi _ sd _ _ (by decide)).trans <| (extHi _ count _ _ (by decide)).trans <| extAll maj

/-! ### Fields made of parts -/

theorem parts1_at_0 (x0 : BitVec 1) : BitVec.extractLsb' (n := 6) 0 1 (0#5 ++ x0) = x0 :=
  (extLo _ x0 _ _ (by decide)).trans <| extAll x0
theorem parts1_at_1 (x0 : BitVec 1) : BitVec.extractLsb' (n := 6) 1 5 (0#5 ++ x0) = 0#5 :=
  (extHi _ x0 _ _ (by decide)).trans <| extAll 0#5
theorem parts2_at_0 : BitVec.extractLsb' (n := 11) 0 6 (0#5 ++ 0#6) = 0#6 :=
  (extLo _ 0#6 _ _ (by decide)).trans <| extAll 0#6
theorem parts2_at_6 : BitVec.extractLsb' (n := 11) 6 5 (0#5 ++ 0#6) = 0#5 :=
  (extHi _ 0#6 _ _ (by decide)).trans <| extAll 0#5
theorem parts3_at_0 : BitVec.extractLsb' (n := 11) 0 6 (0#5 ++ 1#6) = 1#6 :=
  (extLo _ 1#6 _ _ (by decide)).trans <| extAll 1#6
theorem parts3_at_6 : BitVec.extractLsb' (n := 11) 6 5 (0#5 ++ 1#6) = 0#5 :=
  (extHi _ 1#6 _ _ (by decide)).trans <| extAll 0#5
theorem parts4_at_0 : BitVec.extractLsb' (n := 11) 0 6 (0#5 ++ 2#6) = 2#6 :=
  (extLo _ 2#6 _ _ (by decide)).trans <| extAll 2#6
theorem parts4_at_6 : BitVec.extractLsb' (n := 11) 6 5 (0#5 ++ 2#6) = 0#5 :=
  (extHi _ 2#6 _ _ (by decide)).trans <| extAll 0#5
theorem parts5_at_0 : BitVec.extractLsb' (n := 11) 0 6 (0#5 ++ 3#6) = 3#6 :=
  (extLo _ 3#6 _ _ (by decide)).trans <| extAll 3#6
theorem parts5_at_6 : BitVec.extractLsb' (n := 11) 6 5 (0#5 ++ 3#6) = 0#5 :=
  (extHi _ 3#6 _ _ (by decide)).trans <| extAll 0#5
theorem parts6_at_0 : BitVec.extractLsb' (n := 11) 0 6 (0#5 ++ 4#6) = 4#6 :=
  (extLo _ 4#6 _ _ (by decide)).trans <| extAll 4#6
theorem parts6_at_6 : BitVec.extractLsb' (n := 11) 6 5 (0#5 ++ 4#6) = 0#5 :=
  (extHi _ 4#6 _ _ (by decide)).trans <| extAll 0#5
theorem parts7_at_0 : BitVec.extractLsb' (n := 11) 0 6 (0#5 ++ 5#6) = 5#6 :=
  (extLo _ 5#6 _ _ (by decide)).trans <| extAll 5#6
theorem parts7_at_6 : BitVec.extractLsb' (n := 11) 6 5 (0#5 ++ 5#6) = 0#5 :=
  (extHi _ 5#6 _ _ (by decide)).trans <| extAll 0#5
theorem parts8_at_0 : BitVec.extractLsb' (n := 11) 0 6 (0#5 ++ 6#6) = 6#6 :=
  (extLo _ 6#6 _ _ (by decide)).trans <| extAll 6#6
theorem parts8_at_6 : BitVec.extractLsb' (n := 11) 6 5 (0#5 ++ 6#6) = 0#5 :=
  (extHi _ 6#6 _ _ (by decide)).trans <| extAll 0#5
theorem parts9_at_0 : BitVec.extractLsb' (n := 11) 0 6 (0#5 ++ 7#6) = 7#6 :=
  (extLo _ 7#6 _ _ (by decide)).trans <| extAll 7#6
theorem parts9_at_6 : BitVec.extractLsb' (n := 11) 6 5 (0#5 ++ 7#6) = 0#5 :=
  (extHi _ 7#6 _ _ (by decide)).trans <| extAll 0#5
theorem parts10_at_0 : BitVec.extractLsb' (n := 11) 0 6 (0#5 ++ 8#6) = 8#6 :=
  (extLo _ 8#6 _ _ (by decide)).trans <| extAll 8#6
theorem parts10_at_6 : BitVec.extractLsb' (n := 11) 6 5 (0#5 ++ 8#6) = 0#5 :=
  (extHi _ 8#6 _ _ (by decide)).trans <| extAll 0#5
theorem parts11_at_0 : BitVec.extractLsb' (n := 11) 0 6 (0#5 ++ 9#6) = 9#6 :=
  (extLo _ 9#6 _ _ (by decide)).trans <| extAll 9#6
theorem parts11_at_6 : BitVec.extractLsb' (n := 11) 6 5 (0#5 ++ 9#6) = 0#5 :=
  (extHi _ 9#6 _ _ (by decide)).trans <| extAll 0#5
theorem parts12_at_0 : BitVec.extractLsb' (n := 11) 0 6 (0#5 ++ 10#6) = 10#6 :=
  (extLo _ 10#6 _ _ (by decide)).trans <| extAll 10#6
theorem parts12_at_6 : BitVec.extractLsb' (n := 11) 6 5 (0#5 ++ 10#6) = 0#5 :=
  (extHi _ 10#6 _ _ (by decide)).trans <| extAll 0#5
theorem parts13_at_0 : BitVec.extractLsb' (n := 11) 0 6 (0#5 ++ 11#6) = 11#6 :=
  (extLo _ 11#6 _ _ (by decide)).trans <| extAll 11#6
theorem parts13_at_6 : BitVec.extractLsb' (n := 11) 6 5 (0#5 ++ 11#6) = 0#5 :=
  (extHi _ 11#6 _ _ (by decide)).trans <| extAll 0#5
theorem parts14_at_0 : BitVec.extractLsb' (n := 11) 0 6 (0#5 ++ 12#6) = 12#6 :=
  (extLo _ 12#6 _ _ (by decide)).trans <| extAll 12#6
theorem parts14_at_6 : BitVec.extractLsb' (n := 11) 6 5 (0#5 ++ 12#6) = 0#5 :=
  (extHi _ 12#6 _ _ (by decide)).trans <| extAll 0#5
theorem parts15_at_0 : BitVec.extractLsb' (n := 11) 0 6 (0#5 ++ 13#6) = 13#6 :=
  (extLo _ 13#6 _ _ (by decide)).trans <| extAll 13#6
theorem parts15_at_6 : BitVec.extractLsb' (n := 11) 6 5 (0#5 ++ 13#6) = 0#5 :=
  (extHi _ 13#6 _ _ (by decide)).trans <| extAll 0#5
theorem parts16_at_0 : BitVec.extractLsb' (n := 11) 0 6 (0#5 ++ 14#6) = 14#6 :=
  (extLo _ 14#6 _ _ (by decide)).trans <| extAll 14#6
theorem parts16_at_6 : BitVec.extractLsb' (n := 11) 6 5 (0#5 ++ 14#6) = 0#5 :=
  (extHi _ 14#6 _ _ (by decide)).trans <| extAll 0#5
theorem parts17_at_0 : BitVec.extractLsb' (n := 11) 0 6 (0#5 ++ 15#6) = 15#6 :=
  (extLo _ 15#6 _ _ (by decide)).trans <| extAll 15#6
theorem parts17_at_6 : BitVec.extractLsb' (n := 11) 6 5 (0#5 ++ 15#6) = 0#5 :=
  (extHi _ 15#6 _ _ (by decide)).trans <| extAll 0#5
theorem parts18_at_0 : BitVec.extractLsb' (n := 11) 0 6 (0#5 ++ 16#6) = 16#6 :=
  (extLo _ 16#6 _ _ (by decide)).trans <| extAll 16#6
theorem parts18_at_6 : BitVec.extractLsb' (n := 11) 6 5 (0#5 ++ 16#6) = 0#5 :=
  (extHi _ 16#6 _ _ (by decide)).trans <| extAll 0#5
theorem parts19_at_0 : BitVec.extractLsb' (n := 11) 0 6 (0#5 ++ 17#6) = 17#6 :=
  (extLo _ 17#6 _ _ (by decide)).trans <| extAll 17#6
theorem parts19_at_6 : BitVec.extractLsb' (n := 11) 6 5 (0#5 ++ 17#6) = 0#5 :=
  (extHi _ 17#6 _ _ (by decide)).trans <| extAll 0#5
theorem parts20_at_0 : BitVec.extractLsb' (n := 11) 0 6 (0#5 ++ 18#6) = 18#6 :=
  (extLo _ 18#6 _ _ (by decide)).trans <| extAll 18#6
theorem parts20_at_6 : BitVec.extractLsb' (n := 11) 6 5 (0#5 ++ 18#6) = 0#5 :=
  (extHi _ 18#6 _ _ (by decide)).trans <| extAll 0#5
theorem parts21_at_0 : BitVec.extractLsb' (n := 11) 0 6 (0#5 ++ 19#6) = 19#6 :=
  (extLo _ 19#6 _ _ (by decide)).trans <| extAll 19#6
theorem parts21_at_6 : BitVec.extractLsb' (n := 11) 6 5 (0#5 ++ 19#6) = 0#5 :=
  (extHi _ 19#6 _ _ (by decide)).trans <| extAll 0#5
theorem parts22_at_0 : BitVec.extractLsb' (n := 11) 0 6 (0#5 ++ 20#6) = 20#6 :=
  (extLo _ 20#6 _ _ (by decide)).trans <| extAll 20#6
theorem parts22_at_6 : BitVec.extractLsb' (n := 11) 6 5 (0#5 ++ 20#6) = 0#5 :=
  (extHi _ 20#6 _ _ (by decide)).trans <| extAll 0#5
theorem parts23_at_0 : BitVec.extractLsb' (n := 11) 0 6 (0#5 ++ 21#6) = 21#6 :=
  (extLo _ 21#6 _ _ (by decide)).trans <| extAll 21#6
theorem parts23_at_6 : BitVec.extractLsb' (n := 11) 6 5 (0#5 ++ 21#6) = 0#5 :=
  (extHi _ 21#6 _ _ (by decide)).trans <| extAll 0#5
theorem parts24_at_0 : BitVec.extractLsb' (n := 11) 0 6 (0#5 ++ 22#6) = 22#6 :=
  (extLo _ 22#6 _ _ (by decide)).trans <| extAll 22#6
theorem parts24_at_6 : BitVec.extractLsb' (n := 11) 6 5 (0#5 ++ 22#6) = 0#5 :=
  (extHi _ 22#6 _ _ (by decide)).trans <| extAll 0#5
theorem parts25_at_0 : BitVec.extractLsb' (n := 11) 0 6 (0#5 ++ 23#6) = 23#6 :=
  (extLo _ 23#6 _ _ (by decide)).trans <| extAll 23#6
theorem parts25_at_6 : BitVec.extractLsb' (n := 11) 6 5 (0#5 ++ 23#6) = 0#5 :=
  (extHi _ 23#6 _ _ (by decide)).trans <| extAll 0#5
theorem parts26_at_0 : BitVec.extractLsb' (n := 11) 0 6 (0#5 ++ 24#6) = 24#6 :=
  (extLo _ 24#6 _ _ (by decide)).trans <| extAll 24#6
theorem parts26_at_6 : BitVec.extractLsb' (n := 11) 6 5 (0#5 ++ 24#6) = 0#5 :=
  (extHi _ 24#6 _ _ (by decide)).trans <| extAll 0#5
theorem parts27_at_0 : BitVec.extractLsb' (n := 11) 0 6 (0#5 ++ 25#6) = 25#6 :=
  (extLo _ 25#6 _ _ (by decide)).trans <| extAll 25#6
theorem parts27_at_6 : BitVec.extractLsb' (n := 11) 6 5 (0#5 ++ 25#6) = 0#5 :=
  (extHi _ 25#6 _ _ (by decide)).trans <| extAll 0#5
theorem parts28_at_0 : BitVec.extractLsb' (n := 11) 0 6 (0#5 ++ 26#6) = 26#6 :=
  (extLo _ 26#6 _ _ (by decide)).trans <| extAll 26#6
theorem parts28_at_6 : BitVec.extractLsb' (n := 11) 6 5 (0#5 ++ 26#6) = 0#5 :=
  (extHi _ 26#6 _ _ (by decide)).trans <| extAll 0#5
theorem parts29_at_0 : BitVec.extractLsb' (n := 11) 0 6 (0#5 ++ 27#6) = 27#6 :=
  (extLo _ 27#6 _ _ (by decide)).trans <| extAll 27#6
theorem parts29_at_6 : BitVec.extractLsb' (n := 11) 6 5 (0#5 ++ 27#6) = 0#5 :=
  (extHi _ 27#6 _ _ (by decide)).trans <| extAll 0#5
theorem parts30_at_0 : BitVec.extractLsb' (n := 11) 0 6 (0#5 ++ 28#6) = 28#6 :=
  (extLo _ 28#6 _ _ (by decide)).trans <| extAll 28#6
theorem parts30_at_6 : BitVec.extractLsb' (n := 11) 6 5 (0#5 ++ 28#6) = 0#5 :=
  (extHi _ 28#6 _ _ (by decide)).trans <| extAll 0#5
theorem parts31_at_0 (x0 : BitVec 5) : BitVec.extractLsb' (n := 11) 0 6 (x0 ++ 29#6) = 29#6 :=
  (extLo _ 29#6 _ _ (by decide)).trans <| extAll 29#6
theorem parts31_at_6 (x0 : BitVec 5) : BitVec.extractLsb' (n := 11) 6 5 (x0 ++ 29#6) = x0 :=
  (extHi _ 29#6 _ _ (by decide)).trans <| extAll x0
theorem parts32_at_0 (x0 : BitVec 5) : BitVec.extractLsb' (n := 11) 0 6 (x0 ++ 30#6) = 30#6 :=
  (extLo _ 30#6 _ _ (by decide)).trans <| extAll 30#6
theorem parts32_at_6 (x0 : BitVec 5) : BitVec.extractLsb' (n := 11) 6 5 (x0 ++ 30#6) = x0 :=
  (extHi _ 30#6 _ _ (by decide)).trans <| extAll x0
theorem parts33_at_0 (x0 : BitVec 6) : BitVec.extractLsb' (n := 16) 0 6 (0#8 ++ (0#2 ++ x0)) = x0 :=
  (extLo _ (0#2 ++ x0) _ _ (by decide)).trans <| (extLo _ x0 _ _ (by decide)).trans <| extAll x0
theorem parts33_at_6 (x0 : BitVec 6) : BitVec.extractLsb' (n := 16) 6 2 (0#8 ++ (0#2 ++ x0)) = 0#2 :=
  (extLo _ (0#2 ++ x0) _ _ (by decide)).trans <| (extHi _ x0 _ _ (by decide)).trans <| extAll 0#2
theorem parts33_at_8 (x0 : BitVec 6) : BitVec.extractLsb' (n := 16) 8 8 (0#8 ++ (0#2 ++ x0)) = 0#8 :=
  (extHi _ (0#2 ++ x0) _ _ (by decide)).trans <| extAll 0#8
theorem parts34_at_0 (x0 : BitVec 6) : BitVec.extractLsb' (n := 16) 0 6 (0#8 ++ (1#2 ++ x0)) = x0 :=
  (extLo _ (1#2 ++ x0) _ _ (by decide)).trans <| (extLo _ x0 _ _ (by decide)).trans <| extAll x0
theorem parts34_at_6 (x0 : BitVec 6) : BitVec.extractLsb' (n := 16) 6 2 (0#8 ++ (1#2 ++ x0)) = 1#2 :=
  (extLo _ (1#2 ++ x0) _ _ (by decide)).trans <| (extHi _ x0 _ _ (by decide)).trans <| extAll 1#2
theorem parts34_at_8 (x0 : BitVec 6) : BitVec.extractLsb' (n := 16) 8 8 (0#8 ++ (1#2 ++ x0)) = 0#8 :=
  (extHi _ (1#2 ++ x0) _ _ (by decide)).trans <| extAll 0#8
theorem parts35_at_0 (x0 : BitVec 6) : BitVec.extractLsb' (n := 16) 0 6 (0#8 ++ (2#2 ++ x0)) = x0 :=
  (extLo _ (2#2 ++ x0) _ _ (by decide)).trans <| (extLo _ x0 _ _ (by decide)).trans <| extAll x0
theorem parts35_at_6 (x0 : BitVec 6) : BitVec.extractLsb' (n := 16) 6 2 (0#8 ++ (2#2 ++ x0)) = 2#2 :=
  (extLo _ (2#2 ++ x0) _ _ (by decide)).trans <| (extHi _ x0 _ _ (by decide)).trans <| extAll 2#2
theorem parts35_at_8 (x0 : BitVec 6) : BitVec.extractLsb' (n := 16) 8 8 (0#8 ++ (2#2 ++ x0)) = 0#8 :=
  (extHi _ (2#2 ++ x0) _ _ (by decide)).trans <| extAll 0#8
theorem parts36_at_0 (x0 : BitVec 6) : BitVec.extractLsb' (n := 16) 0 6 (0#8 ++ (3#2 ++ x0)) = x0 :=
  (extLo _ (3#2 ++ x0) _ _ (by decide)).trans <| (extLo _ x0 _ _ (by decide)).trans <| extAll x0
theorem parts36_at_6 (x0 : BitVec 6) : BitVec.extractLsb' (n := 16) 6 2 (0#8 ++ (3#2 ++ x0)) = 3#2 :=
  (extLo _ (3#2 ++ x0) _ _ (by decide)).trans <| (extHi _ x0 _ _ (by decide)).trans <| extAll 3#2
theorem parts36_at_8 (x0 : BitVec 6) : BitVec.extractLsb' (n := 16) 8 8 (0#8 ++ (3#2 ++ x0)) = 0#8 :=
  (extHi _ (3#2 ++ x0) _ _ (by decide)).trans <| extAll 0#8
theorem parts37_at_0 (x0 : BitVec 6) (x1 : BitVec 6) : BitVec.extractLsb' (n := 16) 0 6 (0#4 ++ x0 ++ x1) = x1 :=
  (extLo _ x1 _ _ (by decide)).trans <| extAll x1
theorem parts37_at_6 (x0 : BitVec 6) (x1 : BitVec 6) : BitVec.extractLsb' (n := 16) 6 6 (0#4 ++ x0 ++ x1) = x0 :=
  (extHi _ x1 _ _ (by decide)).trans <| (extLo _ x0 _ _ (by decide)).trans <| extAll x0
theorem parts37_at_12 (x0 : BitVec 6) (x1 : BitVec 6) : BitVec.extractLsb' (n := 16) 12 4 (0#4 ++ x0 ++ x1) = 0#4 :=
  (extHi _ x1 _ _ (by decide)).trans <| (extHi _ x0 _ _ (by decide)).trans <| extAll 0#4
theorem parts38_at_0 (x0 : BitVec 4) : BitVec.extractLsb' (n := 5) 0 4 (0#1 ++ x0) = x0 :=
  (extLo _ x0 _ _ (by decide)).trans <| extAll x0
theorem parts38_at_4 (x0 : BitVec 4) : BitVec.extractLsb' (n := 5) 4 1 (0#1 ++ x0) = 0#1 :=
  (extHi _ x0 _ _ (by decide)).trans <| extAll 0#1
theorem parts39_at_0 (x0 : BitVec 3) (x1 : BitVec 5) : BitVec.extractLsb' (n := 8) 0 5 (x0 ++ x1) = x1 :=
  (extLo _ x1 _ _ (by decide)).trans <| extAll x1
theorem parts39_at_5 (x0 : BitVec 3) (x1 : BitVec 5) : BitVec.extractLsb' (n := 8) 5 3 (x0 ++ x1) = x0 :=
  (extHi _ x1 _ _ (by decide)).trans <| extAll x0
theorem parts40_at_0 (x0 : BitVec 3) (x1 : BitVec 1) (x2 : BitVec 2) (x3 : BitVec 5) : BitVec.extractLsb' (n := 11) 0 5 (x0 ++ x1 ++ x2 ++ x3) = x3 :=
  (extLo _ x3 _ _ (by decide)).trans <| extAll x3
theorem parts40_at_5 (x0 : BitVec 3) (x1 : BitVec 1) (x2 : BitVec 2) (x3 : BitVec 5) : BitVec.extractLsb' (n := 11) 5 2 (x0 ++ x1 ++ x2 ++ x3) = x2 :=
  (extHi _ x3 _ _ (by decide)).trans <| (extLo _ x2 _ _ (by decide)).trans <| extAll x2
theorem parts40_at_7 (x0 : BitVec 3) (x1 : BitVec 1) (x2 : BitVec 2) (x3 : BitVec 5) : BitVec.extractLsb' (n := 11) 7 1 (x0 ++ x1 ++ x2 ++ x3) = x1 :=
  (extHi _ x3 _ _ (by decide)).trans <| (extHi _ x2 _ _ (by decide)).trans <| (extLo _ x1 _ _ (by decide)).trans <| extAll x1
theorem parts40_at_8 (x0 : BitVec 3) (x1 : BitVec 1) (x2 : BitVec 2) (x3 : BitVec 5) : BitVec.extractLsb' (n := 11) 8 3 (x0 ++ x1 ++ x2 ++ x3) = x0 :=
  (extHi _ x3 _ _ (by decide)).trans <| (extHi _ x2 _ _ (by decide)).trans <| (extHi _ x1 _ _ (by decide)).trans <| extAll x0
theorem parts41_at_0 (x0 : BitVec 1) : BitVec.extractLsb' (n := 3) 0 1 (0#2 ++ x0) = x0 :=
  (extLo _ x0 _ _ (by decide)).trans <| extAll x0
theorem parts41_at_1 (x0 : BitVec 1) : BitVec.extractLsb' (n := 3) 1 2 (0#2 ++ x0) = 0#2 :=
  (extHi _ x0 _ _ (by decide)).trans <| extAll 0#2
theorem parts42_at_0 (x0 : BitVec 5) : BitVec.extractLsb' (n := 8) 0 5 (0#3 ++ x0) = x0 :=
  (extLo _ x0 _ _ (by decide)).trans <| extAll x0
theorem parts42_at_5 (x0 : BitVec 5) : BitVec.extractLsb' (n := 8) 5 3 (0#3 ++ x0) = 0#3 :=
  (extHi _ x0 _ _ (by decide)).trans <| extAll 0#3
theorem parts43_at_0 (x0 : BitVec 2) (x1 : BitVec 3) (x2 : BitVec 1) : BitVec.extractLsb' (n := 11) 0 5 (x0 ++ x1 ++ x2 ++ 0#5) = 0#5 :=
  (extLo _ 0#5 _ _ (by decide)).trans <| extAll 0#5
theorem parts43_at_5 (x0 : BitVec 2) (x1 : BitVec 3) (x2 : BitVec 1) : BitVec.extractLsb' (n := 11) 5 1 (x0 ++ x1 ++ x2 ++ 0#5) = x2 :=
  (extHi _ 0#5 _ _ (by decide)).trans <| (extLo _ x2 _ _ (by decide)).trans <| extAll x2
theorem parts43_at_6 (x0 : BitVec 2) (x1 : BitVec 3) (x2 : BitVec 1) : BitVec.extractLsb' (n := 11) 6 3 (x0 ++ x1 ++ x2 ++ 0#5) = x1 :=
  (extHi _ 0#5 _ _ (by decide)).trans <| (extHi _ x2 _ _ (by decide)).trans <| (extLo _ x1 _ _ (by decide)).trans <| extAll x1
theorem parts43_at_9 (x0 : BitVec 2) (x1 : BitVec 3) (x2 : BitVec 1) : BitVec.extractLsb' (n := 11) 9 2 (x0 ++ x1 ++ x2 ++ 0#5) = x0 :=
  (extHi _ 0#5 _ _ (by decide)).trans <| (extHi _ x2 _ _ (by decide)).trans <| (extHi _ x1 _ _ (by decide)).trans <| extAll x0
theorem parts44_at_0 (x0 : BitVec 2) (x1 : BitVec 3) (x2 : BitVec 1) : BitVec.extractLsb' (n := 11) 0 5 (x0 ++ x1 ++ x2 ++ 1#5) = 1#5 :=
  (extLo _ 1#5 _ _ (by decide)).trans <| extAll 1#5
theorem parts44_at_5 (x0 : BitVec 2) (x1 : BitVec 3) (x2 : BitVec 1) : BitVec.extractLsb' (n := 11) 5 1 (x0 ++ x1 ++ x2 ++ 1#5) = x2 :=
  (extHi _ 1#5 _ _ (by decide)).trans <| (extLo _ x2 _ _ (by decide)).trans <| extAll x2
theorem parts44_at_6 (x0 : BitVec 2) (x1 : BitVec 3) (x2 : BitVec 1) : BitVec.extractLsb' (n := 11) 6 3 (x0 ++ x1 ++ x2 ++ 1#5) = x1 :=
  (extHi _ 1#5 _ _ (by decide)).trans <| (extHi _ x2 _ _ (by decide)).trans <| (extLo _ x1 _ _ (by decide)).trans <| extAll x1
theorem parts44_at_9 (x0 : BitVec 2) (x1 : BitVec 3) (x2 : BitVec 1) : BitVec.extractLsb' (n := 11) 9 2 (x0 ++ x1 ++ x2 ++ 1#5) = x0 :=
  (extHi _ 1#5 _ _ (by decide)).trans <| (extHi _ x2 _ _ (by decide)).trans <| (extHi _ x1 _ _ (by decide)).trans <| extAll x0
theorem parts45_at_0 (x0 : BitVec 2) (x1 : BitVec 3) (x2 : BitVec 1) : BitVec.extractLsb' (n := 11) 0 5 (x0 ++ x1 ++ x2 ++ 2#5) = 2#5 :=
  (extLo _ 2#5 _ _ (by decide)).trans <| extAll 2#5
theorem parts45_at_5 (x0 : BitVec 2) (x1 : BitVec 3) (x2 : BitVec 1) : BitVec.extractLsb' (n := 11) 5 1 (x0 ++ x1 ++ x2 ++ 2#5) = x2 :=
  (extHi _ 2#5 _ _ (by decide)).trans <| (extLo _ x2 _ _ (by decide)).trans <| extAll x2
theorem parts45_at_6 (x0 : BitVec 2) (x1 : BitVec 3) (x2 : BitVec 1) : BitVec.extractLsb' (n := 11) 6 3 (x0 ++ x1 ++ x2 ++ 2#5) = x1 :=
  (extHi _ 2#5 _ _ (by decide)).trans <| (extHi _ x2 _ _ (by decide)).trans <| (extLo _ x1 _ _ (by decide)).trans <| extAll x1
theorem parts45_at_9 (x0 : BitVec 2) (x1 : BitVec 3) (x2 : BitVec 1) : BitVec.extractLsb' (n := 11) 9 2 (x0 ++ x1 ++ x2 ++ 2#5) = x0 :=
  (extHi _ 2#5 _ _ (by decide)).trans <| (extHi _ x2 _ _ (by decide)).trans <| (extHi _ x1 _ _ (by decide)).trans <| extAll x0
theorem parts46_at_0 (x0 : BitVec 2) (x1 : BitVec 3) (x2 : BitVec 1) : BitVec.extractLsb' (n := 11) 0 5 (x0 ++ x1 ++ x2 ++ 3#5) = 3#5 :=
  (extLo _ 3#5 _ _ (by decide)).trans <| extAll 3#5
theorem parts46_at_5 (x0 : BitVec 2) (x1 : BitVec 3) (x2 : BitVec 1) : BitVec.extractLsb' (n := 11) 5 1 (x0 ++ x1 ++ x2 ++ 3#5) = x2 :=
  (extHi _ 3#5 _ _ (by decide)).trans <| (extLo _ x2 _ _ (by decide)).trans <| extAll x2
theorem parts46_at_6 (x0 : BitVec 2) (x1 : BitVec 3) (x2 : BitVec 1) : BitVec.extractLsb' (n := 11) 6 3 (x0 ++ x1 ++ x2 ++ 3#5) = x1 :=
  (extHi _ 3#5 _ _ (by decide)).trans <| (extHi _ x2 _ _ (by decide)).trans <| (extLo _ x1 _ _ (by decide)).trans <| extAll x1
theorem parts46_at_9 (x0 : BitVec 2) (x1 : BitVec 3) (x2 : BitVec 1) : BitVec.extractLsb' (n := 11) 9 2 (x0 ++ x1 ++ x2 ++ 3#5) = x0 :=
  (extHi _ 3#5 _ _ (by decide)).trans <| (extHi _ x2 _ _ (by decide)).trans <| (extHi _ x1 _ _ (by decide)).trans <| extAll x0
theorem parts47_at_0 (x0 : BitVec 2) (x1 : BitVec 3) (x2 : BitVec 1) : BitVec.extractLsb' (n := 11) 0 5 (x0 ++ x1 ++ x2 ++ 4#5) = 4#5 :=
  (extLo _ 4#5 _ _ (by decide)).trans <| extAll 4#5
theorem parts47_at_5 (x0 : BitVec 2) (x1 : BitVec 3) (x2 : BitVec 1) : BitVec.extractLsb' (n := 11) 5 1 (x0 ++ x1 ++ x2 ++ 4#5) = x2 :=
  (extHi _ 4#5 _ _ (by decide)).trans <| (extLo _ x2 _ _ (by decide)).trans <| extAll x2
theorem parts47_at_6 (x0 : BitVec 2) (x1 : BitVec 3) (x2 : BitVec 1) : BitVec.extractLsb' (n := 11) 6 3 (x0 ++ x1 ++ x2 ++ 4#5) = x1 :=
  (extHi _ 4#5 _ _ (by decide)).trans <| (extHi _ x2 _ _ (by decide)).trans <| (extLo _ x1 _ _ (by decide)).trans <| extAll x1
theorem parts47_at_9 (x0 : BitVec 2) (x1 : BitVec 3) (x2 : BitVec 1) : BitVec.extractLsb' (n := 11) 9 2 (x0 ++ x1 ++ x2 ++ 4#5) = x0 :=
  (extHi _ 4#5 _ _ (by decide)).trans <| (extHi _ x2 _ _ (by decide)).trans <| (extHi _ x1 _ _ (by decide)).trans <| extAll x0
theorem parts48_at_0 (x0 : BitVec 2) (x1 : BitVec 3) (x2 : BitVec 1) : BitVec.extractLsb' (n := 11) 0 5 (x0 ++ x1 ++ x2 ++ 5#5) = 5#5 :=
  (extLo _ 5#5 _ _ (by decide)).trans <| extAll 5#5
theorem parts48_at_5 (x0 : BitVec 2) (x1 : BitVec 3) (x2 : BitVec 1) : BitVec.extractLsb' (n := 11) 5 1 (x0 ++ x1 ++ x2 ++ 5#5) = x2 :=
  (extHi _ 5#5 _ _ (by decide)).trans <| (extLo _ x2 _ _ (by decide)).trans <| extAll x2
theorem parts48_at_6 (x0 : BitVec 2) (x1 : BitVec 3) (x2 : BitVec 1) : BitVec.extractLsb' (n := 11) 6 3 (x0 ++ x1 ++ x2 ++ 5#5) = x1 :=
  (extHi _ 5#5 _ _ (by decide)).trans <| (extHi _ x2 _ _ (by decide)).trans <| (extLo _ x1 _ _ (by decide)).trans <| extAll x1
theorem parts48_at_9 (x0 : BitVec 2) (x1 : BitVec 3) (x2 : BitVec 1) : BitVec.extractLsb' (n := 11) 9 2 (x0 ++ x1 ++ x2 ++ 5#5) = x0 :=
  (extHi _ 5#5 _ _ (by decide)).trans <| (extHi _ x2 _ _ (by decide)).trans <| (extHi _ x1 _ _ (by decide)).trans <| extAll x0
theorem parts49_at_0 (x0 : BitVec 2) (x1 : BitVec 3) (x2 : BitVec 1) : BitVec.extractLsb' (n := 11) 0 5 (x0 ++ x1 ++ x2 ++ 6#5) = 6#5 :=
  (extLo _ 6#5 _ _ (by decide)).trans <| extAll 6#5
theorem parts49_at_5 (x0 : BitVec 2) (x1 : BitVec 3) (x2 : BitVec 1) : BitVec.extractLsb' (n := 11) 5 1 (x0 ++ x1 ++ x2 ++ 6#5) = x2 :=
  (extHi _ 6#5 _ _ (by decide)).trans <| (extLo _ x2 _ _ (by decide)).trans <| extAll x2
theorem parts49_at_6 (x0 : BitVec 2) (x1 : BitVec 3) (x2 : BitVec 1) : BitVec.extractLsb' (n := 11) 6 3 (x0 ++ x1 ++ x2 ++ 6#5) = x1 :=
  (extHi _ 6#5 _ _ (by decide)).trans <| (extHi _ x2 _ _ (by decide)).trans <| (extLo _ x1 _ _ (by decide)).trans <| extAll x1
theorem parts49_at_9 (x0 : BitVec 2) (x1 : BitVec 3) (x2 : BitVec 1) : BitVec.extractLsb' (n := 11) 9 2 (x0 ++ x1 ++ x2 ++ 6#5) = x0 :=
  (extHi _ 6#5 _ _ (by decide)).trans <| (extHi _ x2 _ _ (by decide)).trans <| (extHi _ x1 _ _ (by decide)).trans <| extAll x0
theorem parts50_at_0 (x0 : BitVec 2) (x1 : BitVec 3) (x2 : BitVec 1) : BitVec.extractLsb' (n := 11) 0 5 (x0 ++ x1 ++ x2 ++ 7#5) = 7#5 :=
  (extLo _ 7#5 _ _ (by decide)).trans <| extAll 7#5
theorem parts50_at_5 (x0 : BitVec 2) (x1 : BitVec 3) (x2 : BitVec 1) : BitVec.extractLsb' (n := 11) 5 1 (x0 ++ x1 ++ x2 ++ 7#5) = x2 :=
  (extHi _ 7#5 _ _ (by decide)).trans <| (extLo _ x2 _ _ (by decide)).trans <| extAll x2
theorem parts50_at_6 (x0 : BitVec 2) (x1 : BitVec 3) (x2 : BitVec 1) : BitVec.extractLsb' (n := 11) 6 3 (x0 ++ x1 ++ x2 ++ 7#5) = x1 :=
  (extHi _ 7#5 _ _ (by decide)).trans <| (extHi _ x2 _ _ (by decide)).trans <| (extLo _ x1 _ _ (by decide)).trans <| extAll x1
theorem parts50_at_9 (x0 : BitVec 2) (x1 : BitVec 3) (x2 : BitVec 1) : BitVec.extractLsb' (n := 11) 9 2 (x0 ++ x1 ++ x2 ++ 7#5) = x0 :=
  (extHi _ 7#5 _ _ (by decide)).trans <| (extHi _ x2 _ _ (by decide)).trans <| (extHi _ x1 _ _ (by decide)).trans <| extAll x0
theorem parts51_at_0 (x0 : BitVec 2) (x1 : BitVec 3) (x2 : BitVec 1) : BitVec.extractLsb' (n := 11) 0 5 (x0 ++ x1 ++ x2 ++ 8#5) = 8#5 :=
  (extLo _ 8#5 _ _ (by decide)).trans <| extAll 8#5
theorem parts51_at_5 (x0 : BitVec 2) (x1 : BitVec 3) (x2 : BitVec 1) : BitVec.extractLsb' (n := 11) 5 1 (x0 ++ x1 ++ x2 ++ 8#5) = x2 :=
  (extHi _ 8#5 _ _ (by decide)).trans <| (extLo _ x2 _ _ (by decide)).trans <| extAll x2
theorem parts51_at_6 (x0 : BitVec 2) (x1 : BitVec 3) (x2 : BitVec 1) : BitVec.extractLsb' (n := 11) 6 3 (x0 ++ x1 ++ x2 ++ 8#5) = x1 :=
  (extHi _ 8#5 _ _ (by decide)).trans <| (extHi _ x2 _ _ (by decide)).trans <| (extLo _ x1 _ _ (by decide)).trans <| extAll x1
theorem parts51_at_9 (x0 : BitVec 2) (x1 : BitVec 3) (x2 : BitVec 1) : BitVec.extractLsb' (n := 11) 9 2 (x0 ++ x1 ++ x2 ++ 8#5) = x0 :=
  (extHi _ 8#5 _ _ (by decide)).trans <| (extHi _ x2 _ _ (by decide)).trans <| (extHi _ x1 _ _ (by decide)).trans <| extAll x0
theorem parts52_at_0 (x0 : BitVec 2) (x1 : BitVec 3) (x2 : BitVec 1) : BitVec.extractLsb' (n := 11) 0 5 (x0 ++ x1 ++ x2 ++ 9#5) = 9#5 :=
  (extLo _ 9#5 _ _ (by decide)).trans <| extAll 9#5
theorem parts52_at_5 (x0 : BitVec 2) (x1 : BitVec 3) (x2 : BitVec 1) : BitVec.extractLsb' (n := 11) 5 1 (x0 ++ x1 ++ x2 ++ 9#5) = x2 :=
  (extHi _ 9#5 _ _ (by decide)).trans <| (extLo _ x2 _ _ (by decide)).trans <| extAll x2
theorem parts52_at_6 (x0 : BitVec 2) (x1 : BitVec 3) (x2 : BitVec 1) : BitVec.extractLsb' (n := 11) 6 3 (x0 ++ x1 ++ x2 ++ 9#5) = x1 :=
  (extHi _ 9#5 _ _ (by decide)).trans <| (extHi _ x2 _ _ (by decide)).trans <| (extLo _ x1 _ _ (by decide)).trans <| extAll x1
theorem parts52_at_9 (x0 : BitVec 2) (x1 : BitVec 3) (x2 : BitVec 1) : BitVec.extractLsb' (n := 11) 9 2 (x0 ++ x1 ++ x2 ++ 9#5) = x0 :=
  (extHi _ 9#5 _ _ (by decide)).trans <| (extHi _ x2 _ _ (by decide)).trans <| (extHi _ x1 _ _ (by decide)).trans <| extAll x0
theorem parts53_at_0 (x0 : BitVec 2) (x1 : BitVec 3) : BitVec.extractLsb' (n := 11) 0 5 (x0 ++ x1 ++ 1#1 ++ 10#5) = 10#5 :=
  (extLo _ 10#5 _ _ (by decide)).trans <| extAll 10#5
theorem parts53_at_5 (x0 : BitVec 2) (x1 : BitVec 3) : BitVec.extractLsb' (n := 11) 5 1 (x0 ++ x1 ++ 1#1 ++ 10#5) = 1#1 :=
  (extHi _ 10#5 _ _ (by decide)).trans <| (extLo _ 1#1 _ _ (by decide)).trans <| extAll 1#1
theorem parts53_at_6 (x0 : BitVec 2) (x1 : BitVec 3) : BitVec.extractLsb' (n := 11) 6 3 (x0 ++ x1 ++ 1#1 ++ 10#5) = x1 :=
  (extHi _ 10#5 _ _ (by decide)).trans <| (extHi _ 1#1 _ _ (by decide)).trans <| (extLo _ x1 _ _ (by decide)).trans <| extAll x1
theorem parts53_at_9 (x0 : BitVec 2) (x1 : BitVec 3) : BitVec.extractLsb' (n := 11) 9 2 (x0 ++ x1 ++ 1#1 ++ 10#5) = x0 :=
  (extHi _ 10#5 _ _ (by decide)).trans <| (extHi _ 1#1 _ _ (by decide)).trans <| (extHi _ x1 _ _ (by decide)).trans <| extAll x0
theorem parts54_at_0 (x0 : BitVec 2) (x1 : BitVec 3) : BitVec.extractLsb' (n := 11) 0 5 (x0 ++ x1 ++ 0#1 ++ 11#5) = 11#5 :=
  (extLo _ 11#5 _ _ (by decide)).trans <| extAll 11#5
theorem parts54_at_5 (x0 : BitVec 2) (x1 : BitVec 3) : BitVec.extractLsb' (n := 11) 5 1 (x0 ++ x1 ++ 0#1 ++ 11#5) = 0#1 :=
  (extHi _ 11#5 _ _ (by decide)).trans <| (extLo _ 0#1 _ _ (by decide)).trans <| extAll 0#1
theorem parts54_at_6 (x0 : BitVec 2) (x1 : BitVec 3) : BitVec.extractLsb' (n := 11) 6 3 (x0 ++ x1 ++ 0#1 ++ 11#5) = x1 :=
  (extHi _ 11#5 _ _ (by decide)).trans <| (extHi _ 0#1 _ _ (by decide)).trans <| (extLo _ x1 _ _ (by decide)).trans <| extAll x1
theorem parts54_at_9 (x0 : BitVec 2) (x1 : BitVec 3) : BitVec.extractLsb' (n := 11) 9 2 (x0 ++ x1 ++ 0#1 ++ 11#5) = x0 :=
  (extHi _ 11#5 _ _ (by decide)).trans <| (extHi _ 0#1 _ _ (by decide)).trans <| (extHi _ x1 _ _ (by decide)).trans <| extAll x0
theorem parts55_at_0 (x0 : BitVec 3) : BitVec.extractLsb' (n := 5) 0 3 (0#2 ++ x0) = x0 :=
  (extLo _ x0 _ _ (by decide)).trans <| extAll x0
theorem parts55_at_3 (x0 : BitVec 3) : BitVec.extractLsb' (n := 5) 3 2 (0#2 ++ x0) = 0#2 :=
  (extHi _ x0 _ _ (by decide)).trans <| extAll 0#2
theorem parts56_at_0 (x0 : BitVec 3) (x1 : BitVec 3) : BitVec.extractLsb' (n := 6) 0 3 (x0 ++ x1) = x1 :=
  (extLo _ x1 _ _ (by decide)).trans <| extAll x1
theorem parts56_at_3 (x0 : BitVec 3) (x1 : BitVec 3) : BitVec.extractLsb' (n := 6) 3 3 (x0 ++ x1) = x0 :=
  (extHi _ x1 _ _ (by decide)).trans <| extAll x0
theorem parts57_at_0 (x0 : BitVec 2) : BitVec.extractLsb' (n := 11) 0 6 (0#1 ++ x0 ++ 0#2 ++ 0#6) = 0#6 :=
  (extLo _ 0#6 _ _ (by decide)).trans <| extAll 0#6
theorem parts57_at_6 (x0 : BitVec 2) : BitVec.extractLsb' (n := 11) 6 2 (0#1 ++ x0 ++ 0#2 ++ 0#6) = 0#2 :=
  (extHi _ 0#6 _ _ (by decide)).trans <| (extLo _ 0#2 _ _ (by decide)).trans <| extAll 0#2
theorem parts57_at_8 (x0 : BitVec 2) : BitVec.extractLsb' (n := 11) 8 2 (0#1 ++ x0 ++ 0#2 ++ 0#6) = x0 :=
  (extHi _ 0#6 _ _ (by decide)).trans <| (extHi _ 0#2 _ _ (by decide)).trans <| (extLo _ x0 _ _ (by decide)).trans <| extAll x0
theorem parts57_at_10 (x0 : BitVec 2) : BitVec.extractLsb' (n := 11) 10 1 (0#1 ++ x0 ++ 0#2 ++ 0#6) = 0#1 :=
  (extHi _ 0#6 _ _ (by decide)).trans <| (extHi _ 0#2 _ _ (by decide)).trans <| (extHi _ x0 _ _ (by decide)).trans <| extAll 0#1
theorem parts58_at_0 (x0 : BitVec 2) : BitVec.extractLsb' (n := 11) 0 6 (0#1 ++ x0 ++ 0#2 ++ 1#6) = 1#6 :=
  (extLo _ 1#6 _ _ (by decide)).trans <| extAll 1#6
theorem parts58_at_6 (x0 : BitVec 2) : BitVec.extractLsb' (n := 11) 6 2 (0#1 ++ x0 ++ 0#2 ++ 1#6) = 0#2 :=
  (extHi _ 1#6 _ _ (by decide)).trans <| (extLo _ 0#2 _ _ (by decide)).trans <| extAll 0#2
theorem parts58_at_8 (x0 : BitVec 2) : BitVec.extractLsb' (n := 11) 8 2 (0#1 ++ x0 ++ 0#2 ++ 1#6) = x0 :=
  (extHi _ 1#6 _ _ (by decide)).trans <| (extHi _ 0#2 _ _ (by decide)).trans <| (extLo _ x0 _ _ (by decide)).trans <| extAll x0
theorem parts58_at_10 (x0 : BitVec 2) : BitVec.extractLsb' (n := 11) 10 1 (0#1 ++ x0 ++ 0#2 ++ 1#6) = 0#1 :=
  (extHi _ 1#6 _ _ (by decide)).trans <| (extHi _ 0#2 _ _ (by decide)).trans <| (extHi _ x0 _ _ (by decide)).trans <| extAll 0#1
theorem parts59_at_0 (x0 : BitVec 2) : BitVec.extractLsb' (n := 11) 0 6 (0#1 ++ x0 ++ 0#2 ++ 2#6) = 2#6 :=
  (extLo _ 2#6 _ _ (by decide)).trans <| extAll 2#6
theorem parts59_at_6 (x0 : BitVec 2) : BitVec.extractLsb' (n := 11) 6 2 (0#1 ++ x0 ++ 0#2 ++ 2#6) = 0#2 :=
  (extHi _ 2#6 _ _ (by decide)).trans <| (extLo _ 0#2 _ _ (by decide)).trans <| extAll 0#2
theorem parts59_at_8 (x0 : BitVec 2) : BitVec.extractLsb' (n := 11) 8 2 (0#1 ++ x0 ++ 0#2 ++ 2#6) = x0 :=
  (extHi _ 2#6 _ _ (by decide)).trans <| (extHi _ 0#2 _ _ (by decide)).trans <| (extLo _ x0 _ _ (by decide)).trans <| extAll x0
theorem parts59_at_10 (x0 : BitVec 2) : BitVec.extractLsb' (n := 11) 10 1 (0#1 ++ x0 ++ 0#2 ++ 2#6) = 0#1 :=
  (extHi _ 2#6 _ _ (by decide)).trans <| (extHi _ 0#2 _ _ (by decide)).trans <| (extHi _ x0 _ _ (by decide)).trans <| extAll 0#1
theorem parts60_at_0 (x0 : BitVec 2) : BitVec.extractLsb' (n := 11) 0 6 (0#1 ++ x0 ++ 0#2 ++ 3#6) = 3#6 :=
  (extLo _ 3#6 _ _ (by decide)).trans <| extAll 3#6
theorem parts60_at_6 (x0 : BitVec 2) : BitVec.extractLsb' (n := 11) 6 2 (0#1 ++ x0 ++ 0#2 ++ 3#6) = 0#2 :=
  (extHi _ 3#6 _ _ (by decide)).trans <| (extLo _ 0#2 _ _ (by decide)).trans <| extAll 0#2
theorem parts60_at_8 (x0 : BitVec 2) : BitVec.extractLsb' (n := 11) 8 2 (0#1 ++ x0 ++ 0#2 ++ 3#6) = x0 :=
  (extHi _ 3#6 _ _ (by decide)).trans <| (extHi _ 0#2 _ _ (by decide)).trans <| (extLo _ x0 _ _ (by decide)).trans <| extAll x0
theorem parts60_at_10 (x0 : BitVec 2) : BitVec.extractLsb' (n := 11) 10 1 (0#1 ++ x0 ++ 0#2 ++ 3#6) = 0#1 :=
  (extHi _ 3#6 _ _ (by decide)).trans <| (extHi _ 0#2 _ _ (by decide)).trans <| (extHi _ x0 _ _ (by decide)).trans <| extAll 0#1
theorem parts61_at_0 (x0 : BitVec 2) : BitVec.extractLsb' (n := 11) 0 6 (0#1 ++ x0 ++ 0#2 ++ 4#6) = 4#6 :=
  (extLo _ 4#6 _ _ (by decide)).trans <| extAll 4#6
theorem parts61_at_6 (x0 : BitVec 2) : BitVec.extractLsb' (n := 11) 6 2 (0#1 ++ x0 ++ 0#2 ++ 4#6) = 0#2 :=
  (extHi _ 4#6 _ _ (by decide)).trans <| (extLo _ 0#2 _ _ (by decide)).trans <| extAll 0#2
theorem parts61_at_8 (x0 : BitVec 2) : BitVec.extractLsb' (n := 11) 8 2 (0#1 ++ x0 ++ 0#2 ++ 4#6) = x0 :=
  (extHi _ 4#6 _ _ (by decide)).trans <| (extHi _ 0#2 _ _ (by decide)).trans <| (extLo _ x0 _ _ (by decide)).trans <| extAll x0
theorem parts61_at_10 (x0 : BitVec 2) : BitVec.extractLsb' (n := 11) 10 1 (0#1 ++ x0 ++ 0#2 ++ 4#6) = 0#1 :=
  (extHi _ 4#6 _ _ (by decide)).trans <| (extHi _ 0#2 _ _ (by decide)).trans <| (extHi _ x0 _ _ (by decide)).trans <| extAll 0#1
theorem parts62_at_0 (x0 : BitVec 2) : BitVec.extractLsb' (n := 11) 0 6 (0#1 ++ x0 ++ 0#2 ++ 5#6) = 5#6 :=
  (extLo _ 5#6 _ _ (by decide)).trans <| extAll 5#6
theorem parts62_at_6 (x0 : BitVec 2) : BitVec.extractLsb' (n := 11) 6 2 (0#1 ++ x0 ++ 0#2 ++ 5#6) = 0#2 :=
  (extHi _ 5#6 _ _ (by decide)).trans <| (extLo _ 0#2 _ _ (by decide)).trans <| extAll 0#2
theorem parts62_at_8 (x0 : BitVec 2) : BitVec.extractLsb' (n := 11) 8 2 (0#1 ++ x0 ++ 0#2 ++ 5#6) = x0 :=
  (extHi _ 5#6 _ _ (by decide)).trans <| (extHi _ 0#2 _ _ (by decide)).trans <| (extLo _ x0 _ _ (by decide)).trans <| extAll x0
theorem parts62_at_10 (x0 : BitVec 2) : BitVec.extractLsb' (n := 11) 10 1 (0#1 ++ x0 ++ 0#2 ++ 5#6) = 0#1 :=
  (extHi _ 5#6 _ _ (by decide)).trans <| (extHi _ 0#2 _ _ (by decide)).trans <| (extHi _ x0 _ _ (by decide)).trans <| extAll 0#1
theorem parts63_at_0 (x0 : BitVec 2) : BitVec.extractLsb' (n := 11) 0 6 (0#1 ++ x0 ++ 0#2 ++ 6#6) = 6#6 :=
  (extLo _ 6#6 _ _ (by decide)).trans <| extAll 6#6
theorem parts63_at_6 (x0 : BitVec 2) : BitVec.extractLsb' (n := 11) 6 2 (0#1 ++ x0 ++ 0#2 ++ 6#6) = 0#2 :=
  (extHi _ 6#6 _ _ (by decide)).trans <| (extLo _ 0#2 _ _ (by decide)).trans <| extAll 0#2
theorem parts63_at_8 (x0 : BitVec 2) : BitVec.extractLsb' (n := 11) 8 2 (0#1 ++ x0 ++ 0#2 ++ 6#6) = x0 :=
  (extHi _ 6#6 _ _ (by decide)).trans <| (extHi _ 0#2 _ _ (by decide)).trans <| (extLo _ x0 _ _ (by decide)).trans <| extAll x0
theorem parts63_at_10 (x0 : BitVec 2) : BitVec.extractLsb' (n := 11) 10 1 (0#1 ++ x0 ++ 0#2 ++ 6#6) = 0#1 :=
  (extHi _ 6#6 _ _ (by decide)).trans <| (extHi _ 0#2 _ _ (by decide)).trans <| (extHi _ x0 _ _ (by decide)).trans <| extAll 0#1
theorem parts64_at_0 (x0 : BitVec 2) : BitVec.extractLsb' (n := 11) 0 6 (0#1 ++ x0 ++ 0#2 ++ 7#6) = 7#6 :=
  (extLo _ 7#6 _ _ (by decide)).trans <| extAll 7#6
theorem parts64_at_6 (x0 : BitVec 2) : BitVec.extractLsb' (n := 11) 6 2 (0#1 ++ x0 ++ 0#2 ++ 7#6) = 0#2 :=
  (extHi _ 7#6 _ _ (by decide)).trans <| (extLo _ 0#2 _ _ (by decide)).trans <| extAll 0#2
theorem parts64_at_8 (x0 : BitVec 2) : BitVec.extractLsb' (n := 11) 8 2 (0#1 ++ x0 ++ 0#2 ++ 7#6) = x0 :=
  (extHi _ 7#6 _ _ (by decide)).trans <| (extHi _ 0#2 _ _ (by decide)).trans <| (extLo _ x0 _ _ (by decide)).trans <| extAll x0
theorem parts64_at_10 (x0 : BitVec 2) : BitVec.extractLsb' (n := 11) 10 1 (0#1 ++ x0 ++ 0#2 ++ 7#6) = 0#1 :=
  (extHi _ 7#6 _ _ (by decide)).trans <| (extHi _ 0#2 _ _ (by decide)).trans <| (extHi _ x0 _ _ (by decide)).trans <| extAll 0#1
theorem parts65_at_0 (x0 : BitVec 2) : BitVec.extractLsb' (n := 11) 0 6 (0#1 ++ x0 ++ 0#2 ++ 8#6) = 8#6 :=
  (extLo _ 8#6 _ _ (by decide)).trans <| extAll 8#6
theorem parts65_at_6 (x0 : BitVec 2) : BitVec.extractLsb' (n := 11) 6 2 (0#1 ++ x0 ++ 0#2 ++ 8#6) = 0#2 :=
  (extHi _ 8#6 _ _ (by decide)).trans <| (extLo _ 0#2 _ _ (by decide)).trans <| extAll 0#2
theorem parts65_at_8 (x0 : BitVec 2) : BitVec.extractLsb' (n := 11) 8 2 (0#1 ++ x0 ++ 0#2 ++ 8#6) = x0 :=
  (extHi _ 8#6 _ _ (by decide)).trans <| (extHi _ 0#2 _ _ (by decide)).trans <| (extLo _ x0 _ _ (by decide)).trans <| extAll x0
theorem parts65_at_10 (x0 : BitVec 2) : BitVec.extractLsb' (n := 11) 10 1 (0#1 ++ x0 ++ 0#2 ++ 8#6) = 0#1 :=
  (extHi _ 8#6 _ _ (by decide)).trans <| (extHi _ 0#2 _ _ (by decide)).trans <| (extHi _ x0 _ _ (by decide)).trans <| extAll 0#1
theorem parts66_at_0 (x0 : BitVec 2) : BitVec.extractLsb' (n := 11) 0 6 (0#1 ++ x0 ++ 0#2 ++ 9#6) = 9#6 :=
  (extLo _ 9#6 _ _ (by decide)).trans <| extAll 9#6
theorem parts66_at_6 (x0 : BitVec 2) : BitVec.extractLsb' (n := 11) 6 2 (0#1 ++ x0 ++ 0#2 ++ 9#6) = 0#2 :=
  (extHi _ 9#6 _ _ (by decide)).trans <| (extLo _ 0#2 _ _ (by decide)).trans <| extAll 0#2
theorem parts66_at_8 (x0 : BitVec 2) : BitVec.extractLsb' (n := 11) 8 2 (0#1 ++ x0 ++ 0#2 ++ 9#6) = x0 :=
  (extHi _ 9#6 _ _ (by decide)).trans <| (extHi _ 0#2 _ _ (by decide)).trans <| (extLo _ x0 _ _ (by decide)).trans <| extAll x0
theorem parts66_at_10 (x0 : BitVec 2) : BitVec.extractLsb' (n := 11) 10 1 (0#1 ++ x0 ++ 0#2 ++ 9#6) = 0#1 :=
  (extHi _ 9#6 _ _ (by decide)).trans <| (extHi _ 0#2 _ _ (by decide)).trans <| (extHi _ x0 _ _ (by decide)).trans <| extAll 0#1
theorem parts67_at_0 (x0 : BitVec 2) : BitVec.extractLsb' (n := 11) 0 6 (0#1 ++ x0 ++ 0#2 ++ 10#6) = 10#6 :=
  (extLo _ 10#6 _ _ (by decide)).trans <| extAll 10#6
theorem parts67_at_6 (x0 : BitVec 2) : BitVec.extractLsb' (n := 11) 6 2 (0#1 ++ x0 ++ 0#2 ++ 10#6) = 0#2 :=
  (extHi _ 10#6 _ _ (by decide)).trans <| (extLo _ 0#2 _ _ (by decide)).trans <| extAll 0#2
theorem parts67_at_8 (x0 : BitVec 2) : BitVec.extractLsb' (n := 11) 8 2 (0#1 ++ x0 ++ 0#2 ++ 10#6) = x0 :=
  (extHi _ 10#6 _ _ (by decide)).trans <| (extHi _ 0#2 _ _ (by decide)).trans <| (extLo _ x0 _ _ (by decide)).trans <| extAll x0
theorem parts67_at_10 (x0 : BitVec 2) : BitVec.extractLsb' (n := 11) 10 1 (0#1 ++ x0 ++ 0#2 ++ 10#6) = 0#1 :=
  (extHi _ 10#6 _ _ (by decide)).trans <| (extHi _ 0#2 _ _ (by decide)).trans <| (extHi _ x0 _ _ (by decide)).trans <| extAll 0#1
theorem parts68_at_0 (x0 : BitVec 2) : BitVec.extractLsb' (n := 11) 0 6 (0#1 ++ x0 ++ 0#2 ++ 11#6) = 11#6 :=
  (extLo _ 11#6 _ _ (by decide)).trans <| extAll 11#6
theorem parts68_at_6 (x0 : BitVec 2) : BitVec.extractLsb' (n := 11) 6 2 (0#1 ++ x0 ++ 0#2 ++ 11#6) = 0#2 :=
  (extHi _ 11#6 _ _ (by decide)).trans <| (extLo _ 0#2 _ _ (by decide)).trans <| extAll 0#2
theorem parts68_at_8 (x0 : BitVec 2) : BitVec.extractLsb' (n := 11) 8 2 (0#1 ++ x0 ++ 0#2 ++ 11#6) = x0 :=
  (extHi _ 11#6 _ _ (by decide)).trans <| (extHi _ 0#2 _ _ (by decide)).trans <| (extLo _ x0 _ _ (by decide)).trans <| extAll x0
theorem parts68_at_10 (x0 : BitVec 2) : BitVec.extractLsb' (n := 11) 10 1 (0#1 ++ x0 ++ 0#2 ++ 11#6) = 0#1 :=
  (extHi _ 11#6 _ _ (by decide)).trans <| (extHi _ 0#2 _ _ (by decide)).trans <| (extHi _ x0 _ _ (by decide)).trans <| extAll 0#1
theorem parts69_at_0 (x0 : BitVec 2) : BitVec.extractLsb' (n := 11) 0 6 (0#1 ++ x0 ++ 0#2 ++ 12#6) = 12#6 :=
  (extLo _ 12#6 _ _ (by decide)).trans <| extAll 12#6
theorem parts69_at_6 (x0 : BitVec 2) : BitVec.extractLsb' (n := 11) 6 2 (0#1 ++ x0 ++ 0#2 ++ 12#6) = 0#2 :=
  (extHi _ 12#6 _ _ (by decide)).trans <| (extLo _ 0#2 _ _ (by decide)).trans <| extAll 0#2
theorem parts69_at_8 (x0 : BitVec 2) : BitVec.extractLsb' (n := 11) 8 2 (0#1 ++ x0 ++ 0#2 ++ 12#6) = x0 :=
  (extHi _ 12#6 _ _ (by decide)).trans <| (extHi _ 0#2 _ _ (by decide)).trans <| (extLo _ x0 _ _ (by decide)).trans <| extAll x0
theorem parts69_at_10 (x0 : BitVec 2) : BitVec.extractLsb' (n := 11) 10 1 (0#1 ++ x0 ++ 0#2 ++ 12#6) = 0#1 :=
  (extHi _ 12#6 _ _ (by decide)).trans <| (extHi _ 0#2 _ _ (by decide)).trans <| (extHi _ x0 _ _ (by decide)).trans <| extAll 0#1
theorem parts70_at_0 (x0 : BitVec 2) : BitVec.extractLsb' (n := 11) 0 6 (0#1 ++ x0 ++ 0#2 ++ 13#6) = 13#6 :=
  (extLo _ 13#6 _ _ (by decide)).trans <| extAll 13#6
theorem parts70_at_6 (x0 : BitVec 2) : BitVec.extractLsb' (n := 11) 6 2 (0#1 ++ x0 ++ 0#2 ++ 13#6) = 0#2 :=
  (extHi _ 13#6 _ _ (by decide)).trans <| (extLo _ 0#2 _ _ (by decide)).trans <| extAll 0#2
theorem parts70_at_8 (x0 : BitVec 2) : BitVec.extractLsb' (n := 11) 8 2 (0#1 ++ x0 ++ 0#2 ++ 13#6) = x0 :=
  (extHi _ 13#6 _ _ (by decide)).trans <| (extHi _ 0#2 _ _ (by decide)).trans <| (extLo _ x0 _ _ (by decide)).trans <| extAll x0
theorem parts70_at_10 (x0 : BitVec 2) : BitVec.extractLsb' (n := 11) 10 1 (0#1 ++ x0 ++ 0#2 ++ 13#6) = 0#1 :=
  (extHi _ 13#6 _ _ (by decide)).trans <| (extHi _ 0#2 _ _ (by decide)).trans <| (extHi _ x0 _ _ (by decide)).trans <| extAll 0#1
theorem parts71_at_0 (x0 : BitVec 2) : BitVec.extractLsb' (n := 11) 0 6 (0#1 ++ x0 ++ 0#2 ++ 14#6) = 14#6 :=
  (extLo _ 14#6 _ _ (by decide)).trans <| extAll 14#6
theorem parts71_at_6 (x0 : BitVec 2) : BitVec.extractLsb' (n := 11) 6 2 (0#1 ++ x0 ++ 0#2 ++ 14#6) = 0#2 :=
  (extHi _ 14#6 _ _ (by decide)).trans <| (extLo _ 0#2 _ _ (by decide)).trans <| extAll 0#2
theorem parts71_at_8 (x0 : BitVec 2) : BitVec.extractLsb' (n := 11) 8 2 (0#1 ++ x0 ++ 0#2 ++ 14#6) = x0 :=
  (extHi _ 14#6 _ _ (by decide)).trans <| (extHi _ 0#2 _ _ (by decide)).trans <| (extLo _ x0 _ _ (by decide)).trans <| extAll x0
theorem parts71_at_10 (x0 : BitVec 2) : BitVec.extractLsb' (n := 11) 10 1 (0#1 ++ x0 ++ 0#2 ++ 14#6) = 0#1 :=
  (extHi _ 14#6 _ _ (by decide)).trans <| (extHi _ 0#2 _ _ (by decide)).trans <| (extHi _ x0 _ _ (by decide)).trans <| extAll 0#1
theorem parts72_at_0 (x0 : BitVec 2) : BitVec.extractLsb' (n := 11) 0 6 (0#1 ++ x0 ++ 0#2 ++ 15#6) = 15#6 :=
  (extLo _ 15#6 _ _ (by decide)).trans <| extAll 15#6
theorem parts72_at_6 (x0 : BitVec 2) : BitVec.extractLsb' (n := 11) 6 2 (0#1 ++ x0 ++ 0#2 ++ 15#6) = 0#2 :=
  (extHi _ 15#6 _ _ (by decide)).trans <| (extLo _ 0#2 _ _ (by decide)).trans <| extAll 0#2
theorem parts72_at_8 (x0 : BitVec 2) : BitVec.extractLsb' (n := 11) 8 2 (0#1 ++ x0 ++ 0#2 ++ 15#6) = x0 :=
  (extHi _ 15#6 _ _ (by decide)).trans <| (extHi _ 0#2 _ _ (by decide)).trans <| (extLo _ x0 _ _ (by decide)).trans <| extAll x0
theorem parts72_at_10 (x0 : BitVec 2) : BitVec.extractLsb' (n := 11) 10 1 (0#1 ++ x0 ++ 0#2 ++ 15#6) = 0#1 :=
  (extHi _ 15#6 _ _ (by decide)).trans <| (extHi _ 0#2 _ _ (by decide)).trans <| (extHi _ x0 _ _ (by decide)).trans <| extAll 0#1
theorem parts73_at_0 (x0 : BitVec 2) : BitVec.extractLsb' (n := 5) 0 2 (0#3 ++ x0) = x0 :=
  (extLo _ x0 _ _ (by decide)).trans <| extAll x0
theorem parts73_at_2 (x0 : BitVec 2) : BitVec.extractLsb' (n := 5) 2 3 (0#3 ++ x0) = 0#3 :=
  (extHi _ x0 _ _ (by decide)).trans <| extAll 0#3
theorem parts74_at_0 (x0 : BitVec 2) : BitVec.extractLsb' (n := 11) 0 6 (0#1 ++ x0 ++ 0#2 ++ 16#6) = 16#6 :=
  (extLo _ 16#6 _ _ (by decide)).trans <| extAll 16#6
theorem parts74_at_6 (x0 : BitVec 2) : BitVec.extractLsb' (n := 11) 6 2 (0#1 ++ x0 ++ 0#2 ++ 16#6) = 0#2 :=
  (extHi _ 16#6 _ _ (by decide)).trans <| (extLo _ 0#2 _ _ (by decide)).trans <| extAll 0#2
theorem parts74_at_8 (x0 : BitVec 2) : BitVec.extractLsb' (n := 11) 8 2 (0#1 ++ x0 ++ 0#2 ++ 16#6) = x0 :=
  (extHi _ 16#6 _ _ (by decide)).trans <| (extHi _ 0#2 _ _ (by decide)).trans <| (extLo _ x0 _ _ (by decide)).trans <| extAll x0
theorem parts74_at_10 (x0 : BitVec 2) : BitVec.extractLsb' (n := 11) 10 1 (0#1 ++ x0 ++ 0#2 ++ 16#6) = 0#1 :=
  (extHi _ 16#6 _ _ (by decide)).trans <| (extHi _ 0#2 _ _ (by decide)).trans <| (extHi _ x0 _ _ (by decide)).trans <| extAll 0#1
theorem parts75_at_0 (x0 : BitVec 2) : BitVec.extractLsb' (n := 11) 0 6 (0#1 ++ x0 ++ 0#2 ++ 17#6) = 17#6 :=
  (extLo _ 17#6 _ _ (by decide)).trans <| extAll 17#6
theorem parts75_at_6 (x0 : BitVec 2) : BitVec.extractLsb' (n := 11) 6 2 (0#1 ++ x0 ++ 0#2 ++ 17#6) = 0#2 :=
  (extHi _ 17#6 _ _ (by decide)).trans <| (extLo _ 0#2 _ _ (by decide)).trans <| extAll 0#2
theorem parts75_at_8 (x0 : BitVec 2) : BitVec.extractLsb' (n := 11) 8 2 (0#1 ++ x0 ++ 0#2 ++ 17#6) = x0 :=
  (extHi _ 17#6 _ _ (by decide)).trans <| (extHi _ 0#2 _ _ (by decide)).trans <| (extLo _ x0 _ _ (by decide)).trans <| extAll x0
theorem parts75_at_10 (x0 : BitVec 2) : BitVec.extractLsb' (n := 11) 10 1 (0#1 ++ x0 ++ 0#2 ++ 17#6) = 0#1 :=
  (extHi _ 17#6 _ _ (by decide)).trans <| (extHi _ 0#2 _ _ (by decide)).trans <| (extHi _ x0 _ _ (by decide)).trans <| extAll 0#1
theorem parts76_at_0 (x0 : BitVec 5) (x1 : BitVec 2) : BitVec.extractLsb' (n := 11) 0 2 (x0 ++ x1 ++ 0#2 ++ 0#2) = 0#2 :=
  (extLo _ 0#2 _ _ (by decide)).trans <| extAll 0#2
theorem parts76_at_2 (x0 : BitVec 5) (x1 : BitVec 2) : BitVec.extractLsb' (n := 11) 2 2 (x0 ++ x1 ++ 0#2 ++ 0#2) = 0#2 :=
  (extHi _ 0#2 _ _ (by decide)).trans <| (extLo _ 0#2 _ _ (by decide)).trans <| extAll 0#2
theorem parts76_at_4 (x0 : BitVec 5) (x1 : BitVec 2) : BitVec.extractLsb' (n := 11) 4 2 (x0 ++ x1 ++ 0#2 ++ 0#2) = x1 :=
  (extHi _ 0#2 _ _ (by decide)).trans <| (extHi _ 0#2 _ _ (by decide)).trans <| (extLo _ x1 _ _ (by decide)).trans <| extAll x1
theorem parts76_at_6 (x0 : BitVec 5) (x1 : BitVec 2) : BitVec.extractLsb' (n := 11) 6 5 (x0 ++ x1 ++ 0#2 ++ 0#2) = x0 :=
  (extHi _ 0#2 _ _ (by decide)).trans <| (extHi _ 0#2 _ _ (by decide)).trans <| (extHi _ x1 _ _ (by decide)).trans <| extAll x0
theorem parts77_at_0 (x0 : BitVec 5) (x1 : BitVec 2) : BitVec.extractLsb' (n := 11) 0 2 (x0 ++ x1 ++ 0#2 ++ 1#2) = 1#2 :=
  (extLo _ 1#2 _ _ (by decide)).trans <| extAll 1#2
theorem parts77_at_2 (x0 : BitVec 5) (x1 : BitVec 2) : BitVec.extractLsb' (n := 11) 2 2 (x0 ++ x1 ++ 0#2 ++ 1#2) = 0#2 :=
  (extHi _ 1#2 _ _ (by decide)).trans <| (extLo _ 0#2 _ _ (by decide)).trans <| extAll 0#2
theorem parts77_at_4 (x0 : BitVec 5) (x1 : BitVec 2) : BitVec.extractLsb' (n := 11) 4 2 (x0 ++ x1 ++ 0#2 ++ 1#2) = x1 :=
  (extHi _ 1#2 _ _ (by decide)).trans <| (extHi _ 0#2 _ _ (by decide)).trans <| (extLo _ x1 _ _ (by decide)).trans <| extAll x1
theorem parts77_at_6 (x0 : BitVec 5) (x1 : BitVec 2) : BitVec.extractLsb' (n := 11) 6 5 (x0 ++ x1 ++ 0#2 ++ 1#2) = x0 :=
  (extHi _ 1#2 _ _ (by decide)).trans <| (extHi _ 0#2 _ _ (by decide)).trans <| (extHi _ x1 _ _ (by decide)).trans <| extAll x0
theorem parts78_at_0 (x0 : BitVec 5) (x1 : BitVec 2) : BitVec.extractLsb' (n := 11) 0 2 (x0 ++ x1 ++ 0#2 ++ 2#2) = 2#2 :=
  (extLo _ 2#2 _ _ (by decide)).trans <| extAll 2#2
theorem parts78_at_2 (x0 : BitVec 5) (x1 : BitVec 2) : BitVec.extractLsb' (n := 11) 2 2 (x0 ++ x1 ++ 0#2 ++ 2#2) = 0#2 :=
  (extHi _ 2#2 _ _ (by decide)).trans <| (extLo _ 0#2 _ _ (by decide)).trans <| extAll 0#2
theorem parts78_at_4 (x0 : BitVec 5) (x1 : BitVec 2) : BitVec.extractLsb' (n := 11) 4 2 (x0 ++ x1 ++ 0#2 ++ 2#2) = x1 :=
  (extHi _ 2#2 _ _ (by decide)).trans <| (extHi _ 0#2 _ _ (by decide)).trans <| (extLo _ x1 _ _ (by decide)).trans <| extAll x1
theorem parts78_at_6 (x0 : BitVec 5) (x1 : BitVec 2) : BitVec.extractLsb' (n := 11) 6 5 (x0 ++ x1 ++ 0#2 ++ 2#2) = x0 :=
  (extHi _ 2#2 _ _ (by decide)).trans <| (extHi _ 0#2 _ _ (by decide)).trans <| (extHi _ x1 _ _ (by decide)).trans <| extAll x0
theorem parts79_at_0 (x0 : BitVec 5) (x1 : BitVec 2) : BitVec.extractLsb' (n := 11) 0 2 (x0 ++ x1 ++ 0#2 ++ 3#2) = 3#2 :=
  (extLo _ 3#2 _ _ (by decide)).trans <| extAll 3#2
theorem parts79_at_2 (x0 : BitVec 5) (x1 : BitVec 2) : BitVec.extractLsb' (n := 11) 2 2 (x0 ++ x1 ++ 0#2 ++ 3#2) = 0#2 :=
  (extHi _ 3#2 _ _ (by decide)).trans <| (extLo _ 0#2 _ _ (by decide)).trans <| extAll 0#2
theorem parts79_at_4 (x0 : BitVec 5) (x1 : BitVec 2) : BitVec.extractLsb' (n := 11) 4 2 (x0 ++ x1 ++ 0#2 ++ 3#2) = x1 :=
  (extHi _ 3#2 _ _ (by decide)).trans <| (extHi _ 0#2 _ _ (by decide)).trans <| (extLo _ x1 _ _ (by decide)).trans <| extAll x1
theorem parts79_at_6 (x0 : BitVec 5) (x1 : BitVec 2) : BitVec.extractLsb' (n := 11) 6 5 (x0 ++ x1 ++ 0#2 ++ 3#2) = x0 :=
  (extHi _ 3#2 _ _ (by decide)).trans <| (extHi _ 0#2 _ _ (by decide)).trans <| (extHi _ x1 _ _ (by decide)).trans <| extAll x0
theorem parts80_at_0 (x0 : BitVec 1) (x1 : BitVec 3) : BitVec.extractLsb' (n := 4) 0 3 (x0 ++ x1) = x1 :=
  (extLo _ x1 _ _ (by decide)).trans <| extAll x1
theorem parts80_at_3 (x0 : BitVec 1) (x1 : BitVec 3) : BitVec.extractLsb' (n := 4) 3 1 (x0 ++ x1) = x0 :=
  (extHi _ x1 _ _ (by decide)).trans <| extAll x0
theorem parts81_at_0 (x0 : BitVec 3) : BitVec.extractLsb' (n := 4) 0 3 (0#1 ++ x0) = x0 :=
  (extLo _ x0 _ _ (by decide)).trans <| extAll x0
theorem parts81_at_3 (x0 : BitVec 3) : BitVec.extractLsb' (n := 4) 3 1 (0#1 ++ x0) = 0#1 :=
  (extHi _ x0 _ _ (by decide)).trans <| extAll 0#1
theorem parts82_at_0 (x0 : BitVec 1) (x1 : BitVec 2) : BitVec.extractLsb' (n := 6) 0 2 (0#3 ++ x0 ++ x1) = x1 :=
  (extLo _ x1 _ _ (by decide)).trans <| extAll x1
theorem parts82_at_2 (x0 : BitVec 1) (x1 : BitVec 2) : BitVec.extractLsb' (n := 6) 2 1 (0#3 ++ x0 ++ x1) = x0 :=
  (extHi _ x1 _ _ (by decide)).trans <| (extLo _ x0 _ _ (by decide)).trans <| extAll x0
theorem parts82_at_3 (x0 : BitVec 1) (x1 : BitVec 2) : BitVec.extractLsb' (n := 6) 3 3 (0#3 ++ x0 ++ x1) = 0#3 :=
  (extHi _ x1 _ _ (by decide)).trans <| (extHi _ x0 _ _ (by decide)).trans <| extAll 0#3
theorem parts83_at_0 (x0 : BitVec 1) (x1 : BitVec 1) : BitVec.extractLsb' (n := 6) 0 1 (0#4 ++ x0 ++ x1) = x1 :=
  (extLo _ x1 _ _ (by decide)).trans <| extAll x1
theorem parts83_at_1 (x0 : BitVec 1) (x1 : BitVec 1) : BitVec.extractLsb' (n := 6) 1 1 (0#4 ++ x0 ++ x1) = x0 :=
  (extHi _ x1 _ _ (by decide)).trans <| (extLo _ x0 _ _ (by decide)).trans <| extAll x0
theorem parts83_at_2 (x0 : BitVec 1) (x1 : BitVec 1) : BitVec.extractLsb' (n := 6) 2 4 (0#4 ++ x0 ++ x1) = 0#4 :=
  (extHi _ x1 _ _ (by decide)).trans <| (extHi _ x0 _ _ (by decide)).trans <| extAll 0#4
theorem parts84_at_0 (x0 : BitVec 3) : BitVec.extractLsb' (n := 6) 0 3 (0#3 ++ x0) = x0 :=
  (extLo _ x0 _ _ (by decide)).trans <| extAll x0
theorem parts84_at_3 (x0 : BitVec 3) : BitVec.extractLsb' (n := 6) 3 3 (0#3 ++ x0) = 0#3 :=
  (extHi _ x0 _ _ (by decide)).trans <| extAll 0#3
theorem parts85_at_0 (x0 : BitVec 2) : BitVec.extractLsb' (n := 6) 0 2 (0#4 ++ x0) = x0 :=
  (extLo _ x0 _ _ (by decide)).trans <| extAll x0
theorem parts85_at_2 (x0 : BitVec 2) : BitVec.extractLsb' (n := 6) 2 4 (0#4 ++ x0) = 0#4 :=
  (extHi _ x0 _ _ (by decide)).trans <| extAll 0#4
theorem parts86_at_0 (x0 : BitVec 1) : BitVec.extractLsb' (n := 6) 0 1 (0#4 ++ x0 ++ 0#1) = 0#1 :=
  (extLo _ 0#1 _ _ (by decide)).trans <| extAll 0#1
theorem parts86_at_1 (x0 : BitVec 1) : BitVec.extractLsb' (n := 6) 1 1 (0#4 ++ x0 ++ 0#1) = x0 :=
  (extHi _ 0#1 _ _ (by decide)).trans <| (extLo _ x0 _ _ (by decide)).trans <| extAll x0
theorem parts86_at_2 (x0 : BitVec 1) : BitVec.extractLsb' (n := 6) 2 4 (0#4 ++ x0 ++ 0#1) = 0#4 :=
  (extHi _ 0#1 _ _ (by decide)).trans <| (extHi _ x0 _ _ (by decide)).trans <| extAll 0#4
theorem parts87_at_0 (x0 : BitVec 12) (x1 : BitVec 5) (x2 : BitVec 5) : BitVec.extractLsb' (n := 32) 0 7 (x0 ++ x1 ++ 0#3 ++ x2 ++ 11#7) = 11#7 :=
  (extLo _ 11#7 _ _ (by decide)).trans <| extAll 11#7
theorem parts87_at_7 (x0 : BitVec 12) (x1 : BitVec 5) (x2 : BitVec 5) : BitVec.extractLsb' (n := 32) 7 5 (x0 ++ x1 ++ 0#3 ++ x2 ++ 11#7) = x2 :=
  (extHi _ 11#7 _ _ (by decide)).trans <| (extLo _ x2 _ _ (by decide)).trans <| extAll x2
theorem parts87_at_12 (x0 : BitVec 12) (x1 : BitVec 5) (x2 : BitVec 5) : BitVec.extractLsb' (n := 32) 12 3 (x0 ++ x1 ++ 0#3 ++ x2 ++ 11#7) = 0#3 :=
  (extHi _ 11#7 _ _ (by decide)).trans <| (extHi _ x2 _ _ (by decide)).trans <| (extLo _ 0#3 _ _ (by decide)).trans <| extAll 0#3
theorem parts87_at_15 (x0 : BitVec 12) (x1 : BitVec 5) (x2 : BitVec 5) : BitVec.extractLsb' (n := 32) 15 5 (x0 ++ x1 ++ 0#3 ++ x2 ++ 11#7) = x1 :=
  (extHi _ 11#7 _ _ (by decide)).trans <| (extHi _ x2 _ _ (by decide)).trans <| (extHi _ 0#3 _ _ (by decide)).trans <| (extLo _ x1 _ _ (by decide)).trans <| extAll x1
theorem parts87_at_20 (x0 : BitVec 12) (x1 : BitVec 5) (x2 : BitVec 5) : BitVec.extractLsb' (n := 32) 20 12 (x0 ++ x1 ++ 0#3 ++ x2 ++ 11#7) = x0 :=
  (extHi _ 11#7 _ _ (by decide)).trans <| (extHi _ x2 _ _ (by decide)).trans <| (extHi _ 0#3 _ _ (by decide)).trans <| (extHi _ x1 _ _ (by decide)).trans <| extAll x0
theorem parts88_at_0 (x0 : BitVec 7) (x1 : BitVec 5) (x2 : BitVec 5) (x3 : BitVec 5) : BitVec.extractLsb' (n := 32) 0 7 (x0 ++ x1 ++ x2 ++ 1#3 ++ x3 ++ 11#7) = 11#7 :=
  (extLo _ 11#7 _ _ (by decide)).trans <| extAll 11#7
theorem parts88_at_7 (x0 : BitVec 7) (x1 : BitVec 5) (x2 : BitVec 5) (x3 : BitVec 5) : BitVec.extractLsb' (n := 32) 7 5 (x0 ++ x1 ++ x2 ++ 1#3 ++ x3 ++ 11#7) = x3 :=
  (extHi _ 11#7 _ _ (by decide)).trans <| (extLo _ x3 _ _ (by decide)).trans <| extAll x3
theorem parts88_at_12 (x0 : BitVec 7) (x1 : BitVec 5) (x2 : BitVec 5) (x3 : BitVec 5) : BitVec.extractLsb' (n := 32) 12 3 (x0 ++ x1 ++ x2 ++ 1#3 ++ x3 ++ 11#7) = 1#3 :=
  (extHi _ 11#7 _ _ (by decide)).trans <| (extHi _ x3 _ _ (by decide)).trans <| (extLo _ 1#3 _ _ (by decide)).trans <| extAll 1#3
theorem parts88_at_15 (x0 : BitVec 7) (x1 : BitVec 5) (x2 : BitVec 5) (x3 : BitVec 5) : BitVec.extractLsb' (n := 32) 15 5 (x0 ++ x1 ++ x2 ++ 1#3 ++ x3 ++ 11#7) = x2 :=
  (extHi _ 11#7 _ _ (by decide)).trans <| (extHi _ x3 _ _ (by decide)).trans <| (extHi _ 1#3 _ _ (by decide)).trans <| (extLo _ x2 _ _ (by decide)).trans <| extAll x2
theorem parts88_at_20 (x0 : BitVec 7) (x1 : BitVec 5) (x2 : BitVec 5) (x3 : BitVec 5) : BitVec.extractLsb' (n := 32) 20 5 (x0 ++ x1 ++ x2 ++ 1#3 ++ x3 ++ 11#7) = x1 :=
  (extHi _ 11#7 _ _ (by decide)).trans <| (extHi _ x3 _ _ (by decide)).trans <| (extHi _ 1#3 _ _ (by decide)).trans <| (extHi _ x2 _ _ (by decide)).trans <| (extLo _ x1 _ _ (by decide)).trans <| extAll x1
theorem parts88_at_25 (x0 : BitVec 7) (x1 : BitVec 5) (x2 : BitVec 5) (x3 : BitVec 5) : BitVec.extractLsb' (n := 32) 25 7 (x0 ++ x1 ++ x2 ++ 1#3 ++ x3 ++ 11#7) = x0 :=
  (extHi _ 11#7 _ _ (by decide)).trans <| (extHi _ x3 _ _ (by decide)).trans <| (extHi _ 1#3 _ _ (by decide)).trans <| (extHi _ x2 _ _ (by decide)).trans <| (extHi _ x1 _ _ (by decide)).trans <| extAll x0
theorem parts89_at_0 (x0 : BitVec 5) : BitVec.extractLsb' (n := 32) 0 7 (0#17 ++ (0#3 ++ x0 ++ 43#7)) = 43#7 :=
  (extLo _ (0#3 ++ x0 ++ 43#7) _ _ (by decide)).trans <| (extLo _ 43#7 _ _ (by decide)).trans <| extAll 43#7
theorem parts89_at_7 (x0 : BitVec 5) : BitVec.extractLsb' (n := 32) 7 5 (0#17 ++ (0#3 ++ x0 ++ 43#7)) = x0 :=
  (extLo _ (0#3 ++ x0 ++ 43#7) _ _ (by decide)).trans <| (extHi _ 43#7 _ _ (by decide)).trans <| (extLo _ x0 _ _ (by decide)).trans <| extAll x0
theorem parts89_at_12 (x0 : BitVec 5) : BitVec.extractLsb' (n := 32) 12 3 (0#17 ++ (0#3 ++ x0 ++ 43#7)) = 0#3 :=
  (extLo _ (0#3 ++ x0 ++ 43#7) _ _ (by decide)).trans <| (extHi _ 43#7 _ _ (by decide)).trans <| (extHi _ x0 _ _ (by decide)).trans <| extAll 0#3
theorem parts89_at_15 (x0 : BitVec 5) : BitVec.extractLsb' (n := 32) 15 17 (0#17 ++ (0#3 ++ x0 ++ 43#7)) = 0#17 :=
  (extHi _ (0#3 ++ x0 ++ 43#7) _ _ (by decide)).trans <| extAll 0#17
theorem parts90_at_0 (x0 : BitVec 5) : BitVec.extractLsb' (n := 32) 0 7 (0#17 ++ (1#3 ++ x0 ++ 43#7)) = 43#7 :=
  (extLo _ (1#3 ++ x0 ++ 43#7) _ _ (by decide)).trans <| (extLo _ 43#7 _ _ (by decide)).trans <| extAll 43#7
theorem parts90_at_7 (x0 : BitVec 5) : BitVec.extractLsb' (n := 32) 7 5 (0#17 ++ (1#3 ++ x0 ++ 43#7)) = x0 :=
  (extLo _ (1#3 ++ x0 ++ 43#7) _ _ (by decide)).trans <| (extHi _ 43#7 _ _ (by decide)).trans <| (extLo _ x0 _ _ (by decide)).trans <| extAll x0
theorem parts90_at_12 (x0 : BitVec 5) : BitVec.extractLsb' (n := 32) 12 3 (0#17 ++ (1#3 ++ x0 ++ 43#7)) = 1#3 :=
  (extLo _ (1#3 ++ x0 ++ 43#7) _ _ (by decide)).trans <| (extHi _ 43#7 _ _ (by decide)).trans <| (extHi _ x0 _ _ (by decide)).trans <| extAll 1#3
theorem parts90_at_15 (x0 : BitVec 5) : BitVec.extractLsb' (n := 32) 15 17 (0#17 ++ (1#3 ++ x0 ++ 43#7)) = 0#17 :=
  (extHi _ (1#3 ++ x0 ++ 43#7) _ _ (by decide)).trans <| extAll 0#17
theorem parts91_at_0 (x0 : BitVec 5) (x1 : BitVec 5) (x2 : BitVec 5) : BitVec.extractLsb' (n := 32) 0 7 (0#7 ++ x0 ++ x1 ++ 2#3 ++ x2 ++ 43#7) = 43#7 :=
  (extLo _ 43#7 _ _ (by decide)).trans <| extAll 43#7
theorem parts91_at_7 (x0 : BitVec 5) (x1 : BitVec 5) (x2 : BitVec 5) : BitVec.extractLsb' (n := 32) 7 5 (0#7 ++ x0 ++ x1 ++ 2#3 ++ x2 ++ 43#7) = x2 :=
  (extHi _ 43#7 _ _ (by decide)).trans <| (extLo _ x2 _ _ (by decide)).trans <| extAll x2
theorem parts91_at_12 (x0 : BitVec 5) (x1 : BitVec 5) (x2 : BitVec 5) : BitVec.extractLsb' (n := 32) 12 3 (0#7 ++ x0 ++ x1 ++ 2#3 ++ x2 ++ 43#7) = 2#3 :=
  (extHi _ 43#7 _ _ (by decide)).trans <| (extHi _ x2 _ _ (by decide)).trans <| (extLo _ 2#3 _ _ (by decide)).trans <| extAll 2#3
theorem parts91_at_15 (x0 : BitVec 5) (x1 : BitVec 5) (x2 : BitVec 5) : BitVec.extractLsb' (n := 32) 15 5 (0#7 ++ x0 ++ x1 ++ 2#3 ++ x2 ++ 43#7) = x1 :=
  (extHi _ 43#7 _ _ (by decide)).trans <| (extHi _ x2 _ _ (by decide)).trans <| (extHi _ 2#3 _ _ (by decide)).trans <| (extLo _ x1 _ _ (by decide)).trans <| extAll x1
theorem parts91_at_20 (x0 : BitVec 5) (x1 : BitVec 5) (x2 : BitVec 5) : BitVec.extractLsb' (n := 32) 20 5 (0#7 ++ x0 ++ x1 ++ 2#3 ++ x2 ++ 43#7) = x0 :=
  (extHi _ 43#7 _ _ (by decide)).trans <| (extHi _ x2 _ _ (by decide)).trans <| (extHi _ 2#3 _ _ (by decide)).trans <| (extHi _ x1 _ _ (by decide)).trans <| (extLo _ x0 _ _ (by decide)).trans <| extAll x0
theorem parts91_at_25 (x0 : BitVec 5) (x1 : BitVec 5) (x2 : BitVec 5) : BitVec.extractLsb' (n := 32) 25 7 (0#7 ++ x0 ++ x1 ++ 2#3 ++ x2 ++ 43#7) = 0#7 :=
  (extHi _ 43#7 _ _ (by decide)).trans <| (extHi _ x2 _ _ (by decide)).trans <| (extHi _ 2#3 _ _ (by decide)).trans <| (extHi _ x1 _ _ (by decide)).trans <| (extHi _ x0 _ _ (by decide)).trans <| extAll 0#7
theorem parts92_at_0 (x0 : BitVec 5) (x1 : BitVec 5) : BitVec.extractLsb' (n := 32) 0 7 (0#12 ++ x0 ++ 3#3 ++ x1 ++ 43#7) = 43#7 :=
  (extLo _ 43#7 _ _ (by decide)).trans <| extAll 43#7
theorem parts92_at_7 (x0 : BitVec 5) (x1 : BitVec 5) : BitVec.extractLsb' (n := 32) 7 5 (0#12 ++ x0 ++ 3#3 ++ x1 ++ 43#7) = x1 :=
  (extHi _ 43#7 _ _ (by decide)).trans <| (extLo _ x1 _ _ (by decide)).trans <| extAll x1
theorem parts92_at_12 (x0 : BitVec 5) (x1 : BitVec 5) : BitVec.extractLsb' (n := 32) 12 3 (0#12 ++ x0 ++ 3#3 ++ x1 ++ 43#7) = 3#3 :=
  (extHi _ 43#7 _ _ (by decide)).trans <| (extHi _ x1 _ _ (by decide)).trans <| (extLo _ 3#3 _ _ (by decide)).trans <| extAll 3#3
theorem parts92_at_15 (x0 : BitVec 5) (x1 : BitVec 5) : BitVec.extractLsb' (n := 32) 15 5 (0#12 ++ x0 ++ 3#3 ++ x1 ++ 43#7) = x0 :=
  (extHi _ 43#7 _ _ (by decide)).trans <| (extHi _ x1 _ _ (by decide)).trans <| (extHi _ 3#3 _ _ (by decide)).trans <| (extLo _ x0 _ _ (by decide)).trans <| extAll x0
theorem parts92_at_20 (x0 : BitVec 5) (x1 : BitVec 5) : BitVec.extractLsb' (n := 32) 20 12 (0#12 ++ x0 ++ 3#3 ++ x1 ++ 43#7) = 0#12 :=
  (extHi _ 43#7 _ _ (by decide)).trans <| (extHi _ x1 _ _ (by decide)).trans <| (extHi _ 3#3 _ _ (by decide)).trans <| (extHi _ x0 _ _ (by decide)).trans <| extAll 0#12
theorem parts93_at_0 (x0 : BitVec 5) (x1 : BitVec 5) : BitVec.extractLsb' (n := 32) 0 7 (0#12 ++ x0 ++ 4#3 ++ x1 ++ 43#7) = 43#7 :=
  (extLo _ 43#7 _ _ (by decide)).trans <| extAll 43#7
theorem parts93_at_7 (x0 : BitVec 5) (x1 : BitVec 5) : BitVec.extractLsb' (n := 32) 7 5 (0#12 ++ x0 ++ 4#3 ++ x1 ++ 43#7) = x1 :=
  (extHi _ 43#7 _ _ (by decide)).trans <| (extLo _ x1 _ _ (by decide)).trans <| extAll x1
theorem parts93_at_12 (x0 : BitVec 5) (x1 : BitVec 5) : BitVec.extractLsb' (n := 32) 12 3 (0#12 ++ x0 ++ 4#3 ++ x1 ++ 43#7) = 4#3 :=
  (extHi _ 43#7 _ _ (by decide)).trans <| (extHi _ x1 _ _ (by decide)).trans <| (extLo _ 4#3 _ _ (by decide)).trans <| extAll 4#3
theorem parts93_at_15 (x0 : BitVec 5) (x1 : BitVec 5) : BitVec.extractLsb' (n := 32) 15 5 (0#12 ++ x0 ++ 4#3 ++ x1 ++ 43#7) = x0 :=
  (extHi _ 43#7 _ _ (by decide)).trans <| (extHi _ x1 _ _ (by decide)).trans <| (extHi _ 4#3 _ _ (by decide)).trans <| (extLo _ x0 _ _ (by decide)).trans <| extAll x0
theorem parts93_at_20 (x0 : BitVec 5) (x1 : BitVec 5) : BitVec.extractLsb' (n := 32) 20 12 (0#12 ++ x0 ++ 4#3 ++ x1 ++ 43#7) = 0#12 :=
  (extHi _ 43#7 _ _ (by decide)).trans <| (extHi _ x1 _ _ (by decide)).trans <| (extHi _ 4#3 _ _ (by decide)).trans <| (extHi _ x0 _ _ (by decide)).trans <| extAll 0#12

theorem extLow {w : Nat} (x : BitVec w) (k : Nat) (h : w = k) : BitVec.extractLsb' 0 k x = BitVec.cast h x := by
  subst h; simp

theorem role_mask (m : BitVec 8) : BitVec.extractLsb' 6 2 m ++ BitVec.extractLsb' 0 6 m = m := by
  apply BitVec.eq_of_toNat_eq
  simp only [BitVec.toNat_append, BitVec.extractLsb'_toNat]
  rw [← Nat.shiftLeft_add_eq_or_of_lt (by omega)]
  have := m.isLt
  simp only [Nat.shiftRight_eq_div_pow, Nat.shiftLeft_eq]
  omega

theorem store_imm (m : BitVec 12) : BitVec.extractLsb' 5 7 m ++ BitVec.extractLsb' 0 5 m = m := by
  apply BitVec.eq_of_toNat_eq
  simp only [BitVec.toNat_append, BitVec.extractLsb'_toNat]
  rw [← Nat.shiftLeft_add_eq_or_of_lt (by omega)]
  have := m.isLt
  simp only [Nat.shiftRight_eq_div_pow, Nat.shiftLeft_eq]
  omega

end Sys2Proof
end

