-- ==== Sys2Proof/Laws/PerInstr.lean ====
section
/-! SUPPORT. Decode and encode agree, instruction by instruction (R242 to R250, R220). -/

namespace Sys2Proof.Laws.RoundTrip

set_option Elab.async false
set_option linter.unusedSimpArgs false

/-- Whether an instruction is one of the scan cores' custom words (R220), which their own decoder reads. -/
def isScanWord : Instr → Bool
  | .imlw .. | .omsw .. | .wscan .. | .rtime .. | .sage .. | .scq .. | .scw .. => true
  | _ => false

/-- The word of a well-formed instruction decodes to the instruction, with every operand. -/
def Statement (i : Instr) : Prop :=
  ∀ w, encode i = some w → wellFormed i = true →
    if isScanWord i then decodeScan w = some i else decode w = .ok i

/-- A word whose fields give a well-formed instruction decodes to it. -/
theorem statement_of_fields {i : Instr} (hs : isScanWord i = false)
    (h : ∀ w, encode i = some w → decodeFields w = .ok i) : Statement i := by
  intro w hw hf
  rw [hs]
  simp only [decode, h w hw, hf, if_true, Bool.false_eq_true, if_false]

/-! The majors that hold several instructions (R248). -/

theorem fields_sys {w : BitVec 32} (h : fMajor w = 0x00) : decodeFields w = decodeSys w := by simp only [decodeFields, h, BitVec.reduceToNat]
theorem fields_alu {w : BitVec 32} (h : fMajor w = 0x01) : decodeFields w = decodeAlu w := by simp only [decodeFields, h, BitVec.reduceToNat]
theorem fields_shi {w : BitVec 32} (h : fMajor w = 0x08) : decodeFields w = decodeShi w := by simp only [decodeFields, h, BitVec.reduceToNat]
theorem fields_bfx {w : BitVec 32} (h : fMajor w = 0x0d) : decodeFields w = decodeBfx w := by simp only [decodeFields, h, BitVec.reduceToNat]
theorem fields_bfi {w : BitVec 32} (h : fMajor w = 0x0e) : decodeFields w = decodeBfi w := by simp only [decodeFields, h, BitVec.reduceToNat]
theorem fields_ld {w : BitVec 32} (h : fMajor w = 0x20) : decodeFields w = decodeLd w := by simp only [decodeFields, h, BitVec.reduceToNat]
theorem fields_st {w : BitVec 32} (h : fMajor w = 0x21) : decodeFields w = decodeSt w := by simp only [decodeFields, h, BitVec.reduceToNat]
theorem fields_ldv {w : BitVec 32} (h : fMajor w = 0x22) : decodeFields w = decodeLdv w := by simp only [decodeFields, h, BitVec.reduceToNat]
theorem fields_stv {w : BitVec 32} (h : fMajor w = 0x23) : decodeFields w = decodeStv w := by simp only [decodeFields, h, BitVec.reduceToNat]
theorem fields_ldaq {w : BitVec 32} (h : fMajor w = 0x24) : decodeFields w = decodeLdaq w := by simp only [decodeFields, h, BitVec.reduceToNat]
theorem fields_strl {w : BitVec 32} (h : fMajor w = 0x25) : decodeFields w = decodeStrl w := by simp only [decodeFields, h, BitVec.reduceToNat]
theorem fields_gath {w : BitVec 32} (h : fMajor w = 0x26) : decodeFields w = decodeGath w := by simp only [decodeFields, h, BitVec.reduceToNat]
theorem fields_scat {w : BitVec 32} (h : fMajor w = 0x27) : decodeFields w = decodeScat w := by simp only [decodeFields, h, BitVec.reduceToNat]
theorem fields_fe {w : BitVec 32} (h : fMajor w = 0x28) : decodeFields w = decodeFe w := by simp only [decodeFields, h, BitVec.reduceToNat]
theorem fields_stsb {w : BitVec 32} (h : fMajor w = 0x29) : decodeFields w = decodeStsb w := by simp only [decodeFields, h, BitVec.reduceToNat]
theorem fields_amo {w : BitVec 32} (h : fMajor w = 0x2a) : decodeFields w = decodeAmo w := by simp only [decodeFields, h, BitVec.reduceToNat]
theorem fields_fence {w : BitVec 32} (h : fMajor w = 0x2b) : decodeFields w = decodeFence w := by simp only [decodeFields, h, BitVec.reduceToNat]
theorem fields_pref {w : BitVec 32} (h : fMajor w = 0x2c) : decodeFields w = decodePref w := by simp only [decodeFields, h, BitVec.reduceToNat]
theorem fields_msg {w : BitVec 32} (h : fMajor w = 0x2d) : decodeFields w = decodeMsg w := by simp only [decodeFields, h, BitVec.reduceToNat]
theorem fields_bar {w : BitVec 32} (h : fMajor w = 0x2e) : decodeFields w = decodeBar w := by simp only [decodeFields, h, BitVec.reduceToNat]
theorem fields_fp {w : BitVec 32} (h : fMajor w = 0x30) : decodeFields w = decodeFp w := by simp only [decodeFields, h, BitVec.reduceToNat]
theorem fields_fma {w : BitVec 32} (h : fMajor w = 0x31) : decodeFields w = decodeFma w := by simp only [decodeFields, h, BitVec.reduceToNat]
theorem fields_va {w : BitVec 32} (h : fMajor w = 0x34) : decodeFields w = decodeVa w := by simp only [decodeFields, h, BitVec.reduceToNat]
theorem fields_vx {w : BitVec 32} (h : fMajor w = 0x35) : decodeFields w = decodeVx w := by simp only [decodeFields, h, BitVec.reduceToNat]
theorem fields_vp {w : BitVec 32} (h : fMajor w = 0x36) : decodeFields w = decodeVp w := by simp only [decodeFields, h, BitVec.reduceToNat]
theorem fields_task {w : BitVec 32} (h : fMajor w = 0x38) : decodeFields w = decodeTask w := by simp only [decodeFields, h, BitVec.reduceToNat]
theorem fields_scangroup {w : BitVec 32} (h : fMajor w = 0x39) : decodeFields w = decodeScanGroup w := by simp only [decodeFields, h, BitVec.reduceToNat]
theorem fields_mx {w : BitVec 32} (h : fMajor w = 0x3a) : decodeFields w = decodeMx w := by simp only [decodeFields, h, BitVec.reduceToNat]
theorem fields_hod {w : BitVec 32} (h : fMajor w = 0x3b) : decodeFields w = decodeHod w := by simp only [decodeFields, h, BitVec.reduceToNat]
theorem fields_tile {w : BitVec 32} (h : fMajor w = 0x3c) : decodeFields w = decodeTile w := by simp only [decodeFields, h, BitVec.reduceToNat]
theorem fields_ared {w : BitVec 32} (h : fMajor w = 0x3d) : decodeFields w = decodeAred w := by simp only [decodeFields, h, BitVec.reduceToNat]
theorem fields_log {w : BitVec 32} (h : fMajor w = 0x3e) : decodeFields w = decodeLog w := by simp only [decodeFields, h, BitVec.reduceToNat]

/-! The instructions. -/

theorem nop : Statement (.nop) := statement_of_fields rfl fun w hw => by
  cases hw
  rw [fields_sys (fMajor_fmtX ..)]
  simp only [decodeSys, fImm6_fmtX, fSub_fmtX, fB_fmtX, fA_fmtX, fD_fmtX, fMajor_fmtX, BitVec.reduceToNat, BitVec.ofNat_eq_ofNat, BitVec.reduceEq, unusedZero, withMod, decide_true, Bool.and_true, if_true]
theorem halt : Statement (.halt) := statement_of_fields rfl fun w hw => by
  cases hw
  rw [fields_sys (fMajor_fmtX ..)]
  simp only [decodeSys, fImm6_fmtX, fSub_fmtX, fB_fmtX, fA_fmtX, fD_fmtX, fMajor_fmtX, BitVec.reduceToNat, BitVec.ofNat_eq_ofNat, BitVec.reduceEq, unusedZero, withMod, decide_true, Bool.and_true, if_true]
theorem trapi n a : Statement (.trapi n a) := statement_of_fields rfl fun w hw => by
  cases hw
  rw [fields_sys (fMajor_fmtX ..)]
  simp only [decodeSys, fImm6_fmtX, fSub_fmtX, fB_fmtX, fA_fmtX, fD_fmtX, fMajor_fmtX, BitVec.reduceToNat, BitVec.ofNat_eq_ofNat, BitVec.reduceEq, unusedZero, withMod, decide_true, Bool.and_true, if_true]
theorem bkpt n : Statement (.bkpt n) := statement_of_fields rfl fun w hw => by
  cases hw
  rw [fields_sys (fMajor_fmtX ..)]
  simp only [decodeSys, fImm6_fmtX, fSub_fmtX, fB_fmtX, fA_fmtX, fD_fmtX, fMajor_fmtX, BitVec.reduceToNat, BitVec.ofNat_eq_ofNat, BitVec.reduceEq, unusedZero, withMod, decide_true, Bool.and_true, if_true]
theorem mfs d n : Statement (.mfs d n) := statement_of_fields rfl fun w hw => by
  cases hw
  rw [fields_sys (fMajor_fmtX ..)]
  simp only [decodeSys, fImm6_fmtX, fSub_fmtX, fB_fmtX, fA_fmtX, fD_fmtX, fMajor_fmtX, BitVec.reduceToNat, BitVec.ofNat_eq_ofNat, BitVec.reduceEq, unusedZero, withMod, decide_true, Bool.and_true, if_true]
theorem mts n a : Statement (.mts n a) := statement_of_fields rfl fun w hw => by
  cases hw
  rw [fields_sys (fMajor_fmtX ..)]
  simp only [decodeSys, fImm6_fmtX, fSub_fmtX, fB_fmtX, fA_fmtX, fD_fmtX, fMajor_fmtX, BitVec.reduceToNat, BitVec.ofNat_eq_ofNat, BitVec.reduceEq, unusedZero, withMod, decide_true, Bool.and_true, if_true]
theorem mfc d n : Statement (.mfc d n) := statement_of_fields rfl fun w hw => by
  cases hw
  rw [fields_sys (fMajor_fmtX ..)]
  simp only [decodeSys, fImm6_fmtX, fSub_fmtX, fB_fmtX, fA_fmtX, fD_fmtX, fMajor_fmtX, BitVec.reduceToNat, BitVec.ofNat_eq_ofNat, BitVec.reduceEq, unusedZero, withMod, decide_true, Bool.and_true, if_true]
theorem mtc n a : Statement (.mtc n a) := statement_of_fields rfl fun w hw => by
  cases hw
  rw [fields_sys (fMajor_fmtX ..)]
  simp only [decodeSys, fImm6_fmtX, fSub_fmtX, fB_fmtX, fA_fmtX, fD_fmtX, fMajor_fmtX, BitVec.reduceToNat, BitVec.ofNat_eq_ofNat, BitVec.reduceEq, unusedZero, withMod, decide_true, Bool.and_true, if_true]
theorem idle : Statement (.idle) := statement_of_fields rfl fun w hw => by
  cases hw
  rw [fields_sys (fMajor_fmtX ..)]
  simp only [decodeSys, fImm6_fmtX, fSub_fmtX, fB_fmtX, fA_fmtX, fD_fmtX, fMajor_fmtX, BitVec.reduceToNat, BitVec.ofNat_eq_ofNat, BitVec.reduceEq, unusedZero, withMod, decide_true, Bool.and_true, if_true]
theorem slotid d : Statement (.slotid d) := statement_of_fields rfl fun w hw => by
  cases hw
  rw [fields_sys (fMajor_fmtX ..)]
  simp only [decodeSys, fImm6_fmtX, fSub_fmtX, fB_fmtX, fA_fmtX, fD_fmtX, fMajor_fmtX, BitVec.reduceToNat, BitVec.ofNat_eq_ofNat, BitVec.reduceEq, unusedZero, withMod, decide_true, Bool.and_true, if_true]
theorem purge first last vec : Statement (.purge first last vec) := statement_of_fields rfl fun w hw => by
  cases hw
  rw [fields_sys (fMajor_fmtX ..)]
  simp only [decodeSys, fImm6_fmtX, fSub_fmtX, fB_fmtX, fA_fmtX, fD_fmtX, fMajor_fmtX, parts1_at_0, parts1_at_1, unbit_bit, BitVec.reduceToNat, BitVec.ofNat_eq_ofNat, BitVec.reduceEq, unusedZero, withMod, decide_true, Bool.and_true, if_true]
theorem add d a b : Statement (.add d a b) := statement_of_fields rfl fun w hw => by
  cases hw
  rw [fields_alu (fMajor_fmtA ..)]
  simp only [decodeAlu, fF_fmtA, fB_fmtA, fA_fmtA, fD_fmtA, fMajor_fmtA, parts2_at_0, parts2_at_6, BitVec.reduceToNat, BitVec.ofNat_eq_ofNat, BitVec.reduceEq, unusedZero, withMod, decide_true, Bool.and_true, if_true]
theorem sub d a b : Statement (.sub d a b) := statement_of_fields rfl fun w hw => by
  cases hw
  rw [fields_alu (fMajor_fmtA ..)]
  simp only [decodeAlu, fF_fmtA, fB_fmtA, fA_fmtA, fD_fmtA, fMajor_fmtA, parts3_at_0, parts3_at_6, BitVec.reduceToNat, BitVec.ofNat_eq_ofNat, BitVec.reduceEq, unusedZero, withMod, decide_true, Bool.and_true, if_true]
theorem and d a b : Statement (.and d a b) := statement_of_fields rfl fun w hw => by
  cases hw
  rw [fields_alu (fMajor_fmtA ..)]
  simp only [decodeAlu, fF_fmtA, fB_fmtA, fA_fmtA, fD_fmtA, fMajor_fmtA, parts4_at_0, parts4_at_6, BitVec.reduceToNat, BitVec.ofNat_eq_ofNat, BitVec.reduceEq, unusedZero, withMod, decide_true, Bool.and_true, if_true]
theorem or d a b : Statement (.or d a b) := statement_of_fields rfl fun w hw => by
  cases hw
  rw [fields_alu (fMajor_fmtA ..)]
  simp only [decodeAlu, fF_fmtA, fB_fmtA, fA_fmtA, fD_fmtA, fMajor_fmtA, parts5_at_0, parts5_at_6, BitVec.reduceToNat, BitVec.ofNat_eq_ofNat, BitVec.reduceEq, unusedZero, withMod, decide_true, Bool.and_true, if_true]
theorem xor d a b : Statement (.xor d a b) := statement_of_fields rfl fun w hw => by
  cases hw
  rw [fields_alu (fMajor_fmtA ..)]
  simp only [decodeAlu, fF_fmtA, fB_fmtA, fA_fmtA, fD_fmtA, fMajor_fmtA, parts6_at_0, parts6_at_6, BitVec.reduceToNat, BitVec.ofNat_eq_ofNat, BitVec.reduceEq, unusedZero, withMod, decide_true, Bool.and_true, if_true]
theorem andn d a b : Statement (.andn d a b) := statement_of_fields rfl fun w hw => by
  cases hw
  rw [fields_alu (fMajor_fmtA ..)]
  simp only [decodeAlu, fF_fmtA, fB_fmtA, fA_fmtA, fD_fmtA, fMajor_fmtA, parts7_at_0, parts7_at_6, BitVec.reduceToNat, BitVec.ofNat_eq_ofNat, BitVec.reduceEq, unusedZero, withMod, decide_true, Bool.and_true, if_true]
theorem orn d a b : Statement (.orn d a b) := statement_of_fields rfl fun w hw => by
  cases hw
  rw [fields_alu (fMajor_fmtA ..)]
  simp only [decodeAlu, fF_fmtA, fB_fmtA, fA_fmtA, fD_fmtA, fMajor_fmtA, parts8_at_0, parts8_at_6, BitVec.reduceToNat, BitVec.ofNat_eq_ofNat, BitVec.reduceEq, unusedZero, withMod, decide_true, Bool.and_true, if_true]
theorem sll d a b : Statement (.sll d a b) := statement_of_fields rfl fun w hw => by
  cases hw
  rw [fields_alu (fMajor_fmtA ..)]
  simp only [decodeAlu, fF_fmtA, fB_fmtA, fA_fmtA, fD_fmtA, fMajor_fmtA, parts9_at_0, parts9_at_6, BitVec.reduceToNat, BitVec.ofNat_eq_ofNat, BitVec.reduceEq, unusedZero, withMod, decide_true, Bool.and_true, if_true]
theorem srl d a b : Statement (.srl d a b) := statement_of_fields rfl fun w hw => by
  cases hw
  rw [fields_alu (fMajor_fmtA ..)]
  simp only [decodeAlu, fF_fmtA, fB_fmtA, fA_fmtA, fD_fmtA, fMajor_fmtA, parts10_at_0, parts10_at_6, BitVec.reduceToNat, BitVec.ofNat_eq_ofNat, BitVec.reduceEq, unusedZero, withMod, decide_true, Bool.and_true, if_true]
theorem sra d a b : Statement (.sra d a b) := statement_of_fields rfl fun w hw => by
  cases hw
  rw [fields_alu (fMajor_fmtA ..)]
  simp only [decodeAlu, fF_fmtA, fB_fmtA, fA_fmtA, fD_fmtA, fMajor_fmtA, parts11_at_0, parts11_at_6, BitVec.reduceToNat, BitVec.ofNat_eq_ofNat, BitVec.reduceEq, unusedZero, withMod, decide_true, Bool.and_true, if_true]
theorem rotr d a b : Statement (.rotr d a b) := statement_of_fields rfl fun w hw => by
  cases hw
  rw [fields_alu (fMajor_fmtA ..)]
  simp only [decodeAlu, fF_fmtA, fB_fmtA, fA_fmtA, fD_fmtA, fMajor_fmtA, parts12_at_0, parts12_at_6, BitVec.reduceToNat, BitVec.ofNat_eq_ofNat, BitVec.reduceEq, unusedZero, withMod, decide_true, Bool.and_true, if_true]
theorem slt d a b : Statement (.slt d a b) := statement_of_fields rfl fun w hw => by
  cases hw
  rw [fields_alu (fMajor_fmtA ..)]
  simp only [decodeAlu, fF_fmtA, fB_fmtA, fA_fmtA, fD_fmtA, fMajor_fmtA, parts13_at_0, parts13_at_6, BitVec.reduceToNat, BitVec.ofNat_eq_ofNat, BitVec.reduceEq, unusedZero, withMod, decide_true, Bool.and_true, if_true]
theorem sltu d a b : Statement (.sltu d a b) := statement_of_fields rfl fun w hw => by
  cases hw
  rw [fields_alu (fMajor_fmtA ..)]
  simp only [decodeAlu, fF_fmtA, fB_fmtA, fA_fmtA, fD_fmtA, fMajor_fmtA, parts14_at_0, parts14_at_6, BitVec.reduceToNat, BitVec.ofNat_eq_ofNat, BitVec.reduceEq, unusedZero, withMod, decide_true, Bool.and_true, if_true]
theorem seq d a b : Statement (.seq d a b) := statement_of_fields rfl fun w hw => by
  cases hw
  rw [fields_alu (fMajor_fmtA ..)]
  simp only [decodeAlu, fF_fmtA, fB_fmtA, fA_fmtA, fD_fmtA, fMajor_fmtA, parts15_at_0, parts15_at_6, BitVec.reduceToNat, BitVec.ofNat_eq_ofNat, BitVec.reduceEq, unusedZero, withMod, decide_true, Bool.and_true, if_true]
theorem min d a b : Statement (.min d a b) := statement_of_fields rfl fun w hw => by
  cases hw
  rw [fields_alu (fMajor_fmtA ..)]
  simp only [decodeAlu, fF_fmtA, fB_fmtA, fA_fmtA, fD_fmtA, fMajor_fmtA, parts16_at_0, parts16_at_6, BitVec.reduceToNat, BitVec.ofNat_eq_ofNat, BitVec.reduceEq, unusedZero, withMod, decide_true, Bool.and_true, if_true]
theorem max d a b : Statement (.max d a b) := statement_of_fields rfl fun w hw => by
  cases hw
  rw [fields_alu (fMajor_fmtA ..)]
  simp only [decodeAlu, fF_fmtA, fB_fmtA, fA_fmtA, fD_fmtA, fMajor_fmtA, parts17_at_0, parts17_at_6, BitVec.reduceToNat, BitVec.ofNat_eq_ofNat, BitVec.reduceEq, unusedZero, withMod, decide_true, Bool.and_true, if_true]
theorem minu d a b : Statement (.minu d a b) := statement_of_fields rfl fun w hw => by
  cases hw
  rw [fields_alu (fMajor_fmtA ..)]
  simp only [decodeAlu, fF_fmtA, fB_fmtA, fA_fmtA, fD_fmtA, fMajor_fmtA, parts18_at_0, parts18_at_6, BitVec.reduceToNat, BitVec.ofNat_eq_ofNat, BitVec.reduceEq, unusedZero, withMod, decide_true, Bool.and_true, if_true]
theorem maxu d a b : Statement (.maxu d a b) := statement_of_fields rfl fun w hw => by
  cases hw
  rw [fields_alu (fMajor_fmtA ..)]
  simp only [decodeAlu, fF_fmtA, fB_fmtA, fA_fmtA, fD_fmtA, fMajor_fmtA, parts19_at_0, parts19_at_6, BitVec.reduceToNat, BitVec.ofNat_eq_ofNat, BitVec.reduceEq, unusedZero, withMod, decide_true, Bool.and_true, if_true]
theorem mul d a b : Statement (.mul d a b) := statement_of_fields rfl fun w hw => by
  cases hw
  rw [fields_alu (fMajor_fmtA ..)]
  simp only [decodeAlu, fF_fmtA, fB_fmtA, fA_fmtA, fD_fmtA, fMajor_fmtA, parts20_at_0, parts20_at_6, BitVec.reduceToNat, BitVec.ofNat_eq_ofNat, BitVec.reduceEq, unusedZero, withMod, decide_true, Bool.and_true, if_true]
theorem mulh d a b : Statement (.mulh d a b) := statement_of_fields rfl fun w hw => by
  cases hw
  rw [fields_alu (fMajor_fmtA ..)]
  simp only [decodeAlu, fF_fmtA, fB_fmtA, fA_fmtA, fD_fmtA, fMajor_fmtA, parts21_at_0, parts21_at_6, BitVec.reduceToNat, BitVec.ofNat_eq_ofNat, BitVec.reduceEq, unusedZero, withMod, decide_true, Bool.and_true, if_true]
theorem mulhu d a b : Statement (.mulhu d a b) := statement_of_fields rfl fun w hw => by
  cases hw
  rw [fields_alu (fMajor_fmtA ..)]
  simp only [decodeAlu, fF_fmtA, fB_fmtA, fA_fmtA, fD_fmtA, fMajor_fmtA, parts22_at_0, parts22_at_6, BitVec.reduceToNat, BitVec.ofNat_eq_ofNat, BitVec.reduceEq, unusedZero, withMod, decide_true, Bool.and_true, if_true]
theorem div d a b : Statement (.div d a b) := statement_of_fields rfl fun w hw => by
  cases hw
  rw [fields_alu (fMajor_fmtA ..)]
  simp only [decodeAlu, fF_fmtA, fB_fmtA, fA_fmtA, fD_fmtA, fMajor_fmtA, parts23_at_0, parts23_at_6, BitVec.reduceToNat, BitVec.ofNat_eq_ofNat, BitVec.reduceEq, unusedZero, withMod, decide_true, Bool.and_true, if_true]
theorem divu d a b : Statement (.divu d a b) := statement_of_fields rfl fun w hw => by
  cases hw
  rw [fields_alu (fMajor_fmtA ..)]
  simp only [decodeAlu, fF_fmtA, fB_fmtA, fA_fmtA, fD_fmtA, fMajor_fmtA, parts24_at_0, parts24_at_6, BitVec.reduceToNat, BitVec.ofNat_eq_ofNat, BitVec.reduceEq, unusedZero, withMod, decide_true, Bool.and_true, if_true]
theorem rem d a b : Statement (.rem d a b) := statement_of_fields rfl fun w hw => by
  cases hw
  rw [fields_alu (fMajor_fmtA ..)]
  simp only [decodeAlu, fF_fmtA, fB_fmtA, fA_fmtA, fD_fmtA, fMajor_fmtA, parts25_at_0, parts25_at_6, BitVec.reduceToNat, BitVec.ofNat_eq_ofNat, BitVec.reduceEq, unusedZero, withMod, decide_true, Bool.and_true, if_true]
theorem remu d a b : Statement (.remu d a b) := statement_of_fields rfl fun w hw => by
  cases hw
  rw [fields_alu (fMajor_fmtA ..)]
  simp only [decodeAlu, fF_fmtA, fB_fmtA, fA_fmtA, fD_fmtA, fMajor_fmtA, parts26_at_0, parts26_at_6, BitVec.reduceToNat, BitVec.ofNat_eq_ofNat, BitVec.reduceEq, unusedZero, withMod, decide_true, Bool.and_true, if_true]
theorem clz d a : Statement (.clz d a) := statement_of_fields rfl fun w hw => by
  cases hw
  rw [fields_alu (fMajor_fmtA ..)]
  simp only [decodeAlu, fF_fmtA, fB_fmtA, fA_fmtA, fD_fmtA, fMajor_fmtA, parts27_at_0, parts27_at_6, BitVec.reduceToNat, BitVec.ofNat_eq_ofNat, BitVec.reduceEq, unusedZero, withMod, decide_true, Bool.and_true, if_true]
theorem ctz d a : Statement (.ctz d a) := statement_of_fields rfl fun w hw => by
  cases hw
  rw [fields_alu (fMajor_fmtA ..)]
  simp only [decodeAlu, fF_fmtA, fB_fmtA, fA_fmtA, fD_fmtA, fMajor_fmtA, parts28_at_0, parts28_at_6, BitVec.reduceToNat, BitVec.ofNat_eq_ofNat, BitVec.reduceEq, unusedZero, withMod, decide_true, Bool.and_true, if_true]
theorem popc d a : Statement (.popc d a) := statement_of_fields rfl fun w hw => by
  cases hw
  rw [fields_alu (fMajor_fmtA ..)]
  simp only [decodeAlu, fF_fmtA, fB_fmtA, fA_fmtA, fD_fmtA, fMajor_fmtA, parts29_at_0, parts29_at_6, BitVec.reduceToNat, BitVec.ofNat_eq_ofNat, BitVec.reduceEq, unusedZero, withMod, decide_true, Bool.and_true, if_true]
theorem bswap d a : Statement (.bswap d a) := statement_of_fields rfl fun w hw => by
  cases hw
  rw [fields_alu (fMajor_fmtA ..)]
  simp only [decodeAlu, fF_fmtA, fB_fmtA, fA_fmtA, fD_fmtA, fMajor_fmtA, parts30_at_0, parts30_at_6, BitVec.reduceToNat, BitVec.ofNat_eq_ofNat, BitVec.reduceEq, unusedZero, withMod, decide_true, Bool.and_true, if_true]
theorem sel d a b c : Statement (.sel d a b c) := statement_of_fields rfl fun w hw => by
  cases hw
  rw [fields_alu (fMajor_fmtA ..)]
  simp only [decodeAlu, fF_fmtA, fB_fmtA, fA_fmtA, fD_fmtA, fMajor_fmtA, parts31_at_0, parts31_at_6, BitVec.reduceToNat, BitVec.ofNat_eq_ofNat, BitVec.reduceEq, unusedZero, withMod, decide_true, Bool.and_true, if_true]
theorem shadd d a b k : Statement (.shadd d a b k) := statement_of_fields rfl fun w hw => by
  cases hw
  rw [fields_alu (fMajor_fmtA ..)]
  simp only [decodeAlu, fF_fmtA, fB_fmtA, fA_fmtA, fD_fmtA, fMajor_fmtA, parts32_at_0, parts32_at_6, BitVec.reduceToNat, BitVec.ofNat_eq_ofNat, BitVec.reduceEq, unusedZero, withMod, decide_true, Bool.and_true, if_true]
theorem addi d a imm : Statement (.addi d a imm) := statement_of_fields rfl fun w hw => by
  cases hw
  simp only [decodeFields, fImm16_fmtI, fA_fmtI, fD_fmtI, fMajor_fmtI, BitVec.reduceToNat, BitVec.ofNat_eq_ofNat, BitVec.reduceEq, unusedZero, withMod, decide_true, Bool.and_true, if_true]
theorem andi d a imm : Statement (.andi d a imm) := statement_of_fields rfl fun w hw => by
  cases hw
  simp only [decodeFields, fImm16_fmtI, fA_fmtI, fD_fmtI, fMajor_fmtI, BitVec.reduceToNat, BitVec.ofNat_eq_ofNat, BitVec.reduceEq, unusedZero, withMod, decide_true, Bool.and_true, if_true]
theorem ori d a imm : Statement (.ori d a imm) := statement_of_fields rfl fun w hw => by
  cases hw
  simp only [decodeFields, fImm16_fmtI, fA_fmtI, fD_fmtI, fMajor_fmtI, BitVec.reduceToNat, BitVec.ofNat_eq_ofNat, BitVec.reduceEq, unusedZero, withMod, decide_true, Bool.and_true, if_true]
theorem xori d a imm : Statement (.xori d a imm) := statement_of_fields rfl fun w hw => by
  cases hw
  simp only [decodeFields, fImm16_fmtI, fA_fmtI, fD_fmtI, fMajor_fmtI, BitVec.reduceToNat, BitVec.ofNat_eq_ofNat, BitVec.reduceEq, unusedZero, withMod, decide_true, Bool.and_true, if_true]
theorem slti d a imm : Statement (.slti d a imm) := statement_of_fields rfl fun w hw => by
  cases hw
  simp only [decodeFields, fImm16_fmtI, fA_fmtI, fD_fmtI, fMajor_fmtI, BitVec.reduceToNat, BitVec.ofNat_eq_ofNat, BitVec.reduceEq, unusedZero, withMod, decide_true, Bool.and_true, if_true]
theorem sltiu d a imm : Statement (.sltiu d a imm) := statement_of_fields rfl fun w hw => by
  cases hw
  simp only [decodeFields, fImm16_fmtI, fA_fmtI, fD_fmtI, fMajor_fmtI, BitVec.reduceToNat, BitVec.ofNat_eq_ofNat, BitVec.reduceEq, unusedZero, withMod, decide_true, Bool.and_true, if_true]
theorem slli d a k : Statement (.slli d a k) := statement_of_fields rfl fun w hw => by
  cases hw
  rw [fields_shi (fMajor_fmtI ..)]
  simp only [decodeShi, fImm16_fmtI, fA_fmtI, fD_fmtI, fMajor_fmtI, parts33_at_0, parts33_at_6, parts33_at_8, BitVec.reduceToNat, BitVec.ofNat_eq_ofNat, BitVec.reduceEq, unusedZero, withMod, decide_true, Bool.and_true, if_true]
theorem srli d a k : Statement (.srli d a k) := statement_of_fields rfl fun w hw => by
  cases hw
  rw [fields_shi (fMajor_fmtI ..)]
  simp only [decodeShi, fImm16_fmtI, fA_fmtI, fD_fmtI, fMajor_fmtI, parts34_at_0, parts34_at_6, parts34_at_8, BitVec.reduceToNat, BitVec.ofNat_eq_ofNat, BitVec.reduceEq, unusedZero, withMod, decide_true, Bool.and_true, if_true]
theorem srai d a k : Statement (.srai d a k) := statement_of_fields rfl fun w hw => by
  cases hw
  rw [fields_shi (fMajor_fmtI ..)]
  simp only [decodeShi, fImm16_fmtI, fA_fmtI, fD_fmtI, fMajor_fmtI, parts35_at_0, parts35_at_6, parts35_at_8, BitVec.reduceToNat, BitVec.ofNat_eq_ofNat, BitVec.reduceEq, unusedZero, withMod, decide_true, Bool.and_true, if_true]
theorem rotri d a k : Statement (.rotri d a k) := statement_of_fields rfl fun w hw => by
  cases hw
  rw [fields_shi (fMajor_fmtI ..)]
  simp only [decodeShi, fImm16_fmtI, fA_fmtI, fD_fmtI, fMajor_fmtI, parts36_at_0, parts36_at_6, parts36_at_8, BitVec.reduceToNat, BitVec.ofNat_eq_ofNat, BitVec.reduceEq, unusedZero, withMod, decide_true, Bool.and_true, if_true]
theorem li d imm : Statement (.li d imm) := statement_of_fields rfl fun w hw => by
  cases hw
  simp only [decodeFields, fImm21_fmtL, fD_fmtL, fMajor_fmtL, BitVec.reduceToNat, BitVec.ofNat_eq_ofNat, BitVec.reduceEq, unusedZero, withMod, decide_true, Bool.and_true, if_true]
theorem lim d imm : Statement (.lim d imm) := statement_of_fields rfl fun w hw => by
  cases hw
  simp only [decodeFields, fImm21_fmtL, fD_fmtL, fMajor_fmtL, BitVec.reduceToNat, BitVec.ofNat_eq_ofNat, BitVec.reduceEq, unusedZero, withMod, decide_true, Bool.and_true, if_true]
theorem lih d imm : Statement (.lih d imm) := statement_of_fields rfl fun w hw => by
  cases hw
  simp only [decodeFields, fImm21_fmtL, fD_fmtL, fMajor_fmtL, BitVec.reduceToNat, BitVec.ofNat_eq_ofNat, BitVec.reduceEq, unusedZero, withMod, decide_true, Bool.and_true, if_true]
theorem addpc d imm : Statement (.addpc d imm) := statement_of_fields rfl fun w hw => by
  cases hw
  simp only [decodeFields, fImm21_fmtL, fD_fmtL, fMajor_fmtL, BitVec.reduceToNat, BitVec.ofNat_eq_ofNat, BitVec.reduceEq, unusedZero, withMod, decide_true, Bool.and_true, if_true]
theorem bfx d a l p : Statement (.bfx d a l p) := statement_of_fields rfl fun w hw => by
  cases hw
  rw [fields_bfx (fMajor_fmtI ..)]
  simp only [decodeBfx, fImm16_fmtI, fA_fmtI, fD_fmtI, fMajor_fmtI, parts37_at_0, parts37_at_6, parts37_at_12, BitVec.reduceToNat, BitVec.ofNat_eq_ofNat, BitVec.reduceEq, unusedZero, withMod, decide_true, Bool.and_true, if_true]
theorem bfi d a l p : Statement (.bfi d a l p) := statement_of_fields rfl fun w hw => by
  cases hw
  rw [fields_bfi (fMajor_fmtI ..)]
  simp only [decodeBfi, fImm16_fmtI, fA_fmtI, fD_fmtI, fMajor_fmtI, parts37_at_0, parts37_at_6, parts37_at_12, BitVec.reduceToNat, BitVec.ofNat_eq_ofNat, BitVec.reduceEq, unusedZero, withMod, decide_true, Bool.and_true, if_true]
theorem beq a b disp : Statement (.beq a b disp) := statement_of_fields rfl fun w hw => by
  cases hw
  simp only [decodeFields, fImm16_fmtI, fA_fmtI, fD_fmtI, fMajor_fmtI, BitVec.reduceToNat, BitVec.ofNat_eq_ofNat, BitVec.reduceEq, unusedZero, withMod, decide_true, Bool.and_true, if_true]
theorem bne a b disp : Statement (.bne a b disp) := statement_of_fields rfl fun w hw => by
  cases hw
  simp only [decodeFields, fImm16_fmtI, fA_fmtI, fD_fmtI, fMajor_fmtI, BitVec.reduceToNat, BitVec.ofNat_eq_ofNat, BitVec.reduceEq, unusedZero, withMod, decide_true, Bool.and_true, if_true]
theorem blt a b disp : Statement (.blt a b disp) := statement_of_fields rfl fun w hw => by
  cases hw
  simp only [decodeFields, fImm16_fmtI, fA_fmtI, fD_fmtI, fMajor_fmtI, BitVec.reduceToNat, BitVec.ofNat_eq_ofNat, BitVec.reduceEq, unusedZero, withMod, decide_true, Bool.and_true, if_true]
theorem bge a b disp : Statement (.bge a b disp) := statement_of_fields rfl fun w hw => by
  cases hw
  simp only [decodeFields, fImm16_fmtI, fA_fmtI, fD_fmtI, fMajor_fmtI, BitVec.reduceToNat, BitVec.ofNat_eq_ofNat, BitVec.reduceEq, unusedZero, withMod, decide_true, Bool.and_true, if_true]
theorem bltu a b disp : Statement (.bltu a b disp) := statement_of_fields rfl fun w hw => by
  cases hw
  simp only [decodeFields, fImm16_fmtI, fA_fmtI, fD_fmtI, fMajor_fmtI, BitVec.reduceToNat, BitVec.ofNat_eq_ofNat, BitVec.reduceEq, unusedZero, withMod, decide_true, Bool.and_true, if_true]
theorem bgeu a b disp : Statement (.bgeu a b disp) := statement_of_fields rfl fun w hw => by
  cases hw
  simp only [decodeFields, fImm16_fmtI, fA_fmtI, fD_fmtI, fMajor_fmtI, BitVec.reduceToNat, BitVec.ofNat_eq_ofNat, BitVec.reduceEq, unusedZero, withMod, decide_true, Bool.and_true, if_true]
theorem bful a disp : Statement (.bful a disp) := statement_of_fields rfl fun w hw => by
  cases hw
  simp only [decodeFields, fImm16_fmtI, fA_fmtI, fD_fmtI, fMajor_fmtI, BitVec.reduceToNat, BitVec.ofNat_eq_ofNat, BitVec.reduceEq, unusedZero, withMod, decide_true, Bool.and_true, if_true]
theorem bemp a disp : Statement (.bemp a disp) := statement_of_fields rfl fun w hw => by
  cases hw
  simp only [decodeFields, fImm16_fmtI, fA_fmtI, fD_fmtI, fMajor_fmtI, BitVec.reduceToNat, BitVec.ofNat_eq_ofNat, BitVec.reduceEq, unusedZero, withMod, decide_true, Bool.and_true, if_true]
theorem j disp : Statement (.j disp) := statement_of_fields rfl fun w hw => by
  cases hw
  simp only [decodeFields, fDisp26_fmtJ, fMajor_fmtJ, BitVec.reduceToNat, BitVec.ofNat_eq_ofNat, BitVec.reduceEq, unusedZero, withMod, decide_true, Bool.and_true, if_true]
theorem jal disp : Statement (.jal disp) := statement_of_fields rfl fun w hw => by
  cases hw
  simp only [decodeFields, fDisp26_fmtJ, fMajor_fmtJ, BitVec.reduceToNat, BitVec.ofNat_eq_ofNat, BitVec.reduceEq, unusedZero, withMod, decide_true, Bool.and_true, if_true]
theorem jalr d a imm : Statement (.jalr d a imm) := statement_of_fields rfl fun w hw => by
  cases hw
  simp only [decodeFields, fImm16_fmtI, fA_fmtI, fD_fmtI, fMajor_fmtI, BitVec.reduceToNat, BitVec.ofNat_eq_ofNat, BitVec.reduceEq, unusedZero, withMod, decide_true, Bool.and_true, if_true]
theorem rep count sd sa sb sc len : Statement (.rep count sd sa sb sc len) := statement_of_fields rfl fun w hw => by
  cases hw
  simp only [decodeFields, fVsub_fmtRep, fRepLen_fmtRep, fRepSc_fmtRep, fRepSb_fmtRep, fRepSa_fmtRep, fRepSd_fmtRep, fRepCount_fmtRep, fMajor_fmtRep, BitVec.reduceToNat, BitVec.ofNat_eq_ofNat, BitVec.reduceEq, unusedZero, withMod, decide_true, Bool.and_true, if_true]
theorem ld t base nud sz off : Statement (.ld t base nud sz off) := statement_of_fields rfl fun w hw => by
  cases hw
  rw [fields_ld (fMajor_fmtM ..)]
  simp only [decodeLd, fOff_fmtM, fSz_fmtM, fB_fmtM, fA_fmtM, fD_fmtM, fMajor_fmtM, ldSizeOf_bits, BitVec.reduceToNat, BitVec.ofNat_eq_ofNat, BitVec.reduceEq, unusedZero, withMod, decide_true, Bool.and_true, if_true]
theorem st t base nud sz off : Statement (.st t base nud sz off) := statement_of_fields rfl fun w hw => by
  cases hw
  rw [fields_st (fMajor_fmtM ..)]
  simp only [decodeSt, fOff_fmtM, fSz_fmtM, fB_fmtM, fA_fmtM, fD_fmtM, fMajor_fmtM, stSizeOf_bits, BitVec.reduceToNat, BitVec.ofNat_eq_ofNat, BitVec.reduceEq, unusedZero, withMod, decide_true, Bool.and_true, if_true]
theorem ldv t base nud off : Statement (.ldv t base nud off) := statement_of_fields rfl fun w hw => by
  cases hw
  rw [fields_ldv (fMajor_fmtM ..)]
  simp only [decodeLdv, fOff_fmtM, fSz_fmtM, fB_fmtM, fA_fmtM, fD_fmtM, fMajor_fmtM, parts38_at_0, parts38_at_4, BitVec.reduceToNat, BitVec.ofNat_eq_ofNat, BitVec.reduceEq, unusedZero, withMod, decide_true, Bool.and_true, if_true]
theorem stv t base nud off : Statement (.stv t base nud off) := statement_of_fields rfl fun w hw => by
  cases hw
  rw [fields_stv (fMajor_fmtM ..)]
  simp only [decodeStv, fOff_fmtM, fSz_fmtM, fB_fmtM, fA_fmtM, fD_fmtM, fMajor_fmtM, parts38_at_0, parts38_at_4, BitVec.reduceToNat, BitVec.ofNat_eq_ofNat, BitVec.reduceEq, unusedZero, withMod, decide_true, Bool.and_true, if_true]
theorem ldaq t base nud sz scope off : Statement (.ldaq t base nud sz scope off) := statement_of_fields rfl fun w hw => by
  cases hw
  rw [fields_ldaq (fMajor_fmtM ..)]
  simp only [decodeLdaq, fOff_fmtM, fSz_fmtM, fB_fmtM, fA_fmtM, fD_fmtM, fMajor_fmtM, parts39_at_0, parts39_at_5, ldSizeOf_bits, scopeOf_bits, BitVec.reduceToNat, BitVec.ofNat_eq_ofNat, BitVec.reduceEq, unusedZero, withMod, decide_true, Bool.and_true, if_true]
theorem strl t base nud sz scope off : Statement (.strl t base nud sz scope off) := statement_of_fields rfl fun w hw => by
  cases hw
  rw [fields_strl (fMajor_fmtM ..)]
  simp only [decodeStrl, fOff_fmtM, fSz_fmtM, fB_fmtM, fA_fmtM, fD_fmtM, fMajor_fmtM, parts39_at_0, parts39_at_5, stSizeOf_bits, scopeOf_bits, BitVec.reduceToNat, BitVec.ofNat_eq_ofNat, BitVec.reduceEq, unusedZero, withMod, decide_true, Bool.and_true, if_true]
theorem gath d a b m dword sh nud : Statement (.gath d a b m dword sh nud) := statement_of_fields rfl fun w hw => by
  cases hw
  rw [fields_gath (fMajor_fmtA ..)]
  simp only [decodeGath, fF_fmtA, fB_fmtA, fA_fmtA, fD_fmtA, fMajor_fmtA, parts38_at_0, parts38_at_4, parts38_at_0, parts38_at_4, parts40_at_0, parts40_at_5, parts40_at_7, parts40_at_8, unbit_bit, BitVec.reduceToNat, BitVec.ofNat_eq_ofNat, BitVec.reduceEq, unusedZero, withMod, decide_true, Bool.and_true, if_true]
theorem scat d a b m dword sh nud : Statement (.scat d a b m dword sh nud) := statement_of_fields rfl fun w hw => by
  cases hw
  rw [fields_scat (fMajor_fmtA ..)]
  simp only [decodeScat, fF_fmtA, fB_fmtA, fA_fmtA, fD_fmtA, fMajor_fmtA, parts38_at_0, parts38_at_4, parts38_at_0, parts38_at_4, parts40_at_0, parts40_at_5, parts40_at_7, parts40_at_8, unbit_bit, BitVec.reduceToNat, BitVec.ofNat_eq_ofNat, BitVec.reduceEq, unusedZero, withMod, decide_true, Bool.and_true, if_true]
theorem ldfe t base nud off : Statement (.ldfe t base nud off) := statement_of_fields rfl fun w hw => by
  cases hw
  rw [fields_fe (fMajor_fmtM ..)]
  simp only [decodeFe, fOff_fmtM, fSz_fmtM, fB_fmtM, fA_fmtM, fD_fmtM, fMajor_fmtM, BitVec.reduceToNat, BitVec.ofNat_eq_ofNat, BitVec.reduceEq, unusedZero, withMod, decide_true, Bool.and_true, if_true]
theorem ldff t base nud off : Statement (.ldff t base nud off) := statement_of_fields rfl fun w hw => by
  cases hw
  rw [fields_fe (fMajor_fmtM ..)]
  simp only [decodeFe, fOff_fmtM, fSz_fmtM, fB_fmtM, fA_fmtM, fD_fmtM, fMajor_fmtM, BitVec.reduceToNat, BitVec.ofNat_eq_ofNat, BitVec.reduceEq, unusedZero, withMod, decide_true, Bool.and_true, if_true]
theorem stef t base nud off : Statement (.stef t base nud off) := statement_of_fields rfl fun w hw => by
  cases hw
  rw [fields_fe (fMajor_fmtM ..)]
  simp only [decodeFe, fOff_fmtM, fSz_fmtM, fB_fmtM, fA_fmtM, fD_fmtM, fMajor_fmtM, BitVec.reduceToNat, BitVec.ofNat_eq_ofNat, BitVec.reduceEq, unusedZero, withMod, decide_true, Bool.and_true, if_true]
theorem stff t base nud off : Statement (.stff t base nud off) := statement_of_fields rfl fun w hw => by
  cases hw
  rw [fields_fe (fMajor_fmtM ..)]
  simp only [decodeFe, fOff_fmtM, fSz_fmtM, fB_fmtM, fA_fmtM, fD_fmtM, fMajor_fmtM, BitVec.reduceToNat, BitVec.ofNat_eq_ofNat, BitVec.reduceEq, unusedZero, withMod, decide_true, Bool.and_true, if_true]
theorem sete base nud off : Statement (.sete base nud off) := statement_of_fields rfl fun w hw => by
  cases hw
  rw [fields_fe (fMajor_fmtM ..)]
  simp only [decodeFe, fOff_fmtM, fSz_fmtM, fB_fmtM, fA_fmtM, fD_fmtM, fMajor_fmtM, BitVec.reduceToNat, BitVec.ofNat_eq_ofNat, BitVec.reduceEq, unusedZero, withMod, decide_true, Bool.and_true, if_true]
theorem setf base nud off : Statement (.setf base nud off) := statement_of_fields rfl fun w hw => by
  cases hw
  rw [fields_fe (fMajor_fmtM ..)]
  simp only [decodeFe, fOff_fmtM, fSz_fmtM, fB_fmtM, fA_fmtM, fD_fmtM, fMajor_fmtM, BitVec.reduceToNat, BitVec.ofNat_eq_ofNat, BitVec.reduceEq, unusedZero, withMod, decide_true, Bool.and_true, if_true]
theorem stsb t base nud six idx : Statement (.stsb t base nud six idx) := statement_of_fields rfl fun w hw => by
  cases hw
  rw [fields_stsb (fMajor_fmtM ..)]
  cases six <;> simp only [decodeStsb, fOff_fmtM, fSz_fmtM, fB_fmtM, fA_fmtM, fD_fmtM, fMajor_fmtM, parts41_at_0, parts41_at_1, parts42_at_0, parts42_at_5, unbit_bit, BitVec.reduceToNat, BitVec.ofNat_eq_ofNat, BitVec.reduceEq, unusedZero, withMod, decide_true, Bool.and_true, if_true]
  all_goals rfl
theorem amoAdd d a b ord scope word : Statement (.amoAdd d a b ord scope word) := statement_of_fields rfl fun w hw => by
  cases hw
  rw [fields_amo (fMajor_fmtA ..)]
  simp only [decodeAmo, fF_fmtA, fB_fmtA, fA_fmtA, fD_fmtA, fMajor_fmtA, parts43_at_0, parts43_at_5, parts43_at_6, parts43_at_9, unbit_bit, scopeOf_bits, amoOrdOf_bits, BitVec.reduceToNat, BitVec.ofNat_eq_ofNat, BitVec.reduceEq, unusedZero, withMod, decide_true, Bool.and_true, if_true]
theorem amoAnd d a b ord scope word : Statement (.amoAnd d a b ord scope word) := statement_of_fields rfl fun w hw => by
  cases hw
  rw [fields_amo (fMajor_fmtA ..)]
  simp only [decodeAmo, fF_fmtA, fB_fmtA, fA_fmtA, fD_fmtA, fMajor_fmtA, parts44_at_0, parts44_at_5, parts44_at_6, parts44_at_9, unbit_bit, scopeOf_bits, amoOrdOf_bits, BitVec.reduceToNat, BitVec.ofNat_eq_ofNat, BitVec.reduceEq, unusedZero, withMod, decide_true, Bool.and_true, if_true]
theorem amoOr d a b ord scope word : Statement (.amoOr d a b ord scope word) := statement_of_fields rfl fun w hw => by
  cases hw
  rw [fields_amo (fMajor_fmtA ..)]
  simp only [decodeAmo, fF_fmtA, fB_fmtA, fA_fmtA, fD_fmtA, fMajor_fmtA, parts45_at_0, parts45_at_5, parts45_at_6, parts45_at_9, unbit_bit, scopeOf_bits, amoOrdOf_bits, BitVec.reduceToNat, BitVec.ofNat_eq_ofNat, BitVec.reduceEq, unusedZero, withMod, decide_true, Bool.and_true, if_true]
theorem amoXor d a b ord scope word : Statement (.amoXor d a b ord scope word) := statement_of_fields rfl fun w hw => by
  cases hw
  rw [fields_amo (fMajor_fmtA ..)]
  simp only [decodeAmo, fF_fmtA, fB_fmtA, fA_fmtA, fD_fmtA, fMajor_fmtA, parts46_at_0, parts46_at_5, parts46_at_6, parts46_at_9, unbit_bit, scopeOf_bits, amoOrdOf_bits, BitVec.reduceToNat, BitVec.ofNat_eq_ofNat, BitVec.reduceEq, unusedZero, withMod, decide_true, Bool.and_true, if_true]
theorem amoMin d a b ord scope word : Statement (.amoMin d a b ord scope word) := statement_of_fields rfl fun w hw => by
  cases hw
  rw [fields_amo (fMajor_fmtA ..)]
  simp only [decodeAmo, fF_fmtA, fB_fmtA, fA_fmtA, fD_fmtA, fMajor_fmtA, parts47_at_0, parts47_at_5, parts47_at_6, parts47_at_9, unbit_bit, scopeOf_bits, amoOrdOf_bits, BitVec.reduceToNat, BitVec.ofNat_eq_ofNat, BitVec.reduceEq, unusedZero, withMod, decide_true, Bool.and_true, if_true]
theorem amoMax d a b ord scope word : Statement (.amoMax d a b ord scope word) := statement_of_fields rfl fun w hw => by
  cases hw
  rw [fields_amo (fMajor_fmtA ..)]
  simp only [decodeAmo, fF_fmtA, fB_fmtA, fA_fmtA, fD_fmtA, fMajor_fmtA, parts48_at_0, parts48_at_5, parts48_at_6, parts48_at_9, unbit_bit, scopeOf_bits, amoOrdOf_bits, BitVec.reduceToNat, BitVec.ofNat_eq_ofNat, BitVec.reduceEq, unusedZero, withMod, decide_true, Bool.and_true, if_true]
theorem amoMinu d a b ord scope word : Statement (.amoMinu d a b ord scope word) := statement_of_fields rfl fun w hw => by
  cases hw
  rw [fields_amo (fMajor_fmtA ..)]
  simp only [decodeAmo, fF_fmtA, fB_fmtA, fA_fmtA, fD_fmtA, fMajor_fmtA, parts49_at_0, parts49_at_5, parts49_at_6, parts49_at_9, unbit_bit, scopeOf_bits, amoOrdOf_bits, BitVec.reduceToNat, BitVec.ofNat_eq_ofNat, BitVec.reduceEq, unusedZero, withMod, decide_true, Bool.and_true, if_true]
theorem amoMaxu d a b ord scope word : Statement (.amoMaxu d a b ord scope word) := statement_of_fields rfl fun w hw => by
  cases hw
  rw [fields_amo (fMajor_fmtA ..)]
  simp only [decodeAmo, fF_fmtA, fB_fmtA, fA_fmtA, fD_fmtA, fMajor_fmtA, parts50_at_0, parts50_at_5, parts50_at_6, parts50_at_9, unbit_bit, scopeOf_bits, amoOrdOf_bits, BitVec.reduceToNat, BitVec.ofNat_eq_ofNat, BitVec.reduceEq, unusedZero, withMod, decide_true, Bool.and_true, if_true]
theorem amoSwp d a b ord scope word : Statement (.amoSwp d a b ord scope word) := statement_of_fields rfl fun w hw => by
  cases hw
  rw [fields_amo (fMajor_fmtA ..)]
  simp only [decodeAmo, fF_fmtA, fB_fmtA, fA_fmtA, fD_fmtA, fMajor_fmtA, parts51_at_0, parts51_at_5, parts51_at_6, parts51_at_9, unbit_bit, scopeOf_bits, amoOrdOf_bits, BitVec.reduceToNat, BitVec.ofNat_eq_ofNat, BitVec.reduceEq, unusedZero, withMod, decide_true, Bool.and_true, if_true]
theorem amoCas d a b ord scope word : Statement (.amoCas d a b ord scope word) := statement_of_fields rfl fun w hw => by
  cases hw
  rw [fields_amo (fMajor_fmtA ..)]
  simp only [decodeAmo, fF_fmtA, fB_fmtA, fA_fmtA, fD_fmtA, fMajor_fmtA, parts52_at_0, parts52_at_5, parts52_at_6, parts52_at_9, unbit_bit, scopeOf_bits, amoOrdOf_bits, BitVec.reduceToNat, BitVec.ofNat_eq_ofNat, BitVec.reduceEq, unusedZero, withMod, decide_true, Bool.and_true, if_true]
theorem amoFaddS d a b ord scope : Statement (.amoFaddS d a b ord scope) := statement_of_fields rfl fun w hw => by
  cases hw
  rw [fields_amo (fMajor_fmtA ..)]
  simp only [decodeAmo, fF_fmtA, fB_fmtA, fA_fmtA, fD_fmtA, fMajor_fmtA, parts53_at_0, parts53_at_5, parts53_at_6, parts53_at_9, scopeOf_bits, amoOrdOf_bits, BitVec.reduceToNat, BitVec.ofNat_eq_ofNat, BitVec.reduceEq, unusedZero, withMod, decide_true, Bool.and_true, if_true, unbit]
theorem amoFaddD d a b ord scope : Statement (.amoFaddD d a b ord scope) := statement_of_fields rfl fun w hw => by
  cases hw
  rw [fields_amo (fMajor_fmtA ..)]
  simp only [decodeAmo, fF_fmtA, fB_fmtA, fA_fmtA, fD_fmtA, fMajor_fmtA, parts54_at_0, parts54_at_5, parts54_at_6, parts54_at_9, scopeOf_bits, amoOrdOf_bits, BitVec.reduceToNat, BitVec.ofNat_eq_ofNat, BitVec.reduceEq, unusedZero, withMod, decide_true, Bool.and_true, if_true, unbit]
  rfl
theorem fence p q scope : Statement (.fence p q scope) := statement_of_fields rfl fun w hw => by
  cases hw
  rw [fields_fence (fMajor_fmtX ..)]
  simp only [decodeFence, fImm6_fmtX, fSub_fmtX, fB_fmtX, fA_fmtX, fD_fmtX, fMajor_fmtX, parts38_at_0, parts38_at_4, parts38_at_0, parts38_at_4, parts55_at_0, parts55_at_3, scopeOf_bits, BitVec.reduceToNat, BitVec.ofNat_eq_ofNat, BitVec.reduceEq, unusedZero, withMod, decide_true, Bool.and_true, if_true]
theorem pfence scope mm : Statement (.pfence scope mm) := statement_of_fields rfl fun w hw => by
  cases hw
  rw [fields_fence (fMajor_fmtX ..)]
  simp only [decodeFence, fImm6_fmtX, fSub_fmtX, fB_fmtX, fA_fmtX, fD_fmtX, fMajor_fmtX, parts55_at_0, parts55_at_3, parts1_at_0, parts1_at_1, unbit_bit, scopeOf_bits, BitVec.reduceToNat, BitVec.ofNat_eq_ofNat, BitVec.reduceEq, unusedZero, withMod, decide_true, Bool.and_true, if_true]
theorem pref hint base nud off : Statement (.pref hint base nud off) := statement_of_fields rfl fun w hw => by
  cases hw
  rw [fields_pref (fMajor_fmtM ..)]
  simp only [decodePref, fOff_fmtM, fSz_fmtM, fB_fmtM, fA_fmtM, fD_fmtM, fMajor_fmtM, BitVec.reduceToNat, BitVec.ofNat_eq_ofNat, BitVec.reduceEq, unusedZero, withMod, decide_true, Bool.and_true, if_true]
theorem send d a b tag : Statement (.send d a b tag) := statement_of_fields rfl fun w hw => by
  cases hw
  rw [fields_msg (fMajor_fmtX ..)]
  simp only [decodeMsg, fImm6_fmtX, fSub_fmtX, fB_fmtX, fA_fmtX, fD_fmtX, fMajor_fmtX, BitVec.reduceToNat, BitVec.ofNat_eq_ofNat, BitVec.reduceEq, unusedZero, withMod, decide_true, Bool.and_true, if_true]
theorem sendu d a b : Statement (.sendu d a b) := statement_of_fields rfl fun w hw => by
  cases hw
  rw [fields_msg (fMajor_fmtX ..)]
  simp only [decodeMsg, fImm6_fmtX, fSub_fmtX, fB_fmtX, fA_fmtX, fD_fmtX, fMajor_fmtX, BitVec.reduceToNat, BitVec.ofNat_eq_ofNat, BitVec.reduceEq, unusedZero, withMod, decide_true, Bool.and_true, if_true]
theorem sendg a b : Statement (.sendg a b) := statement_of_fields rfl fun w hw => by
  cases hw
  rw [fields_msg (fMajor_fmtX ..)]
  simp only [decodeMsg, fImm6_fmtX, fSub_fmtX, fB_fmtX, fA_fmtX, fD_fmtX, fMajor_fmtX, BitVec.reduceToNat, BitVec.ofNat_eq_ofNat, BitVec.reduceEq, unusedZero, withMod, decide_true, Bool.and_true, if_true]
theorem recv d a b poll : Statement (.recv d a b poll) := statement_of_fields rfl fun w hw => by
  cases hw
  rw [fields_msg (fMajor_fmtX ..)]
  simp only [decodeMsg, fImm6_fmtX, fSub_fmtX, fB_fmtX, fA_fmtX, fD_fmtX, fMajor_fmtX, parts1_at_0, parts1_at_1, unbit_bit, BitVec.reduceToNat, BitVec.ofNat_eq_ofNat, BitVec.reduceEq, unusedZero, withMod, decide_true, Bool.and_true, if_true]
theorem waitk d a k poll : Statement (.waitk d a k poll) := statement_of_fields rfl fun w hw => by
  cases hw
  rw [fields_msg (fMajor_fmtX ..)]
  simp only [decodeMsg, fImm6_fmtX, fSub_fmtX, fB_fmtX, fA_fmtX, fD_fmtX, fMajor_fmtX, parts55_at_0, parts55_at_3, parts1_at_0, parts1_at_1, unbit_bit, BitVec.reduceToNat, BitVec.ofNat_eq_ofNat, BitVec.reduceEq, unusedZero, withMod, decide_true, Bool.and_true, if_true]
theorem clrk a k subtract : Statement (.clrk a k subtract) := statement_of_fields rfl fun w hw => by
  cases hw
  rw [fields_msg (fMajor_fmtX ..)]
  simp only [decodeMsg, fImm6_fmtX, fSub_fmtX, fB_fmtX, fA_fmtX, fD_fmtX, fMajor_fmtX, parts55_at_0, parts55_at_3, parts1_at_0, parts1_at_1, unbit_bit, BitVec.reduceToNat, BitVec.ofNat_eq_ofNat, BitVec.reduceEq, unusedZero, withMod, decide_true, Bool.and_true, if_true]
theorem mskw : Statement (.mskw) := statement_of_fields rfl fun w hw => by
  cases hw
  rw [fields_msg (fMajor_fmtX ..)]
  simp only [decodeMsg, fImm6_fmtX, fSub_fmtX, fB_fmtX, fA_fmtX, fD_fmtX, fMajor_fmtX, BitVec.reduceToNat, BitVec.ofNat_eq_ofNat, BitVec.reduceEq, unusedZero, withMod, decide_true, Bool.and_true, if_true]
theorem opnw : Statement (.opnw) := statement_of_fields rfl fun w hw => by
  cases hw
  rw [fields_msg (fMajor_fmtX ..)]
  simp only [decodeMsg, fImm6_fmtX, fSub_fmtX, fB_fmtX, fA_fmtX, fD_fmtX, fMajor_fmtX, BitVec.reduceToNat, BitVec.ofNat_eq_ofNat, BitVec.reduceEq, unusedZero, withMod, decide_true, Bool.and_true, if_true]
theorem retu : Statement (.retu) := statement_of_fields rfl fun w hw => by
  cases hw
  rw [fields_msg (fMajor_fmtX ..)]
  simp only [decodeMsg, fImm6_fmtX, fSub_fmtX, fB_fmtX, fA_fmtX, fD_fmtX, fMajor_fmtX, BitVec.reduceToNat, BitVec.ofNat_eq_ofNat, BitVec.reduceEq, unusedZero, withMod, decide_true, Bool.and_true, if_true]
theorem chbind a kc ka : Statement (.chbind a kc ka) := statement_of_fields rfl fun w hw => by
  cases hw
  rw [fields_msg (fMajor_fmtX ..)]
  simp only [decodeMsg, fImm6_fmtX, fSub_fmtX, fB_fmtX, fA_fmtX, fD_fmtX, fMajor_fmtX, parts56_at_0, parts56_at_3, BitVec.reduceToNat, BitVec.ofNat_eq_ofNat, BitVec.reduceEq, unusedZero, withMod, decide_true, Bool.and_true, if_true]
theorem bara d a : Statement (.bara d a) := statement_of_fields rfl fun w hw => by
  cases hw
  rw [fields_bar (fMajor_fmtX ..)]
  simp only [decodeBar, fImm6_fmtX, fSub_fmtX, fB_fmtX, fA_fmtX, fD_fmtX, fMajor_fmtX, BitVec.reduceToNat, BitVec.ofNat_eq_ofNat, BitVec.reduceEq, unusedZero, withMod, decide_true, Bool.and_true, if_true]
theorem barw d a b : Statement (.barw d a b) := statement_of_fields rfl fun w hw => by
  cases hw
  rw [fields_bar (fMajor_fmtX ..)]
  simp only [decodeBar, fImm6_fmtX, fSub_fmtX, fB_fmtX, fA_fmtX, fD_fmtX, fMajor_fmtX, BitVec.reduceToNat, BitVec.ofNat_eq_ofNat, BitVec.reduceEq, unusedZero, withMod, decide_true, Bool.and_true, if_true]
theorem baraw d a b : Statement (.baraw d a b) := statement_of_fields rfl fun w hw => by
  cases hw
  rw [fields_bar (fMajor_fmtX ..)]
  simp only [decodeBar, fImm6_fmtX, fSub_fmtX, fB_fmtX, fA_fmtX, fD_fmtX, fMajor_fmtX, BitVec.reduceToNat, BitVec.ofNat_eq_ofNat, BitVec.reduceEq, unusedZero, withMod, decide_true, Bool.and_true, if_true]
theorem fadd d a b p : Statement (.fadd d a b p) := statement_of_fields rfl fun w hw => by
  cases hw
  rw [fields_fp (fMajor_fmtA ..)]
  simp only [decodeFp, decodeFpOp, fF_fmtA, fB_fmtA, fA_fmtA, fD_fmtA, fMajor_fmtA, parts57_at_0, parts57_at_6, parts57_at_8, parts57_at_10, precOf_bits, BitVec.reduceToNat, BitVec.ofNat_eq_ofNat, BitVec.reduceEq, unusedZero, withMod, decide_true, Bool.and_true, if_true]
theorem fsub d a b p : Statement (.fsub d a b p) := statement_of_fields rfl fun w hw => by
  cases hw
  rw [fields_fp (fMajor_fmtA ..)]
  simp only [decodeFp, decodeFpOp, fF_fmtA, fB_fmtA, fA_fmtA, fD_fmtA, fMajor_fmtA, parts58_at_0, parts58_at_6, parts58_at_8, parts58_at_10, precOf_bits, BitVec.reduceToNat, BitVec.ofNat_eq_ofNat, BitVec.reduceEq, unusedZero, withMod, decide_true, Bool.and_true, if_true]
theorem fmul d a b p : Statement (.fmul d a b p) := statement_of_fields rfl fun w hw => by
  cases hw
  rw [fields_fp (fMajor_fmtA ..)]
  simp only [decodeFp, decodeFpOp, fF_fmtA, fB_fmtA, fA_fmtA, fD_fmtA, fMajor_fmtA, parts59_at_0, parts59_at_6, parts59_at_8, parts59_at_10, precOf_bits, BitVec.reduceToNat, BitVec.ofNat_eq_ofNat, BitVec.reduceEq, unusedZero, withMod, decide_true, Bool.and_true, if_true]
theorem fdiv d a b p : Statement (.fdiv d a b p) := statement_of_fields rfl fun w hw => by
  cases hw
  rw [fields_fp (fMajor_fmtA ..)]
  simp only [decodeFp, decodeFpOp, fF_fmtA, fB_fmtA, fA_fmtA, fD_fmtA, fMajor_fmtA, parts60_at_0, parts60_at_6, parts60_at_8, parts60_at_10, precOf_bits, BitVec.reduceToNat, BitVec.ofNat_eq_ofNat, BitVec.reduceEq, unusedZero, withMod, decide_true, Bool.and_true, if_true]
theorem fsqrt d a p : Statement (.fsqrt d a p) := statement_of_fields rfl fun w hw => by
  cases hw
  rw [fields_fp (fMajor_fmtA ..)]
  simp only [decodeFp, decodeFpOp, fF_fmtA, fB_fmtA, fA_fmtA, fD_fmtA, fMajor_fmtA, parts61_at_0, parts61_at_6, parts61_at_8, parts61_at_10, precOf_bits, BitVec.reduceToNat, BitVec.ofNat_eq_ofNat, BitVec.reduceEq, unusedZero, withMod, decide_true, Bool.and_true, if_true]
theorem fmin d a b p : Statement (.fmin d a b p) := statement_of_fields rfl fun w hw => by
  cases hw
  rw [fields_fp (fMajor_fmtA ..)]
  simp only [decodeFp, decodeFpOp, fF_fmtA, fB_fmtA, fA_fmtA, fD_fmtA, fMajor_fmtA, parts62_at_0, parts62_at_6, parts62_at_8, parts62_at_10, precOf_bits, BitVec.reduceToNat, BitVec.ofNat_eq_ofNat, BitVec.reduceEq, unusedZero, withMod, decide_true, Bool.and_true, if_true]
theorem fmax d a b p : Statement (.fmax d a b p) := statement_of_fields rfl fun w hw => by
  cases hw
  rw [fields_fp (fMajor_fmtA ..)]
  simp only [decodeFp, decodeFpOp, fF_fmtA, fB_fmtA, fA_fmtA, fD_fmtA, fMajor_fmtA, parts63_at_0, parts63_at_6, parts63_at_8, parts63_at_10, precOf_bits, BitVec.reduceToNat, BitVec.ofNat_eq_ofNat, BitVec.reduceEq, unusedZero, withMod, decide_true, Bool.and_true, if_true]
theorem feq d a b p : Statement (.feq d a b p) := statement_of_fields rfl fun w hw => by
  cases hw
  rw [fields_fp (fMajor_fmtA ..)]
  simp only [decodeFp, decodeFpOp, fF_fmtA, fB_fmtA, fA_fmtA, fD_fmtA, fMajor_fmtA, parts64_at_0, parts64_at_6, parts64_at_8, parts64_at_10, precOf_bits, BitVec.reduceToNat, BitVec.ofNat_eq_ofNat, BitVec.reduceEq, unusedZero, withMod, decide_true, Bool.and_true, if_true]
theorem flt d a b p : Statement (.flt d a b p) := statement_of_fields rfl fun w hw => by
  cases hw
  rw [fields_fp (fMajor_fmtA ..)]
  simp only [decodeFp, decodeFpOp, fF_fmtA, fB_fmtA, fA_fmtA, fD_fmtA, fMajor_fmtA, parts65_at_0, parts65_at_6, parts65_at_8, parts65_at_10, precOf_bits, BitVec.reduceToNat, BitVec.ofNat_eq_ofNat, BitVec.reduceEq, unusedZero, withMod, decide_true, Bool.and_true, if_true]
theorem fle d a b p : Statement (.fle d a b p) := statement_of_fields rfl fun w hw => by
  cases hw
  rw [fields_fp (fMajor_fmtA ..)]
  simp only [decodeFp, decodeFpOp, fF_fmtA, fB_fmtA, fA_fmtA, fD_fmtA, fMajor_fmtA, parts66_at_0, parts66_at_6, parts66_at_8, parts66_at_10, precOf_bits, BitVec.reduceToNat, BitVec.ofNat_eq_ofNat, BitVec.reduceEq, unusedZero, withMod, decide_true, Bool.and_true, if_true]
theorem fclass d a p : Statement (.fclass d a p) := statement_of_fields rfl fun w hw => by
  cases hw
  rw [fields_fp (fMajor_fmtA ..)]
  simp only [decodeFp, decodeFpOp, fF_fmtA, fB_fmtA, fA_fmtA, fD_fmtA, fMajor_fmtA, parts67_at_0, parts67_at_6, parts67_at_8, parts67_at_10, precOf_bits, BitVec.reduceToNat, BitVec.ofNat_eq_ofNat, BitVec.reduceEq, unusedZero, withMod, decide_true, Bool.and_true, if_true]
theorem fsgnj d a b p : Statement (.fsgnj d a b p) := statement_of_fields rfl fun w hw => by
  cases hw
  rw [fields_fp (fMajor_fmtA ..)]
  simp only [decodeFp, decodeFpOp, fF_fmtA, fB_fmtA, fA_fmtA, fD_fmtA, fMajor_fmtA, parts68_at_0, parts68_at_6, parts68_at_8, parts68_at_10, precOf_bits, BitVec.reduceToNat, BitVec.ofNat_eq_ofNat, BitVec.reduceEq, unusedZero, withMod, decide_true, Bool.and_true, if_true]
theorem fsgnjn d a b p : Statement (.fsgnjn d a b p) := statement_of_fields rfl fun w hw => by
  cases hw
  rw [fields_fp (fMajor_fmtA ..)]
  simp only [decodeFp, decodeFpOp, fF_fmtA, fB_fmtA, fA_fmtA, fD_fmtA, fMajor_fmtA, parts69_at_0, parts69_at_6, parts69_at_8, parts69_at_10, precOf_bits, BitVec.reduceToNat, BitVec.ofNat_eq_ofNat, BitVec.reduceEq, unusedZero, withMod, decide_true, Bool.and_true, if_true]
theorem fsgnjx d a b p : Statement (.fsgnjx d a b p) := statement_of_fields rfl fun w hw => by
  cases hw
  rw [fields_fp (fMajor_fmtA ..)]
  simp only [decodeFp, decodeFpOp, fF_fmtA, fB_fmtA, fA_fmtA, fD_fmtA, fMajor_fmtA, parts70_at_0, parts70_at_6, parts70_at_8, parts70_at_10, precOf_bits, BitVec.reduceToNat, BitVec.ofNat_eq_ofNat, BitVec.reduceEq, unusedZero, withMod, decide_true, Bool.and_true, if_true]
theorem fcvtI d a ty p : Statement (.fcvtI d a ty p) := statement_of_fields rfl fun w hw => by
  cases hw
  rw [fields_fp (fMajor_fmtA ..)]
  simp only [decodeFp, decodeFpOp, fF_fmtA, fB_fmtA, fA_fmtA, fD_fmtA, fMajor_fmtA, parts71_at_0, parts71_at_6, parts71_at_8, parts71_at_10, precOf_bits, intTyOf_bits, BitVec.reduceToNat, BitVec.ofNat_eq_ofNat, BitVec.reduceEq, unusedZero, withMod, decide_true, Bool.and_true, if_true]
theorem fcvtF d a ty p : Statement (.fcvtF d a ty p) := statement_of_fields rfl fun w hw => by
  cases hw
  rw [fields_fp (fMajor_fmtA ..)]
  simp only [decodeFp, decodeFpOp, fF_fmtA, fB_fmtA, fA_fmtA, fD_fmtA, fMajor_fmtA, parts72_at_0, parts72_at_6, parts72_at_8, parts72_at_10, precOf_bits, intTyOf_bits, BitVec.reduceToNat, BitVec.ofNat_eq_ofNat, BitVec.reduceEq, unusedZero, withMod, decide_true, Bool.and_true, if_true]
theorem fcvtFf d a src p : Statement (.fcvtFf d a src p) := statement_of_fields rfl fun w hw => by
  cases hw
  rw [fields_fp (fMajor_fmtA ..)]
  simp only [decodeFp, decodeFpOp, fF_fmtA, fB_fmtA, fA_fmtA, fD_fmtA, fMajor_fmtA, parts73_at_0, parts73_at_2, parts74_at_0, parts74_at_6, parts74_at_8, parts74_at_10, precOf_bits, BitVec.reduceToNat, BitVec.ofNat_eq_ofNat, BitVec.reduceEq, unusedZero, withMod, decide_true, Bool.and_true, if_true]
theorem fmv d a p : Statement (.fmv d a p) := statement_of_fields rfl fun w hw => by
  cases hw
  rw [fields_fp (fMajor_fmtA ..)]
  simp only [decodeFp, decodeFpOp, fF_fmtA, fB_fmtA, fA_fmtA, fD_fmtA, fMajor_fmtA, parts75_at_0, parts75_at_6, parts75_at_8, parts75_at_10, precOf_bits, BitVec.reduceToNat, BitVec.ofNat_eq_ofNat, BitVec.reduceEq, unusedZero, withMod, decide_true, Bool.and_true, if_true]
theorem fma d a b c p : Statement (.fma d a b c p) := statement_of_fields rfl fun w hw => by
  cases hw
  rw [fields_fma (fMajor_fmtA ..)]
  simp only [decodeFma, fF_fmtA, fB_fmtA, fA_fmtA, fD_fmtA, fMajor_fmtA, parts76_at_0, parts76_at_2, parts76_at_4, parts76_at_6, precOf_bits, BitVec.reduceToNat, BitVec.ofNat_eq_ofNat, BitVec.reduceEq, unusedZero, withMod, decide_true, Bool.and_true, if_true]
theorem fms d a b c p : Statement (.fms d a b c p) := statement_of_fields rfl fun w hw => by
  cases hw
  rw [fields_fma (fMajor_fmtA ..)]
  simp only [decodeFma, fF_fmtA, fB_fmtA, fA_fmtA, fD_fmtA, fMajor_fmtA, parts77_at_0, parts77_at_2, parts77_at_4, parts77_at_6, precOf_bits, BitVec.reduceToNat, BitVec.ofNat_eq_ofNat, BitVec.reduceEq, unusedZero, withMod, decide_true, Bool.and_true, if_true]
theorem fnma d a b c p : Statement (.fnma d a b c p) := statement_of_fields rfl fun w hw => by
  cases hw
  rw [fields_fma (fMajor_fmtA ..)]
  simp only [decodeFma, fF_fmtA, fB_fmtA, fA_fmtA, fD_fmtA, fMajor_fmtA, parts78_at_0, parts78_at_2, parts78_at_4, parts78_at_6, precOf_bits, BitVec.reduceToNat, BitVec.ofNat_eq_ofNat, BitVec.reduceEq, unusedZero, withMod, decide_true, Bool.and_true, if_true]
theorem fnms d a b c p : Statement (.fnms d a b c p) := statement_of_fields rfl fun w hw => by
  cases hw
  rw [fields_fma (fMajor_fmtA ..)]
  simp only [decodeFma, fF_fmtA, fB_fmtA, fA_fmtA, fD_fmtA, fMajor_fmtA, parts79_at_0, parts79_at_2, parts79_at_4, parts79_at_6, precOf_bits, BitVec.reduceToNat, BitVec.ofNat_eq_ofNat, BitVec.reduceEq, unusedZero, withMod, decide_true, Bool.and_true, if_true]
theorem vadd d a b m ty : Statement (.vadd d a b m ty) := statement_of_fields rfl fun w hw => by
  cases hw
  rw [fields_va (fMajor_fmtV ..)]
  simp only [decodeVa, fVsub_fmtV, fRepLen_fmtV, fTy_fmtV, fMask_fmtV, fVc_fmtV, fVb_fmtV, fVa_fmtV, fVd_fmtV, fMajor_fmtV, vTyOf_bits, BitVec.reduceToNat, BitVec.ofNat_eq_ofNat, BitVec.reduceEq, unusedZero, withMod, decide_true, Bool.and_true, if_true]
theorem vsub d a b m ty : Statement (.vsub d a b m ty) := statement_of_fields rfl fun w hw => by
  cases hw
  rw [fields_va (fMajor_fmtV ..)]
  simp only [decodeVa, fVsub_fmtV, fRepLen_fmtV, fTy_fmtV, fMask_fmtV, fVc_fmtV, fVb_fmtV, fVa_fmtV, fVd_fmtV, fMajor_fmtV, vTyOf_bits, BitVec.reduceToNat, BitVec.ofNat_eq_ofNat, BitVec.reduceEq, unusedZero, withMod, decide_true, Bool.and_true, if_true]
theorem vmul d a b m ty : Statement (.vmul d a b m ty) := statement_of_fields rfl fun w hw => by
  cases hw
  rw [fields_va (fMajor_fmtV ..)]
  simp only [decodeVa, fVsub_fmtV, fRepLen_fmtV, fTy_fmtV, fMask_fmtV, fVc_fmtV, fVb_fmtV, fVa_fmtV, fVd_fmtV, fMajor_fmtV, vTyOf_bits, BitVec.reduceToNat, BitVec.ofNat_eq_ofNat, BitVec.reduceEq, unusedZero, withMod, decide_true, Bool.and_true, if_true]
theorem vfma d a b c m ty : Statement (.vfma d a b c m ty) := statement_of_fields rfl fun w hw => by
  cases hw
  rw [fields_va (fMajor_fmtV ..)]
  simp only [decodeVa, fVsub_fmtV, fRepLen_fmtV, fTy_fmtV, fMask_fmtV, fVc_fmtV, fVb_fmtV, fVa_fmtV, fVd_fmtV, fMajor_fmtV, vTyOf_bits, BitVec.reduceToNat, BitVec.ofNat_eq_ofNat, BitVec.reduceEq, unusedZero, withMod, decide_true, Bool.and_true, if_true]
theorem vfms d a b c m ty : Statement (.vfms d a b c m ty) := statement_of_fields rfl fun w hw => by
  cases hw
  rw [fields_va (fMajor_fmtV ..)]
  simp only [decodeVa, fVsub_fmtV, fRepLen_fmtV, fTy_fmtV, fMask_fmtV, fVc_fmtV, fVb_fmtV, fVa_fmtV, fVd_fmtV, fMajor_fmtV, vTyOf_bits, BitVec.reduceToNat, BitVec.ofNat_eq_ofNat, BitVec.reduceEq, unusedZero, withMod, decide_true, Bool.and_true, if_true]
theorem vfnma d a b c m ty : Statement (.vfnma d a b c m ty) := statement_of_fields rfl fun w hw => by
  cases hw
  rw [fields_va (fMajor_fmtV ..)]
  simp only [decodeVa, fVsub_fmtV, fRepLen_fmtV, fTy_fmtV, fMask_fmtV, fVc_fmtV, fVb_fmtV, fVa_fmtV, fVd_fmtV, fMajor_fmtV, vTyOf_bits, BitVec.reduceToNat, BitVec.ofNat_eq_ofNat, BitVec.reduceEq, unusedZero, withMod, decide_true, Bool.and_true, if_true]
theorem vmin d a b m ty : Statement (.vmin d a b m ty) := statement_of_fields rfl fun w hw => by
  cases hw
  rw [fields_va (fMajor_fmtV ..)]
  simp only [decodeVa, fVsub_fmtV, fRepLen_fmtV, fTy_fmtV, fMask_fmtV, fVc_fmtV, fVb_fmtV, fVa_fmtV, fVd_fmtV, fMajor_fmtV, vTyOf_bits, BitVec.reduceToNat, BitVec.ofNat_eq_ofNat, BitVec.reduceEq, unusedZero, withMod, decide_true, Bool.and_true, if_true]
theorem vmax d a b m ty : Statement (.vmax d a b m ty) := statement_of_fields rfl fun w hw => by
  cases hw
  rw [fields_va (fMajor_fmtV ..)]
  simp only [decodeVa, fVsub_fmtV, fRepLen_fmtV, fTy_fmtV, fMask_fmtV, fVc_fmtV, fVb_fmtV, fVa_fmtV, fVd_fmtV, fMajor_fmtV, vTyOf_bits, BitVec.reduceToNat, BitVec.ofNat_eq_ofNat, BitVec.reduceEq, unusedZero, withMod, decide_true, Bool.and_true, if_true]
theorem vabs d a m ty : Statement (.vabs d a m ty) := statement_of_fields rfl fun w hw => by
  cases hw
  rw [fields_va (fMajor_fmtV ..)]
  simp only [decodeVa, fVsub_fmtV, fRepLen_fmtV, fTy_fmtV, fMask_fmtV, fVc_fmtV, fVb_fmtV, fVa_fmtV, fVd_fmtV, fMajor_fmtV, vTyOf_bits, BitVec.reduceToNat, BitVec.ofNat_eq_ofNat, BitVec.reduceEq, unusedZero, withMod, decide_true, Bool.and_true, if_true]
theorem vneg d a m ty : Statement (.vneg d a m ty) := statement_of_fields rfl fun w hw => by
  cases hw
  rw [fields_va (fMajor_fmtV ..)]
  simp only [decodeVa, fVsub_fmtV, fRepLen_fmtV, fTy_fmtV, fMask_fmtV, fVc_fmtV, fVb_fmtV, fVa_fmtV, fVd_fmtV, fMajor_fmtV, vTyOf_bits, BitVec.reduceToNat, BitVec.ofNat_eq_ofNat, BitVec.reduceEq, unusedZero, withMod, decide_true, Bool.and_true, if_true]
theorem vand d a b m ty : Statement (.vand d a b m ty) := statement_of_fields rfl fun w hw => by
  cases hw
  rw [fields_va (fMajor_fmtV ..)]
  simp only [decodeVa, fVsub_fmtV, fRepLen_fmtV, fTy_fmtV, fMask_fmtV, fVc_fmtV, fVb_fmtV, fVa_fmtV, fVd_fmtV, fMajor_fmtV, vTyOf_bits, BitVec.reduceToNat, BitVec.ofNat_eq_ofNat, BitVec.reduceEq, unusedZero, withMod, decide_true, Bool.and_true, if_true]
theorem vor d a b m ty : Statement (.vor d a b m ty) := statement_of_fields rfl fun w hw => by
  cases hw
  rw [fields_va (fMajor_fmtV ..)]
  simp only [decodeVa, fVsub_fmtV, fRepLen_fmtV, fTy_fmtV, fMask_fmtV, fVc_fmtV, fVb_fmtV, fVa_fmtV, fVd_fmtV, fMajor_fmtV, vTyOf_bits, BitVec.reduceToNat, BitVec.ofNat_eq_ofNat, BitVec.reduceEq, unusedZero, withMod, decide_true, Bool.and_true, if_true]
theorem vxor d a b m ty : Statement (.vxor d a b m ty) := statement_of_fields rfl fun w hw => by
  cases hw
  rw [fields_va (fMajor_fmtV ..)]
  simp only [decodeVa, fVsub_fmtV, fRepLen_fmtV, fTy_fmtV, fMask_fmtV, fVc_fmtV, fVb_fmtV, fVa_fmtV, fVd_fmtV, fMajor_fmtV, vTyOf_bits, BitVec.reduceToNat, BitVec.ofNat_eq_ofNat, BitVec.reduceEq, unusedZero, withMod, decide_true, Bool.and_true, if_true]
theorem vsll d a b m ty : Statement (.vsll d a b m ty) := statement_of_fields rfl fun w hw => by
  cases hw
  rw [fields_va (fMajor_fmtV ..)]
  simp only [decodeVa, fVsub_fmtV, fRepLen_fmtV, fTy_fmtV, fMask_fmtV, fVc_fmtV, fVb_fmtV, fVa_fmtV, fVd_fmtV, fMajor_fmtV, vTyOf_bits, BitVec.reduceToNat, BitVec.ofNat_eq_ofNat, BitVec.reduceEq, unusedZero, withMod, decide_true, Bool.and_true, if_true]
theorem vsrl d a b m ty : Statement (.vsrl d a b m ty) := statement_of_fields rfl fun w hw => by
  cases hw
  rw [fields_va (fMajor_fmtV ..)]
  simp only [decodeVa, fVsub_fmtV, fRepLen_fmtV, fTy_fmtV, fMask_fmtV, fVc_fmtV, fVb_fmtV, fVa_fmtV, fVd_fmtV, fMajor_fmtV, vTyOf_bits, BitVec.reduceToNat, BitVec.ofNat_eq_ofNat, BitVec.reduceEq, unusedZero, withMod, decide_true, Bool.and_true, if_true]
theorem vsra d a b m ty : Statement (.vsra d a b m ty) := statement_of_fields rfl fun w hw => by
  cases hw
  rw [fields_va (fMajor_fmtV ..)]
  simp only [decodeVa, fVsub_fmtV, fRepLen_fmtV, fTy_fmtV, fMask_fmtV, fVc_fmtV, fVb_fmtV, fVa_fmtV, fVd_fmtV, fMajor_fmtV, vTyOf_bits, BitVec.reduceToNat, BitVec.ofNat_eq_ofNat, BitVec.reduceEq, unusedZero, withMod, decide_true, Bool.and_true, if_true]
theorem vexp2 d a m ty : Statement (.vexp2 d a m ty) := statement_of_fields rfl fun w hw => by
  cases hw
  rw [fields_vx (fMajor_fmtV ..)]
  simp only [decodeVx, fVsub_fmtV, fRepLen_fmtV, fTy_fmtV, fMask_fmtV, fVc_fmtV, fVb_fmtV, fVa_fmtV, fVd_fmtV, fMajor_fmtV, vTyOf_bits, BitVec.reduceToNat, BitVec.ofNat_eq_ofNat, BitVec.reduceEq, unusedZero, withMod, decide_true, Bool.and_true, if_true]
theorem vlog2 d a m ty : Statement (.vlog2 d a m ty) := statement_of_fields rfl fun w hw => by
  cases hw
  rw [fields_vx (fMajor_fmtV ..)]
  simp only [decodeVx, fVsub_fmtV, fRepLen_fmtV, fTy_fmtV, fMask_fmtV, fVc_fmtV, fVb_fmtV, fVa_fmtV, fVd_fmtV, fMajor_fmtV, vTyOf_bits, BitVec.reduceToNat, BitVec.ofNat_eq_ofNat, BitVec.reduceEq, unusedZero, withMod, decide_true, Bool.and_true, if_true]
theorem vrcp d a m ty : Statement (.vrcp d a m ty) := statement_of_fields rfl fun w hw => by
  cases hw
  rw [fields_vx (fMajor_fmtV ..)]
  simp only [decodeVx, fVsub_fmtV, fRepLen_fmtV, fTy_fmtV, fMask_fmtV, fVc_fmtV, fVb_fmtV, fVa_fmtV, fVd_fmtV, fMajor_fmtV, vTyOf_bits, BitVec.reduceToNat, BitVec.ofNat_eq_ofNat, BitVec.reduceEq, unusedZero, withMod, decide_true, Bool.and_true, if_true]
theorem vrsq d a m ty : Statement (.vrsq d a m ty) := statement_of_fields rfl fun w hw => by
  cases hw
  rw [fields_vx (fMajor_fmtV ..)]
  simp only [decodeVx, fVsub_fmtV, fRepLen_fmtV, fTy_fmtV, fMask_fmtV, fVc_fmtV, fVb_fmtV, fVa_fmtV, fVd_fmtV, fMajor_fmtV, vTyOf_bits, BitVec.reduceToNat, BitVec.ofNat_eq_ofNat, BitVec.reduceEq, unusedZero, withMod, decide_true, Bool.and_true, if_true]
theorem vsqrt d a m ty : Statement (.vsqrt d a m ty) := statement_of_fields rfl fun w hw => by
  cases hw
  rw [fields_vx (fMajor_fmtV ..)]
  simp only [decodeVx, fVsub_fmtV, fRepLen_fmtV, fTy_fmtV, fMask_fmtV, fVc_fmtV, fVb_fmtV, fVa_fmtV, fVd_fmtV, fMajor_fmtV, vTyOf_bits, BitVec.reduceToNat, BitVec.ofNat_eq_ofNat, BitVec.reduceEq, unusedZero, withMod, decide_true, Bool.and_true, if_true]
theorem vdiv d a b m ty : Statement (.vdiv d a b m ty) := statement_of_fields rfl fun w hw => by
  cases hw
  rw [fields_vx (fMajor_fmtV ..)]
  simp only [decodeVx, fVsub_fmtV, fRepLen_fmtV, fTy_fmtV, fMask_fmtV, fVc_fmtV, fVb_fmtV, fVa_fmtV, fVd_fmtV, fMajor_fmtV, vTyOf_bits, BitVec.reduceToNat, BitVec.ofNat_eq_ofNat, BitVec.reduceEq, unusedZero, withMod, decide_true, Bool.and_true, if_true]
theorem vcvt d a unpack part c m ty : Statement (.vcvt d a unpack part c m ty) := statement_of_fields rfl fun w hw => by
  cases hw
  rw [fields_vx (fMajor_fmtV ..)]
  simp only [decodeVx, fVsub_fmtV, fRepLen_fmtV, fTy_fmtV, fMask_fmtV, fVc_fmtV, fVb_fmtV, fVa_fmtV, fVd_fmtV, fMajor_fmtV, parts80_at_0, parts80_at_3, unbit_bit, vTyOf_bits, pFmtOf_bits, BitVec.reduceToNat, BitVec.ofNat_eq_ofNat, BitVec.reduceEq, unusedZero, withMod, decide_true, Bool.and_true, if_true]
theorem vcvts d a part c m ty : Statement (.vcvts d a part c m ty) := statement_of_fields rfl fun w hw => by
  cases hw
  rw [fields_vx (fMajor_fmtV ..)]
  simp only [decodeVx, fVsub_fmtV, fRepLen_fmtV, fTy_fmtV, fMask_fmtV, fVc_fmtV, fVb_fmtV, fVa_fmtV, fVd_fmtV, fMajor_fmtV, parts81_at_0, parts81_at_3, vTyOf_bits, pFmtOf_bits, BitVec.reduceToNat, BitVec.ofNat_eq_ofNat, BitVec.reduceEq, unusedZero, withMod, decide_true, Bool.and_true, if_true]
theorem vqnt d a b c part ty : Statement (.vqnt d a b c part ty) := statement_of_fields rfl fun w hw => by
  cases hw
  rw [fields_vx (fMajor_fmtV ..)]
  simp only [decodeVx, fVsub_fmtV, fRepLen_fmtV, fTy_fmtV, fMask_fmtV, fVc_fmtV, fVb_fmtV, fVa_fmtV, fVd_fmtV, fMajor_fmtV, vTyOf_bits, pFmtOf_bits, BitVec.reduceToNat, BitVec.ofNat_eq_ofNat, BitVec.reduceEq, unusedZero, withMod, decide_true, Bool.and_true, if_true]
theorem vdqnt d a b c part ty : Statement (.vdqnt d a b c part ty) := statement_of_fields rfl fun w hw => by
  cases hw
  rw [fields_vx (fMajor_fmtV ..)]
  simp only [decodeVx, fVsub_fmtV, fRepLen_fmtV, fTy_fmtV, fMask_fmtV, fVc_fmtV, fVb_fmtV, fVa_fmtV, fVd_fmtV, fMajor_fmtV, vTyOf_bits, pFmtOf_bits, BitVec.reduceToNat, BitVec.ofNat_eq_ofNat, BitVec.reduceEq, unusedZero, withMod, decide_true, Bool.and_true, if_true]
theorem vclmp d a b c m ty : Statement (.vclmp d a b c m ty) := statement_of_fields rfl fun w hw => by
  cases hw
  rw [fields_vx (fMajor_fmtV ..)]
  simp only [decodeVx, fVsub_fmtV, fRepLen_fmtV, fTy_fmtV, fMask_fmtV, fVc_fmtV, fVb_fmtV, fVa_fmtV, fVd_fmtV, fMajor_fmtV, vTyOf_bits, BitVec.reduceToNat, BitVec.ofNat_eq_ofNat, BitVec.reduceEq, unusedZero, withMod, decide_true, Bool.and_true, if_true]
theorem vscl d a b m ty : Statement (.vscl d a b m ty) := statement_of_fields rfl fun w hw => by
  cases hw
  rw [fields_vx (fMajor_fmtV ..)]
  simp only [decodeVx, fVsub_fmtV, fRepLen_fmtV, fTy_fmtV, fMask_fmtV, fVc_fmtV, fVb_fmtV, fVa_fmtV, fVd_fmtV, fMajor_fmtV, vTyOf_bits, BitVec.reduceToNat, BitVec.ofNat_eq_ofNat, BitVec.reduceEq, unusedZero, withMod, decide_true, Bool.and_true, if_true]
theorem vcmp k a b cond m ty : Statement (.vcmp k a b cond m ty) := statement_of_fields rfl fun w hw => by
  cases hw
  rw [fields_vx (fMajor_fmtV ..)]
  simp only [decodeVx, fVsub_fmtV, fRepLen_fmtV, fTy_fmtV, fMask_fmtV, fVc_fmtV, fVb_fmtV, fVa_fmtV, fVd_fmtV, fMajor_fmtV, parts81_at_0, parts81_at_3, vTyOf_bits, vCondOf_bits, BitVec.reduceToNat, BitVec.ofNat_eq_ofNat, BitVec.reduceEq, unusedZero, withMod, decide_true, Bool.and_true, if_true]
theorem vsel d a b m ty : Statement (.vsel d a b m ty) := statement_of_fields rfl fun w hw => by
  cases hw
  rw [fields_vx (fMajor_fmtV ..)]
  simp only [decodeVx, fVsub_fmtV, fRepLen_fmtV, fTy_fmtV, fMask_fmtV, fVc_fmtV, fVb_fmtV, fVa_fmtV, fVd_fmtV, fMajor_fmtV, vTyOf_bits, BitVec.reduceToNat, BitVec.ofNat_eq_ofNat, BitVec.reduceEq, unusedZero, withMod, decide_true, Bool.and_true, if_true]
theorem vmov d a m ty : Statement (.vmov d a m ty) := statement_of_fields rfl fun w hw => by
  cases hw
  rw [fields_vx (fMajor_fmtV ..)]
  simp only [decodeVx, fVsub_fmtV, fRepLen_fmtV, fTy_fmtV, fMask_fmtV, fVc_fmtV, fVb_fmtV, fVa_fmtV, fVd_fmtV, fMajor_fmtV, vTyOf_bits, BitVec.reduceToNat, BitVec.ofNat_eq_ofNat, BitVec.reduceEq, unusedZero, withMod, decide_true, Bool.and_true, if_true]
theorem vbcst d a m ty : Statement (.vbcst d a m ty) := statement_of_fields rfl fun w hw => by
  cases hw
  rw [fields_vx (fMajor_fmtV ..)]
  simp only [decodeVx, fVsub_fmtV, fRepLen_fmtV, fTy_fmtV, fMask_fmtV, fVc_fmtV, fVb_fmtV, fVa_fmtV, fVd_fmtV, fMajor_fmtV, vTyOf_bits, BitVec.reduceToNat, BitVec.ofNat_eq_ofNat, BitVec.reduceEq, unusedZero, withMod, decide_true, Bool.and_true, if_true]
theorem vradd d a m ty : Statement (.vradd d a m ty) := statement_of_fields rfl fun w hw => by
  cases hw
  rw [fields_vp (fMajor_fmtV ..)]
  simp only [decodeVp, fVsub_fmtV, fRepLen_fmtV, fTy_fmtV, fMask_fmtV, fVc_fmtV, fVb_fmtV, fVa_fmtV, fVd_fmtV, fMajor_fmtV, vTyOf_bits, BitVec.reduceToNat, BitVec.ofNat_eq_ofNat, BitVec.reduceEq, unusedZero, withMod, decide_true, Bool.and_true, if_true]
theorem vrmax d a m ty : Statement (.vrmax d a m ty) := statement_of_fields rfl fun w hw => by
  cases hw
  rw [fields_vp (fMajor_fmtV ..)]
  simp only [decodeVp, fVsub_fmtV, fRepLen_fmtV, fTy_fmtV, fMask_fmtV, fVc_fmtV, fVb_fmtV, fVa_fmtV, fVd_fmtV, fMajor_fmtV, vTyOf_bits, BitVec.reduceToNat, BitVec.ofNat_eq_ofNat, BitVec.reduceEq, unusedZero, withMod, decide_true, Bool.and_true, if_true]
theorem vrmin d a m ty : Statement (.vrmin d a m ty) := statement_of_fields rfl fun w hw => by
  cases hw
  rw [fields_vp (fMajor_fmtV ..)]
  simp only [decodeVp, fVsub_fmtV, fRepLen_fmtV, fTy_fmtV, fMask_fmtV, fVc_fmtV, fVb_fmtV, fVa_fmtV, fVd_fmtV, fMajor_fmtV, vTyOf_bits, BitVec.reduceToNat, BitVec.ofNat_eq_ofNat, BitVec.reduceEq, unusedZero, withMod, decide_true, Bool.and_true, if_true]
theorem vscana d a b m ty : Statement (.vscana d a b m ty) := statement_of_fields rfl fun w hw => by
  cases hw
  rw [fields_vp (fMajor_fmtV ..)]
  simp only [decodeVp, fVsub_fmtV, fRepLen_fmtV, fTy_fmtV, fMask_fmtV, fVc_fmtV, fVb_fmtV, fVa_fmtV, fVd_fmtV, fMajor_fmtV, vTyOf_bits, BitVec.reduceToNat, BitVec.ofNat_eq_ofNat, BitVec.reduceEq, unusedZero, withMod, decide_true, Bool.and_true, if_true]
theorem vshuf d a b m ty : Statement (.vshuf d a b m ty) := statement_of_fields rfl fun w hw => by
  cases hw
  rw [fields_vp (fMajor_fmtV ..)]
  simp only [decodeVp, fVsub_fmtV, fRepLen_fmtV, fTy_fmtV, fMask_fmtV, fVc_fmtV, fVb_fmtV, fVa_fmtV, fVd_fmtV, fMajor_fmtV, vTyOf_bits, BitVec.reduceToNat, BitVec.ofNat_eq_ofNat, BitVec.reduceEq, unusedZero, withMod, decide_true, Bool.and_true, if_true]
theorem vrotl d a b m ty : Statement (.vrotl d a b m ty) := statement_of_fields rfl fun w hw => by
  cases hw
  rw [fields_vp (fMajor_fmtV ..)]
  simp only [decodeVp, fVsub_fmtV, fRepLen_fmtV, fTy_fmtV, fMask_fmtV, fVc_fmtV, fVb_fmtV, fVa_fmtV, fVd_fmtV, fMajor_fmtV, vTyOf_bits, BitVec.reduceToNat, BitVec.ofNat_eq_ofNat, BitVec.reduceEq, unusedZero, withMod, decide_true, Bool.and_true, if_true]
theorem vzip d a b m ty : Statement (.vzip d a b m ty) := statement_of_fields rfl fun w hw => by
  cases hw
  rw [fields_vp (fMajor_fmtV ..)]
  simp only [decodeVp, fVsub_fmtV, fRepLen_fmtV, fTy_fmtV, fMask_fmtV, fVc_fmtV, fVb_fmtV, fVa_fmtV, fVd_fmtV, fMajor_fmtV, vTyOf_bits, BitVec.reduceToNat, BitVec.ofNat_eq_ofNat, BitVec.reduceEq, unusedZero, withMod, decide_true, Bool.and_true, if_true]
theorem vunzip d a b m ty : Statement (.vunzip d a b m ty) := statement_of_fields rfl fun w hw => by
  cases hw
  rw [fields_vp (fMajor_fmtV ..)]
  simp only [decodeVp, fVsub_fmtV, fRepLen_fmtV, fTy_fmtV, fMask_fmtV, fVc_fmtV, fVb_fmtV, fVa_fmtV, fVd_fmtV, fMajor_fmtV, vTyOf_bits, BitVec.reduceToNat, BitVec.ofNat_eq_ofNat, BitVec.reduceEq, unusedZero, withMod, decide_true, Bool.and_true, if_true]
theorem vext d a b c m ty : Statement (.vext d a b c m ty) := statement_of_fields rfl fun w hw => by
  cases hw
  rw [fields_vp (fMajor_fmtV ..)]
  simp only [decodeVp, fVsub_fmtV, fRepLen_fmtV, fTy_fmtV, fMask_fmtV, fVc_fmtV, fVb_fmtV, fVa_fmtV, fVd_fmtV, fMajor_fmtV, vTyOf_bits, BitVec.reduceToNat, BitVec.ofNat_eq_ofNat, BitVec.reduceEq, unusedZero, withMod, decide_true, Bool.and_true, if_true]
theorem vins d a b m ty : Statement (.vins d a b m ty) := statement_of_fields rfl fun w hw => by
  cases hw
  rw [fields_vp (fMajor_fmtV ..)]
  simp only [decodeVp, fVsub_fmtV, fRepLen_fmtV, fTy_fmtV, fMask_fmtV, fVc_fmtV, fVb_fmtV, fVa_fmtV, fVd_fmtV, fMajor_fmtV, vTyOf_bits, BitVec.reduceToNat, BitVec.ofNat_eq_ofNat, BitVec.reduceEq, unusedZero, withMod, decide_true, Bool.and_true, if_true]
theorem viota d m ty : Statement (.viota d m ty) := statement_of_fields rfl fun w hw => by
  cases hw
  rw [fields_vp (fMajor_fmtV ..)]
  simp only [decodeVp, fVsub_fmtV, fRepLen_fmtV, fTy_fmtV, fMask_fmtV, fVc_fmtV, fVb_fmtV, fVa_fmtV, fVd_fmtV, fMajor_fmtV, vTyOf_bits, BitVec.reduceToNat, BitVec.ofNat_eq_ofNat, BitVec.reduceEq, unusedZero, withMod, decide_true, Bool.and_true, if_true]
theorem vmpop d m ty : Statement (.vmpop d m ty) := statement_of_fields rfl fun w hw => by
  cases hw
  rw [fields_vp (fMajor_fmtV ..)]
  simp only [decodeVp, fVsub_fmtV, fRepLen_fmtV, fTy_fmtV, fMask_fmtV, fVc_fmtV, fVb_fmtV, fVa_fmtV, fVd_fmtV, fMajor_fmtV, vTyOf_bits, BitVec.reduceToNat, BitVec.ofNat_eq_ofNat, BitVec.reduceEq, unusedZero, withMod, decide_true, Bool.and_true, if_true]
theorem vmand d a b : Statement (.vmand d a b) := statement_of_fields rfl fun w hw => by
  cases hw
  rw [fields_vp (fMajor_fmtV ..)]
  simp only [decodeVp, fVsub_fmtV, fRepLen_fmtV, fTy_fmtV, fMask_fmtV, fVc_fmtV, fVb_fmtV, fVa_fmtV, fVd_fmtV, fMajor_fmtV, parts81_at_0, parts81_at_3, parts81_at_0, parts81_at_3, parts81_at_0, parts81_at_3, BitVec.reduceToNat, BitVec.ofNat_eq_ofNat, BitVec.reduceEq, unusedZero, withMod, decide_true, Bool.and_true, if_true]
theorem vmor d a b : Statement (.vmor d a b) := statement_of_fields rfl fun w hw => by
  cases hw
  rw [fields_vp (fMajor_fmtV ..)]
  simp only [decodeVp, fVsub_fmtV, fRepLen_fmtV, fTy_fmtV, fMask_fmtV, fVc_fmtV, fVb_fmtV, fVa_fmtV, fVd_fmtV, fMajor_fmtV, parts81_at_0, parts81_at_3, parts81_at_0, parts81_at_3, parts81_at_0, parts81_at_3, BitVec.reduceToNat, BitVec.ofNat_eq_ofNat, BitVec.reduceEq, unusedZero, withMod, decide_true, Bool.and_true, if_true]
theorem vmnot d a : Statement (.vmnot d a) := statement_of_fields rfl fun w hw => by
  cases hw
  rw [fields_vp (fMajor_fmtV ..)]
  simp only [decodeVp, fVsub_fmtV, fRepLen_fmtV, fTy_fmtV, fMask_fmtV, fVc_fmtV, fVb_fmtV, fVa_fmtV, fVd_fmtV, fMajor_fmtV, parts81_at_0, parts81_at_3, parts81_at_0, parts81_at_3, BitVec.reduceToNat, BitVec.ofNat_eq_ofNat, BitVec.reduceEq, unusedZero, withMod, decide_true, Bool.and_true, if_true]
theorem vdot d a b c m ty : Statement (.vdot d a b c m ty) := statement_of_fields rfl fun w hw => by
  cases hw
  rw [fields_vp (fMajor_fmtV ..)]
  simp only [decodeVp, fVsub_fmtV, fRepLen_fmtV, fTy_fmtV, fMask_fmtV, fVc_fmtV, fVb_fmtV, fVa_fmtV, fVd_fmtV, fMajor_fmtV, vTyOf_bits, BitVec.reduceToNat, BitVec.ofNat_eq_ofNat, BitVec.reduceEq, unusedZero, withMod, decide_true, Bool.and_true, if_true]
theorem spawn d a b : Statement (.spawn d a b) := statement_of_fields rfl fun w hw => by
  cases hw
  rw [fields_task (fMajor_fmtX ..)]
  simp only [decodeTask, fImm6_fmtX, fSub_fmtX, fB_fmtX, fA_fmtX, fD_fmtX, fMajor_fmtX, BitVec.reduceToNat, BitVec.ofNat_eq_ofNat, BitVec.reduceEq, unusedZero, withMod, decide_true, Bool.and_true, if_true]
theorem sync a : Statement (.sync a) := statement_of_fields rfl fun w hw => by
  cases hw
  rw [fields_task (fMajor_fmtX ..)]
  simp only [decodeTask, fImm6_fmtX, fSub_fmtX, fB_fmtX, fA_fmtX, fD_fmtX, fMajor_fmtX, BitVec.reduceToNat, BitVec.ofNat_eq_ofNat, BitVec.reduceEq, unusedZero, withMod, decide_true, Bool.and_true, if_true]
theorem finish : Statement (.finish) := statement_of_fields rfl fun w hw => by
  cases hw
  rw [fields_task (fMajor_fmtX ..)]
  simp only [decodeTask, fImm6_fmtX, fSub_fmtX, fB_fmtX, fA_fmtX, fD_fmtX, fMajor_fmtX, BitVec.reduceToNat, BitVec.ofNat_eq_ofNat, BitVec.reduceEq, unusedZero, withMod, decide_true, Bool.and_true, if_true]
theorem launch d a b : Statement (.launch d a b) := statement_of_fields rfl fun w hw => by
  cases hw
  rw [fields_task (fMajor_fmtX ..)]
  simp only [decodeTask, fImm6_fmtX, fSub_fmtX, fB_fmtX, fA_fmtX, fD_fmtX, fMajor_fmtX, BitVec.reduceToNat, BitVec.ofNat_eq_ofNat, BitVec.reduceEq, unusedZero, withMod, decide_true, Bool.and_true, if_true]
theorem decr d a : Statement (.decr d a) := statement_of_fields rfl fun w hw => by
  cases hw
  rw [fields_task (fMajor_fmtX ..)]
  simp only [decodeTask, fImm6_fmtX, fSub_fmtX, fB_fmtX, fA_fmtX, fD_fmtX, fMajor_fmtX, BitVec.reduceToNat, BitVec.ofNat_eq_ofNat, BitVec.reduceEq, unusedZero, withMod, decide_true, Bool.and_true, if_true]
theorem yield : Statement (.yield) := statement_of_fields rfl fun w hw => by
  cases hw
  rw [fields_task (fMajor_fmtX ..)]
  simp only [decodeTask, fImm6_fmtX, fSub_fmtX, fB_fmtX, fA_fmtX, fD_fmtX, fMajor_fmtX, BitVec.reduceToNat, BitVec.ofNat_eq_ofNat, BitVec.reduceEq, unusedZero, withMod, decide_true, Bool.and_true, if_true]
theorem tskst d a wait level : Statement (.tskst d a wait level) := statement_of_fields rfl fun w hw => by
  cases hw
  rw [fields_task (fMajor_fmtX ..)]
  simp only [decodeTask, fImm6_fmtX, fSub_fmtX, fB_fmtX, fA_fmtX, fD_fmtX, fMajor_fmtX, parts82_at_0, parts82_at_2, parts82_at_3, unbit_bit, levelOf_bits, BitVec.reduceToNat, BitVec.ofNat_eq_ofNat, BitVec.reduceEq, unusedZero, withMod, decide_true, Bool.and_true, if_true]
theorem role mask : Statement (.role mask) := statement_of_fields rfl fun w hw => by
  cases hw
  rw [fields_task (fMajor_fmtX ..)]
  simp only [decodeTask, fImm6_fmtX, fSub_fmtX, fB_fmtX, fA_fmtX, fD_fmtX, fMajor_fmtX, parts73_at_0, parts73_at_2, BitVec.reduceToNat, BitVec.ofNat_eq_ofNat, BitVec.reduceEq, unusedZero, withMod, decide_true, Bool.and_true, if_true, role_mask]
theorem stamp d origin : Statement (.stamp d origin) := statement_of_fields rfl fun w hw => by
  cases hw
  rw [fields_scangroup (fMajor_fmtX ..)]
  simp only [decodeScanGroup, fImm6_fmtX, fSub_fmtX, fB_fmtX, fA_fmtX, fD_fmtX, fMajor_fmtX, parts1_at_0, parts1_at_1, unbit_bit, BitVec.reduceToNat, BitVec.ofNat_eq_ofNat, BitVec.reduceEq, unusedZero, withMod, decide_true, Bool.and_true, if_true]
theorem time d : Statement (.time d) := statement_of_fields rfl fun w hw => by
  cases hw
  rw [fields_scangroup (fMajor_fmtX ..)]
  simp only [decodeScanGroup, fImm6_fmtX, fSub_fmtX, fB_fmtX, fA_fmtX, fD_fmtX, fMajor_fmtX, BitVec.reduceToNat, BitVec.ofNat_eq_ofNat, BitVec.reduceEq, unusedZero, withMod, decide_true, Bool.and_true, if_true]
theorem chkage d a b : Statement (.chkage d a b) := statement_of_fields rfl fun w hw => by
  cases hw
  rw [fields_scangroup (fMajor_fmtX ..)]
  simp only [decodeScanGroup, fImm6_fmtX, fSub_fmtX, fB_fmtX, fA_fmtX, fD_fmtX, fMajor_fmtX, BitVec.reduceToNat, BitVec.ofNat_eq_ofNat, BitVec.reduceEq, unusedZero, withMod, decide_true, Bool.and_true, if_true]
theorem budget d texp : Statement (.budget d texp) := statement_of_fields rfl fun w hw => by
  cases hw
  rw [fields_scangroup (fMajor_fmtX ..)]
  simp only [decodeScanGroup, fImm6_fmtX, fSub_fmtX, fB_fmtX, fA_fmtX, fD_fmtX, fMajor_fmtX, parts1_at_0, parts1_at_1, unbit_bit, BitVec.reduceToNat, BitVec.ofNat_eq_ofNat, BitVec.reduceEq, unusedZero, withMod, decide_true, Bool.and_true, if_true]
theorem waitt d a scan : Statement (.waitt d a scan) := statement_of_fields rfl fun w hw => by
  cases hw
  rw [fields_scangroup (fMajor_fmtX ..)]
  simp only [decodeScanGroup, fImm6_fmtX, fSub_fmtX, fB_fmtX, fA_fmtX, fD_fmtX, fMajor_fmtX, parts1_at_0, parts1_at_1, unbit_bit, BitVec.reduceToNat, BitVec.ofNat_eq_ofNat, BitVec.reduceEq, unusedZero, withMod, decide_true, Bool.and_true, if_true]
theorem phaseid d : Statement (.phaseid d) := statement_of_fields rfl fun w hw => by
  cases hw
  rw [fields_scangroup (fMajor_fmtX ..)]
  simp only [decodeScanGroup, fImm6_fmtX, fSub_fmtX, fB_fmtX, fA_fmtX, fD_fmtX, fMajor_fmtX, BitVec.reduceToNat, BitVec.ofNat_eq_ofNat, BitVec.reduceEq, unusedZero, withMod, decide_true, Bool.and_true, if_true]
theorem mxq d a b : Statement (.mxq d a b) := statement_of_fields rfl fun w hw => by
  cases hw
  rw [fields_mx (fMajor_fmtX ..)]
  simp only [decodeMx, fImm6_fmtX, fSub_fmtX, fB_fmtX, fA_fmtX, fD_fmtX, fMajor_fmtX, BitVec.reduceToNat, BitVec.ofNat_eq_ofNat, BitVec.reduceEq, unusedZero, withMod, decide_true, Bool.and_true, if_true]
theorem mxwait d a : Statement (.mxwait d a) := statement_of_fields rfl fun w hw => by
  cases hw
  rw [fields_mx (fMajor_fmtX ..)]
  simp only [decodeMx, fImm6_fmtX, fSub_fmtX, fB_fmtX, fA_fmtX, fD_fmtX, fMajor_fmtX, BitVec.reduceToNat, BitVec.ofNat_eq_ofNat, BitVec.reduceEq, unusedZero, withMod, decide_true, Bool.and_true, if_true]
theorem mxpoll d a : Statement (.mxpoll d a) := statement_of_fields rfl fun w hw => by
  cases hw
  rw [fields_mx (fMajor_fmtX ..)]
  simp only [decodeMx, fImm6_fmtX, fSub_fmtX, fB_fmtX, fA_fmtX, fD_fmtX, fMajor_fmtX, BitVec.reduceToNat, BitVec.ofNat_eq_ofNat, BitVec.reduceEq, unusedZero, withMod, decide_true, Bool.and_true, if_true]
theorem mxepi a : Statement (.mxepi a) := statement_of_fields rfl fun w hw => by
  cases hw
  rw [fields_mx (fMajor_fmtX ..)]
  simp only [decodeMx, fImm6_fmtX, fSub_fmtX, fB_fmtX, fA_fmtX, fD_fmtX, fMajor_fmtX, BitVec.reduceToNat, BitVec.ofNat_eq_ofNat, BitVec.reduceEq, unusedZero, withMod, decide_true, Bool.and_true, if_true]
theorem mxpert a : Statement (.mxpert a) := statement_of_fields rfl fun w hw => by
  cases hw
  rw [fields_mx (fMajor_fmtX ..)]
  simp only [decodeMx, fImm6_fmtX, fSub_fmtX, fB_fmtX, fA_fmtX, fD_fmtX, fMajor_fmtX, BitVec.reduceToNat, BitVec.ofNat_eq_ofNat, BitVec.reduceEq, unusedZero, withMod, decide_true, Bool.and_true, if_true]
theorem mxdrain d cancel core : Statement (.mxdrain d cancel core) := statement_of_fields rfl fun w hw => by
  cases hw
  rw [fields_mx (fMajor_fmtX ..)]
  simp only [decodeMx, fImm6_fmtX, fSub_fmtX, fB_fmtX, fA_fmtX, fD_fmtX, fMajor_fmtX, parts83_at_0, parts83_at_1, parts83_at_2, unbit_bit, BitVec.reduceToNat, BitVec.ofNat_eq_ofNat, BitVec.reduceEq, unusedZero, withMod, decide_true, Bool.and_true, if_true]
theorem hdset n a : Statement (.hdset n a) := statement_of_fields rfl fun w hw => by
  cases hw
  rw [fields_hod (fMajor_fmtX ..)]
  simp only [decodeHod, fImm6_fmtX, fSub_fmtX, fB_fmtX, fA_fmtX, fD_fmtX, fMajor_fmtX, parts84_at_0, parts84_at_3, BitVec.reduceToNat, BitVec.ofNat_eq_ofNat, BitVec.reduceEq, unusedZero, withMod, decide_true, Bool.and_true, if_true]
theorem hdgo d : Statement (.hdgo d) := statement_of_fields rfl fun w hw => by
  cases hw
  rw [fields_hod (fMajor_fmtX ..)]
  simp only [decodeHod, fImm6_fmtX, fSub_fmtX, fB_fmtX, fA_fmtX, fD_fmtX, fMajor_fmtX, BitVec.reduceToNat, BitVec.ofNat_eq_ofNat, BitVec.reduceEq, unusedZero, withMod, decide_true, Bool.and_true, if_true]
theorem hdwait d a : Statement (.hdwait d a) := statement_of_fields rfl fun w hw => by
  cases hw
  rw [fields_hod (fMajor_fmtX ..)]
  simp only [decodeHod, fImm6_fmtX, fSub_fmtX, fB_fmtX, fA_fmtX, fD_fmtX, fMajor_fmtX, BitVec.reduceToNat, BitVec.ofNat_eq_ofNat, BitVec.reduceEq, unusedZero, withMod, decide_true, Bool.and_true, if_true]
theorem hdpoll d a : Statement (.hdpoll d a) := statement_of_fields rfl fun w hw => by
  cases hw
  rw [fields_hod (fMajor_fmtX ..)]
  simp only [decodeHod, fImm6_fmtX, fSub_fmtX, fB_fmtX, fA_fmtX, fD_fmtX, fMajor_fmtX, BitVec.reduceToNat, BitVec.ofNat_eq_ofNat, BitVec.reduceEq, unusedZero, withMod, decide_true, Bool.and_true, if_true]
theorem ringi a b : Statement (.ringi a b) := statement_of_fields rfl fun w hw => by
  cases hw
  rw [fields_hod (fMajor_fmtX ..)]
  simp only [decodeHod, fImm6_fmtX, fSub_fmtX, fB_fmtX, fA_fmtX, fD_fmtX, fMajor_fmtX, BitVec.reduceToNat, BitVec.ofNat_eq_ofNat, BitVec.reduceEq, unusedZero, withMod, decide_true, Bool.and_true, if_true]
theorem ringaw d a b : Statement (.ringaw d a b) := statement_of_fields rfl fun w hw => by
  cases hw
  rw [fields_hod (fMajor_fmtX ..)]
  simp only [decodeHod, fImm6_fmtX, fSub_fmtX, fB_fmtX, fA_fmtX, fD_fmtX, fMajor_fmtX, BitVec.reduceToNat, BitVec.ofNat_eq_ofNat, BitVec.reduceEq, unusedZero, withMod, decide_true, Bool.and_true, if_true]
theorem ringrel a b : Statement (.ringrel a b) := statement_of_fields rfl fun w hw => by
  cases hw
  rw [fields_hod (fMajor_fmtX ..)]
  simp only [decodeHod, fImm6_fmtX, fSub_fmtX, fB_fmtX, fA_fmtX, fD_fmtX, fMajor_fmtX, BitVec.reduceToNat, BitVec.ofNat_eq_ofNat, BitVec.reduceEq, unusedZero, withMod, decide_true, Bool.and_true, if_true]
theorem tlst d a : Statement (.tlst d a) := statement_of_fields rfl fun w hw => by
  cases hw
  rw [fields_tile (fMajor_fmtX ..)]
  simp only [decodeTile, fImm6_fmtX, fSub_fmtX, fB_fmtX, fA_fmtX, fD_fmtX, fMajor_fmtX, BitVec.reduceToNat, BitVec.ofNat_eq_ofNat, BitVec.reduceEq, unusedZero, withMod, decide_true, Bool.and_true, if_true]
theorem tlwait d a state : Statement (.tlwait d a state) := statement_of_fields rfl fun w hw => by
  cases hw
  rw [fields_tile (fMajor_fmtX ..)]
  simp only [decodeTile, fImm6_fmtX, fSub_fmtX, fB_fmtX, fA_fmtX, fD_fmtX, fMajor_fmtX, parts85_at_0, parts85_at_2, BitVec.reduceToNat, BitVec.ofNat_eq_ofNat, BitVec.reduceEq, unusedZero, withMod, decide_true, Bool.and_true, if_true]
theorem tlset a b ready : Statement (.tlset a b ready) := statement_of_fields rfl fun w hw => by
  cases hw
  rw [fields_tile (fMajor_fmtX ..)]
  simp only [decodeTile, fImm6_fmtX, fSub_fmtX, fB_fmtX, fA_fmtX, fD_fmtX, fMajor_fmtX, parts86_at_0, parts86_at_1, parts86_at_2, unbit_bit, BitVec.reduceToNat, BitVec.ofNat_eq_ofNat, BitVec.reduceEq, unusedZero, withMod, decide_true, Bool.and_true, if_true]
theorem cardq d a : Statement (.cardq d a) := statement_of_fields rfl fun w hw => by
  cases hw
  rw [fields_tile (fMajor_fmtX ..)]
  simp only [decodeTile, fImm6_fmtX, fSub_fmtX, fB_fmtX, fA_fmtX, fD_fmtX, fMajor_fmtX, BitVec.reduceToNat, BitVec.ofNat_eq_ofNat, BitVec.reduceEq, unusedZero, withMod, decide_true, Bool.and_true, if_true]
theorem cardw d a : Statement (.cardw d a) := statement_of_fields rfl fun w hw => by
  cases hw
  rw [fields_tile (fMajor_fmtX ..)]
  simp only [decodeTile, fImm6_fmtX, fSub_fmtX, fB_fmtX, fA_fmtX, fD_fmtX, fMajor_fmtX, BitVec.reduceToNat, BitVec.ofNat_eq_ofNat, BitVec.reduceEq, unusedZero, withMod, decide_true, Bool.and_true, if_true]
theorem cancel d a level : Statement (.cancel d a level) := statement_of_fields rfl fun w hw => by
  cases hw
  rw [fields_tile (fMajor_fmtX ..)]
  simp only [decodeTile, fImm6_fmtX, fSub_fmtX, fB_fmtX, fA_fmtX, fD_fmtX, fMajor_fmtX, parts85_at_0, parts85_at_2, levelOf_bits, BitVec.reduceToNat, BitVec.ofNat_eq_ofNat, BitVec.reduceEq, unusedZero, withMod, decide_true, Bool.and_true, if_true]
theorem aredc a op : Statement (.aredc a op) := statement_of_fields rfl fun w hw => by
  cases hw
  rw [fields_ared (fMajor_fmtX ..)]
  simp only [decodeAred, fImm6_fmtX, fSub_fmtX, fB_fmtX, fA_fmtX, fD_fmtX, fMajor_fmtX, parts38_at_0, parts38_at_4, parts85_at_0, parts85_at_2, redOpOf_bits, BitVec.reduceToNat, BitVec.ofNat_eq_ofNat, BitVec.reduceEq, unusedZero, withMod, decide_true, Bool.and_true, if_true]
theorem aredw d : Statement (.aredw d) := statement_of_fields rfl fun w hw => by
  cases hw
  rw [fields_ared (fMajor_fmtX ..)]
  simp only [decodeAred, fImm6_fmtX, fSub_fmtX, fB_fmtX, fA_fmtX, fD_fmtX, fMajor_fmtX, parts38_at_0, parts38_at_4, BitVec.reduceToNat, BitVec.ofNat_eq_ofNat, BitVec.reduceEq, unusedZero, withMod, decide_true, Bool.and_true, if_true]
theorem mmark a tag : Statement (.mmark a tag) := statement_of_fields rfl fun w hw => by
  cases hw
  rw [fields_log (fMajor_fmtX ..)]
  simp only [decodeLog, fImm6_fmtX, fSub_fmtX, fB_fmtX, fA_fmtX, fD_fmtX, fMajor_fmtX, BitVec.reduceToNat, BitVec.ofNat_eq_ofNat, BitVec.reduceEq, unusedZero, withMod, decide_true, Bool.and_true, if_true]
theorem mlogq d field : Statement (.mlogq d field) := statement_of_fields rfl fun w hw => by
  cases hw
  rw [fields_log (fMajor_fmtX ..)]
  simp only [decodeLog, fImm6_fmtX, fSub_fmtX, fB_fmtX, fA_fmtX, fD_fmtX, fMajor_fmtX, BitVec.reduceToNat, BitVec.ofNat_eq_ofNat, BitVec.reduceEq, unusedZero, withMod, decide_true, Bool.and_true, if_true]
theorem pairq d : Statement (.pairq d) := statement_of_fields rfl fun w hw => by
  cases hw
  rw [fields_log (fMajor_fmtX ..)]
  simp only [decodeLog, fImm6_fmtX, fSub_fmtX, fB_fmtX, fA_fmtX, fD_fmtX, fMajor_fmtX, BitVec.reduceToNat, BitVec.ofNat_eq_ofNat, BitVec.reduceEq, unusedZero, withMod, decide_true, Bool.and_true, if_true]
theorem imlw d rs1 imm : Statement (.imlw d rs1 imm) := by
  intro w hw _
  cases hw
  simp only [isScanWord, decodeScan, parts87_at_0, parts87_at_7, parts87_at_12, parts87_at_15, parts87_at_20, BitVec.reduceToNat, if_true]
theorem omsw rs2 rs1 imm : Statement (.omsw rs2 rs1 imm) := by
  intro w hw _
  cases hw
  simp only [isScanWord, decodeScan, parts88_at_0, parts88_at_7, parts88_at_12, parts88_at_15, parts88_at_20, parts88_at_25, BitVec.reduceToNat, if_true, store_imm]
theorem wscan d : Statement (.wscan d) := by
  intro w hw _
  cases hw
  simp only [isScanWord, decodeScan, parts89_at_0, parts89_at_7, parts89_at_12, parts89_at_15, BitVec.reduceToNat, if_true]
  rfl
theorem rtime d : Statement (.rtime d) := by
  intro w hw _
  cases hw
  simp only [isScanWord, decodeScan, parts90_at_0, parts90_at_7, parts90_at_12, parts90_at_15, BitVec.reduceToNat, if_true]
  rfl
theorem sage d rs1 rs2 : Statement (.sage d rs1 rs2) := by
  intro w hw _
  cases hw
  simp only [isScanWord, decodeScan, parts91_at_0, parts91_at_7, parts91_at_12, parts91_at_15, parts91_at_20, parts91_at_25, BitVec.reduceToNat, if_true]
  rfl
theorem scq d rs1 : Statement (.scq d rs1) := by
  intro w hw _
  cases hw
  simp only [isScanWord, decodeScan, parts92_at_0, parts92_at_7, parts92_at_12, parts92_at_15, parts92_at_20, BitVec.reduceToNat, if_true]
  rfl
theorem scw d rs1 : Statement (.scw d rs1) := by
  intro w hw _
  cases hw
  simp only [isScanWord, decodeScan, parts93_at_0, parts93_at_7, parts93_at_12, parts93_at_15, parts93_at_20, BitVec.reduceToNat, if_true]
  rfl
theorem replyArrive : Statement .replyArrive := fun _ h => nomatch h
theorem memoryRequestArrive : Statement .memoryRequestArrive := fun _ h => nomatch h
theorem feRequestArrive : Statement .feRequestArrive := fun _ h => nomatch h
theorem waitfullRetry : Statement .waitfullRetry := fun _ h => nomatch h
theorem barrierArrival : Statement .barrierArrival := fun _ h => nomatch h
theorem registerFill : Statement .registerFill := fun _ h => nomatch h
theorem sendArrive : Statement .sendArrive := fun _ h => nomatch h
theorem urgentMessageArrive : Statement .urgentMessageArrive := fun _ h => nomatch h
theorem urgentAccept : Statement .urgentAccept := fun _ h => nomatch h
theorem decrArrive : Statement .decrArrive := fun _ h => nomatch h
theorem slotTakeWork : Statement .slotTakeWork := fun _ h => nomatch h
theorem stealRequest : Statement .stealRequest := fun _ h => nomatch h
theorem slotStartDone : Statement .slotStartDone := fun _ h => nomatch h
theorem launchFrameDeliver : Statement .launchFrameDeliver := fun _ h => nomatch h
theorem reuseClockReport : Statement .reuseClockReport := fun _ h => nomatch h
theorem coreResetNotice : Statement .coreResetNotice := fun _ h => nomatch h
theorem scanBoundary : Statement .scanBoundary := fun _ h => nomatch h
theorem inputLatchComplete : Statement .inputLatchComplete := fun _ h => nomatch h
theorem gangStop : Statement .gangStop := fun _ h => nomatch h
theorem gangSaveDrained : Statement .gangSaveDrained := fun _ h => nomatch h
theorem gangRestoreDone : Statement .gangRestoreDone := fun _ h => nomatch h
theorem texpExpiry : Statement .texpExpiry := fun _ h => nomatch h
theorem scanStart : Statement .scanStart := fun _ h => nomatch h
theorem scanStop : Statement .scanStop := fun _ h => nomatch h
theorem scanStopTakesEffect : Statement .scanStopTakesEffect := fun _ h => nomatch h
theorem jobRegister : Statement .jobRegister := fun _ h => nomatch h
theorem jobDelete : Statement .jobDelete := fun _ h => nomatch h
theorem cardTimePoint : Statement .cardTimePoint := fun _ h => nomatch h
theorem cardStart : Statement .cardStart := fun _ h => nomatch h
theorem invalStart : Statement .invalStart := fun _ h => nomatch h
theorem invalComplete : Statement .invalComplete := fun _ h => nomatch h
theorem lpctWrite : Statement .lpctWrite := fun _ h => nomatch h
theorem lpctRemap : Statement .lpctRemap := fun _ h => nomatch h
theorem quotaWrite : Statement .quotaWrite := fun _ h => nomatch h
theorem mortarDescWrite : Statement .mortarDescWrite := fun _ h => nomatch h
theorem mortarRecordAppend : Statement .mortarRecordAppend := fun _ h => nomatch h
theorem mortarWriteRetry : Statement .mortarWriteRetry := fun _ h => nomatch h
theorem mortarReplayFetch : Statement .mortarReplayFetch := fun _ h => nomatch h
theorem divergenceTimeout : Statement .divergenceTimeout := fun _ h => nomatch h
theorem mxeGrant : Statement .mxeGrant := fun _ h => nomatch h
theorem mxeJobEnd : Statement .mxeJobEnd := fun _ h => nomatch h
theorem mxeChunkRetry : Statement .mxeChunkRetry := fun _ h => nomatch h
theorem ballastStep : Statement .ballastStep := fun _ h => nomatch h
theorem hodTransferStart : Statement .hodTransferStart := fun _ h => nomatch h
theorem hodPacketIssue : Statement .hodPacketIssue := fun _ h => nomatch h
theorem hodPacketPerform : Statement .hodPacketPerform := fun _ h => nomatch h
theorem hodTransferEnd : Statement .hodTransferEnd := fun _ h => nomatch h
theorem reductionComplete : Statement .reductionComplete := fun _ h => nomatch h
theorem visionJobStart : Statement .visionJobStart := fun _ h => nomatch h
theorem visionJobEnd : Statement .visionJobEnd := fun _ h => nomatch h
theorem visionWatchdog : Statement .visionWatchdog := fun _ h => nomatch h
theorem frameArrival : Statement .frameArrival := fun _ h => nomatch h
theorem cameraBlockLand : Statement .cameraBlockLand := fun _ h => nomatch h
theorem outputFreeze : Statement .outputFreeze := fun _ h => nomatch h
theorem outputTransmit : Statement .outputTransmit := fun _ h => nomatch h
theorem gateWrite : Statement .gateWrite := fun _ h => nomatch h
theorem gclWrite : Statement .gclWrite := fun _ h => nomatch h
theorem forwardedFrameArrive : Statement .forwardedFrameArrive := fun _ h => nomatch h
theorem pairAsActive : Statement .pairAsActive := fun _ h => nomatch h
theorem pairAsStandby : Statement .pairAsStandby := fun _ h => nomatch h
theorem pairSwitchOver : Statement .pairSwitchOver := fun _ h => nomatch h
theorem pairUnpair : Statement .pairUnpair := fun _ h => nomatch h
theorem pairHandshake : Statement .pairHandshake := fun _ h => nomatch h
theorem pairSilenceTimeout : Statement .pairSilenceTimeout := fun _ h => nomatch h
theorem partnerResetSignal : Statement .partnerResetSignal := fun _ h => nomatch h
theorem attestRequest : Statement .attestRequest := fun _ h => nomatch h
theorem attestComplete : Statement .attestComplete := fun _ h => nomatch h
theorem clkctlWrite : Statement .clkctlWrite := fun _ h => nomatch h
theorem ratioChangeStart : Statement .ratioChangeStart := fun _ h => nomatch h
theorem ratioChangeDone : Statement .ratioChangeDone := fun _ h => nomatch h
theorem ratioStepTimeout : Statement .ratioStepTimeout := fun _ h => nomatch h
theorem droopTrip : Statement .droopTrip := fun _ h => nomatch h
theorem droopLimit : Statement .droopLimit := fun _ h => nomatch h
theorem thermalSample : Statement .thermalSample := fun _ h => nomatch h
theorem thermalMigration : Statement .thermalMigration := fun _ h => nomatch h
theorem plumbSet : Statement .plumbSet := fun _ h => nomatch h
theorem energyUpdate : Statement .energyUpdate := fun _ h => nomatch h
theorem heartbeatWrite : Statement .heartbeatWrite := fun _ h => nomatch h
theorem heartbeatPeriodEnd : Statement .heartbeatPeriodEnd := fun _ h => nomatch h
theorem captureTimeout : Statement .captureTimeout := fun _ h => nomatch h
theorem errorRecord : Statement .errorRecord := fun _ h => nomatch h
theorem eccCountReport : Statement .eccCountReport := fun _ h => nomatch h
theorem patrolScrub : Statement .patrolScrub := fun _ h => nomatch h
theorem faultNotice : Statement .faultNotice := fun _ h => nomatch h
theorem faultNoticeRetry : Statement .faultNoticeRetry := fun _ h => nomatch h
theorem faultWake : Statement .faultWake := fun _ h => nomatch h
theorem retireBlock : Statement .retireBlock := fun _ h => nomatch h
theorem retireRelease : Statement .retireRelease := fun _ h => nomatch h
theorem retireCopyDone : Statement .retireCopyDone := fun _ h => nomatch h
theorem pairchkCouple : Statement .pairchkCouple := fun _ h => nomatch h
theorem pairchkDecouple : Statement .pairchkDecouple := fun _ h => nomatch h
theorem fingerprintExchange : Statement .fingerprintExchange := fun _ h => nomatch h
theorem containFence : Statement .containFence := fun _ h => nomatch h
theorem containReturn : Statement .containReturn := fun _ h => nomatch h
theorem watchWrite : Statement .watchWrite := fun _ h => nomatch h
theorem watchStopArrive : Statement .watchStopArrive := fun _ h => nomatch h
theorem debugStop : Statement .debugStop := fun _ h => nomatch h
theorem debugGo : Statement .debugGo := fun _ h => nomatch h
theorem debugResume : Statement .debugResume := fun _ h => nomatch h
theorem debugStep : Statement .debugStep := fun _ h => nomatch h
theorem faultResume : Statement .faultResume := fun _ h => nomatch h
theorem killTask : Statement .killTask := fun _ h => nomatch h
theorem debugLockWrite : Statement .debugLockWrite := fun _ h => nomatch h
theorem debugWindowWrite : Statement .debugWindowWrite := fun _ h => nomatch h
theorem moduleReset : Statement .moduleReset := fun _ h => nomatch h
theorem modulePowerLoss : Statement .modulePowerLoss := fun _ h => nomatch h
theorem clusterPowerLoss : Statement .clusterPowerLoss := fun _ h => nomatch h
theorem clusterResume : Statement .clusterResume := fun _ h => nomatch h
theorem journalDrain : Statement .journalDrain := fun _ h => nomatch h
theorem compactionStep : Statement .compactionStep := fun _ h => nomatch h
theorem ovflRead : Statement .ovflRead := fun _ h => nomatch h
theorem ovcntRead : Statement .ovcntRead := fun _ h => nomatch h
theorem dinjRead : Statement .dinjRead := fun _ h => nomatch h
theorem strcntRead : Statement .strcntRead := fun _ h => nomatch h
theorem elostRead : Statement .elostRead := fun _ h => nomatch h
theorem gateCounterRead : Statement .gateCounterRead := fun _ h => nomatch h
theorem registerWrite : Statement .registerWrite := fun _ h => nomatch h
theorem unassignedEncoding : Statement .unassignedEncoding := fun _ h => nomatch h
theorem waittTimeReached : Statement .waittTimeReached := fun _ h => nomatch h
theorem scanCoreBaseInstruction : Statement .scanCoreBaseInstruction := fun _ h => nomatch h
theorem pcieLinkTrained : Statement .pcieLinkTrained := fun _ h => nomatch h
theorem pcieLinkDown : Statement .pcieLinkDown := fun _ h => nomatch h
theorem pairFlitArrive : Statement .pairFlitArrive := fun _ h => nomatch h
theorem droopRestored : Statement .droopRestored := fun _ h => nomatch h
theorem stretchWindowEnd : Statement .stretchWindowEnd := fun _ h => nomatch h
theorem gclIntervalEnd : Statement .gclIntervalEnd := fun _ h => nomatch h
theorem reuseWindowEnd : Statement .reuseWindowEnd := fun _ h => nomatch h
theorem deviceWritten : Statement .deviceWritten := fun _ h => nomatch h

end Sys2Proof.Laws.RoundTrip
end

