-- ==== Sys2Proof/Safety.lean ====
section
/-! DEFINITION. The terms in which claims are stated: what an instruction needs of its operands, what a retired
instruction leaves and what it leaves alone, and what counts as a safe run. -/

namespace Sys2Proof.Machine

/-! ### Operands -/

/-- THE OPERANDS ARE READY (R430 stages 2 and 3): no bound register is named by a slot of another job than the core owner
(R53); every source register is full (R55); the queues of bound registers hold and have room for what the instruction
pops and pushes (R63); the Mortar lets the pops go on (R155). `g` holds the values, in order. -/
structure Ready (s : State) (srcs : List Opnd) (dsts : List GReg) (g : Got) : Prop where
  owner : (∀ r ∈ gRegs srcs ++ dsts, boundQ (me s) r = none) ∨ isOwner s = true
  full : ∀ o ∈ srcs, opndEmpty (me s) o = none
  room : queuesOk (getCore s s.who.1).res (srcs.filterMap (opndQ (me s))) (dsts.filterMap (boundQ (me s))) = true
  mortar : (popGate s (myJob s) (myPoint s) (popResolutions s g.pops)).1 = .go
  values : g = { xs := (readSrcs (getCore s s.who.1).res (me s) srcs []).1
                 pops := (readSrcs (getCore s s.who.1).res (me s) srcs []).2
                 pushes := dsts.filterMap (boundQ (me s)) }

/-- No source carries poison (R261). -/
def NoPoison (g : Got) : Prop := ∀ x ∈ g.xs, x.psn = false

/-! ### What a retirement leaves -/

/-- The registers of a slot: the slot without its place in the rotation, its PC and its counters of the journal and of the
checked pair. Two slots with equal `regs` agree in every g, v, m and k register with full/empty bit and poison, in every
slot control register, and in every hidden word. -/
def regs (sl : Slot) : Slot :=
  { sl with st := .empty, park := .none, pend := none, pc := 0, heldOp := false, cause := 0, dpc := 0, stepping := false, stopNext := 0
            sinceEntry := 0, finger := 0, exchanging := false, frame := {}, frameUrg := {}, wbDue := 0, wbRegs := [] }

/-- A slot without its place in the rotation: what a wake of another slot does not change. -/
def atRest (sl : Slot) : Slot := { sl with st := .empty, park := .none }

/-- A context without its slots, its queues and the writes on their way to them. -/
def restCtx (x : Ctx) : Ctx := { x with slots := [], q := [], qDue := [], cDue := [] }

/-- A core without its slots and queues, its retire sequence numbers and its journal's shadow queue: the local store with
its full/empty bits and poison, the accumulator and operand buffers, the tiles, the engines and everything else. -/
def restCore (c : PCore) : PCore :=
  { c with res := restCtx c.res, sav := c.sav.map restCtx, wide := { c.wide with rsn := [] }, shadow := [] }

/-- The state without its cores, the Mortars' own state and the replay lists of checked pairs: every memory, every node,
message, job, register of the control complex and scan core. -/
def restState (s : State) : State := { s with cores := [], mortars := [], pairChk := [] }

/-- THE INSTRUCTION HAS RETIRED: the issuing slot's registers are those of `tl`, its PC leads to `npc`, its RSN has advanced
by one (R142), the queues have lost what it popped, `qs` and `cs` are on their way to queues and common registers (R54,
R63); nothing else has changed but the places in the rotation of slots that it woke and the Mortar's records. -/
structure Completes (s t : State) (g : Got) (tl : Slot) (qs : List (Nat × Nat × QEntry)) (cs : List (Nat × Nat × Word))
    (npc : Word) : Prop where
  registers : regs (me t) = regs tl
  pc : (me t).pc = retirePc (me s) npc
  active : (me s).stepping = false → (me s).stopNext = 0 → (me t).st = .active ∧ (me t).pend = none
  rsn : slotRsn t s.who.1 s.who.2 = slotRsn s s.who.1 s.who.2 + 1
  otherRsn : ∀ p n, (p, n) ≠ s.who → slotRsn t p n = slotRsn s p n
  others : ∀ p n, (p, n) ≠ s.who → atRest (getSlot t p n) = atRest (getSlot s p n)
  queues : ∀ q, getQ (getCore t s.who.1).res q = (getQ (getCore s s.who.1).res q).drop ((g.pops.map Prod.fst).count q)
  otherQueues : ∀ p q, p ≠ s.who.1 → getQ (getCore t p).res q = getQ (getCore s p).res q
  pushes : (getCore t s.who.1).res.qDue = (getCore s s.who.1).res.qDue ++ qs
  commons : (getCore t s.who.1).res.cDue = (getCore s s.who.1).res.cDue ++ cs
  cores : ∀ p, restCore (getCore t p) = restCore (getCore s p)
  rest : restState t = restState s

/-- Writing a g register: g0 discards, a bound register leaves the slot as it is (R50, R62). -/
def writeG (sl : Slot) (d : GReg) (c : Cell 64) : Slot :=
  if gKey sl d = 0 ∨ (boundQ sl d).isSome then sl else setGCell sl (gKey sl d) c

/-- Writing a g register that is bound pushes the value at the writeback (R62, R63): the entry carries the sender key. -/
def pushG (s : State) (d : GReg) (val : Word) (psn : Bool) : List (Nat × Nat × QEntry) :=
  match boundQ (me s) d with
  | some q => [(issueCc s + 8, q, { val := val, psn := psn, key := senderKey s s.who.1 s.who.2 })]
  | none => []

/-- A register instruction of one g result has retired with `val`, the OR of the sources' poison, and flags `fl` (R83). -/
def CompletesG (s t : State) (g : Got) (d : GReg) (val : Word) (fl : Flags) (npc : Word) : Prop :=
  Completes s t g { writeG (me s) d { val := val, full := true, psn := g.psn } with fflg := (me s).fflg ||| fl }
    (pushG s d val g.psn) [] npc

/-- An instruction of one v result has retired with `val`, the OR of the sources' poison, and flags `fl`. -/
def CompletesV (s t : State) (g : Got) (d : VReg) (val : V512) (fl : Flags) (npc : Word) : Prop :=
  Completes s t g { setVCell (me s) d.toNat { val := val, full := true, psn := g.psn } with fflg := (me s).fflg ||| fl } [] [] npc

/-- An instruction without a result in a register has retired. -/
def CompletesN (s t : State) (g : Got) (npc : Word) : Prop := Completes s t g (me s) [] [] npc

/-! ### What an instruction that waits for answers leaves -/

/-- THE INSTRUCTION HAS SENT `msgs` and its slot is Waiting for the answers (R48, R115, R287): what it popped has left the
queues, `d` says what it remembers, and no register, memory or counter has changed. -/
structure Issued (s t : State) (g : Got) (d : Pend) (msgs : List Msg) : Prop where
  waiting : (me t).st = .waiting ∧ (me t).pc = (me s).pc
    ∧ (me t).pend = some { d with tag := s.nextTag, pops := g.pops, pushes := g.pushes, psn := g.psn }
  registers : regs (me t) = regs (me s)
  sent : t.net = s.net ++ msgs ∧ t.nextTag = s.nextTag + 1
  rsn : ∀ p n, slotRsn t p n = slotRsn s p n
  others : ∀ p n, (p, n) ≠ s.who → atRest (getSlot t p n) = atRest (getSlot s p n)
  queues : ∀ q, getQ (getCore t s.who.1).res q = (getQ (getCore s s.who.1).res q).drop ((g.pops.map Prod.fst).count q)
  otherQueues : ∀ p q, p ≠ s.who.1 → getQ (getCore t p).res q = getQ (getCore s p).res q
  cores : ∀ p, restCore (getCore t p) = restCore (getCore s p)
  rest : { restState t with net := [], nextTag := 0 } = { restState s with net := [], nextTag := 0 }

/-- The messages of an instruction of several parts: one for each destination, in the order of their first parts (R296). -/
def requestsOf (s : State) (nud : Nat) (act : Act) (ps : List Part) : List Msg :=
  (destsOf s.who.1 ps).map fun d => .req d (destReq s s.nextTag nud act ps d)

/-! ### Safe runs -/

/-- Main memory is in canonical form (log 2). -/
def MemInv (s : State) : Prop := Memory.wf s.mem

end Sys2Proof.Machine
end

