-- ==== Sys2Proof/Certificates/Slice0/Obligations.lean ====
section
/-! DEFINITION. The statements for the provers, and the tables of results that they are about: each table gives, for an
instruction, what the manual says it computes, in the manual's terms and apart from the meanings in Machine/. -/

namespace Sys2Proof.Spec

open Sys2Proof Sys2Proof.Machine

/-! ### Integer results (R270 to R275) -/

/-- Signed minimum, maximum and comparisons are on two's complement values, the unsigned ones on natural numbers. -/
def flag (p : Prop) [Decidable p] : Word := if p then 1 else 0

/-- The 128-bit signed product. -/
def productS (x y : Word) : BitVec 128 := x.signExtend 128 * y.signExtend 128
/-- The 128-bit unsigned product. -/
def productU (x y : Word) : BitVec 128 := x.setWidth 128 * y.setWidth 128

/-- What an instruction of two or three g sources writes into d (R270, R271): its sources in read order, d, and the result. -/
inductive AluResult : Instr → List Opnd → GReg → (Got → Word) → Prop
  | add d a b : AluResult (.add d a b) [.g a, .g b] d (fun g => BitVec.ofInt 64 ((g.w 0).toInt + (g.w 1).toInt))
  | sub d a b : AluResult (.sub d a b) [.g a, .g b] d (fun g => BitVec.ofInt 64 ((g.w 0).toInt - (g.w 1).toInt))
  | and d a b : AluResult (.and d a b) [.g a, .g b] d (fun g => g.w 0 &&& g.w 1)
  | or d a b : AluResult (.or d a b) [.g a, .g b] d (fun g => g.w 0 ||| g.w 1)
  | xor d a b : AluResult (.xor d a b) [.g a, .g b] d (fun g => g.w 0 ^^^ g.w 1)
  | andn d a b : AluResult (.andn d a b) [.g a, .g b] d (fun g => g.w 0 &&& ~~~g.w 1)
  | orn d a b : AluResult (.orn d a b) [.g a, .g b] d (fun g => g.w 0 ||| ~~~g.w 1)
  | sll d a b : AluResult (.sll d a b) [.g a, .g b] d (fun g => BitVec.ofNat 64 ((g.w 0).toNat * 2 ^ ((g.w 1).toNat % 64)))
  | srl d a b : AluResult (.srl d a b) [.g a, .g b] d (fun g => BitVec.ofNat 64 ((g.w 0).toNat / 2 ^ ((g.w 1).toNat % 64)))
  | sra d a b : AluResult (.sra d a b) [.g a, .g b] d (fun g => BitVec.ofInt 64 ((g.w 0).toInt / 2 ^ ((g.w 1).toNat % 64)))
  | rotr d a b : AluResult (.rotr d a b) [.g a, .g b] d (fun g =>
      (g.w 0 >>> ((g.w 1).toNat % 64)) ||| (g.w 0 <<< (64 - (g.w 1).toNat % 64)))
  | slt d a b : AluResult (.slt d a b) [.g a, .g b] d (fun g => flag ((g.w 0).toInt < (g.w 1).toInt))
  | sltu d a b : AluResult (.sltu d a b) [.g a, .g b] d (fun g => flag ((g.w 0).toNat < (g.w 1).toNat))
  | seq d a b : AluResult (.seq d a b) [.g a, .g b] d (fun g => flag (g.w 0 = g.w 1))
  | min d a b : AluResult (.min d a b) [.g a, .g b] d (fun g => BitVec.ofInt 64 (min (g.w 0).toInt (g.w 1).toInt))
  | max d a b : AluResult (.max d a b) [.g a, .g b] d (fun g => BitVec.ofInt 64 (max (g.w 0).toInt (g.w 1).toInt))
  | minu d a b : AluResult (.minu d a b) [.g a, .g b] d (fun g => BitVec.ofNat 64 (min (g.w 0).toNat (g.w 1).toNat))
  | maxu d a b : AluResult (.maxu d a b) [.g a, .g b] d (fun g => BitVec.ofNat 64 (max (g.w 0).toNat (g.w 1).toNat))
  | mul d a b : AluResult (.mul d a b) [.g a, .g b] d (fun g => (productS (g.w 0) (g.w 1)).extractLsb' 0 64)
  | mulh d a b : AluResult (.mulh d a b) [.g a, .g b] d (fun g => (productS (g.w 0) (g.w 1)).extractLsb' 64 64)
  | mulhu d a b : AluResult (.mulhu d a b) [.g a, .g b] d (fun g => (productU (g.w 0) (g.w 1)).extractLsb' 64 64)
  | div d a b : AluResult (.div d a b) [.g a, .g b] d (fun g =>
      if g.w 1 = 0 then BitVec.allOnes 64 else BitVec.ofInt 64 ((g.w 0).toInt.tdiv (g.w 1).toInt))
  | divu d a b : AluResult (.divu d a b) [.g a, .g b] d (fun g =>
      if g.w 1 = 0 then BitVec.allOnes 64 else BitVec.ofNat 64 ((g.w 0).toNat / (g.w 1).toNat))
  | rem d a b : AluResult (.rem d a b) [.g a, .g b] d (fun g =>
      if g.w 1 = 0 then g.w 0 else BitVec.ofInt 64 ((g.w 0).toInt.tmod (g.w 1).toInt))
  | remu d a b : AluResult (.remu d a b) [.g a, .g b] d (fun g =>
      if g.w 1 = 0 then g.w 0 else BitVec.ofNat 64 ((g.w 0).toNat % (g.w 1).toNat))
  | sel d a b c : AluResult (.sel d a b c) [.g a, .g b, .g c] d (fun g => if g.w 2 = 0 then g.w 1 else g.w 0)
  | shadd d a b k : AluResult (.shadd d a b k) [.g a, .g b] d (fun g => BitVec.ofNat 64 ((g.w 0).toNat * 2 ^ k.toNat + (g.w 1).toNat))

/-- What the counts and the byte reversal leave in d (R270): `r` is the result for the source `x`. -/
inductive BitCount : Instr → GReg → GReg → (Word → Word → Prop) → Prop
  | clz d a : BitCount (.clz d a) d a (fun x r => r.toNat ≤ 64 ∧ x.toNat < 2 ^ (64 - r.toNat) ∧ (r.toNat < 64 → 2 ^ (63 - r.toNat) ≤ x.toNat))
  | ctz d a : BitCount (.ctz d a) d a (fun x r => r.toNat ≤ 64 ∧ x.toNat % 2 ^ r.toNat = 0 ∧ (r.toNat < 64 → x.toNat / 2 ^ r.toNat % 2 = 1))
  | popc d a : BitCount (.popc d a) d a (fun x r => r.toNat = ((List.range 64).filter fun i => x.getLsbD i).length)
  | bswap d a : BitCount (.bswap d a) d a (fun x r => ∀ i, i < 8 → r.extractLsb' (8 * i) 8 = x.extractLsb' (56 - 8 * i) 8)

/-- What an instruction with an immediate writes into d (R272 to R275); `pc` is its address. -/
inductive ImmResult (pc : Word) : Instr → List Opnd → GReg → (Got → Word) → Prop
  | addi d a imm : ImmResult pc (.addi d a imm) [.g a] d (fun g => BitVec.ofInt 64 ((g.w 0).toInt + imm.toInt))
  | andi d a imm : ImmResult pc (.andi d a imm) [.g a] d (fun g => g.w 0 &&& imm.signExtend 64)
  | ori d a imm : ImmResult pc (.ori d a imm) [.g a] d (fun g => g.w 0 ||| imm.signExtend 64)
  | xori d a imm : ImmResult pc (.xori d a imm) [.g a] d (fun g => g.w 0 ^^^ imm.signExtend 64)
  | slti d a imm : ImmResult pc (.slti d a imm) [.g a] d (fun g => flag ((g.w 0).toInt < imm.toInt))
  | sltiu d a imm : ImmResult pc (.sltiu d a imm) [.g a] d (fun g => flag ((g.w 0).toNat < (imm.signExtend 64).toNat))
  | slli d a k : ImmResult pc (.slli d a k) [.g a] d (fun g => BitVec.ofNat 64 ((g.w 0).toNat * 2 ^ k.toNat))
  | srli d a k : ImmResult pc (.srli d a k) [.g a] d (fun g => BitVec.ofNat 64 ((g.w 0).toNat / 2 ^ k.toNat))
  | srai d a k : ImmResult pc (.srai d a k) [.g a] d (fun g => BitVec.ofInt 64 ((g.w 0).toInt / 2 ^ k.toNat))
  | rotri d a k : ImmResult pc (.rotri d a k) [.g a] d (fun g => (g.w 0 >>> k.toNat) ||| (g.w 0 <<< (64 - k.toNat)))
  | li d imm : ImmResult pc (.li d imm) [] d (fun _ => BitVec.ofInt 64 imm.toInt)
  | lim d imm : ImmResult pc (.lim d imm) [.g d] d (fun g => (g.w 0).extractLsb' 42 22 ++ imm ++ (g.w 0).extractLsb' 0 21)
  | lih d imm : ImmResult pc (.lih d imm) [.g d] d (fun g => imm.signExtend 22 ++ (g.w 0).extractLsb' 0 42)
  | addpc d imm : ImmResult pc (.addpc d imm) [] d (fun _ => BitVec.ofInt 64 (pc.toInt + imm.toInt))
  | bfx d a l p : ImmResult pc (.bfx d a l p) [.g a] d (fun g => BitVec.ofNat 64 ((g.w 0).toNat / 2 ^ p.toNat % 2 ^ (l.toNat + 1)))
  | bfi d a l p : ImmResult pc (.bfi d a l p) [.g a, .g d] d (fun g =>
      let m : Word := BitVec.ofNat 64 ((2 ^ (l.toNat + 1) - 1) * 2 ^ p.toNat)
      (g.w 1 &&& ~~~m) ||| ((g.w 0 <<< p.toNat) &&& m))

end Sys2Proof.Spec

open Sys2Proof Sys2Proof.Machine Sys2Proof.Spec

/-- R270, R271: every integer operation of g sources completes with its result, and changes nothing else. -/
def Obligations.IntegerResults : Prop :=
  ∀ (i : Instr) (s : State) (srcs : List Opnd) (d : GReg) (f : Got → Word) (g : Got),
    AluResult i srcs d f → (me s).st = .active → Ready s srcs [d] g →
    ∃ t, exec i s = .next t ∧ CompletesG s t g d (f g) 0 ((me s).pc + 4)

/-- R270: CLZ, CTZ, POPC and BSWAP. -/
def Sys2Proof.Spec.BitCounts : Prop :=
  ∀ (i : Instr) (s : State) (d a : GReg) (p : Word → Word → Prop) (g : Got),
    BitCount i d a p → (me s).st = .active → Ready s [.g a] [d] g →
    ∃ t r, exec i s = .next t ∧ CompletesG s t g d r 0 ((me s).pc + 4) ∧ p (g.w 0) r

/-- R272 to R275: every operation with an immediate. -/
def Sys2Proof.Spec.ImmediateResults : Prop :=
  ∀ (i : Instr) (s : State) (srcs : List Opnd) (d : GReg) (f : Got → Word) (g : Got),
    ImmResult (me s).pc i srcs d f → wellFormed i = true → (me s).st = .active → Ready s srcs [d] g →
    ∃ t, exec i s = .next t ∧ CompletesG s t g d (f g) 0 ((me s).pc + 4)
namespace Sys2Proof.Spec

/-! ### Branches and jumps (R276 to R278) -/

/-- The condition of a compare-and-branch on its two sources (R276). -/
inductive BranchIf : Instr → GReg → GReg → BitVec 16 → (Word → Word → Prop) → Prop
  | beq a b disp : BranchIf (.beq a b disp) a b disp fun x y => x = y
  | bne a b disp : BranchIf (.bne a b disp) a b disp fun x y => x ≠ y
  | blt a b disp : BranchIf (.blt a b disp) a b disp fun x y => x.toInt < y.toInt
  | bge a b disp : BranchIf (.bge a b disp) a b disp fun x y => y.toInt ≤ x.toInt
  | bltu a b disp : BranchIf (.bltu a b disp) a b disp fun x y => x.toNat < y.toNat
  | bgeu a b disp : BranchIf (.bgeu a b disp) a b disp fun x y => y.toNat ≤ x.toNat

/-- The target of a branch at `pc` (R276). -/
def target (pc : Word) (disp : Int) : Word := BitVec.ofInt 64 (pc.toInt + 4 * disp)

/-- A register that BFUL and BEMP name is full: its bound queue holds an entry, or its full/empty bit is full (R277, R63). -/
def FullNow (s : State) (a : GReg) : Prop :=
  match boundQ (me s) a with
  | some q => getQ (getCore s s.who.1).res q ≠ []
  | none => (gCell (me s) (gKey (me s) a)).full = true

/-- A bound register may be named: none is, or the slot's job is the core owner (R53). -/
def MayName (s : State) (r : GReg) : Prop := boundQ (me s) r = none ∨ isOwner s = true

/-! ### Reads of the slot's, the core's and the part's state -/

/-- The value of slot control register `n` (R51, R52), where it is a field of the slot. -/
inductive ScrRead (s : State) : Nat → Word → Prop
  | fmt : ScrRead s 0 ((me s).fmt.setWidth 64)
  | frm : ScrRead s 1 ((me s).frm.setWidth 64)
  | fflg : ScrRead s 2 ((me s).fflg.setWidth 64)
  | taskId : ScrRead s 3 ((me s).taskId.setWidth 64)
  | launchId : ScrRead s 4 ((me s).launchId.setWidth 64)
  | jobId : ScrRead s 5 ((me s).jobId.setWidth 64)
  | reuseClock : ScrRead s 6
      (((mget (getCore s s.who.1).rclk ((me s).launchId.toNat % 2 ^ 16)).getD 0).setWidth 64)
  | lfsr : ScrRead s 7 ((me s).lfsr.setWidth 64)
  | epi : ScrRead s 8 (me s).epi
  | budget : ScrRead s 9 (budgetWord s)
  | status w (q : bits w 31 24 = (me s).qbind.toNat) (n : bits w 23 20 = s.who.2 % 16) (p : tbit w 15 = (me s).pin)
      (u : tbit w 14 = (me s).urg) (m : tbit w 13 = (me s).mwin) (c : bits w 12 10 = (me s).urgents.length % 8)
      (z : bits w 63 32 = 0 ∧ bits w 19 16 = 0 ∧ bits w 9 0 = 0) : ScrRead s 10 w

/-- An instruction that writes into d what it finds in the state: its sources, what it needs of their values and of the state
(R430 stages 2, 5 and the waits of its rule), and the result. -/
inductive StateRead (s : State) : Instr → List Opnd → GReg → (Got → Prop) → (Got → Word) → Prop
  | mfs d n v (h : ScrRead s n.toNat v) : StateRead s (.mfs d n) [] d (fun _ => True) fun _ => v
  | mfc d n : StateRead s (.mfc d n) [] d (fun _ => isOwner s = true) fun _ => (mget (getCore s s.who.1).res.c n.toNat).getD 0
  | slotid d : StateRead s (.slotid d) [] d (fun _ => True) fun _ =>
      BitVec.ofNat 64 ((logicalOf s s.who.1 * 16 + s.who.2) % 2 ^ 12)
  | stamp d : StateRead s (.stamp d false) [] d (fun _ => True) fun _ => s.stamp.setWidth 64
  | origin d j (h : slotPhase s = some j) : StateRead s (.stamp d true) [] d (fun _ => True) fun _ => j.origin.setWidth 64
  | noOrigin d (h : slotPhase s = none) : StateRead s (.stamp d true) [] d (fun _ => True) fun _ => s.stamp.setWidth 64
  | chkage d a b : StateRead s (.chkage d a b) [.g a, .g b] d (fun g => (g.w 1).toNat ≤ 2 ^ 31) fun g =>
      let age : BitVec 32 := s.stamp - (g.w 0).setWidth 32
      if age.toNat ≤ (g.w 1).toNat then age.setWidth 64 else BitVec.allOnes 64
  | budget d j (h : slotPhase s = some j) : StateRead s (.budget d false) [] d (fun _ => True) fun _ =>
      BitVec.ofNat 64 ((j.texp - s.plumb) * 24 / j.fccTicks)
  | noBudget d texp (h : slotPhase s = none) : StateRead s (.budget d texp) [] d (fun _ => True) fun _ => BitVec.allOnes 64
  | texp d j (h : slotPhase s = some j) : StateRead s (.budget d true) [] d (fun _ => True) fun _ => BitVec.ofNat 64 j.texp
  | phaseid d j (h : slotPhase s = some j) : StateRead s (.phaseid d) [] d (fun _ => True) fun _ =>
      BitVec.ofNat 64 ((if j.resumed then 1 else 0) * 2 ^ 43 + phaseCode j.phase * 2 ^ 40 + j.id % 2 ^ 7 * 2 ^ 32 + j.number.toNat)
  | noPhase d (h : slotPhase s = none) : StateRead s (.phaseid d) [] d (fun _ => True) fun _ =>
      BitVec.ofNat 64 ((me s).jobId.toNat * 2 ^ 32)
  | mxpoll d a : StateRead s (.mxpoll d a) [.g a] d (fun _ => isClass1 s s.who.1 = false) fun g => mxStatus s (g.w 0)
  | mxwait d a : StateRead s (.mxwait d a) [.g a] d (fun g => isClass1 s s.who.1 = false ∧ 2 ≤ bits (mxStatus s (g.w 0)) 63 62)
      fun g => mxStatus s (g.w 0)
  | hdpoll d a : StateRead s (.hdpoll d a) [.g a] d (fun _ => True) fun g => hodStatus s (g.w 0)
  | hdwait d a : StateRead s (.hdwait d a) [.g a] d (fun g => 2 ≤ bits (hodStatus s (g.w 0)) 63 62) fun g => hodStatus s (g.w 0)
  | tlst d a : StateRead s (.tlst d a) [.g a] d (fun g => (g.w 0).toNat ≤ 47) fun g =>
      (tileEntry (getCore s s.who.1).res (g.w 0).toNat).setWidth 64
  | tlwait d a state : StateRead s (.tlwait d a state) [.g a] d
      (fun g => (g.w 0).toNat ≤ 47 ∧ bits (tileEntry (getCore s s.who.1).res (g.w 0).toNat) 17 16 = state.toNat) fun g =>
      (tileEntry (getCore s s.who.1).res (g.w 0).toNat).setWidth 64
  | cardw d a i : StateRead s (.cardw d a) [.g a] d (fun g => namedGraph s (g.w 0) = some i ∧ i.st ≠ .running) fun _ =>
      if i.st = .complete then 0 else if i.st = .cancelled then 1 else 2
  | cardwUnknown d a : StateRead s (.cardw d a) [.g a] d (fun g => namedGraph s (g.w 0) = none) fun _ => 3

/-- THE ISSUING SLOT WAITS FOR A NODE'S ANSWER `v` to its instruction `i` (R343): the reply is on its way, and nothing else has
changed. -/
def WaitsFor (s t : State) (g : Got) (i : Instr) (v : Word) : Prop :=
  Issued s t g { instr := i, word := s.word, tag := 0, addr := 0, npc := (me s).pc + 4, left := 1 }
    [.reply (.slot s.who.1 s.who.2) s.nextTag 0 (.value (natBytes 8 v.toNat) false)]

/-- An instruction that a node answers (R343: its slot waits for the reply): its sources, its destination, what it needs, and the
value of the answer. -/
inductive NodeAnswer (s : State) : Instr → List Opnd → GReg → (Got → Prop) → (Got → Word) → Prop
  | tskst d a wait level : NodeAnswer s (.tskst d a wait level) [.g a] d
      (fun g => wait = true → (levelResult s level (g.w 0)).1 ≠ 0) fun g =>
      BitVec.ofNat 64 ((levelResult s level (g.w 0)).1 * 2 ^ 62 + (levelResult s level (g.w 0)).2)
  | mlogq d field : NodeAnswer s (.mlogq d field) [] d (fun _ => field.toNat ≤ 5) fun _ =>
      let m := getMortar s (me s).jobId.toNat
      [m.wptr.setWidth 64, m.rptr.setWidth 64, (m.wptr - m.rptr).setWidth 64, m.mode.setWidth 64, m.hwm.setWidth 64,
        m.ovcnt.setWidth 64].getD field.toNat 0
  | pairq d : NodeAnswer s (.pairq d) [] d (fun _ => True) fun _ =>
      BitVec.ofNat 64 (s.pair.role.toNat + (if s.pair.link then 4 else 0) + (if s.pair.sync then 8 else 0)
        + (if s.pair.role = 2 then 0 else 16) + s.pair.syncStamp.toNat * 2 ^ 32)

/-! ### Writes of slot state -/

/-- A slot whose masked window, idle latch, control register or binding an instruction of the slot's own state has changed:
the instruction, its sources, what it needs, and the slot after it. -/
inductive SlotWrite (s : State) : Instr → List Opnd → (Got → Prop) → (Got → Slot) → Prop
  | nop : SlotWrite s .nop [] (fun _ => True) fun _ => me s
  | mtsFmt a n (h : n.toNat = 0) : SlotWrite s (.mts n a) [.g a] (fun _ => True) fun g => { me s with fmt := (g.w 0).setWidth 10 }
  | mtsFrm a n (h : n.toNat = 1) : SlotWrite s (.mts n a) [.g a] (fun _ => True) fun g =>
      { me s with frm := (g.w 0).setWidth 6 &&& 0x2F }
  | mtsFflg a n (h : n.toNat = 2) : SlotWrite s (.mts n a) [.g a] (fun _ => True) fun g => { me s with fflg := (g.w 0).setWidth 5 }
  | mtsLfsr a n (h : n.toNat = 7) : SlotWrite s (.mts n a) [.g a] (fun _ => True) fun g =>
      { me s with lfsr := if (g.w 0).setWidth 32 = (0 : BitVec 32) then 1 else (g.w 0).setWidth 32 }
  | mtsEpi a n (h : n.toNat = 8) : SlotWrite s (.mts n a) [.g a] (fun _ => True) fun g =>
      { me s with epi := ((me s).epi &&& 0x00000000FFF000FF) ||| (g.w 0 &&& 0xFFFFFFFF000FFF00) }
  | mtsNone a n (h : n.toNat ∈ [3, 4, 5, 6, 9, 10]) : SlotWrite s (.mts n a) [.g a] (fun _ => True) fun _ => me s
  | mskw : SlotWrite s .mskw [] (fun _ => True) fun _ => { me s with mwin := true }
  | opnw : SlotWrite s .opnw [] (fun _ => True) fun _ => { me s with mwin := false }
  | clrk a k : SlotWrite s (.clrk a k false) [] (fun _ => True) fun _ => setKReg (me s) k.toNat 0
  | subk a k : SlotWrite s (.clrk a k true) [.g a] (fun _ => True) fun g =>
      setKReg (me s) k.toNat (kReg (me s) k.toNat - (g.w 0).setWidth 32)
  | mxpert a : SlotWrite s (.mxpert a) [.g a] (fun g => isClass1 s s.who.1 = false ∧ bits (g.w 0) 47 32 = 0) fun g =>
      { me s with pert := g.w 0 }
  | chbind a kc ka : SlotWrite s (.chbind a kc ka) [.g a]
      (fun g => bits (g.w 0) 63 17 = 0 ∧ bits (g.w 0) 4 1 ≤ 8 ∧ (tbit (g.w 0) 0 = true →
        bits (g.w 0) 16 5 * 32 + 32 * 2 ^ bits (g.w 0) 4 1 ≤ 0x20000
          ∧ inTaskArea (bits (g.w 0) 16 5 * 32) (32 * 2 ^ bits (g.w 0) 4 1) = false
          ∧ regionOk (getCore s s.who.1).res (myJob s) 0 (bits (g.w 0) 16 5 * 32) (32 * 2 ^ bits (g.w 0) 4 1) true true = true))
      fun g => { me s with chan := (g.w 0).setWidth 17, chanKc := kc, chanKa := ka }
  | vmand d a b : SlotWrite s (.vmand d a b) [] (fun _ => True) fun _ =>
      setMReg (me s) d.toNat (mReg (me s) a.toNat &&& mReg (me s) b.toNat)
  | vmor d a b : SlotWrite s (.vmor d a b) [] (fun _ => True) fun _ =>
      setMReg (me s) d.toNat (mReg (me s) a.toNat ||| mReg (me s) b.toNat)
  | vmnot d a : SlotWrite s (.vmnot d a) [] (fun _ => True) fun _ => setMReg (me s) d.toNat (~~~mReg (me s) a.toNat)

/-- PURGE's registers, set empty with value and poison kept (R268). -/
def purged (first last : Nat) (vec : Bool) (sl t : Slot) : Prop :=
  (∀ k, gCell t k = if vec = false ∧ ∃ r : GReg, first ≤ r.toNat ∧ r.toNat ≤ last ∧ gKey sl r = k ∧ k ≠ 0 ∧ boundQ sl r = none
      then { gCell sl k with full := false } else gCell sl k)
  ∧ (∀ k, vCell t k = if vec = true ∧ first ≤ k ∧ k ≤ last then { vCell sl k with full := false } else vCell sl k)
  ∧ { regs t with g := [], v := [] } = { regs sl with g := [], v := [] }

end Sys2Proof.Spec

/-- R276: a compare-and-branch goes to its target or on, and changes no register, no flag and no memory. -/
def Sys2Proof.Spec.Branches : Prop :=
  ∀ (i : Instr) (s : State) (a b : GReg) (disp : BitVec 16) (c : Word → Word → Prop) (g : Got),
    BranchIf i a b disp c → (me s).st = .active → Ready s [.g a, .g b] [] g → NoPoison g →
    ∃ t, exec i s = .next t ∧ (c (g.w 0) (g.w 1) → CompletesN s t g (target (me s).pc disp.toInt))
      ∧ (¬ c (g.w 0) (g.w 1) → CompletesN s t g ((me s).pc + 4))

/-- R277: BFUL and BEMP branch on the full/empty bit or on the queue, without reading the register. -/
def Sys2Proof.Spec.FullEmptyBranches : Prop :=
  ∀ (s : State) (a : GReg) (disp : BitVec 16), (me s).st = .active → MayName s a →
    (∃ t, exec (.bful a disp) s = .next t ∧ (FullNow s a → CompletesN s t {} (target (me s).pc disp.toInt))
      ∧ (¬ FullNow s a → CompletesN s t {} ((me s).pc + 4)))
    ∧ (∃ t, exec (.bemp a disp) s = .next t ∧ (¬ FullNow s a → CompletesN s t {} (target (me s).pc disp.toInt))
      ∧ (FullNow s a → CompletesN s t {} ((me s).pc + 4)))

/-- R278: J and JAL go to pc + 4 × disp, JALR to its base plus the immediate; JAL writes pc + 4 into g31, JALR into d. -/
def Sys2Proof.Spec.Jumps : Prop :=
  ∀ (s : State), (me s).st = .active →
    (∀ disp : BitVec 26, ∃ t, exec (.j disp) s = .next t ∧ CompletesN s t {} (target (me s).pc disp.toInt))
    ∧ (∀ (disp : BitVec 26) (g : Got), Ready s [] [31] g →
        ∃ t, exec (.jal disp) s = .next t ∧ CompletesG s t g 31 ((me s).pc + 4) 0 (target (me s).pc disp.toInt))
    ∧ (∀ (d a : GReg) (imm : BitVec 16) (g : Got), Ready s [.g a] [d] g → NoPoison g → (g.w 0 + imm.signExtend 64).toNat % 4 = 0 →
        ∃ t, exec (.jalr d a imm) s = .next t ∧ CompletesG s t g d ((me s).pc + 4) 0 (g.w 0 + imm.signExtend 64))

/-- MFS, MFC, SLOTID, STAMP, CHKAGE, BUDGET, PHASEID, MXPOLL, MXWAIT, HDPOLL, HDWAIT, TLST, TLWAIT and CARDW write into d what
they find, and change nothing else. -/
def Sys2Proof.Spec.StateReads : Prop :=
  ∀ (i : Instr) (s : State) (srcs : List Opnd) (d : GReg) (pre : Got → Prop) (f : Got → Word) (g : Got),
    StateRead s i srcs d pre f → (me s).st = .active → Ready s srcs [d] g → NoPoison g → pre g →
    ∃ t, exec i s = .next t ∧ CompletesG s t g d (f g) 0 ((me s).pc + 4)

/-- R343: TSKST, MLOGQ and PAIRQ leave their slot waiting for a reply that carries what they find; nothing else changes. Replies
says what the reply does. -/
def Sys2Proof.Spec.NodeAnswers : Prop :=
  ∀ (i : Instr) (s : State) (srcs : List Opnd) (d : GReg) (pre : Got → Prop) (f : Got → Word) (g : Got),
    NodeAnswer s i srcs d pre f → (me s).st = .active → Ready s srcs [d] g → NoPoison g → pre g →
    ∃ t, exec i s = .next t ∧ WaitsFor s t g i (f g)

/-- NOP, MTS, MSKW, OPNW, CLRK, MXPERT, CHBIND, VMAND, VMOR and VMNOT change the slot's own state as their rules say, and
nothing else. -/
def Sys2Proof.Spec.SlotWrites : Prop :=
  ∀ (i : Instr) (s : State) (srcs : List Opnd) (pre : Got → Prop) (f : Got → Slot) (g : Got),
    SlotWrite s i srcs pre f → (me s).st = .active → Ready s srcs [] g → NoPoison g → pre g →
    ∃ t, exec i s = .next t ∧ Completes s t g (f g) [] [] ((me s).pc + 4)

/-- R268: PURGE sets the registers from first to last empty, keeps their values and poison, and passes bound registers over. -/
def Sys2Proof.Spec.Purge : Prop :=
  ∀ (s : State) (first last : BitVec 5) (vec : Bool), (me s).st = .active → wellFormed (.purge first last vec) = true →
    ∃ t sl, exec (.purge first last vec) s = .next t ∧ Completes s t {} sl [] [] ((me s).pc + 4)
      ∧ purged first.toNat last.toNat vec (me s) sl

/-- R53, R54, R266: MTC by the core owner's slot puts the write on its way to the common register, 8 cc after its issue. -/
def Sys2Proof.Spec.CommonRegisterWrite : Prop :=
  ∀ (s : State) (n : BitVec 6) (a : GReg) (g : Got), (me s).st = .active → isOwner s = true → Ready s [.g a] [] g → NoPoison g →
    ∃ t, exec (.mtc n a) s = .next t ∧ Completes s t g (me s) [] [(issueCc s + 8, n.toNat, g.w 0)] ((me s).pc + 4)
namespace Sys2Proof.Spec

/-! ### Leaving the rotation (R48, R420, R433) -/

/-- The fields of a fault packet (R420). -/
structure PacketIs (pk : BitVec 256) (s : State) (addr pc : Word) (code detail : Nat) : Prop where
  time : pk.extractLsb' 192 64 = BitVec.ofNat 64 s.plumb
  addr : pk.extractLsb' 128 64 = addr
  pc : pk.extractLsb' 80 48 = pc.setWidth 48
  word : pk.extractLsb' 48 32 = s.word
  code : pk.extractLsb' 40 8 = BitVec.ofNat 8 code
  detail : pk.extractLsb' 32 8 = BitVec.ofNat 8 detail
  pcore : pk.extractLsb' 24 8 = BitVec.ofNat 8 s.who.1
  lcore : pk.extractLsb' 16 8 = BitVec.ofNat 8 (logicalOf s s.who.1)
  slot : pk.extractLsb' 12 4 = BitVec.ofNat 4 s.who.2
  job : pk.extractLsb' 5 7 = (me s).jobId
  zero : pk.extractLsb' 0 5 = 0

/-- The fields of a CLASS 0 record of a thread fault (R416, R417, R420). -/
structure FaultRecordIs (r : BitVec 256) (s : State) (addr : Word) (code data : Nat) : Prop where
  time : r.extractLsb' 192 64 = BitVec.ofNat 64 s.plumb
  addr : r.extractLsb' 128 64 = addr
  data : r.extractLsb' 64 32 = BitVec.ofNat 32 data
  key : r.extractLsb' 52 12 = senderKey s s.who.1 s.who.2
  src : r.extractLsb' 40 12 = BitVec.ofNat 12 s.who.1
  job : r.extractLsb' 33 7 = (me s).jobId
  code : r.extractLsb' 25 8 = BitVec.ofNat 8 code
  cls : r.extractLsb' 21 4 = 0
  sev : r.extractLsb' 19 2 = 2
  retry : r.extractLsb' 18 1 = 0

/-- THE ISSUING SLOT HAS FROZEN at `pc`: Frozen with CAUSE 1, a packet to its supervisor core, and nothing else changed in any
register, queue or memory; `quiet` leaves out what else the stop may send. -/
structure Stopped (s t : State) (pc addr : Word) (code detail : Nat) : Prop where
  frozen : (me t).st = .frozen ∧ (me t).cause = 1 ∧ (me t).pc = pc ∧ (me t).dpc = pc.setWidth 48
  registers : regs (me t) = regs (me s)
  packet : ∃ pk, t.sent = s.sent ++ [.packet (supervisorOf s.who.1) pk] ∧ PacketIs pk s addr pc code detail
  others : ∀ p n, (p, n) ≠ s.who → atRest (getSlot t p n) = atRest (getSlot s p n)
  cores : ∀ p, restCore (getCore t p) = restCore (getCore s p)
  rest : { restState t with sent := [], errQueue := [], agenda := [] } = { restState s with sent := [], errQueue := [], agenda := [] }

/-! ### Checks of stage 2 (R430) -/

/-- An instruction that may not issue in the slot's state, and the fault that it takes (R342, R430 stage 2). -/
inductive NotHere (s : State) : Instr → Nat → Prop
  | spawn d a b (h : (me s).urg = true) : NotHere s (.spawn d a b) 0x01
  | sync a (h : (me s).urg = true) : NotHere s (.sync a) 0x01
  | finish (h : (me s).urg = true) : NotHere s .finish 0x01
  | yield (h : (me s).urg = true) : NotHere s .yield 0x01
  | retu (h : (me s).urg = false) : NotHere s .retu 0x01
  | mxq d a b (h : isClass1 s s.who.1 = true) : NotHere s (.mxq d a b) 0x01
  | mxwait d a (h : isClass1 s s.who.1 = true) : NotHere s (.mxwait d a) 0x01
  | mxpoll d a (h : isClass1 s s.who.1 = true) : NotHere s (.mxpoll d a) 0x01
  | mxepi a (h : isClass1 s s.who.1 = true) : NotHere s (.mxepi a) 0x01
  | mxpert a (h : isClass1 s s.who.1 = true) : NotHere s (.mxpert a) 0x01
  | mxdrain d c k (h : isClass1 s s.who.1 = true) : NotHere s (.mxdrain d c k) 0x01
  | mfc d n (h : isOwner s = false) : NotHere s (.mfc d n) 0x04
  | mtc n a (h : isOwner s = false) : NotHere s (.mtc n a) 0x04
  | role m (h : isOwner s = false) : NotHere s (.role m) 0x04
  | recv d a b poll (h : tbit (me s).chan 0 = false) (o : MayName s b ∧ MayName s a ∧ MayName s d) : NotHere s (.recv d a b poll) 0x01
  | fadd d a b p (h : 4 < (me s).frm.toNat % 8) (o : MayName s a ∧ MayName s b ∧ MayName s d) : NotHere s (.fadd d a b p) 0x01
  | bound d a b (h : boundQ (me s) a ≠ none) (o : isOwner s = false) : NotHere s (.add d a b) 0x04

/-! ### Poison (R261) -/

/-- An instruction of which a poisoned source is a fault, its sources, and the address that the packet names. -/
inductive PoisonChecked : Instr → List Opnd → List GReg → (Got → Word) → Prop
  | branch i a b disp c (h : BranchIf i a b disp c) : PoisonChecked i [.g a, .g b] [] fun _ => 0
  | jalr d a imm : PoisonChecked (.jalr d a imm) [.g a] [d] fun g => g.w 0 + imm.signExtend 64
  | mts n a : PoisonChecked (.mts n a) [.g a] [] fun _ => 0
  | trapi n a : PoisonChecked (.trapi n a) [.g a] [] fun _ => 0
  | vcmp k a b cond m ty : PoisonChecked (.vcmp k a b cond m ty) [.v a, .v b] [] fun _ => 0

end Sys2Proof.Spec

/-- R264, R420: HALT and TRAPI retire and then stop for the supervisor, with fault codes 0x10 and 0x11; BKPT stops with 0x12
without retiring. None of them makes an error record. -/
def Sys2Proof.Spec.StopInstructions : Prop :=
  ∀ s : State, (me s).st = .active → (me s).stepping = false → (me s).stopNext = 0 → (curFrame (me s)).v = false →
    (∃ t, exec .halt s = .next t ∧ Stopped s t ((me s).pc + 4) 0 0x10 0 ∧ slotRsn t s.who.1 s.who.2 = slotRsn s s.who.1 s.who.2 + 1
      ∧ t.errQueue = s.errQueue)
    ∧ (∀ (n : BitVec 6) (a : GReg) (g : Got), Ready s [.g a] [] g → NoPoison g →
      ∃ t, exec (.trapi n a) s = .next t ∧ Stopped s t ((me s).pc + 4) (g.w 0) 0x11 n.toNat
        ∧ slotRsn t s.who.1 s.who.2 = slotRsn s s.who.1 s.who.2 + 1 ∧ t.errQueue = s.errQueue)
    ∧ (∀ n : BitVec 6, ∃ t, exec (.bkpt n) s = .next t ∧ Stopped s t (me s).pc 0 0x12 n.toNat
        ∧ slotRsn t s.who.1 s.who.2 = slotRsn s s.who.1 s.who.2 ∧ t.errQueue = s.errQueue)

/-- R48, R420, R433: taking a thread fault freezes the slot with every register, queue and memory as it was before the
instruction, its PC at the instruction and the RSN not consumed; a packet goes to the supervisor core and a CLASS 0 record
to the error arbiter. UNASSIGNED_ENCODING takes the illegal-instruction fault 0x01. -/
def Obligations.TakingAFault : Prop :=
  ∀ s : State, (me s).pend = none →
    (∀ (code : Nat) (addr : Word) (detail data : Nat),
      let t := freeze s code addr detail data
      Stopped s t (me s).pc addr code detail ∧ (∀ p n, slotRsn t p n = slotRsn s p n)
        ∧ (∀ p q, getQ (getCore t p).res q = getQ (getCore s p).res q)
        ∧ ∃ r, t.errQueue = s.errQueue ++ [r] ∧ FaultRecordIs r s addr code data)
    ∧ exec .unassignedEncoding s = .next (freeze s 0x01 0)

/-- R430 stage 2, R342, R53: an instruction that may not issue in the slot's state takes its fault. -/
def Sys2Proof.Spec.ContextFaults : Prop :=
  ∀ (s : State) (i : Instr) (code : Nat), NotHere s i code → exec i s = .next (freeze s code 0)

/-- R261, R433, R457: the first poisoned source that an instruction consumes raises fault 0x05 with its number in DATA. -/
def Sys2Proof.Spec.PoisonFaults : Prop :=
  ∀ (s : State) (i : Instr) (srcs : List Opnd) (dsts : List GReg) (addr : Got → Word) (g : Got) (k : Nat),
    PoisonChecked i srcs dsts addr → Ready s srcs dsts g → (∀ j, j < k → (g.xs.getD j {}).psn = false) → (g.xs.getD k {}).psn = true →
    exec i s = .next (freeze s 0x05 (addr g) 0 k)

/-- R55, R63: when no operand is a bound register and every source is full, the operands are ready with the registers' values;
a bound source gives the oldest entry of its queue and pops it. -/
def Sys2Proof.Spec.OperandValues : Prop :=
  (∀ (s : State) (srcs : List Opnd) (dsts : List GReg),
    (∀ r ∈ gRegs srcs ++ dsts, boundQ (me s) r = none) → (∀ o ∈ srcs, opndEmpty (me s) o = none) →
    Ready s srcs dsts { xs := srcs.map fun o => match o with
      | .g r => { w := (gCell (me s) (gKey (me s) r)).val, psn := (gCell (me s) (gKey (me s) r)).psn }
      | .v r => { v := (vCell (me s) r.toNat).val, psn := (vCell (me s) r.toNat).psn } })
  ∧ (∀ (s : State) (r : GReg) (q : Nat) (e : QEntry) (rest : List QEntry),
    boundQ (me s) r = some q → isOwner s = true → mortarMode s (myJob s) = 0 → getQ (getCore s s.who.1).res q = e :: rest →
    Ready s [.g r] [] { xs := [{ w := e.val, psn := e.psn }], pops := [(q, e)] })

/-- R55: an empty source parks the slot, in operand order; nothing else changes. An empty queue parks it on the queue. -/
def Sys2Proof.Spec.EmptySourceParks : Prop :=
  ∀ (s : State) (i : Instr) (srcs : List Opnd) (d : GReg) (f : Got → Word) (before after : List Opnd) (r : GReg),
    AluResult i srcs d f → srcs = before ++ .g r :: after → (∀ x ∈ gRegs srcs ++ [d], MayName s x) →
    (∀ o ∈ before, opndEmpty (me s) o = none) → boundQ (me s) r = none → (gCell (me s) (gKey (me s) r)).full = false →
    exec i s = .next (updMe s fun sl => { sl with st := .parked, park := .reg false (gKey (me s) r) })

/-- R58, R59 to R61, R268, R269, R350, R352: IDLE, YIELD, RETU and ROLE. -/
def Sys2Proof.Spec.RotationInstructions : Prop :=
  ∀ s : State, (me s).st = .active →
    ((me s).idleLatch = true → ∃ t, exec .idle s = .next t ∧ Completes s t {} { me s with idleLatch := false } [] [] ((me s).pc + 4))
    ∧ ((me s).idleLatch = false → (me s).stepping = false → (me s).stopNext = 0 →
      ∃ r, Completes s r {} (me s) [] [] ((me s).pc + 4) ∧ exec .idle s = .next (updMe r fun sl => { sl with st := .parked, park := .idle }))
    ∧ ((me s).urg = false → ∃ r, Completes s r {} (me s) [] [] ((me s).pc + 4)
      ∧ exec .yield s = .next (updMe r fun sl => if (me s).pin then sl else { sl with yielded := true }))
    ∧ ((me s).urg = true → ∃ r, Completes s r {} { me s with urg := false } [] [] (me s).urgPc
      ∧ exec .retu s = .next (if (me s).urgFromEmpty then emptySlot r s.who.1 s.who.2 else r))
    ∧ (∀ mask : BitVec 8, isOwner s = true → ∃ t sl, exec (.role mask) s = .next t ∧ Completes s t {} sl [] [] ((me s).pc + 4)
      ∧ (∀ k, gCell sl k = if 20 ≤ k ∧ k < 28 ∧ tbit mask (k - 20) ≠ tbit (me s).qbind (k - 20) then {} else gCell (me s) k)
      ∧ sl.qbind = mask ∧ { regs sl with g := [], qbind := 0 } = { regs (me s) with g := [], qbind := 0 })

/-- R309: RECV of a ring that holds an entry writes the three words of its oldest entry and advances the consumer counter, or parks
while LOCK covers the entry (R422); an empty ring parks the slot, or answers all ones. -/
def Sys2Proof.Spec.Receive : Prop :=
  ∀ (s : State) (d a b : GReg) (poll : Bool) (g : Got), (me s).st = .active → wellFormed (.recv d a b poll) = true →
    tbit (me s).chan 0 = true → Ready s [] [b, a, d] g →
    let kc := kReg (me s) (me s).chanKc.toNat
    let ka := kReg (me s) (me s).chanKa.toNat
    let x := (getCore s s.who.1).res
    let w := (bits (me s).chan 16 5 * 32 + 32 * (kc.toNat % 2 ^ bits (me s).chan 4 1)) / 8
    (ka ≠ kc → lockTouches (getCore s s.who.1) (8 * w) 32 = true →
      exec (.recv d a b poll) s = .next (updMe s fun sl => { sl with st := .parked, park := .lock }))
    ∧ (ka ≠ kc → lockTouches (getCore s s.who.1) (8 * w) 32 = false → ∃ t, exec (.recv d a b poll) s = .next t ∧ Completes s t g
      { setKReg (writeG (writeG (writeG (me s) b { val := lsWord x (w + 2), psn := x.lsPoison.contains (w + 2) })
        a { val := lsWord x (w + 1), psn := x.lsPoison.contains (w + 1) })
        d { val := lsWord x w, psn := x.lsPoison.contains w }) (me s).chanKc.toNat (kc + 1) with idleLatch := true }
      (pushG s b (lsWord x (w + 2)) (x.lsPoison.contains (w + 2)) ++ pushG s a (lsWord x (w + 1)) (x.lsPoison.contains (w + 1))
        ++ pushG s d (lsWord x w) (x.lsPoison.contains w)) [] ((me s).pc + 4))
    ∧ (ka = kc → poll = true → ∃ t, exec (.recv d a b poll) s = .next t ∧ CompletesG s t g b (BitVec.allOnes 64) 0 ((me s).pc + 4))
    ∧ (ka = kc → poll = false → exec (.recv d a b poll) s = .next (updMe s fun sl => { sl with st := .parked, park := .ring }))

/-- R310, R355, R358, R378: WAITK, TIME, WAITT and MMARK: a resolution that the Mortar lets go, and the retirement with its
value; a count or a time not yet reached parks the slot. -/
def Sys2Proof.Spec.RecordedReads : Prop :=
  ∀ s : State, (me s).st = .active → mortarMode s (myJob s) ≠ 2 → (∀ a, pairNext s (myPoint s) a = none) →
    let go := fun (g : Got) (type arg : Nat) (data : Word) => (ownGate s g.pops
      { type := type, arg := arg, agent := senderKey s s.who.1 s.who.2, data := data }).1 = .go
    (∀ (d : GReg) (g : Got), Ready s [] [d] g → go g 8 0 (BitVec.ofNat 64 s.plumb) →
      ∃ t, exec (.time d) s = .next t ∧ CompletesG s t g d (BitVec.ofNat 64 s.plumb) 0 ((me s).pc + 4))
    ∧ (∀ (d a : GReg) (g : Got), Ready s [.g a] [d] g → NoPoison g →
      ((g.w 0).toNat ≤ s.plumb → go g 8 0 (BitVec.ofNat 64 s.plumb) →
        ∃ t, exec (.waitt d a false) s = .next t ∧ CompletesG s t g d (BitVec.ofNat 64 s.plumb) 0 ((me s).pc + 4))
      ∧ (s.plumb < (g.w 0).toNat →
        exec (.waitt d a false) s = .next (updMe s fun sl => { sl with st := .parked, park := .time (g.w 0) })))
    ∧ (∀ (d a : GReg) (k : KReg) (poll : Bool) (g : Got), Ready s [.g a] [d] g → NoPoison g →
      let c := kReg (me s) k.toNat
      let reached := (c - (g.w 0).setWidth 32).toNat < 2 ^ 31
      ((reached → go g 3 k.toNat (c.setWidth 64)) → (reached ∨ poll = true) →
        ∃ t, exec (.waitk d a k poll) s = .next t ∧ CompletesG s t g d (c.setWidth 64) 0 ((me s).pc + 4))
      ∧ (¬ reached → poll = false →
        exec (.waitk d a k poll) s = .next (updMe s fun sl => { sl with st := .parked, park := .counter k.toNat })))
    ∧ (∀ (a : GReg) (tag : BitVec 6) (g : Got), Ready s [.g a] [] g → NoPoison g → go g 9 tag.toNat (g.w 0) →
      ∃ t, exec (.mmark a tag) s = .next t ∧ CompletesN s t g ((me s).pc + 4))

namespace Sys2Proof.Spec

/-! ### Scalar floating point (R279 to R284) -/

/-- The source `i` as a value of precision `p`: its low bits (R279). -/
def src (p : Prec) (g : Got) (i : Nat) : Val := valOf (precFmt p) ((g.w i).toNat % 2 ^ (precFmt p).width)

/-- A result encoding as a register value: zero extended (R279). -/
def enc (r : Nat × Flags) : Word × Flags := (BitVec.ofNat 64 r.1, r.2)

/-- ROUNDING INSTRUCTIONS (R279, R280, R283, R284): sources, destination and, under the rounding mode `rm`, the result and its
flags. -/
inductive Rounded (rm : Nat) : Instr → List Opnd → GReg → (Got → Word × Flags) → Prop
  | fadd d a b p : Rounded rm (.fadd d a b p) [.g a, .g b] d fun g => enc (addVal (precFmt p) rm (src p g 0) (src p g 1))
  | fsub d a b p : Rounded rm (.fsub d a b p) [.g a, .g b] d fun g => enc (addVal (precFmt p) rm (src p g 0) (src p g 1).neg)
  | fmul d a b p : Rounded rm (.fmul d a b p) [.g a, .g b] d fun g => enc (mulVal (precFmt p) rm (src p g 0) (src p g 1))
  | fdiv d a b p : Rounded rm (.fdiv d a b p) [.g a, .g b] d fun g => enc (divVal (precFmt p) rm (src p g 0) (src p g 1))
  | fsqrt d a p : Rounded rm (.fsqrt d a p) [.g a] d fun g => enc (sqrtVal (precFmt p) rm (src p g 0))
  | fma d a b c p : Rounded rm (.fma d a b c p) [.g a, .g b, .g c] d fun g =>
      enc (fmaVal (precFmt p) rm (src p g 0) (src p g 1) (src p g 2))
  | fms d a b c p : Rounded rm (.fms d a b c p) [.g a, .g b, .g c] d fun g =>
      enc (fmaVal (precFmt p) rm (src p g 0) (src p g 1) (src p g 2).neg)
  | fnma d a b c p : Rounded rm (.fnma d a b c p) [.g a, .g b, .g c] d fun g =>
      enc (fmaVal (precFmt p) rm (src p g 0).neg (src p g 1) (src p g 2).neg)
  | fnms d a b c p : Rounded rm (.fnms d a b c p) [.g a, .g b, .g c] d fun g =>
      enc (fmaVal (precFmt p) rm (src p g 0).neg (src p g 1) (src p g 2))
  | fcvtI d a (ty : IntTy) p (h : ty ≠ .n8) : Rounded rm (.fcvtI d a ty p) [.g a] d fun g =>
      let w := match ty with | .i64 => 64 | .i32 => 32 | .i16 => 16 | .i8 => 8 | .n8 => 0
      let r := toInt rm (-(2 ^ (w - 1) : Int)) (2 ^ (w - 1) - 1) (src p g 0)
      (BitVec.ofInt 64 r.1, r.2)
  | fcvtN d a p : Rounded rm (.fcvtI d a .n8 p) [.g a] d fun g =>
      let r := toInt rm 0 255 (src p g 0)
      (BitVec.ofInt 64 r.1, r.2)
  | fcvtF64 d a p : Rounded rm (.fcvtF d a .i64 p) [.g a] d fun g => enc (ofInt (precFmt p) rm (g.w 0).toInt)
  | fcvtF32 d a p : Rounded rm (.fcvtF d a .i32 p) [.g a] d fun g => enc (ofInt (precFmt p) rm ((g.w 0).extractLsb' 0 32).toInt)
  | fcvtF16 d a p : Rounded rm (.fcvtF d a .i16 p) [.g a] d fun g => enc (ofInt (precFmt p) rm ((g.w 0).extractLsb' 0 16).toInt)
  | fcvtF8 d a p : Rounded rm (.fcvtF d a .i8 p) [.g a] d fun g => enc (ofInt (precFmt p) rm ((g.w 0).extractLsb' 0 8).toInt)
  | fcvtFn d a p : Rounded rm (.fcvtF d a .n8 p) [.g a] d fun g => enc (ofInt (precFmt p) rm ((g.w 0).extractLsb' 0 8).toNat)
  | fcvtFf d a q p : Rounded rm (.fcvtFf d a q p) [.g a] d fun g => enc (roundVal (precFmt p) rm false (src q g 0))

/-- The value of a comparison of two values (R76, R281): 0 for any NaN, with NV for any NaN when `loud`, else for a signalling one. -/
def compared (loud : Bool) (x y : Val) (holds : Prop) [Decidable holds] : Word × Flags :=
  if x.isNan = true ∨ y.isNan = true then
    (0, if loud = true ∨ x.isSig = true ∨ y.isSig = true then flNV else 0)
  else (if holds then 1 else 0, 0)

/-- INSTRUCTIONS THAT DO NOT ROUND (R281): the comparisons and the extremes. -/
inductive Unrounded : Instr → List Opnd → GReg → (Got → Word × Flags) → Prop
  | fmin d a b p : Unrounded (.fmin d a b p) [.g a, .g b] d fun g =>
      enc (minMax (precFmt p) false ((g.w 0).toNat % 2 ^ (precFmt p).width) ((g.w 1).toNat % 2 ^ (precFmt p).width))
  | fmax d a b p : Unrounded (.fmax d a b p) [.g a, .g b] d fun g =>
      enc (minMax (precFmt p) true ((g.w 0).toNat % 2 ^ (precFmt p).width) ((g.w 1).toNat % 2 ^ (precFmt p).width))
  | feq d a b p : Unrounded (.feq d a b p) [.g a, .g b] d fun g =>
      compared false (src p g 0) (src p g 1) (cmpVal (src p g 0) (src p g 1) = .eq)
  | flt d a b p : Unrounded (.flt d a b p) [.g a, .g b] d fun g =>
      compared true (src p g 0) (src p g 1) (cmpVal (src p g 0) (src p g 1) = .lt)
  | fle d a b p : Unrounded (.fle d a b p) [.g a, .g b] d fun g =>
      compared true (src p g 0) (src p g 1) (cmpVal (src p g 0) (src p g 1) ≠ .gt)

/-- The class bits of FCLASS (R281): sign `n`, exponent field `e` and mantissa `m` of an encoding. -/
def classBit (f : FFmt) (n : Bool) (e m : Nat) : Nat :=
  if e = 2 ^ f.eb - 1 then
    if m = 0 then (if n then 0 else 7) else if m < 2 ^ (f.mb - 1) then 8 else 9
  else if e = 0 then
    if m = 0 then (if n then 3 else 4) else if n then 2 else 5
  else if n then 1 else 6

/-- OPERATIONS ON BITS (R282) and FCLASS: the result `r` for the sources x and y. `w` is the width of the precision. -/
inductive OnBits : Instr → List Opnd → GReg → (Word → Word → Word → Prop) → Prop
  | fsgnj d a b p : OnBits (.fsgnj d a b p) [.g a, .g b] d fun x y r => let w := (precFmt p).width
      ∀ i, r.getLsbD i = if i < w - 1 then x.getLsbD i else if i = w - 1 then y.getLsbD i else false
  | fsgnjn d a b p : OnBits (.fsgnjn d a b p) [.g a, .g b] d fun x y r => let w := (precFmt p).width
      ∀ i, r.getLsbD i = if i < w - 1 then x.getLsbD i else if i = w - 1 then !y.getLsbD i else false
  | fsgnjx d a b p : OnBits (.fsgnjx d a b p) [.g a, .g b] d fun x y r => let w := (precFmt p).width
      ∀ i, r.getLsbD i = if i < w - 1 then x.getLsbD i else if i = w - 1 then xor (x.getLsbD i) (y.getLsbD i) else false
  | fmv d a p : OnBits (.fmv d a p) [.g a] d fun x _ r =>
      ∀ i, r.getLsbD i = if i < (precFmt p).width then x.getLsbD i else false
  | fclass d a p : OnBits (.fclass d a p) [.g a] d fun x _ r => let f := precFmt p
      r = BitVec.ofNat 64 (2 ^ classBit f (x.getLsbD (f.eb + f.mb)) (x.toNat / 2 ^ f.mb % 2 ^ f.eb) (x.toNat % 2 ^ f.mb))

end Sys2Proof.Spec

/-- R279, R280, R283, R284, R83: the rounding instructions complete with the rounded result and its flags when FRM.RM is not
reserved, and take the illegal-instruction fault when it is. -/
def Obligations.FloatingPointArithmetic : Prop :=
  ∀ (i : Instr) (s : State) (srcs : List Opnd) (d : GReg) (f : Got → Word × Flags) (g : Got),
    Rounded ((me s).frm.toNat % 8) i srcs d f → Ready s srcs [d] g →
    ((me s).frm.toNat % 8 ≤ 4 → (me s).st = .active →
      ∃ t, exec i s = .next t ∧ CompletesG s t g d (f g).1 (f g).2 ((me s).pc + 4))
    ∧ (4 < (me s).frm.toNat % 8 → exec i s = .next (freeze s 0x01 0))

/-- R281: comparisons and extremes do not round, and complete under every FRM. -/
def Sys2Proof.Spec.FloatingPointComparisons : Prop :=
  ∀ (i : Instr) (s : State) (srcs : List Opnd) (d : GReg) (f : Got → Word × Flags) (g : Got),
    Unrounded i srcs d f → (me s).st = .active → Ready s srcs [d] g →
    ∃ t, exec i s = .next t ∧ CompletesG s t g d (f g).1 (f g).2 ((me s).pc + 4)

/-- R281, R282: sign operations, FMV and FCLASS act on bits and raise no flag. -/
def Sys2Proof.Spec.FloatingPointBits : Prop :=
  ∀ (i : Instr) (s : State) (srcs : List Opnd) (d : GReg) (p : Word → Word → Word → Prop) (g : Got),
    OnBits i srcs d p → (me s).st = .active → Ready s srcs [d] g →
    ∃ t r, exec i s = .next t ∧ CompletesG s t g d r 0 ((me s).pc + 4) ∧ p (g.w 0) (g.w 1) r

/-- R72, R73: rounding an exact magnitude to a whole number of units: the nearest for RNE and RNA, with ties to even and away
from zero; toward zero for RTZ; downwards for RDN and upwards for RUP. The magnitude is m of which 2^n make one unit. -/
def Sys2Proof.Spec.RoundingDirections : Prop :=
  ∀ (rm m n : Nat) (e : Int) (neg : Bool), rm ≤ 4 →
    let r := roundAt rm neg { m := m, e := e } (e + n)
    let k := r.1
    (r.2 = true ↔ m % 2 ^ n ≠ 0)
    ∧ k * 2 ^ n < m + 2 ^ n ∧ m < k * 2 ^ n + 2 ^ n
    ∧ (rm = 0 → 2 * m ≤ 2 * (k * 2 ^ n) + 2 ^ n ∧ 2 * (k * 2 ^ n) ≤ 2 * m + 2 ^ n
        ∧ (2 * m = 2 * (k * 2 ^ n) + 2 ^ n ∨ 2 * (k * 2 ^ n) = 2 * m + 2 ^ n → k % 2 = 0))
    ∧ (rm = 4 → 2 * m < 2 * (k * 2 ^ n) + 2 ^ n ∧ 2 * (k * 2 ^ n) ≤ 2 * m + 2 ^ n)
    ∧ (rm = 1 ∨ (rm = 2 ∧ neg = false) ∨ (rm = 3 ∧ neg = true) → k * 2 ^ n ≤ m)
    ∧ ((rm = 2 ∧ neg = true) ∨ (rm = 3 ∧ neg = false) → m ≤ k * 2 ^ n)

/-- R65, R73: rounding the value of a finite encoding into its own format gives the encoding back, without a flag, under
every rounding mode. -/
def Sys2Proof.Spec.RepresentableValuesKept : Prop :=
  ∀ (f : FFmt) (rm : Nat) (nsat neg : Bool) (code : Nat), code ≤ f.maxCode →
    roundVal f rm nsat (valOf f (f.signCode neg + code)) = (f.signCode neg + code, 0)

namespace Sys2Proof.Spec

/-! ### Vector lanes (R316 to R335) -/

/-- Lane `i` of the source `k`, lanes of width `w` (R316). -/
def ln (w : Nat) (g : Got) (k i : Nat) : BitVec w := (g.v k).extractLsb' (w * i) w
/-- Its value as a float of the lane type. -/
def fv (ty : VTy) (g : Got) (k i : Nat) : Val := valOf (vFmt ty) (ln ty.width g k i).toNat
/-- Whether a comparison of integers holds, as the smaller and the larger. -/
def smaller {w : Nat} (x y : BitVec w) : BitVec w := if y.toInt < x.toInt then y else x
def larger {w : Nat} (x y : BitVec w) : BitVec w := if x.toInt < y.toInt then y else x

/-- LANE RESULTS (R318, R319, R321, R325, R328, R335): for an instruction, its destination, its sources in read order, its mask
register, the width of its lanes, whether it rounds by FRM.RM, and the result and flags of lane `i`. `rm` is the rounding mode. -/
inductive LaneResult (rm : Nat) (nsat : Bool) : Instr → VReg → List VReg → MReg → Nat → Bool → (Got → Nat → Nat × Flags) → Prop
  | vaddF d a b m ty (h : ty.isF = true) : LaneResult rm nsat (.vadd d a b m ty) d [a, b] m ty.width true
      fun g i => addVal (vFmt ty) rm (fv ty g 0 i) (fv ty g 1 i)
  | vaddI d a b m ty (h : ty.isI = true) : LaneResult rm nsat (.vadd d a b m ty) d [a, b] m ty.width false
      fun g i => ((ln ty.width g 0 i + ln ty.width g 1 i).toNat, 0)
  | vsubF d a b m ty (h : ty.isF = true) : LaneResult rm nsat (.vsub d a b m ty) d [a, b] m ty.width true
      fun g i => addVal (vFmt ty) rm (fv ty g 0 i) (fv ty g 1 i).neg
  | vsubI d a b m ty (h : ty.isI = true) : LaneResult rm nsat (.vsub d a b m ty) d [a, b] m ty.width false
      fun g i => ((ln ty.width g 0 i - ln ty.width g 1 i).toNat, 0)
  | vmulF d a b m ty (h : ty.isF = true) : LaneResult rm nsat (.vmul d a b m ty) d [a, b] m ty.width true
      fun g i => mulVal (vFmt ty) rm (fv ty g 0 i) (fv ty g 1 i)
  | vmulI d a b m ty (h : ty.isI = true) : LaneResult rm nsat (.vmul d a b m ty) d [a, b] m ty.width false
      fun g i => ((ln ty.width g 0 i * ln ty.width g 1 i).toNat, 0)
  | vfmaF d a b c m ty (h : ty.isF = true) : LaneResult rm nsat (.vfma d a b c m ty) d [a, b, c] m ty.width true
      fun g i => fmaVal (vFmt ty) rm (fv ty g 0 i) (fv ty g 1 i) (fv ty g 2 i)
  | vfmaI d a b c m ty (h : ty.isI = true) : LaneResult rm nsat (.vfma d a b c m ty) d [a, b, c] m ty.width false
      fun g i => ((ln ty.width g 0 i * ln ty.width g 1 i + ln ty.width g 2 i).toNat, 0)
  | vfmsF d a b c m ty (h : ty.isF = true) : LaneResult rm nsat (.vfms d a b c m ty) d [a, b, c] m ty.width true
      fun g i => fmaVal (vFmt ty) rm (fv ty g 0 i) (fv ty g 1 i) (fv ty g 2 i).neg
  | vfmsI d a b c m ty (h : ty.isI = true) : LaneResult rm nsat (.vfms d a b c m ty) d [a, b, c] m ty.width false
      fun g i => ((ln ty.width g 0 i * ln ty.width g 1 i - ln ty.width g 2 i).toNat, 0)
  | vfnmaF d a b c m ty (h : ty.isF = true) : LaneResult rm nsat (.vfnma d a b c m ty) d [a, b, c] m ty.width true
      fun g i => fmaVal (vFmt ty) rm (fv ty g 0 i).neg (fv ty g 1 i) (fv ty g 2 i).neg
  | vfnmaI d a b c m ty (h : ty.isI = true) : LaneResult rm nsat (.vfnma d a b c m ty) d [a, b, c] m ty.width false
      fun g i => ((-(ln ty.width g 0 i * ln ty.width g 1 i) - ln ty.width g 2 i).toNat, 0)
  | vminF d a b m ty (h : ty.isF = true) : LaneResult rm nsat (.vmin d a b m ty) d [a, b] m ty.width false
      fun g i => minMax (vFmt ty) false (ln ty.width g 0 i).toNat (ln ty.width g 1 i).toNat
  | vminI d a b m ty (h : ty.isI = true) : LaneResult rm nsat (.vmin d a b m ty) d [a, b] m ty.width false
      fun g i => ((smaller (ln ty.width g 0 i) (ln ty.width g 1 i)).toNat, 0)
  | vmaxF d a b m ty (h : ty.isF = true) : LaneResult rm nsat (.vmax d a b m ty) d [a, b] m ty.width false
      fun g i => minMax (vFmt ty) true (ln ty.width g 0 i).toNat (ln ty.width g 1 i).toNat
  | vmaxI d a b m ty (h : ty.isI = true) : LaneResult rm nsat (.vmax d a b m ty) d [a, b] m ty.width false
      fun g i => ((larger (ln ty.width g 0 i) (ln ty.width g 1 i)).toNat, 0)
  | vabsI d a m ty (h : ty.isI = true) : LaneResult rm nsat (.vabs d a m ty) d [a] m ty.width false
      fun g i => ((if (ln ty.width g 0 i).toInt < 0 then -ln ty.width g 0 i else ln ty.width g 0 i).toNat, 0)
  | vabsF d a m ty (h : ty.isI = false) : LaneResult rm nsat (.vabs d a m ty) d [a] m ty.width false
      fun g i => ((ln ty.width g 0 i).toNat % 2 ^ (ty.width - 1), 0)
  | vnegI d a m ty (h : ty.isI = true) : LaneResult rm nsat (.vneg d a m ty) d [a] m ty.width false
      fun g i => ((-ln ty.width g 0 i).toNat, 0)
  | vnegF d a m ty (h : ty.isI = false) : LaneResult rm nsat (.vneg d a m ty) d [a] m ty.width false
      fun g i => ((ln ty.width g 0 i ^^^ BitVec.twoPow ty.width (ty.width - 1)).toNat, 0)
  | vand d a b m ty : LaneResult rm nsat (.vand d a b m ty) d [a, b] m ty.width false
      fun g i => ((ln ty.width g 0 i &&& ln ty.width g 1 i).toNat, 0)
  | vor d a b m ty : LaneResult rm nsat (.vor d a b m ty) d [a, b] m ty.width false
      fun g i => ((ln ty.width g 0 i ||| ln ty.width g 1 i).toNat, 0)
  | vxor d a b m ty : LaneResult rm nsat (.vxor d a b m ty) d [a, b] m ty.width false
      fun g i => ((ln ty.width g 0 i ^^^ ln ty.width g 1 i).toNat, 0)
  | vsll d a b m ty : LaneResult rm nsat (.vsll d a b m ty) d [a, b] m ty.width false
      fun g i => ((ln ty.width g 0 i <<< ((ln ty.width g 1 i).toNat % ty.width)).toNat, 0)
  | vsrl d a b m ty : LaneResult rm nsat (.vsrl d a b m ty) d [a, b] m ty.width false
      fun g i => ((ln ty.width g 0 i >>> ((ln ty.width g 1 i).toNat % ty.width)).toNat, 0)
  | vsra d a b m ty : LaneResult rm nsat (.vsra d a b m ty) d [a, b] m ty.width false
      fun g i => (((ln ty.width g 0 i).sshiftRight ((ln ty.width g 1 i).toNat % ty.width)).toNat, 0)
  | vexp2 d a m : LaneResult rm nsat (.vexp2 d a m .f32) d [a] m 32 false fun g i => vexp2 (ln 32 g 0 i).toNat
  | vlog2 d a m : LaneResult rm nsat (.vlog2 d a m .f32) d [a] m 32 false fun g i => vlog2 (ln 32 g 0 i).toNat
  | vrcp d a m : LaneResult rm nsat (.vrcp d a m .f32) d [a] m 32 false fun g i => vrcp (ln 32 g 0 i).toNat
  | vrsq d a m : LaneResult rm nsat (.vrsq d a m .f32) d [a] m 32 false fun g i => vrsq (ln 32 g 0 i).toNat
  | vsqrt d a m : LaneResult rm nsat (.vsqrt d a m .f32) d [a] m 32 true fun g i => sqrtVal .fp32 rm (fv .f32 g 0 i)
  | vdiv d a b m : LaneResult rm nsat (.vdiv d a b m .f32) d [a, b] m 32 true
      fun g i => divVal .fp32 rm (fv .f32 g 0 i) (fv .f32 g 1 i)
  | vcvt d a part c m ty : LaneResult rm nsat (.vcvt d a true part c m ty) d [a] m ty.width true
      fun g i => cvt (pAny c) (vAny ty) rm nsat ((g.v 0).extractLsb' (c.width * (512 / ty.width * part.toNat + i)) c.width).toNat
  | vclmpF d a b c m ty (h : ty.isF = true) : LaneResult rm nsat (.vclmp d a b c m ty) d [a, b, c] m ty.width false
      fun g i => let p := minMax (vFmt ty) true (ln ty.width g 0 i).toNat (ln ty.width g 1 i).toNat
        let q := minMax (vFmt ty) false p.1 (ln ty.width g 2 i).toNat
        (q.1, p.2 ||| q.2)
  | vclmpI d a b c m ty (h : ty.isI = true) : LaneResult rm nsat (.vclmp d a b c m ty) d [a, b, c] m ty.width false
      fun g i => ((smaller (larger (ln ty.width g 0 i) (ln ty.width g 1 i)) (ln ty.width g 2 i)).toNat, 0)
  | vscl d a b m ty : LaneResult rm nsat (.vscl d a b m ty) d [a, b] m ty.width true
      fun g i => roundVal (vFmt ty) rm false ((fv ty g 0 i).scale (ln ty.width g 1 i).toInt)
  | vmov d a m ty : LaneResult rm nsat (.vmov d a m ty) d [a] m ty.width false fun g i => ((ln ty.width g 0 i).toNat, 0)
  | vbcst d a m ty : LaneResult rm nsat (.vbcst d a m ty) d [a] m ty.width false fun g _ => ((ln ty.width g 0 0).toNat, 0)
  | vshuf d a b m ty : LaneResult rm nsat (.vshuf d a b m ty) d [a, b] m ty.width false
      fun g i => ((ln ty.width g 0 ((ln ty.width g 1 i).toNat % (512 / ty.width))).toNat, 0)
  | vrotl d a b m ty : LaneResult rm nsat (.vrotl d a b m ty) d [a, b] m ty.width false
      fun g i => let n := (ln ty.width g 1 0).toNat % (512 / ty.width)
        ((ln ty.width g 0 (if n ≤ i then i - n else i + 512 / ty.width - n)).toNat, 0)
  | vext d a b c m ty : LaneResult rm nsat (.vext d a b c m ty) d [a, b, c] m ty.width false
      fun g i => (((g.v 1 ++ g.v 0).extractLsb' (ty.width * (i + (ln ty.width g 2 0).toNat % (512 / ty.width))) ty.width).toNat, 0)
  | vdotI d a b c m ty (h : ty.isI = true) : LaneResult rm nsat (.vdot d a b c m ty) d [a, b, c] m 32 false
      fun g j => let k := 32 / ty.width
        ((BitVec.ofInt 32 (((List.range k).map fun i => (ln ty.width g 0 (k * j + i)).toInt * (ln ty.width g 1 (k * j + i)).toInt).sum
          + (ln 32 g 2 j).toInt)).toNat, 0)
  | vdotF d a b c m ty (h : ty.isI = false) : LaneResult rm nsat (.vdot d a b c m ty) d [a, b, c] m 32 true
      fun g j => let k := 32 / ty.width
        dotFloat (vFmt ty) rm ((List.range k).map fun i => (ln ty.width g 0 (k * j + i)).toNat)
          ((List.range k).map fun i => (ln ty.width g 1 (k * j + i)).toNat) (ln 32 g 2 j).toNat

/-- The mask that an instruction names (R317): m0 reads all ones. -/
def mask (s : State) (m : MReg) (l : Nat) : Bool := (mReg (me s) m.toNat).getLsbD l

/-- A node of the reduction tree (R329): nodes of level 0 are the participating lanes. -/
def node (op : Nat → Nat → Nat × Flags) (leaf : Nat → Option Nat) : Nat → Nat → Option Nat × Flags
  | 0, i => (leaf i, 0)
  | k + 1, i =>
    let x := node op leaf k (2 * i)
    let y := node op leaf k (2 * i + 1)
    match x.1, y.1 with
    | some a, some b => (some (op a b).1, (op a b).2 ||| (x.2 ||| y.2))
    | some a, none => (some a, x.2 ||| y.2)
    | none, r => (r, x.2 ||| y.2)

/-- A float reduction: its operation and what an absent root gives. -/
inductive Reduces (rm : Nat) (f : FFmt) : Instr → VReg → VReg → MReg → VTy → Bool → (Nat → Nat → Nat × Flags) → Nat → Prop
  | vradd d a m ty : Reduces rm f (.vradd d a m ty) d a m ty true (fun x y => addVal f rm (valOf f x) (valOf f y)) 0
  | vrmax d a m ty : Reduces rm f (.vrmax d a m ty) d a m ty false (fun x y => minMax f true x y) (f.signCode true + f.infCode)
  | vrmin d a m ty : Reduces rm f (.vrmin d a m ty) d a m ty false (fun x y => minMax f false x y) f.infCode

/-- An integer reduction: the width of its result and the result of the participating lanes in order. -/
inductive ReducesInt : Instr → VReg → VReg → MReg → VTy → (List Int → Int) → Nat → Prop
  | vradd d a m ty : ReducesInt (.vradd d a m ty) d a m ty List.sum 32
  | vrmax d a m ty : ReducesInt (.vrmax d a m ty) d a m ty (fun xs => xs.foldl max (-(2 ^ (ty.width - 1) : Int))) ty.width
  | vrmin d a m ty : ReducesInt (.vrmin d a m ty) d a m ty (fun xs => xs.foldl min (2 ^ (ty.width - 1) - 1 : Int)) ty.width

/-- The running sum of VSCANA before lane `n` (R330). -/
def running (add : Nat → Nat → Nat × Flags) (x : Nat → Nat) (on : Nat → Bool) (c : Nat) : Nat → Nat
  | 0 => c
  | n + 1 => if on n then (add (running add x on c n) (x n)).1 else running add x on c n

/-- The flags of lanes: a flag is set when an active lane sets it (R317). -/
def FlagsOf (fl : Flags) (n : Nat) (on : Nat → Bool) (f : Nat → Flags) : Prop :=
  ∀ b, fl.getLsbD b = true ↔ ∃ l, l < n ∧ on l = true ∧ (f l).getLsbD b = true

/-- Bit of a VCMP lane (R326). -/
inductive Compares (ty : VTy) (x y : BitVec ty.width) : VCond → Bool → Flags → Prop
  | eqI (h : ty.isI = true) : Compares ty x y .eq (decide (x = y)) 0
  | neI (h : ty.isI = true) : Compares ty x y .ne (decide (x ≠ y)) 0
  | ltI (h : ty.isI = true) : Compares ty x y .lt (decide (x.toInt < y.toInt)) 0
  | leI (h : ty.isI = true) : Compares ty x y .le (decide (x.toInt ≤ y.toInt)) 0
  | ltu (h : ty.isI = true) : Compares ty x y .ltu (decide (x.toNat < y.toNat)) 0
  | leu (h : ty.isI = true) : Compares ty x y .leu (decide (x.toNat ≤ y.toNat)) 0
  | eqF (h : ty.isI = false) : Compares ty x y .eq
      (!(valOf (vFmt ty) x.toNat).isNan && !(valOf (vFmt ty) y.toNat).isNan
        && decide (cmpVal (valOf (vFmt ty) x.toNat) (valOf (vFmt ty) y.toNat) = .eq))
      (if (valOf (vFmt ty) x.toNat).isSig || (valOf (vFmt ty) y.toNat).isSig then flNV else 0)
  | neF (h : ty.isI = false) : Compares ty x y .ne
      ((valOf (vFmt ty) x.toNat).isNan || (valOf (vFmt ty) y.toNat).isNan
        || decide (cmpVal (valOf (vFmt ty) x.toNat) (valOf (vFmt ty) y.toNat) ≠ .eq))
      (if (valOf (vFmt ty) x.toNat).isSig || (valOf (vFmt ty) y.toNat).isSig then flNV else 0)
  | ltF (h : ty.isI = false) : Compares ty x y .lt
      (!(valOf (vFmt ty) x.toNat).isNan && !(valOf (vFmt ty) y.toNat).isNan
        && decide (cmpVal (valOf (vFmt ty) x.toNat) (valOf (vFmt ty) y.toNat) = .lt))
      (if (valOf (vFmt ty) x.toNat).isNan || (valOf (vFmt ty) y.toNat).isNan then flNV else 0)
  | leF (h : ty.isI = false) : Compares ty x y .le
      (!(valOf (vFmt ty) x.toNat).isNan && !(valOf (vFmt ty) y.toNat).isNan
        && decide (cmpVal (valOf (vFmt ty) x.toNat) (valOf (vFmt ty) y.toNat) ≠ .gt))
      (if (valOf (vFmt ty) x.toNat).isNan || (valOf (vFmt ty) y.toNat).isNan then flNV else 0)

/-- Elements `e` of width `w` stand in part `p` of `v`, `n` to a part, and every other bit of `v` is that of `o` (R321). -/
def PartOf (w n p : Nat) (o v : V512) (e : Nat → Nat) : Prop :=
  (∀ l, l < n → v.extractLsb' (w * (n * p + l)) w = BitVec.ofNat w (e l))
    ∧ ∀ b, b < w * n * p ∨ w * n * (p + 1) ≤ b → v.getLsbD b = o.getLsbD b

/-- The LFSR before element `n` of a stochastic pack, and the element's result (R77, R322). -/
def lfsrAt (f : FFmt) (nsat : Bool) (on : Nat → Bool) (x : Nat → Val) (l : BitVec 32) : Nat → BitVec 32
  | 0 => l
  | n + 1 => if on n then (sroundVal f nsat (x n) (lfsrAt f nsat on x l n)).2.2 else lfsrAt f nsat on x l n

end Sys2Proof.Spec

/-- R316 to R319, R321, R325, R328, R335: the lane operations. Each active lane holds its result, each other lane the merge
operand; flags come from active lanes alone; a rounding instruction takes the illegal-instruction fault under a reserved mode. -/
def Obligations.VectorLanes : Prop :=
  ∀ (i : Instr) (s : State) (d : VReg) (srcs : List VReg) (m : MReg) (w : Nat) (rounds : Bool) (f : Got → Nat → Nat × Flags) (g : Got),
    LaneResult ((me s).frm.toNat % 8) ((me s).frm.getLsbD 5) i d srcs m w rounds f →
    Ready s (srcs.map .v ++ if m = 0 then [] else [.v d]) [] g →
    ((me s).st = .active → (rounds = true → (me s).frm.toNat % 8 ≤ 4) →
      ∃ t v fl, exec i s = .next t ∧ CompletesV s t g d v fl ((me s).pc + 4)
        ∧ (∀ l, l < 512 / w → v.extractLsb' (w * l) w =
            if mask s m l then BitVec.ofNat w (f g l).1 else (g.v srcs.length).extractLsb' (w * l) w)
        ∧ FlagsOf fl (512 / w) (mask s m) fun l => (f g l).2)
    ∧ (rounds = true → 4 < (me s).frm.toNat % 8 → exec i s = .next (freeze s 0x01 0))

/-- R326, R261: VCMP writes the mask of the lanes that are active and compare as named; a write to m0 is discarded. -/
def Sys2Proof.Spec.VectorCompare : Prop :=
  ∀ (s : State) (k m : MReg) (a b : VReg) (cond : VCond) (ty : VTy) (g : Got) (c : Nat → Bool) (f : Nat → Flags),
    wellFormed (.vcmp k a b cond m ty) = true → (me s).st = .active → Ready s [.v a, .v b] [] g → NoPoison g →
    (∀ l, l < 512 / ty.width → Compares ty (ln ty.width g 0 l) (ln ty.width g 1 l) cond (c l) (f l)) →
    ∃ t x fl, exec (.vcmp k a b cond m ty) s = .next t
      ∧ Completes s t g { setMReg (me s) k.toNat x with fflg := (me s).fflg ||| fl } [] [] ((me s).pc + 4)
      ∧ (∀ l, x.getLsbD l = (decide (l < 512 / ty.width) && mask s m l && c l))
      ∧ FlagsOf fl (512 / ty.width) (mask s m) f

/-- R327, R332, R331: VSEL selects lanes, VINS replaces one, VZIP and VUNZIP write a pair. None of them raises a flag. -/
def Sys2Proof.Spec.VectorPlacement : Prop :=
  ∀ (s : State) (d a b : VReg) (m : MReg) (ty : VTy) (g : Got), (me s).st = .active →
    let w := ty.width
    let n := 512 / w
    (Ready s [.v a, .v b] [] g → ∃ t v, exec (.vsel d a b m ty) s = .next t ∧ CompletesV s t g d v 0 ((me s).pc + 4)
      ∧ ∀ l, l < n → v.extractLsb' (w * l) w = if mask s m l then ln w g 0 l else ln w g 1 l)
    ∧ (Ready s [.v a, .v b, .v d] [] g → ∃ t v, exec (.vins d a b m ty) s = .next t ∧ CompletesV s t g d v 0 ((me s).pc + 4)
      ∧ ∀ l, l < n → v.extractLsb' (w * l) w = if l = (ln w g 1 0).toNat % n ∧ mask s m l = true then ln w g 0 0 else ln w g 2 l)
    ∧ (Ready s ([.v a, .v b] ++ if m = 0 then [] else [.v d, .v (d + 1)]) [] g →
      (∃ t lo hi, exec (.vzip d a b m ty) s = .next t
        ∧ Completes s t g (setVCell (setVCell (me s) d.toNat { val := lo, full := true, psn := g.psn }) (d + 1).toNat
            { val := hi, full := true, psn := g.psn }) [] [] ((me s).pc + 4)
        ∧ ∀ l, l < n →
          lo.extractLsb' (w * l) w = (if mask s m l then ln w g (l % 2) (l / 2) else ln w g 2 l)
          ∧ hi.extractLsb' (w * l) w = (if mask s m l then ln w g (l % 2) (l / 2 + n / 2) else ln w g 3 l))
      ∧ ∃ t lo hi, exec (.vunzip d a b m ty) s = .next t
        ∧ Completes s t g (setVCell (setVCell (me s) d.toNat { val := lo, full := true, psn := g.psn }) (d + 1).toNat
            { val := hi, full := true, psn := g.psn }) [] [] ((me s).pc + 4)
        ∧ ∀ l, l < n →
          lo.extractLsb' (w * l) w = (if mask s m l then ln w g (l / (n / 2)) (2 * (l % (n / 2))) else ln w g 2 l)
          ∧ hi.extractLsb' (w * l) w = (if mask s m l then ln w g (l / (n / 2)) (2 * (l % (n / 2)) + 1) else ln w g 3 l))

/-- R329: float reductions combine the participating lanes in the fixed tree; the result stands in lane 0, every other bit is 0. -/
def Sys2Proof.Spec.FloatReductions : Prop :=
  ∀ (i : Instr) (s : State) (d a : VReg) (m : MReg) (ty : VTy) (rounds : Bool) (op : Nat → Nat → Nat × Flags) (none : Nat) (g : Got),
    Reduces ((me s).frm.toNat % 8) (vFmt ty) i d a m ty rounds op none → ty.isF = true → Ready s [.v a] [] g →
    let root := node op (fun l => if mask s m l then some (ln ty.width g 0 l).toNat else Option.none) (Nat.log2 (512 / ty.width)) 0
    let sig := ∃ l, l < 512 / ty.width ∧ mask s m l = true ∧ (fv ty g 0 l).isSig = true
    ((me s).st = .active → (rounds = true → (me s).frm.toNat % 8 ≤ 4) →
      ∃ t fl, exec i s = .next t ∧ CompletesV s t g d (BitVec.ofNat 512 (root.1.getD none)) fl ((me s).pc + 4)
        ∧ (sig → fl = root.2 ||| flNV) ∧ (¬ sig → fl = root.2))
    ∧ (rounds = true → 4 < (me s).frm.toNat % 8 → exec i s = .next (freeze s 0x01 0))

/-- R329: integer reductions are of the signed values of the active lanes, without a flag. -/
def Sys2Proof.Spec.IntegerReductions : Prop :=
  ∀ (i : Instr) (s : State) (d a : VReg) (m : MReg) (ty : VTy) (f : List Int → Int) (w : Nat) (g : Got),
    ReducesInt i d a m ty f w → ty.isI = true → (me s).st = .active → Ready s [.v a] [] g →
    ∃ t, exec i s = .next t ∧ CompletesV s t g d
      ((BitVec.ofInt w (f (((List.range (512 / ty.width)).filter (mask s m)).map fun l => (ln ty.width g 0 l).toInt))).setWidth 512)
      0 ((me s).pc + 4)

/-- R330: VSCANA writes the running sum in active lanes, from the carry in lane L − 1 of vb. -/
def Sys2Proof.Spec.RunningSums : Prop :=
  ∀ (s : State) (d a b : VReg) (m : MReg) (ty : VTy) (g : Got), wellFormed (.vscana d a b m ty) = true →
    Ready s ([.v a, .v b] ++ if m = 0 then [] else [.v d]) [] g →
    let w := ty.width
    let n := 512 / w
    let add := fun (c x : Nat) => if ty.isF then addVal (vFmt ty) ((me s).frm.toNat % 8) (valOf (vFmt ty) c) (valOf (vFmt ty) x)
      else ((c + x) % 2 ^ w, 0)
    let at_ := running add (fun l => (ln w g 0 l).toNat) (mask s m) (ln w g 1 (n - 1)).toNat
    ((me s).st = .active → (ty.isF = true → (me s).frm.toNat % 8 ≤ 4) →
      ∃ t v fl, exec (.vscana d a b m ty) s = .next t ∧ CompletesV s t g d v fl ((me s).pc + 4)
        ∧ (∀ l, l < n → v.extractLsb' (w * l) w = if mask s m l then BitVec.ofNat w (at_ (l + 1)) else ln w g 2 l)
        ∧ FlagsOf fl n (mask s m) fun l => (add (at_ l) (ln w g 0 l).toNat).2)
    ∧ (ty.isF = true → 4 < (me s).frm.toNat % 8 → exec (.vscana d a b m ty) s = .next (freeze s 0x01 0))

/-- R333, R334: VIOTA and VMPOP count ones of a mask; VMAND, VMOR and VMNOT act on whole mask registers. -/
def Sys2Proof.Spec.MaskOperations : Prop :=
  ∀ s : State, (me s).st = .active →
    let ones := fun (m : MReg) (n : Nat) => ((List.range n).filter (mask s m)).length
    (∀ (d : VReg) (m : MReg) (ty : VTy), ∃ t v, exec (.viota d m ty) s = .next t ∧ CompletesV s t {} d v 0 ((me s).pc + 4)
      ∧ ∀ l, l < 512 / ty.width → v.extractLsb' (ty.width * l) ty.width = BitVec.ofNat ty.width (ones m l))
    ∧ (∀ (d : VReg) (m : MReg) (ty : VTy), ∃ t, exec (.vmpop d m ty) s = .next t
      ∧ CompletesV s t {} d (BitVec.ofNat 512 (ones m (512 / ty.width))) 0 ((me s).pc + 4))
    ∧ ∀ a b c : MReg,
      let x := mReg (me s) b.toNat
      let y := mReg (me s) c.toNat
      (∃ t, exec (.vmand a b c) s = .next t ∧ Completes s t {} (setMReg (me s) a.toNat (x &&& y)) [] [] ((me s).pc + 4))
      ∧ (∃ t, exec (.vmor a b c) s = .next t ∧ Completes s t {} (setMReg (me s) a.toNat (x ||| y)) [] [] ((me s).pc + 4))
      ∧ ∃ t, exec (.vmnot a b) s = .next t ∧ Completes s t {} (setMReg (me s) a.toNat (~~~x)) [] [] ((me s).pc + 4)

/-- R321, R322, R77: VCVT pack and VCVTS write the active elements of one part of vd and keep every other bit of it. -/
def Sys2Proof.Spec.Packing : Prop :=
  ∀ (s : State) (d a : VReg) (part : BitVec 3) (c : PFmt) (m : MReg) (ty : VTy) (g : Got),
    (me s).st = .active → Ready s [.v a, .v d] [] g →
    let w := ty.width
    let n := 512 / w
    let p := part.toNat
    let old := fun (l : Nat) => ((g.v 1).extractLsb' (c.width * (n * p + l)) c.width).toNat
    let rm := (me s).frm.toNat % 8
    let nsat := (me s).frm.getLsbD 5
    (wellFormed (.vcvt d a false part c m ty) = true → rm ≤ 4 →
      ∃ t v fl, exec (.vcvt d a false part c m ty) s = .next t ∧ CompletesV s t g d v fl ((me s).pc + 4)
        ∧ PartOf c.width n p (g.v 1) v (fun l =>
            if mask s m l then (cvt (vAny ty) (pAny c) rm nsat (ln w g 0 l).toNat).1 else old l)
        ∧ FlagsOf fl n (mask s m) fun l => (cvt (vAny ty) (pAny c) rm nsat (ln w g 0 l).toNat).2)
    ∧ (wellFormed (.vcvts d a part c m ty) = true →
      let lf := lfsrAt (pFmt c) nsat (mask s m) (fv ty g 0) (me s).lfsr
      ∃ t v fl, exec (.vcvts d a part c m ty) s = .next t
        ∧ Completes s t g { setVCell (me s) d.toNat { val := v, full := true, psn := g.psn } with
            fflg := (me s).fflg ||| fl, lfsr := lf n } [] [] ((me s).pc + 4)
        ∧ PartOf c.width n p (g.v 1) v (fun l =>
            if mask s m l then (sroundVal (pFmt c) nsat (fv ty g 0 l) (lf l)).1 else old l)
        ∧ FlagsOf fl n (mask s m) fun l => (sroundVal (pFmt c) nsat (fv ty g 0 l) (lf l)).2.1)

/-- R323, R324, R80: VQNT quantises a block of 32 values into a part of vd and a byte of vb; VDQNT expands one. -/
def Sys2Proof.Spec.BlockFormats : Prop :=
  ∀ (s : State) (d a b : VReg) (c : PFmt) (part : BitVec 3) (ty : VTy) (g : Got),
    (me s).st = .active → (me s).frm.toNat % 8 ≤ 4 →
    let w := ty.width
    let p := part.toNat
    let rm := (me s).frm.toNat % 8
    (wellFormed (.vqnt d a b c part ty) = true →
      Ready s (if ty = .f32 then [.v a, .v (a + 1), .v b, .v d] else [.v a, .v b, .v d]) [] g →
      let k := if ty = .f32 then 2 else 1
      let x := fun (l : Nat) => if ty = .f32 then fv ty g (l / 16) (l % 16) else fv ty g 0 l
      let q := quantise (pFmt c) rm ((me s).frm.getLsbD 5) false ((List.range 32).map x) 1
      ∃ t v y, exec (.vqnt d a b c part ty) s = .next t
        ∧ Completes s t g { setVCell (setVCell (me s) d.toNat { val := v, full := true, psn := g.psn }) b.toNat
            { val := y, full := true, psn := g.psn } with fflg := (me s).fflg ||| q.2.2.1 } [] [] ((me s).pc + 4)
        ∧ PartOf c.width 32 p (g.v (k + 1)) v (fun l => q.2.1.getD l 0)
        ∧ PartOf 8 1 p (g.v k) y (fun _ => q.1))
    ∧ (wellFormed (.vdqnt d a b c part ty) = true → Ready s [.v a, .v b] [] g →
      let x := (ln 8 g 1 p).toNat
      let e := fun (l : Nat) => if x = 0xFF then ((vFmt ty).canonNan, (0 : Flags))
        else roundVal (vFmt ty) rm false (blockVal (pFmt c) x ((g.v 0).extractLsb' (c.width * (32 * p + l)) c.width).toNat)
      ∃ t v y fl, exec (.vdqnt d a b c part ty) s = .next t
        ∧ (ty = .f32 → Completes s t g { setVCell (setVCell (me s) d.toNat { val := v, full := true, psn := g.psn }) (d + 1).toNat
            { val := y, full := true, psn := g.psn } with fflg := (me s).fflg ||| fl } [] [] ((me s).pc + 4))
        ∧ (ty ≠ .f32 → CompletesV s t g d v fl ((me s).pc + 4))
        ∧ (∀ l, l < 512 / w → v.extractLsb' (w * l) w = BitVec.ofNat w (e l).1)
        ∧ (ty = .f32 → ∀ l, l < 16 → y.extractLsb' (w * l) w = BitVec.ofNat w (e (l + 16)).1)
        ∧ FlagsOf fl 32 (fun _ => true) fun l => (e l).2)

namespace Sys2Proof.Spec

/-! ### Memory instructions (R286 to R304, R312, R313) -/

/-- The effective address of a base and a signed offset in units of `n` bytes (R292). -/
def atOffset {w : Nat} (g : Got) (off : BitVec w) (n : Nat) : Word := BitVec.ofInt 64 ((g.w 0).toInt + off.toInt * n)

/-- Bytes of a load and of a store (R293). -/
def loadSize : LdSize → Nat
  | .b | .bz => 1 | .h | .hz => 2 | .w | .wz => 4 | .d => 8
def storeSize : StSize → Nat
  | .b => 1 | .h => 2 | .w => 4 | .d => 8

/-- What a load writes, from the bytes as a number (R293). -/
def loaded (sz : LdSize) (x : Nat) : Word :=
  match sz with
  | .b => (BitVec.ofNat 8 x).signExtend 64
  | .h => (BitVec.ofNat 16 x).signExtend 64
  | .w => (BitVec.ofNat 32 x).signExtend 64
  | .bz | .hz | .wz | .d => BitVec.ofNat 64 x

/-- A part that carries the low `n` bytes of source 1, with its poison (R287). -/
def storePart (g : Got) (a : Word) (n : Nat) : Part :=
  { addr := a, size := n, data := natBytes n (g.w 1).toNat, psn := (g.xs.getD 1 {}).psn }

/-- The release that an AMO makes (R122). -/
def amoScope (ord : AmoOrd) (scope : Scope) : Option Scope :=
  match ord with
  | .rel | .ar => some scope
  | _ => none

/-- The AMOs by sub-operation (R300, R301): instruction, sub-operation, d, a, b, release, bytes. -/
inductive AmoOf : Instr → Nat → GReg → GReg → GReg → Option Scope → Nat → Prop
  | add d a b o sc w : AmoOf (.amoAdd d a b o sc w) 0 d a b (amoScope o sc) (if w then 4 else 8)
  | and d a b o sc w : AmoOf (.amoAnd d a b o sc w) 1 d a b (amoScope o sc) (if w then 4 else 8)
  | or d a b o sc w : AmoOf (.amoOr d a b o sc w) 2 d a b (amoScope o sc) (if w then 4 else 8)
  | xor d a b o sc w : AmoOf (.amoXor d a b o sc w) 3 d a b (amoScope o sc) (if w then 4 else 8)
  | min d a b o sc w : AmoOf (.amoMin d a b o sc w) 4 d a b (amoScope o sc) (if w then 4 else 8)
  | max d a b o sc w : AmoOf (.amoMax d a b o sc w) 5 d a b (amoScope o sc) (if w then 4 else 8)
  | minu d a b o sc w : AmoOf (.amoMinu d a b o sc w) 6 d a b (amoScope o sc) (if w then 4 else 8)
  | maxu d a b o sc w : AmoOf (.amoMaxu d a b o sc w) 7 d a b (amoScope o sc) (if w then 4 else 8)
  | swp d a b o sc w : AmoOf (.amoSwp d a b o sc w) 8 d a b (amoScope o sc) (if w then 4 else 8)
  | cas d a b o sc w : AmoOf (.amoCas d a b o sc w) 9 d a b (amoScope o sc) (if w then 4 else 8)
  | faddS d a b o sc : AmoOf (.amoFaddS d a b o sc) 10 d a b (amoScope o sc) 4
  | faddD d a b o sc : AmoOf (.amoFaddD d a b o sc) 11 d a b (amoScope o sc) 8

/-- The form of a load of `sz` bytes: at register nodes the sizes .w and .d alone (R286, R292). -/
def loadFormOf (sz : LdSize) : Form := match sz with | .w | .d => .load | .b | .bz | .h | .hz => .load | .wz => .loadV

/-- An access of one address: sources, destinations, form and size of R286, address, how many of the sources must carry no
poison (R289), release (R288), nud, act and part. -/
inductive Asks : Instr → List Opnd → List GReg → Form → Nat → (Got → Word) → Nat → Option Scope → Nat → (Got → Act) → (Got → Part) → Prop
  | ld t b nud sz off : Asks (.ld t b nud sz off) [.g b] [t] (loadFormOf sz) (loadSize sz) (fun g => atOffset g off (loadSize sz)) 1 none
      nud.toNat (fun _ => .load) fun g => { addr := atOffset g off (loadSize sz), size := loadSize sz }
  | ldaq t b nud sz sc off : Asks (.ldaq t b nud sz sc off) [.g b] [t] (loadFormOf sz) (loadSize sz) (fun g => atOffset g off (loadSize sz)) 1
      none nud.toNat (fun _ => .load) fun g => { addr := atOffset g off (loadSize sz), size := loadSize sz }
  | ldv t b nud off : Asks (.ldv t b nud off) [.g b] [] .loadV 64 (fun g => atOffset g off 64) 1 none nud.toNat
      (fun _ => .load) fun g => { addr := atOffset g off 64, size := 64 }
  | st t b nud sz off : Asks (.st t b nud sz off) [.g b, .g t] [] .store (storeSize sz) (fun g => atOffset g off (storeSize sz)) 1
      none nud.toNat (fun _ => .store) fun g => storePart g (atOffset g off (storeSize sz)) (storeSize sz)
  | strl t b nud sz sc off : Asks (.strl t b nud sz sc off) [.g b, .g t] [] .store (storeSize sz)
      (fun g => atOffset g off (storeSize sz)) 1 (some sc) nud.toNat (fun _ => .store)
      fun g => storePart g (atOffset g off (storeSize sz)) (storeSize sz)
  | stv t b nud off : Asks (.stv t b nud off) [.g b, .v t] [] .storeV 64 (fun g => atOffset g off 64) 1 none nud.toNat
      (fun _ => .store) fun g => { addr := atOffset g off 64, size := 64, data := natBytes 64 (g.v 1).toNat, psn := (g.xs.getD 1 {}).psn }
  | ldfe t b nud off : Asks (.ldfe t b nud off) [.g b] [t] .word 8 (fun g => atOffset g off 8) 1 none nud.toNat
      (fun _ => .fe 0) fun g => { addr := atOffset g off 8, size := 8 }
  | ldff t b nud off : Asks (.ldff t b nud off) [.g b] [t] .word 8 (fun g => atOffset g off 8) 1 none nud.toNat
      (fun _ => .fe 1) fun g => { addr := atOffset g off 8, size := 8 }
  | stef t b nud off : Asks (.stef t b nud off) [.g b, .g t] [] .word 8 (fun g => atOffset g off 8) 2 none nud.toNat
      (fun _ => .fe 2) fun g => { addr := atOffset g off 8, size := 8, data := natBytes 8 (g.w 1).toNat }
  | stff t b nud off : Asks (.stff t b nud off) [.g b, .g t] [] .word 8 (fun g => atOffset g off 8) 2 none nud.toNat
      (fun _ => .fe 3) fun g => { addr := atOffset g off 8, size := 8, data := natBytes 8 (g.w 1).toNat }
  | sete b nud off : Asks (.sete b nud off) [.g b] [] .word 8 (fun g => atOffset g off 8) 1 none nud.toNat
      (fun _ => .fe 4) fun g => { addr := atOffset g off 8, size := 8 }
  | setf b nud off : Asks (.setf b nud off) [.g b] [] .word 8 (fun g => atOffset g off 8) 1 none nud.toNat
      (fun _ => .fe 5) fun g => { addr := atOffset g off 8, size := 8 }
  | amo i sub d a b rel n (h : AmoOf i sub d a b rel n) : Asks i ([.g a, .g b] ++ if sub = 9 then [.g d] else []) [d] .amo n
      (fun g => g.w 0) 3 rel 30 (fun g => .amo sub (g.w 2)) fun g => { addr := g.w 0, size := n, data := natBytes n (g.w 1).toNat }
  | bara d a : Asks (.bara d a) [.g a] [d] .word 8 (fun g => g.w 0) 1 (some .chip) 30 (fun _ => .barrierArrive)
      fun g => { addr := g.w 0, size := 8 }
  | barw d a b : Asks (.barw d a b) [.g a, .g b] [d] .word 8 (fun g => g.w 0) 2 none 30
      (fun g => .barrierWait ((g.w 1).extractLsb' 0 32)) fun g => { addr := g.w 0, size := 8 }
  | baraw d a b : Asks (.baraw d a b) [.g a, .g b] [d] .word 8 (fun g => g.w 0) 2 (some .chip) 30
      (fun g => .barrierBoth ((g.w 1).extractLsb' 0 32)) fun g => { addr := g.w 0, size := 8 }

/-- The region that LOCK names is not touched (R422). -/
def Unlocked (s : State) (a : Word) (n : Nat) : Prop :=
  ∀ off, isLocal a = true → bufferOf (offset48 a) = some (0, off) → lockTouches (getCore s s.who.1) off n = false

/-- The release, if any, may go on: every earlier store, atomic and message of the slot in scope is performed (R288). -/
def Released (s : State) (rel : Option Scope) : Prop :=
  ∀ sc, rel = some sc → performedAll s (Machine.scopeOf s (logicalOf s s.who.1) sc) s.who.1 s.who.2 = true

/-- The first `k` sources carry no poison. -/
def Clean (g : Got) (k : Nat) : Prop := ∀ j, j < k → (g.xs.getD j {}).psn = false

/-- What a slot remembers of a request of one part: a plain store by local address is journalled at its retirement (R141). -/
def remembers (s : State) (i : Instr) (a : Word) (act : Act) (n : Nat) : Pend :=
  { instr := i, word := s.word, tag := 0, addr := a, npc := (me s).pc + 4, left := 1
    stores := if act = .store ∧ isLocal a = true then [(offset48 a, n)] else [] }

/-- An instruction of one g result has retired with a value and poison of its own. -/
def Writes (s t : State) (g : Got) (d : GReg) (v : Word) (p : Bool) : Prop :=
  Completes s t g (writeG (me s) d { val := v, full := true, psn := p }) (pushG s d v p) [] ((me s).pc + 4)

/-- No watchpoint is armed at the issuing core (R404). -/
def Unwatched (s : State) : Prop := tbit (getCore s s.who.1).watch 63 = false

/-- The lanes of GATH and SCAT that the mask makes active, with their addresses (R296). -/
def lanesOf (s : State) (g : Got) (m : MReg) (w : Nat) (sh : BitVec 2) : List (Nat × Word) :=
  ((List.range (64 / w)).filter (mask s m)).map fun i =>
    (i, BitVec.ofInt 64 ((g.w 0).toInt + ((g.v 1).extractLsb' (8 * w * i) (8 * w)).toInt * 2 ^ sh.toNat))

end Sys2Proof.Spec

/-- R115, R286 to R289, R292 to R294, R298 to R301, R312, R313: a load, store, full/empty form, atomic or barrier whose checks
pass sends one request to the node that owns its address and moves its slot to Waiting. (A load by local address from the own
local store does not: LocalLoads.) -/
def Obligations.MemoryRequests : Prop :=
  ∀ (i : Instr) (s : State) (srcs : List Opnd) (dsts : List GReg) (form : Form) (n : Nat) (ea : Got → Word) (k : Nat)
    (rel : Option Scope) (nud : Nat) (act : Got → Act) (part : Got → Part) (g : Got),
    Asks i srcs dsts form n ea k rel nud act part → (me s).st = .active → Ready s srcs dsts g → Clean g k →
    Unlocked s (ea g) n → addrCode s form (ea g) n = none → Released s rel →
    ((form = .load ∨ form = .loadV) → isOwnLs (ea g) = false) →
    ∃ t, exec i s = .next t ∧ Issued s t g (remembers s i (ea g) (act g) n)
      [.req (destOf s.who.1 (ea g)) (mkReq s s.nextTag nud (act g) [part g])]

/-- R289, R430, R431, R433: the same accesses take the fault of the first check that fails, with the address in the packet:
poison of a checked source first, then the address checks; a set bit of 55:48 gives 0x02, and a misaligned address that every
earlier check passes gives 0x03. -/
def Obligations.AccessFaults : Prop :=
  (∀ (i : Instr) (s : State) (srcs : List Opnd) (dsts : List GReg) (form : Form) (n : Nat) (ea : Got → Word) (k : Nat)
    (rel : Option Scope) (nud : Nat) (act : Got → Act) (part : Got → Part) (g : Got),
    Asks i srcs dsts form n ea k rel nud act part → Ready s srcs dsts g → Unlocked s (ea g) n →
    ((g.xs.getD 0 {}).psn = true → exec i s = .next (freeze s 0x05 (ea g)))
    ∧ ∀ c, Clean g k → addrCode s form (ea g) n = some c → exec i s = .next (freeze s c (ea g)))
  ∧ ∀ (s : State) (form : Form) (a : Word) (n : Nat),
    (bits a 55 48 ≠ 0 → addrCode s form a n = some 0x02)
    ∧ (bits a 55 48 = 0 → nodeField a ≤ 0xC0 → formCode form a n = none → a.toNat % n ≠ 0 → addrCode s form a n = some 0x03)
    ∧ (addrCode s form a n = none → a.toNat % n = 0 ∧ bits a 55 48 = 0 ∧ nodeAssigned (nodeField a) = true)

/-- R87, R287, R293, R294, R296: a load of the own local store by local address takes its bytes, lowest address lowest, in the
pipeline; its result carries the poison of the words it touches. -/
def Sys2Proof.Spec.LocalLoads : Prop :=
  ∀ (s : State) (g : Got), (me s).st = .active → Unwatched s →
    let x := (getCore s s.who.1).res
    let at_ := fun (a : Word) (n : Nat) => leNat (memBytes x.ls (offset48 a) n)
    let psn := fun (a : Word) (n : Nat) => poisonRead 8 x.lsPoison (offset48 a) n
    (∀ (t b : GReg) (nud : BitVec 5) (sz : LdSize) (off : BitVec 8), let a := atOffset g off (loadSize sz)
      Ready s [.g b] [t] g → NoPoison g → Unlocked s a (loadSize sz) → addrCode s (loadFormOf sz) a (loadSize sz) = none → isOwnLs a = true →
      ∃ u, exec (.ld t b nud sz off) s = .next u ∧ Writes s u g t (loaded sz (at_ a (loadSize sz))) (psn a (loadSize sz)))
    ∧ (∀ (t b : GReg) (nud : BitVec 5) (sz : LdSize) (sc : Scope) (off : BitVec 5), let a := atOffset g off (loadSize sz)
      Ready s [.g b] [t] g → NoPoison g → Unlocked s a (loadSize sz) → addrCode s (loadFormOf sz) a (loadSize sz) = none → isOwnLs a = true →
      ∃ u, exec (.ldaq t b nud sz sc off) s = .next u ∧ Writes s u g t (loaded sz (at_ a (loadSize sz))) (psn a (loadSize sz)))
    ∧ (∀ (t : VReg) (b : GReg) (nud : BitVec 5) (off : BitVec 8), let a := atOffset g off 64
      Ready s [.g b] [] g → NoPoison g → Unlocked s a 64 → addrCode s .loadV a 64 = none → isOwnLs a = true →
      ∃ u, exec (.ldv t b nud off) s = .next u ∧ Completes s u g
        (setVCell (me s) t.toNat { val := BitVec.ofNat 512 (at_ a 64), full := true, psn := psn a 64 }) [] [] ((me s).pc + 4))
    ∧ (∀ (d : VReg) (a : GReg) (b : VReg) (m : MReg) (dword : Bool) (sh : BitVec 2) (nud : BitVec 5),
      let w := if dword then 8 else 4
      Ready s [.g a, .v b] [] g → NoPoison g →
      (∀ e ∈ lanesOf s g m w sh, Unlocked s e.2 w ∧ addrCode s .loadV e.2 w = none ∧ isOwnLs e.2 = true) →
      ∃ u v, exec (.gath d a b m dword sh nud) s = .next u ∧ Completes s u g
        (setVCell (me s) d.toNat { val := v, full := true, psn := (lanesOf s g m w sh).any fun e => psn e.2 w }) [] [] ((me s).pc + 4)
        ∧ (∀ e ∈ lanesOf s g m w sh, v.extractLsb' (8 * w * e.1) (8 * w) = BitVec.ofNat (8 * w) (at_ e.2 w))
        ∧ ∀ l, l < 64 / w → mask s m l = false → v.extractLsb' (8 * w * l) (8 * w) = 0)

/-- R296, R297, R437: GATH with a lane outside the own local store, and SCAT, send one request for each destination; SCAT of no
lane retires at once; STSB sends the element to the bytes that hold it. -/
def Sys2Proof.Spec.SeveralPartAccesses : Prop :=
  ∀ (s : State) (g : Got), (me s).st = .active →
    (∀ (d : VReg) (a : GReg) (b : VReg) (m : MReg) (dword : Bool) (sh : BitVec 2) (nud : BitVec 5),
      let w := if dword then 8 else 4
      let ls := lanesOf s g m w sh
      let ps := ls.map fun e => ({ addr := e.2, size := w, lane := e.1 } : Part)
      Ready s [.g a, .v b] [] g → NoPoison g → (∀ e ∈ ls, Unlocked s e.2 w ∧ addrCode s .loadV e.2 w = none) →
      (∃ e ∈ ls, isOwnLs e.2 = false) →
      ∃ t, exec (.gath d a b m dword sh nud) s = .next t ∧ Issued s t g
        { instr := .gath d a b m dword sh nud, word := s.word, tag := 0, addr := (ls.map Prod.snd).headD 0, npc := (me s).pc + 4
          left := ls.length } (requestsOf s nud.toNat .load ps))
    ∧ (∀ (d : VReg) (a : GReg) (b : VReg) (m : MReg) (dword : Bool) (sh : BitVec 2) (nud : BitVec 5),
      let w := if dword then 8 else 4
      let ls := lanesOf s g m w sh
      let ps := ls.map fun e => ({ addr := e.2, size := w, lane := e.1, psn := (g.xs.getD 2 {}).psn
                                   data := natBytes w ((g.v 2).extractLsb' (8 * w * e.1) (8 * w)).toNat } : Part)
      Ready s [.g a, .v b, .v d] [] g → Clean g 2 → (∀ e ∈ ls, Unlocked s e.2 w ∧ addrCode s .storeV e.2 w = none) →
      (ls = [] → ∃ t, exec (.scat d a b m dword sh nud) s = .next t ∧ CompletesN s t g ((me s).pc + 4))
      ∧ (ls ≠ [] → ∃ t, exec (.scat d a b m dword sh nud) s = .next t ∧ Issued s t g
        { instr := .scat d a b m dword sh nud, word := s.word, tag := 0, addr := (ls.map Prod.snd).headD 0, npc := (me s).pc + 4
          left := ls.length, stores := (ls.filter fun e => isLocal e.2).map fun e => (offset48 e.2, w) }
        (requestsOf s nud.toNat .store ps)))
    ∧ ∀ (t b idx : GReg) (nud : BitVec 5) (six : Bool),
      let i := (g.w 1).toNat
      let bit := if six then 6 * (i % 4) else 4 * (i % 2)
      let a := BitVec.ofNat 64 ((g.w 0).toNat + (if six then 3 * (i / 4) + bit / 8 else i / 2))
      let n := if six = true ∧ 2 < bit % 8 then 2 else 1
      Ready s [.g b, .g idx, .g t] [] g → Clean g 2 →
      (∀ j, j < n → Unlocked s (a + BitVec.ofNat 64 j) 1 ∧ addrCode s .stsb (a + BitVec.ofNat 64 j) 1 = none) →
      ∃ u, exec (.stsb t b nud six idx) s = .next u ∧ Issued s u g
        { instr := .stsb t b nud six idx, word := s.word, tag := 0, addr := a, npc := (me s).pc + 4, left := 1 }
        [.req (destOf s.who.1 a) (mkReq s s.nextTag nud.toNat (.storeSub (bit % 8) six)
          [{ addr := a, size := n, data := natBytes 1 (g.w 2).toNat, psn := (g.xs.getD 2 {}).psn }])]

/-- R302, R303, R304: FENCE and PFENCE retire once what their sets and scopes name is performed or durable, and until then
their slot waits and reissues; PREF retires always, and changes no register, no local store and no other core. -/
def Sys2Proof.Spec.FencesAndPrefetch : Prop :=
  ∀ s : State, (me s).st = .active →
    let p := s.who.1
    let n := s.who.2
    let lc := logicalOf s p
    let waits := updMe s fun sl => { sl with st := .waiting, park := .performed }
    (∀ (a b : BitVec 4) (scope : Scope), let sc := Machine.scopeOf s lc scope
      let done := (tbit a 1 = true → storesDone s sc p n = true) ∧ (tbit a 3 = true → messagesDone s sc p n = true)
        ∧ (tbit a 2 = true → jobsPending s sc p n = false)
      (done → ∃ t, exec (.fence a b scope) s = .next t ∧ CompletesN s t {} ((me s).pc + 4))
      ∧ (¬ done → exec (.fence a b scope) s = .next waits))
    ∧ (∀ (scope : Scope) (mm : Bool),
      let sc := Machine.scopeOf s lc scope
      let done := performedAll s 4 p n = true ∧ durableAll s sc lc n = true ∧ (mm = true → anyDirty s sc lc n = false)
      (done → ∃ t, exec (.pfence scope mm) s = .next t ∧ CompletesN s t {} ((me s).pc + 4))
      ∧ (¬ done → exec (.pfence scope mm) s = .next waits))
    ∧ ∀ (hint : BitVec 5) (b : GReg) (nud : BitVec 5) (off : BitVec 8) (g : Got), Ready s [.g b] [] g →
      ∃ t, exec (.pref hint b nud off) s = .next t ∧ regs (me t) = regs (me s) ∧ (me t).pc = retirePc (me s) ((me s).pc + 4)
        ∧ (me t).st = (if (me s).stepping = true ∨ (me s).stopNext ≠ 0 then .frozen else .active)
        ∧ slotRsn t p n = slotRsn s p n + 1 ∧ (∀ q, restCore (getCore t q) = restCore (getCore s q))
        ∧ (g.psn = true ∨ 2 < hint.toNat → CompletesN s t g ((me s).pc + 4))

namespace Sys2Proof.Spec

/-! ### Requests at their owners (R87, R88, R112, R115, R193, R297 to R301, R312, R313, R345 to R347, R369, R370) -/

/-- Request `r` of one part `q` is the message that the step's input names: it is its source's first for the destination, it
comes from a slot, it has had no acknowledgement, and its job's Mortar is off. -/
structure Arrives (s : State) (dst : Nat) (r : Req) (q : Part) : Prop where
  there : s.net[s.input.n]? = some (.req dst r)
  first : behind s s.input.n dst r = false
  one : r.parts = [q]
  slot : ∃ p n, r.src = .slot p n
  fresh : r.tacked = false
  off : mortarMode s r.job = 0

/-- The word that an AMO leaves, `w` bits wide (R300, R301): old value, operand, comparand. -/
inductive AmoResult {w : Nat} (old y e : BitVec w) : Nat → BitVec w → Prop
  | add : AmoResult old y e 0 (old + y)
  | and : AmoResult old y e 1 (old &&& y)
  | or : AmoResult old y e 2 (old ||| y)
  | xor : AmoResult old y e 3 (old ^^^ y)
  | min : AmoResult old y e 4 (if y.toInt < old.toInt then y else old)
  | max : AmoResult old y e 5 (if old.toInt < y.toInt then y else old)
  | minu : AmoResult old y e 6 (if y.toNat < old.toNat then y else old)
  | maxu : AmoResult old y e 7 (if old.toNat < y.toNat then y else old)
  | swp : AmoResult old y e 8 y
  | cas : AmoResult old y e 9 (if old = e then y else old)
  | fadds (h : w = 32) : AmoResult old y e 10 (BitVec.ofNat w (addVal .fp32 0 (valOf .fp32 old.toNat) (valOf .fp32 y.toNat)).1)
  | faddd (h : w = 64) : AmoResult old y e 11 (BitVec.ofNat w (addVal .f64 0 (valOf .f64 old.toNat) (valOf .f64 y.toNat)).1)

/-- A word of a barrier object (R312). -/
def barrierWord (count arrived gen : Nat) : List Byte := natBytes 8 (count * 2 ^ 48 + arrived * 2 ^ 32 + gen % 2 ^ 32)

/-- WHAT AN ACT DOES at the local store `x` on the part `q` at offset `off`: the event that carries it out, the answer, the bytes
stored with their place and poison, and the full/empty bit that the touched words get. -/
inductive ActAt (x : Ctx) (q : Part) (off : Nat) :
    Act → Instr → Answer → Option (Nat × List Byte × Bool) → Option Bool → Prop
  | load : ActAt x q off .load .memoryRequestArrive (.value (memBytes x.ls off q.size) (poisonRead 8 x.lsPoison off q.size)) none none
  | store (h : q.data.length = q.size) : ActAt x q off .store .memoryRequestArrive .tack (some (off, q.data, q.psn)) (some true)
  | amo sub e y c v (n : q.size = 4 ∨ q.size = 8) (hy : leNat q.data = BitVec.toNat (w := 8 * q.size) y)
      (hc : c = BitVec.setWidth (8 * q.size) e) (h : AmoResult (leWord (8 * q.size) (memBytes x.ls off q.size)) y c sub v)
      (p : poisonRead 8 x.lsPoison off q.size = false) :
      ActAt x q off (.amo sub e) .memoryRequestArrive (.value (memBytes x.ls off q.size) false)
        (some (off, natBytes q.size v.toNat, false)) (some true)
  | amoPoisoned sub e (p : poisonRead 8 x.lsPoison off q.size = true) :
      ActAt x q off (.amo sub e) .memoryRequestArrive (.value (memBytes x.ls off q.size) true) none none
  | ldfe (n : q.size = 8) (f : wordFull x (off / 8) = true) (p : x.lsPoison.contains (off / 8) = false) :
      ActAt x q off (.fe 0) .feRequestArrive (.value (memBytes x.ls off 8) false) none (some false)
  | ldff (n : q.size = 8) (f : wordFull x (off / 8) = true) (p : x.lsPoison.contains (off / 8) = false) :
      ActAt x q off (.fe 1) .feRequestArrive (.value (memBytes x.ls off 8) false) none none
  | stef (n : q.size = 8) (f : wordFull x (off / 8) = false) (p : x.lsPoison.contains (off / 8) = false) (h : q.data.length = 8) :
      ActAt x q off (.fe 2) .feRequestArrive (.value (memBytes x.ls off 8) false) (some (off, q.data, false)) (some true)
  | stff (n : q.size = 8) (f : wordFull x (off / 8) = true) (p : x.lsPoison.contains (off / 8) = false) (h : q.data.length = 8) :
      ActAt x q off (.fe 3) .feRequestArrive (.value (memBytes x.ls off 8) false) (some (off, q.data, false)) (some true)
  | sete (n : q.size = 8) (p : x.lsPoison.contains (off / 8) = false) :
      ActAt x q off (.fe 4) .feRequestArrive (.value (memBytes x.ls off 8) false) none (some false)
  | setf (n : q.size = 8) (p : x.lsPoison.contains (off / 8) = false) :
      ActAt x q off (.fe 5) .feRequestArrive (.value (memBytes x.ls off 8) false) none (some true)
  | bara (sz : q.size = 8) count arrived gen (w : memBytes x.ls off 8 = barrierWord count arrived gen) (p : x.lsPoison.contains (off / 8) = false)
      (lt : arrived + 1 < count) (c : count < 2 ^ 16) (g : gen < 2 ^ 32) :
      ActAt x q off .barrierArrive .barrierArrival (.value (natBytes 4 gen) false)
        (some (off, barrierWord count (arrived + 1) gen, false)) (some true)
  | baraLast (sz : q.size = 8) count gen (w : memBytes x.ls off 8 = barrierWord count (count - 1) gen) (p : x.lsPoison.contains (off / 8) = false)
      (lt : 0 < count) (c : count < 2 ^ 16) (g : gen < 2 ^ 32) :
      ActAt x q off .barrierArrive .barrierArrival (.value (natBytes 4 gen) false)
        (some (off, barrierWord count 0 (gen + 1), false)) (some true)
  | baraFault (sz : q.size = 8) act (ha : act = .barrierArrive ∨ ∃ y, act = .barrierBoth y) count arrived gen
      (w : memBytes x.ls off 8 = barrierWord count arrived gen) (p : x.lsPoison.contains (off / 8) = false)
      (le : count ≤ arrived) (c : arrived < 2 ^ 16) (g : gen < 2 ^ 32) :
      ActAt x q off act .barrierArrival (.raise 0x08 q.addr) none none
  | barw count arrived gen y (w : memBytes x.ls off 8 = barrierWord count arrived gen) (ne : gen ≠ y.toNat)
      (c : arrived < 2 ^ 16) (g : gen < 2 ^ 32) (p : x.lsPoison.contains (off / 8) = false) (n : q.size = 8) :
      ActAt x q off (.barrierWait y) .barrierArrival (.value (memBytes x.ls off 4) false) none none
  | barawLast (sz : q.size = 8) count gen y (w : memBytes x.ls off 8 = barrierWord count (count - 1) gen) (p : x.lsPoison.contains (off / 8) = false)
      (lt : 0 < count) (c : count < 2 ^ 16) (g : gen < 2 ^ 32) (ne : y.toNat ≠ (gen + 1) % 2 ^ 32) :
      ActAt x q off (.barrierBoth y) .barrierArrival (.value (natBytes 4 (gen + 1)) false)
        (some (off, barrierWord count 0 (gen + 1), false)) (some true)
  | joinAdd (sz : q.size = 8) n (p : x.lsPoison.contains (off / 8) = false) :
      ActAt x q off (.joinAdd n) .memoryRequestArrive .tack
        (some (off, natBytes 8 (lsWord x (off / 8) + BitVec.ofNat 64 n).toNat, false)) (some true)
  | joinSub (sz : q.size = 8) (p : x.lsPoison.contains (off / 8) = false) (nz : lsWord x (off / 8) ≠ 0) :
      ActAt x q off .joinSub .memoryRequestArrive .tack (some (off, natBytes 8 (lsWord x (off / 8) - 1).toNat, false)) (some true)
  | joinWatch (sz : q.size = 8) (z : lsWord x (off / 8) = 0) : ActAt x q off .joinWatch .memoryRequestArrive (.value [] false) none none
  | ringInit (sz : q.size = 32) (h : q.data.length = 32) (p : poisonRead 8 x.lsPoison off 32 = false) :
      ActAt x q off .ringInit .memoryRequestArrive .tack
        (some (off, q.data.take 16 ++ natBytes 8 0 ++ q.data.drop 24, q.psn)) (some true)
  | ringWait (sz : q.size = 32) (n : BitVec 32) (cl : ringClean (ringAt x off) = true) (z : 0 < bits (ringAt x off) 95 80) (le : n.toNat ≤ bits (ringAt x off) 95 80)
      (room : n.toNat ≤ (ringW (ringAt x off) - ringR (ringAt x off)).toNat) (p : poisonRead 8 x.lsPoison off 32 = false) :
      ActAt x q off (.ringWait n) .memoryRequestArrive (.value (natBytes 8 (bits (ringAt x off) 255 192
        + (ringR (ringAt x off)).toNat % bits (ringAt x off) 95 80 * 2 ^ bits (ringAt x off) 103 96)) false) none none
  | ringWaitBad (sz : q.size = 32) (n : BitVec 32) (p : poisonRead 8 x.lsPoison off 32 = false)
      (bad : ringClean (ringAt x off) = false ∨ bits (ringAt x off) 95 80 < n.toNat) :
      ActAt x q off (.ringWait n) .memoryRequestArrive (.raise 0x07 q.addr) none none
  | ringRelease (sz : q.size = 32) (n : BitVec 32) (cl : ringClean (ringAt x off) = true) (room : n.toNat ≤ (ringW (ringAt x off) - ringR (ringAt x off)).toNat)
      (p : poisonRead 8 x.lsPoison off 32 = false) :
      ActAt x q off (.ringRelease n) .memoryRequestArrive .tack
        (some (off + 16, natBytes 4 (ringR (ringAt x off) + n).toNat, false)) (some true)
  | ringRelPoisoned (sz : q.size = 32) (n : BitVec 32) (p : poisonRead 8 x.lsPoison off 32 = true) :
      ActAt x q off (.ringRelease n) .memoryRequestArrive .tack none none
  | ringInitPoisoned (sz : q.size = 32) (p : poisonRead 8 x.lsPoison off 32 = true) :
      ActAt x q off .ringInit .memoryRequestArrive .tack none none
  | ringShort (sz : q.size = 32) (n : BitVec 32) (p : poisonRead 8 x.lsPoison off 32 = false)
      (short : ringClean (ringAt x off) = false ∨ (ringW (ringAt x off) - ringR (ringAt x off)).toNat < n.toNat) :
      ActAt x q off (.ringRelease n) .memoryRequestArrive (.raise 0x07 q.addr) none none

/-- The words that bytes touch. -/
def touched (w off n : Nat) : Bool := decide (off < 8 * (w + 1)) && decide (8 * w < off + n)

/-- Byte `k` after the act, where it was `old`. -/
def byteAfter (new : Option (Nat × List Byte × Bool)) (k : Nat) (old : Byte) : Byte :=
  match new with
  | some (at_, bs, _) => if at_ ≤ k ∧ k < at_ + bs.length then bs.getD (k - at_) 0 else old
  | none => old

/-- The full/empty bit of word `w` after an act at offset `off`. -/
def bitAfter (new : Option (Nat × List Byte × Bool)) (full : Option Bool) (off w : Nat) (old : Bool) : Bool :=
  match full, new with
  | some b, some (at_, bs, _) => if touched w at_ bs.length then b else old
  | some b, none => if touched w off 8 then b else old
  | none, _ => old

/-- The poison of word `w` after the act: unpoisoned data clears a word that it covers whole (R456). -/
def poisonAfter (new : Option (Nat × List Byte × Bool)) (w : Nat) (old : Bool) : Bool :=
  match new with
  | some (at_, bs, b) => if touched w at_ bs.length then b || (old && !(decide (at_ ≤ 8 * w) && decide (8 * (w + 1) ≤ at_ + bs.length)))
      else old
  | none => old

/-- Word `w` is one that the act stores to and that is poison then: it holds the pattern, data 0 (R455, R456). -/
def patternAt (new : Option (Nat × List Byte × Bool)) (w : Nat) (old : Bool) : Bool :=
  match new with
  | some (at_, bs, _) => touched w at_ bs.length && poisonAfter new w old
  | none => false

/-- The owner of the local store has performed the act: the answer is on its way, the bytes and the bits are as the table says,
and nothing else has changed but the owner's acceptance table and shadow queue. -/
structure ActDone (s t : State) (p : Nat) (r : Req) (q : Part) (off : Nat) (a : Answer) (new : Option (Nat × List Byte × Bool))
    (full : Option Bool) : Prop where
  answered : t.net = ldrop s.net s.input.n ++ [.reply r.src r.tag q.lane a]
  bytes : ∀ k, memByte (getCore t p).res.ls k = if patternAt new (k / 8) ((getCore s p).res.lsPoison.contains (k / 8)) then 0
    else byteAfter new k (memByte (getCore s p).res.ls k)
  bit : ∀ w, wordFull (getCore t p).res w = bitAfter new full off w (wordFull (getCore s p).res w)
  poison : ∀ w, (getCore t p).res.lsPoison.contains w = poisonAfter new w ((getCore s p).res.lsPoison.contains w)
  core : ∃ ac sh au, { getCore t p with wide := { (getCore t p).wide with accept := ac }, shadow := sh, authors := au
                                        res := { (getCore t p).res with ls := [], lsEmpty := [], lsPoison := [], lsSetter := [] } }
    = { getCore s p with wide := { (getCore s p).wide with accept := ac }, shadow := sh, authors := au
                         res := { (getCore s p).res with ls := [], lsEmpty := [], lsPoison := [], lsSetter := [] } }
  others : ∀ c, c ≠ p → getCore t c = getCore s c
  rest : { t with net := [], cores := [] } = { s with net := [], cores := [] }

end Sys2Proof.Spec

/-- R87, R112, R115, R193, R297 to R301, R312, R313, R345 to R347, R369, R370: an act on the local store of a core, asked by
local address, does what its rule says at its owner and is answered; nothing else changes. A full/empty form whose condition
does not hold is held (R299). -/
def Sys2Proof.Spec.LocalStoreActs : Prop :=
  ∀ (s : State) (p : Nat) (r : Req) (q : Part),
    let off := offset48 q.addr
    Arrives s (0x1000 + p) r q → coreRepeat s p r = false →
    (r.oneOf = true → isRepeat (getCore s p).wide.accept (portKey r) r.rsn = false) → (getCore s p).waits = [] → tbit (getCore s p).watch 63 = false →
    Memory.wf (getCore s p).res.ls → off < 0x20000 → 0 < q.size → off % q.size = 0 →
    (∀ (e : Instr) (a : Answer) (new : Option (Nat × List Byte × Bool)) (full : Option Bool),
      ActAt (getCore s p).res q off r.act e a new full → ∃ t, exec e s = .next t ∧ ActDone s t p r q off a new full)
    ∧ ∀ form, r.act = .fe form → form ≤ 3 → (wordFull (getCore s p).res (off / 8) = true ↔ form = 2) → mayNotHold s r = false →
      exec .feRequestArrive s = .next (updCore { s with net := ldrop s.net s.input.n } p fun c =>
        { c with waits := [{ r with phys := [off], heldOp := true }] })

/-- R95, R96, R103, R108, R112, R115: a load and a store that find their translation at the home node: with no line in its slice,
nothing retired and nud 0, the devices are read and written at the physical address; with a line, the line. A unit that the store
leaves poisoned holds the pattern, data 0 (R454, R456). -/
def Obligations.MainMemoryAccesses : Prop :=
  ∀ (s : State) (m : Nat) (r : Req) (q : Part) (leaf : Word),
    let va := offset48 q.addr
    let pa := leafBase leaf + va % 2 ^ (12 + leafT leaf)
    let pattern := fun (at_ u : Nat) (was : Bool) => (decide (at_ < (u + 1) * 32) && decide (u * 32 < at_ + q.size))
      && (q.psn || (was && !(decide (at_ ≤ u * 32) && decide ((u + 1) * 32 ≤ at_ + q.size))))
    Arrives s (0x100 + m) r q → m < 32 → s.input.flag = false → nodeFenced s m = false → (findJob s r.job).isSome = true →
    tlbHit (getNode s m).tlb r.job va = some leaf → tbit leaf 61 = true → tbit leaf 60 = true → tbit leaf 59 = false →
    homeNode pa = m → blockHeld s pa = false → nodeRepeat s m r = false → 0 < q.size → q.size ≤ 64 → pa % q.size = 0 → q.data.length = q.size →
    Memory.wf s.mem →
    ∃ t, exec .memoryRequestArrive s = .next t ∧ t.cores = s.cores
      ∧ (lineAt s pa = none → r.nud = 0 → (getNode s m).retired = [] →
        (r.act = .load → .reply r.src r.tag q.lane (.value (memBytes s.mem pa q.size) (poisonRead 32 s.memPoison pa q.size)) ∈ t.net)
        ∧ (r.act = .store → .reply r.src r.tag q.lane .tack ∈ t.net ∧ ∀ a, memByte t.mem a =
          if pattern pa (a / 32) (s.memPoison.contains (a / 32)) then 0
          else if pa ≤ a ∧ a < pa + q.size then q.data.getD (a - pa) 0 else memByte s.mem a))
      ∧ ∀ l, lineAt s pa = some l →
        (r.act = .load → t.mem = s.mem
          ∧ .reply r.src r.tag q.lane (.value ((l.data.drop (pa % 128)).take q.size) (poisonRead 32 l.poison (pa % 128) q.size)) ∈ t.net)
        ∧ (r.act = .store → l.data.length = 128 → t.mem = s.mem ∧ .reply r.src r.tag q.lane .tack ∈ t.net
          ∧ ∃ l', lineAt t pa = some l' ∧ l'.dirty = true ∧ l'.data.length = 128 ∧ ∀ k, k < 128 → l'.data.getD k 0 =
            if pattern (pa % 128) (k / 32) (l.poison.contains (k / 32)) then 0
            else (l.data.take (pa % 128) ++ q.data ++ l.data.drop (pa % 128 + q.size)).getD k 0)

namespace Sys2Proof.Spec

/-! ### Replies (R48, R109, R115, R293 to R301, R313, R370, R433, R451) -/

/-- What an answer's bytes make of the register that the instruction writes. -/
inductive Returns : Instr → GReg → (List Byte → Word) → Prop
  | ld t b nud sz off : Returns (.ld t b nud sz off) t fun bs => loaded sz (leNat bs)
  | ldaq t b nud sz sc off : Returns (.ldaq t b nud sz sc off) t fun bs => loaded sz (leNat bs)
  | ldfe t b nud off : Returns (.ldfe t b nud off) t fun bs => BitVec.ofNat 64 (leNat bs)
  | ldff t b nud off : Returns (.ldff t b nud off) t fun bs => BitVec.ofNat 64 (leNat bs)
  | amo i sub d a b rel n (h : AmoOf i sub d a b rel n) (i9 : sub ≤ 9) : Returns i d fun bs =>
      if n = 4 then (BitVec.ofNat 32 (leNat bs)).signExtend 64 else BitVec.ofNat 64 (leNat bs)
  | fadd i sub d a b rel n (h : AmoOf i sub d a b rel n) (i9 : 9 < sub) : Returns i d fun bs => BitVec.ofNat 64 (leNat bs)
  | bara d a : Returns (.bara d a) d fun bs => BitVec.ofNat 64 (leNat bs)
  | barw d a b : Returns (.barw d a b) d fun bs => BitVec.ofNat 64 (leNat bs)
  | baraw d a b : Returns (.baraw d a b) d fun bs => BitVec.ofNat 64 (leNat bs)
  | ringaw d a b : Returns (.ringaw d a b) d fun bs => BitVec.ofNat 64 (leNat bs)

/-- Instructions that a node or another core answers with a word that is never poisoned (R343, R348, R349); LAUNCH without a join
word, or refused, is one of them. -/
inductive Answered : Instr → GReg → Prop
  | decr d a : Answered (.decr d a) d
  | tskst d a wait level : Answered (.tskst d a wait level) d
  | cardq d a : Answered (.cardq d a) d
  | cancel d a level : Answered (.cancel d a level) d
  | mlogq d field : Answered (.mlogq d field) d
  | pairq d : Answered (.pairq d) d
  | launch d a b : Answered (.launch d a b) d

/-- Instructions that only wait for the acknowledgement. -/
inductive Acknowledged : Instr → Prop
  | st t b nud sz off : Acknowledged (.st t b nud sz off)
  | strl t b nud sz sc off : Acknowledged (.strl t b nud sz sc off)
  | stv t b nud off : Acknowledged (.stv t b nud off)
  | scat d a b m dword sh nud : Acknowledged (.scat d a b m dword sh nud)
  | stsb t b nud six idx : Acknowledged (.stsb t b nud six idx)
  | stef t b nud off : Acknowledged (.stef t b nud off)
  | stff t b nud off : Acknowledged (.stff t b nud off)
  | sete b nud off : Acknowledged (.sete b nud off)
  | setf b nud off : Acknowledged (.setf b nud off)
  | send d a b tag : Acknowledged (.send d a b tag)
  | sendu d a b : Acknowledged (.sendu d a b)
  | sendg a b : Acknowledged (.sendg a b)
  | sync a : Acknowledged (.sync a)
  | ringi a b : Acknowledged (.ringi a b)
  | ringrel a b : Acknowledged (.ringrel a b)

/-- Slot `n` of core `p` awaits its one missing answer, which is the message that the step's input names. `u` is the state as its
instruction sees it. -/
structure LastReply (s u : State) (p n : Nat) (d : Pend) (part : Nat) (a : Answer) : Prop where
  there : s.net[s.input.n]? = some (.reply (.slot p n) d.tag part a)
  waits : (getSlot s p n).st = .waiting ∧ (getSlot s p n).pend = some d ∧ d.again = none
  last : d.left = 1 ∧ d.got = []
  resident : savedWait s p n d.tag = false
  stands : clockStands s p = false
  view : u = { s with net := ldrop s.net s.input.n, who := (p, n), word := d.word }

/-- The state `t` with the retirement noted for the job of the slot (R44: the job has issued and retired an instruction in this scan). -/
def counted (u t : State) : State := updJob t (me u).jobId.toNat fun j => { j with idle := 0 }

end Sys2Proof.Spec

/-- R48, R115, R293 to R301, R313, R370, R451: a slot's last answer completes its instruction with the value that it brought, or
only with the acknowledgement; a refusal (NACK) freezes the slot with fault 0x09 and its code, a fault that the owner raised with
that fault; a translation fault parks it. HDGO that cannot read its ring object takes the hod-setup fault (R193). -/
def Obligations.Replies : Prop :=
  ∀ (s u : State) (p n : Nat) (d : Pend) (a : Answer) (part : Nat), LastReply s u p n d part a → part < 64 →
    ((me u).stepping = false → (me u).stopNext = 0 →
      (∀ r f bs psn, Returns d.instr r f → part = 0 → a = .value bs psn →
        ∃ t, exec .replyArrive s = .next (counted u t) ∧ Completes u t {} (writeG (me u) r { val := f bs, full := true, psn := psn })
          (match boundQ (me u) r with
            | some q => [((getCore u p).cc, q, { val := f bs, psn := psn, key := senderKey u p n })]
            | none => []) [] d.npc)
      ∧ (∀ r bs, Answered d.instr r → part = 0 → a = .value bs false →
        ∃ t, exec .replyArrive s = .next (counted u t)
          ∧ Completes u t {} (writeG (me u) r { val := BitVec.ofNat 64 (leNat bs), full := true })
          (match boundQ (me u) r with
            | some q => [((getCore u p).cc, q, { val := BitVec.ofNat 64 (leNat bs), key := senderKey u p n })]
            | none => []) [] d.npc)
      ∧ (∀ t b nud off bs psn, d.instr = .ldv t b nud off → part = 0 → a = .value bs psn →
        ∃ r, exec .replyArrive s = .next (counted u r) ∧ Completes u r {}
          (setVCell (me u) t.toNat { val := BitVec.ofNat 512 (leNat bs), full := true, psn := psn }) [] [] d.npc)
      ∧ (Acknowledged d.instr → (a = .tack ∨ ∃ bs psn, a = .value bs psn) →
        ∃ t, exec .replyArrive s = .next (counted u t) ∧ Completes u t {} (me u) [] [] d.npc)
      ∧ ∀ kinds va, a = .tfault kinds va → (∀ x y z, d.instr ≠ .launch x y z) → (∀ x, d.instr ≠ .hdgo x) → ∃ t, exec .replyArrive s = .next t
          ∧ (getSlot t p n).st = .parked ∧ (getSlot t p n).park = .translation ∧ (getSlot t p n).pc = (me u).pc
          ∧ (getSlot t p n).block = some ((me u).jobId.toNat, va / 2 ^ 22)
          ∧ regs { getSlot t p n with block := none } = regs { me u with block := none } ∧ restState t = restState u)
    ∧ (∀ code addr, a = .nack code addr → (∀ x y z, d.instr ≠ .launch x y z) →
        ∃ t, exec .replyArrive s = .next t ∧ Stopped u t (me u).pc addr 0x09 code)
    ∧ (∀ code addr, a = .raise code addr → (∀ x y z, d.instr ≠ .launch x y z) → (∀ x, d.instr = .hdgo x → code = 0x0B) →
        ∃ t, exec .replyArrive s = .next t ∧ Stopped u t (me u).pc addr code 0)
    ∧ ∀ x, d.instr = .hdgo x → ((∃ kinds va, a = .tfault kinds va) ∨ ∃ code addr, a = .raise code addr ∧ code ≠ 0x0B) →
        ∃ t, exec .replyArrive s = .next t ∧ Stopped u t (me u).pc d.addr 0x07 0

namespace Sys2Proof.Spec

/-! ### Messages and tasks (R35, R124, R306, R342, R345 to R349) -/

/-- The fields of the continuation frame that SPAWN makes (R31, R35, R345). -/
structure ContinuationOf (f : V512) (s : State) : Prop where
  entry : frEntry f = BitVec.ofNat 64 ((me s).pc.toNat / 4 * 4) + 4
  args : frArg0 f = (gCell (me s) 1).val ∧ frArg1 f = (gCell (me s) 2).val ∧ frArg2 f = (gCell (me s) 3).val
  sp : frSp f = (gCell (me s) 30).val
  join : frJoin f = (me s).join
  level : frJob f = (me s).jobId.toNat ∧ frLaunch f = (me s).launchId.toNat % 2 ^ 16
  kind : frKind f = 1 ∧ frDepw f = 0xFFFF
  need : frNeed f = (me s).lsneed.toNat ∧ frPin f = (me s).pin

/-- The template that LAUNCH reads (R348). -/
def templateAt (s : State) (a : Word) : V512 := BitVec.ofNat 512 (leNat (memBytes (getCore s s.who.1).res.ls (offset48 a) 64))

/-- A command block of 64 bytes that MXQ reads (R180). -/
def blockAt (s : State) (a : Word) : V512 := BitVec.ofNat 512 (leNat (memBytes (getCore s s.who.1).res.ls (offset48 a) 64))

/-- The slot stays Active and has retired: its registers are those of `tl`, its PC leads to `npc`, its RSN has advanced by one.
What else the instruction does the statement says. -/
structure Retired (s t : State) (tl : Slot) (npc : Word) : Prop where
  registers : regs (me t) = regs tl
  place : (me t).st = .active ∧ (me t).pend = none ∧ (me t).pc = retirePc (me s) npc
  rsn : slotRsn t s.who.1 s.who.2 = slotRsn s s.who.1 s.who.2 + 1
  others : ∀ p n, (p, n) ≠ s.who → atRest (getSlot t p n) = atRest (getSlot s p n)

/-- TASKID of a task that SPAWN starts in the slot (R51, R345): logical core and slot as before, the core's dispatch count. -/
def childTask (s : State) : BitVec 32 := ((me s).taskId &&& 0xFFF00000) ||| BitVec.setWidth 32 (getCore s s.who.1).dispatch

/-- The slot is neither being stepped nor stopped. -/
def Running (s : State) : Prop := (me s).st = .active ∧ (me s).stepping = false ∧ (me s).stopNext = 0

end Sys2Proof.Spec

/-- R124, R306, R349: SEND, SENDU, SENDG and DECR send their message with the fields of the key and wait for its
acknowledgement; payload poison travels. A key that names no core takes fault 0x02. -/
def Obligations.Messages : Prop :=
  ∀ (s : State) (g : Got), (me s).st = .active →
    let key := senderKey s s.who.1 s.who.2
    let src := Agent.slot s.who.1 s.who.2
    let k := g.w 0
    let p := fun i => (g.xs.getD i {}).psn
    (∀ (d a b : GReg) (tag : BitVec 6), Ready s [.g a, .g b, .g d] [] g → Clean g 1 →
      (bits k 11 4 < 192 ∧ bits k 63 12 = 0 → ∃ t, exec (.send d a b tag) s = .next t
        ∧ Issued s t g (remembers s (.send d a b tag) 0 .load 0)
          [.send key (myJob s) (nextRsn s s.who.1 s.who.2) src s.nextTag (bits k 11 4) (bits k 3 0) (g.w 1) (g.w 2) (p 1) (p 2) tag])
      ∧ (192 ≤ bits k 11 4 ∨ bits k 63 12 ≠ 0 → exec (.send d a b tag) s = .next (freeze s 0x02 0)))
    ∧ (∀ d a b : GReg, Ready s [.g a, .g b, .g d] [] g → Clean g 1 →
      (bits k 11 4 < 192 ∧ bits k 13 12 = 0 → ∃ t, exec (.sendu d a b) s = .next t
        ∧ Issued s t g (remembers s (.sendu d a b) 0 .load 0) [.urgent src s.nextTag (bits k 11 4) (bits k 3 0)
          { key := key, job := myJob s, rsn := nextRsn s s.who.1 s.who.2, entry := BitVec.ofNat 64 (4 * bits k 63 14)
            w0 := g.w 1, w1 := g.w 2, psn0 := p 1, psn1 := p 2 }])
      ∧ (192 ≤ bits k 11 4 ∨ bits k 13 12 ≠ 0 → exec (.sendu d a b) s = .next (freeze s 0x02 0)))
    ∧ (∀ a b : GReg, Ready s [.g a, .g b] [] g → Clean g 1 →
      (bits k 11 4 < 192 ∧ bits k 63 17 = 0 → ∃ t, exec (.sendg a b) s = .next t
        ∧ Issued s t g (remembers s (.sendg a b) 0 .load 0)
          [.fill key (myJob s) (nextRsn s s.who.1 s.who.2) src s.nextTag (bits k 11 4) (bits k 3 0) false (bits k 16 12)
            ((g.w 1).setWidth 512) (p 1)])
      ∧ (192 ≤ bits k 11 4 ∨ bits k 63 17 ≠ 0 → exec (.sendg a b) s = .next (freeze s 0x02 0)))
    ∧ ∀ d a : GReg, Ready s [.g a] [d] g → Clean g 1 →
      (bits k 63 16 = 0 ∧ tbit k 7 = false ∧ bits k 15 8 ≤ 191 → Released s (some .chip) → ∃ t, exec (.decr d a) s = .next t
        ∧ Issued s t g (remembers s (.decr d a) 0 .load 0)
          [.decr src s.nextTag key (myJob s) (nextRsn s s.who.1 s.who.2) (bits k 15 8) (bits k 6 0)])
      ∧ (bits k 63 16 ≠ 0 ∨ tbit k 7 = true ∨ 191 < bits k 15 8 → exec (.decr d a) s = .next (freeze s 0x02 0))

/-- R35, R37, R38, R345 to R347: SPAWN of a join word asks its owner to add 1, and without one pushes the continuation on the
core's deque and goes on as the child; of a closed launch it answers 3. SYNC asks for the join word. FINISH with a join word asks
its owner to subtract 1, and without one empties the slot. -/
def Sys2Proof.Spec.TaskInstructions : Prop :=
  ∀ (s : State) (g : Got), Running s → (me s).urg = false →
    let l := (me s).launchId.toNat % 2 ^ 16
    let x := (getCore s s.who.1).res
    (∀ d a b : GReg, Ready s [.g a, .g b] [d] g → Clean g 2 → (g.w 0).toNat % 4 = 0 → joinOk (g.w 1) = true →
      (launchClosed s l = true → ∃ t, exec (.spawn d a b) s = .next t ∧ CompletesG s t g d 3 0 ((me s).pc + 4))
      ∧ (launchClosed s l = false → g.w 1 ≠ 0 → ∃ t, exec (.spawn d a b) s = .next t
        ∧ Issued s t g { remembers s (.spawn d a b) (g.w 1) .load 0 with acc := g.w 0 }
          [.req (destOf s.who.1 (g.w 1)) (mkReq s s.nextTag 30 (.joinAdd 1) [{ addr := g.w 1, size := 8 }])])
      ∧ (launchClosed s l = false → g.w 1 = 0 → x.deque.length < 64 → Unwatched s → ∃ t f, exec (.spawn d a b) s = .next t
        ∧ (getCore t s.who.1).res.deque = x.deque ++ [f] ∧ ContinuationOf f s
        ∧ Retired s t (writeG { me s with join := 0, taskId := childTask s } d {}) (g.w 0)
        ∧ (getCore t s.who.1).dispatch = (getCore s s.who.1).dispatch + 1
        ∧ (launchRec t l).map (fun r => r.count) = (launchRec s l).map fun r => r.count + 1))
    ∧ (∀ a : GReg, Ready s [.g a] [] g → Clean g 1 → joinCode (g.w 0) 8 = none → ∃ t, exec (.sync a) s = .next t
      ∧ Issued s t g (remembers s (.sync a) (g.w 0) .load 0)
        [.req (destOf s.who.1 (g.w 0)) (mkReq s s.nextTag 30 .joinWatch [{ addr := g.w 0, size := 8 }])])
    ∧ ((me s).join ≠ 0 → joinCode (me s).join 8 = none → Released s (some .chip) → ∃ t, exec .finish s = .next t
      ∧ Issued s t {} (remembers s .finish (me s).join .load 0)
        [.req (destOf s.who.1 (me s).join) (mkReq s s.nextTag 30 .joinSub [{ addr := (me s).join, size := 8 }])])
    ∧ ((me s).join = 0 → Released s (some .chip) → (me s).held = [] → ∃ t, exec .finish s = .next t
      ∧ (me t).st = .empty ∧ (me t).taskId = 0 ∧ (me t).g = [] ∧ (me t).v = []
      ∧ slotRsn t s.who.1 s.who.2 = slotRsn s s.who.1 s.who.2 + 1
      ∧ ∀ r, launchRec s l = some r → r.st = .running → 1 < r.count →
        (launchRec t l).map (fun r => (r.st, r.count)) = some (.running, r.count - 1))

/-- R34, R343, R348: LAUNCH of a template that is refused waits for the answer with the status; accepted, it makes a launch record
that counts its tasks, raises the job's counter, and either sends the frames at once and waits for the answer with the launch's
number, or first asks the join word's owner for the sum. -/
def Sys2Proof.Spec.LaunchInstruction : Prop :=
  ∀ (s : State) (d a b : GReg) (g : Got), Running s → Ready s [.g a, .g b] [d] g → Clean g 2 → Unlocked s (g.w 0) 64 →
    ownLsCode s (g.w 0) 64 64 = none →
    let f := templateAt s (g.w 0)
    let y := g.w 1
    let n := (bits y 15 8 + 1 - bits y 7 0) * (bits y 19 16 + 1)
    (launchStatus s f y ≠ 0 → ∃ t, exec (.launch d a b) s = .next t
      ∧ WaitsFor s t g (.launch d a b) (BitVec.ofNat 64 (launchStatus s f y)))
    ∧ ∀ seq, launchStatus s f y = 0 → Released s (some .chip) → freeSeq (getCore s s.who.1) = some seq →
      physOf s (logicalOf s s.who.1) = s.who.1 → logicalOf s s.who.1 < 192 →
      let l := logicalOf s s.who.1 * 256 + seq
      ∃ t, exec (.launch d a b) s = .next t
        ∧ (launchRec t l).map (fun r => (r.job, r.phase, r.count, r.st)) = some (myJob s, phaseNumber s, n, .running)
        ∧ (∀ j, (findJob t j).map (fun x => x.count) = (findJob s j).map fun x => if j = myJob s then x.count + 1 else x.count)
        ∧ (frJoin f = 0 → (me t).st = .waiting ∧ regs (me t) = regs (me s)
          ∧ ∃ ms, t.net = s.net ++ ms
              ++ [.reply (.slot s.who.1 s.who.2) s.nextTag 0 (.value (natBytes 8 (BitVec.ofNat 64 (l * 2 ^ 16)).toNat) false)]
            ∧ ms.length = n ∧ ∀ m ∈ ms, ∃ c e, m = .frame c (logicalOf s s.who.1) e (bits y 27 20)
            ∧ bits y 7 0 ≤ c ∧ c ≤ bits y 15 8 ∧ frLaunch e = l ∧ frEntry e = frEntry f)
        ∧ (frJoin f ≠ 0 → (me t).st = .waiting ∧ regs (me t) = regs (me s) ∧ ∃ r, t.net = s.net ++ [.req (destOf s.who.1 (frJoin f)) r]
          ∧ r.act = .joinAdd n ∧ r.parts = [{ addr := frJoin f, size := 8 }])

/-- R180, R182, R361: MXQ of a block that is refused writes status 2, of one whose level is closed status 3; a good block joins
the queue with the slot's FMT, FRM, EPI, LFSR and perturbation word, and d gets its identifier; a full queue makes the slot wait. -/
def Sys2Proof.Spec.MatrixJobs : Prop :=
  ∀ (s : State) (d a b : GReg) (g : Got), Running s → isClass1 s s.who.1 = false → Ready s [.g a, .g b] [d] g → Clean g 2 →
    Unlocked s (g.w 0) 64 → ownLsCode s (g.w 0) 64 64 = none →
    let c := getCore s s.who.1
    let blk := blockAt s (g.w 0)
    fmtValid (me s).fmt = true → holdOk c blk (me s).fmt = true → (me s).frm.toNat % 8 ≤ 4 →
    (mxqRefused blk (me s).fmt (me s).epi = true → ∃ t, exec (.mxq d a b) s = .next t
      ∧ CompletesG s t g d (BitVec.ofNat 64 (2 * 2 ^ 32)) 0 ((me s).pc + 4))
    ∧ (mxqRefused blk (me s).fmt (me s).epi = false → workClosed s = true → ∃ t, exec (.mxq d a b) s = .next t
      ∧ CompletesG s t g d (BitVec.ofNat 64 (3 * 2 ^ 32)) 0 ((me s).pc + 4))
    ∧ (mxqRefused blk (me s).fmt (me s).epi = false → workClosed s = false →
      (c.wide.mxq.length < 16 → ∃ t j, exec (.mxq d a b) s = .next t
        ∧ (getCore t s.who.1).wide.mxq = c.wide.mxq ++ [j]
        ∧ j.id = BitVec.ofNat 32 (c.lcore % 2 ^ 8 * 2 ^ 24 + s.who.2 % 16 * 2 ^ 20 + c.mxCount.toNat)
        ∧ j.job = (me s).jobId.toNat ∧ j.slot = s.who.2 ∧ j.blk = blk ∧ j.fmt = (me s).fmt ∧ j.frm = (me s).frm ∧ j.epi = (me s).epi
        ∧ j.decay = (g.w 1).setWidth 32 ∧ j.seed = (me s).lfsr ∧ j.pert = (me s).pert ∧ j.granted = false
        ∧ (getCore t s.who.1).mxCount = c.mxCount + 1
        ∧ Retired s t (writeG { me s with pert := 0, lfsr := if tbit (me s).frm 3 then lfsrStep (me s).lfsr else (me s).lfsr } d
            { val := j.id.setWidth 64 }) ((me s).pc + 4))
      ∧ (16 ≤ c.wide.mxq.length → exec (.mxq d a b) s = .next (updMe s fun sl => { sl with st := .waiting, park := .room })))

/-- R363, R365: MXEPI loads the activation table at once while no job is queued, and else waits for the queued ones. MXDRAIN
writes the number of its jobs once none is left, cancelling those not granted where it is asked to, which wakes the slots that
asked for them (R269); until then it parks. -/
def Sys2Proof.Spec.MatrixTableAndDrain : Prop :=
  ∀ (s : State) (g : Got), Running s → isClass1 s s.who.1 = false →
    let c := getCore s s.who.1
    (∀ a : GReg, isOwner s = true → Ready s [.g a] [] g → Clean g 1 → Unlocked s (g.w 0) 1024 →
      ownLsCode s (g.w 0) 1024 64 = none →
      let bs := memBytes c.res.ls (offset48 (g.w 0)) 1024
      (c.wide.mxq = [] → ∃ t, exec (.mxepi a) s = .next t ∧ Retired s t (me s) ((me s).pc + 4)
        ∧ ∀ k, k < 256 → mget (getCore t s.who.1).wide.actTable k = some (BitVec.ofNat 32 (leNat ((bs.drop (4 * k)).take 4))))
      ∧ (c.wide.mxq ≠ [] → ∃ t, exec (.mxepi a) s = .next t ∧ Issued s t g { pendOf s (.mxepi a) (g.w 0) with
          acc := BitVec.ofNat 64 s.nextOrder, got := [(0, .value bs false)] } []))
    ∧ ∀ (d : GReg) (cancel core : Bool), Ready s [] [d] g → (me s).pend = none →
      let mine := fun (j : MxJob) => decide (j.job = (me s).jobId.toNat) && (core || (j.card.isNone && decide (j.slot = s.who.2)))
      let n := (c.wide.mxq.filter mine).length
      (c.wide.mxq.filter mine = [] → (cancel = true → ∀ m, (getSlot s s.who.1 m).st ≠ .waiting) → ∃ t, exec (.mxdrain d cancel core) s = .next t
        ∧ Retired s t (writeG (me s) d {}) ((me s).pc + 4))
      ∧ (cancel = false → (∃ j ∈ c.wide.mxq, mine j = true ∧ j.order < s.nextOrder) → s.nextOrder < 2 ^ 64 →
        exec (.mxdrain d cancel core) s = .next (updMe s fun sl => { sl with
          st := .parked, park := .mxe
          pend := some { pendOf s (.mxdrain d cancel core) (BitVec.ofNat 64 s.nextOrder) with acc := BitVec.ofNat 64 n } }))
      ∧ (cancel = true → (∀ j ∈ c.wide.mxq, mine j = true → j.granted = false ∧ j.card = none ∧ j.order < s.nextOrder) →
        s.nextOrder < 2 ^ 64 → (∀ m, (getSlot s s.who.1 m).st ≠ .waiting) → idleTests c.cc (me s) = false →
        ∃ t, exec (.mxdrain d cancel core) s = .next t
          ∧ (∃ latch, regs (me t) = regs (writeG { me s with idleLatch := latch } d { val := BitVec.ofNat 64 n })
            ∧ (savedFor s s.who.1 (myJob s) = false →
              (latch = true ↔ (me s).idleLatch = true ∨ ∃ j ∈ c.wide.mxq, mine j = true ∧ j.slot = s.who.2)))
          ∧ (me t).st = .active ∧ (me t).pend = none ∧ (me t).pc = retirePc (me s) ((me s).pc + 4)
          ∧ slotRsn t s.who.1 s.who.2 = slotRsn s s.who.1 s.who.2 + 1
          ∧ (∀ q m, (q, m) ≠ s.who → { atRest (getSlot t q m) with idleLatch := false } = { atRest (getSlot s q m) with idleLatch := false })
          ∧ (getCore t s.who.1).wide.mxq = c.wide.mxq.filter fun j => !mine j)

/-- R190, R191, R193, R367: HDSET writes a hod control register of its slot. HDGO takes the hod-setup fault with the number of the
first register that fails its check; else it enqueues a transfer with the registers' values and writes its identifier, or reads
the ring object first. A full queue makes the slot wait, in the order in which slots began to. -/
def Sys2Proof.Spec.TransferCommands : Prop :=
  ∀ (s : State) (g : Got), Running s →
    let c := getCore s s.who.1
    let rs := hodRegs c s.who.2
    let w := slotWaiter (myJob s) s.who.2
    (∀ (n : BitVec 3) (a : GReg), Ready s [.g a] [] g → NoPoison g → ∃ r, CompletesN s r g ((me s).pc + 4)
      ∧ exec (.hdset n a) s = .next (updWide r s.who.1 fun w => { w with hodRegs := mset w.hodRegs (16 * s.who.2 + n.toNat) (g.w 0) }))
    ∧ ∀ d : GReg, Ready s [] [d] g →
      (∀ n, hodCheck rs = some n → (bits (rs.getD 4 0) 50 48 = 5 → Unlocked s (rs.getD 1 0) 32) → exec (.hdgo d) s = .next (freeze s 0x07 (BitVec.ofNat 64 n)))
      ∧ (hodCheck rs = none → bits (rs.getD 4 0) 50 48 ≠ 5 → c.hodq.length < 8 →
        (c.hodWait = [] ∨ c.hodWait.head? = some w ∧ stillWaits s s.who.1 w = true) → ∃ t x, exec (.hdgo d) s = .next t
        ∧ (getCore t s.who.1).hodq = c.hodq ++ [x] ∧ x.regs = rs ∧ x.job = (me s).jobId.toNat ∧ x.slot = s.who.2
        ∧ x.id = BitVec.ofNat 32 (c.lcore % 2 ^ 8 * 2 ^ 24 + s.who.2 % 16 * 2 ^ 20 + ((mget c.hodCount s.who.2).getD 0).toNat)
        ∧ x.started = false ∧ mget (getCore t s.who.1).hodCount s.who.2 = some ((mget c.hodCount s.who.2).getD 0 + 1)
        ∧ Retired s t (writeG (me s) d { val := x.id.setWidth 64 }) ((me s).pc + 4))
      ∧ (hodCheck rs = none → bits (rs.getD 4 0) 50 48 ≠ 5 → 8 ≤ c.hodq.length →
        exec (.hdgo d) s = .next (updMe (waitSlotHod s) fun sl => { sl with st := .waiting, park := .room }))
      ∧ (hodCheck rs = none → bits (rs.getD 4 0) 50 48 = 5 → ringAddrOk (rs.getD 1 0) = true → isLocal (rs.getD 1 0) = false →
        ∃ t, exec (.hdgo d) s = .next t ∧ Issued s t g (remembers s (.hdgo d) (rs.getD 1 0) .load 0)
          [.req (destOf s.who.1 (rs.getD 1 0)) (mkReq s s.nextTag 30 .ringRead [{ addr := rs.getD 1 0, size := 32 }])])

/-- R369, R370: RINGI, RINGAW and RINGREL whose checks pass send their act on the ring object to its owner; an image that is not
well formed takes the hod-setup fault. -/
def Sys2Proof.Spec.RingInstructions : Prop :=
  ∀ (s : State) (a b d : GReg) (g : Got), (me s).st = .active → Unlocked s (g.w 0) 32 →
    let sends := fun (i : Instr) (act : Act) (q : Part) => ∃ t, exec i s = .next t
      ∧ Issued s t g (remembers s i (g.w 0) .load 0) [.req (destOf s.who.1 (g.w 0)) (mkReq s s.nextTag 30 act [q])]
    (Ready s [.g a, .g b] [] g → Clean g 2 → ringCode s (g.w 0) true = none → Unlocked s (g.w 1) 32 →
      ownLsCode s (g.w 1) 32 32 = none →
      let x := (getCore s s.who.1).res
      let image := memBytes x.ls (offset48 (g.w 1)) 32
      (imageOk (BitVec.ofNat 256 (leNat image)) = true → sends (.ringi a b) .ringInit
        { addr := g.w 0, size := 32, data := image, psn := poisonRead 8 x.lsPoison (offset48 (g.w 1)) 32 })
      ∧ (imageOk (BitVec.ofNat 256 (leNat image)) = false → exec (.ringi a b) s = .next (freeze s 0x07 (g.w 0))))
    ∧ (Ready s [.g a, .g b] [d] g → Clean g 2 → ringCode s (g.w 0) false = none →
      sends (.ringaw d a b) (.ringWait ((g.w 1).setWidth 32)) { addr := g.w 0, size := 32 })
    ∧ (Ready s [.g a, .g b] [] g → Clean g 2 → ringCode s (g.w 0) true = none → Released s (some .chip) →
      sends (.ringrel a b) (.ringRelease ((g.w 1).setWidth 32)) { addr := g.w 0, size := 32 })

namespace Sys2Proof.Spec

/-- A tile-table entry (R92). -/
def tileEntryOf (state uses count job : Nat) (rest : BitVec 32) : BitVec 32 :=
  (rest &&& 0x01FC0000) ||| BitVec.ofNat 32 (job * 2 ^ 25 + state * 2 ^ 16 + uses * 2 ^ 8 + count)

end Sys2Proof.Spec

/-- R195, R336, R343, R358, R373 to R375, R377: TLSET, CARDQ, CANCEL of a launch and of a card instance, AREDC, AREDW,
WAITT form 1 and REP. That CARDQ and CANCEL act in the step in which they issue is log 65, and that a CANCEL of a level that has ended in
another way, as by an earlier CANCEL, answers 1 is log 66 (DESIGN CHOICE). CANCEL of a phase is not stated here. -/
def Obligations.CoreUnits : Prop :=
  ∀ (s : State) (g : Got), Running s →
    let c := getCore s s.who.1
    let job := (me s).jobId.toNat
    (∀ (a b : GReg) (ready : Bool), Ready s [.g a, .g b] [] g → Clean g 2 →
      let t := (g.w 0).toNat
      let e := (mget c.res.tiles t).getD 0
      (t ≤ 47 → bits e 17 16 = 1 ∨ bits e 17 16 = 3 →
        exec (.tlset a b ready) s = .next (updMe s fun sl => { sl with st := .parked, park := .tile t }))
      ∧ (47 < t → exec (.tlset a b ready) s = .next (freeze s 0x02 0))
      ∧ (t ≤ 47 → bits e 17 16 = 0 ∨ bits e 17 16 = 2 → Released s (some .chip) →
        regionOk c.res job (if t < 32 then 1 else 2) (if t < 32 then 4096 * t else 4096 * (t - 32)) 4096 true false = true →
        ∃ u, exec (.tlset a b ready) s = .next u ∧ Retired s u (me s) ((me s).pc + 4)
          ∧ ∀ k, (mget (getCore u s.who.1).res.tiles k).getD 0 =
            if k = t ∧ ready = true ∧ bits e 17 16 = 0 then
              tileEntryOf 2 (bits (g.w 1) 7 0) ((bits e 7 0 + 1) % 256) job e
            else if k = t ∧ ready = false ∧ bits e 17 16 = 2 then tileEntryOf 0 (bits e 15 8) (bits e 7 0) job e
            else (mget c.res.tiles k).getD 0))
    ∧ (∀ d a : GReg, Ready s [.g a] [d] g → NoPoison g →
      (bits (g.w 0) 63 16 ≠ 0 → ∃ t, exec (.cardq d a) s = .next t ∧ WaitsFor s t g (.cardq d a) 2)
      ∧ (bits (g.w 0) 63 16 = 0 → findJob s job = none → ∃ t, exec (.cardq d a) s = .next t ∧ WaitsFor s t g (.cardq d a) 3)
      ∧ (bits (g.w 0) 63 16 = 0 → bits (g.w 0) 15 0 = 0xFFFF → (findJob s job).isSome = true →
        ∃ t, exec (.cardq d a) s = .next t ∧ WaitsFor s t g (.cardq d a) 2)
      ∧ ∀ j cards s', bits (g.w 0) 63 16 = 0 → bits (g.w 0) 15 0 ≠ 0xFFFF → findJob s job = some j → workClosed s = false →
        cardChain s j (bits j.record 55 40 + 1) (bits (g.w 0) 15 0) [] = (some cards, s') →
        (s'.cores = s.cores ∧ s'.graphs = s.graphs ∧ s'.nextInst = s.nextInst ∧ s'.nextGen = s.nextGen ∧ s'.who = s.who) →
        s.nextInst < 256 → (∀ i ∈ s.graphs, i.inst = s.nextInst → i.st ≠ .running) → ∃ t, exec (.cardq d a) s = .next t
          ∧ (me t).st = .waiting ∧ regs (me t) = regs (me s)
          ∧ (∃ tag, (me t).pend.map Pend.tag = some tag ∧ .reply (.slot s.who.1 s.who.2) tag 0
            (.value (natBytes 8 (BitVec.ofNat 64 (s.nextGen.toNat * 2 ^ 16 + s.nextInst * 2 ^ 8)).toNat) false) ∈ t.net)
          ∧ ∃ i ∈ t.graphs, i.inst = s.nextInst ∧ i.gen = s.nextGen ∧ i.job = job ∧ i.cards = cards ∧ i.st = .running)
    ∧ (∀ (d a : GReg) (level : Level), Ready s [.g a] [d] g → NoPoison g →
      ((level = .launch ∧ ∀ r, launchRec s (bits (g.w 0) 31 16) = some r → r.job ≠ job) ∨ (level = .graph ∧ namedGraph s (g.w 0) = none) →
        ∃ t, exec (.cancel d a level) s = .next t ∧ WaitsFor s t g (.cancel d a level) 2)
      ∧ (∀ r, level = .launch → launchRec s (bits (g.w 0) 31 16) = some r → r.job = job → r.st ≠ .running →
        ∃ t, exec (.cancel d a level) s = .next t ∧ WaitsFor s t g (.cancel d a level) 1)
      ∧ (∀ r, level = .launch → launchRec s (bits (g.w 0) 31 16) = some r → r.job = job → r.st = .running →
        exec (.cancel d a level) s = .next (answered (cancelLaunch s (bits (g.w 0) 31 16)) g (.cancel d a level) 0))
      ∧ (∀ i, level = .graph → namedGraph s (g.w 0) = some i → i.job = job → i.st = .running →
        exec (.cancel d a level) s = .next (answered (cancelGraph s (i.gen.toNat * 256 + i.inst)) g (.cancel d a level) 0)))
    ∧ (∀ (a : VReg) (op : RedOp), Ready s [.v a] [] g →
      (untaken c < 2 → ∃ u, CompletesN s u g ((me s).pc + 4) ∧ exec (.aredc a op) s = .next (updCore u s.who.1 fun c =>
        { c with contribs := c.contribs ++ [{ job := job, val := g.v 0, op := op, psn := g.psn, key := senderKey s s.who.1 s.who.2
                                              time := s.plumb, tree := treeNow s job }] }))
      ∧ (2 ≤ untaken c → exec (.aredc a op) s = .next (updMe s fun sl => { sl with st := .parked, park := .reduction })))
    ∧ (∀ d : VReg,
      (∀ r, c.results.find? (fun x => x.1 = job) = some r → ∃ t, exec (.aredw d) s = .next t
        ∧ Retired s t (setVCell (me s) d.toNat { val := r.2.1, full := true, psn := r.2.2 }) ((me s).pc + 4)
        ∧ (getCore t s.who.1).results = c.results.erase r)
      ∧ (c.results.find? (fun x => x.1 = job) = none →
        exec (.aredw d) s = .next (updMe s fun sl => { sl with st := .parked, park := .reduction })))
    ∧ (∀ d a : GReg, Ready s [] [d] g →
      ((me s).latchSeen = 0 → exec (.waitt d a true) s = .next (updMe s fun sl =>
        { sl with latchSeen := s.latches + 1, st := .parked, park := .latch }))
      ∧ ((me s).latchSeen ≠ 0 → (me s).latchSeen ≤ s.latches → ∃ t, exec (.waitt d a true) s = .next t
        ∧ Retired s t (writeG { me s with latchSeen := 0 } d { val := (latchedStamp s).setWidth 64 }) ((me s).pc + 4)))
    ∧ ∀ (count : BitVec 6) (sd sa sb sc len : BitVec 4) (ws : List (BitVec 32)),
      capture s s.who.1 s.who.2 ((me s).pc + 4) (len.toNat + 1) = (.words ws, s) → (curFrame (me s)).v = false →
      ∃ t, exec (.rep count sd sa sb sc len) s = .next t ∧ CompletesN s t {} ((me s).pc + 4)
        ∧ curFrame (me t) = { v := true, base := (me s).pc, cntM1 := count, lenM1 := len, sd := sd, sa := sa, sb := sb, sc := sc
                              repi := 0, pos := 0, words := ws }

namespace Sys2Proof.Spec

/-! ### Scan cores (R218, R220, R221) -/

/-- The state after an instruction of the hart: the hart as given, at `npc`, with one retirement more. -/
def hartGoes (s : State) (t : Hart) (npc : Word) : State :=
  updHart s s.hartId fun _ => { t with pc := npc, retired := t.retired + 1, waiting := false }

/-- The state after a trap of the hart (R218). -/
def hartTraps (s : State) (cause : Nat) (tval : Word) : State := updHart s s.hartId fun t => hartTrapped t cause tval

/-- Words of formats R, I, U, B, J of the base architecture. -/
def wordR (f7 : BitVec 7) (rs2 rs1 : XReg) (f3 : BitVec 3) (rd : XReg) (op : BitVec 7) : BitVec 32 := f7 ++ rs2 ++ rs1 ++ f3 ++ rd ++ op
def wordI (imm : BitVec 12) (rs1 : XReg) (f3 : BitVec 3) (rd : XReg) (op : BitVec 7) : BitVec 32 := imm ++ rs1 ++ f3 ++ rd ++ op
def wordU (imm : BitVec 20) (rd : XReg) (op : BitVec 7) : BitVec 32 := imm ++ rd ++ op
def wordB (off : BitVec 12) (rs2 rs1 : XReg) (f3 : BitVec 3) : BitVec 32 :=
  off.extractLsb' 11 1 ++ off.extractLsb' 4 6 ++ rs2 ++ rs1 ++ f3 ++ off.extractLsb' 0 4 ++ off.extractLsb' 10 1 ++ 0x63#7
def wordJ (off : BitVec 20) (rd : XReg) : BitVec 32 :=
  off.extractLsb' 19 1 ++ off.extractLsb' 0 10 ++ off.extractLsb' 10 1 ++ off.extractLsb' 11 8 ++ rd ++ 0x6F#7

/-- Results of register and immediate instructions of the base architecture, and of M: word, destination and value. -/
inductive BaseResult (t : Hart) : BitVec 32 → XReg → Word → Prop
  | lui imm rd : BaseResult t (wordU imm rd 0x37) rd ((imm ++ 0#12).signExtend 64)
  | auipc imm rd : BaseResult t (wordU imm rd 0x17) rd (t.pc + (imm ++ 0#12).signExtend 64)
  | addi imm rs1 rd : BaseResult t (wordI imm rs1 0 rd 0x13) rd (hx t rs1 + imm.signExtend 64)
  | slti imm rs1 rd : BaseResult t (wordI imm rs1 2 rd 0x13) rd (flag ((hx t rs1).toInt < imm.toInt))
  | sltiu imm rs1 rd : BaseResult t (wordI imm rs1 3 rd 0x13) rd (flag ((hx t rs1).toNat < (imm.signExtend 64).toNat))
  | xori imm rs1 rd : BaseResult t (wordI imm rs1 4 rd 0x13) rd (hx t rs1 ^^^ imm.signExtend 64)
  | ori imm rs1 rd : BaseResult t (wordI imm rs1 6 rd 0x13) rd (hx t rs1 ||| imm.signExtend 64)
  | andi imm rs1 rd : BaseResult t (wordI imm rs1 7 rd 0x13) rd (hx t rs1 &&& imm.signExtend 64)
  | slli (k : BitVec 6) rs1 rd : BaseResult t (wordI (0#6 ++ k) rs1 1 rd 0x13) rd (hx t rs1 <<< k.toNat)
  | srli (k : BitVec 6) rs1 rd : BaseResult t (wordI (0#6 ++ k) rs1 5 rd 0x13) rd (hx t rs1 >>> k.toNat)
  | srai (k : BitVec 6) rs1 rd : BaseResult t (wordI (0x10#6 ++ k) rs1 5 rd 0x13) rd ((hx t rs1).sshiftRight k.toNat)
  | addiw imm rs1 rd : BaseResult t (wordI imm rs1 0 rd 0x1B) rd (((hx t rs1 + imm.signExtend 64).setWidth 32).signExtend 64)
  | add rs2 rs1 rd : BaseResult t (wordR 0 rs2 rs1 0 rd 0x33) rd (hx t rs1 + hx t rs2)
  | sub rs2 rs1 rd : BaseResult t (wordR 0x20 rs2 rs1 0 rd 0x33) rd (hx t rs1 - hx t rs2)
  | sll rs2 rs1 rd : BaseResult t (wordR 0 rs2 rs1 1 rd 0x33) rd (hx t rs1 <<< ((hx t rs2).toNat % 64))
  | slt rs2 rs1 rd : BaseResult t (wordR 0 rs2 rs1 2 rd 0x33) rd (flag ((hx t rs1).toInt < (hx t rs2).toInt))
  | sltu rs2 rs1 rd : BaseResult t (wordR 0 rs2 rs1 3 rd 0x33) rd (flag ((hx t rs1).toNat < (hx t rs2).toNat))
  | xor rs2 rs1 rd : BaseResult t (wordR 0 rs2 rs1 4 rd 0x33) rd (hx t rs1 ^^^ hx t rs2)
  | srl rs2 rs1 rd : BaseResult t (wordR 0 rs2 rs1 5 rd 0x33) rd (hx t rs1 >>> ((hx t rs2).toNat % 64))
  | sra rs2 rs1 rd : BaseResult t (wordR 0x20 rs2 rs1 5 rd 0x33) rd ((hx t rs1).sshiftRight ((hx t rs2).toNat % 64))
  | or rs2 rs1 rd : BaseResult t (wordR 0 rs2 rs1 6 rd 0x33) rd (hx t rs1 ||| hx t rs2)
  | and rs2 rs1 rd : BaseResult t (wordR 0 rs2 rs1 7 rd 0x33) rd (hx t rs1 &&& hx t rs2)
  | mul rs2 rs1 rd : BaseResult t (wordR 1 rs2 rs1 0 rd 0x33) rd (hx t rs1 * hx t rs2)
  | divu rs2 rs1 rd : BaseResult t (wordR 1 rs2 rs1 5 rd 0x33) rd
      (if hx t rs2 = 0 then BitVec.allOnes 64 else BitVec.ofNat 64 ((hx t rs1).toNat / (hx t rs2).toNat))
  | remu rs2 rs1 rd : BaseResult t (wordR 1 rs2 rs1 7 rd 0x33) rd
      (if hx t rs2 = 0 then hx t rs1 else BitVec.ofNat 64 ((hx t rs1).toNat % (hx t rs2).toNat))

/-- Conditional branches of the base architecture. -/
inductive BaseBranch : BitVec 3 → (Word → Word → Prop) → Prop
  | beq : BaseBranch 0 fun x y => x = y
  | bne : BaseBranch 1 fun x y => x ≠ y
  | blt : BaseBranch 4 fun x y => x.toInt < y.toInt
  | bge : BaseBranch 5 fun x y => y.toInt ≤ x.toInt
  | bltu : BaseBranch 6 fun x y => x.toNat < y.toNat
  | bgeu : BaseBranch 7 fun x y => y.toNat ≤ x.toNat

/-- The word of the process image at an offset, as a number of 32 bits. -/
def imageWord (s : State) (off : Nat) : BitVec 32 := BitVec.ofNat 32 (leNat (memBytes s.image off 4))

/-- The view of the issuing hart is valid and not too old for IMLW (R221). -/
def ViewGood (s : State) : Prop := tbit (hme s).sview 32 = true ∧ (s.stamp - (hme s).sview.setWidth 32).toNat < 2

end Sys2Proof.Spec

/-- R218: words of the base architecture: register and immediate instructions write x[rd] and go on (x0 discards); jumps and
branches go to their targets; ECALL, EBREAK and illegal words take their traps, MRET returns. R218 only names the
architecture: the results, causes and traps are logs 4 and 59 (PRESUMED) and log 55 (DEDUCED). Loads, stores, most of M, the W forms but
ADDIW, and A, F, D, C, Zba and Zbb are not stated here. -/
def Sys2Proof.Spec.ScanCoreBase : Prop :=
  ∀ s : State,
    let t := hme s
    let runs := fun (u : State) => exec .scanCoreBaseInstruction s = .next u
    (∀ rd v, BaseResult t s.word rd v → runs (hartGoes s (setHx t rd v) (t.pc + 4)))
    ∧ (∀ off rd, s.word = wordJ off rd → runs (hartGoes s (setHx t rd (t.pc + 4)) (t.pc + (off ++ 0#1).signExtend 64)))
    ∧ (∀ imm rs1 rd, s.word = wordI imm rs1 0 rd 0x67 →
      runs (hartGoes s (setHx t rd (t.pc + 4)) ((hx t rs1 + imm.signExtend 64) &&& ~~~1)))
    ∧ (∀ off rs2 rs1 f3 c, BaseBranch f3 c → s.word = wordB off rs2 rs1 f3 →
      (c (hx t rs1) (hx t rs2) → runs (hartGoes s t (t.pc + (off ++ 0#1).signExtend 64)))
      ∧ (¬ c (hx t rs1) (hx t rs2) → runs (hartGoes s t (t.pc + 4))))
    ∧ (s.word = 0x00000073 → runs (hartTraps s (if t.mode = .m then 11 else 8) 0))
    ∧ (s.word = 0x00100073 → runs (hartTraps s 3 t.pc))
    ∧ (s.word = 0x30200073 → t.mode = .u → runs (hartTraps s 2 0x30200073))
    ∧ (s.word = 0x30200073 → t.mode = .m → runs (hartGoes s (hartReturned t) (hcsr t 0x341)))
    ∧ (s.word = 0 → runs (hartTraps s 2 0))

/-- R220, R221: IMLW, OMSW, WSCAN, RTIME, SAGE, SCQ and SCW. -/
def Sys2Proof.Spec.ScanCoreCustom : Prop :=
  ∀ (s : State) (rd rs1 rs2 : XReg) (imm : BitVec 12),
    let t := hme s
    let ea := hx t rs1 + imm.signExtend 64
    let half := (t.sview.toNat % 2 ^ 32) % 2 * 0x200000
    let load := fun u => exec (.imlw rd rs1 imm) s = .next u
    let store := fun u => exec (.omsw rs2 rs1 imm) s = .next u
    let late := hartGoes s { t with sflag := t.sflag ||| 4 } (t.pc + 4)
    (0x200000 ≤ ea.toNat → load (hartTraps s 5 ea)) ∧ (ea.toNat < 0x200000 → ea.toNat % 4 ≠ 0 → load (hartTraps s 4 ea))
    ∧ (ea.toNat < 0x200000 → ea.toNat % 4 = 0 → ¬ ViewGood s →
      load (hartGoes s (setHx { t with sflag := t.sflag ||| 2 } rd 0) (t.pc + 4)))
    ∧ (ea.toNat < 0x200000 → ea.toNat % 4 = 0 → ViewGood s →
      (pmpOk t (dataMode t) (imageAddr (half + ea.toNat)) 4 0 = false ∨ edgeFenced s 0xE2 = true →
        load (hartTraps s 5 (imageAddr (half + ea.toNat)))))
    ∧ (ea.toNat < 0x200000 → ea.toNat % 4 = 0 → ViewGood s → pmpOk t (dataMode t) (imageAddr (half + ea.toNat)) 4 0 = true →
      edgeFenced s 0xE2 = false → latchHolds s 0xE2 (half + ea.toNat) = false →
      (coveringGate s 0 ea.toNat = none → (s.stamp - t.sview.setWidth 32).toNat ≤ t.slim.toNat →
        load (hartGoes s (setHx t rd ((imageWord s (half + ea.toNat)).signExtend 64)) (t.pc + 4)))
      ∧ ∀ g, coveringGate s 0 ea.toNat = some g →
        ((s.stamp - imageWord s (half + 0x40 + 4 * g)).toNat ≤ t.slim.toNat →
          load (hartGoes s (setHx t rd ((imageWord s (half + ea.toNat)).signExtend 64)) (t.pc + 4)))
        ∧ (t.slim.toNat < (s.stamp - imageWord s (half + 0x40 + 4 * g)).toNat →
          load (hartGoes s (setHx { t with sflag := BitVec.ofNat 14 (g % 64 * 2 ^ 8 + bits t.sflag 2 1 * 2 + 1) } rd 0) (t.pc + 4))))
    ∧ (ea.toNat < 0x1000 ∨ 0x100000 ≤ ea.toNat → store (hartTraps s 7 ea))
    ∧ (0x1000 ≤ ea.toNat → ea.toNat < 0x100000 →
      (ea.toNat % 4 ≠ 0 → store (hartTraps s 6 ea))
      ∧ (ea.toNat % 4 = 0 → tbit t.sview 32 = false ∨ t.sview.setWidth 32 ≠ s.stamp → store late)
      ∧ (ea.toNat % 4 = 0 → tbit t.sview 32 = true → t.sview.setWidth 32 = s.stamp →
        pmpOk t (dataMode t) (imageAddr (outHalf s.stamp.toNat + ea.toNat)) 4 1 = false ∨ edgeFenced s 0xE2 = true →
        store (hartTraps s 7 (imageAddr (outHalf s.stamp.toNat + ea.toNat))))
      ∧ (ea.toNat % 4 = 0 → tbit t.sview 32 = true → t.sview.setWidth 32 = s.stamp →
        pmpOk t (dataMode t) (imageAddr (outHalf s.stamp.toNat + ea.toNat)) 4 1 = true → edgeFenced s 0xE2 = false →
        (∀ g, coveringGate s 1 ea.toNat = some g → (getGate s g).frozen = true → store late)
        ∧ ((∀ g, coveringGate s 1 ea.toNat = some g → (getGate s g).frozen = false) →
          ∃ u, store u ∧ hme u = { t with pc := t.pc + 4, retired := t.retired + 1, waiting := false }
            ∧ (Memory.wf s.image → ∀ a, memByte u.image a =
              let o := outHalf s.stamp.toNat + ea.toNat
              let old := memByte s.image a
              if o ≤ a ∧ a < o + 4 then (natBytes 4 (hx t rs2).toNat).getD (a - o) 0
              else match coveringGate s 1 ea.toNat with
                | some g =>
                  let st := outHalf s.stamp.toNat + 0x40 + 4 * g
                  if st ≤ a ∧ a < st + 4 then (natBytes 4 s.stamp.toNat).getD (a - st) 0 else old
                | none => old))))
    ∧ (t.waiting = false → exec (.wscan rd) s = .next (updHart s s.hartId fun t => { t with waiting := true, latchSeen := s.latches }))
    ∧ (t.waiting = true → s.latches ≤ t.latchSeen → exec (.wscan rd) s = .next s)
    ∧ (t.waiting = true → t.latchSeen < s.latches →
      let v := imageWord s (latchedHalf s % 2 * 0x200000)
      exec (.wscan rd) s = .next (hartGoes s (setHx { t with sview := 1#1 ++ v } rd (v.setWidth 64)) (t.pc + 4)))
    ∧ (mortarMode s t.sjob.toNat = 0 → exec (.rtime rd) s = .next (hartGoes s (setHx t rd (BitVec.ofNat 64 s.plumb)) (t.pc + 4)))
    ∧ (2 ^ 31 < (hx t rs2).toNat → exec (.sage rd rs1 rs2) s = .next (hartTraps s 2 (s.word.setWidth 64)))
    ∧ ((hx t rs2).toNat ≤ 2 ^ 31 →
      let age : BitVec 32 := s.stamp - (hx t rs1).setWidth 32
      exec (.sage rd rs1 rs2) s = .next (hartGoes s
        (setHx t rd (if age.toNat ≤ (hx t rs2).toNat then age.setWidth 64 else BitVec.allOnes 64)) (t.pc + 4)))
    ∧ (bits (hx t rs1) 63 16 ≠ 0 → exec (.scq rd rs1) s = .next (hartGoes s (setHx t rd 2) (t.pc + 4)))
    ∧ (bits (hx t rs1) 63 16 = 0 → findJob s t.sjob.toNat = none →
      exec (.scq rd rs1) s = .next (hartGoes s (setHx t rd 3) (t.pc + 4)))
    ∧ (∀ j cards s', bits (hx t rs1) 63 16 = 0 → bits (hx t rs1) 15 0 ≠ 0xFFFF → findJob s t.sjob.toNat = some j → j.cancelled = false →
      cardChain s j (bits j.record 55 40 + 1) (bits (hx t rs1) 15 0) [] = (some cards, s') →
      (s'.harts = s.harts ∧ s'.graphs = s.graphs ∧ s'.nextInst = s.nextInst ∧ s'.nextGen = s.nextGen ∧ s'.hartId = s.hartId) →
      s.nextInst < 256 → (∀ i ∈ s.graphs, i.inst = s.nextInst → i.st ≠ .running) → ∃ u, exec (.scq rd rs1) s = .next u
        ∧ (hme u).x = (setHx t rd (BitVec.ofNat 64 (s.nextGen.toNat * 2 ^ 16 + s.nextInst * 2 ^ 8))).x ∧ (hme u).pc = t.pc + 4
        ∧ ∃ i ∈ u.graphs, i.inst = s.nextInst ∧ i.gen = s.nextGen ∧ i.job = t.sjob.toNat ∧ i.cards = cards ∧ i.phase = none ∧ i.st = .running)
    ∧ (namedGraph s (hx t rs1 <<< 8) = none → exec (.scw rd rs1) s = .next (hartGoes s (setHx t rd 3) (t.pc + 4)))
    ∧ ∀ i, namedGraph s (hx t rs1 <<< 8) = some i →
      (i.st = .running → exec (.scw rd rs1) s = .next (updHart s s.hartId fun t => { t with waiting := true }))
      ∧ (i.st ≠ .running → exec (.scw rd rs1) s = .next (hartGoes s
        (setHx t rd (if i.st = .complete then 0 else if i.st = .cancelled then 1 else 2)) (t.pc + 4)))

namespace Sys2Proof.Spec

/-! ### Messages at their targets (R42, R56, R59, R60, R148, R269, R308, R358, R453) -/

/-- The tag by which its source knows a message. -/
def msgTag : Msg → Nat
  | .fill _ _ _ _ t .. | .send _ _ _ _ t .. | .urgent _ t .. | .decr _ t .. => t
  | .req _ r => r.tag
  | _ => 0

/-- MESSAGE `m` ARRIVES at logical core `lc`, which physical core `p` holds: the step's input names it, it is the first of its
source, the core is mapped, up, without a core-scope fault, not stopped for a ratio change, not switching contexts and not fenced, `job` is registered with its
context in the core, its Mortar is off; the event did not drop out at an earlier gang switch (log 79). -/
structure Reaches (s : State) (m : Msg) (src : Agent) (lc p job : Nat) : Prop where
  there : s.net[s.input.n]? = some m
  first : ∀ slot, msgBehind s s.input.n src job lc slot = false
  stands : clockStands s p = false
  mapped : lpctV s lc = true ∧ physOf s lc = p
  up : (getCluster s (clusterOf p)).fenced = false ∧ (getCluster s (clusterOf p)).powered = true
  resident : (findJob s job).isSome = true ∧ savedFor s p job = false ∧ (getCore s p).switching = false
  well : (getCore s p).coreFault = false
  off : mortarMode s job = 0
  stayed : (src, msgTag m) ∉ s.dropped

/-- An acceptance table takes an event: its key's entry is not valid, or the RSN lies ahead of the last one accepted (R148). -/
def NewEvent (t : Map (BitVec 32)) (key : Nat) (rsn : BitVec 32) : Prop :=
  ∀ last, mget t key = some last → rsn ≠ last ∧ (rsn - last).toNat < 2 ^ 31

/-- The answer to a slot; other agents get none. -/
def answerTo (src : Agent) (tag : Nat) (a : Answer) : List Msg :=
  match src with
  | .slot _ _ => [.reply src tag 0 a]
  | _ => []

/-- The message that the step's input names has left the fabric, and `more` has come. Nothing has changed but core `p`. -/
structure Taken (s t : State) (p : Nat) (more : List Msg) : Prop where
  net : t.net = ldrop s.net s.input.n ++ more
  cores : ∀ q, q ≠ p → getCore t q = getCore s q
  rest : { restState t with net := [], heldMsgs := [] } = { restState s with net := [], heldMsgs := [] }

/-- Of core `p` only slot `n` has changed, its acceptance table and its journal with the agents it has entries of. -/
def OnlySlot (s t : State) (p n : Nat) : Prop :=
  (∀ k, k ≠ n → getSlot t p k = getSlot s p k)
  ∧ restCore { getCore t p with wide := { (getCore t p).wide with accept := [] } }
    = restCore { getCore s p with wide := { (getCore s p).wide with accept := [] }, authors := (getCore t p).authors }

/-- A wake event of R269 at clock `cc`: a slot parked by IDLE becomes Active; an IDLE that has issued and whose test comes no
earlier than the event finds the latch set and clears it; otherwise the idle latch is set. -/
def afterWake (cc : Nat) (sl : Slot) : Slot :=
  if sl.st = .parked ∧ sl.park = .idle then { sl with st := .active, park := .none }
  else if cc ≤ sl.wbDue ∧ idleMark ∈ sl.wbRegs then sl
  else { sl with idleLatch := true }

/-- An error record of R416: CLASS, CODE, SEV, SRC and JOBID. -/
structure ErrorIs (s : State) (e : BitVec 256) (cls code sev src job : Nat) : Prop where
  time : bits e 255 192 = s.plumb % 2 ^ 64
  cls : bits e 24 21 = cls
  code : bits e 32 25 = code
  sev : bits e 20 19 = sev
  src : bits e 51 40 = src % 2 ^ 12
  job : bits e 39 33 = job % 2 ^ 7

/-- The receive entry of a SEND (R307); a poisoned word is stored as the pattern, data 0 (R455, R456). -/
def entryBytes (h : HeldSend) : List Byte :=
  natBytes 8 (if h.psn0 then 0 else h.w0.toNat) ++ natBytes 8 (if h.psn1 then 0 else h.w1.toNat) ++ natBytes 4 (h.tag.toNat * 2 ^ 12 + h.key.toNat) ++ natBytes 4 0 ++ natBytes 4 h.rsn.toNat
    ++ natBytes 4 0

end Sys2Proof.Spec

/-- R56, R59, R60, R148, R308, R358, R453: a register fill writes its register, unless an instruction's write to it is still to come, sets it full and wakes a slot parked on it (a PURGE's write still to come leaves the
register empty with the fill's value and poison, R268); a SEND
writes its entry into the receive ring and advances k(ka); an urgent message waits at its slot, which accepts it into the urgent
bank; a repeat is acknowledged and changes nothing; a refused full/empty request is sent again; WAITT ends at its time. -/
def Obligations.Arrivals : Prop :=
  ∀ (s : State) (p lc n job tag : Nat) (key : BitVec 12) (rsn : BitVec 32) (src : Agent),
    let sl := getSlot s p n
    let last := (getCore s p).wide.accept
    (∀ (vec : Bool) (reg : Nat) (val : V512) (psn : Bool),
      let m := Msg.fill key job rsn src tag lc n vec reg val psn
      Reaches s m src lc p job → s.heldMsgs = [] →
      (NewEvent last key.toNat rsn → sl.st ≠ .empty → sl.st ≠ .starting → sl.jobId.toNat = job → (vec = true ∨ reg ≠ 0) →
        ∃ t, exec .registerFill s = .next t ∧ Taken s t p (answerTo src tag .tack) ∧ OnlySlot s t p n
          ∧ (let put := fun full => if vec then setVCell sl reg { val := val, full := full, psn := psn }
                else setGCell sl reg { val := val.setWidth 64, full := full, psn := psn }
             let u := if (getCore s p).cc < sl.wbDue ∧ (vec, reg) ∈ sl.wbRegs then
                  if (if vec then (vCell sl reg).full else (gCell sl reg).full) then sl else put false
                else put true
             getSlot t p n = afterWake (getCore s p).cc (if sl.st = .parked ∧ sl.park = .reg vec reg then { u with st := .active, park := .none } else u))
          ∧ (key.toNat < 3072 → mget (getCore t p).wide.accept key.toNat = some rsn))
      ∧ (NewEvent last key.toNat rsn → (sl.st = .empty ∨ sl.st = .starting ∨ sl.jobId.toNat ≠ job ∨ vec = false ∧ reg = 0) →
        ∃ t, exec .registerFill s = .next t ∧ Taken s t p (answerTo src tag (.nack 0x04 0)) ∧ getCore t p = getCore s p)
      ∧ (¬ NewEvent last key.toNat rsn → key.toNat < 3072 →
        ∃ t, exec .registerFill s = .next t ∧ Taken s t p (answerTo src tag .tack) ∧ getCore t p = getCore s p))
    ∧ (∀ (w0 w1 : Word) (p0 p1 : Bool) (mtag : BitVec 6),
      let m := Msg.send key job rsn src tag lc n w0 w1 p0 p1 mtag
      let h : HeldSend := { key := key, job := job, slot := n, rsn := rsn, w0 := w0, w1 := w1, psn0 := p0, psn1 := p1, tag := mtag }
      let full := chanSize sl ≤ (kReg sl sl.chanKa.toNat - kReg sl sl.chanKc.toNat).toNat
      let off := chanOff sl + 32 * ((kReg sl sl.chanKa.toNat).toNat % chanSize sl)
      Reaches s m src lc p job → s.heldMsgs = [] → NewEvent last key.toNat rsn → (∀ k ∈ (getCore s p).res.overflow, k.slot ≠ n) →
      (sl.park = .none ∨ sl.st = .parked) →
      (sl.st = .empty ∨ sl.st = .starting ∨ sl.jobId.toNat ≠ job ∨ chanBound sl = false →
        ∃ t, exec .sendArrive s = .next t ∧ Taken s t p (answerTo src tag (.nack 0x04 0)) ∧ getCore t p = getCore s p)
      ∧ (sl.st ≠ .empty → sl.st ≠ .starting → sl.jobId.toNat = job → chanBound sl = true →
        (full → (getCore s p).res.overflow.length < 32 →
          ∃ t, exec .sendArrive s = .next t ∧ Taken s t p (answerTo src tag .tack) ∧ (∀ k, getSlot t p k = getSlot s p k)
            ∧ (getCore t p).res.overflow = (getCore s p).res.overflow ++ [h] ∧ (getCore t p).res.ls = (getCore s p).res.ls)
        ∧ (full → 32 ≤ (getCore s p).res.overflow.length → ∃ t, exec .sendArrive s = .next t ∧ m ∈ t.net ∧ getCore t p = getCore s p)
        ∧ (¬ full → lockTouches (getCore s p) off 32 = true → ∃ t, exec .sendArrive s = .next t ∧ m ∈ t.net ∧ getCore t p = getCore s p)
        ∧ (¬ full → lockTouches (getCore s p) off 32 = false →
          (getCore s p).waits = [] → tbit (getCore s p).watch 63 = false → Memory.wf (getCore s p).res.ls →
          ∃ t, exec .sendArrive s = .next t ∧ Taken s t p (answerTo src tag .tack)
            ∧ (∀ a, memByte (getCore t p).res.ls a = if off ≤ a ∧ a < off + 32 then (entryBytes h).getD (a - off) 0 else memByte (getCore s p).res.ls a)
            ∧ (let u := setKReg sl sl.chanKa.toNat (kReg sl sl.chanKa.toNat + 1)
               getSlot t p n = afterWake (getCore s p).cc (if sl.st = .parked ∧ (sl.park = .ring ∨ sl.park = .counter sl.chanKa.toNat)
                 then { u with st := .active, park := .none } else u))
            ∧ (∀ k, k ≠ n → getSlot t p k = getSlot s p k) ∧ mget (getCore t p).wide.accept key.toNat = some rsn)))
    ∧ (∀ (entry w0 w1 : Word) (p0 p1 : Bool),
      let u : Urgent := { key := key, job := job, rsn := rsn, entry := entry, w0 := w0, w1 := w1, psn0 := p0, psn1 := p1 }
      let takes := (sl.st = .empty ∧ allotted s p n = some job) ∨ (sl.st ≠ .empty ∧ sl.jobId.toNat = job)
      Reaches s (.urgent src tag lc n u) src lc p job → s.heldMsgs = [] → NewEvent last key.toNat rsn →
      (takes → sl.urgents.length < 4 → ∃ t, exec .urgentMessageArrive s = .next t ∧ Taken s t p (answerTo src tag .tack)
        ∧ OnlySlot s t p n ∧ getSlot t p n = { sl with urgents := sl.urgents ++ [u] })
      ∧ (takes → 4 ≤ sl.urgents.length → ∃ t, exec .urgentMessageArrive s = .next t
        ∧ Taken s t p (answerTo src tag (.nack 0x05 0)) ∧ getCore t p = getCore s p)
      ∧ (¬ takes → ∃ t, exec .urgentMessageArrive s = .next t ∧ Taken s t p (answerTo src tag (.nack 0x04 0)) ∧ getCore t p = getCore s p))
    ∧ (∀ (u : Urgent) (r : List Urgent), p = s.input.n → n = s.input.k → sl.urgents = u :: r → sl.urg = false → sl.mwin = false →
      sl.stepping = false → sl.stopNext = 0 → coreHeld (getCore s p) = false → (sl.st = .active ∨ sl.st = .parked) → sl.jobId.toNat = u.job →
      mortarMode s u.job = 0 →
      ∃ t, exec .urgentAccept s = .next t ∧ (getSlot t p n).st = .active ∧ (getSlot t p n).pc = u.entry
        ∧ (getSlot t p n).urgPc = sl.pc ∧ (getSlot t p n).urg = true ∧ (getSlot t p n).urgents = r
        ∧ gCell (getSlot t p n) 48 = { val := u.w0, full := true, psn := u.psn0 }
        ∧ gCell (getSlot t p n) 49 = { val := u.w1, full := true, psn := u.psn1 }
        ∧ gCell (getSlot t p n) 50 = { val := u.key.setWidth 64, full := true, psn := false }
        ∧ (∀ k, k ≠ 48 → k ≠ 49 → k ≠ 50 → gCell (getSlot t p n) k = gCell sl k)
        ∧ (∀ k, k ≠ n → getSlot t p k = getSlot s p k) ∧ (∀ q, q ≠ p → getCore t q = getCore s q) ∧ restState t = restState s)
    ∧ (∀ (d : Pend) (r : Req), p = s.input.n → n = s.input.k → sl.pend = some d → d.again = some r →
      ∃ t, exec .waitfullRetry s = .next t ∧ t.net = s.net ++ [.req (destOf p (reqAddr r)) r]
        ∧ getSlot t p n = { sl with pend := some { d with again := none } } ∧ (∀ k, k ≠ n → getSlot t p k = getSlot s p k)
        ∧ (∀ q, q ≠ p → getCore t q = getCore s q) ∧ { restState t with net := [] } = { restState s with net := [] })
    ∧ ∀ x : Word, p = s.input.n → n = s.input.k → sl.park = .time x → sl.st = .parked →
      (x.toNat ≤ s.plumb → exec .waittTimeReached s = .next (setSlot s p n { sl with st := .active, park := .none }))
      ∧ (s.plumb < x.toNat → exec .waittTimeReached s = .next s)

/-- R42, R349: a DECR that reaches the home core of its counter decrements it; the one that brings it to 0 answers 0x100 and moves
the waiting frame to the tail of the run list; a DECR of a counter at 0 answers 0x200 and writes a CLASS 9 record with CODE 0x01. -/
def Sys2Proof.Spec.DependenceCounters : Prop :=
  ∀ (s : State) (p lc idx job tag : Nat) (key : BitVec 12) (rsn : BitVec 32) (src : Agent),
    let x := (getCore s p).res
    let c := (mget x.dep idx).getD 0
    let answer := fun (v : Nat) => answerTo src tag (.value (natBytes 8 v) false)
    Reaches s (.decr src tag key job rsn lc idx) src lc p job → s.heldMsgs = [] → lockTouches (getCore s p) (depOff idx) 8 = false → tbit (getCore s p).watch 63 = false →
    NewEvent (getCore s p).wide.accept key.toNat rsn →
    (x.depClosed.contains idx = true → ∃ t, exec .decrArrive s = .next t ∧ Taken s t p (answer 3) ∧ (getCore t p).res = x)
    ∧ (x.depClosed.contains idx = false →
      (c = 0 → ∃ t, exec .decrArrive s = .next t ∧ t.net = ldrop s.net s.input.n ++ answer 0x200
        ∧ (getCore t p).res = x ∧ (∃ e, t.errQueue = s.errQueue ++ [e] ∧ ErrorIs s e 9 0x01 2 p job)
        ∧ (∀ q, q ≠ p → getCore t q = getCore s q))
      ∧ (1 < c.toNat → ∃ t, exec .decrArrive s = .next t ∧ Taken s t p (answer 0)
        ∧ (mget (getCore t p).res.dep idx).getD 0 = c - 1 ∧ { (getCore t p).res with dep := [] } = { x with dep := [] })
      ∧ (c = 1 → ∀ f, x.pending = [f] → f.ready = false → frDepw f.frame = idx → x.runList.length < 32 →
        ∃ t, exec .decrArrive s = .next t ∧ Taken s t p (answer 0x100) ∧ (mget (getCore t p).res.dep idx).getD 0 = 0
          ∧ (getCore t p).res.runList = x.runList ++ [f.frame] ∧ (getCore t p).res.pending = []))

namespace Sys2Proof.Spec

/-! ### Tasks (R32, R38 to R41, R51, R52, R64, R105, R148, R348) -/

/-- Slot `n` of core `p` is idle and may look for work of `job`: the core runs, the slot is allotted to the job, nothing waits for
it, it has no steal on its way, the core's watchpoint is off, the job's Mortar is off and no checked pair re-executes for it. -/
structure Idle (s : State) (p n job : Nat) : Prop where
  slot : n < 16 ∧ (getSlot s p n).st = .empty ∧ (getSlot s p n).urgents = []
  core : takesFrames s p = true ∧ allotted s p n = some job
  quiet : ∀ k ∈ (getCore s p).res.overflow, k.slot ≠ n
  fresh : (getSlot s p n).victims = [] ∧ (getSlot s p n).resting = false
  none_ : stealing s p n = false
  unwatched : tbit (getCore s p).watch 63 = false
  off : mortarMode s job = 0
  anew : rollingPair s (senderKey s p n) = none

/-- The first frame of the job in a source, in that source's order; what stands before it belongs to jobs of other slots of the core. -/
def FirstOf (s : State) (p job : Nat) (l : List V512) (f : V512) : Prop :=
  ∃ a b, l = a ++ f :: b ∧ frJob f = job ∧ ∀ x ∈ a, frJob x ≠ job ∧ strayFrame s p x = false

/-- Slot `n` of core `p` is Starting with frame `f`: it is cleared (R64). -/
structure Starts (t : State) (p n : Nat) (f : V512) : Prop where
  frame : (getSlot t p n).st = .starting ∧ (getSlot t p n).starting = some f
  cleared : (getSlot t p n).g = [] ∧ (getSlot t p n).v = [] ∧ (getSlot t p n).m = [] ∧ (getSlot t p n).k = []
  rest : (getSlot t p n).fmt = 0 ∧ (getSlot t p n).fflg = 0 ∧ (getSlot t p n).qbind = 0 ∧ (getSlot t p n).pinnedIdle = false

/-- A g register at the start of a task (R32). -/
def startCell (f : V512) (k : Nat) : Cell 64 :=
  if 1 ≤ k ∧ k ≤ 31 ∧ tbit f (96 + k) then { val := 0, full := false, psn := false }
  else { val := match k with | 1 => frArg0 f | 2 => frArg1 f | 3 => frArg2 f | 30 => frSp f | _ => 0, full := true, psn := false }

end Sys2Proof.Spec

/-- R32, R39 to R41, R51, R64: an idle slot takes the first frame of its job from the run list, else from the near end of its deque,
and enters Starting cleared; else it steps V and asks a victim, whose far frame it takes. After Starting it issues at ENTRY with
the frame's arguments, its await marks and the task's identifiers. The list of victims, cores with V = 0 left out and the thief's
logical cluster first, is log 69. -/
def Sys2Proof.Spec.TakingWork : Prop :=
  ∀ (s : State) (p n job : Nat) (f : V512),
    let x := (getCore s p).res
    let away := fun (t : State) => (∀ q, q ≠ p → getCore t q = getCore s q) ∧ ∀ k, k ≠ n → getSlot t p k = getSlot s p k
    (p = s.input.n → n = s.input.k → Idle s p n job → x.runWait = [] → x.pending = [] → x.runList.length ≤ 32 →
      FirstOf s p job x.runList f →
      ∃ t, exec .slotTakeWork s = .next t ∧ Starts t p n f ∧ (getCore t p).res.runList = x.runList.erase f
        ∧ (getCore t p).res.deque = x.deque ∧ away t ∧ restState t = restState s)
    ∧ (p = s.input.n → n = s.input.k → Idle s p n job → (∀ e ∈ x.runList, frJob e ≠ job ∧ strayFrame s p e = false) →
      FirstOf s p job x.deque.reverse f → 1 < x.deque.length →
      ∃ t, exec .slotTakeWork s = .next t ∧ Starts t p n f ∧ (getCore t p).res.deque = (x.deque.reverse.erase f).reverse
        ∧ (getCore t p).res.runList = x.runList ∧ away t ∧ restState t = restState s)
    ∧ (p = s.input.n → n = s.input.k → Idle s p n job → x.runList = [] → x.deque = [] → spillAt x job = (0, 0) →
      (getSlot s p n).pinnedIdle = false →
      let lc := logicalOf s p
      let mates := (upTo 192).filter fun c => decide (c ≠ lc) && lpctV s c && decide (c / 8 = lc / 8)
      let v := victimStep (getCore s p).victim
      ∀ w, mates[v.toNat * mates.length / 65536]? = some w →
      ∃ t, exec .slotTakeWork s = .next t ∧ t.net = s.net ++ [.steal p n w job] ∧ (getCore t p).victim = v
        ∧ (getSlot t p n).st = .empty ∧ away t ∧ { restState t with net := [] } = { restState s with net := [] })
    ∧ (∀ victim q, s.net[s.input.n]? = some (.steal p n victim job) → (getSlot s p n).st = .empty → (getSlot s p n).urgents = [] →
      (∀ k ∈ x.overflow, k.slot ≠ n) → takesFrames s p = true → allotted s p n = some job → mortarMode s job = 0 → s.heldMsgs = [] →
      rollingPair s (senderKey s p n) = none → clockStands s p = false → clockStands s q = false → (getCore s q).coreFault = false →
      lpctV s victim = true → physOf s victim = q → q ≠ p → (getCluster s (clusterOf q)).fenced = false → (getCluster s (clusterOf q)).powered = true →
      spillAt (getCore s q).res job = (0, 0) →
      (FirstOf s q job (getCore s q).res.deque f → ∃ t, exec .stealRequest s = .next t ∧ Starts t p n f
        ∧ (getCore t q).res.deque = (getCore s q).res.deque.erase f ∧ t.net = ldrop s.net s.input.n
        ∧ { restState t with net := [] } = { restState s with net := [] })
      ∧ ((∀ e ∈ (getCore s q).res.deque, frJob e ≠ job) → exec .stealRequest s = .next { s with net := ldrop s.net s.input.n }))
    ∧ (p = s.input.n → n = s.input.k → (getSlot s p n).st = .starting → (getSlot s p n).starting = some f →
      coreHeld (getCore s p) = false →
      ∃ t, exec .slotStartDone s = .next t ∧ (getSlot t p n).st = .active ∧ (getSlot t p n).pc = frEntry f
        ∧ (∀ k, k ≤ 31 → gCell (getSlot t p n) k = startCell f k)
        ∧ (∀ k, k ≤ 15 → vCell (getSlot t p n) k = { val := 0, full := !tbit f (80 + k), psn := false })
        ∧ (getSlot t p n).join = frJoin f ∧ (getSlot t p n).pin = frPin f ∧ (getSlot t p n).jobId.toNat = frJob f
        ∧ (getSlot t p n).launchId.toNat = frJob f * 2 ^ 16 + frLaunch f
        ∧ (getSlot t p n).taskId = BitVec.ofNat 32 (logicalOf s p * 2 ^ 24 + n * 2 ^ 20 + (getCore s p).dispatch.toNat)
        ∧ (getCore t p).dispatch = (getCore s p).dispatch + 1 ∧ away t ∧ restState t = restState s)

/-- R348, R422: a launch frame joins the tail of its core's run list, or with KIND 2 the pending area with its dependence counter set;
it waits while LOCK covers the place it would take; an unmapped core's frame is discarded with a CLASS 9 record. -/
def Sys2Proof.Spec.LaunchFrames : Prop :=
  ∀ (s : State) (lc src p dcount : Nat) (f : V512),
    let x := (getCore s p).res
    let held := (frameSpan x f).any fun e => lockTouches (getCore s p) e.1 e.2
    s.net[s.input.n]? = some (.frame lc src f dcount) → frameBehind s s.input.n lc src = false → s.heldMsgs = [] → physOf s lc = p →
    (lpctV s lc = true → (getCluster s (clusterOf p)).fenced = false → (getCluster s (clusterOf p)).powered = true →
      savedFor s p (frJob f) = false → unformed s p (frJob f) = false → clockStands s p = false → tbit (getCore s p).watch 63 = false →
      (getCore s p).coreFault = false →
      (held = true → ∃ t, exec .launchFrameDeliver s = .next t ∧ .frame lc src f dcount ∈ t.net ∧ getCore t p = getCore s p)
      ∧ (held = false → (frKind f ≠ 2 → x.runList.length < 32 → x.runWait = [] →
        ∃ t, exec .launchFrameDeliver s = .next t ∧ Taken s t p [] ∧ (getCore t p).res = { x with runList := x.runList ++ [f] })
      ∧ (frKind f ≠ 2 → 32 ≤ x.runList.length ∨ x.runWait ≠ [] →
        ∃ t, exec .launchFrameDeliver s = .next t ∧ Taken s t p [] ∧ (getCore t p).res = { x with runWait := x.runWait ++ [f] })
      ∧ (frKind f = 2 → 0 < dcount → dcount < 256 → ∃ t, exec .launchFrameDeliver s = .next t ∧ Taken s t p []
        ∧ (getCore t p).res.pending = x.pending ++ [{ frame := f, ready := false }] ∧ (getCore t p).res.runList = x.runList
        ∧ ((mget (getCore t p).res.dep (frDepw f)).getD 0).toNat = dcount)
      ∧ (frKind f = 2 → dcount = 0 → x.pending = [] → x.runList.length < 32 → ∃ t, exec .launchFrameDeliver s = .next t
        ∧ Taken s t p [] ∧ (getCore t p).res.runList = x.runList ++ [f] ∧ (getCore t p).res.pending = [])))
    ∧ (lpctV s lc = false → frJoin f = 0 → launchRec s (frLaunch f) = none → ∃ t e, exec .launchFrameDeliver s = .next t ∧ t.errQueue = s.errQueue ++ [e]
      ∧ ErrorIs s e 9 0x05 2 (physOf s src) (frJob f) ∧ bits e 191 128 = (frEntry f).toNat ∧ t.net = ldrop s.net s.input.n)

/-- R105, R148: a slice's report advances the launch's reuse clock, whose new value reaches every slice; a window's end takes Δ over
the window; a reset notice clears the sixteen keys of the logical core from its receiver's acceptance table. -/
def Sys2Proof.Spec.ReportsAndNotices : Prop :=
  ∀ s : State,
    (∀ (l k : Nat) (r : Launch), s.net[s.input.n]? = some (.clock l k) → launchRec s l = some r →
      (∃ t, exec .reuseClockReport s = .next t ∧ (launchRec t l).map (fun u => u.reported) = some (r.reported + k)
        ∧ t.net = ldrop s.net s.input.n
        ∧ ∀ n u, n < 32 → u ∈ (getNode t n).tracked → u.launch = l → r.reported / 256 % 2 ^ 32 ≠ (r.reported + k) / 256 % 2 ^ 32 →
          u.clock.toNat = (r.reported + k) / 256 % 2 ^ 32))
    ∧ (∀ (dst lc : Nat), s.net[s.input.n]? = some (.resetNotice dst lc) →
      (noticeWaits s s.input.n dst lc = true → exec .coreResetNotice s = .next s)
      ∧ (noticeWaits s s.input.n dst lc = false → dst < 0x100 → ∃ t, exec .coreResetNotice s = .next t ∧ (getCore t dst).wide.accept = (getCore s dst).wide.accept.filter (fun e => decide (e.1 / 16 ≠ lc))
        ∧ (∀ q, q ≠ dst → getCore t q = getCore s q) ∧ t.nodes = s.nodes)
      ∧ (noticeWaits s s.input.n dst lc = false → 0x100 ≤ dst → dst < 0x120 → ∃ t, exec .coreResetNotice s = .next t
        ∧ (getNode t (dst - 0x100)).accept = (getNode s (dst - 0x100)).accept.filter (fun e => decide (e.1 / 16 ≠ lc))
        ∧ (∀ q, q ≠ dst - 0x100 → getNode t q = getNode s q) ∧ t.cores = s.cores))
    ∧ ∃ t, exec .reuseWindowEnd s = .next t
      ∧ (getNode t s.input.n).tracked = (getNode s s.input.n).tracked.map (fun u => { u with delta := u.clock - u.atWindow, atWindow := u.clock })
      ∧ (∀ q, q ≠ s.input.n → getNode t q = getNode s q) ∧ t.cores = s.cores ∧ t.mem = s.mem

namespace Sys2Proof.Spec

/-! ### Scans, phases and gang switches (R27, R28, R158, R163, R164, R171, R178, R215) -/

/-- The conditions of R158 on which RUN = 1 starts scanning. -/
structure MayStart (s : State) : Prop where
  period : 50 ≤ s.period.toNat ∧ s.period.toNat ≤ 1000000
  start : s.plumb + 100000 ≤ s.start.toNat
  fit : ∀ j ∈ s.jobs, bits j.record 32 31 = 1 → bits j.record 119 96 ≠ 0 → (bits j.record 151 120 * 20 + 23) / 24 + 2 * 4531 ≤ s.period.toNat * 1000
  outputs : ∀ g < 64, let e := (getGate s g).next.getD (getGate s g).entry
    tbit e 195 = true → bits e 197 196 = 1 → bits e 325 306 < s.period.toNat
  lists : ∀ q ∈ s.ports, let l := q.2.next.getD q.2.gcl
    l ≠ [] → (l.map fun e => bits e 31 0).foldl (· + ·) 0 = s.period.toNat * 1000
  idle : s.run = false ∧ s.stopPending = false

/-- Time of the next scan boundary (R20). -/
def boundary (s : State) : Nat := s.start.toNat + s.scans * (s.period.toNat * 1000)

/-- A scan's input latch concerns nothing but its stamp: no input gate is in force, no frame waits, the module is no pair. -/
structure BareLatch (s : State) : Prop where
  gates : ∀ g < 64, gtV (getGate s g).entry = false ∧ (getGate s g).next = none
  frames : s.staged = []
  alone : s.pair.role = 0 ∧ s.pair.link = false ∧ s.pair.sync = false ∧ s.pair.lateFrom = none ∧ s.pair.switchPending = false
  mortars : s.mortars = []

/-- No slot of core `p` has a refused request to send again. -/
def NoRetry (s : State) (p : Nat) : Prop := ∀ e ∈ (getCore s p).res.slots, ∀ d, e.2.pend = some d → d.again = none

/-- A slot but for the time of its last issue, which a clock restart forgets. -/
def unissued (sl : Slot) : Slot := { regs sl with lastIssue := none }

/-- Two contexts hold the same: every slot's registers and PC, and everything else. -/
def SameContext (x y : Ctx) : Prop :=
  { x with slots := [] } = { y with slots := [] }
    ∧ ∀ n, unissued (ctxSlot x n) = unissued (ctxSlot y n) ∧ (ctxSlot x n).pc = (ctxSlot y n).pc

/-- A slot but for its place in the rotation and the time until which its last writes are on their way. -/
def settled (sl : Slot) : Slot := { atRest sl with wbDue := 0, wbRegs := [] }

/-- The first switch of job `n` and the job. -/
structure SwitchOf (s : State) (w : Switch) : Prop where
  first : s.switches.find? (fun x => x.job = s.input.n) = some w
  cores : w.cores.Nodup

end Sys2Proof.Spec

/-- R158: RUN = 1 starts scanning exactly on the conditions of R158, else sets ERR; RUN = 0 makes the stop pending; while it is
pending RUN = 1 is refused; the stop takes effect at the time of the next boundary, which does not occur. -/
def Sys2Proof.Spec.ScanControl : Prop :=
  ∀ s : State, s.arbWait = [] →
    let u := { s with arbSeq := s.arbSeq + 1 }
    (MayStart s → exec .scanStart s = .next { u with run := true, scans := 0 })
    ∧ (s.run = false → ¬ MayStart s → exec .scanStart s = .next { u with runErr := true })
    ∧ (s.run = true → exec .scanStop s = .next { u with run := false, stopPending := true })
    ∧ (s.run = false → exec .scanStop s = .next u)
    ∧ (s.stopPending = true → boundary s ≤ s.plumb → (∀ j ∈ s.jobs, j.phase ≠ .suspended) →
      exec .scanStopTakesEffect s = .next { s with stopPending := false })
    ∧ (s.stopPending = true → s.plumb < boundary s → exec .scanStopTakesEffect s = .next s)

/-- R27, R28, R163, R171, R215: at its time the boundary advances STAMP and opens the phase of each real-time job with Topen, Texp
and the next number; a phase with nothing to do completes at once and its partition switches back. The latch ends with HSTAMP
written, then the held stores of a bus master are performed; at Texp an Open phase becomes Pre-empting and its partition switches
back at Texp. -/
def Sys2Proof.Spec.ScanBoundaries : Prop :=
  ∀ s : State,
    let stamp := if s.scans = 0 then s.stamp0 else s.stamp + 1
    (s.run = true → s.latching = false → boundary s ≤ s.plumb → BareLatch s →
      ((∀ j ∈ s.jobs, bits j.record 32 31 ≠ 1) → ∃ t, exec .scanBoundary s = .next t ∧ t.stamp = stamp ∧ t.scans = s.scans + 1
        ∧ t.latching = true ∧ t.jobs = s.jobs.map (fun j => if bits j.record 32 31 = 2 then { j with idle := j.idle + 1 } else j)
        ∧ t.switches = s.switches ∧ t.mem = s.mem ∧ t.image = s.image)
      ∧ (∀ j, (s.jobs.filter fun k => decide (bits k.record 32 31 = 1)) = [j] → findJob s j.id = some j → bits j.record 119 96 ≠ 0 →
        j.cancelled = false → (j.phase = .closed ∨ j.phase = .complete ∨ j.phase = .cancelled) → bits j.record 71 56 = 0xFFFF →
        s.switches = [] → s.clusters = [] → partCores s j.record ≠ [] →
        ∃ t r, exec .scanBoundary s = .next t ∧ t.stamp = stamp ∧ t.scans = s.scans + 1 ∧ t.latching = true
          ∧ findJob t j.id = some r ∧ r.phase = .complete ∧ r.number = j.number + 1 ∧ r.topen = boundary s ∧ r.origin = stamp
          ∧ r.texp = boundary s + (bits j.record 151 120 * 15 + 23) / 24 ∧ r.phaseCount = 0
          ∧ t.switches.map (fun w => (w.job, w.inward, w.time)) = [(j.id, true, boundary s), (j.id, false, s.plumb + 1000)]))
    ∧ (s.plumb < boundary s ∨ s.run = false ∨ s.latching = true → exec .scanBoundary s = .next s)
    ∧ (s.latching = true → ∃ t, t.latching = false ∧ t.latches = s.latches + 1 ∧ t.latchHeld = []
      ∧ exec .inputLatchComplete s = .next (s.latchHeld.foldl (fun u e => regStore u 0xE2 e.1 e.2) t)
      ∧ (Memory.wf s.image → s.imagePoison = [] → imageWord t (s.stamp.toNat % 2 * 0x200000) = s.stamp)
      ∧ (∀ p n, (getSlot s p n).st = .parked → (getSlot s p n).park = .latch →
        getSlot t p n = { getSlot s p n with st := .active, park := .none })
      ∧ ∀ p n, (getSlot s p n).park ≠ .latch → getSlot t p n = getSlot s p n)
    ∧ (∀ j, findJob s s.input.n = some j →
      (j.phase = .opened → j.texp ≤ s.plumb → ∃ t r w, exec .texpExpiry s = .next t ∧ findJob t j.id = some r ∧ r = { j with phase := .preempting }
        ∧ t.switches = s.switches ++ [w] ∧ w.job = j.id ∧ w.inward = false ∧ w.time = j.texp ∧ w.step = .due ∧ t.cores = s.cores)
      ∧ (j.phase ≠ .opened ∨ s.plumb < j.texp → exec .texpExpiry s = .next s))

/-- R162, R164, R172, R173, R241, R477: at the agreed time, unless its cluster is in a ratio change or it leads a checked pair that has
an exchange or a rollback before it, a core of the partition stops at a rotation boundary; when all have stopped and their answers and
journals have drained, the contexts change places, and a new one has the local store without the task area (R162); then the cores
issue again. -/
def Obligations.GangSwitches : Prop :=
  ∀ (s : State) (w : Switch), SwitchOf s w →
    (∀ p, p = s.input.k → w.step = .due → w.time ≤ s.plumb → p ∈ w.cores → (getCore s p).switching = false → (getCore s p).pass = [] →
      (getCluster s (clusterOf p)).busy = false → (∀ e ∈ s.cores, ∀ r ∈ e.2.waits, ∀ n, r.src ≠ .slot p n) → NoRetry s p →
      pairAwaits s p = false →
      ∃ t, exec .gangStop s = .next t ∧ (getCore t p).switching = true ∧ (∀ n, settled (getSlot t p n) = settled (getSlot s p n))
        ∧ (∀ q, q ≠ p → getCore t q = getCore s q) ∧ t.net = s.net ∧ t.jobs = s.jobs
        ∧ ((∀ q ∈ w.cores, q ≠ p → (getCore s q).switching = true) → t.switches.find? (fun x => x.job = s.input.n) = some { w with step := .stopped })
        ∧ ((∃ q ∈ w.cores, q ≠ p ∧ (getCore s q).switching = false) → t.switches = s.switches))
    ∧ (w.step = .due → s.plumb < w.time ∨ (getCluster s (clusterOf s.input.k)).busy = true ∨ pairAwaits s s.input.k = true →
      exec .gangStop s = .next s)
    ∧ (∀ j, findJob s w.job = some j → w.step = .stopped → w.void = false →
      (∀ p ∈ w.cores, saveDue s p = false ∧ (getCore s p).shadow = [] ∧ NoRetry s p) →
      (w.inward = true → (∀ p ∈ w.cores, (getCore s p).sav = none) →
        ∃ t, exec .gangSaveDrained s = .next t ∧ t.switches.find? (fun x => x.job = s.input.n) = some { w with step := .drained }
          ∧ findJob t w.job = some j
          ∧ (∀ p ∈ w.cores, (∃ x, (getCore t p).sav = some x ∧ SameContext x (getCore s p).res) ∧ (getCore t p).res.rtJob = some j.id
            ∧ (getCore t p).res.slots = [] ∧ (Memory.wf (getCore s p).res.ls →
              ∀ a, memByte (getCore t p).res.ls a = if inTaskArea a 1 then 0 else memByte (getCore s p).res.ls a)
            ∧ (getCore t p).set = !(getCore s p).set
            ∧ (getCore t p).res.regions = [{ job := j.id, pregs := j.pregs }])
          ∧ ∀ p, p ∉ w.cores → getCore t p = getCore s p)
      ∧ (w.inward = false → j.phase = .preempting → j.phaseCount = 0 → j.phaseCancelled = false → j.pendingOpen = none →
        (∀ p ∈ w.cores, (getCore s p).sav.isSome = true ∧ (getCore s p).res.rtJob = some w.job) →
        ∃ t, exec .gangSaveDrained s = .next t ∧ t.switches.find? (fun x => x.job = s.input.n) = some { w with step := .drained }
          ∧ findJob t w.job = some { j with phase := .complete }
          ∧ ∀ p ∈ w.cores, ∀ x, (getCore s p).sav = some x → SameContext (getCore t p).res x ∧ (getCore t p).set = !(getCore s p).set))
    ∧ (w.step = .stopped → (∃ p ∈ w.cores, saveDue s p = true ∨ (getCore s p).shadow ≠ []) → exec .gangSaveDrained s = .next s)
    ∧ (w.step = .drained → (∀ p ∈ w.cores, (getCore s p).waits = []) →
      ∃ t, exec .gangRestoreDone s = .next t ∧ (∀ p ∈ w.cores, (getCore t p).switching = false) ∧ t.switches.length + 1 = s.switches.length
        ∧ ((∀ p ∈ w.cores, ∀ n, (getSlot s p n).frame.v = false ∧ (getSlot s p n).frameUrg.v = false) →
          (∀ p, p ∉ w.cores → getCore t p = getCore s p) ∧ t.mem = s.mem))

namespace Sys2Proof.Spec

/-! ### Commands to the control complex (R34, R100 to R102, R106, R157 to R160, R168, R169, R211, R212, R226, R228, R229, R236) -/

/-- Sum of a quota field of the jobs but one. -/
def otherQuotas (s : State) (job hi lo : Nat) : Nat := (s.quotas.filter fun e => e.1 ≠ job).foldl (fun n e => n + bits e.2 hi lo) 0

/-- The range of a TLB entry meets that of the INVAL in progress, as it was when the command was given, and it belongs to the job that the command names (R100). -/
def Dropped (s : State) (e : Tlb) : Prop :=
  e.job = bits s.invc 39 33 ∧ e.va * 2 ^ e.bits < bits s.invAt 47 12 * 2 ^ 12 + 2 ^ (12 + bits s.invc 27 22)
    ∧ bits s.invAt 47 12 * 2 ^ 12 < (e.va + 1) * 2 ^ e.bits

/-- A core is ready to be moved (R102 steps 1 and 2). -/
structure ReadyToMove (s : State) (p : Nat) : Prop where
  tiles : tilesQuiet (getCore s p) = true
  stopped : (getCore s p).halted = true
  drained : answersDue s p = false ∧ (getCore s p).shadow = []
  free : s.migrations = []

/-- A running instance's card that may start: it has not started, and its phase is Open or it belongs to none. -/
structure CardDue (s : State) (g : Graph) (j : Job) : Prop where
  inst : s.graphs.find? (fun x => x.gen.toNat * 256 + x.inst = s.input.n) = some g ∧ g.st = .running
  card : s.input.k ∈ g.cards ∧ s.input.k ∉ g.started
  job : findJob s g.job = some j
  phase : ∀ n, g.phase = some n → j.number = n ∧ j.phase = .opened

end Sys2Proof.Spec

/-- R100, R158, R211, R212, R226, R228, R229, R236: writes pass through the command arbiter, which numbers them. CLKCTL, PSET, INVC, AGO,
gates, gate control lists and the Keystone's registers take what is written where the rules let them, and a refused gate or list
answers the status RSVD; INVAL and a report complete. The pseudo node field of the gate control lists is log 40 (DESIGN CHOICE). -/
def Sys2Proof.Spec.ArbiterCommands : Prop :=
  ∀ s : State, s.arbWait = [] →
    let u := { s with arbSeq := s.arbSeq + 1 }
    let v := s.input.v
    let n := s.input.n
    let refused := { u with sent := s.sent ++ [.status (s.arbSeq + 1) 2] }
    let c := { getCluster s (n % 24) with req := BitVec.ofNat 2 (bits v 1 0), bramp := BitVec.ofNat 8 (bits v 39 32) }
    (bits v 1 0 ≠ 3 → exec .clkctlWrite s = .next { u with clusters := mset s.clusters (n % 24) c })
    ∧ (bits v 1 0 = 3 → exec .clkctlWrite s = .next u)
    ∧ (s.run = false → exec .plumbSet s = .next { u with plumb := v.toNat }) ∧ (s.run = true → exec .plumbSet s = .next u)
    ∧ (s.invBusy = false → tbit v 0 = true → bits v 27 22 ≤ 36 → 2 ^ bits v 27 22 ∣ bits s.inva 47 12 →
      exec .invalStart s = .next { u with invc := v, invAt := s.inva, invBusy := true, invSeq := s.arbSeq + 1 })
    ∧ (s.invBusy = false → (tbit v 0 = false ∨ 36 < bits v 27 22 ∨ ¬ 2 ^ bits v 27 22 ∣ bits s.inva 47 12) → exec .invalStart s = .next u)
    ∧ (s.invBusy = true → exec .invalStart s = .next { u with arbWait := [(s.arbSeq + 1, 0xE0, 0x1308, natBytes 8 v.toNat)] })
    ∧ (s.invBusy = true → translatedDue s (invRange s) = false → ∃ t, exec .invalComplete s = .next t ∧ t.invBusy = false
      ∧ t.invDone = s.invSeq ∧ (∀ m e, e ∈ (getNode t m).tlb ↔ e ∈ (getNode s m).tlb ∧ ¬ Dropped s e)
      ∧ (∀ p e, e ∈ (mget t.coreTlb p).getD [] ↔ e ∈ (mget s.coreTlb p).getD [] ∧ ¬ Dropped s e) ∧ t.mem = s.mem ∧ t.cores = s.cores)
    ∧ (s.attBusy = false → exec .attestRequest s = .next { u with attBusy := true, attCur := s.arbSeq + 1, attNonce := s.anonce })
    ∧ (s.attBusy = true → ∃ t, exec .attestComplete s = .next t ∧ t.attBusy = false ∧ t.attSeq = s.attCur
      ∧ t.areport.extractLsb' 768 256 = s.attNonce ∧ t.areport.extractLsb' 512 256 = sha256 (s.imageDigests.flatMap fun d => beBytes 32 d.toNat)
      ∧ t.areport.extractLsb' 192 64 = BitVec.ofNat 64 s.plumb
      ∧ t.areport.extractLsb' 128 64 = s.devId ∧ t.areport.extractLsb' 96 32 = s.attCur ∧ t.areport.extractLsb' 0 96 = 0
      ∧ { t with areport := s.areport, attBusy := true, attSeq := s.attSeq } = s)
    ∧ (∀ e : V512, s.input.bytes = natBytes 64 e.toNat →
      (gateOk s.period.toNat e = true → ∃ t, exec .gateWrite s = .next t ∧ getGate t (n % 64) = { getGate s (n % 64) with next := some e }
        ∧ (∀ k, k ≠ n % 64 → getGate t k = getGate s k) ∧ { t with gates := s.gates } = u)
      ∧ (gateOk s.period.toNat e = false → exec .gateWrite s = .next refused))
    ∧ (∀ l : List Word, s.input.bytes = l.flatMap (fun e => natBytes 8 e.toNat) →
      (l.length ≤ 64 → (∀ e ∈ l, bits e 55 32 = 0) → (s.period = 0 ∨ (l.map fun e => bits e 31 0).foldl (· + ·) 0 = s.period.toNat * 1000) →
        ∃ t, exec .gclWrite s = .next t ∧ (mget t.ports (n % 8)).map (fun q => q.next) = some (some l)
          ∧ (∀ k, k ≠ n % 8 → mget t.ports k = mget s.ports k) ∧ { t with ports := s.ports } = u)
      ∧ (64 < l.length ∨ (∃ e ∈ l, bits e 55 32 ≠ 0)
          ∨ (s.period ≠ 0 ∧ (l.map fun e => bits e 31 0).foldl (· + ·) 0 ≠ s.period.toNat * 1000) → exec .gclWrite s = .next refused))
    ∧ ∀ x : Word, s.input.bytes = natBytes 8 x.toNat →
      (n = 0xE0 * 2 ^ 28 + 0x1008 → s.input.flag = false →
        (s.run = false → s.stopPending = false → exec .registerWrite s = .next { u with period := x.setWidth 32 })
        ∧ (s.run = true ∨ s.stopPending = true → exec .registerWrite s = .next u))
      ∧ (n = 0xE0 * 2 ^ 28 + 0x1008 → s.input.flag = true → exec .registerWrite s = .next s)
      ∧ (n = 0xE0 * 2 ^ 28 + 0x3800 → exec .registerWrite s = .next { s with hbper := x.setWidth 32 })

/-- R159, R160: registration reads the record, checks it in the order of R160, and enters the job with a meter of 0; a refusal
leaves its code. A deleted job's identifier is free; job 0 and an unregistered identifier are ignored. -/
def Sys2Proof.Spec.JobCommands : Prop :=
  ∀ s : State, s.arbWait = [] →
    let u := { s with arbSeq := s.arbSeq + 1 }
    let v := s.input.v
    (v.toNat % 64 ≠ 0 → exec .jobRegister s = .next { u with jobRegResult := 6 })
    ∧ (∀ r wins pregs w, readRegistration u v = (some (r, wins, pregs), w) →
      (recordBad r wins pregs = true → (∃ t, exec .jobRegister s = .next t ∧ t.jobRegResult = 1 ∧ t.jobs = w.jobs))
      ∧ (recordBad r wins pregs = false → (findJob w (bits r 39 33)).isSome = true → (∃ t, exec .jobRegister s = .next t ∧ t.jobRegResult = 2 ∧ t.jobs = w.jobs))
      ∧ (recordBad r wins pregs = false → findJob w (bits r 39 33) = none → partOverlaps w r = true →
        (∃ t, exec .jobRegister s = .next t ∧ t.jobRegResult = 3 ∧ t.jobs = w.jobs))
      ∧ (recordBad r wins pregs = false → findJob w (bits r 39 33) = none → partOverlaps w r = false → slotsClash w r = true →
        (∃ t, exec .jobRegister s = .next t ∧ t.jobRegResult = 4 ∧ t.jobs = w.jobs))
      ∧ (recordBad r wins pregs = false → findJob w (bits r 39 33) = none → partOverlaps w r = false → slotsClash w r = false →
        (bits r 32 31 = 1 → bits r 119 96 ≠ 0 → w.period ≠ 0 → (bits r 151 120 * 20 + 23) / 24 + 2 * 4531 ≤ w.period.toNat * 1000) →
        ∃ t, exec .jobRegister s = .next t ∧ t.jobRegResult = 0
          ∧ t.jobs = w.jobs ++ [{ id := bits r 39 33, record := r, pregs := pregs, windows := wins }]
          ∧ mget t.meters (bits r 39 33) = some 0 ∧ t.mem = w.mem)
      ∧ (recordBad r wins pregs = false → findJob w (bits r 39 33) = none → partOverlaps w r = false → slotsClash w r = false →
        bits r 32 31 = 1 → bits r 119 96 ≠ 0 → w.period ≠ 0 → w.period.toNat * 1000 < (bits r 151 120 * 20 + 23) / 24 + 2 * 4531 →
        (∃ t, exec .jobRegister s = .next t ∧ t.jobRegResult = 5 ∧ t.jobs = w.jobs)))
    ∧ (bits v 6 0 = 0 ∨ findJob s (bits v 6 0) = none → exec .jobDelete s = .next u)
    ∧ (bits v 6 0 ≠ 0 → (findJob s (bits v 6 0)).isSome = true → ∃ t, exec .jobDelete s = .next t ∧ findJob t (bits v 6 0) = none)

/-- R101, R102, R106: a quota that keeps both sums stands, any other sets QERR; an LPCT write that R101 refuses sets ERR, one that
changes PCORE or V waits as a remap; a remap moves the logical core's state to the new core once the old one has stopped, with the
pushes and common-register writes on their way at the stop made. That an entry naming a PCORE above 191 is refused is log 39. -/
def Sys2Proof.Spec.QuotasAndRemaps : Prop :=
  ∀ s : State,
    let v := s.input.v
    let job := s.input.n % 128
    let n := s.input.n % 192
    (bits v 4 0 ≤ 16 → bits v 12 8 ≤ 15 → otherQuotas s job 4 0 + bits v 4 0 ≤ 16 → otherQuotas s job 12 8 + bits v 12 8 ≤ 15 →
      ∃ t q, exec .quotaWrite s = .next t ∧ mget t.quotas job = some q ∧ bits q 4 0 = bits v 4 0 ∧ bits q 12 8 = bits v 12 8
        ∧ tbit q 63 = (tbit ((mget s.quotas job).getD 0) 63 && !tbit v 63) ∧ { t with quotas := s.quotas } = s)
    ∧ (16 < bits v 4 0 ∨ 15 < bits v 12 8 ∨ 16 < otherQuotas s job 4 0 + bits v 4 0 ∨ 15 < otherQuotas s job 12 8 + bits v 12 8 →
      ∃ t q, exec .quotaWrite s = .next t ∧ mget t.quotas job = some q ∧ tbit q 63 = true
        ∧ bits q 12 0 = bits ((mget s.quotas job).getD 0) 12 0 ∧ { t with quotas := s.quotas } = s)
    ∧ ((∃ r ∈ s.remaps, r.1 = n) ∨ 191 < bits v 7 0 ∨ isClass1 s (bits v 7 0) ≠ isClass1 s (physOf s n)
        ∨ (bits v 7 0 ≠ physOf s n ∧ coreFreeFor s n (bits v 7 0) = false) →
      ∃ t, exec .lpctWrite s = .next t ∧ tbit (lpctEntry t n) 62 = true ∧ physOf t n = physOf s n ∧ lpctV t n = lpctV s n
        ∧ t.remaps = s.remaps ∧ t.cores = s.cores)
    ∧ ((∀ r ∈ s.remaps, r.1 ≠ n) → bits v 7 0 ≤ 191 → isClass1 s (bits v 7 0) = isClass1 s (physOf s n) →
      (bits v 7 0 = physOf s n ∨ coreFreeFor s n (bits v 7 0) = true) →
      ∃ t, exec .lpctWrite s = .next t ∧ physOf t n = physOf s n ∧ lpctV t n = lpctV s n ∧ t.cores = s.cores
        ∧ t.remaps = s.remaps ++ if bits v 7 0 = physOf s n ∧ tbit v 15 = lpctV s n then [] else [(n, v)])
    ∧ ∀ k x r, s.remaps = (k, x) :: r → (∀ e ∈ r, e.1 ≠ k) →
      let p := physOf s k
      let q := bits x 7 0
      (p = q → ∃ t, exec .lpctRemap s = .next t ∧ lpctV t k = tbit x 15 ∧ physOf t k = q ∧ t.remaps = r
        ∧ getCore t p = { getCore s p with vacated := false } ∧ (∀ c, c ≠ p → getCore t c = getCore s c))
      ∧ (p ≠ q → ReadyToMove s p → ∃ t, exec .lpctRemap s = .next t ∧ lpctV t k = tbit x 15 ∧ physOf t k = q ∧ t.remaps = r
        ∧ SameContext (getCore t q).res (drainCtx (getCore s p).res) ∧ ((getCore t q).sav.isSome = (getCore s p).sav.isSome)
        ∧ (∀ x y, (getCore s p).sav = some x → (getCore t q).sav = some y → SameContext y (drainCtx x)) ∧ (getCore t q).wide = (getCore s p).wide
        ∧ (getCore t q).lcore = (getCore s p).lcore ∧ (getCore t p).vacated = true ∧ (getCore t p).res.slots = []
        ∧ ((∀ n, (getSlot s p n).frame.v = false ∧ (getSlot s p n).frameUrg.v = false) → t.mem = s.mem))
      ∧ (p ≠ q → tilesQuiet (getCore s p) = false → exec .lpctRemap s = .next s)

/-- R168, R169: a card's time point Topen + ⌈OFFSET × 256 / fcc⌉ is met when the Plumb reaches it within the opening; a card whose
trigger is met and that has room is refused with RSVD for a reserved field, else a kind 4 card starts and completes at once, and a kind 0 card starts
its task. -/
def Sys2Proof.Spec.JobCards : Prop :=
  ∀ (s w : State) (g : Graph) (j : Job) (c : V512), CardDue s g j → readRecord s g.job (cardAddr j s.input.k) = (some c, w) →
    let point := g.topen + (bits c 95 72 * 256 * g.fccTicks + 23) / 24
    let met := (bits c 36 35 = 0 ∧ s.input.k ∈ g.predMet) ∨ (bits c 36 35 = 1 ∧ s.input.k ∈ g.timeMet)
      ∨ (bits c 36 35 = 2 ∧ s.input.k ∈ g.timeMet ∧ s.input.k ∈ g.predMet)
    (s.input.k ∉ g.timeMet → point ≤ s.plumb → (g.phase = none ∨ point ≤ j.texp) →
      ∃ t h, exec .cardTimePoint s = .next t ∧ t.graphs.find? (fun x => x.gen.toNat * 256 + x.inst = s.input.n) = some h
        ∧ s.input.k ∈ h.timeMet ∧ (∀ k, k ≠ s.input.k → (k ∈ h.timeMet ↔ k ∈ g.timeMet)) ∧ { h with timeMet := [] } = { g with timeMet := [] })
    ∧ (s.plumb < point → exec .cardTimePoint s = .next s)
    ∧ (¬ met → bits c 36 35 ≠ 3 → exec .cardStart s = .next s)
    ∧ (∀ b x lc, met → cardBad c = true → cardBlock w j c s.input.k = (b, x) → cardRoom x g j c b s.input.k = .core lc →
      (bits c 39 37 = 0 → frNeed (b.getD 0) ≤ 112) → ∃ t h, exec .cardStart s = .next t
      ∧ t.graphs.find? (fun x => x.gen.toNat * 256 + x.inst = s.input.n) = some h ∧ h.st = .refused)
    ∧ (met → cardBad c = false → bits c 71 60 = 0xFFF → bits c 39 37 = 4 → 1 < g.count → ∃ t h, exec .cardStart s = .next t
      ∧ t.graphs.find? (fun x => x.gen.toNat * 256 + x.inst = s.input.n) = some h ∧ h.st = .running ∧ h.count = g.count - 1
      ∧ s.input.k ∈ h.started)
    ∧ ∀ (b : V512) (x : State) (q : Nat), met → cardBad c = false → bits c 71 60 = 0xFFF → bits c 39 37 = 0 →
      readRecord w j.id (cmdAddr j s.input.k) = (some b, x) → frNeed b ≤ 112 → frReserved b = false → frKind b = 0 → frJob b = j.id →
      bits c 31 24 ≠ 0xFF → cardCoreOk x j (bits c 31 24) = true → freeSeq (getCore x (physOf x (bits c 31 24))) = some q →
      ∃ t h f, exec .cardStart s = .next t ∧ t.graphs.find? (fun x => x.gen.toNat * 256 + x.inst = s.input.n) = some h
        ∧ s.input.k ∈ h.started ∧ Msg.frame (bits c 31 24) (bits c 31 24) f 0 ∈ t.net ∧ frEntry f = frEntry b
        ∧ frLaunch f = bits c 31 24 * 256 + q

namespace Sys2Proof.Spec

/-! ### The Mortar unit (R150, R151, R154, R155, R478, R488) -/

/-- The check of a record: bits 127:120 are the XOR of the other fifteen bytes (R151). -/
def CheckHolds (r : BitVec 128) : Prop :=
  (r.extractLsb' 120 8 : BitVec 8) = ((List.range 15).map fun i => r.extractLsb' (8 * i) 8).foldl (· ^^^ ·) 0

/-- Address of the ring word of index `i` (R154). -/
def ringWordAt (m : Mortar) (i : BitVec 32) : Nat := m.base.toNat % 2 ^ 48 + 16 * (i.toNat % 2 ^ m.lsize.toNat)

/-- Replay may read its next record. -/
structure MayFetch (m : Mortar) : Prop where
  mode : m.mode = 2 ∧ m.corrupt = false
  left : m.loaded ≠ m.wptr ∧ (m.loaded - m.rptr).toNat < 2 ^ m.lsize.toNat

end Sys2Proof.Spec

/-- R150, R154, R155, R488: a descriptor write sets its fields, MODE at once only while RUN = 0; the unit appends the oldest record and
advances WPTR, or keeps it where the write fails (the record of a pop whose instruction still waits is held back, log 90); in replay it hands each good record to its point, and a corrupt one stops the
hand-over with CODE 0x06; a point whose record stays unmatched for DIVTO stops with CODE 0x07. -/
def Obligations.MortarUnit : Prop :=
  ∀ s : State,
    (let m := getMortar s (s.input.n % 128)
     let v := s.input.v
     ∃ t, exec .mortarDescWrite s = .next t ∧ (∀ k, k ≠ s.input.n % 128 → getMortar t k = getMortar s k) ∧ t.jobs = s.jobs ∧ t.mem = s.mem
       ∧ let w := getMortar t (s.input.n % 128)
         (s.input.k % 4 = 3 → w.base = v ∧ w.wptr = m.wptr ∧ w.rptr = m.rptr ∧ w.mode = m.mode)
         ∧ (s.input.k % 4 = 2 → w.base = m.base ∧ w.wptr = v.extractLsb' 32 32 ∧ w.rptr = v.extractLsb' 0 32 ∧ w.mode = m.mode)
         ∧ (s.input.k % 4 = 1 → w.base = m.base ∧ w.wptr = m.wptr ∧ w.rptr = m.rptr ∧ w.hwm = v.extractLsb' 32 32
           ∧ (w.lsize = if 8 ≤ bits v 31 27 ∧ bits v 31 27 ≤ 28 then BitVec.ofNat 5 (bits v 31 27) else 8)
           ∧ (s.run = false → w.mode = v.extractLsb' 24 3) ∧ (s.run = true → w.mode = m.mode)
           ∧ (s.run = true → v.extractLsb' 24 3 ≠ m.mode → w.nextMode = some (v.extractLsb' 24 3)))
         ∧ (s.input.k % 4 = 0 → w.divto = v.extractLsb' 0 32 ∧ w.base = m.base ∧ w.mode = m.mode))
    ∧ (let job := s.input.n
       let m := getMortar s job
       ((∀ r ∈ m.queue, provisional s job r = true) → exec .mortarRecordAppend s = .next s)
       ∧ (∀ r rest, m.queue = r :: rest → provisional s job r = false →
        (∀ w, writeVirtual s job (ringWordAt m m.wptr) (natBytes 16 r.toNat) = (.ok (), w) → m.mode ≠ 3 → getMortar w job = m →
          (∃ t, exec .mortarRecordAppend s = .next t ∧ getMortar t job = { m with queue := rest, wptr := m.wptr + 1 } ∧ t.mem = w.mem)
          ∧ (m.notedFail = true → ∃ t, exec .mortarWriteRetry s = .next t ∧ getMortar t job = { m with queue := rest, wptr := m.wptr + 1 }
            ∧ t.mem = w.mem))
        ∧ (∀ w, writeVirtual s job (ringWordAt m m.wptr) (natBytes 16 r.toNat) = (.ok (), w) → m.mode = 3 → getMortar w job = m →
          2 ^ m.lsize.toNat ≤ (m.wptr - m.rptr).toNat → ∃ t, exec .mortarRecordAppend s = .next t ∧ (getMortar t job).queue = rest
            ∧ (getMortar t job).wptr = m.wptr + 1 ∧ (getMortar t job).rptr = m.rptr + 1
            ∧ (getMortar t job).ovcnt = if m.ovcnt = BitVec.allOnes 24 then m.ovcnt else m.ovcnt + 1)
        ∧ ∀ k w, writeVirtual s job (ringWordAt m m.wptr) (natBytes 16 r.toNat) = (.error k, w) → getMortar w job = m →
          ∃ t, exec .mortarRecordAppend s = .next t ∧ (getMortar t job).queue = r :: rest ∧ (getMortar t job).wptr = m.wptr
            ∧ (getMortar t job).notedFail = true)
       ∧ (m.notedFail = false → exec .mortarWriteRetry s = .next s)
       ∧ (MayFetch m → ∀ bs psn w, readVirtual s job (ringWordAt m m.loaded) 16 = (.ok (bs, psn), w) → getMortar w job = m →
        let r : BitVec 128 := BitVec.ofNat 128 (leNat bs)
        (psn = false → CheckHolds r → ∃ t, exec .mortarReplayFetch s = .next t
          ∧ (getMortar t job).handed = m.handed ++ [(m.loaded, r)] ∧ (getMortar t job).loaded = m.loaded + 1 ∧ (getMortar t job).corrupt = false)
        ∧ (psn = true ∨ ¬ CheckHolds r → ∃ t e, exec .mortarReplayFetch s = .next t
          ∧ (getMortar t job).handed = m.handed ∧ (getMortar t job).loaded = m.loaded ∧ (getMortar t job).corrupt = true
          ∧ t.errQueue = w.errQueue ++ [e] ∧ ErrorIs w e 6 0x06 2 0x200 job))
       ∧ (¬ MayFetch m → exec .mortarReplayFetch s = .next s)
       ∧ ∀ r rest since, handedTo m s.input.k = r :: rest → m.mode = 2 → m.stopped = [] → agentFrozen s job (recAgent r) = false →
        mget m.since s.input.k = some since → let limit := since + if m.divto = 0 then 1000000 else m.divto.toNat * 1000
        (limit ≤ s.plumb → ∃ t e, exec .divergenceTimeout s = .next t ∧ (getMortar t job).stopped = [s.input.k] ∧ (getMortar t job).mode = 2
          ∧ e ∈ t.errQueue ∧ ErrorIs s e 6 0x07 2 (srcOfPoint s s.input.k) job)
        ∧ (s.plumb < limit → exec .divergenceTimeout s = .next s))

namespace Sys2Proof.Spec

/-! ### The matrix engines (R92, R173, R176, R181 to R189, R465 to R467) -/

/-- Core `p` of cluster `n` alone has a job that its arbiter may grant, and nothing is granted (R176). -/
structure OnlyEligible (s : State) (n p : Nat) (j : MxJob) : Prop where
  free : (getCluster s n).grant = none
  here : p / 8 = n
  head : ∃ r, (getCore s p).wide.mxq = j :: r
  alone : ∀ q, q / 8 = n → q ≠ p → (getCore s q).wide.mxq = []
  fit : j.granted = false ∧ isClass1 s p = false ∧ mayBegin s p j.job (mbTiles j.blk) = true
  tiles : ∀ t ∈ mbTiles j.blk, tileState (tileEntry (jobCtx s p j.job) t) = 2
  streams : firstA (getCore s p) j = true ∧ firstB (getCore s p) j = true
  footprint : footFree s (mxFootprint p j) = true
  off : mortarMode s j.job = 0
  clock : clockStopped s n = false

/-- Cluster `n` has granted job `j` of core `p`, whose spans are in the streams. -/
structure Granted (s : State) (n p : Nat) (j : MxJob) : Prop where
  grant : (getCluster s n).grant = some (p, j.id) ∧ p / 8 = n ∧ (getCluster s n).powered = true
  head : (getCore s p).wide.mxq.find? (fun x => x.id = j.id) = some j
  spans : spansThere (getCore s p) j = true
  clock : clockStopped s n = false

/-- Job `j` has ended with a STATE: it has left the queue, the arbiter is free, a slot's status is kept (R186, R188; of a job that
ran again after a power loss it has been told before, R149). -/
structure MxEnded (t : State) (n p : Nat) (j : MxJob) (state : Nat) : Prop where
  gone : ∀ x ∈ (getCore t p).wide.mxq, x.id ≠ j.id
  free : (getCluster t n).grant = none
  status : j.card = none → j.redo = false → ∃ e, (getCore t p).mxEnded.getLast? = some e ∧ e.id = j.id ∧ e.job = j.job ∧ e.state = state

/-- No byte of main memory, of a cache line, of the durable region, of the image, of a local store or of an operand buffer differs. -/
structure Unwritten (s t : State) : Prop where
  memory : t.mem = s.mem ∧ t.nodes = s.nodes ∧ t.durable = s.durable ∧ t.image = s.image
  stores : ∀ q, (getCore t q).res.ls = (getCore s q).res.ls ∧ (getCore t q).sav.map (fun x => x.ls) = (getCore s q).sav.map (fun x => x.ls)
  buffers : ∀ q, (getCore t q).wb = (getCore s q).wb ∧ (getCore t q).ab = (getCore s q).ab

/-- The output chunks of a job (R186 stage 7): row i stands at OUTA + i × OPITCH × 64, in chunks of 64 bytes, the last one shorter. -/
def ChunksAt (j : MxJob) (cs : List (Word × List (Byte × Bool))) : Prop :=
  ∀ e ∈ cs, e.2.length ≤ 64 ∧ ∃ i k, i < mbM j.blk ∧ e.1 = mbOuta j.blk + BitVec.ofNat 64 (i * (mbOpitch j.blk * 64)) + BitVec.ofNat 64 (64 * k)

/-- A chunk of the local store that local addresses of the job's core name. -/
def LocalChunk (e : Word × List (Byte × Bool)) : Prop := ∃ o, e.1 = BitVec.ofNat 64 (0xFF * 2 ^ 56 + o) ∧ o + e.2.length ≤ 0x20000

/-- The tile's words in the accumulator buffer. -/
def TileIs (t : State) (p : Nat) (j : MxJob) (tile : List (BitVec 32)) : Prop :=
  memBytes (getCore t p).wide.acc (mbAcc j.blk) (4 * tile.length) = tile.flatMap fun x => natBytes 4 x.toNat

/-! ### The hods, the reductions, the vision engines (R192, R193, R195, R196, R203, R377, R473, R474) -/

/-- The transfer that core `p` runs next, with its packets. -/
structure Runs (s : State) (p : Nat) (x : Xfer) : Prop where
  head : hodHead (getCore s p) = some x
  started : x.started = true
  own : findXfer s p x.uid = some x

end Sys2Proof.Spec

/-- R176, R182, R184, R186, R188, R465 to R467: the arbiter grants an eligible head, whose tiles drain; at its end the job's tile is
committed and its status is 2, or the entry check has failed twice and its status is 3 with nothing written: accumulator, memories and
local stores stand. A good job writes its output chunks, rows at OUTA + i × OPITCH × 64, and no other byte: none without OUT, and where
its output lies in the own local store that store holds the chunks written in order and every other byte as before. A chunk that failed
is written once more. That the accumulator is read at the grant and that the whole job is done at its end is log 46. -/
def Obligations.MatrixEngine : Prop :=
  ∀ (s : State) (n p : Nat) (j : MxJob), n = s.input.n →
    (OnlyEligible s n p j → ∃ t h, exec .mxeGrant s = .next t ∧ (getCluster t n).grant = some (p, j.id)
      ∧ (getCluster t n).lastFmt = some j.fmt ∧ (getCore t p).wide.mxq.find? (fun x => x.id = j.id) = some h ∧ h.granted = true
      ∧ { h with granted := false, c0 := [], c0Psn := [] } = { j with granted := false, c0 := [], c0Psn := [] }
      ∧ (∀ k < mbM j.blk * mbN j.blk, h.c0[k]? = some (accStart (fmtInt j.fmt) (mbAcm j.blk) j.decay
        (BitVec.ofNat 32 (leNat (memBytes (getCore s p).wide.acc (mbAcc j.blk + 4 * k) 4)))))
      ∧ (∀ k ∈ mbTiles j.blk, tileState (tileEntry (getCore t p).res k) = 3) ∧ t.net = s.net ∧ t.mem = s.mem)
    ∧ ((getCluster s n).grant ≠ none → exec .mxeGrant s = .next s)
    ∧ (Granted s n p j → j.rest = [] →
      let s' := charge s j.job (mbSteps j.blk j.fmt * scaledEnergy s n 20300000)
      (∀ tile u bias scale v w, checkedTile s' p j = (some tile, u) → readVectors u p j = .ok (bias, scale) v →
        let chunks := (outputChunks (getCore v p) j tile bias scale).1
        ChunksAt j chunks ∧ (epiOut j.epi = false → chunks = [])
        ∧ (writeChunks (mxEng p j) (perturbedChunk j) chunks v = .all w → Memory.wf (getCore w p).wide.acc →
          ∃ t, exec .mxeJobEnd s = .next t ∧ MxEnded t n p j 2 ∧ TileIs t p j tile ∧ (j.card = none → Unwritten w t)
            ∧ (j.card = none → savedFor s p j.job = false → (getCore v p).waits = [] → Memory.wf (getCore v p).res.ls →
              (getCore v p).res.lsPoison = [] → (∀ e ∈ chunks, LocalChunk e ∧ ∀ b ∈ e.2, b.2 = false) → t.mem = v.mem ∧ t.nodes = v.nodes ∧ (∀ q, q ≠ p → (getCore t q).res.ls = (getCore v q).res.ls)
                ∧ ∀ a, memByte (getCore t p).res.ls a
                  = memByte (chunks.foldl (fun m e => memStore m (offset48 e.1) (e.2.map fun b => b.1)) (getCore v p).res.ls) a)))
      ∧ (∀ u, checkedTile s' p j = (none, u) →
        ∃ t, exec .mxeJobEnd s = .next t ∧ MxEnded t n p j 3 ∧ (getCore t p).wide.acc = (getCore s p).wide.acc
          ∧ (j.card = none → Unwritten s t)))
    ∧ (Granted s n p j → ∀ a bs r, j.rest = (a, bs) :: r → exec .mxeJobEnd s = .next s
      ∧ (s.input.flag = true → Memory.wf (getCore s p).wide.acc →
        ∃ t e, exec .mxeChunkRetry s = .next t ∧ MxEnded t n p j 3 ∧ TileIs t p j j.tile ∧ e ∈ t.errQueue ∧ ErrorIs s e 3 0x02 2 (0x210 + n) j.job)
      ∧ (s.input.flag = false → ∀ w, writeChunks (mxEng p j) none j.rest (mxRecord s p j 0x02 1 a) = .all w → Memory.wf (getCore w p).wide.acc →
        ∃ t, exec .mxeChunkRetry s = .next t ∧ MxEnded t n p j 2 ∧ TileIs t p j j.tile))

/-- R92, R191 to R193, R368: a transfer starts when its tiles, footprint and core allow it, sends its packets in order, and ends with
STATE 2 when all are performed, with STATE 3 where one was refused; a packet for a FIFO joins its core's stream. That a packet's source is read in the
step that issues it is log 49. -/
def Obligations.HodTransfers : Prop :=
  ∀ (s : State) (p : Nat) (x : Xfer),
    (p = s.input.n → hodHead (getCore s p) = some x → findXfer s p x.uid = some x → x.started = false → mayBegin s p x.job (x.tilesW ++ x.tilesR) = true →
      footFree s (hodFootprint p x) = true → tilesAre s p x.job x.tilesW 0 = true → tilesAre s p x.job x.tilesR 2 = true →
      hdKind x.regs ≠ 5 →
      ∃ t y, exec .hodTransferStart s = .next t ∧ findXfer t p x.uid = some y ∧ y.started = true ∧ y.todo = packetsOf x.regs (hdDst x.regs)
        ∧ { y with started := false, todo := [], ringBase := 0 } = { x with started := false, todo := [], ringBase := 0 }
        ∧ (∀ k ∈ x.tilesR, k ∉ x.tilesW → tileState (tileEntry (getCore t p).res k) = 3)
        ∧ (∀ k ∈ x.tilesW, tileState (tileEntry (getCore t p).res k) = 1) ∧ t.net = s.net ∧ t.mem = s.mem)
    ∧ (p = s.input.n → hodHead (getCore s p) = some x → footFree s (hodFootprint p x) = false → exec .hodTransferStart s = .next s)
    ∧ (p / 8 = s.input.n → Runs s p x → (getCluster s (p / 8)).powered = true → (∀ q, q / 8 = p / 8 → q ≠ p → (getCore s q).hodq = []) →
      ∀ q r data w, x.todo = q :: r → engRead s (hodEng p x) (BitVec.ofNat 64 q.src) q.len = .ok data w →
      findXfer w p x.uid = some x → w.net = s.net →
      ∃ t, exec .hodPacketIssue s = .next t ∧ t.net = s.net ++ [.packet (getCore w p).lcore x.uid x.job q data]
        ∧ findXfer t p x.uid = some { x with todo := r, flying := x.flying + 1 } ∧ (getCluster t (p / 8)).hodNext = (p % 8 + 1) % 8)
    ∧ (∀ lc job q data, s.net[s.input.n]? = some (.packet lc x.uid job q data) → physOf s lc = p → findXfer s p x.uid = some x →
      packetBehind s s.input.n p x q = false → packetRepeat s p x q = false → hdCnt x.regs = false →
      (hdKind x.regs = 1 → fifoUsed s (p / 8) false + data.length ≤ 262144 → x.tilesW = [] →
        ∃ t, exec .hodPacketPerform s = .next t ∧ (getCore t p).fifoA = (getCore s p).fifoA ++ data.map Prod.fst
          ∧ (getCore t p).fifoB = (getCore s p).fifoB ∧ t.net = ldrop s.net s.input.n
          ∧ findXfer t p x.uid = some { x with flying := x.flying - 1, done := x.done + 1 })
      ∧ (hdKind x.regs = 2 → fifoUsed s (p / 8) true + data.length ≤ 262144 → x.tilesW = [] →
        ∃ t, exec .hodPacketPerform s = .next t ∧ (getCore t p).fifoB = (getCore s p).fifoB ++ data.map Prod.fst
          ∧ (getCore t p).fifoA = (getCore s p).fifoA ∧ t.net = ldrop s.net s.input.n
          ∧ findXfer t p x.uid = some { x with flying := x.flying - 1, done := x.done + 1 })
      ∧ (hdKind x.regs = 1 → 262144 < fifoUsed s (p / 8) false + data.length → exec .hodPacketPerform s = .next s)
      ∧ (hdKind x.regs = 0 → ∀ w, engWrite { s with net := ldrop s.net s.input.n } (hodEng p x) (BitVec.ofNat 64 q.dst) data (hdRcnt x.regs) = .ok () w →
        findXfer w p x.uid = some x → x.tilesW = [] →
        ∃ t, exec .hodPacketPerform s = .next t ∧ findXfer t p x.uid = some { x with flying := x.flying - 1, done := x.done + 1 }
          ∧ t.mem = w.mem ∧ t.nodes = w.nodes))
    ∧ (p = s.input.n → endable s p = some x → (x.failed = false → hdKind x.regs ≠ 5) → ∃ t, exec .hodTransferEnd s = .next t
      ∧ (∀ y ∈ (getCore t p).hodq, y.uid ≠ x.uid)
      ∧ (x.card = none → t.mem = s.mem ∧ t.net = s.net ∧ ∃ e, (getCore t p).hodEnded.getLast? = some e ∧ e.id = x.id ∧ e.job = x.job
        ∧ e.state = (if x.failed then 3 else 2) ∧ e.count = x.done))

/-- R195, R377, R473: when every core of the tree of a reduction, fixed by its earliest contribution, has contributed with the same op,
each takes the result, formed in tree order, or where one contribution was poisoned a poisoned one; until then, and while one of their clusters is in a
ratio change (R231), nothing happens. -/
def Sys2Proof.Spec.Reductions : Prop :=
  ∀ (s : State) (j : Job) (f : Contribution), findJob s s.input.n = some j → firstContribution s s.input.n = some f →
    let cols := f.tree.map fun col => col.map fun lc => physOf s lc
    let ps := cols.flatten
    let oldest := fun (p : Nat) => (getCore s p).contribs.find? fun x => x.job = j.id
    (∀ (op : RedOp) (c : Nat → Contribution), ps.Nodup → (∀ p ∈ ps, clockStands s p = false) → (∀ p ∈ ps, oldest p = some (c p) ∧ (c p).op = op) →
      let v := redFold op (cols.map fun col => redFold op (col.map fun p => (c p).val))
      ∃ t, exec .reductionComplete s = .next t
        ∧ (∀ p ∈ ps, (∃ psn, (getCore t p).results = (getCore s p).results ++ [(j.id, v, psn)] ∧ (psn = true ↔ ∃ q ∈ ps, (c q).psn = true))
          ∧ (getCore t p).contribs = (getCore s p).contribs.erase (c p) ∧ (getCore t p).redSeq = (getCore s p).redSeq + 1)
        ∧ ∀ p, p ∉ ps → getCore t p = getCore s p)
    ∧ ((∃ p ∈ ps, oldest p = none ∨ clockStands s p = true) → exec .reductionComplete s = .next s)

/-- R196, R203, R474: a free engine takes the head of its queue when its footprint allows and runs pass 1; pass 2 ends the job, and
one that finds a row changed runs pass 1 again (log 50, which also has pass 1 done in the start step and pass 2 in the end step); the watchdog runs pass 1 again once, and fails the card the second time. -/
def Sys2Proof.Spec.VisionEngines : Prop :=
  ∀ (s : State) (n : Nat) (v : Vision), n = s.input.n →
    (n < 8 → mget s.engines n = none → nextVision s n = some v →
      let q := ((mget s.visionQ (n / 2)).getD []).filter fun x => decide (x.inst ≠ v.inst) || decide (x.card ≠ v.card)
      ∀ w u, runPassOne { s with visionQ := mset s.visionQ (n / 2) q, engines := mset s.engines n v } n v true = .ok w u →
      ∃ t, exec .visionJobStart s = .next t ∧ mget t.engines n = some w ∧ t.mem = u.mem ∧ t.nodes = u.nodes ∧ t.visionQ = u.visionQ)
    ∧ (n < 8 → mget s.engines n = none → nextVision s n = none → exec .visionJobStart s = .next s)
    ∧ (mget s.engines n = some v → ∀ u g, runPassTwo s n v = .ok true u → findGraph u v.inst = some g → g.st = .running →
      ∃ t h, exec .visionJobEnd s = .next t ∧ mget t.engines n = none ∧ findGraph t v.inst = some h
        ∧ (1 < g.count → h.st = .running ∧ h.count = g.count - 1) ∧ (g.count ≤ 1 → h.st = .complete))
    ∧ (mget s.engines n = some v → v.retried = false → ∀ x y w u, runPassTwo s n v = .ok false x → mget x.engines n = some y →
      runPassOne (charge { x with engines := mset x.engines n { y with retried := true } } y.job (visionEnergy y)) n { y with retried := true } false
        = .ok w u → y.retried = false →
      ∃ t, exec .visionJobEnd s = .next t ∧ mget t.engines n = some w ∧ t.mem = u.mem)
    ∧ (mget s.engines n = some v → v.retried = false → ∀ w u,
      runPassOne (charge { s with engines := mset s.engines n { v with retried := true } } v.job (visionEnergy v)) n { v with retried := true } false
        = .ok w u →
      ∃ t, exec .visionWatchdog s = .next t ∧ mget t.engines n = some w ∧ t.mem = u.mem)
    ∧ (mget s.engines n = some v → v.retried = true → ∀ g, findGraph s v.inst = some g → g.st = .running →
      ∃ t e h, exec .visionWatchdog s = .next t ∧ mget t.engines n = none ∧ e ∈ t.errQueue
        ∧ ErrorIs s e 3 0x05 2 (0x250 + n) v.job ∧ tbit e 18 = true ∧ findGraph t v.inst = some h ∧ h.st = .cancelled)

namespace Sys2Proof.Spec

/-! ### Ingress and outputs (R210 to R217, R223, R491) -/

/-- A frame on port `s.input.n` belongs to gate `g`, whose job is registered. -/
structure FrameAt (s : State) (f : Eth) (g : Nat) : Prop where
  port : s.input.n < 8
  frame : f = parseEth s.input.bytes
  gate : gateOfFrame s s.input.n f = some g
  job : (findJob s (g + 1)).isSome = true

/-- Nothing but gate `g` has changed, and what `t` says otherwise. -/
def OnlyGate (s t : State) (g : Nat) : Prop := (∀ k, k ≠ g → getGate t k = getGate s k) ∧ t.mem = s.mem ∧ t.cores = s.cores ∧ t.net = s.net

/-- Output gate `g` is in force in the current scan. -/
structure OutputGate (s : State) (g : Nat) : Prop where
  inForce : g < 64 ∧ gtV (getGate s g).entry = true ∧ gtKind (getGate s g).entry = 1
  scan : 0 < s.scans

/-- Base of the output half of the current scan, and of the other half. -/
def halfNow (s : State) : Nat := 0x400000 + s.stamp.toNat % 2 * 0x100000
def halfBefore (s : State) : Nat := 0x400000 + (s.stamp.toNat + 1) % 2 * 0x100000

/-- Time of the current scan's boundary. -/
def scanTime (s : State) : Nat := s.start.toNat + (s.scans - 1) * (s.period.toNat * 1000)

end Sys2Proof.Spec

/-- R210, R212, R213, R215, R217, R223: a frame of no gate goes to the best-effort ring; one whose job is not registered, a duplicate, one
above MAXSDU and one that the meter refuses are counted and dropped; any other is staged with its arrival time. A forwarded frame
skips MAXSDU and meter and keeps its first arrival. An ended camera block gets its header. That MAXSDU is compared with the bytes from
the EtherType on, 0 dropping every frame, and that the meter counts the whole frame is log 52. -/
def Sys2Proof.Spec.Ingress : Prop :=
  ∀ (s : State) (g : Nat),
    let raw := s.input.bytes
    let f := parseEth raw
    let x := getGate s g
    let e := x.entry
    let fresh := ∀ q, gtCb e = true → f.seq = some q → (recover x.recov q).1 = true
    let staged := fun (time : Nat) (own : Option Nat) => ({
      gate := g, place := 0x600000 + gtIoff e * 64, bytes := fit (gtIlen e) f.body
      time := time, own := own, seq := if gtCb e then f.seq else none } : Staged)
    (s.input.n < 8 → gateOfFrame s s.input.n f = none → s.mgmtOff = false → exec .frameArrival s = .next { s with sent := s.sent ++ [.bestEffort raw] })
    ∧ (s.input.n < 8 → gateOfFrame s s.input.n f = some g → findJob s (g + 1) = none →
      ∃ t, exec .frameArrival s = .next t ∧ OnlyGate s t g ∧ getGate t g = { x with nojob := x.nojob + 1 } ∧ t.staged = s.staged)
    ∧ (FrameAt s f g →
      (∀ h hist, gtCb e = true → x.recov = some (h, hist) → f.seq = some h.toNat →
        ∃ t, exec .frameArrival s = .next t ∧ OnlyGate s t g ∧ getGate t g = { x with dup := x.dup + 1 })
      ∧ (fresh → gtMaxSdu e < f.body.length →
        ∃ t, exec .frameArrival s = .next t ∧ OnlyGate s t g ∧ (getGate t g).ovsz = x.ovsz + 1 ∧ t.staged = s.staged)
      ∧ (fresh → f.body.length ≤ gtMaxSdu e → gtCir e ≠ 0 → bucket x s.plumb < raw.length * 8000000000 →
        ∃ t, exec .frameArrival s = .next t ∧ OnlyGate s t g ∧ (getGate t g).policed = x.policed + 1 ∧ t.staged = s.staged)
      ∧ (fresh → f.body.length ≤ gtMaxSdu e → (gtCir e = 0 ∨ raw.length * 8000000000 ≤ bucket x s.plumb) → gtKind e = 0 → s.pair.link = false →
        ∃ t, exec .frameArrival s = .next t ∧ OnlyGate s t g ∧ (getGate t g).accepted = x.accepted + 1
          ∧ t.staged = s.staged ++ [staged s.plumb (some s.plumb)])
      ∧ (fresh → gtKind e = 0 → s.pair.link = true →
        ∃ t, exec .forwardedFrameArrive s = .next t ∧ OnlyGate s t g ∧ (getGate t g).accepted = x.accepted + 1
          ∧ t.staged = s.staged ++ [staged s.input.v.toNat none]))
    ∧ (s.pair.link = false → exec .forwardedFrameArrive s = .next s)
    ∧ ∀ b r w, g = s.input.n → x.ended = b :: r → b.late = [] → gtCard e = 0xFFFF →
      engWrite (updGate s g fun x => { x with ended := r }) (ingressEng g) (bufAddr e b.buf) (clean (natBytes 64 (landHeader g b).toNat)) = .ok () w →
      getGate w g = { x with ended := r } →
      ∃ t, exec .cameraBlockLand s = .next t ∧ getGate t g = { x with ended := r, accepted := x.accepted + 1 } ∧ t.mem = w.mem

/-- R210, R211, R216: at its OFRZ an output gate freezes its entry, copied from the other half and stale where it was not written in this
scan; at its OTX it sends the entry once on each of its ports, which keep it while its class is closed; a gate control list moves on
cyclically when the interval of its entry is over. -/
def Sys2Proof.Spec.Outputs : Prop :=
  ∀ (s : State) (g : Nat),
    let x := getGate s g
    let e := x.entry
    let now := halfNow s + gtIoff e * 64
    let before := halfBefore s + gtIoff e * 64
    (g = s.input.n → OutputGate s g → x.frozen = false → scanTime s + gtOfrz e * 1000 ≤ s.plumb →
      (imageWord s (halfNow s + 0x40 + 4 * g) = s.stamp → poisonRead 8 s.imagePoison now (gtIlen e) = false →
        ∃ t, exec .outputFreeze s = .next t ∧ getGate t g = { x with frozen := true, stale := false } ∧ t.image = s.image)
      ∧ (imageWord s (halfNow s + 0x40 + 4 * g) ≠ s.stamp → Memory.wf s.image → s.imagePoison = [] → 64 ≤ gtIoff e → gtIoff e * 64 + gtIlen e ≤ 0x100000 → g < 64 →
        ∃ t, exec .outputFreeze s = .next t ∧ getGate t g = { x with frozen := true, stale := true }
          ∧ memBytes t.image now (gtIlen e) = memBytes s.image before (gtIlen e)
          ∧ imageWord t (halfNow s + 0x40 + 4 * g) = imageWord s (halfBefore s + 0x40 + 4 * g)))
    ∧ (g = s.input.n → s.plumb < scanTime s + gtOfrz e * 1000 → exec .outputFreeze s = .next s)
    ∧ (g = s.input.n → OutputGate s g → (findJob s (g + 1)).isSome = true → x.frozen = true → s.input.k < 8 → s.input.k ∉ x.sent →
      tbit e (198 + s.input.k) = true → scanTime s + gtOtx e * 1000 ≤ s.plumb → s.pair.role = 0 → s.pair.stash = [] → s.pair.unsure = false →
      let port := (mget s.ports s.input.k).getD {}
      let kept := port.waiting.filter fun w => decide (w.1 = gtPcp e)
      let bytes := memBytes s.image now (gtIlen e)
      let prefix_ := natBytes 4 (imageWord s (halfNow s + 0x40 + 4 * g)).toNat ++ natBytes 4 (if x.stale then 1 else 0)
      let body := if gtOpfx e then bytes.take 2 ++ prefix_ ++ bytes.drop 2 else bytes
      let frame := beBytes 6 (gtMac e) ++ beBytes 6 (Config.portMac s.input.k).toNat ++ beBytes 2 0x8100 ++ beBytes 2 (gtPcp e * 2 ^ 13 + gtVid e) ++ body
      ∃ t, exec .outputTransmit s = .next t
        ∧ (classOpen s s.input.k (gtPcp e) = true → kept = [] → t.sent = s.sent ++ [.frame s.input.k frame] ∧ t.ports = s.ports)
        ∧ (classOpen s s.input.k (gtPcp e) = false ∨ kept ≠ [] → t.sent = s.sent
          ∧ t.ports = mset s.ports s.input.k { port with waiting := port.waiting ++ [(gtPcp e, frame)] })
        ∧ s.input.k ∈ (getGate t g).sent ∧ (∀ k, k ≠ g → getGate t k = getGate s k) ∧ t.image = s.image)
    ∧ (g = s.input.n → (x.frozen = false ∨ s.pair.unsure = true ∨ s.input.k ∈ x.sent ∨ s.plumb < scanTime s + gtOtx e * 1000) → exec .outputTransmit s = .next s)
    ∧ ∀ q, mget s.ports s.input.n = some q →
      let ends := q.since + bits (q.gcl.getD q.cur 0) 31 0
      (q.gcl = [] ∨ s.plumb < ends → exec .gclIntervalEnd s = .next s)
      ∧ (q.gcl ≠ [] → ends ≤ s.plumb → ∃ t r, exec .gclIntervalEnd s = .next t ∧ mget t.ports s.input.n = some r
        ∧ r.cur = (q.cur + 1) % q.gcl.length ∧ r.since = ends ∧ r.gcl = q.gcl ∧ ∀ k, k ≠ s.input.n → mget t.ports k = mget s.ports k)

/-- R222 to R225, R461, R490 to R492: the pair's commands, its handshake, what its flits bring, and how it is declared down.
The kinds and bytes of the flits and the meaning of the comparison's bits are log 22 (DESIGN CHOICE): the rules give no format. -/
def Obligations.PairLink : Prop :=
  ∀ s : State,
    let u := { s with arbSeq := s.arbSeq + 1 }
    let l := s.pair
    let bare := ∃ g < 64, gtV (getGate s g).entry = true ∧ gtKind (getGate s g).entry = 1 ∧ gtOpfx (getGate s g).entry = false
    let noPartner := ∀ r, Msg.req 0x500 r ∉ s.net
    (s.arbWait = [] → ¬ bare → exec .pairAsActive s = .next { u with pair := { l with role := 1 } }
      ∧ exec .pairAsStandby s = .next { u with pair := { l with role := 2 } })
    ∧ (s.arbWait = [] → bare → exec .pairAsActive s = .next u ∧ exec .pairAsStandby s = .next u)
    ∧ (s.arbWait = [] → (l.link = true → exec .pairSwitchOver s
          = .next { u with sent := s.sent ++ [.flit [5]], pair := { l with switchPending := true } })
      ∧ (l.link = false → exec .pairSwitchOver s = .next u)
      ∧ (noPartner → ∃ t, exec .pairUnpair s = .next t ∧ t.pair.role = 0 ∧ t.pair.link = false ∧ t.pair.windows = l.windows
        ∧ t.sent = s.sent ++ [.flit [4]] ∧ t.net = s.net))
    ∧ (l.role ≠ 0 → l.link = false → ∃ t, exec .pairHandshake s = .next t ∧ t.pair.link = true ∧ t.pair.sync = false
      ∧ t.pair.syncFrom = s.plumb + 200000
      ∧ (t.pair.role = if l.role = 1 ∧ s.input.n = 1 ∧ s.input.v.toNat < s.devId.toNat then 2 else l.role))
    ∧ (l.role = 0 ∨ l.link = true → exec .pairHandshake s = .next s)
    ∧ (l.link = true → l.lastFlit + 2000 ≤ s.plumb → noPartner → ∃ t, exec .pairSilenceTimeout s = .next t ∧ t.pair.link = false
      ∧ t.pair.role = l.role ∧ (l.role = 2 ∧ tbit l.pol 0 = true → t.pair.lateFrom = some l.lastFlit ∧ t.errQueue = s.errQueue)
      ∧ (l.role = 1 ∨ tbit l.pol 0 = false → ∃ e, t.errQueue = s.errQueue ++ [e] ∧ ErrorIs s e 7 0x04 2 0x270 0))
    ∧ (s.plumb < l.lastFlit + 2000 ∨ l.link = false → exec .pairSilenceTimeout s = .next s)
    ∧ (l.link = true → noPartner → ∃ t, exec .partnerResetSignal s = .next t ∧ t.pair.link = false
      ∧ (l.role = 2 → t.pair.lateFrom = some l.lastFlit) ∧ (l.role = 1 → ∃ e, t.errQueue = s.errQueue ++ [e] ∧ ErrorIs s e 7 0x04 2 0x270 0))
    ∧ (l.link = true → ∃ t, exec .pairFlitArrive s = .next t ∧ t.pair.lastFlit = s.plumb
      ∧ (s.input.n = 1 → l.role = 2 → t.pair.lines = l.lines ++ [(s.input.k, s.input.bytes.take 64)])
      ∧ (s.input.n = 2 → l.role = 2 → t.pair.digest = some (BitVec.ofNat 256 (beNat s.input.bytes)))
      ∧ (s.input.n = 3 → l.role = 1 → t.pair.sync = tbit s.input.v 0 ∧ t.pair.role = if tbit s.input.v 1 then 2 else 1)
      ∧ (s.input.n = 5 → t.pair.switchPending = true)
      ∧ (s.input.n = 6 → t.nodes = s.nodes.map fun m =>
        (m.1, { m.2 with acceptPartner := m.2.acceptPartner.filter fun e => decide (e.1 / 16 ≠ s.input.k) }))
      ∧ (s.input.n = 4 → bits s.input.v 63 48 = 0 → ∃ r, t.net = s.net ++ [.req (0x100 + homeNode (offset48 s.input.v)) r]
        ∧ r.src = .partner ∧ r.parts.map (fun q => q.addr) = [s.input.v] ∧ r.job < 128))
    ∧ (l.link = false → exec .pairFlitArrive s = .next s)

namespace Sys2Proof.Spec

/-! ### Operating points, droop, heat, energy (R229 to R235, R239, R240, R480 to R482) -/

/-- The conditions on which a cluster may change its operating point (R230). -/
structure MayChange (s : State) (n : Nat) : Prop where
  idle : (getCluster s n).busy = false ∧ (getCluster s n).forced = false ∧ (getCluster s n).rfail = false
  up : (getCluster s n).powered = true
  noSwitch : ∀ w ∈ s.switches, (w.step = .due ∧ s.plumb < w.time) ∨ ∀ p ∈ w.cores, p / 8 ≠ n
  noMove : ∀ m ∈ s.migrations, m.1 / 8 ≠ n ∧ m.2 / 8 ≠ n
  noPhase : ∀ j ∈ s.jobs, j.phase = .opened → ∀ p ∈ partCores s j.record, p / 8 ≠ n

/-- The cores of cluster `n` that stand at a rotation boundary have stopped; the others go on. -/
def HaltedAtBoundary (s t : State) (n : Nat) : Prop :=
  ∀ p, p / 8 = n → ((getCore s p).pass = [] ∨ (getCore s p).halted = true → (getCore t p).halted = true)
    ∧ ((getCore s p).pass ≠ [] → (getCore t p).halted = (getCore s p).halted)

/-- The clock of cluster `n` has started anew: its cores issue and count from 0 (R45). -/
def Restarted (t : State) (n : Nat) : Prop := ∀ p, p / 8 = n → (getCore t p).halted = false ∧ (getCore t p).cc = 0 ∧ (getCore t p).pass = []

/-- Nothing but cluster `n` has changed, and what `t` says otherwise. -/
def OnlyCluster (s t : State) (n : Nat) : Prop := (∀ k, k ≠ n → getCluster t k = getCluster s k) ∧ (∀ p, p / 8 ≠ n → getCore t p = getCore s p) ∧ t.mem = s.mem

end Sys2Proof.Spec

/-- R230, R231, R241, R481: a change of operating point starts on the conditions of R230, stops the cores at their rotation boundaries, and
ends with the clock running at the target; a step that exceeds its bound lets the clock run at the old point and the change is tried
again once, then RFAIL is set and the cluster stays; a forced change that met a change in progress follows it (log 57); a converter that does not settle stops the cluster, which is fenced. -/
def Sys2Proof.Spec.OperatingPoints : Prop :=
  ∀ (s : State) (n : Nat), n = s.input.n → n < 24 →
    let c := getCluster s n
    (c.req ≠ c.cur → MayChange s n → ∃ t, exec .ratioChangeStart s = .next t ∧ OnlyCluster s t n ∧ HaltedAtBoundary s t n
      ∧ getCluster t n = { c with busy := true, target := c.req, tries := 0, failStep := 0, clk := (getCluster t n).clk })
    ∧ (c.req = c.cur ∨ ¬ MayChange s n → exec .ratioChangeStart s = .next s)
    ∧ (c.busy = true → (∀ p, p / 8 = n → (getCore s p).halted = true) → c.forceDue = false → c.droop = false →
      ∃ t, exec .ratioChangeDone s = .next t ∧ OnlyCluster s t n ∧ Restarted t n
        ∧ getCluster t n = { c with busy := false, cur := c.target, clk := (getCluster t n).clk }
        ∧ (c.tries ≠ 1 → t.errQueue = s.errQueue) ∧ (c.tries = 1 → ∃ e, t.errQueue = s.errQueue ++ [e] ∧ ErrorIs s e 5 0x03 1 (0x290 + n) 0))
    ∧ (c.busy = true → (∃ p, p / 8 = n ∧ (getCore s p).halted = false) →
      ∃ t, exec .ratioChangeDone s = .next t ∧ OnlyCluster s t n ∧ HaltedAtBoundary s t n
        ∧ getCluster t n = { c with clk := (getCluster t n).clk })
    ∧ (c.busy = true → (∀ p, p / 8 = n → (getCore s p).halted = true) → c.forceDue = true → c.target ≠ 0 → ∃ t, exec .ratioChangeDone s = .next t
      ∧ OnlyCluster s t n ∧ (getCluster t n).cur = c.target ∧ (getCluster t n).busy = true ∧ (getCluster t n).target = 0
      ∧ (getCluster t n).forceDue = false)
    ∧ (c.busy = true → s.input.flag = false → c.tries = 0 → c.droop = false →
      ∃ t, exec .ratioStepTimeout s = .next t ∧ OnlyCluster s t n ∧ Restarted t n
        ∧ getCluster t n = { c with tries := 1, failStep := s.input.k, clk := (getCluster t n).clk } ∧ t.errQueue = s.errQueue)
    ∧ (c.busy = true → s.input.flag = false → c.tries ≠ 0 → c.droop = false → c.forceDue = false →
      ∃ t e, exec .ratioStepTimeout s = .next t ∧ OnlyCluster s t n ∧ Restarted t n
        ∧ getCluster t n = { c with busy := false, req := c.cur, rfail := true, clk := (getCluster t n).clk } ∧ t.errQueue = s.errQueue ++ [e] ∧ ErrorIs s e 5 0x03 2 (0x290 + n) 0)
    ∧ (c.busy = true → s.input.flag = true → c.droop = false →
      ∃ t e a, exec .ratioStepTimeout s = .next t ∧ t.errQueue = s.errQueue ++ [e] ∧ ErrorIs s e 5 0x04 3 (0x290 + n) 0
        ∧ t.agenda = s.agenda ++ [.event .containFence a] ∧ bits a.v 62 58 = n ∧ (getCluster t n).busy = false)
    ∧ (c.busy = false → exec .ratioChangeDone s = .next s ∧ exec .ratioStepTimeout s = .next s)

/-- R232, R241, R479, R480: a droop closes the injection switch, for at most 64 of any 4,096 cc in a row, and each closure counts in
DINJ; when the closures come to 64 cc the switch opens, the clock stretches, STRCNT counts and CODE 0x01 is written, and at the fourth
window in a row a forced change to L starts with CODE 0x02, also while FORCED is still 1; at a window's end a detector still tripped
closes the switch again. The closed clocks of the last 4,096 cc, the windows that follow one another with one closure limit each, and the
forced change while FORCED is 1, which follows a change in progress, are log 57 (DESIGN CHOICE). -/
def Sys2Proof.Spec.Droop : Prop :=
  ∀ (s : State) (n : Nat), n = s.input.n → n < 24 →
    let c := getCluster s n
    let used := closedCc s c
    let closes := fun (d : Cluster) => { d with inj := true, dinj := if d.dinj = 255 then 255 else d.dinj + 1 }
    (c.droop = false → clockStopped s n = false →
      (c.inj = false → used < 64 → ∃ t, exec .droopTrip s = .next t ∧ OnlyCluster s t n ∧ getCluster t n = closes { c with droop := true })
      ∧ (c.inj = true ∨ 64 ≤ used → ∃ t, exec .droopTrip s = .next t ∧ OnlyCluster s t n ∧ getCluster t n = { c with droop := true }))
    ∧ (c.droop = false → clockStopped s n = true →
      ∃ t, exec .droopTrip s = .next t ∧ OnlyCluster s t n ∧ getCluster t n = { c with droop := true })
    ∧ (c.droop = true → exec .droopTrip s = .next s)
    ∧ (c.droop = true → c.inj = true → used + s.input.k < 64 → ∃ t l, exec .droopRestored s = .next t ∧ OnlyCluster s t n
      ∧ getCluster t n = { c with droop := false, inj := false, closed := l } ∧ closedCc t (getCluster t n) = used + s.input.k)
    ∧ (c.droop = true → c.inj = false → ∃ t, exec .droopRestored s = .next t ∧ OnlyCluster s t n
      ∧ getCluster t n = { c with droop := false })
    ∧ (c.droop = false ∨ (c.inj = true ∧ 64 ≤ used + s.input.k) → exec .droopRestored s = .next s)
    ∧ (c.inj = true → clockStopped s n = false → c.stretched = true → ∃ t l, exec .droopLimit s = .next t ∧ OnlyCluster s t n
      ∧ getCluster t n = { c with inj := false, closed := l } ∧ (used ≤ 64 → closedCc t (getCluster t n) = 64) ∧ t.errQueue = s.errQueue)
    ∧ (c.inj = true → clockStopped s n = false → c.stretched = false → c.limited < 3 → ∃ t e l, exec .droopLimit s = .next t ∧ OnlyCluster s t n
      ∧ getCluster t n = { c with inj := false, closed := l, stretched := true, limited := c.limited + 1, clk := (getCluster t n).clk
                                  strcnt := if c.strcnt = 255 then 255 else c.strcnt + 1 }
      ∧ (used ≤ 64 → closedCc t (getCluster t n) = 64) ∧ t.errQueue = s.errQueue ++ [e] ∧ ErrorIs s e 5 0x01 1 (0x290 + n) 0)
    ∧ (c.inj = true → clockStopped s n = false → c.stretched = false → 3 ≤ c.limited → ∃ t a e, exec .droopLimit s = .next t
      ∧ (getCluster t n).forced = true ∧ (getCluster t n).limited = 0 ∧ t.errQueue = s.errQueue ++ [a, e] ∧ ErrorIs s e 5 0x02 2 (0x290 + n) 0
      ∧ (c.cur ≠ 0 → c.busy = false → (getCluster t n).busy = true ∧ (getCluster t n).target = 0) ∧ (c.busy = true → (getCluster t n).forceDue = true))
    ∧ (c.inj = false ∨ clockStopped s n = true → exec .droopLimit s = .next s)
    ∧ (clockStopped s n = false → ∃ t, exec .stretchWindowEnd s = .next t ∧ OnlyCluster s t n
      ∧ getCluster t n = let d := { c with stretched := false, limited := if c.stretched then c.limited else 0, clk := (getCluster t n).clk }
                         if c.droop = true ∧ c.inj = false ∧ used < 64 then closes d else d)

namespace Sys2Proof.Spec

/-- A sample comes of core `p` alone, and no other core is hot or frozen for heat. -/
structure OneSample (s : State) (p x : Nat) : Prop where
  input : p < 192 ∧ s.input.pairs = [(p, x)]
  others : ∀ r, r ≠ p → (getCore s r).temp ≤ 105 ∧ (getCore s r).thermFrozen = false
  listed : s.cores.Pairwise fun a b => a.1 < b.1

/-- Core `q` is a cool idle core for the hot core `p` (R233); one that is in a migration, down or fenced is none (log 57). -/
structure CoolIdle (s : State) (p q : Nat) : Prop where
  sample : q < 192 ∧ q ≠ p ∧ (getCore s q).temp ≤ 95
  cls : isClass1 s q = isClass1 s p ∨ isClass1 s q = false
  slots : let c := getCore s (stateCore s q)
    ∀ x, x = c.res ∨ c.sav = some x → ∀ e ∈ x.slots, e.2.st = .empty ∨ e.2.st = .starting
  engines : (getCore s (stateCore s q)).wide.mxq = [] ∧ (getCore s (stateCore s q)).hodq = []
  free : (∀ m ∈ s.migrations, m.1 ≠ q ∧ m.2 ≠ q) ∧ (getCluster s (q / 8)).powered = true ∧ (getCluster s (q / 8)).fenced = false

/-- Core `q` comes before core `r` for the hot core `p`: the own cluster first, then mesh distance, then the lower number (R233). -/
def ComesBefore (p q r : Nat) : Prop :=
  let far := fun (c : Nat) => if c / 8 = p / 8 then 0 else 1
  far q < far r ∨ (far q = far r ∧ (meshDist p q < meshDist p r ∨ (meshDist p q = meshDist p r ∧ q < r)))

end Sys2Proof.Spec

/-- R233, R482: a sample above 105 °C sends the core to the first cool idle core; where there is none, CODE 0x05 is written and a forced
change to L starts, and the core freezes with CAUSE 4 and CODE 0x06 after 100 samples at L or one above 115 °C, until a sample of
95 °C or less lets its slots resume with CODE 0x07. -/
def Sys2Proof.Spec.ThermalSamples : Prop :=
  ∀ (s : State) (p x : Nat), OneSample s p x →
    let c := getCore s p
    let cl := p / 8
    let alone := ∀ q, ¬ CoolIdle s p q
    let runs := fun (t : State) => exec .thermalSample s = .next t ∧ (getCore t p).temp = x
    (x ≤ 105 → c.thermFrozen = false → ∃ t, runs t ∧ t.migrations = s.migrations ∧ t.errQueue = s.errQueue)
    ∧ (105 < x → c.thermFrozen = false → (∀ m ∈ s.migrations, m.1 ≠ p) →
      (∀ q, CoolIdle s p q → (∀ r, CoolIdle s p r → r ≠ q → ComesBefore p q r) →
        ∃ t, runs t ∧ t.migrations = s.migrations ++ [(p, q)] ∧ t.errQueue = s.errQueue)
      ∧ (alone → c.hotAlone = false → ∃ t a b l, runs t ∧ t.migrations = s.migrations ∧ t.errQueue = s.errQueue ++ a :: b :: l
        ∧ ErrorIs s a 5 0x05 1 (0x290 + cl) 0 ∧ ErrorIs s b 5 0x02 2 (0x290 + cl) 0 ∧ (getCluster t cl).forced = true ∧ (getCluster t cl).thot = true
        ∧ ((getCluster s cl).cur ≠ 0 → (getCluster s cl).busy = false → (getCluster t cl).busy = true ∧ (getCluster t cl).target = 0))
      ∧ (alone → c.hotAlone = true → (getCluster s cl).cur = 0 → c.hotSamples < 99 → x ≤ 115 → ∃ t, runs t ∧ t.migrations = s.migrations
        ∧ t.errQueue = s.errQueue ∧ (getCore t p).hotSamples = c.hotSamples + 1 ∧ (getCore t p).thermFrozen = false)
      ∧ (alone → ((getCluster s cl).cur = 0 ∧ 99 ≤ c.hotSamples) ∨ 115 < x → ∃ t e, runs t ∧ (getCore t p).thermFrozen = true
        ∧ (getCluster t cl).tfrz = true ∧ e ∈ t.errQueue ∧ ErrorIs s e 5 0x06 2 (0x290 + cl) 0
        ∧ ∀ n < 16, (getSlot s p n).st = .active → (getSlot t p n).st = .frozen ∧ (getSlot t p n).cause = 4))
    ∧ (x ≤ 95 → c.thermFrozen = true → ∃ t e, runs t ∧ (getCore t p).thermFrozen = false ∧ e ∈ t.errQueue ∧ ErrorIs s e 5 0x07 0 (0x290 + cl) 0
      ∧ ∀ n < 16, (getSlot s p n).st = .frozen → (getSlot s p n).cause = 4 → (getSlot t p n).st = .active)

/-- R233 to R235, R239, R482: what a sample of a core brings about: a migration to the first cool idle core, or without one a forced
change and at last the thermal freeze; a hot core moves to a cool idle core of its cluster when both are ready, with the writes on their
way made, and a cool one stays; each meter takes the whole nanojoules of its job's activity and keeps the rest (log 57); ballast steps
keep a partition's MXE at full duty while its phase is Open. -/
def Obligations.HeatAndEnergy : Prop :=
  Sys2Proof.Spec.ThermalSamples ∧ ∀ s : State,
    (∀ p x, p < 192 → s.input.pairs = [(p, x)] → s.cores = [] → s.clusters = [] → s.migrations = [] → s.class1 = [] →
      (x ≤ 105 → ∃ t, exec .thermalSample s = .next t ∧ (getCore t p).temp = x ∧ t.migrations = [] ∧ t.errQueue = s.errQueue)
      ∧ (105 < x → ∃ t q, exec .thermalSample s = .next t ∧ (getCore t p).temp = x ∧ t.migrations = [(p, q)] ∧ t.errQueue = s.errQueue
        ∧ q ≠ p ∧ q / 8 = p / 8
        ∧ ∀ r, r / 8 = p / 8 → r ≠ p → meshDist p q < meshDist p r ∨ (meshDist p q = meshDist p r ∧ q ≤ r)))
    ∧ (∀ p q, s.migrations = [(p, q)] → p = s.input.n → p ≠ q → (getCluster s (p / 8)).busy = false → (getCluster s (q / 8)).busy = false →
      s.remaps = [] → tilesQuiet (getCore s p) = true → tilesQuiet (getCore s q) = true →
      (moveReady s p = true → moveReady s q = true → ∃ t, exec .thermalMigration s = .next t ∧ t.migrations = []
        ∧ SameContext (getCore t q).res (drainCtx (getCore s p).res) ∧ SameContext (getCore t p).res (drainCtx (getCore s q).res) ∧ (getCore t q).wide = (getCore s p).wide
        ∧ (getCore t p).wide = (getCore s q).wide ∧ (getCore t p).halted = false ∧ (getCore t q).halted = false
        ∧ (∀ n < 192, physOf t n = if physOf s n = p then q else if physOf s n = q then p else physOf s n)
        ∧ ((∀ n, (getSlot s p n).frame.v = false ∧ (getSlot s p n).frameUrg.v = false ∧ (getSlot s q n).frame.v = false
          ∧ (getSlot s q n).frameUrg.v = false) → t.mem = s.mem))
      ∧ (moveReady s p = false → ∃ t, exec .thermalMigration s = .next t ∧ t.migrations = s.migrations ∧ t.lpct = s.lpct
        ∧ ((getCore s p).pass = [] → (getCore t p).halted = true)))
    ∧ ((s.activity.map Prod.fst).Nodup → ∃ t, exec .energyUpdate s = .next t ∧ t.mem = s.mem ∧ t.cores = s.cores
      ∧ ∀ j, (mget t.meters j).getD 0 = (mget s.meters j).getD 0 + BitVec.ofNat 64 ((mget s.activity j).getD 0 / 1000000)
        ∧ (mget t.activity j).getD 0 = (mget s.activity j).getD 0 % 1000000)
    ∧ (let n := s.input.n
       let c := getCluster s n
       let b := c.bramp.toNat
       -- the fraction accumulator, which a new BRAMP keeps
       let kept := if c.ballastOf = b then c.ballast else c.ballast * b / max c.ballastOf 1
       let same := { c with ballast := kept, ballastOf := b }
       b ≠ 0 → clockStopped s n = false → c.powered = true → kept < 1000 * b →
       ((∃ j ∈ s.jobs, bits j.record 32 31 = 1 ∧ jobHolds s j n = true ∧ j.phase = .opened) →
         ∃ t, exec .ballastStep s = .next t ∧ getCluster t n = same
           ∧ (mget t.activity 0).getD 0 = (mget s.activity 0).getD 0 + scaledEnergy s n 20300000 ∧ t.cores = s.cores ∧ t.mem = s.mem)
       ∧ ((∀ j ∈ s.jobs, bits j.record 32 31 = 1 → jobHolds s j n = false) →
         ∃ t, exec .ballastStep s = .next t ∧ getCluster t n = same ∧ t.activity = s.activity ∧ t.cores = s.cores ∧ t.mem = s.mem))

namespace Sys2Proof.Spec

/-! ### Errors, retirement, containment, registers that clear on read (R38, R110, R150, R213, R229, R417 to R419, R426, R449 to R460, R475, R476) -/

/-- Only the named things of the module have changed: no core, memory, node, job or message. -/
def KeepsMachine (s t : State) : Prop :=
  t.cores = s.cores ∧ t.clusters = s.clusters ∧ t.mem = s.mem ∧ t.memPoison = s.memPoison ∧ t.nodes = s.nodes ∧ t.jobs = s.jobs ∧ t.net = s.net
    ∧ t.harts = s.harts ∧ t.durable = s.durable ∧ t.image = s.image ∧ t.lpct = s.lpct ∧ t.graphs = s.graphs ∧ t.mortars = s.mortars

/-- Only core `p` has changed, with perhaps an error record on its way. -/
def KeepsOtherCores (s t : State) (p : Nat) : Prop :=
  (∀ q, q ≠ p → getCore t q = getCore s q) ∧ t.mem = s.mem ∧ t.nodes = s.nodes ∧ t.net = s.net ∧ t.jobs = s.jobs

/-- The packet that a core-scope fault sends of slot `n`: its PC, the CODE, and no address (R420, R421). -/
structure CorePacket (b : BitVec 256) (s : State) (p n code : Nat) : Prop where
  time : bits b 255 192 = s.plumb % 2 ^ 64
  addr : bits b 191 128 = 0
  pc : bits b 127 80 = bits (getSlot s p n).pc 47 0
  code : bits b 47 40 = code
  core : bits b 31 24 = p
  slot : bits b 15 12 = n

/-- A notice merged into an open record (R110): its page's bit set, COUNT one more, saturating, its kinds added; the rest kept. -/
structure Merged (a b : BitVec 256) (va kinds : Nat) : Prop where
  bitmap : ∀ i < 64, b.getLsbD (192 + i) = (a.getLsbD (192 + i) || decide (i = va / 2 ^ 16 % 64))
  kind : ∀ i < 8, b.getLsbD (144 + i) = (a.getLsbD (144 + i) || kinds.testBit i)
  count : bits b 143 128 = min 0xFFFF (bits a 143 128 + 1)
  rest : bits b 191 152 = bits a 191 152 ∧ bits b 127 0 = bits a 127 0

/-- The record that a notice opens (R110). -/
structure Opened (s : State) (b : BitVec 256) (node job va kinds : Nat) : Prop where
  bitmap : bits b 255 192 = 2 ^ (va / 2 ^ 16 % 64)
  block : bits b 191 166 = va / 2 ^ 22 % 2 ^ 26
  job : bits b 165 159 = job
  kinds : bits b 158 144 = kinds % 256
  count : bits b 143 128 = 1
  first : bits b 127 64 = s.plumb % 2 ^ 64 ∧ bits b 47 0 = va % 2 ^ 48
  node : bits b 63 48 = node % 256

/-- A slot that is parked on the block becomes Active, any other stays (R111). -/
def wokenFor (job block : Nat) (sl : Slot) : Slot :=
  if sl.st = .parked ∧ sl.park = .translation ∧ sl.block = some (job, block) then { sl with st := .active, park := .none, block := none } else sl

/-- Clusters of the rectangle of CRECT (R475). -/
def inRect (w : Word) (c : Nat) : Prop :=
  c < 24 ∧ bits w 8 6 ≤ c / 4 ∧ c / 4 ≤ bits w 11 9 ∧ bits w 3 2 ≤ c % 4 ∧ c % 4 ≤ bits w 5 4

end Sys2Proof.Spec

/-- R418, R419, R429: the chip error arbiter takes the oldest record, of records detected at one time the one of the lower SRC, gives it the next
SEQ and writes it into the ring; MSI-X vector 32 + CLASS and messages to the record's supervisor and the management core follow; a record written to a full ring adds 1 to ELOST; EHOST counts while
the PCIe link is trained, and the link is not trained in a start whose step 7 failed or was skipped (R427). Reads of ELOST clear it. -/
def Sys2Proof.Spec.ErrorRing : Prop :=
  ∀ s : State,
    (s.errQueue = [] → exec .errorRecord s = .next s)
    ∧ (∀ (r h : BitVec 256) (pre post : List (BitVec 256)), s.errQueue = pre ++ r :: post → (pre ++ [r]).head? = some h →
      bits r 255 192 = bits h 255 192 →
      (∀ e ∈ pre, bits e 255 192 = bits h 255 192 → bits r 51 40 < bits e 51 40) →
      (∀ e ∈ post, bits e 255 192 = bits h 255 192 → bits r 51 40 ≤ bits e 51 40) → bits r 51 40 < 192 →
      let behind := (s.ewp - (if s.pcieUp = true ∧ s.ehost.toNat < s.emgt.toNat then s.ehost else s.emgt)).toNat
      ∃ t b, exec .errorRecord s = .next t ∧ KeepsMachine s t ∧ t.errQueue = pre ++ post ∧ t.ewp = s.ewp + 1
        ∧ t.errRing = (b :: s.errRing).take 131072
        ∧ bits b 127 96 = s.ewp.toNat ∧ bits b 255 128 = bits r 255 128 ∧ bits b 95 16 = bits r 95 16
        ∧ t.sent = s.sent ++ [.msix (32 + bits r 24 21), .note (if bits r 51 40 < 96 then 0 else 1) s.ewp.toNat, .note 2 s.ewp.toNat]
        ∧ (131072 ≤ behind → s.elost ≠ BitVec.allOnes 32 → t.elost = s.elost + 1) ∧ (behind < 131072 → t.elost = s.elost))
    ∧ (pcieAway s = false → exec .pcieLinkTrained s = .next { s with pcieUp := true })
    ∧ (pcieAway s = true → exec .pcieLinkTrained s = .next s) ∧ exec .pcieLinkDown s = .next { s with pcieUp := false }
    ∧ ∃ t v, exec .elostRead s = .next t ∧ t = { s with elost := 0, sent := s.sent ++ [.value v] } ∧ v.toNat = s.elost.toNat

/-- R426, R476: a store to the heartbeat word counts for its period; a period without one is a miss unless the count pauses; after two misses
in a row the core freezes with CAUSE 5 and a CLASS 1 record, CODE 0x22; a captured core without a DCMD for CAPTO ms fences the
cluster's rectangle if AUTO is set. -/
def Sys2Proof.Spec.Heartbeats : Prop :=
  ∀ (s : State) (p : Nat), p = s.input.n → p < 192 →
    let c := getCore s p
    let ended := s.hbper ≠ 0 ∧ c.beatFrom + 1000 * s.hbper.toNat ≤ s.plumb
    let paused := c.res.rtJob.isSome = true ∨ coreStopped c = true ∨ (getCluster s (p / 8)).busy = true ∨ (∃ m ∈ s.migrations, m.1 = p ∨ m.2 = p)
      ∨ c.thermFrozen = true ∨ c.captured = true
    let m := if c.beaten then 0 else if c.misses = 0 then 1 else 2
    exec .heartbeatWrite s = .next (setCore s p { c with beaten := true })
    ∧ (¬ ended → exec .heartbeatPeriodEnd s = .next s)
    ∧ (ended → c.misses ≤ 1 → c.beaten = true ∨ (¬ paused ∧ c.misses = 0) →
      exec .heartbeatPeriodEnd s = .next (setCore s p { c with beaten := false, beatFrom := s.plumb, misses := m }))
    ∧ (ended → c.misses ≤ 1 → c.beaten = false → paused → ∃ t, exec .heartbeatPeriodEnd s = .next t ∧ KeepsOtherCores s t p
      ∧ (getCore t p).misses = c.misses ∧ ∀ n, getSlot t p n = getSlot s p n)
    ∧ (ended → c.misses = 1 → c.beaten = false → ¬ paused → c.shadow = [] → (∀ n < 16, (getSlot s p n).st = .empty ∨ (getSlot s p n).st = .active
        ∨ (getSlot s p n).st = .frozen) → ∃ t e, exec .heartbeatPeriodEnd s = .next t ∧ KeepsOtherCores s t p
      ∧ t.errQueue = s.errQueue ++ [e] ∧ ErrorIs s e 1 0x22 2 0x320 0 ∧ (getCore t p).captured = true
      ∧ (∃ pk : Nat → BitVec 256, t.sent = s.sent ++ (List.range 16).map (fun n => Sent.packet (if p < 96 then 0 else 1) (pk n))
        ∧ ∀ n < 16, CorePacket (pk n) s p n 0x22)
      ∧ (∀ n < 16, (getSlot s p n).st = .active → (getSlot t p n).st = .frozen ∧ (getSlot t p n).cause = 5)
      ∧ (∀ n < 16, (getSlot s p n).st = .frozen → (getSlot t p n).cause = (getSlot s p n).cause))
    ∧ (c.captured = true → c.dcmdSeen = false → s.capto ≠ 0 → c.capturedAt + 1000000 * s.capto.toNat ≤ s.plumb →
      ∃ t, exec .captureTimeout s = .next t ∧ KeepsOtherCores s t p
        ∧ ((getCluster s (p / 8)).crect.getLsbD 16 = true → ∃ a, t.agenda = s.agenda ++ [.event .containFence a] ∧ bits a.v 62 58 = p / 8)
        ∧ ((getCluster s (p / 8)).crect.getLsbD 16 = false → t.agenda = s.agenda))
    ∧ (c.captured = false ∨ c.dcmdSeen = true ∨ s.capto = 0 ∨ s.plumb < c.capturedAt + 1000000 * s.capto.toNat → exec .captureTimeout s = .next s)

/-- R425, R449, R454, R455: each millisecond with corrections gives one SEV 0 record with their count. A word of an SRAM with one wrong bit is
corrected and counted; with more it is read again: a success is a SEV 1 record with RETRY, a second failure makes the word poison, data 0,
with a SEV 2 record. A burst of main memory is decoded by DMODE: what is corrected is written back and counted, what is not is
read again in the same way. A TLB entry that fails its parity check is dropped, with CODE 0x03 (log 86). What the scrub's input means is
log 87 (DESIGN CHOICE). -/
def Sys2Proof.Spec.ScrubbingAndCounts : Prop :=
  ∀ s : State,
    let e := bits s.input.v 7 0
    let r := bits s.input.v 15 8
    let job := if s.input.flag then bits s.input.v 22 16 else 0
    (∀ p, p = s.input.n → p < 192 → (getCore s p).corrected ≠ 0 → (getCore s p).corrected < 2 ^ 32 → ∃ t e, exec .eccCountReport s = .next t
      ∧ KeepsOtherCores s t p ∧ getCore t p = { getCore s p with corrected := 0 } ∧ t.errQueue = s.errQueue ++ [e] ∧ ErrorIs s e 2 0x03 0 p 0
      ∧ bits e 95 64 = (getCore s p).corrected)
    ∧ (∀ n, s.input.n = 0x100 + n → n < 32 → (getNode s n).corrected ≠ 0 → (getNode s n).corrected < 2 ^ 32 → (getNode s n).sramCorrected = 0 →
      ∃ t e, exec .eccCountReport s = .next t
      ∧ getNode t n = { getNode s n with corrected := 0 } ∧ t.cores = s.cores ∧ t.mem = s.mem ∧ t.errQueue = s.errQueue ++ [e]
      ∧ ErrorIs s e 2 0x05 0 (0x100 + n) 0 ∧ bits e 95 64 = (getNode s n).corrected)
    ∧ (∀ n, s.input.n = 0x100 + n → n < 32 → (getNode s n).corrected = 0 → (getNode s n).sramCorrected ≠ 0 → (getNode s n).sramCorrected < 2 ^ 32 →
      ∃ t e, exec .eccCountReport s = .next t
      ∧ getNode t n = { getNode s n with sramCorrected := 0 } ∧ t.cores = s.cores ∧ t.mem = s.mem ∧ t.errQueue = s.errQueue ++ [e]
      ∧ ErrorIs s e 2 0x03 0 (0x100 + n) 0 ∧ bits e 95 64 = (getNode s n).sramCorrected)
    ∧ (s.input.n = 0x260 → s.imageCorrected ≠ 0 → s.imageCorrected < 2 ^ 32 → ∃ t e, exec .eccCountReport s = .next t ∧ KeepsMachine s t
      ∧ t.imageCorrected = 0 ∧ t.errQueue = s.errQueue ++ [e] ∧ ErrorIs s e 2 0x03 0 0x260 0 ∧ bits e 95 64 = s.imageCorrected)
    ∧ (∀ p, p = s.input.n → p < 192 → (s.input.k < 2 ^ 25 → e = 0 → exec .patrolScrub s = .next s)
      ∧ (s.input.k < 0x20000 → s.input.k % 0x2000 < 0x1C00 →
        (e = 1 → exec .patrolScrub s = .next (setCore s p { getCore s p with corrected := (getCore s p).corrected + 1 }))
        ∧ (1 < e → r ≤ 1 → ∃ t x, exec .patrolScrub s = .next t ∧ KeepsMachine s t ∧ t.errQueue = s.errQueue ++ [x] ∧ ErrorIs s x 2 0x04 1 p job
          ∧ tbit x 18 = true)
        ∧ (1 < e → 1 < r → Memory.wf (getCore s p).res.ls → ∃ t x, exec .patrolScrub s = .next t ∧ KeepsOtherCores s t p
          ∧ t.errQueue = s.errQueue ++ [x] ∧ ErrorIs s x 2 0x04 2 p job ∧ tbit x 18 = true
          ∧ (∀ a, memByte (getCore t p).res.ls a = if a / 8 = s.input.k / 8 then 0 else memByte (getCore s p).res.ls a)
          ∧ ∀ k, (getCore t p).res.lsPoison.contains k = ((getCore s p).res.lsPoison.contains k || decide (k = s.input.k / 8))))
      ∧ (∀ i l, s.input.k = 2 ^ 25 + i → mget s.coreTlb p = some l → i < l.length → ∃ t x, exec .patrolScrub s = .next t
        ∧ mget t.coreTlb p = some (ldrop l i) ∧ t.cores = s.cores ∧ t.mem = s.mem ∧ t.nodes = s.nodes
        ∧ t.errQueue = s.errQueue ++ [x] ∧ ErrorIs s x 2 0x03 0 p 0))
    ∧ (∀ n, s.input.n = 0x100 + n → n < 32 → s.input.k < 2 ^ 40 → homeNode s.input.k = n → (getNode s n).retired = [] → (getNode s n).migration = none →
      s.memPoison.contains (s.input.k / 32) = false → Memory.wf s.mem →
      let u := s.input.k / 32
      let errs := s.input.pairs.filter fun x => decide (x.1 < 36)
      let again := (s.input.pairs.filter fun x => decide (36 ≤ x.1)).map fun x => (x.1 - 36, x.2)
      let seen := fun (l : List (Nat × Nat)) => decodeBurst s.memEcc (readBurst (burstOf (memBytes s.mem (32 * u) 32)) l)
      let holds := fun (t : State) (l : List Nat) => ∀ a, memByte t.mem a = if a / 32 = u then BitVec.ofNat 8 (l.getD (a % 32) 0) else memByte s.mem a
      let kept := fun (t : State) => t.cores = s.cores ∧ ∀ k, k ≠ u → t.memPoison.contains k = s.memPoison.contains k
      (errs = [] → ∃ t, exec .patrolScrub s = .next t ∧ KeepsMachine s t ∧ t.errQueue = s.errQueue)
      ∧ (∀ l c, errs ≠ [] → seen errs = .word l c → 0 < c → ∃ t, exec .patrolScrub s = .next t
        ∧ getNode t n = { getNode s n with corrected := (getNode s n).corrected + 1 } ∧ holds t l ∧ kept t
        ∧ t.memPoison.contains u = false ∧ t.errQueue = s.errQueue)
      ∧ (∀ l c, errs ≠ [] → seen errs = .uncorrectable → seen again = .word l c → ∃ t x, exec .patrolScrub s = .next t
        ∧ t.nodes = s.nodes ∧ holds t l ∧ kept t ∧ t.memPoison.contains u = false ∧ t.errQueue = s.errQueue ++ [x]
        ∧ ErrorIs s x 2 0x06 1 (0x100 + n) job ∧ tbit x 18 = true ∧ bits x 191 128 = u * 32)
      ∧ (errs ≠ [] → seen errs = .uncorrectable → seen again = .uncorrectable → ∃ t x, exec .patrolScrub s = .next t
        ∧ t.nodes = s.nodes ∧ holds t [] ∧ kept t ∧ t.memPoison.contains u = true ∧ t.errQueue = s.errQueue ++ [x]
        ∧ ErrorIs s x 2 0x06 2 (0x100 + n) job ∧ tbit x 18 = true ∧ bits x 191 128 = u * 32))

/-- R110, R111, R449, R450: a notice merges into the open record of its block, or opens one and tells the supervisors, or is refused and kept
when all 1,024 records are open, once with a CLASS 2 record, CODE 0x01; it is sent again; a wake closes the record and
wakes the slots parked on the block, and one for a block with no record is ignored. -/
def Sys2Proof.Spec.FaultCollector : Prop :=
  ∀ (s : State) (node job va kinds p n : Nat), job < 128 →
    let block := va / 2 ^ 22 % 2 ^ 26
    let at_ := fun (r : FaultRec) => bits r.bits 165 159 = job ∧ bits r.bits 191 166 = block
    (s.net[s.input.n]? = some (.notice node job va kinds p n) →
      (∀ (a b : List FaultRec) (r : FaultRec), s.faultRecs = a ++ r :: b → at_ r → (∀ x ∈ a ++ b, ¬ at_ x) →
        ∃ t m, exec .faultNotice s = .next t ∧ t.faultRecs = a ++ { index := r.index, bits := m } :: b ∧ Merged r.bits m va kinds
          ∧ t.net = ldrop s.net s.input.n ∧ t.cores = s.cores ∧ t.mem = s.mem ∧ t.sent = s.sent)
      ∧ ((∀ x ∈ s.faultRecs, ¬ at_ x) → (∃ i < 1024, ∀ x ∈ s.faultRecs, x.index ≠ i) →
        ∃ t i b, exec .faultNotice s = .next t ∧ i < 1024 ∧ (∀ x ∈ s.faultRecs, x.index ≠ i)
          ∧ t.faultRecs = s.faultRecs ++ [{ index := i, bits := b }] ∧ Opened s b node job va kinds
          ∧ t.sent = s.sent ++ [.note 0 (2 ^ 32 + i), .note 1 (2 ^ 32 + i)]
          ∧ t.net = ldrop s.net s.input.n ∧ t.cores = s.cores ∧ t.mem = s.mem)
      ∧ ((∀ x ∈ s.faultRecs, ¬ at_ x) → (∀ i < 1024, ∃ x ∈ s.faultRecs, x.index = i) →
        ∃ t, exec .faultNotice s = .next t ∧ t.faultRecs = s.faultRecs ∧ t.refusedNotices = s.refusedNotices ++ [.notice node job va kinds p n]
          ∧ t.net = ldrop s.net s.input.n ∧ t.cores = s.cores ∧ (s.collectorFull = true → t.errQueue = s.errQueue)
          ∧ (s.collectorFull = false → ∃ e, t.errQueue = s.errQueue ++ [e] ∧ ErrorIs s e 2 0x01 1 0x200 job)))
    ∧ (∀ m, s.refusedNotices[s.input.n]? = some m →
      exec .faultNoticeRetry s = .next { s with net := s.net ++ [m], refusedNotices := ldrop s.refusedNotices s.input.n })
    ∧ (bits s.input.v 38 32 = job → bits s.input.v 25 0 = block →
      ((∀ x ∈ s.faultRecs, ¬ at_ x) → exec .faultWake s = .next s)
      ∧ ((∃ x ∈ s.faultRecs, at_ x) → ∃ t, exec .faultWake s = .next t ∧ (∀ x, x ∈ t.faultRecs ↔ x ∈ s.faultRecs ∧ ¬ at_ x)
        ∧ (∀ q k, getSlot t q k = wokenFor job block (getSlot s q k)) ∧ t.mem = s.mem ∧ t.net = s.net ∧ t.jobs = s.jobs))

/-- R425, R459, R460: a retire command starts a migration or sets ERR; the copy moves the lines in order with their poison, and a source sector that it
cannot correct becomes poison; at its end arrivals are held, then the lines written meanwhile are copied again, the map entry is
set and CODE 0x07 is written; a release frees the entry whose SRC matches. That the lines of the destination block leave the slice too,
and that the end of the copy is two events, is log 88. -/
def Sys2Proof.Spec.Retirement : Prop :=
  ∀ (s : State) (n : Nat), n = s.input.n → n < 32 →
    let x := getNode s n
    let src := bits s.input.v 53 36
    let dst := bits s.input.v 35 18
    let line := fun (b k d : Nat) => b * 2 ^ 21 + k / 32 * 2 ^ 17 + n * 2 ^ 12 + k % 32 * 128 + d
    let refused := 16 ≤ x.retired.length ∨ x.migration.isSome = true ∨ src = dst
      ∨ ∃ e ∈ x.retired, src = e.1 ∨ src = e.2 ∨ dst = e.1 ∨ dst = e.2
    (refused → ∃ t, exec .retireBlock s = .next t ∧ getNode t n = { x with retErr := true } ∧ t.cores = s.cores ∧ t.mem = s.mem
      ∧ ∀ k, k ≠ n → getNode t k = getNode s k)
    ∧ (¬ refused → ∃ t, exec .retireBlock s = .next t
      ∧ (getNode t n).migration = some { src := src, dst := dst, copied := 0, dirty := [] } ∧ (getNode t n).restarts = 0
      ∧ (getNode t n).retired = x.retired ∧ t.cores = s.cores
      ∧ (∀ e ∈ (getNode t n).sets, ∀ l ∈ e.2, l.line * 128 / 2 ^ 21 % 2 ^ 18 ≠ src ∧ l.line * 128 / 2 ^ 21 % 2 ^ 18 ≠ dst)
      ∧ ((∀ e ∈ x.sets, ∀ l ∈ e.2, l.dirty = false) → t.mem = s.mem) ∧ ∀ k, k ≠ n → getNode t k = getNode s k)
    ∧ (∃ t, exec .retireRelease s = .next t ∧ getNode t n = { x with retired := x.retired.filter fun e => decide (e.1 ≠ src) } ∧ t.cores = s.cores
      ∧ t.mem = s.mem ∧ ∀ k, k ≠ n → getNode t k = getNode s k)
    ∧ (∀ m : Migration, x.migration = some m → m.src ≠ m.dst → Memory.wf s.mem →
      let copied := fun (t : State) (k : Nat) => (∀ d, d < 128 → memByte t.mem (line m.dst k d) = memByte s.mem (line m.src k d))
        ∧ ∀ i, i < 4 → t.memPoison.contains (line m.dst k (32 * i) / 32) = s.memPoison.contains (line m.src k (32 * i) / 32)
      (m.switching = false → s.input.pairs = [] → ∃ t, exec .retireCopyDone s = .next t
        ∧ getNode t n = { x with migration := some { m with copied := max m.copied (min 512 s.input.k), switching := decide (512 ≤ s.input.k) } }
        ∧ (∀ k, m.copied ≤ k → k < s.input.k → k < 512 → copied t k)
        ∧ (∀ a, (∀ k d, m.copied ≤ k → k < s.input.k → k < 512 → d < 128 → a ≠ line m.dst k d) → memByte t.mem a = memByte s.mem a)
        ∧ t.cores = s.cores ∧ t.errQueue = s.errQueue)
      ∧ (∀ k i, m.switching = false → k = m.copied → s.input.k = k + 1 → k < 511 → i < 4 → s.input.pairs = [(k, i)] →
        s.memPoison.contains (line m.src k (32 * i) / 32) = false → ∃ t e, exec .retireCopyDone s = .next t
        ∧ getNode t n = { x with migration := some { m with copied := k + 1 } }
        ∧ (∀ b, b = m.src ∨ b = m.dst → t.memPoison.contains (line b k (32 * i) / 32) = true
          ∧ ∀ d, d < 32 → memByte t.mem (line b k (32 * i + d)) = 0)
        ∧ t.cores = s.cores ∧ t.errQueue = s.errQueue ++ [e] ∧ ErrorIs s e 2 0x06 2 (0x100 + n) 0 ∧ tbit e 18 = true)
      ∧ (m.switching = true → (∀ e ∈ x.sets, ∀ l ∈ e.2, l.line * 128 / 2 ^ 21 % 2 ^ 18 ≠ m.dst) → ∃ t e, exec .retireCopyDone s = .next t
        ∧ getNode t n = { x with migration := none, retired := x.retired ++ [(m.src, m.dst)] }
        ∧ (∀ k, k ∈ m.dirty → k < 512 → copied t k)
        ∧ t.cores = s.cores ∧ t.errQueue = s.errQueue ++ [e] ∧ ErrorIs s e 2 0x07 0 (0x100 + n) 0))
    ∧ (x.migration = none → s.input.k < 512 → exec .retireCopyDone s = .next s)

/-- R132, R475, R476: fencing a rectangle fences its clusters, cancels every launch and card instance with a task, frame or engine job
inside (said where one core inside holds them all), discards its engine jobs and resets its cores, whatever jobs, graphs and launches there
are, and the last record written is of CLASS 4 with CODE 0x01. What its cores had sent is discarded, but for stores that their owner has
acknowledged and requests already held at a point outside (log 89: past the boundary); where no launch or card has anything inside, nothing
outside changes. Its return opens it with CODE 0x02. A line written to the devices is no longer dirty. -/
def Obligations.Containment : Prop :=
  ∀ (s : State) (i : Nat), i = bits s.input.v 62 58 → i < 24 →
    let w := (getCluster s i).crect
    let inside := fun (p : Nat) => inRect w (p / 8) ∧ (getCluster s (p / 8)).fenced = false
    let bare := fun (p : Nat) => launchesOn s p = [] ∧ graphsOn s p = []
    (∃ t l e, exec .containFence s = .next t ∧ t.errQueue = l ++ [e] ∧ ErrorIs t e 4 0x01 2 0x200 0
      ∧ (∀ c, inRect w c → (getCluster t c).fenced = true)
      ∧ (∀ p n, inside p → (getSlot t p n).st = .empty ∧ (∀ r, gCell (getSlot t p n) r = { val := 0, full := true, psn := false }
        ∧ (vCell (getSlot t p n) r).val = 0) ∧ (getCore t p).res.ls = [] ∧ (getCore t p).res.q = [] ∧ (getCore t p).wide.mxq = []
        ∧ (getCore t p).hodq = [] ∧ (getCore t p).sav = none ∧ (getCore t p).shadow = [] ∧ (getCore t p).ring = []))
    ∧ (∀ p, inside p → (∀ q, inside q → q ≠ p → bare q) → ∃ t, exec .containFence s = .next t
      ∧ (∀ l ∈ launchesOn s p, ∀ r, launchRec t l = some r → r.st ≠ .running)
      ∧ (∀ k ∈ graphsOn s p, ∀ g, findGraph t k = some g → g.st ≠ .running))
    ∧ ((∀ p, inside p → bare p) →
      ∃ t l e, exec .containFence s = .next t ∧ t.errQueue = s.errQueue ++ l ++ [e] ∧ ErrorIs s e 4 0x01 2 0x200 0
        ∧ (∀ x ∈ l, bits x 24 21 = 9 ∧ bits x 32 25 = 0x04)
        ∧ (∀ c, inRect w c → (getCluster s c).fenced = false → (getCluster t c).grant = none)
        ∧ (∀ c, c < 24 → ¬ inRect w c → (getCluster t c).fenced = (getCluster s c).fenced)
        ∧ (∀ lc r, Msg.req lc r ∈ s.net → r.tacked = true → Msg.req lc r ∈ t.net)
        ∧ (∀ lc r p n, Msg.req lc r ∈ t.net → r.src = .slot p n → inside p →
          r.tacked = true ∨ r.heldOp = true ∧ ¬ (lc < 192 ∧ inside (physOf s lc)))
        ∧ (∀ p n, p < 192 → ¬ inRect w (p / 8) → getSlot t p n = getSlot s p n ∨ (getSlot s p n).park = .join)
        ∧ t.jobs = s.jobs ∧ t.graphs = s.graphs ∧ t.mem = s.mem)
    ∧ ((∃ c, inRect w c ∧ (getCluster s c).fenced = true) → ∃ t e, exec .containReturn s = .next t ∧ t.errQueue = s.errQueue ++ [e]
      ∧ ErrorIs s e 4 0x02 0 0x200 0 ∧ (∀ c, inRect w c → getCluster t c = { getCluster s c with fenced := false })
      ∧ (∀ c, c < 24 → ¬ inRect w c → getCluster t c = getCluster s c) ∧ t.cores = s.cores ∧ t.mem = s.mem)
    ∧ ((∀ c, inRect w c → (getCluster s c).fenced = false) → exec .containReturn s = .next s)
    ∧ (∀ l, lineAt s (128 * s.input.k) = some l → homeNode (128 * s.input.k) = s.input.n → l.dirty = true →
      ∃ t, exec .deviceWritten s = .next t ∧ (∀ m, lineAt t (128 * s.input.k) = some m → m.dirty = false))

/-- R38, R150, R213, R226, R229, R479: a read of OVFL, OVCNT, DINJ, STRCNT or a counter of a gate returns it and sets it to 0. -/
def Sys2Proof.Spec.CountersClearOnRead : Prop :=
  ∀ s : State,
    let returns := fun (e : Instr) (v : Nat) (f : State → Prop) => ∃ t w, exec e s = .next t ∧ t.sent = s.sent ++ [.value w] ∧ w.toNat = v ∧ f t
      ∧ t.cores = s.cores ∧ t.mem = s.mem ∧ t.jobs = s.jobs ∧ t.net = s.net
    (∀ j, j = s.input.n → j < 128 → returns .ovflRead ((mget s.ovfl j).getD 0).toNat fun t =>
      ∀ i, (mget t.ovfl i).getD 0 = if i = j then 0 else (mget s.ovfl i).getD 0)
    ∧ (∀ j, j = s.input.n → j < 128 → ∃ t w, exec .ovcntRead s = .next t ∧ t.sent = s.sent ++ [.value w] ∧ bits w 23 0 = (getMortar s j).ovcnt.toNat
      ∧ t.cores = s.cores ∧ t.mem = s.mem
      ∧ ∀ i, getMortar t i = if i = j then { getMortar s i with ovcnt := 0 } else getMortar s i)
    ∧ (∀ n, n = s.input.n → n < 24 → (∃ t w, exec .dinjRead s = .next t ∧ t.sent = s.sent ++ [.value w] ∧ bits w 23 16 = (getCluster s n).dinj.toNat
        ∧ bits w 5 4 = (getCluster s n).cur.toNat ∧ bits w 1 0 = (getCluster s n).req.toNat ∧ bits w 39 32 = (getCluster s n).bramp.toNat
        ∧ ∀ i, i < 24 → getCluster t i = if i = n then { getCluster s i with dinj := 0 } else getCluster s i)
      ∧ (∃ t w, exec .strcntRead s = .next t ∧ t.sent = s.sent ++ [.value w] ∧ t.cores = s.cores
        ∧ ∀ i, i < 24 → getCluster t i = if i = n then { getCluster s i with strcnt := 0 } else getCluster s i))
    ∧ (∀ g k, g = s.input.n → g < 64 → k = s.input.k →
      let x := getGate s g
      (k = 0 → returns .gateCounterRead x.dup.toNat fun t => getGate t g = { x with dup := 0 })
      ∧ (k = 1 → returns .gateCounterRead x.ovsz.toNat fun t => getGate t g = { x with ovsz := 0 })
      ∧ (k = 2 → returns .gateCounterRead x.policed.toNat fun t => getGate t g = { x with policed := 0 })
      ∧ (k = 3 → returns .gateCounterRead x.accepted.toNat fun t => getGate t g = { x with accepted := 0 })
      ∧ (k = 4 → returns .gateCounterRead x.late.toNat fun t => getGate t g = { x with late := 0 })
      ∧ (k = 5 → returns .gateCounterRead x.nojob.toNat fun t => getGate t g = { x with nojob := 0 }))

namespace Sys2Proof.Spec

/-! ### The debug window and checked pairs (R403 to R410, R422, R423, R469 to R471) -/

/-- Only core `p` has changed, and of it no slot but `n`. -/
def KeepsOtherSlots (s t : State) (p n : Nat) : Prop :=
  KeepsOtherCores s t p ∧ (∀ k, k ≠ n → getSlot t p k = getSlot s p k) ∧ (getCore t p).res.ls = (getCore s p).res.ls

/-- What a resumed slot is (R48, R409): Active with CAUSE 0, its registers and PC as they were. -/
def resumed (sl : Slot) : Slot :=
  { sl with st := .active, cause := 0, wdrn := false, park := .none, pend := none, heldOp := false }

/-- Core clocks from the hit or the write of STOPC to the stop, at points H, N and L (R407). -/
def stopAfter (s : State) (q : Nat) : Nat :=
  if (getCluster s (q / 8)).cur = 0 then 12 else if (getCluster s (q / 8)).cur = 1 then 16 else 20

/-- The three conditions on which a pair may be coupled (R469). -/
structure MayBeCoupled (s : State) (m j : Nat) : Prop where
  unnamed : ∀ n < 192, lpctV s n = true → physOf s n ≠ 2 * m + 1
  empty : allEmpty (getCore s (2 * m + 1)) = true
  job : pairJob s (2 * m) = some j
  records : mortarMode s j = 1

end Sys2Proof.Spec

/-- R403, R404, R406, R407, R408, R422: a write of WATCH with ACT 3 or a reserved bit is ignored, one with V set clears WHIT; STOPC.STOP sends the stop, one
at a time, which comes at the core clock that the cluster's point fixes and freezes the core's slots with CAUSE 2 and their PCs held; a write of LOCK, whose reserved bits stay 0, wakes what the old region held, in arrival order; the
window writes the local store, the common registers and, while the slot is Frozen, its registers, and nothing else. That a stop
command while a stop is on its way does nothing is log 82, and that a write of LOCK with V = 1 lets what was held look again is log 99: R422 says it of clearing V. -/
def Sys2Proof.Spec.DebugWindow : Prop :=
  ∀ (s : State) (p : Nat), p = s.input.n → p < 192 →
    let c := getCore s p
    let v := s.input.v
    (bits v 57 56 = 3 ∨ bits v 39 14 ≠ 0 → exec .watchWrite s = .next s)
    ∧ (bits v 57 56 ≠ 3 → bits v 39 14 = 0 →
      exec .watchWrite s = .next (setCore s p { c with watch := v, whit := if v.getLsbD 63 then 0 else c.whit }))
    ∧ (s.input.flag = false → c.stopping.isSome = true → exec .debugStop s = .next s)
    ∧ (s.input.flag = false → c.stopping = none → ∃ t, exec .debugStop s = .next t ∧ t.net = s.net ++ [.watchStop p c.stopSrc.toNat] ∧ (getCore t p).stopping.isSome = true
      ∧ (∀ n, (getSlot t p n).skid = 0) ∧ (∀ q, q ≠ p → getCore t q = getCore s q) ∧ t.mem = s.mem)
    ∧ (∀ q src h k n u d, s.net[p]? = some (.watchStop q src) → (getCore s q).stopping = some (h, k) → mayIssue s q = true →
      nextIssue (getCore (settle s q (getCore s q).cc) q) = some (n, u, d) → u < h + stopAfter s q → exec .watchStopArrive s = .next s)
    ∧ (∀ q src, s.net[p]? = some (.watchStop q src) → clockStands s q = true → exec .watchStopArrive s = .next s)
    ∧ (∀ q src h k, q < 192 → src < 192 → s.net[p]? = some (.watchStop q src) → (getCore s q).stopping = some (h, k) → clockStands s q = false →
      (mayIssue s q = true → ∀ n u d, nextIssue (getCore (settle s q (getCore s q).cc) q) = some (n, u, d) → h + stopAfter s q ≤ u) →
      (∀ n < 16, (getSlot s q n).st = .empty ∨ (getSlot s q n).st = .active ∨ (getSlot s q n).st = .frozen) →
      ∃ t, exec .watchStopArrive s = .next t ∧ t.net = ldrop s.net p ∧ (∀ k, k ≠ q → getCore t k = getCore s k) ∧ t.mem = s.mem
        ∧ (getCore t q).stopping = none ∧ (getCore t q).stopSrc.toNat = src ∧ (getCore t q).cc = max (getCore s q).cc (h + stopAfter s q)
        ∧ (∀ n < 16, (getSlot s q n).st = .active → (getSlot t q n).st = .frozen ∧ (getSlot t q n).cause = 2 ∧ (getSlot t q n).was = 0
          ∧ (getSlot t q n).dpc = (getSlot s q n).pc.setWidth 48 ∧ (getSlot t q n).pc = (getSlot s q n).pc)
        ∧ (∀ n < 16, (getSlot s q n).st = .empty → (getSlot t q n).st = .empty ∧ (getSlot t q n).was = 3)
        ∧ (∀ n < 16, (getSlot s q n).st = .frozen → (getSlot t q n).cause = (getSlot s q n).cause))
    ∧ (∃ t, exec .debugLockWrite s = .next t ∧ (getCore t p).lock = BitVec.ofNat 64 (bits v 63 63 * 2 ^ 63 + bits v 31 0)
      ∧ (getCore t p).lockHeld = []
      ∧ t.net = (c.lockHeld.map fun r => Msg.req c.lcore r) ++ s.net
      ∧ (∀ n, (getSlot s p n).park ≠ .lock → getSlot t p n = getSlot s p n)
      ∧ (∀ n, (getSlot s p n).park = .lock → (getSlot s p n).st = .parked → getSlot t p n = { getSlot s p n with st := .active, park := .none })
      ∧ (∀ q, q ≠ p → getCore t q = getCore s q) ∧ t.mem = s.mem)
    ∧ (∀ o, s.input.k = 8 * o → 8 * o < 0x20000 → 8 * o % 0x2000 + 8 ≤ 0x1C00 → c.waits = [] → Memory.wf c.res.ls →
      ∃ t, exec .debugWindowWrite s = .next t ∧ KeepsOtherCores s t p ∧ (∀ n, getSlot t p n = getSlot s p n)
        ∧ ∀ a, memByte (getCore t p).res.ls a = if 8 * o ≤ a ∧ a < 8 * o + 8 then (natBytes 8 v.toNat).getD (a - 8 * o) 0 else memByte c.res.ls a)
    ∧ (∀ n r, n < 16 → 0 < r → r < 32 → s.input.k = 0x28000 + 0x800 * n + 8 * r →
      ((getSlot s p n).st ≠ .frozen → exec .debugWindowWrite s = .next s)
      ∧ ((getSlot s p n).st = .frozen → ∃ t, exec .debugWindowWrite s = .next t ∧ KeepsOtherSlots s t p n
        ∧ getSlot t p n = setGCell (getSlot s p n) r { gCell (getSlot s p n) r with val := v }))
    ∧ (∀ k, k < 16 → s.input.k = 0x3E000 + 8 * k → ∃ t, exec .debugWindowWrite s = .next t ∧ KeepsOtherCores s t p
      ∧ (∀ n, getSlot t p n = getSlot s p n) ∧ ∀ i, (mget (getCore t p).res.c i).getD 0 = if i = k then v else (mget c.res.c i).getD 0)
    ∧ (∀ o, 0x3E100 ≤ o → o < 0x3E580 → s.input.k = o → exec .debugWindowWrite s = .next s)

/-- R38, R408, R409, R423: GO resumes every slot with CAUSE 2 or 3; DCMD 1 resumes one, 2 steps it, 3 resumes a slot with CAUSE 1, 4 or 5 and 4 kills
its task: the slot becomes Empty and the launch counter drops by 1. For any other CAUSE, and for a slot that is not Frozen, the
command is ignored. -/
def Sys2Proof.Spec.DebugCommands : Prop :=
  ∀ (s : State) (p n : Nat), p = s.input.n → n = s.input.k → p < 192 → n < 16 → s.mortars = [] → (getCore s p).coreFault = false →
    let sl := getSlot s p n
    (s.input.flag = false → ∃ t, exec .debugGo s = .next t ∧ KeepsOtherCores s t p
      ∧ (∀ k < 16, (getSlot s p k).st = .frozen → (getSlot s p k).cause = 2 ∨ (getSlot s p k).cause = 3 → getSlot t p k = resumed (getSlot s p k))
      ∧ (∀ k, (getSlot s p k).cause ≠ 2 → (getSlot s p k).cause ≠ 3 → (getSlot s p k).stopNext ≠ 2 → (getSlot s p k).stopNext ≠ 3 →
        getSlot t p k = getSlot s p k))
    ∧ (sl.st = .frozen → sl.cause = 2 ∨ sl.cause = 3 →
      (∃ t, exec .debugResume s = .next t ∧ KeepsOtherSlots s t p n ∧ getSlot t p n = resumed sl)
      ∧ (∃ t, exec .debugStep s = .next t ∧ KeepsOtherSlots s t p n
        ∧ getSlot t p n = { sl with st := .active, cause := 0, stepping := true, wdrn := false, park := .none, pend := none }))
    ∧ (sl.st ≠ .frozen ∨ sl.cause ≠ 2 ∧ sl.cause ≠ 3 → (∃ t, exec .debugResume s = .next t ∧ KeepsOtherSlots s t p n ∧ getSlot t p n = sl)
      ∧ (∃ t, exec .debugStep s = .next t ∧ KeepsOtherSlots s t p n ∧ getSlot t p n = sl))
    ∧ (sl.st = .frozen → sl.cause = 1 ∨ sl.cause = 4 ∨ sl.cause = 5 →
      ∃ t, exec .faultResume s = .next t ∧ KeepsOtherSlots s t p n ∧ getSlot t p n = resumed sl)
    ∧ (sl.st ≠ .frozen ∨ sl.cause ≠ 1 ∧ sl.cause ≠ 4 ∧ sl.cause ≠ 5 → ∃ t, exec .faultResume s = .next t ∧ KeepsOtherSlots s t p n ∧ getSlot t p n = sl)
    ∧ ((getCore s p).killed = 0 →
      (sl.st ≠ .frozen ∨ sl.cause = 0 ∨ 5 < sl.cause.toNat → ∃ t, exec .killTask s = .next t ∧ KeepsOtherSlots s t p n ∧ getSlot t p n = sl
        ∧ (getCore t p).killed = 0)
      ∧ (∀ (l : Nat) (r : Launch), sl.st = .frozen → 1 ≤ sl.cause.toNat → sl.cause.toNat ≤ 5 → slotLaunch sl = some l → launchRec s l = some r →
        r.st = .running → 1 < r.count →
        ∃ t, exec .killTask s = .next t ∧ (getSlot t p n).st = .empty ∧ (getSlot t p n).jobId = 0
          ∧ launchRec t l = some { r with count := r.count - 1 }
          ∧ (getCore t p).res.ls = (getCore s p).res.ls ∧ (∀ k, k ≠ n → getSlot t p k = getSlot s p k) ∧ t.mem = s.mem))

/-- R469, R470, R471: a write of EN = 1 couples the pair on three conditions, at the lead's rotation boundary; a write of EN = 0 ends coupling
there and leaves the shadow Empty. Fingerprints that agree mark the slot, and where a rollback has passed the exchange that failed DISAG
rises with a SEV 1 record; a disagreement waits for the lead's rotation boundary; a second one at the same RSN is lasting: both
cores freeze with CAUSE 4, STATE becomes 3 and the record has SEV 2. -/
def Obligations.PairedCores : Prop :=
  ∀ (s : State) (m : Nat), m = s.input.n → m < 96 →
    let q := getPair s m
    let lead := getCore s (2 * m)
    (s.input.flag = false → s.invBusy = false → s.attBusy = false → s.arbWait = [] → q.state = 0 → lead.pass ≠ [] → lead.halted = false →
      (∀ j, MayBeCoupled s m j → ∃ t, exec .pairchkCouple s = .next t ∧ getPair t m = { q with en := true, state := 1 }
        ∧ t.arbSeq = s.arbSeq + 1 ∧ t.cores = s.cores)
      ∧ ((∀ j, ¬ MayBeCoupled s m j) → ∃ t, exec .pairchkCouple s = .next t ∧ getPair t m = q ∧ t.cores = s.cores))
    ∧ (s.input.flag = true → q.state = 1 → tilesQuiet lead = true →
      (lead.halted = true → answersDue s (2 * m) = false → lead.shadow = [] → ∃ t, exec .pairchkCouple s = .next t
        ∧ (getPair t m).state = 2 ∧ (getPair t m).en = q.en ∧ (getPair t m).retry = [] ∧ (getCore t (2 * m)).halted = false
        ∧ (∀ n, (getSlot t (2 * m) n).st = (getSlot s (2 * m) n).st ∧ (mget (getCore s (2 * m)).res.slots n ≠ none → (getSlot t (2 * m) n).finger = 0))
        ∧ (∀ k, k ≠ 2 * m → getCore t k = getCore s k))
      ∧ (lead.halted = false → lead.pass = [] → ∃ t, exec .pairchkCouple s = .next t ∧ (getCore t (2 * m)).halted = true ∧ getPair t m = q)
      ∧ (lead.halted = false → lead.pass ≠ [] → exec .pairchkCouple s = .next s))
    ∧ (s.input.flag = true → q.en = false → q.state = 2 →
      (lead.pass = [] → ∃ t, exec .pairchkDecouple s = .next t ∧ getPair t m = { disag := q.disag } ∧ (∀ n, (getSlot t (2 * m + 1) n).st = .empty)
        ∧ (∀ k, k ≠ 2 * m → k ≠ 2 * m + 1 → getCore t k = getCore s k) ∧ t.mem = s.mem)
      ∧ (lead.pass ≠ [] → ∃ t, exec .pairchkDecouple s = .next t ∧ getPair t m = q ∧ t.cores = s.cores))
    ∧ (∀ n, n = s.input.k → n < 16 →
      (q.state ≠ 2 → exec .fingerprintExchange s = .next s)
      ∧ (q.state = 2 → q.failed = none → s.input.flag = false → (getSlot s (2 * m) n).exchanging = true → q.retry = [] →
        ∃ t, exec .fingerprintExchange s = .next t ∧ (getSlot t (2 * m) n).exchanging = false ∧ (getSlot t (2 * m) n).finger = 0
          ∧ (∃ e, (getCore t (2 * m)).shadow = lead.shadow ++ [e] ∧ bits e 195 192 = 13 ∧ bits e 199 196 = n
            ∧ bits e 127 64 = (slotRsn s (2 * m) n).toNat * 2 ^ 32 + bits (getSlot s (2 * m) n).finger 31 0)
          ∧ mget (getPair t m).noted n = some (mortarNext s (getSlot s (2 * m) n).jobId.toNat)
          ∧ (getPair t m).state = 2 ∧ (∀ k, k ≠ 2 * m → getCore t k = getCore s k) ∧ t.mem = s.mem)
      ∧ (∀ r : BitVec 32, q.state = 2 → q.failed = none → s.input.flag = false → (getSlot s (2 * m) n).exchanging = true → q.retry.find? (fun e => e.1 = n) = some (n, r) →
        r.toNat ≤ (slotRsn s (2 * m) n).toNat → q.disag ≠ BitVec.allOnes 16 →
        ∃ t e, exec .fingerprintExchange s = .next t ∧ (getPair t m).retry = q.retry.filter (fun e => e.1 ≠ n) ∧ (getPair t m).disag = q.disag + 1 ∧ (getPair t m).state = 2
          ∧ t.errQueue = s.errQueue ++ [e] ∧ ErrorIs s e 3 0x03 1 0x200 (getSlot s (2 * m) n).jobId.toNat ∧ tbit e 18 = true)
      ∧ (q.state = 2 → q.failed = none → s.input.flag = true → lead.pass ≠ [] → ∃ t, exec .fingerprintExchange s = .next t
        ∧ getPair t m = { q with failed := some n } ∧ t.cores = s.cores ∧ t.mem = s.mem)
      ∧ (∀ d, q.state = 2 → (q.failed = some d ∨ q.failed = none ∧ s.input.flag = true ∧ d = n) → lead.pass = [] →
        (d, slotRsn s (2 * m) d) ∈ q.retry → (∀ k < 16, (getSlot s (2 * m) k).st = .empty ∨ (getSlot s (2 * m) k).st = .active) →
        ∃ t e, exec .fingerprintExchange s = .next t ∧ (getPair t m).state = 3 ∧ t.errQueue = s.errQueue ++ [e]
          ∧ ErrorIs s e 3 0x03 2 0x200 (getSlot s (2 * m) d).jobId.toNat
          ∧ ∀ k < 16, (getSlot s (2 * m) k).st = .active → (getSlot t (2 * m) k).st = .frozen ∧ (getSlot t (2 * m) k).cause = 4
            ∧ (getSlot t (2 * m + 1) k).st = .frozen ∧ (getSlot t (2 * m + 1) k).cause = 4))

/-- An image is accepted (R227): its key hashes to a fused hash that is not revoked, its version is at least the minimum, and its signature
over its SHA-256 verifies (log 18 says how these are read). -/
structure Sys2Proof.Spec.Accepted (s : State) (x y r g version : Nat) (image : List Byte) : Prop where
  key : ∃ i < 4, s.keyHashes[i]? = some (sha256 (beBytes 32 x ++ beBytes 32 y)) ∧ s.keyRevoked.getLsbD i = false
  version : s.imageMin.toNat ≤ version
  signed : ecdsaVerifies x y (sha256 image).toNat r g = true

/-- R138, R227, R418, R427, R428, R486: a module reset leaves the error ring, the boot journal and the durable region, and everything else at its reset
value but what a failed boot step or its alternative changes (the fuses, the error ring's pointers and the blocks that hold a CLASS 1 fault
stand too, and what the model keeps of its own: its input, what it has sent, and the counter of its free values); a module whose step 1 fails stays in reset, with its journal entry and its
CLASS 8 record; the management image is not run where it is not accepted, and the scan cores hold their accepted image. A loss of power
loses every context and main memory, keeps the durable region, and leads to a start. Which other steps fail, and the images, come
with the event (logs 18 and 35). -/
def Sys2Proof.Spec.ModuleResets : Prop :=
  ∀ s : State, s.errQueue = [] →
    let fresh := fun (k : Nat) => ∀ e ∈ s.bootJournal, bits e 127 96 + 1 ≠ (s.starts + 1).toNat ∨ bits e 95 88 ≠ k ∨ bits e 87 80 ≠ 1
    let base : State := { State.reset with
      durable := s.durable, durablePoison := s.durablePoison, errRing := s.errRing, ewp := s.ewp, ehost := s.ehost, emgt := s.emgt
      elost := s.elost, bootJournal := s.bootJournal, class1 := s.class1, devId := s.devId, keyRevoked := s.keyRevoked
      keyHashes := s.keyHashes, imageMin := s.imageMin, sent := s.sent, draws := s.draws, input := s.input }
    let kept := fun (t : State) => t = { base with
      starts := s.starts + 1, bootJournal := t.bootJournal, errQueue := t.errQueue, bootFailed := t.bootFailed, mgmtOff := t.mgmtOff
      imagesOff := t.imagesOff, imageDigests := t.imageDigests, harts := t.harts }
    (s.input.bytes.getD 1 0 = 1 → ∃ t e j, exec .moduleReset s = .next t ∧ kept t ∧ t.bootFailed = true ∧ t.mgmtOff = false ∧ t.imagesOff = false ∧ t.imageDigests = []
      ∧ t.harts = [] ∧ t.errQueue = [e] ∧ ErrorIs t e 8 1 3 0x310 0
      ∧ t.bootJournal = (j :: s.bootJournal).take 65536 ∧ bits j 127 96 = t.starts.toNat ∧ bits j 95 88 = 1 ∧ bits j 87 80 = 1)
    ∧ (∀ x y r g v z x' y' r' g' v' z', s.input.pairs = [(x, y), (r, g), (v, z), (x', y'), (r', g'), (v', z')] → s.input.bytes = [] →
      s.input.flag = false → (∀ k, fresh k) →
      Spec.Accepted s x y r g (v % 2 ^ 32) (natBytes (v / 2 ^ 32) z) → Spec.Accepted s x' y' r' g' (v' % 2 ^ 32) (natBytes (v' / 2 ^ 32) z') →
      ∃ t, exec .moduleReset s = .next t ∧ kept t ∧ t.errQueue = [] ∧ t.bootFailed = false ∧ t.mgmtOff = false ∧ t.imagesOff = false
        ∧ t.imageDigests = [sha256 (natBytes (v / 2 ^ 32) z), sha256 (natBytes (v' / 2 ^ 32) z')]
        ∧ (∀ h < 8, ∀ a, memByte (getHart t h).mem a = ((natBytes (v' / 2 ^ 32) z').take 0x60000).getD a 0)
        ∧ ∃ l, t.bootJournal = (l ++ s.bootJournal).take 65536 ∧ l.length = 8
          ∧ ∀ e ∈ l, bits e 127 96 = t.starts.toNat ∧ bits e 87 80 = 0 ∧ 1 ≤ bits e 95 88 ∧ bits e 95 88 ≤ 8)
    ∧ (∀ x y r g v z l, s.input.pairs = (x, y) :: (r, g) :: (v, z) :: l → s.input.bytes.getD 1 0 ≠ 1 → (∀ k, fresh k) →
      ¬ Spec.Accepted s x y r g (v % 2 ^ 32) (natBytes (v / 2 ^ 32) z) →
      ∃ t, exec .moduleReset s = .next t ∧ kept t ∧ t.bootFailed = false ∧ t.mgmtOff = true ∧ (∃ e ∈ t.errQueue, ErrorIs t e 8 2 2 0x310 0)
        ∧ ∃ j ∈ t.bootJournal, bits j 127 96 = t.starts.toNat ∧ bits j 95 88 = 2 ∧ bits j 87 80 = 1)
    ∧ (s.input.n = 0 → ∃ a, exec .modulePowerLoss s = .next { base with starts := s.starts, agenda := [.event .moduleReset a] } ∧ a.flag = true)

/-- R134, R145, R147, R483, R484: a cluster's loss of power makes the entries of the shadow queues durable (said where the ring has room for
them), stops its cores and lets what waited issue again; its resume, where no journal is damaged, cuts each ring after its last whole
instruction (`b`; CODE 0x02 with the count where any is cut, none of them the effect of another agent), gives each core its base image with
the whole instructions (`a`) folded in, so each slot its registers, state and PC of that image, a frozen slot staying frozen, its buffers 0,
and writes CODE 0x01. The clause on the resume takes cores on which no SEQ loop was captured: the words of one are read again. -/
def Sys2Proof.Spec.ClusterPower : Prop :=
  ∀ (s : State) (n : Nat), n = s.input.n → n < 24 →
    let c := getCluster s n
    (c.powered = false → exec .clusterPowerLoss s = .next s)
    ∧ (c.powered = true →
      ∃ t, exec .clusterPowerLoss s = .next t ∧ (getCluster t n).clk.runs = false
        ∧ getCluster t n = { c with powered := false, grant := none, busy := false, droop := false, inj := false, clk := (getCluster t n).clk }
        ∧ (∀ k, k ≠ n → getCluster t k = getCluster s k)
        ∧ (∀ p, p / 8 = n → p < 192 → (getCore t p).halted = true ∧ (getCore t p).res.ls = (getCore s p).res.ls
          ∧ ((getCore s p).ring.length + (getCore s p).shadow.length ≤ 16384 → (getCore t p).shadow = []
            ∧ ∃ l, (getCore t p).ring = (getCore s p).ring ++ l ∧ l.map (fun e => bits e 231 0) = (getCore s p).shadow.map fun e => bits e 231 0)
          ∧ ∀ k, mget (getCore s p).res.slots k ≠ none →
            let o := getSlot s p k
            (o.st = .parked → o.park ≠ .idle → (getSlot t p k).st = .active)
            ∧ (o.st = .waiting → (getSlot t p k).st = .active ∧ (getSlot t p k).pend = none)
            ∧ (o.st ≠ .waiting → (o.st = .parked → o.park = .idle) →
              (getSlot t p k).st = o.st ∧ settled (getSlot t p k) = settled o))
        ∧ t.mem = s.mem ∧ t.durable = s.durable)
    ∧ (c.powered = true → exec .clusterResume s = .next s)
    ∧ (∀ a b : Nat → List (BitVec 256), c.powered = false → s.input.pairs = [] →
      let folded := fun (p : Nat) => foldRing { getCore s p with ring := a p } (a p).length
      (∀ p, p / 8 = n → (getCore s p).ring = a p ++ b p ∧ (∀ e, (a p).getLast? = some e → e.getLsbD 191 = true)
        ∧ (∀ e ∈ b p, e.getLsbD 191 = false ∧ (e.getLsbD 187 = true → bits e 195 192 = 12 ∨ bits e 195 192 = 7))
        ∧ ∀ k < 16, let sl := if (getSlot s p k).st = .starting then getSlot s p k else ctxSlot (folded p).baseRes k
          sl.frame.v = false ∧ sl.frameUrg.v = false) →
      ∃ t l e, exec .clusterResume s = .next t ∧ (getCluster t n).powered = true ∧ (getCluster t n).clk.runs = true
        ∧ (c.droop = false → getCluster t n = { c with powered := true, grant := none, clk := (getCluster t n).clk })
        ∧ t.errQueue = s.errQueue ++ l ++ [e] ∧ ErrorIs s e 6 0x01 1 0x300 0 ∧ bits e 95 64 = n
        ∧ (∀ x ∈ l, ErrorIs s x 6 0x02 1 0x300 0) ∧ ((∀ p, p / 8 = n → b p = []) → l = [])
        ∧ (∀ p, p / 8 = n → b p ≠ [] → ∃ x ∈ l, bits x 95 64 = (b p).length % 2 ^ 32)
        ∧ t.mem = s.mem
        ∧ ∀ p, p / 8 = n → p < 192 → (getCore t p).halted = false ∧ (getCore t p).cc = 0 ∧ (getCore t p).wb = [] ∧ (getCore t p).ab = []
          ∧ (getCore t p).shadow = [] ∧ (getCore t p).ring = [] ∧ (getCore t p).baseRes = (folded p).baseRes
          ∧ (getCore t p).wide.rsn = (folded p).baseWide.rsn ∧ (getCore t p).res.ls = (folded p).baseRes.ls
          ∧ (∀ i, getQ (getCore t p).res i = getQ (folded p).baseRes i)
          ∧ ∀ k < 16, (getSlot s p k).st ≠ .starting →
            let f := ctxSlot (folded p).baseRes k
            (∀ r, gCell (getSlot t p k) r = gCell f r ∧ vCell (getSlot t p k) r = vCell f r) ∧ (getSlot t p k).pc = f.pc
            ∧ (getSlot t p k).taskId = f.taskId ∧ (getSlot t p k).jobId = f.jobId
            ∧ (f.st = .empty ∨ f.st = .parked → (getSlot t p k).st = f.st ∧ (getSlot t p k).park = f.park)
            ∧ (f.st ≠ .empty → f.st ≠ .parked →
              (getSlot t p k).st = if (getSlot s p k).st = .frozen ∨ (getSlot s p k).stopNext ≠ 0 then .frozen else .active))

/-- R139, R141, R143, R145: the oldest entry of the shadow queue enters the ring with its LAP while the ring has room; compaction folds the oldest whole
instruction of the ring into the base image, and changes nothing that a program can see. -/
def Obligations.Journal : Prop :=
  ∀ (s : State) (p : Nat), p = s.input.n →
    let c := getCore s p
    (∀ e r, c.shadow = e :: r → c.ring.length < 16384 → ∃ x, bits x 231 0 = bits e 231 0 ∧ bits x 239 232 = c.ringPos / 16384 % 256
      ∧ ∃ act, exec .journalDrain s = .next { setCore s p { c with shadow := r, ring := c.ring ++ [x], ringPos := c.ringPos + 1 } with activity := act }
        ∧ (c.switching = false → act = s.activity))
    ∧ (c.shadow = [] ∨ 16384 ≤ c.ring.length → exec .journalDrain s = .next (setCore s p c))
    ∧ (pairCoupled s p = false → c.ring.length ≤ c.ringPos →
      (∀ a l r, c.ring = a ++ l :: r → (∀ e ∈ a, e.getLsbD 191 = false) → l.getLsbD 191 = true →
        ∃ t, exec .compactionStep s = .next t ∧ (getCore t p).ring = r ∧ (getCore t p).res = c.res ∧ (getCore t p).wide = c.wide
          ∧ (getCore t p).sav = c.sav ∧ (getCore t p).shadow = c.shadow ∧ (∀ q, q ≠ p → getCore t q = getCore s q) ∧ restState t = restState s
          ∧ (a = [] → bits l 195 192 = 0 → 0 < bits l 165 160 → bits l 188 188 = (if c.set then 1 else 0) → ∃ b, bits l 199 196 < 16 ∧ (getCore t p).baseRes.slots = mset c.baseRes.slots (bits l 199 196) b
              ∧ gCell b (bits l 165 160) = { val := BitVec.ofNat 64 (bits l 127 64), full := l.getLsbD 190, psn := l.getLsbD 189 }))
      ∧ ((∀ e ∈ c.ring, e.getLsbD 191 = false) → exec .compactionStep s = .next s))

/-- R78, R100, R101, R157, R159, R218, R229, R236, R403, R408, R422, R426, R428, R450, R475, R476: what the module holds after a module
reset, where the manual gives a value: every slot Empty and its registers 0 and full, memories read 0 as the log's choice (log 2) says. -/
def Obligations.ResetValues : Prop :=
  let s := State.reset
  (∀ p n, (getSlot s p n).st = .empty ∧ (getSlot s p n).urgents = [] ∧ (getSlot s p n).lfsr = 1
      ∧ (∀ r, gCell (getSlot s p n) r = { val := 0, full := true, psn := false })
      ∧ (∀ r, vCell (getSlot s p n) r = { val := 0, full := true, psn := false }))
  ∧ (∀ p < 192, physOf s p = p ∧ lpctV s p = true ∧ (getCore s p).victim.toNat = p + 1 ∧ (getCore s p).watch = 0
      ∧ (getCore s p).lock = 0 ∧ (getCore s p).stopping = none ∧ (getCore s p).waits = [])
  ∧ (∀ n < 24, (getCluster s n).cur = 1 ∧ (getCluster s n).req = 1 ∧ (getCluster s n).bramp = 0 ∧ (getCluster s n).dinj = 0
      ∧ (getCluster s n).busy = false ∧ (getCluster s n).fenced = false)
  ∧ s.run = false ∧ s.plumb = 0 ∧ s.hbper = 1000 ∧ s.capto = 100 ∧ s.feivl = 256 ∧ s.felim = 4096
  ∧ s.invBusy = false ∧ s.faultRecs = [] ∧ s.net = [] ∧ s.nodes = []
  ∧ (∀ j, findJob s j = if j = 0 then some Job.zero else none)
  ∧ (bits Job.zero.record 119 96 = 0xFFFFFF ∧ bits Job.zero.record 95 80 = 0x0001 ∧ bits Job.zero.record 79 72 = 1)
  ∧ (∀ h < 8, ∀ r, r < 32 → (mget (getHart s h).x r).getD 0 = 0)

/-- R45, R59, R109, R218, R242, R427, R430, R434: A STEP RUNS THE DECODED INSTRUCTION. The turn at the head of the agenda is taken: the turn of a core
takes its next position in the rotation and issues the slot there, whose word is decoded and carried out; a word outside the map
is an unassigned encoding; the turn of a hart carries out the word at its pc; an event is carried out with its input, what waits at
the cores is served, and slots that wait for the performance of earlier events look again. An empty agenda lets Plumb time pass and takes one of the turns
that can be taken (log 5). A module whose start failed stays in reset, where another start or a loss of power still reaches it. -/
def Obligations.StepRunsInstruction : Prop :=
  (∀ s : State, s.bootFailed = true → (∀ a r, s.agenda ≠ .event .moduleReset a :: r ∧ s.agenda ≠ .event .modulePowerLoss a :: r) →
    step s = .fault .bootFailed)
  ∧ (∀ (s : State) (p n t : Nat) (r : List Turn) (c : PCore) (w : BitVec 32) (s3 : State),
      let s0 := settle { s with agenda := r } p (getCore s p).cc
      let s1 := settle (setCore s0 p c) p t
      let s2 := { updSlot s1 p n fun sl => { sl with lastIssue := some t } with who := (p, n) }
      s.bootFailed = false → s.agenda = .core p :: r → mayIssue s p = true → nextIssue (getCore s0 p) = some (n, t, c) →
      stopDue s0 p t = false → (getSlot s0 p n).urgents = [] → (getSlot s1 p n).st = .active → (getSlot s1 p n).exchanging = false →
      taskCancelled s1 (getSlot s1 p n) = false → issueWord s2 p n = .ok (w, s3) →
      let i := match decode w with | .ok i => i | .error _ => .unassignedEncoding
      (∀ u, exec i { s3 with word := w } = .next u → step s = .next (afterIssue s2 (getSlot s1 p n).lastIssue p n u))
      ∧ (∀ f, exec i { s3 with word := w } = .fault f → step s = .fault f))
  ∧ (∀ (s : State) (p n : Nat) (o : Nat),
      let sl := getSlot s p n
      (curFrame sl).v = false → sl.pc = BitVec.ofNat 64 (0xFF * 2 ^ 56 + o) → o % 4 = 0 → o + 4 ≤ 2 ^ 17 →
      (∀ k ∈ (getCore s p).res.lsPoison, k ≠ o / 8) → addrCode { s with who := (p, n) } .fetch sl.pc 4 = none →
      ∃ w, issueWord s p n = .ok (w, s) ∧ ∀ k < 4, bits w (8 * k + 7) (8 * k) = (memByte (getCore s p).res.ls (o + k)).toNat)
  ∧ (∀ (s s1 : State) (h : Nat) (r : List Turn) (w : BitVec 32), s.bootFailed = false → s.agenda = .hart h :: r → s.imagesOff = false →
      hartWord { s with agenda := r, hartId := h } = .ok (w, s1) → step s = exec (hartDecode w) { s1 with word := w })
  ∧ (∀ (s t : State) (e : Instr) (a : Input) (r : List Turn), s.bootFailed = false ∨ e = .moduleReset ∨ e = .modulePowerLoss →
      s.agenda = .event e a :: r →
      exec e { s with agenda := r, input := a } = .next t → overfilled { s with agenda := r } (afterEvent t) = [] →
      step s = .next (afterEvent t))
  ∧ (∀ (s u : State) (e : Turn), s.bootFailed = false → s.agenda = [] → freeTurn s = (e, u) → step s = runTurn u e)

/-- R220, R243 to R245, R248, R249: words written out bit by bit from the opcode map decode to the instructions they stand for, and words that the
map leaves unassigned to none. -/
def Obligations.WordsDecode : Prop :=
  decode 0b000000_00101_00000_00000_00100_000111#32 = .ok (.mfs 5 7)
  ∧ decode 0b000001_00001_00010_00011_00000_000000#32 = .ok (.add 1 2 3)
  ∧ decode 0b000010_11111_00000_1111111111111111#32 = .ok (.addi 31 0 0xFFFF)
  ∧ decode 0b001101_00001_00010_0000_011111_100000#32 = .ok (.bfx 1 2 31 32)
  ∧ decode 0b010001_00100_00101_1111111111111110#32 = .ok (.bne 4 5 0xFFFE)
  ∧ decode 0b011011_000011_0001_0010_0011_0100_0101#32 = .ok (.rep 3 1 2 3 4 5)
  ∧ decode 0b100000_00111_01000_11111_101_10000001#32 = .ok (.ld 7 8 31 .hz 0x81)
  ∧ decode 0b101010_00001_00010_00011_00_000_1_01010#32 = .ok (.amoFaddS 1 2 3 .relaxed .slot)
  ∧ decode 0b101101_00100_00001_00010_00000_000011#32 = .ok (.send 4 1 2 3)
  ∧ decode 0b110000_00001_00010_00011_011_00_000010#32 = .ok (.fmul 1 2 3 .bf16)
  ∧ decode 0b110001_00001_00010_00011_00100_01_00_11#32 = .ok (.fnms 1 2 3 4 .f64)
  ∧ decode 0b110100_0001_0010_0011_0000_101_000_0000#32 = .ok (.vadd 1 2 3 5 .f32)
  ∧ decode 0b111000_00001_00010_00011_00011_000000#32 = .ok (.launch 1 2 3)
  ∧ decodeScan 0b111111111111_00010_000_00011_0001011#32 = some (.imlw 3 2 0xFFF)
  ∧ decodeScan 0b0000000_00011_00010_010_00001_0101011#32 = some (.sage 1 2 3)
  ∧ (∀ i, decode 0b000001_00001_00010_00011_00000_011111#32 ≠ .ok i) ∧ (∀ i, decode 0b001111_00000_00000_00000_00000_000000#32 ≠ .ok i)
  ∧ decodeScan 0b000000000000_00000_101_00011_0101011#32 = none

/-- R242 to R249, R220: DECODE AND ENCODE AGREE on every instruction of the map: the word of a well-formed instruction, whatever its
operands, decodes to that instruction with those operands. -/
def Obligations.WordsOfInstructions : Prop := ∀ i : Instr, Laws.RoundTrip.Statement i

/-- R242 to R250: the map has one instruction for a word: a word that decodes is the word of a well-formed instruction and of no other. Every bit
of it is read: two words that decode alike are the same word. -/
def Obligations.DecodingIsExact : Prop :=
  (∀ (w : BitVec 32) (i : Instr), decode w = .ok i → encode i = some w ∧ wellFormed i = true)
  ∧ (∀ (w : BitVec 32) (i : Instr), decodeScan w = some i → encode i = some w ∧ wellFormed i = true)
  ∧ ∀ (v w : BitVec 32) (i : Instr), decode v = .ok i → decode w = .ok i → v = w

/-- The memories are addressed by byte (R8) and in one form (log 2): a store of bytes keeps the form, the bytes stored read back, every other
byte reads as before, and two memories that read alike at every address are equal. -/
def Obligations.MemoryReadsBack : Prop :=
  ∀ (m : List Host.Cell) (a : Nat) (bs : List Byte), Memory.wf m →
    Memory.wf (memStore m a bs)
    ∧ (∀ k, memByte (memStore m a bs) k = if a ≤ k ∧ k < a + bs.length then bs.getD (k - a) 0 else memByte m k)
    ∧ memBytes (memStore m a bs) a bs.length = bs
    ∧ ∀ m', Memory.wf m' → (∀ k, memByte m k = memByte m' k) → m = m'

/-- Main memory is in its canonical form right after module reset (log 2: nothing is listed, and an unlisted byte reads 0). -/
def Obligations.ResetMemory : Prop := MemInv State.reset ∧ ∀ a, memByte State.reset.mem a = 0

/-- EVERY STEP KEEPS main memory in its canonical form (log 2), whatever turn it takes: a store by a slot, a hart, an engine, the host or the
partner, a line written back, a retirement's copy, a reset. -/
def Obligations.StepsKeepMemory : Prop := ∀ s t : State, MemInv s → step s = .next t → MemInv t

/-- R272, R273, R274, R275, R270: Immediate forms, constants, bit fields and bit counts: Spec.ImmediateResults, Spec.BitCounts. -/
def Obligations.ImmediatesAndCounts : Prop := Sys2Proof.Spec.ImmediateResults ∧ Sys2Proof.Spec.BitCounts

/-- R276, R277, R278: Branches and jumps: Spec.Branches, Spec.FullEmptyBranches, Spec.Jumps. -/
def Obligations.BranchesAndJumps : Prop := Sys2Proof.Spec.Branches ∧ Sys2Proof.Spec.FullEmptyBranches ∧ Sys2Proof.Spec.Jumps

/-- R53, R54, R266, R268, R343: Reads and writes of slot control state, common registers and full/empty bits, and the reads that a
node answers: Spec.StateReads, Spec.NodeAnswers, Spec.SlotWrites, Spec.CommonRegisterWrite, Spec.Purge. -/
def Obligations.StateInstructions : Prop := Sys2Proof.Spec.StateReads ∧ Sys2Proof.Spec.NodeAnswers ∧ Sys2Proof.Spec.SlotWrites
  ∧ Sys2Proof.Spec.CommonRegisterWrite ∧ Sys2Proof.Spec.Purge

/-- R55, R63: What an instruction reads, and parking on an empty source: Spec.OperandValues, Spec.EmptySourceParks. -/
def Obligations.SourceOperands : Prop := Sys2Proof.Spec.OperandValues ∧ Sys2Proof.Spec.EmptySourceParks

/-- R261, R433, R457: Faults of an instruction at its issue: Spec.ContextFaults, Spec.PoisonFaults. -/
def Obligations.IssueFaults : Prop := Sys2Proof.Spec.ContextFaults ∧ Sys2Proof.Spec.PoisonFaults

/-- R309, R310, R355, R358, R378: Receiving messages and reads that the Mortar records: Spec.Receive, Spec.RecordedReads. -/
def Obligations.ReceiveAndRecordedReads : Prop := Sys2Proof.Spec.Receive ∧ Sys2Proof.Spec.RecordedReads

/-- R264, R420, R58, R59, R60, R61, R268, R269, R350, R352: Stops for the supervisor, and the instructions of the rotation:
Spec.StopInstructions, Spec.RotationInstructions. -/
def Obligations.StopsAndRotation : Prop := Sys2Proof.Spec.StopInstructions ∧ Sys2Proof.Spec.RotationInstructions

/-- R281, R282: Scalar comparisons, classification, sign injection and moves: Spec.FloatingPointComparisons, Spec.FloatingPointBits. -/
def Obligations.FloatComparisonsAndBits : Prop := Sys2Proof.Spec.FloatingPointComparisons ∧ Sys2Proof.Spec.FloatingPointBits

/-- R72, R73, R65: Rounding directions and exact values: Spec.RoundingDirections, Spec.RepresentableValuesKept. -/
def Obligations.RoundingIsNearest : Prop := Sys2Proof.Spec.RoundingDirections ∧ Sys2Proof.Spec.RepresentableValuesKept

/-- R329, R330: Reductions and running sums of vectors: Spec.FloatReductions, Spec.IntegerReductions, Spec.RunningSums. -/
def Obligations.VectorReductions : Prop := Sys2Proof.Spec.FloatReductions ∧ Sys2Proof.Spec.IntegerReductions ∧ Sys2Proof.Spec.RunningSums

/-- R326, R261, R333, R334, R327, R332, R331: Vector comparison and mask operations: Spec.VectorCompare, Spec.MaskOperations,
Spec.VectorPlacement. -/
def Obligations.VectorMasks : Prop := Sys2Proof.Spec.VectorCompare ∧ Sys2Proof.Spec.MaskOperations ∧ Sys2Proof.Spec.VectorPlacement

/-- R321, R322, R77, R323, R324, R80: Packing and block formats: Spec.Packing, Spec.BlockFormats. -/
def Obligations.VectorFormats : Prop := Sys2Proof.Spec.Packing ∧ Sys2Proof.Spec.BlockFormats

namespace Sys2Proof.Spec

/-! ### Every event of the module completes -/

/-- Slot `n` of core `p` is Empty, not reserved, and may take a frame of its allotted job (R32, R39). -/
structure MayTake (s : State) (p n job : Nat) : Prop where
  input : s.input.n = p ∧ s.input.k = n ∧ n < 16
  slot : (getSlot s p n).st = .empty ∧ stealing s p n = false
  core : takesFrames s p = true ∧ allotted s p n = some job

/-- THE WRITES THAT PASS THROUGH THE COMMAND ARBITER (R158): the event, and the node field, the offset and the bytes of its write. -/
inductive Command (s : State) : Instr → Nat → Nat → List Byte → Prop
  | scanStart : Command s .scanStart 0xE0 0x1000 (natBytes 8 1)
  | scanStop : Command s .scanStop 0xE0 0x1000 (natBytes 8 0)
  | jobRegister : Command s .jobRegister 0xE0 0x1100 (natBytes 8 s.input.v.toNat)
  | jobDelete : Command s .jobDelete 0xE0 0x1108 (natBytes 8 s.input.v.toNat)
  | invalStart : Command s .invalStart 0xE0 0x1308 (natBytes 8 s.input.v.toNat)
  | gateWrite : Command s .gateWrite 0xE2 (0x800000 + s.input.n % 64 * 64) (s.input.bytes.take 64)
  | gclWrite : Command s .gclWrite 0x100 (s.input.n % 8) s.input.bytes
  | pairAsActive : Command s .pairAsActive 0xE4 0x08 [1]
  | pairAsStandby : Command s .pairAsStandby 0xE4 0x08 [2]
  | pairSwitchOver : Command s .pairSwitchOver 0xE4 0x08 [3]
  | pairUnpair : Command s .pairUnpair 0xE4 0x08 [4]
  | attestRequest : Command s .attestRequest 0xE0 0x1820 (natBytes 8 s.input.v.toNat)
  | clkctlWrite : Command s .clkctlWrite 0xE0 (0x1400 + 8 * (s.input.n % 24)) (natBytes 8 s.input.v.toNat)
  | plumbSet : Command s .plumbSet 0xE0 0x1500 (natBytes 8 s.input.v.toNat)

/-- A command that waits in the arbiter for the one before it (R100, R228): an invalidation or a report is under way. -/
def Waits (s : State) (i : Instr) : Prop := i = .invalStart ∧ s.invBusy = true ∨ i = .attestRequest ∧ s.attBusy = true

/-- WHAT AN EVENT DOES where its rule lets it happen: the event, the conditions of its rule on the state and its input, and the state
that it leaves, by the operation of its rule. The statements above say of these states what they hold. -/
inductive Event (s : State) : Instr → State → Prop
  | command i nf o bs : (Command s i nf o bs ∧ s.arbWait = [] ∧ ¬ Waits s i)
      → Event s i { arbPerform { s with arbSeq := s.arbSeq + 1 } (s.arbSeq + 1) nf o bs with arbWait := [] }
  | commandWaits i nf o bs : (Command s i nf o bs ∧ s.arbWait = [] ∧ Waits s i)
      → Event s i { s with arbSeq := s.arbSeq + 1, arbWait := [(s.arbSeq + 1, nf, o, bs)] }
  | commandQueued i nf o bs q v r : (Command s i nf o bs ∧ (s.arbWait = (q, 0xE0, 0x1308, v) :: r ∧ s.invBusy = true
        ∨ s.arbWait = (q, 0xE0, 0x1820, v) :: r ∧ s.attBusy = true))
      → Event s i { s with arbSeq := s.arbSeq + 1, arbWait := s.arbWait ++ [(s.arbSeq + 1, nf, o, bs)] }
  | scanBoundary : (s.run = true ∧ s.latching = false ∧ boundary s ≤ s.plumb)
      → Event s .scanBoundary (Machine.scanBoundary s (boundary s))
  | inputLatchComplete : (s.latching = true)
      → Event s .inputLatchComplete (let t := imgPutWord (imgPutWord s (inHalf s.stamp.toNat) s.stamp) (outHalf s.stamp.toNat) s.stamp
       let u := wakeAll { t with latching := false, latches := t.latches + 1 } fun w => decide (w = .latch)
       u.latchHeld.foldl (fun x e => regStore x 0xE2 e.1 e.2) { u with latchHeld := [] })
  | gangStopLast w (u : State) : (firstSwitch s s.input.n = some w ∧ w.step = .due ∧ w.time ≤ s.plumb ∧ s.input.k ∈ w.cores
        ∧ (getCore s s.input.k).switching = false ∧ (getCore s s.input.k).pass = [] ∧ (getCluster s (clusterOf s.input.k)).busy = false
        ∧ pairAwaits s s.input.k = false ∧ u = withdrawAll (updCore (settleAll s s.input.k) s.input.k fun c => { c with switching := true }) s.input.k
        ∧ ∀ q ∈ w.cores, (getCore u q).switching = true)
      → Event s .gangStop { u with switches := putSwitch u.switches w.job (some { w with step := .stopped }) }
  | gangStop w (u : State) : (firstSwitch s s.input.n = some w ∧ w.step = .due ∧ w.time ≤ s.plumb ∧ s.input.k ∈ w.cores
        ∧ (getCore s s.input.k).switching = false ∧ (getCore s s.input.k).pass = [] ∧ (getCluster s (clusterOf s.input.k)).busy = false
        ∧ pairAwaits s s.input.k = false ∧ u = withdrawAll (updCore (settleAll s s.input.k) s.input.k fun c => { c with switching := true }) s.input.k
        ∧ ∃ q ∈ w.cores, (getCore u q).switching = false)
      → Event s .gangStop u
  | gangSave w (u : State) : (firstSwitch s s.input.n = some w ∧ w.step = .stopped
        ∧ (∀ p ∈ w.cores, saveDue s p = false ∧ (getCore s p).shadow = [])
        ∧ u = w.cores.foldl (fun x p => markedAnew (swapCore x w p) p) (noteDropped (chargeSwitch (w.cores.foldl withdrawRetries s) w) w.cores))
      → Event s .gangSaveDrained (let t := { u with switches := putSwitch u.switches w.job (some { w with step := .drained }) }
       if w.inward = true then t else openPending (phaseSaved t w.job) w.job)
  | gangRestoreDone w (u : State) : (firstSwitch s s.input.n = some w ∧ w.step = .drained
        ∧ u = { s with switches := putSwitch s.switches w.job none })
      → Event s .gangRestoreDone (w.cores.foldl (fun x p =>
          let y := updCore x p fun c => { c with switching := false, res := wakeCtx (fun w => decide (w = .reissue)) c.res }
          serveWaits (reinject (mxepiReady (refillFrames (wakeDoomed y p) p) p) p) p)
        (if w.inward = true ∨ w.void = true then u else updJob u w.job fun j => { j with closedAt := some s.plumb }))
  | texpExpiry j : (findJob s s.input.n = some j ∧ j.phase = .opened ∧ j.texp ≤ s.plumb)
      → Event s .texpExpiry (addSwitch (updJob s j.id fun j => { j with phase := .preempting }) j.id false j.texp)
  | scanStopTakesEffect : (s.stopPending = true ∧ boundary s ≤ s.plumb)
      → Event s .scanStopTakesEffect
        ((s.jobs.filter fun j => decide (j.phase = .suspended)).foldl (fun x j => cancelPhase x j.id) { s with stopPending := false })
  | cardTimePoint g j c t : (CardDue s g j ∧ s.input.k ∉ g.timeMet
        ∧ readRecord s g.job (cardAddr j s.input.k) = (some c, t) ∧ timePoint g c ≤ s.plumb ∧ (g.phase = none ∨ timePoint g c ≤ j.texp))
      → Event s .cardTimePoint (updGraph t s.input.n fun g => { g with timeMet := nadd g.timeMet s.input.k })
  | cardStart g j c t : (CardDue s g j ∧ readRecord s g.job (cardAddr j s.input.k) = (some c, t)
        ∧ triggerMet g s.input.k c = true)
      → Event s .cardStart (startCard t g j c s.input.k)
  | invalComplete : (s.invBusy = true ∧ translatedDue s (invRange s) = false)
      → Event s .invalComplete (let t := { dropTlbs s (invRange s) with invBusy := false, invDone := s.invSeq }
       arbDrain t t.arbWait)
  | lpctWrite : (s.input.n < 192)
      → Event s .lpctWrite (writeLpct s s.input.n s.input.v)
  | lpctRemap n v r : (s.remaps = (n, v) :: r ∧ physOf s n ≠ bits v 7 0 ∧ tilesQuiet (getCore s (physOf s n)) = true
        ∧ s.migrations = [] ∧ (getCore s (physOf s n)).halted = true ∧ answersDue s (physOf s n) = false ∧ (getCore s (physOf s n)).shadow = [])
      → Event s .lpctRemap (refillFrames (setEntry (moveCore s (physOf s n) (bits v 7 0)) n v) (bits v 7 0))
  | lpctValid n v r : (s.remaps = (n, v) :: r ∧ physOf s n = bits v 7 0)
      → Event s .lpctRemap (updCore (setEntry s n v) (physOf s n) fun c => { c with vacated := false })
  | quotaWrite : (s.input.n < 128)
      → Event s .quotaWrite (writeQuota s s.input.n s.input.v)
  | mortarDescWrite : (s.input.n < 128 ∧ s.input.k < 4)
      → Event s .mortarDescWrite (writeMortar s s.input.n (8 * s.input.k) (natBytes 8 s.input.v.toNat))
  | mortarRecordAppend : ((getMortar s s.input.n).queue ≠ [])
      → Event s .mortarRecordAppend (appendRecord s s.input.n)
  | mortarWriteRetry : ((getMortar s s.input.n).notedFail = true)
      → Event s .mortarWriteRetry (wakeReplay (appendRecord s s.input.n))
  | mortarReplayFetch bs t : (MayFetch (getMortar s s.input.n)
        ∧ readVirtual s s.input.n (ringWordAt (getMortar s s.input.n) (getMortar s s.input.n).loaded) 16 = (.ok (bs, false), t)
        ∧ recGood (leWord 128 bs) = true)
      → Event s .mortarReplayFetch (handRecord t s.input.n (leWord 128 bs))
  | divergenceTimeout r rest : (handedTo (getMortar s s.input.n) s.input.k = r :: rest ∧ (getMortar s s.input.n).mode = 2
        ∧ s.input.k ∉ (getMortar s s.input.n).stopped ∧ agentFrozen s s.input.n (recAgent r) = false
        ∧ ((mget (getMortar s s.input.n).since s.input.k).getD s.plumb) + divergeNs (getMortar s s.input.n) ≤ s.plumb)
      → Event s .divergenceTimeout (stopPoint (divergeAll s s.input.n s.input.k) s.input.n s.input.k 0xFFF)
  | mxeJobEnd p j t : (Granted s s.input.n p j ∧ j.rest = [] ∧ runMx s p j = some t)
      → Event s .mxeJobEnd t
  | mxeChunkFailed p j a bs r : (Granted s s.input.n p j ∧ j.rest = (a, bs) :: r ∧ s.input.flag = true)
      → Event s .mxeChunkRetry (closeMx (mxRecord s p j 0x02 2 a) p j j.tile 3)
  | mxeChunkRetry p j a bs r t : (Granted s s.input.n p j ∧ j.rest = (a, bs) :: r ∧ s.input.flag = false
        ∧ finishMx (mxRecord s p j 0x02 1 a) p j j.tile none j.rest = some t)
      → Event s .mxeChunkRetry t
  | ballastStep (c : Cluster) (d : Nat) : (c = getCluster s s.input.n ∧ c.bramp ≠ 0 ∧ c.powered = true
        ∧ clockStopped s s.input.n = false
        ∧ d = ((s.jobs.filter fun j => isRt j && jobHolds s j s.input.n).map (ballastDuty s c.bramp.toNat)).foldl max 0)
      → Event s .ballastStep (if ballastAt c c.bramp.toNat + d < 1000 * c.bramp.toNat
       then updCluster s s.input.n fun x => { x with ballast := ballastAt c c.bramp.toNat + d, ballastOf := c.bramp.toNat }
       else charge (updCluster s s.input.n fun x =>
         { x with ballast := ballastAt c c.bramp.toNat + d - 1000 * c.bramp.toNat, ballastOf := c.bramp.toNat }) 0 (scaledEnergy s s.input.n 20300000))
  | hodTransferStart x : (hodHead (getCore s s.input.n) = some x ∧ x.started = false ∧ mayBegin s s.input.n x.job (x.tilesW ++ x.tilesR) = true
        ∧ footFree s (hodFootprint s.input.n x) = true ∧ tilesAre s s.input.n x.job x.tilesW 0 = true ∧ tilesAre s s.input.n x.job x.tilesR 2 = true
        ∧ hdKind x.regs ≠ 5)
      → Event s .hodTransferStart (beginXfer s s.input.n x (hdDst x.regs))
  | hodPacketIssue : ((getCluster s s.input.n).powered = true)
      → Event s .hodPacketIssue (issueFirst s s.input.n (hodOrder s s.input.n))
  | hodPacketPerform lc x job q data t m : (m = .packet lc x.uid job q data ∧ s.net[s.input.n]? = some m
        ∧ findXfer s (physOf s lc) x.uid = some x ∧ packetBehind s s.input.n (physOf s lc) x q = false ∧ notifySaved s x = false
        ∧ packetRepeat s (physOf s lc) x q = false
        ∧ writePacket { s with net := ldrop s.net s.input.n } (physOf s lc) x q (!s.heldMsgs.contains m) data = .done t)
      → Event s .hodPacketPerform (packetDone { t with heldMsgs := t.heldMsgs.filter (· ≠ m) } (physOf s lc) x q)
  | hodTransferEnd x : (endable s s.input.n = some x ∧ (x.failed = true ∨ hdKind x.regs ≠ 5))
      → Event s .hodTransferEnd (endXfer s s.input.n x (!x.failed))
  | visionJobStart v w t : (s.input.n < 8 ∧ mget s.engines s.input.n = none ∧ nextVision s s.input.n = some v
        ∧ runPassOne { s with
            visionQ := mset s.visionQ (s.input.n / 2) (((mget s.visionQ (s.input.n / 2)).getD []).filter fun x => decide (x.inst ≠ v.inst) || decide (x.card ≠ v.card))
            engines := mset s.engines s.input.n v } s.input.n v true = .ok w t)
      → Event s .visionJobStart { t with engines := mset t.engines s.input.n w }
  | visionJobEnd v t : (mget s.engines s.input.n = some v ∧ v.retried = false ∧ runPassTwo s s.input.n v = .ok true t)
      → Event s .visionJobEnd (cardComplete (charge { t with engines := merase t.engines s.input.n } v.job (visionEnergy v)) v.inst v.card)
  | visionAgain v x y w t (u : State) : (mget s.engines s.input.n = some v ∧ runPassTwo s s.input.n v = .ok false u
        ∧ mget u.engines s.input.n = some y ∧ y.retried = false ∧ x = { y with retried := true }
        ∧ runPassOne (charge { u with engines := mset u.engines s.input.n x } x.job (visionEnergy x)) s.input.n x false = .ok w t)
      → Event s .visionJobEnd { t with engines := mset t.engines s.input.n w }
  | visionWatchdog v x w t : (mget s.engines s.input.n = some v ∧ v.retried = false ∧ x = { v with retried := true }
        ∧ runPassOne (charge { s with engines := mset s.engines s.input.n x } x.job (visionEnergy x)) s.input.n x false = .ok w t)
      → Event s .visionWatchdog { t with engines := mset t.engines s.input.n w }
  | frameArrival : (s.input.n < 8)
      → Event s .frameArrival (takeFrameIn s s.input.n s.input.bytes s.plumb true)
  | cameraBlockLand b r t (u : State) : ((getGate s s.input.n).ended = b :: r ∧ b.late = []
        ∧ engWrite (updGate s s.input.n fun x => { x with ended := r }) (ingressEng s.input.n)
            (bufAddr (getGate (updGate s s.input.n fun x => { x with ended := r }) s.input.n).entry b.buf)
            (clean (natBytes 64 (landHeader s.input.n b).toNat)) = .ok () t
        ∧ u = updGate t s.input.n (fun x => { x with accepted := x.accepted + 1 }) ∧ gtCard (getGate u s.input.n).entry = 0xFFFF)
      → Event s .cameraBlockLand u
  | outputFresh g (u : State) : (g = s.input.n ∧ OutputGate s g ∧ (getGate s g).frozen = false ∧ scanTime s + gtOfrz (getGate s g).entry * 1000 ≤ s.plumb
        ∧ imgWord s (outHalf s.stamp.toNat + 0x40 + 4 * g) = s.stamp
        ∧ u = if s.pair.link = true ∧ s.pair.role = 1 then { s with sent := s.sent ++ [.flit (0 :: natBytes 8 (outHalf s.stamp.toNat + gtIoff (getGate s g).entry * 64)
            ++ memBytes s.image (outHalf s.stamp.toNat + gtIoff (getGate s g).entry * 64) (gtIlen (getGate s g).entry) ++ natBytes 4 s.stamp.toNat)] } else s)
      → Event s .outputFreeze (updGate u g fun x => { x with
        frozen := true, stale := entryPoisoned s (outHalf s.stamp.toNat + gtIoff (getGate s g).entry * 64) (gtIlen (getGate s g).entry) })
  | outputSend g (u : State) : (g = s.input.n ∧ OutputGate s g ∧ (findJob s (g + 1)).isSome = true ∧ (getGate s g).frozen = true
        ∧ s.input.k < 8 ∧ s.input.k ∉ (getGate s g).sent ∧ gtPorts (getGate s g).entry / 2 ^ s.input.k % 2 = 1
        ∧ scanTime s + gtOtx (getGate s g).entry * 1000 ≤ s.plumb ∧ (getGate s g).sent ≠ [] ∧ s.pair.role ≠ 2 ∧ s.pair.unsure = false
        ∧ u = updGate s g fun x => { x with sent := nadd x.sent s.input.k })
      → Event s .outputTransmit (portSend u s.input.k (gtPcp (getGate s g).entry)
        ((owed u g ++ [outputBody s g]).map (outputFrame (getGate s g).entry s.input.k)))
  | outputFirst g (u : State) : (g = s.input.n ∧ OutputGate s g ∧ (findJob s (g + 1)).isSome = true ∧ (getGate s g).frozen = true
        ∧ s.input.k < 8 ∧ gtPorts (getGate s g).entry / 2 ^ s.input.k % 2 = 1
        ∧ scanTime s + gtOtx (getGate s g).entry * 1000 ≤ s.plumb ∧ (getGate s g).sent = []
        ∧ u = updGate (updGate (noteStale s g) g fun x => { x with lastStale := x.stale }) g (fun x => { x with sent := nadd x.sent s.input.k })
        ∧ s.pair.role ≠ 2 ∧ s.pair.unsure = false)
      → Event s .outputTransmit (portSend u s.input.k (gtPcp (getGate s g).entry)
        ((owed u g ++ [outputBody s g]).map (outputFrame (getGate s g).entry s.input.k)))
  | forwardedFrameArrive : (s.pair.link = true)
      → Event s .forwardedFrameArrive
        (takeFrameIn { s with pair := { s.pair with lastFlit := s.plumb } } s.input.n s.input.bytes s.input.v.toNat false)
  | pairSilenceTimeout : (s.pair.link = true ∧ s.pair.lastFlit + 2000 ≤ s.plumb)
      → Event s .pairSilenceTimeout (pairDown s 1)
  | partnerResetSignal : (s.pair.link = true)
      → Event s .partnerResetSignal (pairDown s (if s.input.flag = true then 3 else 2))
  | ratioChangeStart : ((getCluster s s.input.n).req ≠ (getCluster s s.input.n).cur ∧ mayChange s s.input.n = true)
      → Event s .ratioChangeStart (haltCores (startChange s s.input.n (getCluster s s.input.n).req) s.input.n)
  | ratioChangeDone : ((getCluster s s.input.n).busy = true ∧ allHalted s s.input.n = true
        ∧ (getCluster s s.input.n).tries ≠ 1)
      → Event s .ratioChangeDone (endChange s s.input.n (getCluster s s.input.n).target)
  | ratioStepTimeout : ((getCluster s s.input.n).busy = true ∧ s.input.flag = false ∧ (getCluster s s.input.n).tries = 0)
      → Event s .ratioStepTimeout (restartClock (updCluster s s.input.n fun c => { c with tries := 1, failStep := s.input.k }) s.input.n)
  | droopTrip : ((getCluster s s.input.n).droop = false ∧ clockStopped s s.input.n = false)
      → Event s .droopTrip (updCluster s s.input.n fun c => closeSwitch s { c with droop := true })
  | droopRestored : ((getCluster s s.input.n).droop = true ∧ (getCluster s s.input.n).inj = true
        ∧ closedCc s (getCluster s s.input.n) + s.input.k < 64)
      → Event s .droopRestored (updCluster s s.input.n fun c => openSwitch s s.input.k { c with droop := false })
  | droopLimit : ((getCluster s s.input.n).inj = true ∧ clockStopped s s.input.n = false
        ∧ (getCluster s s.input.n).stretched = false ∧ (getCluster s s.input.n).limited < 3)
      → Event s .droopLimit (record (updCluster s s.input.n (stretchClock s)) 5 0x01 1 (0x290 + s.input.n) 0 0xFFF 0 s.input.k)
  | stretchWindowEnd : ((getCluster s s.input.n).droop = false)
      → Event s .stretchWindowEnd (updCluster s s.input.n fun c => { recount s.plumb c.clk.runs c with
        stretched := false, limited := if c.stretched then c.limited else 0 })
  | thermalSample : (s.input.pairs = [])
      → Event s .thermalSample (heatFlags ((s.cores.map fun e => e.1).foldl handleSample s))
  | thermalMigration p q : (s.migrations.find? (fun m => m.1 = s.input.n) = some (p, q)
        ∧ (getCluster s (clusterOf p)).busy = false ∧ (getCluster s (clusterOf q)).busy = false ∧ s.remaps = []
        ∧ tilesQuiet (getCore s p) = true ∧ tilesQuiet (getCore s q) = true ∧ moveReady s p = true ∧ moveReady s q = true)
      → Event s .thermalMigration
        (refillFrames (refillFrames { exchangeCores s p q with migrations := s.migrations.filter fun m => m ≠ (p, q) } p) q)
  | heartbeatWrite : (s.input.n < 192)
      → Event s .heartbeatWrite (updCore s s.input.n fun c => { c with beaten := true })
  | heartbeatPeriodEnd : (s.hbper ≠ 0 ∧ (getCore s s.input.n).beatFrom + 1000 * s.hbper.toNat ≤ s.plumb
        ∧ (getCore s s.input.n).beaten = true)
      → Event s .heartbeatPeriodEnd (updCore s s.input.n fun c => { c with beaten := false, beatFrom := s.plumb, misses := 0 })
  | captureTimeout : ((getCore s s.input.n).captured = true ∧ (getCore s s.input.n).dcmdSeen = false ∧ s.capto ≠ 0
        ∧ (getCore s s.input.n).capturedAt + 1000000 * s.capto.toNat ≤ s.plumb)
      → Event s .captureTimeout (autoFence (updCore s s.input.n fun c => { c with dcmdSeen := true }) (clusterOf s.input.n))
  | errorRecord r rest : (s.errQueue = r :: rest)
      → Event s .errorRecord (writeRecord { s with errQueue := (r :: rest).erase (nextRecord r rest) } (nextRecord r rest))
  | eccCountReport : (s.input.n < 0xC0 ∧ (getCore s s.input.n).corrected ≠ 0)
      → Event s .eccCountReport
        (record (updCore s s.input.n fun c => { c with corrected := 0 }) 2 0x03 0 s.input.n 0 0xFFF 0 (getCore s s.input.n).corrected)
  | patrolScrub : (s.input.n < 0xC0 ∧ s.input.k < 2 ^ 25)
      → Event s .patrolScrub (scrubWord s s.input.n s.input.k (bits s.input.v 7 0) (bits s.input.v 15 8))
  | patrolScrubTlb : (s.input.n < 0xC0 ∧ 2 ^ 25 ≤ s.input.k)
      → Event s .patrolScrub (dropCoreTlb s s.input.n (s.input.k - 2 ^ 25))
  | patrolScrubMemory n : (s.input.n = 0x100 + n ∧ n < 32 ∧ s.input.k < 2 ^ 40 ∧ homeNode s.input.k = n)
      → Event s .patrolScrub (scrubSector s s.input.k (!s.input.flag) (s.input.pairs.filter fun x => decide (x.1 < 36))
        ((s.input.pairs.filter fun x => decide (36 ≤ x.1)).map fun x => (x.1 - 36, x.2)))
  | patrolScrubSlice n a : (s.input.n = 0x100 + n ∧ n < 32 ∧ s.input.k = 2 ^ 40 + a ∧ a < 2 ^ 40 ∧ homeNode a = n)
      → Event s .patrolScrub (scrubSlice s n a (bits s.input.v 7 0) (bits s.input.v 15 8))
  | patrolScrubImage : (s.input.n = 0x260)
      → Event s .patrolScrub (scrubImage s s.input.k (bits s.input.v 7 0) (bits s.input.v 15 8))
  | faultNotice node job va kinds p n : (s.net[s.input.n]? = some (.notice node job va kinds p n))
      → Event s .faultNotice (takeNotice { s with net := ldrop s.net s.input.n } node job va kinds p n)
  | faultNoticeRetry m : (s.refusedNotices[s.input.n]? = some m)
      → Event s .faultNoticeRetry { s with net := s.net ++ [m], refusedNotices := ldrop s.refusedNotices s.input.n }
  | retireBlock : (s.input.n < 32)
      → Event s .retireBlock (startRetire s s.input.n (bits s.input.v 53 36) (bits s.input.v 35 18))
  | retireRelease : (s.input.n < 32)
      → Event s .retireRelease (updNode s s.input.n fun m => { m with retired := m.retired.filter fun e => decide (e.1 ≠ bits s.input.v 53 36) })
  | retireCopy : (switchingNow (getNode s s.input.n) = false ∧ s.input.k < 512)
      → Event s .retireCopyDone (copyTo s s.input.n s.input.k s.input.pairs)
  | retireCopied : (switchingNow (getNode s s.input.n) = false ∧ 512 ≤ s.input.k)
      → Event s .retireCopyDone (beginSwitch (copyTo s s.input.n 512 s.input.pairs) s.input.n)
  | retireCopyDone : (switchingNow (getNode s s.input.n) = true)
      → Event s .retireCopyDone (switchBlock s s.input.n)
  | pairchkCouple : (s.input.flag = true)
      → Event s .pairchkCouple (goCouple s (s.input.n % 96))
  | pairchkDecouple : (s.input.flag = true ∧ (getPair s (s.input.n % 96)).en = false ∧ (getPair s (s.input.n % 96)).state = 2)
      → Event s .pairchkDecouple (decoupleWrite s (s.input.n % 96))
  | fingerprintExchange : (s.input.flag = false ∧ s.input.k < 16 ∧ (getPair s s.input.n).state = 2 ∧ (getPair s s.input.n).failed = none)
      → Event s .fingerprintExchange (agree s s.input.n s.input.k)
  | fingerprintsDiffer d : ((getPair s s.input.n).state = 2 ∧ s.input.k < 16 ∧ ((getPair s s.input.n).failed = some d
        ∨ (getPair s s.input.n).failed = none ∧ s.input.flag = true ∧ d = s.input.k))
      → Event s .fingerprintExchange (disagree s s.input.n d)
  | containFence : (bits s.input.v 62 58 < 24)
      → Event s .containFence (fenceRect s (bits s.input.v 62 58))
  | containReturn : (bits s.input.v 62 58 < 24)
      → Event s .containReturn (returnRect s (bits s.input.v 62 58))
  | watchStopArrive q src : (s.net[s.input.n]? = some (.watchStop q src) ∧ stopComes s q = true)
      → Event s .watchStopArrive (stopArrives { s with net := ldrop s.net s.input.n } q src)
  | modulePowerLoss : (s.input.n = 0)
      → Event s .modulePowerLoss { kept s with
        starts := s.starts, agenda := [.event .moduleReset { flag := true, bytes := s.input.bytes, pairs := s.input.pairs }] }
  | clusterPowerLoss : (s.input.n < 24 ∧ (getCluster s s.input.n).powered = true)
      → Event s .clusterPowerLoss (updCluster ((coresOf s.input.n).foldl coreDown s) s.input.n fun c =>
        { recount ((coresOf s.input.n).foldl coreDown s).plumb false c with powered := false, grant := none, busy := false, droop := false, inj := false })
  | journalDrain e r : ((getCore s s.input.n).shadow = e :: r ∧ (getCore s s.input.n).switching = false)
      → Event s .journalDrain (updCore s s.input.n drainOne)
  | pcieLinkTrained : (pcieAway s = false) → Event s .pcieLinkTrained { s with pcieUp := true }
  | pcieLinkDown : Event s .pcieLinkDown { s with pcieUp := false }
  | gclIntervalEnd q : (mget s.ports s.input.n = some q ∧ q.gcl ≠ [] ∧ gclEnd q ≤ s.plumb)
      → Event s .gclIntervalEnd
        (portFlush { s with ports := mset s.ports s.input.n { q with cur := (q.cur + 1) % q.gcl.length, since := gclEnd q } } s.input.n)
  | reuseWindowEnd : Event s .reuseWindowEnd
      (updNode s s.input.n fun m => { m with tracked := m.tracked.map fun t => { t with delta := t.clock - t.atWindow, atWindow := t.clock } })
  | waittTimeReached x : ((getSlot s s.input.n s.input.k).park = .time x ∧ x.toNat ≤ s.plumb)
      → Event s .waittTimeReached (updSlot s s.input.n s.input.k wakeSlot)
  | waitfullRetry d r (u : State) : ((getSlot s s.input.n s.input.k).pend = some d ∧ d.again = some r
        ∧ u = updSlot s s.input.n s.input.k fun x => { x with pend := some { d with again := none } })
      → Event s .waitfullRetry { u with net := u.net ++ [.req (destOf u.input.n (reqAddr r)) r] }
  | replyArrive p n tag part a : (s.net[s.input.n]? = some (.reply (.slot p n) tag part a) ∧ savedWait s p n tag = false
        ∧ clockStands s p = false)
      → Event s .replyArrive (takeReply { s with net := ldrop s.net s.input.n } p n tag part a)
  | registerFill m key job rsn src tag lc n vec reg val psn : (m = .fill key job rsn src tag lc n vec reg val psn ∧ s.net[s.input.n]? = some m
        ∧ msgBehind s s.input.n src job lc = false)
      → Event s .registerFill (landed s s.input.n m fun x => fillAt x key job rsn src tag lc n vec reg val psn (!x.heldMsgs.contains m))
  | sendArrive m key job rsn src tag lc n w0 w1 p0 p1 mtag : (m = .send key job rsn src tag lc n w0 w1 p0 p1 mtag
        ∧ s.net[s.input.n]? = some m ∧ msgBehind s s.input.n src job lc (some n) = false)
      → Event s .sendArrive (landed s s.input.n m fun x => sendAt x lc src tag
        { key := key, job := job, slot := n, rsn := rsn, w0 := w0, w1 := w1, psn0 := p0, psn1 := p1, tag := mtag } (!x.heldMsgs.contains m))
  | urgentMessageArrive src tag lc n u : (s.net[s.input.n]? = some (.urgent src tag lc n u) ∧ msgBehind s s.input.n src u.job lc = false)
      → Event s .urgentMessageArrive (landed s s.input.n (.urgent src tag lc n u) fun x => urgentAt x src tag lc n u)
  | urgentAccept u : (acceptable s s.input.n s.input.k = some u) → Event s .urgentAccept (acceptUrgent s s.input.n s.input.k u)
  | decrArrive m src tag key job rsn lc i : (m = .decr src tag key job rsn lc i ∧ s.net[s.input.n]? = some m
        ∧ msgBehind s s.input.n src job lc = false)
      → Event s .decrArrive (landed s s.input.n m fun x => decrAt x src tag key job rsn lc i (!x.heldMsgs.contains m))
  | launchFrameDeliver lc src f dc : (s.net[s.input.n]? = some (.frame lc src f dc) ∧ frameBehind s s.input.n lc src = false)
      → Event s .launchFrameDeliver (landed s s.input.n (.frame lc src f dc) fun x => frameAt x lc src f dc)
  | takeUrgent p n job u : (MayTake s p n job ∧ replays s p n job = false ∧ acceptable s p n = some u) → Event s .slotTakeWork (acceptUrgent s p n u)
  | takeReplay p n job : (MayTake s p n job ∧ replays s p n job = true)
      → Event s .slotTakeWork (takeReplay s p n job)
  | takeRun p n job t : (MayTake s p n job ∧ acceptable s p n = none ∧ replays s p n job = false ∧ (getSlot s p n).victims = []
        ∧ (getSlot s p n).resting = false ∧ fromRun s p n job none = (true, t))
      → Event s .slotTakeWork t
  | takeDeque p n job t u : (MayTake s p n job ∧ acceptable s p n = none ∧ replays s p n job = false ∧ (getSlot s p n).victims = []
        ∧ (getSlot s p n).resting = false ∧ fromRun s p n job none = (false, t) ∧ fromDeque t p n job none = (true, u))
      → Event s .slotTakeWork u
  | takeSteal p n job t u : (MayTake s p n job ∧ acceptable s p n = none ∧ replays s p n job = false ∧ (getSlot s p n).victims = []
        ∧ (getSlot s p n).resting = false ∧ (getSlot s p n).pinnedIdle = false
        ∧ fromRun s p n job none = (false, t) ∧ fromDeque t p n job none = (false, u))
      → Event s .slotTakeWork (trySteal u p n job)
  | takeNext p n job : (MayTake s p n job ∧ acceptable s p n = none ∧ replays s p n job = false ∧ (getSlot s p n).victims ≠ [])
      → Event s .slotTakeWork (trySteal s p n job)
  | stealRequest p n v job : (s.net[s.input.n]? = some (.steal p n v job))
      → Event s .stealRequest (landed s s.input.n (.steal p n v job) fun x => stealAt x p n v job)
  | slotStartDone f : ((getSlot s s.input.n s.input.k).st = .starting ∧ (getSlot s s.input.n s.input.k).starting = some f
        ∧ coreHeld (getCore s s.input.n) = false)
      → Event s .slotStartDone (endStart s s.input.n s.input.k f)
  | reuseClockReport l k r : (s.net[s.input.n]? = some (.clock l k) ∧ launchRec s l = some r
        ∧ reuseClock { r with reported := r.reported + k } ≠ reuseClock r)
      → Event s .reuseClockReport (spreadClock (updLaunch { s with net := ldrop s.net s.input.n } l fun x => { x with reported := x.reported + k })
        l (reuseClock { r with reported := r.reported + k }))
  | coreResetNotice p lc : (p < 0x100 ∧ s.net[s.input.n]? = some (.resetNotice p lc) ∧ noticeWaits s s.input.n p lc = false)
      → Event s .coreResetNotice (updWide { s with net := ldrop s.net s.input.n } p fun w => { w with accept := forgetKeys lc w.accept })
  | faultWake : Event s .faultWake (faultWake s s.input.v)
  | watchWrite : (s.input.n < 192) → Event s .watchWrite (writeWatch s s.input.n s.input.v)
  | debugStop : (s.input.n < 192) → Event s .debugStop (debugStop s s.input.n s.input.flag)
  | debugGo : (s.input.n < 192) → Event s .debugGo (debugGo s s.input.n s.input.flag)
  | debugResume t : (s.input.n < 192 ∧ s.input.k < 16 ∧ t = noKill (dcmdCame s s.input.n) s.input.n)
      → Event s .debugResume (debugResume t s.input.n s.input.k)
  | debugStep t : (s.input.n < 192 ∧ s.input.k < 16 ∧ t = noKill (dcmdCame s s.input.n) s.input.n)
      → Event s .debugStep (debugStep t s.input.n s.input.k)
  | faultResume t : (s.input.n < 192 ∧ s.input.k < 16 ∧ t = noKill (dcmdCame s s.input.n) s.input.n)
      → Event s .faultResume (faultResume t s.input.n s.input.k)
  | killTask : (s.input.n < 192 ∧ s.input.k < 16) → Event s .killTask (killTask (dcmdCame s s.input.n) s.input.n s.input.k)
  | debugLockWrite : (s.input.n < 192) → Event s .debugLockWrite (writeLock s s.input.n s.input.v)
  | debugWindowWrite : (s.input.n < 192 ∧ s.input.k < 0x40000 ∧ 8 ∣ s.input.k)
      → Event s .debugWindowWrite (writeWindow s s.input.n s.input.k s.input.v)
  | moduleReset : Event s .moduleReset (startModule s s.input.flag)
  | clusterResume n (u : State) : (n = s.input.n ∧ n < 24 ∧ (getCluster s n).powered = false
        ∧ u = restartClock (updCluster ((coresOf n).foldl (fun x p => resumeCore x x.input p) s) n fun c =>
            { c with powered := true, grant := none }) n)
      → Event s .clusterResume (footRecord ((coresOf n).foldl (fun x p => refillFrames (reinject x p) p) u) 0x01 1 0 n)
  | compactionStep : Event s .compactionStep (compactOne s s.input.n)
  | ovflRead : (s.input.n < 128) → Event s .ovflRead (clearOvfl (answerRead s 0xE0 (0x2800 + 8 * s.input.n)) s.input.n)
  | ovcntRead : (s.input.n < 128) → Event s .ovcntRead (clearOvcnt (answerRead s 0xE0 (0x100008 + 32 * s.input.n)) s.input.n)
  | dinjRead : (s.input.n < 24) → Event s .dinjRead (clearDinj (answerRead s 0xE0 (0x1400 + 8 * s.input.n)) s.input.n)
  | strcntRead : (s.input.n < 24) → Event s .strcntRead (clearStrcnt (answerRead s 0xE0 (0x1600 + 8 * s.input.n)) s.input.n)
  | elostRead : Event s .elostRead { answerRead s 0xE0 0x3018 with elost := 0 }
  | deviceWritten : Event s .deviceWritten (wakeAll (cleanLine s s.input.n s.input.k) fun w => decide (w = .performed))
  | unassignedEncoding : Event s .unassignedEncoding (freeze s 0x01 0)
  | mxeGrant n p j r t u (v : State) x : (n = s.input.n ∧ (getCluster s n).grant = none ∧ clockStopped s n = false ∧ mxChoice s n = some (p, j, r)
        ∧ gateAll s j.job (0x210 + n) false [grantRecord j] = (.go, t)
        ∧ u = tilesGo (putAll t j.job (0x210 + n) [grantRecord j]) p j.job (mbTiles j.blk) 2 tileDraining
        ∧ x = readTile (getCore u p) j.blk
        ∧ v = updCore (updMx u p j.id fun q => { q with granted := true, c0 := x.1.map (accStart (fmtInt j.fmt) (mbAcm q.blk) q.decay), c0Psn := x.2 })
            p (fun c => if mbAmode j.blk = 2 then c else { c with heldA := none }))
      → Event s .mxeGrant (updCluster v n fun c =>
        if r = true then { c with
          grant := some (p, j.id), lastFmt := some j.fmt
          taken := if c.round = p % 8 ∧ c.taken < mxWeight v j.job then c.taken + 1 else 1, round := p % 8 }
        else { c with grant := some (p, j.id), lastFmt := some j.fmt })
  | reductionComplete j c cols : (findJob s s.input.n = some j ∧ firstContribution s s.input.n = some c
        ∧ cols = c.tree.map (fun col => col.map fun lc => physOf s lc) ∧ (∀ col ∈ cols, ∀ p ∈ col, (oldestOf s j.id p).isSome = true ∧ clockStands s p = false))
      → Event s .reductionComplete (completeReduction s j.id (cols.map fun col => col.filterMap fun p => (oldestOf s j.id p).map fun c => (p, c)))

end Sys2Proof.Spec

/-- R158, R163, R168, R172, R182, R191, R203, R217, R230, R419, R470, R476: EVENTS COMPLETE: where the conditions listed in Spec.Event hold,
an event ends in the next state that the operation of its rule leaves. The writes of the command arbiter, which are scanStart, scanStop,
jobRegister, jobDelete, invalStart, gateWrite, gclWrite, pairAsActive, pairAsStandby, pairSwitchOver, pairUnpair, attestRequest,
clkctlWrite and plumbSet, take the next number and are carried out, in order (R158). Nothing is said of an event whose conditions do not
hold. memoryRequestArrive, feRequestArrive, barrierArrival, pairHandshake, pairFlitArrive, attestComplete, energyUpdate, gateCounterRead and
registerWrite are not in the list, and some events are in it only in part, as thermalSample without samples, ratioChangeDone of a change
that is not tried again, heartbeatPeriodEnd with a beat, droopLimit below the fourth window and stretchWindowEnd without a droop: their other
cases are stated with their units. -/
def Obligations.EventsComplete : Prop :=
  ∀ (s : State) (i : Instr) (t : State), Event s i t → exec i s = .next t

/-- R35, R37, R38, R345, R346, R347, R34, R348: Task instructions and LAUNCH: Spec.TaskInstructions, Spec.LaunchInstruction. -/
def Obligations.TasksAndLaunches : Prop := Sys2Proof.Spec.TaskInstructions ∧ Sys2Proof.Spec.LaunchInstruction

/-- R190, R191, R193, R367, R369, R370: Transfer commands and ring instructions: Spec.TransferCommands, Spec.RingInstructions. -/
def Obligations.TransfersAndRings : Prop := Sys2Proof.Spec.TransferCommands ∧ Sys2Proof.Spec.RingInstructions

/-- R180, R182, R361, R363, R365: Matrix jobs, their table and their drain: Spec.MatrixJobs, Spec.MatrixTableAndDrain. -/
def Obligations.MatrixInstructions : Prop := Sys2Proof.Spec.MatrixJobs ∧ Sys2Proof.Spec.MatrixTableAndDrain

/-- R218, R220, R221: Scan-core instructions: Spec.ScanCoreBase, Spec.ScanCoreCustom. -/
def Obligations.ScanCores : Prop := Sys2Proof.Spec.ScanCoreBase ∧ Sys2Proof.Spec.ScanCoreCustom

/-- R42, R349, R348: Dependence counters and launch frames at their core: Spec.DependenceCounters, Spec.LaunchFrames. -/
def Obligations.GraphFrames : Prop := Sys2Proof.Spec.DependenceCounters ∧ Sys2Proof.Spec.LaunchFrames

/-- R32, R39, R40, R41, R51, R64, R105, R148: Slots taking work, reuse clocks and reset notices: Spec.TakingWork, Spec.ReportsAndNotices. -/
def Obligations.WorkAndReports : Prop := Sys2Proof.Spec.TakingWork ∧ Sys2Proof.Spec.ReportsAndNotices

/-- R158, R27, R28, R163, R171, R215: The scan: starts, stops, boundaries, latches and budgets: Spec.ScanControl, Spec.ScanBoundaries. -/
def Obligations.Scanning : Prop := Sys2Proof.Spec.ScanControl ∧ Sys2Proof.Spec.ScanBoundaries

/-- R159, R160, R168, R169: Registration of jobs and the start of cards: Spec.JobCommands, Spec.JobCards. -/
def Obligations.JobsAndCards : Prop := Sys2Proof.Spec.JobCommands ∧ Sys2Proof.Spec.JobCards

/-- R100, R158, R211, R212, R226, R228, R229, R236, R101, R102, R106: Writes through the command arbiter, quotas and the LPCT:
Spec.ArbiterCommands, Spec.QuotasAndRemaps. -/
def Obligations.ControlRegisters : Prop := Sys2Proof.Spec.ArbiterCommands ∧ Sys2Proof.Spec.QuotasAndRemaps

/-- R195, R377, R473, R196, R203, R474: Across-core reductions and the vision engines: Spec.Reductions, Spec.VisionEngines. -/
def Obligations.ReductionsAndVision : Prop := Sys2Proof.Spec.Reductions ∧ Sys2Proof.Spec.VisionEngines

/-- R210, R212, R213, R215, R217, R223, R211, R216: Frames in and out: Spec.Ingress, Spec.Outputs. -/
def Obligations.PlantFrames : Prop := Sys2Proof.Spec.Ingress ∧ Sys2Proof.Spec.Outputs

/-- R230, R231, R241, R481, R232, R479, R480: Operating points and droop: Spec.OperatingPoints, Spec.Droop. -/
def Obligations.ClocksAndDroop : Prop := Sys2Proof.Spec.OperatingPoints ∧ Sys2Proof.Spec.Droop

/-- R38, R150, R213, R226, R229, R418, R419, R429, R479: The error ring, and registers that clear on read: Spec.ErrorRing,
Spec.CountersClearOnRead. -/
def Obligations.ErrorRecords : Prop := Sys2Proof.Spec.ErrorRing ∧ Sys2Proof.Spec.CountersClearOnRead

/-- R425, R426, R449, R454, R455, R476: Heartbeats, captures, error counts and patrol scrub: Spec.Heartbeats, Spec.ScrubbingAndCounts. -/
def Obligations.HeartbeatsAndScrubbing : Prop := Sys2Proof.Spec.Heartbeats ∧ Sys2Proof.Spec.ScrubbingAndCounts

/-- R110, R111, R425, R449, R450, R459, R460: The fault collector and the retirement of memory blocks: Spec.FaultCollector, Spec.Retirement. -/
def Obligations.CollectorAndRetirement : Prop := Sys2Proof.Spec.FaultCollector ∧ Sys2Proof.Spec.Retirement

/-- R134, R138, R145, R147, R227, R418, R427, R428, R483, R484, R486: Module reset, loss of power and cluster resume: Spec.ModuleResets,
Spec.ClusterPower. -/
def Obligations.ResetAndPower : Prop := Sys2Proof.Spec.ModuleResets ∧ Sys2Proof.Spec.ClusterPower

/-- R38, R403, R404, R406, R407, R408, R409, R422, R423: The debug window and its commands: Spec.DebugWindow, Spec.DebugCommands. -/
def Obligations.SupervisorDebug : Prop := Sys2Proof.Spec.DebugWindow ∧ Sys2Proof.Spec.DebugCommands

/-- R296, R297, R437, R302, R303, R304: Accesses of several parts, fences and prefetch: Spec.SeveralPartAccesses, Spec.FencesAndPrefetch. -/
def Obligations.FencesAndParts : Prop := Sys2Proof.Spec.SeveralPartAccesses ∧ Sys2Proof.Spec.FencesAndPrefetch

/-- R87, R287, R293, R294, R296, R112, R115, R193, R297, R298, R299, R300, R301, R312, R313, R345, R346, R347, R369, R370: Loads, stores and
atomic operations on a local store: Spec.LocalLoads, Spec.LocalStoreActs. -/
def Obligations.LocalStore : Prop := Sys2Proof.Spec.LocalLoads ∧ Sys2Proof.Spec.LocalStoreActs
end

