-- ==== Sys2Proof/Laws/Maps.lean ====
section
/-! SUPPORT. Laws of the sparse tables and of the byte memories: read after write, and the canonical form. -/

namespace Sys2Proof.Machine

@[simp] theorem mget_nil {α : Type} (k : Nat) : mget ([] : Map α) k = none := rfl

@[simp] theorem mget_mset_same {α : Type} (m : Map α) (k : Nat) (v : α) : mget (mset m k v) k = some v := by
  induction m with
  | nil => simp [mset, mget]
  | cons e r ih =>
    obtain ⟨a, x⟩ := e
    simp only [mset]
    split
    · simp [mget]
    · split
      · simp [mget]
      · simp_all [mget]

theorem mget_mset_ne {α : Type} (m : Map α) (k j : Nat) (v : α) (h : j ≠ k) : mget (mset m k v) j = mget m j := by
  induction m with
  | nil => simp [mset, mget, Ne.symm h]
  | cons e r ih =>
    obtain ⟨a, x⟩ := e
    simp only [mset]
    split
    · simp [mget, Ne.symm h]
    · split
      · rename_i h2; subst h2; simp [mget, Ne.symm h]
      · simp [mget, ih]

theorem mget_mset {α : Type} (m : Map α) (k j : Nat) (v : α) : mget (mset m k v) j = if j = k then some v else mget m j := by
  split
  · rename_i h; subst h; exact mget_mset_same m j v
  · rename_i h; exact mget_mset_ne m k j v h

theorem mget_merase_same {α : Type} (m : Map α) (k : Nat) : mget (merase m k) k = none := by
  induction m with
  | nil => rfl
  | cons e r ih =>
    obtain ⟨a, x⟩ := e
    simp only [merase]
    split
    · exact ih
    · simp_all [mget]

theorem mget_merase_ne {α : Type} (m : Map α) (k j : Nat) (h : j ≠ k) : mget (merase m k) j = mget m j := by
  induction m with
  | nil => rfl
  | cons e r ih =>
    obtain ⟨a, x⟩ := e
    simp only [merase]
    split
    · rename_i h2; subst h2; simp [mget, Ne.symm h, ih]
    · simp [mget, ih]

/-! ### Byte memories -/

theorem memAbove_weaken {lo : Nat} {m : List Host.Cell} (h : memAbove (some lo) m = true) : memAbove none m = true := by
  cases m with
  | nil => rfl
  | cons e r => obtain ⟨a, x⟩ := e; simp_all [memAbove]

theorem memAbove_mono {lo hi : Nat} {m : List Host.Cell} (h : memAbove (some hi) m = true) (l : lo ≤ hi) :
    memAbove (some lo) m = true := by
  cases m with
  | nil => rfl
  | cons e r =>
    obtain ⟨a, x⟩ := e
    simp only [memAbove, Bool.and_eq_true, decide_eq_true_eq] at h ⊢
    exact ⟨⟨Nat.lt_of_le_of_lt l h.1.1, h.1.2⟩, h.2⟩

/-- Below its first address a memory in canonical form reads as unlisted. -/
theorem memByte_below {lo : Nat} {m : List Host.Cell} (h : memAbove (some lo) m = true) {k : Nat} (hk : k ≤ lo) :
    memByte m k = unlisted := by
  cases m with
  | nil => rfl
  | cons e r =>
    obtain ⟨a, x⟩ := e
    simp only [memAbove, Bool.and_eq_true, decide_eq_true_eq] at h
    simp only [memByte]
    rw [if_neg (by omega), if_pos (by omega)]

theorem memSet_above {lo : Option Nat} {m : List Host.Cell} {k : Nat} {v : Byte} (h : memAbove lo m = true)
    (hk : ∀ l, lo = some l → l < k) : memAbove lo (memSet m k v) = true := by
  induction m generalizing lo with
  | nil =>
    simp only [memSet]
    split
    · rfl
    · rename_i hv
      cases lo with
      | none => simp [memAbove, hv]
      | some l => simp [memAbove, hv, hk l rfl]
  | cons e r ih =>
    obtain ⟨a, x⟩ := e
    simp only [memAbove, Bool.and_eq_true, decide_eq_true_eq] at h
    simp only [memSet]
    split
    · rename_i hka
      split
      · simpa [memAbove] using h
      · rename_i hv
        simp only [memAbove, Bool.and_eq_true, decide_eq_true_eq]
        refine ⟨⟨?_, hv⟩, ⟨hka, h.1.2⟩, h.2⟩
        cases lo with
        | none => rfl
        | some l => simp [hk l rfl]
    · split
      · rename_i hak
        subst hak
        split
        · cases lo with
          | none => exact memAbove_weaken h.2
          | some l => exact memAbove_mono h.2 (Nat.le_of_lt (by simpa using h.1.1))
        · rename_i hv
          simp only [memAbove, Bool.and_eq_true, decide_eq_true_eq]
          exact ⟨⟨h.1.1, hv⟩, h.2⟩
      · simp only [memAbove, Bool.and_eq_true, decide_eq_true_eq]
        refine ⟨h.1, ih h.2 ?_⟩
        intro l hl
        simp only [Option.some.injEq] at hl
        omega

/-- Storing a byte keeps the canonical form. -/
theorem memSet_wf {m : List Host.Cell} (h : Memory.wf m) (k : Nat) (v : Byte) : Memory.wf (memSet m k v) :=
  memSet_above h (by simp)

/-- Storing bytes keeps the canonical form. -/
theorem memStore_wf {m : List Host.Cell} (h : Memory.wf m) (a : Nat) (bs : List Byte) : Memory.wf (memStore m a bs) := by
  induction bs generalizing m a with
  | nil => exact h
  | cons b r ih => exact ih (memSet_wf h a b) (a + 1)

theorem memByte_memSet_above {lo : Option Nat} {m : List Host.Cell} (h : memAbove lo m = true) (k : Nat) (v : Byte)
    (j : Nat) : memByte (memSet m k v) j = if j = k then v else memByte m j := by
  induction m generalizing lo with
  | nil =>
    simp only [memSet]
    split
    · rename_i hv; simp [memByte, hv]
    · simp only [memByte]
      by_cases hj : j = k
      · simp [hj]
      · rw [if_neg (fun h => hj h.symm), if_neg hj]; split <;> rfl
  | cons e r ih =>
    obtain ⟨a, x⟩ := e
    simp only [memAbove, Bool.and_eq_true, decide_eq_true_eq] at h
    simp only [memSet]
    split
    · rename_i hka
      split
      · rename_i hv
        by_cases hj : j = k
        · subst hj; simp only [memByte]; rw [if_neg (by omega), if_pos hka]; simp [hv]
        · simp [hj]
      · simp only [memByte]
        by_cases hj : j = k
        · simp [hj]
        · rw [if_neg (fun h => hj h.symm), if_neg hj]
          by_cases hjk : j < k
          · rw [if_pos hjk, if_neg (by omega), if_pos (by omega)]
          · rw [if_neg hjk]
    · split
      · rename_i hka hak
        subst hak
        split
        · rename_i hv
          by_cases hj : j = a
          · subst hj; rw [if_pos rfl, hv]; exact memByte_below h.2 (Nat.le_refl _)
          · rw [if_neg hj]; simp only [memByte]; rw [if_neg (fun h => hj h.symm)]
            by_cases hlt : j < a
            · rw [if_pos hlt]; exact memByte_below h.2 (Nat.le_of_lt hlt)
            · rw [if_neg hlt]
        · simp only [memByte]
          by_cases hj : j = a
          · simp [hj]
          · simp [hj, Ne.symm hj]
      · rename_i hka hak
        simp only [memByte]
        by_cases hja : a = j
        · subst hja; rw [if_pos rfl, if_neg (by omega), if_pos rfl]
        · rw [if_neg hja, if_neg hja]
          by_cases hlt : j < a
          · rw [if_pos hlt, if_pos hlt, if_neg (by omega)]
          · rw [if_neg hlt, if_neg hlt]; exact ih h.2

/-- READ AFTER WRITE of one byte, and every other byte alone. -/
theorem memByte_memSet {m : List Host.Cell} (h : Memory.wf m) (k : Nat) (v : Byte) (j : Nat) :
    memByte (memSet m k v) j = if j = k then v else memByte m j := memByte_memSet_above h k v j

/-- READ AFTER WRITE of bytes: inside, the stored byte; outside, what was there. -/
theorem memByte_memStore {m : List Host.Cell} (h : Memory.wf m) (a : Nat) (bs : List Byte) (j : Nat) :
    memByte (memStore m a bs) j = if a ≤ j ∧ j < a + bs.length then bs.getD (j - a) 0 else memByte m j := by
  induction bs generalizing m a with
  | nil => rw [if_neg (by simp only [List.length_nil]; omega)]; rfl
  | cons b r ih =>
    simp only [memStore, List.length_cons]
    rw [ih (memSet_wf h a b) (a + 1)]
    by_cases hj : j = a
    · subst hj
      rw [if_neg (by omega), if_pos (by omega), memByte_memSet h, if_pos rfl]
      simp
    · by_cases hin : a + 1 ≤ j ∧ j < a + 1 + r.length
      · rw [if_pos hin, if_pos (by omega)]
        have : j - a = (j - (a + 1)) + 1 := by omega
        rw [this, List.getD_cons_succ]
      · rw [if_neg hin, if_neg (by omega), memByte_memSet h, if_neg hj]

@[simp] theorem memBytes_length (m : List Host.Cell) (a n : Nat) : (memBytes m a n).length = n := by
  induction n generalizing a with
  | zero => rfl
  | succ n ih => simp [memBytes, ih]

@[simp] theorem natBytes_length (n x : Nat) : (natBytes n x).length = n := by
  induction n generalizing x with
  | zero => rfl
  | succ n ih => simp [natBytes, ih]

/-- The number that the bytes of a number hold, modulo their range. -/
theorem leNat_natBytes (n x : Nat) : leNat (natBytes n x) = x % 256 ^ n := by
  induction n generalizing x with
  | zero => simp [natBytes, leNat, Nat.mod_one]
  | succ n ih =>
    have h : x % 256 ^ (n + 1) = x % 256 + 256 * (x / 256 % 256 ^ n) := by
      rw [Nat.pow_succ, Nat.mul_comm (256 ^ n) 256, Nat.mod_mul]
    rw [h]
    simp only [natBytes, leNat, ih, BitVec.toNat_ofNat]
    rw [Nat.mod_mod_of_dvd x ⟨1, by decide⟩]

end Sys2Proof.Machine
end

