-- ==== Sys2Proof/Laws/State.lean ====
section
/-! SUPPORT. What each named update of the state leaves as it was: one lemma for each field, true by definition. -/

namespace Sys2Proof.Machine

/-! ### setCore -/

@[simp] theorem setCore_clusters (s : State) (p : Nat) (c : PCore) : (setCore s p c).clusters = s.clusters := rfl
@[simp] theorem setCore_nodes (s : State) (p : Nat) (c : PCore) : (setCore s p c).nodes = s.nodes := rfl
@[simp] theorem setCore_mem (s : State) (p : Nat) (c : PCore) : (setCore s p c).mem = s.mem := rfl
@[simp] theorem setCore_memPoison (s : State) (p : Nat) (c : PCore) : (setCore s p c).memPoison = s.memPoison := rfl
@[simp] theorem setCore_memEcc (s : State) (p : Nat) (c : PCore) : (setCore s p c).memEcc = s.memEcc := rfl
@[simp] theorem setCore_durable (s : State) (p : Nat) (c : PCore) : (setCore s p c).durable = s.durable := rfl
@[simp] theorem setCore_durablePoison (s : State) (p : Nat) (c : PCore) : (setCore s p c).durablePoison = s.durablePoison := rfl
@[simp] theorem setCore_footAccept (s : State) (p : Nat) (c : PCore) : (setCore s p c).footAccept = s.footAccept := rfl
@[simp] theorem setCore_hodAccept (s : State) (p : Nat) (c : PCore) : (setCore s p c).hodAccept = s.hodAccept := rfl
@[simp] theorem setCore_regAccept (s : State) (p : Nat) (c : PCore) : (setCore s p c).regAccept = s.regAccept := rfl
@[simp] theorem setCore_coreTlb (s : State) (p : Nat) (c : PCore) : (setCore s p c).coreTlb = s.coreTlb := rfl
@[simp] theorem setCore_net (s : State) (p : Nat) (c : PCore) : (setCore s p c).net = s.net := rfl
@[simp] theorem setCore_heldMsgs (s : State) (p : Nat) (c : PCore) : (setCore s p c).heldMsgs = s.heldMsgs := rfl
@[simp] theorem setCore_nextTag (s : State) (p : Nat) (c : PCore) : (setCore s p c).nextTag = s.nextTag := rfl
@[simp] theorem setCore_lpct (s : State) (p : Nat) (c : PCore) : (setCore s p c).lpct = s.lpct := rfl
@[simp] theorem setCore_class1 (s : State) (p : Nat) (c : PCore) : (setCore s p c).class1 = s.class1 := rfl
@[simp] theorem setCore_remaps (s : State) (p : Nat) (c : PCore) : (setCore s p c).remaps = s.remaps := rfl
@[simp] theorem setCore_migrations (s : State) (p : Nat) (c : PCore) : (setCore s p c).migrations = s.migrations := rfl
@[simp] theorem setCore_jobs (s : State) (p : Nat) (c : PCore) : (setCore s p c).jobs = s.jobs := rfl
@[simp] theorem setCore_jobRegResult (s : State) (p : Nat) (c : PCore) : (setCore s p c).jobRegResult = s.jobRegResult := rfl
@[simp] theorem setCore_arbSeq (s : State) (p : Nat) (c : PCore) : (setCore s p c).arbSeq = s.arbSeq := rfl
@[simp] theorem setCore_quotas (s : State) (p : Nat) (c : PCore) : (setCore s p c).quotas = s.quotas := rfl
@[simp] theorem setCore_mortars (s : State) (p : Nat) (c : PCore) : (setCore s p c).mortars = s.mortars := rfl
@[simp] theorem setCore_meters (s : State) (p : Nat) (c : PCore) : (setCore s p c).meters = s.meters := rfl
@[simp] theorem setCore_ovfl (s : State) (p : Nat) (c : PCore) : (setCore s p c).ovfl = s.ovfl := rfl
@[simp] theorem setCore_graphs (s : State) (p : Nat) (c : PCore) : (setCore s p c).graphs = s.graphs := rfl
@[simp] theorem setCore_nextInst (s : State) (p : Nat) (c : PCore) : (setCore s p c).nextInst = s.nextInst := rfl
@[simp] theorem setCore_nextGen (s : State) (p : Nat) (c : PCore) : (setCore s p c).nextGen = s.nextGen := rfl
@[simp] theorem setCore_switches (s : State) (p : Nat) (c : PCore) : (setCore s p c).switches = s.switches := rfl
@[simp] theorem setCore_nextOrder (s : State) (p : Nat) (c : PCore) : (setCore s p c).nextOrder = s.nextOrder := rfl
@[simp] theorem setCore_run (s : State) (p : Nat) (c : PCore) : (setCore s p c).run = s.run := rfl
@[simp] theorem setCore_runErr (s : State) (p : Nat) (c : PCore) : (setCore s p c).runErr = s.runErr := rfl
@[simp] theorem setCore_period (s : State) (p : Nat) (c : PCore) : (setCore s p c).period = s.period := rfl
@[simp] theorem setCore_start (s : State) (p : Nat) (c : PCore) : (setCore s p c).start = s.start := rfl
@[simp] theorem setCore_stamp (s : State) (p : Nat) (c : PCore) : (setCore s p c).stamp = s.stamp := rfl
@[simp] theorem setCore_stamp0 (s : State) (p : Nat) (c : PCore) : (setCore s p c).stamp0 = s.stamp0 := rfl
@[simp] theorem setCore_stopPending (s : State) (p : Nat) (c : PCore) : (setCore s p c).stopPending = s.stopPending := rfl
@[simp] theorem setCore_scans (s : State) (p : Nat) (c : PCore) : (setCore s p c).scans = s.scans := rfl
@[simp] theorem setCore_plumb (s : State) (p : Nat) (c : PCore) : (setCore s p c).plumb = s.plumb := rfl
@[simp] theorem setCore_inva (s : State) (p : Nat) (c : PCore) : (setCore s p c).inva = s.inva := rfl
@[simp] theorem setCore_invc (s : State) (p : Nat) (c : PCore) : (setCore s p c).invc = s.invc := rfl
@[simp] theorem setCore_invBusy (s : State) (p : Nat) (c : PCore) : (setCore s p c).invBusy = s.invBusy := rfl
@[simp] theorem setCore_invDone (s : State) (p : Nat) (c : PCore) : (setCore s p c).invDone = s.invDone := rfl
@[simp] theorem setCore_invSeq (s : State) (p : Nat) (c : PCore) : (setCore s p c).invSeq = s.invSeq := rfl
@[simp] theorem setCore_arbWait (s : State) (p : Nat) (c : PCore) : (setCore s p c).arbWait = s.arbWait := rfl
@[simp] theorem setCore_faultRecs (s : State) (p : Nat) (c : PCore) : (setCore s p c).faultRecs = s.faultRecs := rfl
@[simp] theorem setCore_refusedNotices (s : State) (p : Nat) (c : PCore) : (setCore s p c).refusedNotices = s.refusedNotices := rfl
@[simp] theorem setCore_collectorFull (s : State) (p : Nat) (c : PCore) : (setCore s p c).collectorFull = s.collectorFull := rfl
@[simp] theorem setCore_feivl (s : State) (p : Nat) (c : PCore) : (setCore s p c).feivl = s.feivl := rfl
@[simp] theorem setCore_felim (s : State) (p : Nat) (c : PCore) : (setCore s p c).felim = s.felim := rfl
@[simp] theorem setCore_errRing (s : State) (p : Nat) (c : PCore) : (setCore s p c).errRing = s.errRing := rfl
@[simp] theorem setCore_ewp (s : State) (p : Nat) (c : PCore) : (setCore s p c).ewp = s.ewp := rfl
@[simp] theorem setCore_ehost (s : State) (p : Nat) (c : PCore) : (setCore s p c).ehost = s.ehost := rfl
@[simp] theorem setCore_emgt (s : State) (p : Nat) (c : PCore) : (setCore s p c).emgt = s.emgt := rfl
@[simp] theorem setCore_elost (s : State) (p : Nat) (c : PCore) : (setCore s p c).elost = s.elost := rfl
@[simp] theorem setCore_errQueue (s : State) (p : Nat) (c : PCore) : (setCore s p c).errQueue = s.errQueue := rfl
@[simp] theorem setCore_pcieUp (s : State) (p : Nat) (c : PCore) : (setCore s p c).pcieUp = s.pcieUp := rfl
@[simp] theorem setCore_transients (s : State) (p : Nat) (c : PCore) : (setCore s p c).transients = s.transients := rfl
@[simp] theorem setCore_hbper (s : State) (p : Nat) (c : PCore) : (setCore s p c).hbper = s.hbper := rfl
@[simp] theorem setCore_capto (s : State) (p : Nat) (c : PCore) : (setCore s p c).capto = s.capto := rfl
@[simp] theorem setCore_bootJournal (s : State) (p : Nat) (c : PCore) : (setCore s p c).bootJournal = s.bootJournal := rfl
@[simp] theorem setCore_starts (s : State) (p : Nat) (c : PCore) : (setCore s p c).starts = s.starts := rfl
@[simp] theorem setCore_bootFailed (s : State) (p : Nat) (c : PCore) : (setCore s p c).bootFailed = s.bootFailed := rfl
@[simp] theorem setCore_imagesOff (s : State) (p : Nat) (c : PCore) : (setCore s p c).imagesOff = s.imagesOff := rfl
@[simp] theorem setCore_invAt (s : State) (p : Nat) (c : PCore) : (setCore s p c).invAt = s.invAt := rfl
@[simp] theorem setCore_mgmtOff (s : State) (p : Nat) (c : PCore) : (setCore s p c).mgmtOff = s.mgmtOff := rfl
@[simp] theorem setCore_keyRevoked (s : State) (p : Nat) (c : PCore) : (setCore s p c).keyRevoked = s.keyRevoked := rfl
@[simp] theorem setCore_imageMin (s : State) (p : Nat) (c : PCore) : (setCore s p c).imageMin = s.imageMin := rfl
@[simp] theorem setCore_latchHeld (s : State) (p : Nat) (c : PCore) : (setCore s p c).latchHeld = s.latchHeld := rfl
@[simp] theorem setCore_pairChk (s : State) (p : Nat) (c : PCore) : (setCore s p c).pairChk = s.pairChk := rfl
@[simp] theorem setCore_pair (s : State) (p : Nat) (c : PCore) : (setCore s p c).pair = s.pair := rfl
@[simp] theorem setCore_image (s : State) (p : Nat) (c : PCore) : (setCore s p c).image = s.image := rfl
@[simp] theorem setCore_imagePoison (s : State) (p : Nat) (c : PCore) : (setCore s p c).imagePoison = s.imagePoison := rfl
@[simp] theorem setCore_latching (s : State) (p : Nat) (c : PCore) : (setCore s p c).latching = s.latching := rfl
@[simp] theorem setCore_latches (s : State) (p : Nat) (c : PCore) : (setCore s p c).latches = s.latches := rfl
@[simp] theorem setCore_staged (s : State) (p : Nat) (c : PCore) : (setCore s p c).staged = s.staged := rfl
@[simp] theorem setCore_gates (s : State) (p : Nat) (c : PCore) : (setCore s p c).gates = s.gates := rfl
@[simp] theorem setCore_ports (s : State) (p : Nat) (c : PCore) : (setCore s p c).ports = s.ports := rfl
@[simp] theorem setCore_visionQ (s : State) (p : Nat) (c : PCore) : (setCore s p c).visionQ = s.visionQ := rfl
@[simp] theorem setCore_engines (s : State) (p : Nat) (c : PCore) : (setCore s p c).engines = s.engines := rfl
@[simp] theorem setCore_vbuf (s : State) (p : Nat) (c : PCore) : (setCore s p c).vbuf = s.vbuf := rfl
@[simp] theorem setCore_vbufPoison (s : State) (p : Nat) (c : PCore) : (setCore s p c).vbufPoison = s.vbufPoison := rfl
@[simp] theorem setCore_harts (s : State) (p : Nat) (c : PCore) : (setCore s p c).harts = s.harts := rfl
@[simp] theorem setCore_anonce (s : State) (p : Nat) (c : PCore) : (setCore s p c).anonce = s.anonce := rfl
@[simp] theorem setCore_attBusy (s : State) (p : Nat) (c : PCore) : (setCore s p c).attBusy = s.attBusy := rfl
@[simp] theorem setCore_attNonce (s : State) (p : Nat) (c : PCore) : (setCore s p c).attNonce = s.attNonce := rfl
@[simp] theorem setCore_attSeq (s : State) (p : Nat) (c : PCore) : (setCore s p c).attSeq = s.attSeq := rfl
@[simp] theorem setCore_attCur (s : State) (p : Nat) (c : PCore) : (setCore s p c).attCur = s.attCur := rfl
@[simp] theorem setCore_areport (s : State) (p : Nat) (c : PCore) : (setCore s p c).areport = s.areport := rfl
@[simp] theorem setCore_devId (s : State) (p : Nat) (c : PCore) : (setCore s p c).devId = s.devId := rfl
@[simp] theorem setCore_activity (s : State) (p : Nat) (c : PCore) : (setCore s p c).activity = s.activity := rfl
@[simp] theorem setCore_sent (s : State) (p : Nat) (c : PCore) : (setCore s p c).sent = s.sent := rfl
@[simp] theorem setCore_agenda (s : State) (p : Nat) (c : PCore) : (setCore s p c).agenda = s.agenda := rfl
@[simp] theorem setCore_input (s : State) (p : Nat) (c : PCore) : (setCore s p c).input = s.input := rfl
@[simp] theorem setCore_draws (s : State) (p : Nat) (c : PCore) : (setCore s p c).draws = s.draws := rfl
@[simp] theorem setCore_who (s : State) (p : Nat) (c : PCore) : (setCore s p c).who = s.who := rfl
@[simp] theorem setCore_hartId (s : State) (p : Nat) (c : PCore) : (setCore s p c).hartId = s.hartId := rfl
@[simp] theorem setCore_word (s : State) (p : Nat) (c : PCore) : (setCore s p c).word = s.word := rfl
@[simp] theorem setCore_dropped (s : State) (p : Nat) (c : PCore) : (setCore s p c).dropped = s.dropped := rfl
@[simp] theorem setCore_keyHashes (s : State) (p : Nat) (c : PCore) : (setCore s p c).keyHashes = s.keyHashes := rfl
@[simp] theorem setCore_imageCorrected (s : State) (p : Nat) (c : PCore) : (setCore s p c).imageCorrected = s.imageCorrected := rfl
@[simp] theorem setCore_imageDigests (s : State) (p : Nat) (c : PCore) : (setCore s p c).imageDigests = s.imageDigests := rfl

/-! ### updCore -/

@[simp] theorem updCore_clusters (s : State) (p : Nat) (f : PCore → PCore) : (updCore s p f).clusters = s.clusters := rfl
@[simp] theorem updCore_nodes (s : State) (p : Nat) (f : PCore → PCore) : (updCore s p f).nodes = s.nodes := rfl
@[simp] theorem updCore_mem (s : State) (p : Nat) (f : PCore → PCore) : (updCore s p f).mem = s.mem := rfl
@[simp] theorem updCore_memPoison (s : State) (p : Nat) (f : PCore → PCore) : (updCore s p f).memPoison = s.memPoison := rfl
@[simp] theorem updCore_memEcc (s : State) (p : Nat) (f : PCore → PCore) : (updCore s p f).memEcc = s.memEcc := rfl
@[simp] theorem updCore_durable (s : State) (p : Nat) (f : PCore → PCore) : (updCore s p f).durable = s.durable := rfl
@[simp] theorem updCore_durablePoison (s : State) (p : Nat) (f : PCore → PCore) : (updCore s p f).durablePoison = s.durablePoison := rfl
@[simp] theorem updCore_footAccept (s : State) (p : Nat) (f : PCore → PCore) : (updCore s p f).footAccept = s.footAccept := rfl
@[simp] theorem updCore_hodAccept (s : State) (p : Nat) (f : PCore → PCore) : (updCore s p f).hodAccept = s.hodAccept := rfl
@[simp] theorem updCore_regAccept (s : State) (p : Nat) (f : PCore → PCore) : (updCore s p f).regAccept = s.regAccept := rfl
@[simp] theorem updCore_coreTlb (s : State) (p : Nat) (f : PCore → PCore) : (updCore s p f).coreTlb = s.coreTlb := rfl
@[simp] theorem updCore_net (s : State) (p : Nat) (f : PCore → PCore) : (updCore s p f).net = s.net := rfl
@[simp] theorem updCore_heldMsgs (s : State) (p : Nat) (f : PCore → PCore) : (updCore s p f).heldMsgs = s.heldMsgs := rfl
@[simp] theorem updCore_nextTag (s : State) (p : Nat) (f : PCore → PCore) : (updCore s p f).nextTag = s.nextTag := rfl
@[simp] theorem updCore_lpct (s : State) (p : Nat) (f : PCore → PCore) : (updCore s p f).lpct = s.lpct := rfl
@[simp] theorem updCore_class1 (s : State) (p : Nat) (f : PCore → PCore) : (updCore s p f).class1 = s.class1 := rfl
@[simp] theorem updCore_remaps (s : State) (p : Nat) (f : PCore → PCore) : (updCore s p f).remaps = s.remaps := rfl
@[simp] theorem updCore_migrations (s : State) (p : Nat) (f : PCore → PCore) : (updCore s p f).migrations = s.migrations := rfl
@[simp] theorem updCore_jobs (s : State) (p : Nat) (f : PCore → PCore) : (updCore s p f).jobs = s.jobs := rfl
@[simp] theorem updCore_jobRegResult (s : State) (p : Nat) (f : PCore → PCore) : (updCore s p f).jobRegResult = s.jobRegResult := rfl
@[simp] theorem updCore_arbSeq (s : State) (p : Nat) (f : PCore → PCore) : (updCore s p f).arbSeq = s.arbSeq := rfl
@[simp] theorem updCore_quotas (s : State) (p : Nat) (f : PCore → PCore) : (updCore s p f).quotas = s.quotas := rfl
@[simp] theorem updCore_mortars (s : State) (p : Nat) (f : PCore → PCore) : (updCore s p f).mortars = s.mortars := rfl
@[simp] theorem updCore_meters (s : State) (p : Nat) (f : PCore → PCore) : (updCore s p f).meters = s.meters := rfl
@[simp] theorem updCore_ovfl (s : State) (p : Nat) (f : PCore → PCore) : (updCore s p f).ovfl = s.ovfl := rfl
@[simp] theorem updCore_graphs (s : State) (p : Nat) (f : PCore → PCore) : (updCore s p f).graphs = s.graphs := rfl
@[simp] theorem updCore_nextInst (s : State) (p : Nat) (f : PCore → PCore) : (updCore s p f).nextInst = s.nextInst := rfl
@[simp] theorem updCore_nextGen (s : State) (p : Nat) (f : PCore → PCore) : (updCore s p f).nextGen = s.nextGen := rfl
@[simp] theorem updCore_switches (s : State) (p : Nat) (f : PCore → PCore) : (updCore s p f).switches = s.switches := rfl
@[simp] theorem updCore_nextOrder (s : State) (p : Nat) (f : PCore → PCore) : (updCore s p f).nextOrder = s.nextOrder := rfl
@[simp] theorem updCore_run (s : State) (p : Nat) (f : PCore → PCore) : (updCore s p f).run = s.run := rfl
@[simp] theorem updCore_runErr (s : State) (p : Nat) (f : PCore → PCore) : (updCore s p f).runErr = s.runErr := rfl
@[simp] theorem updCore_period (s : State) (p : Nat) (f : PCore → PCore) : (updCore s p f).period = s.period := rfl
@[simp] theorem updCore_start (s : State) (p : Nat) (f : PCore → PCore) : (updCore s p f).start = s.start := rfl
@[simp] theorem updCore_stamp (s : State) (p : Nat) (f : PCore → PCore) : (updCore s p f).stamp = s.stamp := rfl
@[simp] theorem updCore_stamp0 (s : State) (p : Nat) (f : PCore → PCore) : (updCore s p f).stamp0 = s.stamp0 := rfl
@[simp] theorem updCore_stopPending (s : State) (p : Nat) (f : PCore → PCore) : (updCore s p f).stopPending = s.stopPending := rfl
@[simp] theorem updCore_scans (s : State) (p : Nat) (f : PCore → PCore) : (updCore s p f).scans = s.scans := rfl
@[simp] theorem updCore_plumb (s : State) (p : Nat) (f : PCore → PCore) : (updCore s p f).plumb = s.plumb := rfl
@[simp] theorem updCore_inva (s : State) (p : Nat) (f : PCore → PCore) : (updCore s p f).inva = s.inva := rfl
@[simp] theorem updCore_invc (s : State) (p : Nat) (f : PCore → PCore) : (updCore s p f).invc = s.invc := rfl
@[simp] theorem updCore_invBusy (s : State) (p : Nat) (f : PCore → PCore) : (updCore s p f).invBusy = s.invBusy := rfl
@[simp] theorem updCore_invDone (s : State) (p : Nat) (f : PCore → PCore) : (updCore s p f).invDone = s.invDone := rfl
@[simp] theorem updCore_invSeq (s : State) (p : Nat) (f : PCore → PCore) : (updCore s p f).invSeq = s.invSeq := rfl
@[simp] theorem updCore_arbWait (s : State) (p : Nat) (f : PCore → PCore) : (updCore s p f).arbWait = s.arbWait := rfl
@[simp] theorem updCore_faultRecs (s : State) (p : Nat) (f : PCore → PCore) : (updCore s p f).faultRecs = s.faultRecs := rfl
@[simp] theorem updCore_refusedNotices (s : State) (p : Nat) (f : PCore → PCore) : (updCore s p f).refusedNotices = s.refusedNotices := rfl
@[simp] theorem updCore_collectorFull (s : State) (p : Nat) (f : PCore → PCore) : (updCore s p f).collectorFull = s.collectorFull := rfl
@[simp] theorem updCore_feivl (s : State) (p : Nat) (f : PCore → PCore) : (updCore s p f).feivl = s.feivl := rfl
@[simp] theorem updCore_felim (s : State) (p : Nat) (f : PCore → PCore) : (updCore s p f).felim = s.felim := rfl
@[simp] theorem updCore_errRing (s : State) (p : Nat) (f : PCore → PCore) : (updCore s p f).errRing = s.errRing := rfl
@[simp] theorem updCore_ewp (s : State) (p : Nat) (f : PCore → PCore) : (updCore s p f).ewp = s.ewp := rfl
@[simp] theorem updCore_ehost (s : State) (p : Nat) (f : PCore → PCore) : (updCore s p f).ehost = s.ehost := rfl
@[simp] theorem updCore_emgt (s : State) (p : Nat) (f : PCore → PCore) : (updCore s p f).emgt = s.emgt := rfl
@[simp] theorem updCore_elost (s : State) (p : Nat) (f : PCore → PCore) : (updCore s p f).elost = s.elost := rfl
@[simp] theorem updCore_errQueue (s : State) (p : Nat) (f : PCore → PCore) : (updCore s p f).errQueue = s.errQueue := rfl
@[simp] theorem updCore_pcieUp (s : State) (p : Nat) (f : PCore → PCore) : (updCore s p f).pcieUp = s.pcieUp := rfl
@[simp] theorem updCore_transients (s : State) (p : Nat) (f : PCore → PCore) : (updCore s p f).transients = s.transients := rfl
@[simp] theorem updCore_hbper (s : State) (p : Nat) (f : PCore → PCore) : (updCore s p f).hbper = s.hbper := rfl
@[simp] theorem updCore_capto (s : State) (p : Nat) (f : PCore → PCore) : (updCore s p f).capto = s.capto := rfl
@[simp] theorem updCore_bootJournal (s : State) (p : Nat) (f : PCore → PCore) : (updCore s p f).bootJournal = s.bootJournal := rfl
@[simp] theorem updCore_starts (s : State) (p : Nat) (f : PCore → PCore) : (updCore s p f).starts = s.starts := rfl
@[simp] theorem updCore_bootFailed (s : State) (p : Nat) (f : PCore → PCore) : (updCore s p f).bootFailed = s.bootFailed := rfl
@[simp] theorem updCore_imagesOff (s : State) (p : Nat) (f : PCore → PCore) : (updCore s p f).imagesOff = s.imagesOff := rfl
@[simp] theorem updCore_invAt (s : State) (p : Nat) (f : PCore → PCore) : (updCore s p f).invAt = s.invAt := rfl
@[simp] theorem updCore_mgmtOff (s : State) (p : Nat) (f : PCore → PCore) : (updCore s p f).mgmtOff = s.mgmtOff := rfl
@[simp] theorem updCore_keyRevoked (s : State) (p : Nat) (f : PCore → PCore) : (updCore s p f).keyRevoked = s.keyRevoked := rfl
@[simp] theorem updCore_imageMin (s : State) (p : Nat) (f : PCore → PCore) : (updCore s p f).imageMin = s.imageMin := rfl
@[simp] theorem updCore_latchHeld (s : State) (p : Nat) (f : PCore → PCore) : (updCore s p f).latchHeld = s.latchHeld := rfl
@[simp] theorem updCore_pairChk (s : State) (p : Nat) (f : PCore → PCore) : (updCore s p f).pairChk = s.pairChk := rfl
@[simp] theorem updCore_pair (s : State) (p : Nat) (f : PCore → PCore) : (updCore s p f).pair = s.pair := rfl
@[simp] theorem updCore_image (s : State) (p : Nat) (f : PCore → PCore) : (updCore s p f).image = s.image := rfl
@[simp] theorem updCore_imagePoison (s : State) (p : Nat) (f : PCore → PCore) : (updCore s p f).imagePoison = s.imagePoison := rfl
@[simp] theorem updCore_latching (s : State) (p : Nat) (f : PCore → PCore) : (updCore s p f).latching = s.latching := rfl
@[simp] theorem updCore_latches (s : State) (p : Nat) (f : PCore → PCore) : (updCore s p f).latches = s.latches := rfl
@[simp] theorem updCore_staged (s : State) (p : Nat) (f : PCore → PCore) : (updCore s p f).staged = s.staged := rfl
@[simp] theorem updCore_gates (s : State) (p : Nat) (f : PCore → PCore) : (updCore s p f).gates = s.gates := rfl
@[simp] theorem updCore_ports (s : State) (p : Nat) (f : PCore → PCore) : (updCore s p f).ports = s.ports := rfl
@[simp] theorem updCore_visionQ (s : State) (p : Nat) (f : PCore → PCore) : (updCore s p f).visionQ = s.visionQ := rfl
@[simp] theorem updCore_engines (s : State) (p : Nat) (f : PCore → PCore) : (updCore s p f).engines = s.engines := rfl
@[simp] theorem updCore_vbuf (s : State) (p : Nat) (f : PCore → PCore) : (updCore s p f).vbuf = s.vbuf := rfl
@[simp] theorem updCore_vbufPoison (s : State) (p : Nat) (f : PCore → PCore) : (updCore s p f).vbufPoison = s.vbufPoison := rfl
@[simp] theorem updCore_harts (s : State) (p : Nat) (f : PCore → PCore) : (updCore s p f).harts = s.harts := rfl
@[simp] theorem updCore_anonce (s : State) (p : Nat) (f : PCore → PCore) : (updCore s p f).anonce = s.anonce := rfl
@[simp] theorem updCore_attBusy (s : State) (p : Nat) (f : PCore → PCore) : (updCore s p f).attBusy = s.attBusy := rfl
@[simp] theorem updCore_attNonce (s : State) (p : Nat) (f : PCore → PCore) : (updCore s p f).attNonce = s.attNonce := rfl
@[simp] theorem updCore_attSeq (s : State) (p : Nat) (f : PCore → PCore) : (updCore s p f).attSeq = s.attSeq := rfl
@[simp] theorem updCore_attCur (s : State) (p : Nat) (f : PCore → PCore) : (updCore s p f).attCur = s.attCur := rfl
@[simp] theorem updCore_areport (s : State) (p : Nat) (f : PCore → PCore) : (updCore s p f).areport = s.areport := rfl
@[simp] theorem updCore_devId (s : State) (p : Nat) (f : PCore → PCore) : (updCore s p f).devId = s.devId := rfl
@[simp] theorem updCore_activity (s : State) (p : Nat) (f : PCore → PCore) : (updCore s p f).activity = s.activity := rfl
@[simp] theorem updCore_sent (s : State) (p : Nat) (f : PCore → PCore) : (updCore s p f).sent = s.sent := rfl
@[simp] theorem updCore_agenda (s : State) (p : Nat) (f : PCore → PCore) : (updCore s p f).agenda = s.agenda := rfl
@[simp] theorem updCore_input (s : State) (p : Nat) (f : PCore → PCore) : (updCore s p f).input = s.input := rfl
@[simp] theorem updCore_draws (s : State) (p : Nat) (f : PCore → PCore) : (updCore s p f).draws = s.draws := rfl
@[simp] theorem updCore_who (s : State) (p : Nat) (f : PCore → PCore) : (updCore s p f).who = s.who := rfl
@[simp] theorem updCore_hartId (s : State) (p : Nat) (f : PCore → PCore) : (updCore s p f).hartId = s.hartId := rfl
@[simp] theorem updCore_word (s : State) (p : Nat) (f : PCore → PCore) : (updCore s p f).word = s.word := rfl
@[simp] theorem updCore_dropped (s : State) (p : Nat) (f : PCore → PCore) : (updCore s p f).dropped = s.dropped := rfl
@[simp] theorem updCore_keyHashes (s : State) (p : Nat) (f : PCore → PCore) : (updCore s p f).keyHashes = s.keyHashes := rfl
@[simp] theorem updCore_imageCorrected (s : State) (p : Nat) (f : PCore → PCore) : (updCore s p f).imageCorrected = s.imageCorrected := rfl
@[simp] theorem updCore_imageDigests (s : State) (p : Nat) (f : PCore → PCore) : (updCore s p f).imageDigests = s.imageDigests := rfl

/-! ### updCtx -/

@[simp] theorem updCtx_clusters (s : State) (p : Nat) (f : Ctx → Ctx) : (updCtx s p f).clusters = s.clusters := rfl
@[simp] theorem updCtx_nodes (s : State) (p : Nat) (f : Ctx → Ctx) : (updCtx s p f).nodes = s.nodes := rfl
@[simp] theorem updCtx_mem (s : State) (p : Nat) (f : Ctx → Ctx) : (updCtx s p f).mem = s.mem := rfl
@[simp] theorem updCtx_memPoison (s : State) (p : Nat) (f : Ctx → Ctx) : (updCtx s p f).memPoison = s.memPoison := rfl
@[simp] theorem updCtx_memEcc (s : State) (p : Nat) (f : Ctx → Ctx) : (updCtx s p f).memEcc = s.memEcc := rfl
@[simp] theorem updCtx_durable (s : State) (p : Nat) (f : Ctx → Ctx) : (updCtx s p f).durable = s.durable := rfl
@[simp] theorem updCtx_durablePoison (s : State) (p : Nat) (f : Ctx → Ctx) : (updCtx s p f).durablePoison = s.durablePoison := rfl
@[simp] theorem updCtx_footAccept (s : State) (p : Nat) (f : Ctx → Ctx) : (updCtx s p f).footAccept = s.footAccept := rfl
@[simp] theorem updCtx_hodAccept (s : State) (p : Nat) (f : Ctx → Ctx) : (updCtx s p f).hodAccept = s.hodAccept := rfl
@[simp] theorem updCtx_regAccept (s : State) (p : Nat) (f : Ctx → Ctx) : (updCtx s p f).regAccept = s.regAccept := rfl
@[simp] theorem updCtx_coreTlb (s : State) (p : Nat) (f : Ctx → Ctx) : (updCtx s p f).coreTlb = s.coreTlb := rfl
@[simp] theorem updCtx_net (s : State) (p : Nat) (f : Ctx → Ctx) : (updCtx s p f).net = s.net := rfl
@[simp] theorem updCtx_heldMsgs (s : State) (p : Nat) (f : Ctx → Ctx) : (updCtx s p f).heldMsgs = s.heldMsgs := rfl
@[simp] theorem updCtx_nextTag (s : State) (p : Nat) (f : Ctx → Ctx) : (updCtx s p f).nextTag = s.nextTag := rfl
@[simp] theorem updCtx_lpct (s : State) (p : Nat) (f : Ctx → Ctx) : (updCtx s p f).lpct = s.lpct := rfl
@[simp] theorem updCtx_class1 (s : State) (p : Nat) (f : Ctx → Ctx) : (updCtx s p f).class1 = s.class1 := rfl
@[simp] theorem updCtx_remaps (s : State) (p : Nat) (f : Ctx → Ctx) : (updCtx s p f).remaps = s.remaps := rfl
@[simp] theorem updCtx_migrations (s : State) (p : Nat) (f : Ctx → Ctx) : (updCtx s p f).migrations = s.migrations := rfl
@[simp] theorem updCtx_jobs (s : State) (p : Nat) (f : Ctx → Ctx) : (updCtx s p f).jobs = s.jobs := rfl
@[simp] theorem updCtx_jobRegResult (s : State) (p : Nat) (f : Ctx → Ctx) : (updCtx s p f).jobRegResult = s.jobRegResult := rfl
@[simp] theorem updCtx_arbSeq (s : State) (p : Nat) (f : Ctx → Ctx) : (updCtx s p f).arbSeq = s.arbSeq := rfl
@[simp] theorem updCtx_quotas (s : State) (p : Nat) (f : Ctx → Ctx) : (updCtx s p f).quotas = s.quotas := rfl
@[simp] theorem updCtx_mortars (s : State) (p : Nat) (f : Ctx → Ctx) : (updCtx s p f).mortars = s.mortars := rfl
@[simp] theorem updCtx_meters (s : State) (p : Nat) (f : Ctx → Ctx) : (updCtx s p f).meters = s.meters := rfl
@[simp] theorem updCtx_ovfl (s : State) (p : Nat) (f : Ctx → Ctx) : (updCtx s p f).ovfl = s.ovfl := rfl
@[simp] theorem updCtx_graphs (s : State) (p : Nat) (f : Ctx → Ctx) : (updCtx s p f).graphs = s.graphs := rfl
@[simp] theorem updCtx_nextInst (s : State) (p : Nat) (f : Ctx → Ctx) : (updCtx s p f).nextInst = s.nextInst := rfl
@[simp] theorem updCtx_nextGen (s : State) (p : Nat) (f : Ctx → Ctx) : (updCtx s p f).nextGen = s.nextGen := rfl
@[simp] theorem updCtx_switches (s : State) (p : Nat) (f : Ctx → Ctx) : (updCtx s p f).switches = s.switches := rfl
@[simp] theorem updCtx_nextOrder (s : State) (p : Nat) (f : Ctx → Ctx) : (updCtx s p f).nextOrder = s.nextOrder := rfl
@[simp] theorem updCtx_run (s : State) (p : Nat) (f : Ctx → Ctx) : (updCtx s p f).run = s.run := rfl
@[simp] theorem updCtx_runErr (s : State) (p : Nat) (f : Ctx → Ctx) : (updCtx s p f).runErr = s.runErr := rfl
@[simp] theorem updCtx_period (s : State) (p : Nat) (f : Ctx → Ctx) : (updCtx s p f).period = s.period := rfl
@[simp] theorem updCtx_start (s : State) (p : Nat) (f : Ctx → Ctx) : (updCtx s p f).start = s.start := rfl
@[simp] theorem updCtx_stamp (s : State) (p : Nat) (f : Ctx → Ctx) : (updCtx s p f).stamp = s.stamp := rfl
@[simp] theorem updCtx_stamp0 (s : State) (p : Nat) (f : Ctx → Ctx) : (updCtx s p f).stamp0 = s.stamp0 := rfl
@[simp] theorem updCtx_stopPending (s : State) (p : Nat) (f : Ctx → Ctx) : (updCtx s p f).stopPending = s.stopPending := rfl
@[simp] theorem updCtx_scans (s : State) (p : Nat) (f : Ctx → Ctx) : (updCtx s p f).scans = s.scans := rfl
@[simp] theorem updCtx_plumb (s : State) (p : Nat) (f : Ctx → Ctx) : (updCtx s p f).plumb = s.plumb := rfl
@[simp] theorem updCtx_inva (s : State) (p : Nat) (f : Ctx → Ctx) : (updCtx s p f).inva = s.inva := rfl
@[simp] theorem updCtx_invc (s : State) (p : Nat) (f : Ctx → Ctx) : (updCtx s p f).invc = s.invc := rfl
@[simp] theorem updCtx_invBusy (s : State) (p : Nat) (f : Ctx → Ctx) : (updCtx s p f).invBusy = s.invBusy := rfl
@[simp] theorem updCtx_invDone (s : State) (p : Nat) (f : Ctx → Ctx) : (updCtx s p f).invDone = s.invDone := rfl
@[simp] theorem updCtx_invSeq (s : State) (p : Nat) (f : Ctx → Ctx) : (updCtx s p f).invSeq = s.invSeq := rfl
@[simp] theorem updCtx_arbWait (s : State) (p : Nat) (f : Ctx → Ctx) : (updCtx s p f).arbWait = s.arbWait := rfl
@[simp] theorem updCtx_faultRecs (s : State) (p : Nat) (f : Ctx → Ctx) : (updCtx s p f).faultRecs = s.faultRecs := rfl
@[simp] theorem updCtx_refusedNotices (s : State) (p : Nat) (f : Ctx → Ctx) : (updCtx s p f).refusedNotices = s.refusedNotices := rfl
@[simp] theorem updCtx_collectorFull (s : State) (p : Nat) (f : Ctx → Ctx) : (updCtx s p f).collectorFull = s.collectorFull := rfl
@[simp] theorem updCtx_feivl (s : State) (p : Nat) (f : Ctx → Ctx) : (updCtx s p f).feivl = s.feivl := rfl
@[simp] theorem updCtx_felim (s : State) (p : Nat) (f : Ctx → Ctx) : (updCtx s p f).felim = s.felim := rfl
@[simp] theorem updCtx_errRing (s : State) (p : Nat) (f : Ctx → Ctx) : (updCtx s p f).errRing = s.errRing := rfl
@[simp] theorem updCtx_ewp (s : State) (p : Nat) (f : Ctx → Ctx) : (updCtx s p f).ewp = s.ewp := rfl
@[simp] theorem updCtx_ehost (s : State) (p : Nat) (f : Ctx → Ctx) : (updCtx s p f).ehost = s.ehost := rfl
@[simp] theorem updCtx_emgt (s : State) (p : Nat) (f : Ctx → Ctx) : (updCtx s p f).emgt = s.emgt := rfl
@[simp] theorem updCtx_elost (s : State) (p : Nat) (f : Ctx → Ctx) : (updCtx s p f).elost = s.elost := rfl
@[simp] theorem updCtx_errQueue (s : State) (p : Nat) (f : Ctx → Ctx) : (updCtx s p f).errQueue = s.errQueue := rfl
@[simp] theorem updCtx_pcieUp (s : State) (p : Nat) (f : Ctx → Ctx) : (updCtx s p f).pcieUp = s.pcieUp := rfl
@[simp] theorem updCtx_transients (s : State) (p : Nat) (f : Ctx → Ctx) : (updCtx s p f).transients = s.transients := rfl
@[simp] theorem updCtx_hbper (s : State) (p : Nat) (f : Ctx → Ctx) : (updCtx s p f).hbper = s.hbper := rfl
@[simp] theorem updCtx_capto (s : State) (p : Nat) (f : Ctx → Ctx) : (updCtx s p f).capto = s.capto := rfl
@[simp] theorem updCtx_bootJournal (s : State) (p : Nat) (f : Ctx → Ctx) : (updCtx s p f).bootJournal = s.bootJournal := rfl
@[simp] theorem updCtx_starts (s : State) (p : Nat) (f : Ctx → Ctx) : (updCtx s p f).starts = s.starts := rfl
@[simp] theorem updCtx_bootFailed (s : State) (p : Nat) (f : Ctx → Ctx) : (updCtx s p f).bootFailed = s.bootFailed := rfl
@[simp] theorem updCtx_imagesOff (s : State) (p : Nat) (f : Ctx → Ctx) : (updCtx s p f).imagesOff = s.imagesOff := rfl
@[simp] theorem updCtx_invAt (s : State) (p : Nat) (f : Ctx → Ctx) : (updCtx s p f).invAt = s.invAt := rfl
@[simp] theorem updCtx_mgmtOff (s : State) (p : Nat) (f : Ctx → Ctx) : (updCtx s p f).mgmtOff = s.mgmtOff := rfl
@[simp] theorem updCtx_keyRevoked (s : State) (p : Nat) (f : Ctx → Ctx) : (updCtx s p f).keyRevoked = s.keyRevoked := rfl
@[simp] theorem updCtx_imageMin (s : State) (p : Nat) (f : Ctx → Ctx) : (updCtx s p f).imageMin = s.imageMin := rfl
@[simp] theorem updCtx_latchHeld (s : State) (p : Nat) (f : Ctx → Ctx) : (updCtx s p f).latchHeld = s.latchHeld := rfl
@[simp] theorem updCtx_pairChk (s : State) (p : Nat) (f : Ctx → Ctx) : (updCtx s p f).pairChk = s.pairChk := rfl
@[simp] theorem updCtx_pair (s : State) (p : Nat) (f : Ctx → Ctx) : (updCtx s p f).pair = s.pair := rfl
@[simp] theorem updCtx_image (s : State) (p : Nat) (f : Ctx → Ctx) : (updCtx s p f).image = s.image := rfl
@[simp] theorem updCtx_imagePoison (s : State) (p : Nat) (f : Ctx → Ctx) : (updCtx s p f).imagePoison = s.imagePoison := rfl
@[simp] theorem updCtx_latching (s : State) (p : Nat) (f : Ctx → Ctx) : (updCtx s p f).latching = s.latching := rfl
@[simp] theorem updCtx_latches (s : State) (p : Nat) (f : Ctx → Ctx) : (updCtx s p f).latches = s.latches := rfl
@[simp] theorem updCtx_staged (s : State) (p : Nat) (f : Ctx → Ctx) : (updCtx s p f).staged = s.staged := rfl
@[simp] theorem updCtx_gates (s : State) (p : Nat) (f : Ctx → Ctx) : (updCtx s p f).gates = s.gates := rfl
@[simp] theorem updCtx_ports (s : State) (p : Nat) (f : Ctx → Ctx) : (updCtx s p f).ports = s.ports := rfl
@[simp] theorem updCtx_visionQ (s : State) (p : Nat) (f : Ctx → Ctx) : (updCtx s p f).visionQ = s.visionQ := rfl
@[simp] theorem updCtx_engines (s : State) (p : Nat) (f : Ctx → Ctx) : (updCtx s p f).engines = s.engines := rfl
@[simp] theorem updCtx_vbuf (s : State) (p : Nat) (f : Ctx → Ctx) : (updCtx s p f).vbuf = s.vbuf := rfl
@[simp] theorem updCtx_vbufPoison (s : State) (p : Nat) (f : Ctx → Ctx) : (updCtx s p f).vbufPoison = s.vbufPoison := rfl
@[simp] theorem updCtx_harts (s : State) (p : Nat) (f : Ctx → Ctx) : (updCtx s p f).harts = s.harts := rfl
@[simp] theorem updCtx_anonce (s : State) (p : Nat) (f : Ctx → Ctx) : (updCtx s p f).anonce = s.anonce := rfl
@[simp] theorem updCtx_attBusy (s : State) (p : Nat) (f : Ctx → Ctx) : (updCtx s p f).attBusy = s.attBusy := rfl
@[simp] theorem updCtx_attNonce (s : State) (p : Nat) (f : Ctx → Ctx) : (updCtx s p f).attNonce = s.attNonce := rfl
@[simp] theorem updCtx_attSeq (s : State) (p : Nat) (f : Ctx → Ctx) : (updCtx s p f).attSeq = s.attSeq := rfl
@[simp] theorem updCtx_attCur (s : State) (p : Nat) (f : Ctx → Ctx) : (updCtx s p f).attCur = s.attCur := rfl
@[simp] theorem updCtx_areport (s : State) (p : Nat) (f : Ctx → Ctx) : (updCtx s p f).areport = s.areport := rfl
@[simp] theorem updCtx_devId (s : State) (p : Nat) (f : Ctx → Ctx) : (updCtx s p f).devId = s.devId := rfl
@[simp] theorem updCtx_activity (s : State) (p : Nat) (f : Ctx → Ctx) : (updCtx s p f).activity = s.activity := rfl
@[simp] theorem updCtx_sent (s : State) (p : Nat) (f : Ctx → Ctx) : (updCtx s p f).sent = s.sent := rfl
@[simp] theorem updCtx_agenda (s : State) (p : Nat) (f : Ctx → Ctx) : (updCtx s p f).agenda = s.agenda := rfl
@[simp] theorem updCtx_input (s : State) (p : Nat) (f : Ctx → Ctx) : (updCtx s p f).input = s.input := rfl
@[simp] theorem updCtx_draws (s : State) (p : Nat) (f : Ctx → Ctx) : (updCtx s p f).draws = s.draws := rfl
@[simp] theorem updCtx_who (s : State) (p : Nat) (f : Ctx → Ctx) : (updCtx s p f).who = s.who := rfl
@[simp] theorem updCtx_hartId (s : State) (p : Nat) (f : Ctx → Ctx) : (updCtx s p f).hartId = s.hartId := rfl
@[simp] theorem updCtx_word (s : State) (p : Nat) (f : Ctx → Ctx) : (updCtx s p f).word = s.word := rfl
@[simp] theorem updCtx_dropped (s : State) (p : Nat) (f : Ctx → Ctx) : (updCtx s p f).dropped = s.dropped := rfl
@[simp] theorem updCtx_keyHashes (s : State) (p : Nat) (f : Ctx → Ctx) : (updCtx s p f).keyHashes = s.keyHashes := rfl
@[simp] theorem updCtx_imageCorrected (s : State) (p : Nat) (f : Ctx → Ctx) : (updCtx s p f).imageCorrected = s.imageCorrected := rfl
@[simp] theorem updCtx_imageDigests (s : State) (p : Nat) (f : Ctx → Ctx) : (updCtx s p f).imageDigests = s.imageDigests := rfl

/-! ### updWide -/

@[simp] theorem updWide_clusters (s : State) (p : Nat) (f : Wide → Wide) : (updWide s p f).clusters = s.clusters := rfl
@[simp] theorem updWide_nodes (s : State) (p : Nat) (f : Wide → Wide) : (updWide s p f).nodes = s.nodes := rfl
@[simp] theorem updWide_mem (s : State) (p : Nat) (f : Wide → Wide) : (updWide s p f).mem = s.mem := rfl
@[simp] theorem updWide_memPoison (s : State) (p : Nat) (f : Wide → Wide) : (updWide s p f).memPoison = s.memPoison := rfl
@[simp] theorem updWide_memEcc (s : State) (p : Nat) (f : Wide → Wide) : (updWide s p f).memEcc = s.memEcc := rfl
@[simp] theorem updWide_durable (s : State) (p : Nat) (f : Wide → Wide) : (updWide s p f).durable = s.durable := rfl
@[simp] theorem updWide_durablePoison (s : State) (p : Nat) (f : Wide → Wide) : (updWide s p f).durablePoison = s.durablePoison := rfl
@[simp] theorem updWide_footAccept (s : State) (p : Nat) (f : Wide → Wide) : (updWide s p f).footAccept = s.footAccept := rfl
@[simp] theorem updWide_hodAccept (s : State) (p : Nat) (f : Wide → Wide) : (updWide s p f).hodAccept = s.hodAccept := rfl
@[simp] theorem updWide_regAccept (s : State) (p : Nat) (f : Wide → Wide) : (updWide s p f).regAccept = s.regAccept := rfl
@[simp] theorem updWide_coreTlb (s : State) (p : Nat) (f : Wide → Wide) : (updWide s p f).coreTlb = s.coreTlb := rfl
@[simp] theorem updWide_net (s : State) (p : Nat) (f : Wide → Wide) : (updWide s p f).net = s.net := rfl
@[simp] theorem updWide_heldMsgs (s : State) (p : Nat) (f : Wide → Wide) : (updWide s p f).heldMsgs = s.heldMsgs := rfl
@[simp] theorem updWide_nextTag (s : State) (p : Nat) (f : Wide → Wide) : (updWide s p f).nextTag = s.nextTag := rfl
@[simp] theorem updWide_lpct (s : State) (p : Nat) (f : Wide → Wide) : (updWide s p f).lpct = s.lpct := rfl
@[simp] theorem updWide_class1 (s : State) (p : Nat) (f : Wide → Wide) : (updWide s p f).class1 = s.class1 := rfl
@[simp] theorem updWide_remaps (s : State) (p : Nat) (f : Wide → Wide) : (updWide s p f).remaps = s.remaps := rfl
@[simp] theorem updWide_migrations (s : State) (p : Nat) (f : Wide → Wide) : (updWide s p f).migrations = s.migrations := rfl
@[simp] theorem updWide_jobs (s : State) (p : Nat) (f : Wide → Wide) : (updWide s p f).jobs = s.jobs := rfl
@[simp] theorem updWide_jobRegResult (s : State) (p : Nat) (f : Wide → Wide) : (updWide s p f).jobRegResult = s.jobRegResult := rfl
@[simp] theorem updWide_arbSeq (s : State) (p : Nat) (f : Wide → Wide) : (updWide s p f).arbSeq = s.arbSeq := rfl
@[simp] theorem updWide_quotas (s : State) (p : Nat) (f : Wide → Wide) : (updWide s p f).quotas = s.quotas := rfl
@[simp] theorem updWide_mortars (s : State) (p : Nat) (f : Wide → Wide) : (updWide s p f).mortars = s.mortars := rfl
@[simp] theorem updWide_meters (s : State) (p : Nat) (f : Wide → Wide) : (updWide s p f).meters = s.meters := rfl
@[simp] theorem updWide_ovfl (s : State) (p : Nat) (f : Wide → Wide) : (updWide s p f).ovfl = s.ovfl := rfl
@[simp] theorem updWide_graphs (s : State) (p : Nat) (f : Wide → Wide) : (updWide s p f).graphs = s.graphs := rfl
@[simp] theorem updWide_nextInst (s : State) (p : Nat) (f : Wide → Wide) : (updWide s p f).nextInst = s.nextInst := rfl
@[simp] theorem updWide_nextGen (s : State) (p : Nat) (f : Wide → Wide) : (updWide s p f).nextGen = s.nextGen := rfl
@[simp] theorem updWide_switches (s : State) (p : Nat) (f : Wide → Wide) : (updWide s p f).switches = s.switches := rfl
@[simp] theorem updWide_nextOrder (s : State) (p : Nat) (f : Wide → Wide) : (updWide s p f).nextOrder = s.nextOrder := rfl
@[simp] theorem updWide_run (s : State) (p : Nat) (f : Wide → Wide) : (updWide s p f).run = s.run := rfl
@[simp] theorem updWide_runErr (s : State) (p : Nat) (f : Wide → Wide) : (updWide s p f).runErr = s.runErr := rfl
@[simp] theorem updWide_period (s : State) (p : Nat) (f : Wide → Wide) : (updWide s p f).period = s.period := rfl
@[simp] theorem updWide_start (s : State) (p : Nat) (f : Wide → Wide) : (updWide s p f).start = s.start := rfl
@[simp] theorem updWide_stamp (s : State) (p : Nat) (f : Wide → Wide) : (updWide s p f).stamp = s.stamp := rfl
@[simp] theorem updWide_stamp0 (s : State) (p : Nat) (f : Wide → Wide) : (updWide s p f).stamp0 = s.stamp0 := rfl
@[simp] theorem updWide_stopPending (s : State) (p : Nat) (f : Wide → Wide) : (updWide s p f).stopPending = s.stopPending := rfl
@[simp] theorem updWide_scans (s : State) (p : Nat) (f : Wide → Wide) : (updWide s p f).scans = s.scans := rfl
@[simp] theorem updWide_plumb (s : State) (p : Nat) (f : Wide → Wide) : (updWide s p f).plumb = s.plumb := rfl
@[simp] theorem updWide_inva (s : State) (p : Nat) (f : Wide → Wide) : (updWide s p f).inva = s.inva := rfl
@[simp] theorem updWide_invc (s : State) (p : Nat) (f : Wide → Wide) : (updWide s p f).invc = s.invc := rfl
@[simp] theorem updWide_invBusy (s : State) (p : Nat) (f : Wide → Wide) : (updWide s p f).invBusy = s.invBusy := rfl
@[simp] theorem updWide_invDone (s : State) (p : Nat) (f : Wide → Wide) : (updWide s p f).invDone = s.invDone := rfl
@[simp] theorem updWide_invSeq (s : State) (p : Nat) (f : Wide → Wide) : (updWide s p f).invSeq = s.invSeq := rfl
@[simp] theorem updWide_arbWait (s : State) (p : Nat) (f : Wide → Wide) : (updWide s p f).arbWait = s.arbWait := rfl
@[simp] theorem updWide_faultRecs (s : State) (p : Nat) (f : Wide → Wide) : (updWide s p f).faultRecs = s.faultRecs := rfl
@[simp] theorem updWide_refusedNotices (s : State) (p : Nat) (f : Wide → Wide) : (updWide s p f).refusedNotices = s.refusedNotices := rfl
@[simp] theorem updWide_collectorFull (s : State) (p : Nat) (f : Wide → Wide) : (updWide s p f).collectorFull = s.collectorFull := rfl
@[simp] theorem updWide_feivl (s : State) (p : Nat) (f : Wide → Wide) : (updWide s p f).feivl = s.feivl := rfl
@[simp] theorem updWide_felim (s : State) (p : Nat) (f : Wide → Wide) : (updWide s p f).felim = s.felim := rfl
@[simp] theorem updWide_errRing (s : State) (p : Nat) (f : Wide → Wide) : (updWide s p f).errRing = s.errRing := rfl
@[simp] theorem updWide_ewp (s : State) (p : Nat) (f : Wide → Wide) : (updWide s p f).ewp = s.ewp := rfl
@[simp] theorem updWide_ehost (s : State) (p : Nat) (f : Wide → Wide) : (updWide s p f).ehost = s.ehost := rfl
@[simp] theorem updWide_emgt (s : State) (p : Nat) (f : Wide → Wide) : (updWide s p f).emgt = s.emgt := rfl
@[simp] theorem updWide_elost (s : State) (p : Nat) (f : Wide → Wide) : (updWide s p f).elost = s.elost := rfl
@[simp] theorem updWide_errQueue (s : State) (p : Nat) (f : Wide → Wide) : (updWide s p f).errQueue = s.errQueue := rfl
@[simp] theorem updWide_pcieUp (s : State) (p : Nat) (f : Wide → Wide) : (updWide s p f).pcieUp = s.pcieUp := rfl
@[simp] theorem updWide_transients (s : State) (p : Nat) (f : Wide → Wide) : (updWide s p f).transients = s.transients := rfl
@[simp] theorem updWide_hbper (s : State) (p : Nat) (f : Wide → Wide) : (updWide s p f).hbper = s.hbper := rfl
@[simp] theorem updWide_capto (s : State) (p : Nat) (f : Wide → Wide) : (updWide s p f).capto = s.capto := rfl
@[simp] theorem updWide_bootJournal (s : State) (p : Nat) (f : Wide → Wide) : (updWide s p f).bootJournal = s.bootJournal := rfl
@[simp] theorem updWide_starts (s : State) (p : Nat) (f : Wide → Wide) : (updWide s p f).starts = s.starts := rfl
@[simp] theorem updWide_bootFailed (s : State) (p : Nat) (f : Wide → Wide) : (updWide s p f).bootFailed = s.bootFailed := rfl
@[simp] theorem updWide_imagesOff (s : State) (p : Nat) (f : Wide → Wide) : (updWide s p f).imagesOff = s.imagesOff := rfl
@[simp] theorem updWide_invAt (s : State) (p : Nat) (f : Wide → Wide) : (updWide s p f).invAt = s.invAt := rfl
@[simp] theorem updWide_mgmtOff (s : State) (p : Nat) (f : Wide → Wide) : (updWide s p f).mgmtOff = s.mgmtOff := rfl
@[simp] theorem updWide_keyRevoked (s : State) (p : Nat) (f : Wide → Wide) : (updWide s p f).keyRevoked = s.keyRevoked := rfl
@[simp] theorem updWide_imageMin (s : State) (p : Nat) (f : Wide → Wide) : (updWide s p f).imageMin = s.imageMin := rfl
@[simp] theorem updWide_latchHeld (s : State) (p : Nat) (f : Wide → Wide) : (updWide s p f).latchHeld = s.latchHeld := rfl
@[simp] theorem updWide_pairChk (s : State) (p : Nat) (f : Wide → Wide) : (updWide s p f).pairChk = s.pairChk := rfl
@[simp] theorem updWide_pair (s : State) (p : Nat) (f : Wide → Wide) : (updWide s p f).pair = s.pair := rfl
@[simp] theorem updWide_image (s : State) (p : Nat) (f : Wide → Wide) : (updWide s p f).image = s.image := rfl
@[simp] theorem updWide_imagePoison (s : State) (p : Nat) (f : Wide → Wide) : (updWide s p f).imagePoison = s.imagePoison := rfl
@[simp] theorem updWide_latching (s : State) (p : Nat) (f : Wide → Wide) : (updWide s p f).latching = s.latching := rfl
@[simp] theorem updWide_latches (s : State) (p : Nat) (f : Wide → Wide) : (updWide s p f).latches = s.latches := rfl
@[simp] theorem updWide_staged (s : State) (p : Nat) (f : Wide → Wide) : (updWide s p f).staged = s.staged := rfl
@[simp] theorem updWide_gates (s : State) (p : Nat) (f : Wide → Wide) : (updWide s p f).gates = s.gates := rfl
@[simp] theorem updWide_ports (s : State) (p : Nat) (f : Wide → Wide) : (updWide s p f).ports = s.ports := rfl
@[simp] theorem updWide_visionQ (s : State) (p : Nat) (f : Wide → Wide) : (updWide s p f).visionQ = s.visionQ := rfl
@[simp] theorem updWide_engines (s : State) (p : Nat) (f : Wide → Wide) : (updWide s p f).engines = s.engines := rfl
@[simp] theorem updWide_vbuf (s : State) (p : Nat) (f : Wide → Wide) : (updWide s p f).vbuf = s.vbuf := rfl
@[simp] theorem updWide_vbufPoison (s : State) (p : Nat) (f : Wide → Wide) : (updWide s p f).vbufPoison = s.vbufPoison := rfl
@[simp] theorem updWide_harts (s : State) (p : Nat) (f : Wide → Wide) : (updWide s p f).harts = s.harts := rfl
@[simp] theorem updWide_anonce (s : State) (p : Nat) (f : Wide → Wide) : (updWide s p f).anonce = s.anonce := rfl
@[simp] theorem updWide_attBusy (s : State) (p : Nat) (f : Wide → Wide) : (updWide s p f).attBusy = s.attBusy := rfl
@[simp] theorem updWide_attNonce (s : State) (p : Nat) (f : Wide → Wide) : (updWide s p f).attNonce = s.attNonce := rfl
@[simp] theorem updWide_attSeq (s : State) (p : Nat) (f : Wide → Wide) : (updWide s p f).attSeq = s.attSeq := rfl
@[simp] theorem updWide_attCur (s : State) (p : Nat) (f : Wide → Wide) : (updWide s p f).attCur = s.attCur := rfl
@[simp] theorem updWide_areport (s : State) (p : Nat) (f : Wide → Wide) : (updWide s p f).areport = s.areport := rfl
@[simp] theorem updWide_devId (s : State) (p : Nat) (f : Wide → Wide) : (updWide s p f).devId = s.devId := rfl
@[simp] theorem updWide_activity (s : State) (p : Nat) (f : Wide → Wide) : (updWide s p f).activity = s.activity := rfl
@[simp] theorem updWide_sent (s : State) (p : Nat) (f : Wide → Wide) : (updWide s p f).sent = s.sent := rfl
@[simp] theorem updWide_agenda (s : State) (p : Nat) (f : Wide → Wide) : (updWide s p f).agenda = s.agenda := rfl
@[simp] theorem updWide_input (s : State) (p : Nat) (f : Wide → Wide) : (updWide s p f).input = s.input := rfl
@[simp] theorem updWide_draws (s : State) (p : Nat) (f : Wide → Wide) : (updWide s p f).draws = s.draws := rfl
@[simp] theorem updWide_who (s : State) (p : Nat) (f : Wide → Wide) : (updWide s p f).who = s.who := rfl
@[simp] theorem updWide_hartId (s : State) (p : Nat) (f : Wide → Wide) : (updWide s p f).hartId = s.hartId := rfl
@[simp] theorem updWide_word (s : State) (p : Nat) (f : Wide → Wide) : (updWide s p f).word = s.word := rfl
@[simp] theorem updWide_dropped (s : State) (p : Nat) (f : Wide → Wide) : (updWide s p f).dropped = s.dropped := rfl
@[simp] theorem updWide_keyHashes (s : State) (p : Nat) (f : Wide → Wide) : (updWide s p f).keyHashes = s.keyHashes := rfl
@[simp] theorem updWide_imageCorrected (s : State) (p : Nat) (f : Wide → Wide) : (updWide s p f).imageCorrected = s.imageCorrected := rfl
@[simp] theorem updWide_imageDigests (s : State) (p : Nat) (f : Wide → Wide) : (updWide s p f).imageDigests = s.imageDigests := rfl

/-! ### setSlot -/

@[simp] theorem setSlot_clusters (s : State) (p n : Nat) (x : Slot) : (setSlot s p n x).clusters = s.clusters := rfl
@[simp] theorem setSlot_nodes (s : State) (p n : Nat) (x : Slot) : (setSlot s p n x).nodes = s.nodes := rfl
@[simp] theorem setSlot_mem (s : State) (p n : Nat) (x : Slot) : (setSlot s p n x).mem = s.mem := rfl
@[simp] theorem setSlot_memPoison (s : State) (p n : Nat) (x : Slot) : (setSlot s p n x).memPoison = s.memPoison := rfl
@[simp] theorem setSlot_memEcc (s : State) (p n : Nat) (x : Slot) : (setSlot s p n x).memEcc = s.memEcc := rfl
@[simp] theorem setSlot_durable (s : State) (p n : Nat) (x : Slot) : (setSlot s p n x).durable = s.durable := rfl
@[simp] theorem setSlot_durablePoison (s : State) (p n : Nat) (x : Slot) : (setSlot s p n x).durablePoison = s.durablePoison := rfl
@[simp] theorem setSlot_footAccept (s : State) (p n : Nat) (x : Slot) : (setSlot s p n x).footAccept = s.footAccept := rfl
@[simp] theorem setSlot_hodAccept (s : State) (p n : Nat) (x : Slot) : (setSlot s p n x).hodAccept = s.hodAccept := rfl
@[simp] theorem setSlot_regAccept (s : State) (p n : Nat) (x : Slot) : (setSlot s p n x).regAccept = s.regAccept := rfl
@[simp] theorem setSlot_coreTlb (s : State) (p n : Nat) (x : Slot) : (setSlot s p n x).coreTlb = s.coreTlb := rfl
@[simp] theorem setSlot_net (s : State) (p n : Nat) (x : Slot) : (setSlot s p n x).net = s.net := rfl
@[simp] theorem setSlot_heldMsgs (s : State) (p n : Nat) (x : Slot) : (setSlot s p n x).heldMsgs = s.heldMsgs := rfl
@[simp] theorem setSlot_nextTag (s : State) (p n : Nat) (x : Slot) : (setSlot s p n x).nextTag = s.nextTag := rfl
@[simp] theorem setSlot_lpct (s : State) (p n : Nat) (x : Slot) : (setSlot s p n x).lpct = s.lpct := rfl
@[simp] theorem setSlot_class1 (s : State) (p n : Nat) (x : Slot) : (setSlot s p n x).class1 = s.class1 := rfl
@[simp] theorem setSlot_remaps (s : State) (p n : Nat) (x : Slot) : (setSlot s p n x).remaps = s.remaps := rfl
@[simp] theorem setSlot_migrations (s : State) (p n : Nat) (x : Slot) : (setSlot s p n x).migrations = s.migrations := rfl
@[simp] theorem setSlot_jobs (s : State) (p n : Nat) (x : Slot) : (setSlot s p n x).jobs = s.jobs := rfl
@[simp] theorem setSlot_jobRegResult (s : State) (p n : Nat) (x : Slot) : (setSlot s p n x).jobRegResult = s.jobRegResult := rfl
@[simp] theorem setSlot_arbSeq (s : State) (p n : Nat) (x : Slot) : (setSlot s p n x).arbSeq = s.arbSeq := rfl
@[simp] theorem setSlot_quotas (s : State) (p n : Nat) (x : Slot) : (setSlot s p n x).quotas = s.quotas := rfl
@[simp] theorem setSlot_mortars (s : State) (p n : Nat) (x : Slot) : (setSlot s p n x).mortars = s.mortars := rfl
@[simp] theorem setSlot_meters (s : State) (p n : Nat) (x : Slot) : (setSlot s p n x).meters = s.meters := rfl
@[simp] theorem setSlot_ovfl (s : State) (p n : Nat) (x : Slot) : (setSlot s p n x).ovfl = s.ovfl := rfl
@[simp] theorem setSlot_graphs (s : State) (p n : Nat) (x : Slot) : (setSlot s p n x).graphs = s.graphs := rfl
@[simp] theorem setSlot_nextInst (s : State) (p n : Nat) (x : Slot) : (setSlot s p n x).nextInst = s.nextInst := rfl
@[simp] theorem setSlot_nextGen (s : State) (p n : Nat) (x : Slot) : (setSlot s p n x).nextGen = s.nextGen := rfl
@[simp] theorem setSlot_switches (s : State) (p n : Nat) (x : Slot) : (setSlot s p n x).switches = s.switches := rfl
@[simp] theorem setSlot_nextOrder (s : State) (p n : Nat) (x : Slot) : (setSlot s p n x).nextOrder = s.nextOrder := rfl
@[simp] theorem setSlot_run (s : State) (p n : Nat) (x : Slot) : (setSlot s p n x).run = s.run := rfl
@[simp] theorem setSlot_runErr (s : State) (p n : Nat) (x : Slot) : (setSlot s p n x).runErr = s.runErr := rfl
@[simp] theorem setSlot_period (s : State) (p n : Nat) (x : Slot) : (setSlot s p n x).period = s.period := rfl
@[simp] theorem setSlot_start (s : State) (p n : Nat) (x : Slot) : (setSlot s p n x).start = s.start := rfl
@[simp] theorem setSlot_stamp (s : State) (p n : Nat) (x : Slot) : (setSlot s p n x).stamp = s.stamp := rfl
@[simp] theorem setSlot_stamp0 (s : State) (p n : Nat) (x : Slot) : (setSlot s p n x).stamp0 = s.stamp0 := rfl
@[simp] theorem setSlot_stopPending (s : State) (p n : Nat) (x : Slot) : (setSlot s p n x).stopPending = s.stopPending := rfl
@[simp] theorem setSlot_scans (s : State) (p n : Nat) (x : Slot) : (setSlot s p n x).scans = s.scans := rfl
@[simp] theorem setSlot_plumb (s : State) (p n : Nat) (x : Slot) : (setSlot s p n x).plumb = s.plumb := rfl
@[simp] theorem setSlot_inva (s : State) (p n : Nat) (x : Slot) : (setSlot s p n x).inva = s.inva := rfl
@[simp] theorem setSlot_invc (s : State) (p n : Nat) (x : Slot) : (setSlot s p n x).invc = s.invc := rfl
@[simp] theorem setSlot_invBusy (s : State) (p n : Nat) (x : Slot) : (setSlot s p n x).invBusy = s.invBusy := rfl
@[simp] theorem setSlot_invDone (s : State) (p n : Nat) (x : Slot) : (setSlot s p n x).invDone = s.invDone := rfl
@[simp] theorem setSlot_invSeq (s : State) (p n : Nat) (x : Slot) : (setSlot s p n x).invSeq = s.invSeq := rfl
@[simp] theorem setSlot_arbWait (s : State) (p n : Nat) (x : Slot) : (setSlot s p n x).arbWait = s.arbWait := rfl
@[simp] theorem setSlot_faultRecs (s : State) (p n : Nat) (x : Slot) : (setSlot s p n x).faultRecs = s.faultRecs := rfl
@[simp] theorem setSlot_refusedNotices (s : State) (p n : Nat) (x : Slot) : (setSlot s p n x).refusedNotices = s.refusedNotices := rfl
@[simp] theorem setSlot_collectorFull (s : State) (p n : Nat) (x : Slot) : (setSlot s p n x).collectorFull = s.collectorFull := rfl
@[simp] theorem setSlot_feivl (s : State) (p n : Nat) (x : Slot) : (setSlot s p n x).feivl = s.feivl := rfl
@[simp] theorem setSlot_felim (s : State) (p n : Nat) (x : Slot) : (setSlot s p n x).felim = s.felim := rfl
@[simp] theorem setSlot_errRing (s : State) (p n : Nat) (x : Slot) : (setSlot s p n x).errRing = s.errRing := rfl
@[simp] theorem setSlot_ewp (s : State) (p n : Nat) (x : Slot) : (setSlot s p n x).ewp = s.ewp := rfl
@[simp] theorem setSlot_ehost (s : State) (p n : Nat) (x : Slot) : (setSlot s p n x).ehost = s.ehost := rfl
@[simp] theorem setSlot_emgt (s : State) (p n : Nat) (x : Slot) : (setSlot s p n x).emgt = s.emgt := rfl
@[simp] theorem setSlot_elost (s : State) (p n : Nat) (x : Slot) : (setSlot s p n x).elost = s.elost := rfl
@[simp] theorem setSlot_errQueue (s : State) (p n : Nat) (x : Slot) : (setSlot s p n x).errQueue = s.errQueue := rfl
@[simp] theorem setSlot_pcieUp (s : State) (p n : Nat) (x : Slot) : (setSlot s p n x).pcieUp = s.pcieUp := rfl
@[simp] theorem setSlot_transients (s : State) (p n : Nat) (x : Slot) : (setSlot s p n x).transients = s.transients := rfl
@[simp] theorem setSlot_hbper (s : State) (p n : Nat) (x : Slot) : (setSlot s p n x).hbper = s.hbper := rfl
@[simp] theorem setSlot_capto (s : State) (p n : Nat) (x : Slot) : (setSlot s p n x).capto = s.capto := rfl
@[simp] theorem setSlot_bootJournal (s : State) (p n : Nat) (x : Slot) : (setSlot s p n x).bootJournal = s.bootJournal := rfl
@[simp] theorem setSlot_starts (s : State) (p n : Nat) (x : Slot) : (setSlot s p n x).starts = s.starts := rfl
@[simp] theorem setSlot_bootFailed (s : State) (p n : Nat) (x : Slot) : (setSlot s p n x).bootFailed = s.bootFailed := rfl
@[simp] theorem setSlot_imagesOff (s : State) (p n : Nat) (x : Slot) : (setSlot s p n x).imagesOff = s.imagesOff := rfl
@[simp] theorem setSlot_invAt (s : State) (p n : Nat) (x : Slot) : (setSlot s p n x).invAt = s.invAt := rfl
@[simp] theorem setSlot_mgmtOff (s : State) (p n : Nat) (x : Slot) : (setSlot s p n x).mgmtOff = s.mgmtOff := rfl
@[simp] theorem setSlot_keyRevoked (s : State) (p n : Nat) (x : Slot) : (setSlot s p n x).keyRevoked = s.keyRevoked := rfl
@[simp] theorem setSlot_imageMin (s : State) (p n : Nat) (x : Slot) : (setSlot s p n x).imageMin = s.imageMin := rfl
@[simp] theorem setSlot_latchHeld (s : State) (p n : Nat) (x : Slot) : (setSlot s p n x).latchHeld = s.latchHeld := rfl
@[simp] theorem setSlot_pairChk (s : State) (p n : Nat) (x : Slot) : (setSlot s p n x).pairChk = s.pairChk := rfl
@[simp] theorem setSlot_pair (s : State) (p n : Nat) (x : Slot) : (setSlot s p n x).pair = s.pair := rfl
@[simp] theorem setSlot_image (s : State) (p n : Nat) (x : Slot) : (setSlot s p n x).image = s.image := rfl
@[simp] theorem setSlot_imagePoison (s : State) (p n : Nat) (x : Slot) : (setSlot s p n x).imagePoison = s.imagePoison := rfl
@[simp] theorem setSlot_latching (s : State) (p n : Nat) (x : Slot) : (setSlot s p n x).latching = s.latching := rfl
@[simp] theorem setSlot_latches (s : State) (p n : Nat) (x : Slot) : (setSlot s p n x).latches = s.latches := rfl
@[simp] theorem setSlot_staged (s : State) (p n : Nat) (x : Slot) : (setSlot s p n x).staged = s.staged := rfl
@[simp] theorem setSlot_gates (s : State) (p n : Nat) (x : Slot) : (setSlot s p n x).gates = s.gates := rfl
@[simp] theorem setSlot_ports (s : State) (p n : Nat) (x : Slot) : (setSlot s p n x).ports = s.ports := rfl
@[simp] theorem setSlot_visionQ (s : State) (p n : Nat) (x : Slot) : (setSlot s p n x).visionQ = s.visionQ := rfl
@[simp] theorem setSlot_engines (s : State) (p n : Nat) (x : Slot) : (setSlot s p n x).engines = s.engines := rfl
@[simp] theorem setSlot_vbuf (s : State) (p n : Nat) (x : Slot) : (setSlot s p n x).vbuf = s.vbuf := rfl
@[simp] theorem setSlot_vbufPoison (s : State) (p n : Nat) (x : Slot) : (setSlot s p n x).vbufPoison = s.vbufPoison := rfl
@[simp] theorem setSlot_harts (s : State) (p n : Nat) (x : Slot) : (setSlot s p n x).harts = s.harts := rfl
@[simp] theorem setSlot_anonce (s : State) (p n : Nat) (x : Slot) : (setSlot s p n x).anonce = s.anonce := rfl
@[simp] theorem setSlot_attBusy (s : State) (p n : Nat) (x : Slot) : (setSlot s p n x).attBusy = s.attBusy := rfl
@[simp] theorem setSlot_attNonce (s : State) (p n : Nat) (x : Slot) : (setSlot s p n x).attNonce = s.attNonce := rfl
@[simp] theorem setSlot_attSeq (s : State) (p n : Nat) (x : Slot) : (setSlot s p n x).attSeq = s.attSeq := rfl
@[simp] theorem setSlot_attCur (s : State) (p n : Nat) (x : Slot) : (setSlot s p n x).attCur = s.attCur := rfl
@[simp] theorem setSlot_areport (s : State) (p n : Nat) (x : Slot) : (setSlot s p n x).areport = s.areport := rfl
@[simp] theorem setSlot_devId (s : State) (p n : Nat) (x : Slot) : (setSlot s p n x).devId = s.devId := rfl
@[simp] theorem setSlot_activity (s : State) (p n : Nat) (x : Slot) : (setSlot s p n x).activity = s.activity := rfl
@[simp] theorem setSlot_sent (s : State) (p n : Nat) (x : Slot) : (setSlot s p n x).sent = s.sent := rfl
@[simp] theorem setSlot_agenda (s : State) (p n : Nat) (x : Slot) : (setSlot s p n x).agenda = s.agenda := rfl
@[simp] theorem setSlot_input (s : State) (p n : Nat) (x : Slot) : (setSlot s p n x).input = s.input := rfl
@[simp] theorem setSlot_draws (s : State) (p n : Nat) (x : Slot) : (setSlot s p n x).draws = s.draws := rfl
@[simp] theorem setSlot_who (s : State) (p n : Nat) (x : Slot) : (setSlot s p n x).who = s.who := rfl
@[simp] theorem setSlot_hartId (s : State) (p n : Nat) (x : Slot) : (setSlot s p n x).hartId = s.hartId := rfl
@[simp] theorem setSlot_word (s : State) (p n : Nat) (x : Slot) : (setSlot s p n x).word = s.word := rfl
@[simp] theorem setSlot_dropped (s : State) (p n : Nat) (x : Slot) : (setSlot s p n x).dropped = s.dropped := rfl
@[simp] theorem setSlot_keyHashes (s : State) (p n : Nat) (x : Slot) : (setSlot s p n x).keyHashes = s.keyHashes := rfl
@[simp] theorem setSlot_imageCorrected (s : State) (p n : Nat) (x : Slot) : (setSlot s p n x).imageCorrected = s.imageCorrected := rfl
@[simp] theorem setSlot_imageDigests (s : State) (p n : Nat) (x : Slot) : (setSlot s p n x).imageDigests = s.imageDigests := rfl

/-! ### updSlot -/

@[simp] theorem updSlot_clusters (s : State) (p n : Nat) (f : Slot → Slot) : (updSlot s p n f).clusters = s.clusters := rfl
@[simp] theorem updSlot_nodes (s : State) (p n : Nat) (f : Slot → Slot) : (updSlot s p n f).nodes = s.nodes := rfl
@[simp] theorem updSlot_mem (s : State) (p n : Nat) (f : Slot → Slot) : (updSlot s p n f).mem = s.mem := rfl
@[simp] theorem updSlot_memPoison (s : State) (p n : Nat) (f : Slot → Slot) : (updSlot s p n f).memPoison = s.memPoison := rfl
@[simp] theorem updSlot_memEcc (s : State) (p n : Nat) (f : Slot → Slot) : (updSlot s p n f).memEcc = s.memEcc := rfl
@[simp] theorem updSlot_durable (s : State) (p n : Nat) (f : Slot → Slot) : (updSlot s p n f).durable = s.durable := rfl
@[simp] theorem updSlot_durablePoison (s : State) (p n : Nat) (f : Slot → Slot) : (updSlot s p n f).durablePoison = s.durablePoison := rfl
@[simp] theorem updSlot_footAccept (s : State) (p n : Nat) (f : Slot → Slot) : (updSlot s p n f).footAccept = s.footAccept := rfl
@[simp] theorem updSlot_hodAccept (s : State) (p n : Nat) (f : Slot → Slot) : (updSlot s p n f).hodAccept = s.hodAccept := rfl
@[simp] theorem updSlot_regAccept (s : State) (p n : Nat) (f : Slot → Slot) : (updSlot s p n f).regAccept = s.regAccept := rfl
@[simp] theorem updSlot_coreTlb (s : State) (p n : Nat) (f : Slot → Slot) : (updSlot s p n f).coreTlb = s.coreTlb := rfl
@[simp] theorem updSlot_net (s : State) (p n : Nat) (f : Slot → Slot) : (updSlot s p n f).net = s.net := rfl
@[simp] theorem updSlot_heldMsgs (s : State) (p n : Nat) (f : Slot → Slot) : (updSlot s p n f).heldMsgs = s.heldMsgs := rfl
@[simp] theorem updSlot_nextTag (s : State) (p n : Nat) (f : Slot → Slot) : (updSlot s p n f).nextTag = s.nextTag := rfl
@[simp] theorem updSlot_lpct (s : State) (p n : Nat) (f : Slot → Slot) : (updSlot s p n f).lpct = s.lpct := rfl
@[simp] theorem updSlot_class1 (s : State) (p n : Nat) (f : Slot → Slot) : (updSlot s p n f).class1 = s.class1 := rfl
@[simp] theorem updSlot_remaps (s : State) (p n : Nat) (f : Slot → Slot) : (updSlot s p n f).remaps = s.remaps := rfl
@[simp] theorem updSlot_migrations (s : State) (p n : Nat) (f : Slot → Slot) : (updSlot s p n f).migrations = s.migrations := rfl
@[simp] theorem updSlot_jobs (s : State) (p n : Nat) (f : Slot → Slot) : (updSlot s p n f).jobs = s.jobs := rfl
@[simp] theorem updSlot_jobRegResult (s : State) (p n : Nat) (f : Slot → Slot) : (updSlot s p n f).jobRegResult = s.jobRegResult := rfl
@[simp] theorem updSlot_arbSeq (s : State) (p n : Nat) (f : Slot → Slot) : (updSlot s p n f).arbSeq = s.arbSeq := rfl
@[simp] theorem updSlot_quotas (s : State) (p n : Nat) (f : Slot → Slot) : (updSlot s p n f).quotas = s.quotas := rfl
@[simp] theorem updSlot_mortars (s : State) (p n : Nat) (f : Slot → Slot) : (updSlot s p n f).mortars = s.mortars := rfl
@[simp] theorem updSlot_meters (s : State) (p n : Nat) (f : Slot → Slot) : (updSlot s p n f).meters = s.meters := rfl
@[simp] theorem updSlot_ovfl (s : State) (p n : Nat) (f : Slot → Slot) : (updSlot s p n f).ovfl = s.ovfl := rfl
@[simp] theorem updSlot_graphs (s : State) (p n : Nat) (f : Slot → Slot) : (updSlot s p n f).graphs = s.graphs := rfl
@[simp] theorem updSlot_nextInst (s : State) (p n : Nat) (f : Slot → Slot) : (updSlot s p n f).nextInst = s.nextInst := rfl
@[simp] theorem updSlot_nextGen (s : State) (p n : Nat) (f : Slot → Slot) : (updSlot s p n f).nextGen = s.nextGen := rfl
@[simp] theorem updSlot_switches (s : State) (p n : Nat) (f : Slot → Slot) : (updSlot s p n f).switches = s.switches := rfl
@[simp] theorem updSlot_nextOrder (s : State) (p n : Nat) (f : Slot → Slot) : (updSlot s p n f).nextOrder = s.nextOrder := rfl
@[simp] theorem updSlot_run (s : State) (p n : Nat) (f : Slot → Slot) : (updSlot s p n f).run = s.run := rfl
@[simp] theorem updSlot_runErr (s : State) (p n : Nat) (f : Slot → Slot) : (updSlot s p n f).runErr = s.runErr := rfl
@[simp] theorem updSlot_period (s : State) (p n : Nat) (f : Slot → Slot) : (updSlot s p n f).period = s.period := rfl
@[simp] theorem updSlot_start (s : State) (p n : Nat) (f : Slot → Slot) : (updSlot s p n f).start = s.start := rfl
@[simp] theorem updSlot_stamp (s : State) (p n : Nat) (f : Slot → Slot) : (updSlot s p n f).stamp = s.stamp := rfl
@[simp] theorem updSlot_stamp0 (s : State) (p n : Nat) (f : Slot → Slot) : (updSlot s p n f).stamp0 = s.stamp0 := rfl
@[simp] theorem updSlot_stopPending (s : State) (p n : Nat) (f : Slot → Slot) : (updSlot s p n f).stopPending = s.stopPending := rfl
@[simp] theorem updSlot_scans (s : State) (p n : Nat) (f : Slot → Slot) : (updSlot s p n f).scans = s.scans := rfl
@[simp] theorem updSlot_plumb (s : State) (p n : Nat) (f : Slot → Slot) : (updSlot s p n f).plumb = s.plumb := rfl
@[simp] theorem updSlot_inva (s : State) (p n : Nat) (f : Slot → Slot) : (updSlot s p n f).inva = s.inva := rfl
@[simp] theorem updSlot_invc (s : State) (p n : Nat) (f : Slot → Slot) : (updSlot s p n f).invc = s.invc := rfl
@[simp] theorem updSlot_invBusy (s : State) (p n : Nat) (f : Slot → Slot) : (updSlot s p n f).invBusy = s.invBusy := rfl
@[simp] theorem updSlot_invDone (s : State) (p n : Nat) (f : Slot → Slot) : (updSlot s p n f).invDone = s.invDone := rfl
@[simp] theorem updSlot_invSeq (s : State) (p n : Nat) (f : Slot → Slot) : (updSlot s p n f).invSeq = s.invSeq := rfl
@[simp] theorem updSlot_arbWait (s : State) (p n : Nat) (f : Slot → Slot) : (updSlot s p n f).arbWait = s.arbWait := rfl
@[simp] theorem updSlot_faultRecs (s : State) (p n : Nat) (f : Slot → Slot) : (updSlot s p n f).faultRecs = s.faultRecs := rfl
@[simp] theorem updSlot_refusedNotices (s : State) (p n : Nat) (f : Slot → Slot) : (updSlot s p n f).refusedNotices = s.refusedNotices := rfl
@[simp] theorem updSlot_collectorFull (s : State) (p n : Nat) (f : Slot → Slot) : (updSlot s p n f).collectorFull = s.collectorFull := rfl
@[simp] theorem updSlot_feivl (s : State) (p n : Nat) (f : Slot → Slot) : (updSlot s p n f).feivl = s.feivl := rfl
@[simp] theorem updSlot_felim (s : State) (p n : Nat) (f : Slot → Slot) : (updSlot s p n f).felim = s.felim := rfl
@[simp] theorem updSlot_errRing (s : State) (p n : Nat) (f : Slot → Slot) : (updSlot s p n f).errRing = s.errRing := rfl
@[simp] theorem updSlot_ewp (s : State) (p n : Nat) (f : Slot → Slot) : (updSlot s p n f).ewp = s.ewp := rfl
@[simp] theorem updSlot_ehost (s : State) (p n : Nat) (f : Slot → Slot) : (updSlot s p n f).ehost = s.ehost := rfl
@[simp] theorem updSlot_emgt (s : State) (p n : Nat) (f : Slot → Slot) : (updSlot s p n f).emgt = s.emgt := rfl
@[simp] theorem updSlot_elost (s : State) (p n : Nat) (f : Slot → Slot) : (updSlot s p n f).elost = s.elost := rfl
@[simp] theorem updSlot_errQueue (s : State) (p n : Nat) (f : Slot → Slot) : (updSlot s p n f).errQueue = s.errQueue := rfl
@[simp] theorem updSlot_pcieUp (s : State) (p n : Nat) (f : Slot → Slot) : (updSlot s p n f).pcieUp = s.pcieUp := rfl
@[simp] theorem updSlot_transients (s : State) (p n : Nat) (f : Slot → Slot) : (updSlot s p n f).transients = s.transients := rfl
@[simp] theorem updSlot_hbper (s : State) (p n : Nat) (f : Slot → Slot) : (updSlot s p n f).hbper = s.hbper := rfl
@[simp] theorem updSlot_capto (s : State) (p n : Nat) (f : Slot → Slot) : (updSlot s p n f).capto = s.capto := rfl
@[simp] theorem updSlot_bootJournal (s : State) (p n : Nat) (f : Slot → Slot) : (updSlot s p n f).bootJournal = s.bootJournal := rfl
@[simp] theorem updSlot_starts (s : State) (p n : Nat) (f : Slot → Slot) : (updSlot s p n f).starts = s.starts := rfl
@[simp] theorem updSlot_bootFailed (s : State) (p n : Nat) (f : Slot → Slot) : (updSlot s p n f).bootFailed = s.bootFailed := rfl
@[simp] theorem updSlot_imagesOff (s : State) (p n : Nat) (f : Slot → Slot) : (updSlot s p n f).imagesOff = s.imagesOff := rfl
@[simp] theorem updSlot_invAt (s : State) (p n : Nat) (f : Slot → Slot) : (updSlot s p n f).invAt = s.invAt := rfl
@[simp] theorem updSlot_mgmtOff (s : State) (p n : Nat) (f : Slot → Slot) : (updSlot s p n f).mgmtOff = s.mgmtOff := rfl
@[simp] theorem updSlot_keyRevoked (s : State) (p n : Nat) (f : Slot → Slot) : (updSlot s p n f).keyRevoked = s.keyRevoked := rfl
@[simp] theorem updSlot_imageMin (s : State) (p n : Nat) (f : Slot → Slot) : (updSlot s p n f).imageMin = s.imageMin := rfl
@[simp] theorem updSlot_latchHeld (s : State) (p n : Nat) (f : Slot → Slot) : (updSlot s p n f).latchHeld = s.latchHeld := rfl
@[simp] theorem updSlot_pairChk (s : State) (p n : Nat) (f : Slot → Slot) : (updSlot s p n f).pairChk = s.pairChk := rfl
@[simp] theorem updSlot_pair (s : State) (p n : Nat) (f : Slot → Slot) : (updSlot s p n f).pair = s.pair := rfl
@[simp] theorem updSlot_image (s : State) (p n : Nat) (f : Slot → Slot) : (updSlot s p n f).image = s.image := rfl
@[simp] theorem updSlot_imagePoison (s : State) (p n : Nat) (f : Slot → Slot) : (updSlot s p n f).imagePoison = s.imagePoison := rfl
@[simp] theorem updSlot_latching (s : State) (p n : Nat) (f : Slot → Slot) : (updSlot s p n f).latching = s.latching := rfl
@[simp] theorem updSlot_latches (s : State) (p n : Nat) (f : Slot → Slot) : (updSlot s p n f).latches = s.latches := rfl
@[simp] theorem updSlot_staged (s : State) (p n : Nat) (f : Slot → Slot) : (updSlot s p n f).staged = s.staged := rfl
@[simp] theorem updSlot_gates (s : State) (p n : Nat) (f : Slot → Slot) : (updSlot s p n f).gates = s.gates := rfl
@[simp] theorem updSlot_ports (s : State) (p n : Nat) (f : Slot → Slot) : (updSlot s p n f).ports = s.ports := rfl
@[simp] theorem updSlot_visionQ (s : State) (p n : Nat) (f : Slot → Slot) : (updSlot s p n f).visionQ = s.visionQ := rfl
@[simp] theorem updSlot_engines (s : State) (p n : Nat) (f : Slot → Slot) : (updSlot s p n f).engines = s.engines := rfl
@[simp] theorem updSlot_vbuf (s : State) (p n : Nat) (f : Slot → Slot) : (updSlot s p n f).vbuf = s.vbuf := rfl
@[simp] theorem updSlot_vbufPoison (s : State) (p n : Nat) (f : Slot → Slot) : (updSlot s p n f).vbufPoison = s.vbufPoison := rfl
@[simp] theorem updSlot_harts (s : State) (p n : Nat) (f : Slot → Slot) : (updSlot s p n f).harts = s.harts := rfl
@[simp] theorem updSlot_anonce (s : State) (p n : Nat) (f : Slot → Slot) : (updSlot s p n f).anonce = s.anonce := rfl
@[simp] theorem updSlot_attBusy (s : State) (p n : Nat) (f : Slot → Slot) : (updSlot s p n f).attBusy = s.attBusy := rfl
@[simp] theorem updSlot_attNonce (s : State) (p n : Nat) (f : Slot → Slot) : (updSlot s p n f).attNonce = s.attNonce := rfl
@[simp] theorem updSlot_attSeq (s : State) (p n : Nat) (f : Slot → Slot) : (updSlot s p n f).attSeq = s.attSeq := rfl
@[simp] theorem updSlot_attCur (s : State) (p n : Nat) (f : Slot → Slot) : (updSlot s p n f).attCur = s.attCur := rfl
@[simp] theorem updSlot_areport (s : State) (p n : Nat) (f : Slot → Slot) : (updSlot s p n f).areport = s.areport := rfl
@[simp] theorem updSlot_devId (s : State) (p n : Nat) (f : Slot → Slot) : (updSlot s p n f).devId = s.devId := rfl
@[simp] theorem updSlot_activity (s : State) (p n : Nat) (f : Slot → Slot) : (updSlot s p n f).activity = s.activity := rfl
@[simp] theorem updSlot_sent (s : State) (p n : Nat) (f : Slot → Slot) : (updSlot s p n f).sent = s.sent := rfl
@[simp] theorem updSlot_agenda (s : State) (p n : Nat) (f : Slot → Slot) : (updSlot s p n f).agenda = s.agenda := rfl
@[simp] theorem updSlot_input (s : State) (p n : Nat) (f : Slot → Slot) : (updSlot s p n f).input = s.input := rfl
@[simp] theorem updSlot_draws (s : State) (p n : Nat) (f : Slot → Slot) : (updSlot s p n f).draws = s.draws := rfl
@[simp] theorem updSlot_who (s : State) (p n : Nat) (f : Slot → Slot) : (updSlot s p n f).who = s.who := rfl
@[simp] theorem updSlot_hartId (s : State) (p n : Nat) (f : Slot → Slot) : (updSlot s p n f).hartId = s.hartId := rfl
@[simp] theorem updSlot_word (s : State) (p n : Nat) (f : Slot → Slot) : (updSlot s p n f).word = s.word := rfl
@[simp] theorem updSlot_dropped (s : State) (p n : Nat) (f : Slot → Slot) : (updSlot s p n f).dropped = s.dropped := rfl
@[simp] theorem updSlot_keyHashes (s : State) (p n : Nat) (f : Slot → Slot) : (updSlot s p n f).keyHashes = s.keyHashes := rfl
@[simp] theorem updSlot_imageCorrected (s : State) (p n : Nat) (f : Slot → Slot) : (updSlot s p n f).imageCorrected = s.imageCorrected := rfl
@[simp] theorem updSlot_imageDigests (s : State) (p n : Nat) (f : Slot → Slot) : (updSlot s p n f).imageDigests = s.imageDigests := rfl

/-! ### updMe -/

@[simp] theorem updMe_clusters (s : State) (f : Slot → Slot) : (updMe s f).clusters = s.clusters := rfl
@[simp] theorem updMe_nodes (s : State) (f : Slot → Slot) : (updMe s f).nodes = s.nodes := rfl
@[simp] theorem updMe_mem (s : State) (f : Slot → Slot) : (updMe s f).mem = s.mem := rfl
@[simp] theorem updMe_memPoison (s : State) (f : Slot → Slot) : (updMe s f).memPoison = s.memPoison := rfl
@[simp] theorem updMe_memEcc (s : State) (f : Slot → Slot) : (updMe s f).memEcc = s.memEcc := rfl
@[simp] theorem updMe_durable (s : State) (f : Slot → Slot) : (updMe s f).durable = s.durable := rfl
@[simp] theorem updMe_durablePoison (s : State) (f : Slot → Slot) : (updMe s f).durablePoison = s.durablePoison := rfl
@[simp] theorem updMe_footAccept (s : State) (f : Slot → Slot) : (updMe s f).footAccept = s.footAccept := rfl
@[simp] theorem updMe_hodAccept (s : State) (f : Slot → Slot) : (updMe s f).hodAccept = s.hodAccept := rfl
@[simp] theorem updMe_regAccept (s : State) (f : Slot → Slot) : (updMe s f).regAccept = s.regAccept := rfl
@[simp] theorem updMe_coreTlb (s : State) (f : Slot → Slot) : (updMe s f).coreTlb = s.coreTlb := rfl
@[simp] theorem updMe_net (s : State) (f : Slot → Slot) : (updMe s f).net = s.net := rfl
@[simp] theorem updMe_heldMsgs (s : State) (f : Slot → Slot) : (updMe s f).heldMsgs = s.heldMsgs := rfl
@[simp] theorem updMe_nextTag (s : State) (f : Slot → Slot) : (updMe s f).nextTag = s.nextTag := rfl
@[simp] theorem updMe_lpct (s : State) (f : Slot → Slot) : (updMe s f).lpct = s.lpct := rfl
@[simp] theorem updMe_class1 (s : State) (f : Slot → Slot) : (updMe s f).class1 = s.class1 := rfl
@[simp] theorem updMe_remaps (s : State) (f : Slot → Slot) : (updMe s f).remaps = s.remaps := rfl
@[simp] theorem updMe_migrations (s : State) (f : Slot → Slot) : (updMe s f).migrations = s.migrations := rfl
@[simp] theorem updMe_jobs (s : State) (f : Slot → Slot) : (updMe s f).jobs = s.jobs := rfl
@[simp] theorem updMe_jobRegResult (s : State) (f : Slot → Slot) : (updMe s f).jobRegResult = s.jobRegResult := rfl
@[simp] theorem updMe_arbSeq (s : State) (f : Slot → Slot) : (updMe s f).arbSeq = s.arbSeq := rfl
@[simp] theorem updMe_quotas (s : State) (f : Slot → Slot) : (updMe s f).quotas = s.quotas := rfl
@[simp] theorem updMe_mortars (s : State) (f : Slot → Slot) : (updMe s f).mortars = s.mortars := rfl
@[simp] theorem updMe_meters (s : State) (f : Slot → Slot) : (updMe s f).meters = s.meters := rfl
@[simp] theorem updMe_ovfl (s : State) (f : Slot → Slot) : (updMe s f).ovfl = s.ovfl := rfl
@[simp] theorem updMe_graphs (s : State) (f : Slot → Slot) : (updMe s f).graphs = s.graphs := rfl
@[simp] theorem updMe_nextInst (s : State) (f : Slot → Slot) : (updMe s f).nextInst = s.nextInst := rfl
@[simp] theorem updMe_nextGen (s : State) (f : Slot → Slot) : (updMe s f).nextGen = s.nextGen := rfl
@[simp] theorem updMe_switches (s : State) (f : Slot → Slot) : (updMe s f).switches = s.switches := rfl
@[simp] theorem updMe_nextOrder (s : State) (f : Slot → Slot) : (updMe s f).nextOrder = s.nextOrder := rfl
@[simp] theorem updMe_run (s : State) (f : Slot → Slot) : (updMe s f).run = s.run := rfl
@[simp] theorem updMe_runErr (s : State) (f : Slot → Slot) : (updMe s f).runErr = s.runErr := rfl
@[simp] theorem updMe_period (s : State) (f : Slot → Slot) : (updMe s f).period = s.period := rfl
@[simp] theorem updMe_start (s : State) (f : Slot → Slot) : (updMe s f).start = s.start := rfl
@[simp] theorem updMe_stamp (s : State) (f : Slot → Slot) : (updMe s f).stamp = s.stamp := rfl
@[simp] theorem updMe_stamp0 (s : State) (f : Slot → Slot) : (updMe s f).stamp0 = s.stamp0 := rfl
@[simp] theorem updMe_stopPending (s : State) (f : Slot → Slot) : (updMe s f).stopPending = s.stopPending := rfl
@[simp] theorem updMe_scans (s : State) (f : Slot → Slot) : (updMe s f).scans = s.scans := rfl
@[simp] theorem updMe_plumb (s : State) (f : Slot → Slot) : (updMe s f).plumb = s.plumb := rfl
@[simp] theorem updMe_inva (s : State) (f : Slot → Slot) : (updMe s f).inva = s.inva := rfl
@[simp] theorem updMe_invc (s : State) (f : Slot → Slot) : (updMe s f).invc = s.invc := rfl
@[simp] theorem updMe_invBusy (s : State) (f : Slot → Slot) : (updMe s f).invBusy = s.invBusy := rfl
@[simp] theorem updMe_invDone (s : State) (f : Slot → Slot) : (updMe s f).invDone = s.invDone := rfl
@[simp] theorem updMe_invSeq (s : State) (f : Slot → Slot) : (updMe s f).invSeq = s.invSeq := rfl
@[simp] theorem updMe_arbWait (s : State) (f : Slot → Slot) : (updMe s f).arbWait = s.arbWait := rfl
@[simp] theorem updMe_faultRecs (s : State) (f : Slot → Slot) : (updMe s f).faultRecs = s.faultRecs := rfl
@[simp] theorem updMe_refusedNotices (s : State) (f : Slot → Slot) : (updMe s f).refusedNotices = s.refusedNotices := rfl
@[simp] theorem updMe_collectorFull (s : State) (f : Slot → Slot) : (updMe s f).collectorFull = s.collectorFull := rfl
@[simp] theorem updMe_feivl (s : State) (f : Slot → Slot) : (updMe s f).feivl = s.feivl := rfl
@[simp] theorem updMe_felim (s : State) (f : Slot → Slot) : (updMe s f).felim = s.felim := rfl
@[simp] theorem updMe_errRing (s : State) (f : Slot → Slot) : (updMe s f).errRing = s.errRing := rfl
@[simp] theorem updMe_ewp (s : State) (f : Slot → Slot) : (updMe s f).ewp = s.ewp := rfl
@[simp] theorem updMe_ehost (s : State) (f : Slot → Slot) : (updMe s f).ehost = s.ehost := rfl
@[simp] theorem updMe_emgt (s : State) (f : Slot → Slot) : (updMe s f).emgt = s.emgt := rfl
@[simp] theorem updMe_elost (s : State) (f : Slot → Slot) : (updMe s f).elost = s.elost := rfl
@[simp] theorem updMe_errQueue (s : State) (f : Slot → Slot) : (updMe s f).errQueue = s.errQueue := rfl
@[simp] theorem updMe_pcieUp (s : State) (f : Slot → Slot) : (updMe s f).pcieUp = s.pcieUp := rfl
@[simp] theorem updMe_transients (s : State) (f : Slot → Slot) : (updMe s f).transients = s.transients := rfl
@[simp] theorem updMe_hbper (s : State) (f : Slot → Slot) : (updMe s f).hbper = s.hbper := rfl
@[simp] theorem updMe_capto (s : State) (f : Slot → Slot) : (updMe s f).capto = s.capto := rfl
@[simp] theorem updMe_bootJournal (s : State) (f : Slot → Slot) : (updMe s f).bootJournal = s.bootJournal := rfl
@[simp] theorem updMe_starts (s : State) (f : Slot → Slot) : (updMe s f).starts = s.starts := rfl
@[simp] theorem updMe_bootFailed (s : State) (f : Slot → Slot) : (updMe s f).bootFailed = s.bootFailed := rfl
@[simp] theorem updMe_imagesOff (s : State) (f : Slot → Slot) : (updMe s f).imagesOff = s.imagesOff := rfl
@[simp] theorem updMe_invAt (s : State) (f : Slot → Slot) : (updMe s f).invAt = s.invAt := rfl
@[simp] theorem updMe_mgmtOff (s : State) (f : Slot → Slot) : (updMe s f).mgmtOff = s.mgmtOff := rfl
@[simp] theorem updMe_keyRevoked (s : State) (f : Slot → Slot) : (updMe s f).keyRevoked = s.keyRevoked := rfl
@[simp] theorem updMe_imageMin (s : State) (f : Slot → Slot) : (updMe s f).imageMin = s.imageMin := rfl
@[simp] theorem updMe_latchHeld (s : State) (f : Slot → Slot) : (updMe s f).latchHeld = s.latchHeld := rfl
@[simp] theorem updMe_pairChk (s : State) (f : Slot → Slot) : (updMe s f).pairChk = s.pairChk := rfl
@[simp] theorem updMe_pair (s : State) (f : Slot → Slot) : (updMe s f).pair = s.pair := rfl
@[simp] theorem updMe_image (s : State) (f : Slot → Slot) : (updMe s f).image = s.image := rfl
@[simp] theorem updMe_imagePoison (s : State) (f : Slot → Slot) : (updMe s f).imagePoison = s.imagePoison := rfl
@[simp] theorem updMe_latching (s : State) (f : Slot → Slot) : (updMe s f).latching = s.latching := rfl
@[simp] theorem updMe_latches (s : State) (f : Slot → Slot) : (updMe s f).latches = s.latches := rfl
@[simp] theorem updMe_staged (s : State) (f : Slot → Slot) : (updMe s f).staged = s.staged := rfl
@[simp] theorem updMe_gates (s : State) (f : Slot → Slot) : (updMe s f).gates = s.gates := rfl
@[simp] theorem updMe_ports (s : State) (f : Slot → Slot) : (updMe s f).ports = s.ports := rfl
@[simp] theorem updMe_visionQ (s : State) (f : Slot → Slot) : (updMe s f).visionQ = s.visionQ := rfl
@[simp] theorem updMe_engines (s : State) (f : Slot → Slot) : (updMe s f).engines = s.engines := rfl
@[simp] theorem updMe_vbuf (s : State) (f : Slot → Slot) : (updMe s f).vbuf = s.vbuf := rfl
@[simp] theorem updMe_vbufPoison (s : State) (f : Slot → Slot) : (updMe s f).vbufPoison = s.vbufPoison := rfl
@[simp] theorem updMe_harts (s : State) (f : Slot → Slot) : (updMe s f).harts = s.harts := rfl
@[simp] theorem updMe_anonce (s : State) (f : Slot → Slot) : (updMe s f).anonce = s.anonce := rfl
@[simp] theorem updMe_attBusy (s : State) (f : Slot → Slot) : (updMe s f).attBusy = s.attBusy := rfl
@[simp] theorem updMe_attNonce (s : State) (f : Slot → Slot) : (updMe s f).attNonce = s.attNonce := rfl
@[simp] theorem updMe_attSeq (s : State) (f : Slot → Slot) : (updMe s f).attSeq = s.attSeq := rfl
@[simp] theorem updMe_attCur (s : State) (f : Slot → Slot) : (updMe s f).attCur = s.attCur := rfl
@[simp] theorem updMe_areport (s : State) (f : Slot → Slot) : (updMe s f).areport = s.areport := rfl
@[simp] theorem updMe_devId (s : State) (f : Slot → Slot) : (updMe s f).devId = s.devId := rfl
@[simp] theorem updMe_activity (s : State) (f : Slot → Slot) : (updMe s f).activity = s.activity := rfl
@[simp] theorem updMe_sent (s : State) (f : Slot → Slot) : (updMe s f).sent = s.sent := rfl
@[simp] theorem updMe_agenda (s : State) (f : Slot → Slot) : (updMe s f).agenda = s.agenda := rfl
@[simp] theorem updMe_input (s : State) (f : Slot → Slot) : (updMe s f).input = s.input := rfl
@[simp] theorem updMe_draws (s : State) (f : Slot → Slot) : (updMe s f).draws = s.draws := rfl
@[simp] theorem updMe_who (s : State) (f : Slot → Slot) : (updMe s f).who = s.who := rfl
@[simp] theorem updMe_hartId (s : State) (f : Slot → Slot) : (updMe s f).hartId = s.hartId := rfl
@[simp] theorem updMe_word (s : State) (f : Slot → Slot) : (updMe s f).word = s.word := rfl
@[simp] theorem updMe_dropped (s : State) (f : Slot → Slot) : (updMe s f).dropped = s.dropped := rfl
@[simp] theorem updMe_keyHashes (s : State) (f : Slot → Slot) : (updMe s f).keyHashes = s.keyHashes := rfl
@[simp] theorem updMe_imageCorrected (s : State) (f : Slot → Slot) : (updMe s f).imageCorrected = s.imageCorrected := rfl
@[simp] theorem updMe_imageDigests (s : State) (f : Slot → Slot) : (updMe s f).imageDigests = s.imageDigests := rfl

/-! ### updCluster -/

@[simp] theorem updCluster_cores (s : State) (i : Nat) (f : Cluster → Cluster) : (updCluster s i f).cores = s.cores := rfl
@[simp] theorem updCluster_nodes (s : State) (i : Nat) (f : Cluster → Cluster) : (updCluster s i f).nodes = s.nodes := rfl
@[simp] theorem updCluster_mem (s : State) (i : Nat) (f : Cluster → Cluster) : (updCluster s i f).mem = s.mem := rfl
@[simp] theorem updCluster_memPoison (s : State) (i : Nat) (f : Cluster → Cluster) : (updCluster s i f).memPoison = s.memPoison := rfl
@[simp] theorem updCluster_memEcc (s : State) (i : Nat) (f : Cluster → Cluster) : (updCluster s i f).memEcc = s.memEcc := rfl
@[simp] theorem updCluster_durable (s : State) (i : Nat) (f : Cluster → Cluster) : (updCluster s i f).durable = s.durable := rfl
@[simp] theorem updCluster_durablePoison (s : State) (i : Nat) (f : Cluster → Cluster) : (updCluster s i f).durablePoison = s.durablePoison := rfl
@[simp] theorem updCluster_footAccept (s : State) (i : Nat) (f : Cluster → Cluster) : (updCluster s i f).footAccept = s.footAccept := rfl
@[simp] theorem updCluster_hodAccept (s : State) (i : Nat) (f : Cluster → Cluster) : (updCluster s i f).hodAccept = s.hodAccept := rfl
@[simp] theorem updCluster_regAccept (s : State) (i : Nat) (f : Cluster → Cluster) : (updCluster s i f).regAccept = s.regAccept := rfl
@[simp] theorem updCluster_coreTlb (s : State) (i : Nat) (f : Cluster → Cluster) : (updCluster s i f).coreTlb = s.coreTlb := rfl
@[simp] theorem updCluster_net (s : State) (i : Nat) (f : Cluster → Cluster) : (updCluster s i f).net = s.net := rfl
@[simp] theorem updCluster_heldMsgs (s : State) (i : Nat) (f : Cluster → Cluster) : (updCluster s i f).heldMsgs = s.heldMsgs := rfl
@[simp] theorem updCluster_nextTag (s : State) (i : Nat) (f : Cluster → Cluster) : (updCluster s i f).nextTag = s.nextTag := rfl
@[simp] theorem updCluster_lpct (s : State) (i : Nat) (f : Cluster → Cluster) : (updCluster s i f).lpct = s.lpct := rfl
@[simp] theorem updCluster_class1 (s : State) (i : Nat) (f : Cluster → Cluster) : (updCluster s i f).class1 = s.class1 := rfl
@[simp] theorem updCluster_remaps (s : State) (i : Nat) (f : Cluster → Cluster) : (updCluster s i f).remaps = s.remaps := rfl
@[simp] theorem updCluster_migrations (s : State) (i : Nat) (f : Cluster → Cluster) : (updCluster s i f).migrations = s.migrations := rfl
@[simp] theorem updCluster_jobs (s : State) (i : Nat) (f : Cluster → Cluster) : (updCluster s i f).jobs = s.jobs := rfl
@[simp] theorem updCluster_jobRegResult (s : State) (i : Nat) (f : Cluster → Cluster) : (updCluster s i f).jobRegResult = s.jobRegResult := rfl
@[simp] theorem updCluster_arbSeq (s : State) (i : Nat) (f : Cluster → Cluster) : (updCluster s i f).arbSeq = s.arbSeq := rfl
@[simp] theorem updCluster_quotas (s : State) (i : Nat) (f : Cluster → Cluster) : (updCluster s i f).quotas = s.quotas := rfl
@[simp] theorem updCluster_mortars (s : State) (i : Nat) (f : Cluster → Cluster) : (updCluster s i f).mortars = s.mortars := rfl
@[simp] theorem updCluster_meters (s : State) (i : Nat) (f : Cluster → Cluster) : (updCluster s i f).meters = s.meters := rfl
@[simp] theorem updCluster_ovfl (s : State) (i : Nat) (f : Cluster → Cluster) : (updCluster s i f).ovfl = s.ovfl := rfl
@[simp] theorem updCluster_graphs (s : State) (i : Nat) (f : Cluster → Cluster) : (updCluster s i f).graphs = s.graphs := rfl
@[simp] theorem updCluster_nextInst (s : State) (i : Nat) (f : Cluster → Cluster) : (updCluster s i f).nextInst = s.nextInst := rfl
@[simp] theorem updCluster_nextGen (s : State) (i : Nat) (f : Cluster → Cluster) : (updCluster s i f).nextGen = s.nextGen := rfl
@[simp] theorem updCluster_switches (s : State) (i : Nat) (f : Cluster → Cluster) : (updCluster s i f).switches = s.switches := rfl
@[simp] theorem updCluster_nextOrder (s : State) (i : Nat) (f : Cluster → Cluster) : (updCluster s i f).nextOrder = s.nextOrder := rfl
@[simp] theorem updCluster_run (s : State) (i : Nat) (f : Cluster → Cluster) : (updCluster s i f).run = s.run := rfl
@[simp] theorem updCluster_runErr (s : State) (i : Nat) (f : Cluster → Cluster) : (updCluster s i f).runErr = s.runErr := rfl
@[simp] theorem updCluster_period (s : State) (i : Nat) (f : Cluster → Cluster) : (updCluster s i f).period = s.period := rfl
@[simp] theorem updCluster_start (s : State) (i : Nat) (f : Cluster → Cluster) : (updCluster s i f).start = s.start := rfl
@[simp] theorem updCluster_stamp (s : State) (i : Nat) (f : Cluster → Cluster) : (updCluster s i f).stamp = s.stamp := rfl
@[simp] theorem updCluster_stamp0 (s : State) (i : Nat) (f : Cluster → Cluster) : (updCluster s i f).stamp0 = s.stamp0 := rfl
@[simp] theorem updCluster_stopPending (s : State) (i : Nat) (f : Cluster → Cluster) : (updCluster s i f).stopPending = s.stopPending := rfl
@[simp] theorem updCluster_scans (s : State) (i : Nat) (f : Cluster → Cluster) : (updCluster s i f).scans = s.scans := rfl
@[simp] theorem updCluster_plumb (s : State) (i : Nat) (f : Cluster → Cluster) : (updCluster s i f).plumb = s.plumb := rfl
@[simp] theorem updCluster_inva (s : State) (i : Nat) (f : Cluster → Cluster) : (updCluster s i f).inva = s.inva := rfl
@[simp] theorem updCluster_invc (s : State) (i : Nat) (f : Cluster → Cluster) : (updCluster s i f).invc = s.invc := rfl
@[simp] theorem updCluster_invBusy (s : State) (i : Nat) (f : Cluster → Cluster) : (updCluster s i f).invBusy = s.invBusy := rfl
@[simp] theorem updCluster_invDone (s : State) (i : Nat) (f : Cluster → Cluster) : (updCluster s i f).invDone = s.invDone := rfl
@[simp] theorem updCluster_invSeq (s : State) (i : Nat) (f : Cluster → Cluster) : (updCluster s i f).invSeq = s.invSeq := rfl
@[simp] theorem updCluster_arbWait (s : State) (i : Nat) (f : Cluster → Cluster) : (updCluster s i f).arbWait = s.arbWait := rfl
@[simp] theorem updCluster_faultRecs (s : State) (i : Nat) (f : Cluster → Cluster) : (updCluster s i f).faultRecs = s.faultRecs := rfl
@[simp] theorem updCluster_refusedNotices (s : State) (i : Nat) (f : Cluster → Cluster) : (updCluster s i f).refusedNotices = s.refusedNotices := rfl
@[simp] theorem updCluster_collectorFull (s : State) (i : Nat) (f : Cluster → Cluster) : (updCluster s i f).collectorFull = s.collectorFull := rfl
@[simp] theorem updCluster_feivl (s : State) (i : Nat) (f : Cluster → Cluster) : (updCluster s i f).feivl = s.feivl := rfl
@[simp] theorem updCluster_felim (s : State) (i : Nat) (f : Cluster → Cluster) : (updCluster s i f).felim = s.felim := rfl
@[simp] theorem updCluster_errRing (s : State) (i : Nat) (f : Cluster → Cluster) : (updCluster s i f).errRing = s.errRing := rfl
@[simp] theorem updCluster_ewp (s : State) (i : Nat) (f : Cluster → Cluster) : (updCluster s i f).ewp = s.ewp := rfl
@[simp] theorem updCluster_ehost (s : State) (i : Nat) (f : Cluster → Cluster) : (updCluster s i f).ehost = s.ehost := rfl
@[simp] theorem updCluster_emgt (s : State) (i : Nat) (f : Cluster → Cluster) : (updCluster s i f).emgt = s.emgt := rfl
@[simp] theorem updCluster_elost (s : State) (i : Nat) (f : Cluster → Cluster) : (updCluster s i f).elost = s.elost := rfl
@[simp] theorem updCluster_errQueue (s : State) (i : Nat) (f : Cluster → Cluster) : (updCluster s i f).errQueue = s.errQueue := rfl
@[simp] theorem updCluster_pcieUp (s : State) (i : Nat) (f : Cluster → Cluster) : (updCluster s i f).pcieUp = s.pcieUp := rfl
@[simp] theorem updCluster_transients (s : State) (i : Nat) (f : Cluster → Cluster) : (updCluster s i f).transients = s.transients := rfl
@[simp] theorem updCluster_hbper (s : State) (i : Nat) (f : Cluster → Cluster) : (updCluster s i f).hbper = s.hbper := rfl
@[simp] theorem updCluster_capto (s : State) (i : Nat) (f : Cluster → Cluster) : (updCluster s i f).capto = s.capto := rfl
@[simp] theorem updCluster_bootJournal (s : State) (i : Nat) (f : Cluster → Cluster) : (updCluster s i f).bootJournal = s.bootJournal := rfl
@[simp] theorem updCluster_starts (s : State) (i : Nat) (f : Cluster → Cluster) : (updCluster s i f).starts = s.starts := rfl
@[simp] theorem updCluster_bootFailed (s : State) (i : Nat) (f : Cluster → Cluster) : (updCluster s i f).bootFailed = s.bootFailed := rfl
@[simp] theorem updCluster_imagesOff (s : State) (i : Nat) (f : Cluster → Cluster) : (updCluster s i f).imagesOff = s.imagesOff := rfl
@[simp] theorem updCluster_invAt (s : State) (i : Nat) (f : Cluster → Cluster) : (updCluster s i f).invAt = s.invAt := rfl
@[simp] theorem updCluster_mgmtOff (s : State) (i : Nat) (f : Cluster → Cluster) : (updCluster s i f).mgmtOff = s.mgmtOff := rfl
@[simp] theorem updCluster_keyRevoked (s : State) (i : Nat) (f : Cluster → Cluster) : (updCluster s i f).keyRevoked = s.keyRevoked := rfl
@[simp] theorem updCluster_imageMin (s : State) (i : Nat) (f : Cluster → Cluster) : (updCluster s i f).imageMin = s.imageMin := rfl
@[simp] theorem updCluster_latchHeld (s : State) (i : Nat) (f : Cluster → Cluster) : (updCluster s i f).latchHeld = s.latchHeld := rfl
@[simp] theorem updCluster_pairChk (s : State) (i : Nat) (f : Cluster → Cluster) : (updCluster s i f).pairChk = s.pairChk := rfl
@[simp] theorem updCluster_pair (s : State) (i : Nat) (f : Cluster → Cluster) : (updCluster s i f).pair = s.pair := rfl
@[simp] theorem updCluster_image (s : State) (i : Nat) (f : Cluster → Cluster) : (updCluster s i f).image = s.image := rfl
@[simp] theorem updCluster_imagePoison (s : State) (i : Nat) (f : Cluster → Cluster) : (updCluster s i f).imagePoison = s.imagePoison := rfl
@[simp] theorem updCluster_latching (s : State) (i : Nat) (f : Cluster → Cluster) : (updCluster s i f).latching = s.latching := rfl
@[simp] theorem updCluster_latches (s : State) (i : Nat) (f : Cluster → Cluster) : (updCluster s i f).latches = s.latches := rfl
@[simp] theorem updCluster_staged (s : State) (i : Nat) (f : Cluster → Cluster) : (updCluster s i f).staged = s.staged := rfl
@[simp] theorem updCluster_gates (s : State) (i : Nat) (f : Cluster → Cluster) : (updCluster s i f).gates = s.gates := rfl
@[simp] theorem updCluster_ports (s : State) (i : Nat) (f : Cluster → Cluster) : (updCluster s i f).ports = s.ports := rfl
@[simp] theorem updCluster_visionQ (s : State) (i : Nat) (f : Cluster → Cluster) : (updCluster s i f).visionQ = s.visionQ := rfl
@[simp] theorem updCluster_engines (s : State) (i : Nat) (f : Cluster → Cluster) : (updCluster s i f).engines = s.engines := rfl
@[simp] theorem updCluster_vbuf (s : State) (i : Nat) (f : Cluster → Cluster) : (updCluster s i f).vbuf = s.vbuf := rfl
@[simp] theorem updCluster_vbufPoison (s : State) (i : Nat) (f : Cluster → Cluster) : (updCluster s i f).vbufPoison = s.vbufPoison := rfl
@[simp] theorem updCluster_harts (s : State) (i : Nat) (f : Cluster → Cluster) : (updCluster s i f).harts = s.harts := rfl
@[simp] theorem updCluster_anonce (s : State) (i : Nat) (f : Cluster → Cluster) : (updCluster s i f).anonce = s.anonce := rfl
@[simp] theorem updCluster_attBusy (s : State) (i : Nat) (f : Cluster → Cluster) : (updCluster s i f).attBusy = s.attBusy := rfl
@[simp] theorem updCluster_attNonce (s : State) (i : Nat) (f : Cluster → Cluster) : (updCluster s i f).attNonce = s.attNonce := rfl
@[simp] theorem updCluster_attSeq (s : State) (i : Nat) (f : Cluster → Cluster) : (updCluster s i f).attSeq = s.attSeq := rfl
@[simp] theorem updCluster_attCur (s : State) (i : Nat) (f : Cluster → Cluster) : (updCluster s i f).attCur = s.attCur := rfl
@[simp] theorem updCluster_areport (s : State) (i : Nat) (f : Cluster → Cluster) : (updCluster s i f).areport = s.areport := rfl
@[simp] theorem updCluster_devId (s : State) (i : Nat) (f : Cluster → Cluster) : (updCluster s i f).devId = s.devId := rfl
@[simp] theorem updCluster_activity (s : State) (i : Nat) (f : Cluster → Cluster) : (updCluster s i f).activity = s.activity := rfl
@[simp] theorem updCluster_sent (s : State) (i : Nat) (f : Cluster → Cluster) : (updCluster s i f).sent = s.sent := rfl
@[simp] theorem updCluster_agenda (s : State) (i : Nat) (f : Cluster → Cluster) : (updCluster s i f).agenda = s.agenda := rfl
@[simp] theorem updCluster_input (s : State) (i : Nat) (f : Cluster → Cluster) : (updCluster s i f).input = s.input := rfl
@[simp] theorem updCluster_draws (s : State) (i : Nat) (f : Cluster → Cluster) : (updCluster s i f).draws = s.draws := rfl
@[simp] theorem updCluster_who (s : State) (i : Nat) (f : Cluster → Cluster) : (updCluster s i f).who = s.who := rfl
@[simp] theorem updCluster_hartId (s : State) (i : Nat) (f : Cluster → Cluster) : (updCluster s i f).hartId = s.hartId := rfl
@[simp] theorem updCluster_word (s : State) (i : Nat) (f : Cluster → Cluster) : (updCluster s i f).word = s.word := rfl
@[simp] theorem updCluster_dropped (s : State) (i : Nat) (f : Cluster → Cluster) : (updCluster s i f).dropped = s.dropped := rfl
@[simp] theorem updCluster_keyHashes (s : State) (i : Nat) (f : Cluster → Cluster) : (updCluster s i f).keyHashes = s.keyHashes := rfl
@[simp] theorem updCluster_imageCorrected (s : State) (i : Nat) (f : Cluster → Cluster) : (updCluster s i f).imageCorrected = s.imageCorrected := rfl
@[simp] theorem updCluster_imageDigests (s : State) (i : Nat) (f : Cluster → Cluster) : (updCluster s i f).imageDigests = s.imageDigests := rfl

/-! ### updNode -/

@[simp] theorem updNode_cores (s : State) (n : Nat) (f : MNode → MNode) : (updNode s n f).cores = s.cores := rfl
@[simp] theorem updNode_clusters (s : State) (n : Nat) (f : MNode → MNode) : (updNode s n f).clusters = s.clusters := rfl
@[simp] theorem updNode_mem (s : State) (n : Nat) (f : MNode → MNode) : (updNode s n f).mem = s.mem := rfl
@[simp] theorem updNode_memPoison (s : State) (n : Nat) (f : MNode → MNode) : (updNode s n f).memPoison = s.memPoison := rfl
@[simp] theorem updNode_memEcc (s : State) (n : Nat) (f : MNode → MNode) : (updNode s n f).memEcc = s.memEcc := rfl
@[simp] theorem updNode_durable (s : State) (n : Nat) (f : MNode → MNode) : (updNode s n f).durable = s.durable := rfl
@[simp] theorem updNode_durablePoison (s : State) (n : Nat) (f : MNode → MNode) : (updNode s n f).durablePoison = s.durablePoison := rfl
@[simp] theorem updNode_footAccept (s : State) (n : Nat) (f : MNode → MNode) : (updNode s n f).footAccept = s.footAccept := rfl
@[simp] theorem updNode_hodAccept (s : State) (n : Nat) (f : MNode → MNode) : (updNode s n f).hodAccept = s.hodAccept := rfl
@[simp] theorem updNode_regAccept (s : State) (n : Nat) (f : MNode → MNode) : (updNode s n f).regAccept = s.regAccept := rfl
@[simp] theorem updNode_coreTlb (s : State) (n : Nat) (f : MNode → MNode) : (updNode s n f).coreTlb = s.coreTlb := rfl
@[simp] theorem updNode_net (s : State) (n : Nat) (f : MNode → MNode) : (updNode s n f).net = s.net := rfl
@[simp] theorem updNode_heldMsgs (s : State) (n : Nat) (f : MNode → MNode) : (updNode s n f).heldMsgs = s.heldMsgs := rfl
@[simp] theorem updNode_nextTag (s : State) (n : Nat) (f : MNode → MNode) : (updNode s n f).nextTag = s.nextTag := rfl
@[simp] theorem updNode_lpct (s : State) (n : Nat) (f : MNode → MNode) : (updNode s n f).lpct = s.lpct := rfl
@[simp] theorem updNode_class1 (s : State) (n : Nat) (f : MNode → MNode) : (updNode s n f).class1 = s.class1 := rfl
@[simp] theorem updNode_remaps (s : State) (n : Nat) (f : MNode → MNode) : (updNode s n f).remaps = s.remaps := rfl
@[simp] theorem updNode_migrations (s : State) (n : Nat) (f : MNode → MNode) : (updNode s n f).migrations = s.migrations := rfl
@[simp] theorem updNode_jobs (s : State) (n : Nat) (f : MNode → MNode) : (updNode s n f).jobs = s.jobs := rfl
@[simp] theorem updNode_jobRegResult (s : State) (n : Nat) (f : MNode → MNode) : (updNode s n f).jobRegResult = s.jobRegResult := rfl
@[simp] theorem updNode_arbSeq (s : State) (n : Nat) (f : MNode → MNode) : (updNode s n f).arbSeq = s.arbSeq := rfl
@[simp] theorem updNode_quotas (s : State) (n : Nat) (f : MNode → MNode) : (updNode s n f).quotas = s.quotas := rfl
@[simp] theorem updNode_mortars (s : State) (n : Nat) (f : MNode → MNode) : (updNode s n f).mortars = s.mortars := rfl
@[simp] theorem updNode_meters (s : State) (n : Nat) (f : MNode → MNode) : (updNode s n f).meters = s.meters := rfl
@[simp] theorem updNode_ovfl (s : State) (n : Nat) (f : MNode → MNode) : (updNode s n f).ovfl = s.ovfl := rfl
@[simp] theorem updNode_graphs (s : State) (n : Nat) (f : MNode → MNode) : (updNode s n f).graphs = s.graphs := rfl
@[simp] theorem updNode_nextInst (s : State) (n : Nat) (f : MNode → MNode) : (updNode s n f).nextInst = s.nextInst := rfl
@[simp] theorem updNode_nextGen (s : State) (n : Nat) (f : MNode → MNode) : (updNode s n f).nextGen = s.nextGen := rfl
@[simp] theorem updNode_switches (s : State) (n : Nat) (f : MNode → MNode) : (updNode s n f).switches = s.switches := rfl
@[simp] theorem updNode_nextOrder (s : State) (n : Nat) (f : MNode → MNode) : (updNode s n f).nextOrder = s.nextOrder := rfl
@[simp] theorem updNode_run (s : State) (n : Nat) (f : MNode → MNode) : (updNode s n f).run = s.run := rfl
@[simp] theorem updNode_runErr (s : State) (n : Nat) (f : MNode → MNode) : (updNode s n f).runErr = s.runErr := rfl
@[simp] theorem updNode_period (s : State) (n : Nat) (f : MNode → MNode) : (updNode s n f).period = s.period := rfl
@[simp] theorem updNode_start (s : State) (n : Nat) (f : MNode → MNode) : (updNode s n f).start = s.start := rfl
@[simp] theorem updNode_stamp (s : State) (n : Nat) (f : MNode → MNode) : (updNode s n f).stamp = s.stamp := rfl
@[simp] theorem updNode_stamp0 (s : State) (n : Nat) (f : MNode → MNode) : (updNode s n f).stamp0 = s.stamp0 := rfl
@[simp] theorem updNode_stopPending (s : State) (n : Nat) (f : MNode → MNode) : (updNode s n f).stopPending = s.stopPending := rfl
@[simp] theorem updNode_scans (s : State) (n : Nat) (f : MNode → MNode) : (updNode s n f).scans = s.scans := rfl
@[simp] theorem updNode_plumb (s : State) (n : Nat) (f : MNode → MNode) : (updNode s n f).plumb = s.plumb := rfl
@[simp] theorem updNode_inva (s : State) (n : Nat) (f : MNode → MNode) : (updNode s n f).inva = s.inva := rfl
@[simp] theorem updNode_invc (s : State) (n : Nat) (f : MNode → MNode) : (updNode s n f).invc = s.invc := rfl
@[simp] theorem updNode_invBusy (s : State) (n : Nat) (f : MNode → MNode) : (updNode s n f).invBusy = s.invBusy := rfl
@[simp] theorem updNode_invDone (s : State) (n : Nat) (f : MNode → MNode) : (updNode s n f).invDone = s.invDone := rfl
@[simp] theorem updNode_invSeq (s : State) (n : Nat) (f : MNode → MNode) : (updNode s n f).invSeq = s.invSeq := rfl
@[simp] theorem updNode_arbWait (s : State) (n : Nat) (f : MNode → MNode) : (updNode s n f).arbWait = s.arbWait := rfl
@[simp] theorem updNode_faultRecs (s : State) (n : Nat) (f : MNode → MNode) : (updNode s n f).faultRecs = s.faultRecs := rfl
@[simp] theorem updNode_refusedNotices (s : State) (n : Nat) (f : MNode → MNode) : (updNode s n f).refusedNotices = s.refusedNotices := rfl
@[simp] theorem updNode_collectorFull (s : State) (n : Nat) (f : MNode → MNode) : (updNode s n f).collectorFull = s.collectorFull := rfl
@[simp] theorem updNode_feivl (s : State) (n : Nat) (f : MNode → MNode) : (updNode s n f).feivl = s.feivl := rfl
@[simp] theorem updNode_felim (s : State) (n : Nat) (f : MNode → MNode) : (updNode s n f).felim = s.felim := rfl
@[simp] theorem updNode_errRing (s : State) (n : Nat) (f : MNode → MNode) : (updNode s n f).errRing = s.errRing := rfl
@[simp] theorem updNode_ewp (s : State) (n : Nat) (f : MNode → MNode) : (updNode s n f).ewp = s.ewp := rfl
@[simp] theorem updNode_ehost (s : State) (n : Nat) (f : MNode → MNode) : (updNode s n f).ehost = s.ehost := rfl
@[simp] theorem updNode_emgt (s : State) (n : Nat) (f : MNode → MNode) : (updNode s n f).emgt = s.emgt := rfl
@[simp] theorem updNode_elost (s : State) (n : Nat) (f : MNode → MNode) : (updNode s n f).elost = s.elost := rfl
@[simp] theorem updNode_errQueue (s : State) (n : Nat) (f : MNode → MNode) : (updNode s n f).errQueue = s.errQueue := rfl
@[simp] theorem updNode_pcieUp (s : State) (n : Nat) (f : MNode → MNode) : (updNode s n f).pcieUp = s.pcieUp := rfl
@[simp] theorem updNode_transients (s : State) (n : Nat) (f : MNode → MNode) : (updNode s n f).transients = s.transients := rfl
@[simp] theorem updNode_hbper (s : State) (n : Nat) (f : MNode → MNode) : (updNode s n f).hbper = s.hbper := rfl
@[simp] theorem updNode_capto (s : State) (n : Nat) (f : MNode → MNode) : (updNode s n f).capto = s.capto := rfl
@[simp] theorem updNode_bootJournal (s : State) (n : Nat) (f : MNode → MNode) : (updNode s n f).bootJournal = s.bootJournal := rfl
@[simp] theorem updNode_starts (s : State) (n : Nat) (f : MNode → MNode) : (updNode s n f).starts = s.starts := rfl
@[simp] theorem updNode_bootFailed (s : State) (n : Nat) (f : MNode → MNode) : (updNode s n f).bootFailed = s.bootFailed := rfl
@[simp] theorem updNode_imagesOff (s : State) (n : Nat) (f : MNode → MNode) : (updNode s n f).imagesOff = s.imagesOff := rfl
@[simp] theorem updNode_invAt (s : State) (n : Nat) (f : MNode → MNode) : (updNode s n f).invAt = s.invAt := rfl
@[simp] theorem updNode_mgmtOff (s : State) (n : Nat) (f : MNode → MNode) : (updNode s n f).mgmtOff = s.mgmtOff := rfl
@[simp] theorem updNode_keyRevoked (s : State) (n : Nat) (f : MNode → MNode) : (updNode s n f).keyRevoked = s.keyRevoked := rfl
@[simp] theorem updNode_imageMin (s : State) (n : Nat) (f : MNode → MNode) : (updNode s n f).imageMin = s.imageMin := rfl
@[simp] theorem updNode_latchHeld (s : State) (n : Nat) (f : MNode → MNode) : (updNode s n f).latchHeld = s.latchHeld := rfl
@[simp] theorem updNode_pairChk (s : State) (n : Nat) (f : MNode → MNode) : (updNode s n f).pairChk = s.pairChk := rfl
@[simp] theorem updNode_pair (s : State) (n : Nat) (f : MNode → MNode) : (updNode s n f).pair = s.pair := rfl
@[simp] theorem updNode_image (s : State) (n : Nat) (f : MNode → MNode) : (updNode s n f).image = s.image := rfl
@[simp] theorem updNode_imagePoison (s : State) (n : Nat) (f : MNode → MNode) : (updNode s n f).imagePoison = s.imagePoison := rfl
@[simp] theorem updNode_latching (s : State) (n : Nat) (f : MNode → MNode) : (updNode s n f).latching = s.latching := rfl
@[simp] theorem updNode_latches (s : State) (n : Nat) (f : MNode → MNode) : (updNode s n f).latches = s.latches := rfl
@[simp] theorem updNode_staged (s : State) (n : Nat) (f : MNode → MNode) : (updNode s n f).staged = s.staged := rfl
@[simp] theorem updNode_gates (s : State) (n : Nat) (f : MNode → MNode) : (updNode s n f).gates = s.gates := rfl
@[simp] theorem updNode_ports (s : State) (n : Nat) (f : MNode → MNode) : (updNode s n f).ports = s.ports := rfl
@[simp] theorem updNode_visionQ (s : State) (n : Nat) (f : MNode → MNode) : (updNode s n f).visionQ = s.visionQ := rfl
@[simp] theorem updNode_engines (s : State) (n : Nat) (f : MNode → MNode) : (updNode s n f).engines = s.engines := rfl
@[simp] theorem updNode_vbuf (s : State) (n : Nat) (f : MNode → MNode) : (updNode s n f).vbuf = s.vbuf := rfl
@[simp] theorem updNode_vbufPoison (s : State) (n : Nat) (f : MNode → MNode) : (updNode s n f).vbufPoison = s.vbufPoison := rfl
@[simp] theorem updNode_harts (s : State) (n : Nat) (f : MNode → MNode) : (updNode s n f).harts = s.harts := rfl
@[simp] theorem updNode_anonce (s : State) (n : Nat) (f : MNode → MNode) : (updNode s n f).anonce = s.anonce := rfl
@[simp] theorem updNode_attBusy (s : State) (n : Nat) (f : MNode → MNode) : (updNode s n f).attBusy = s.attBusy := rfl
@[simp] theorem updNode_attNonce (s : State) (n : Nat) (f : MNode → MNode) : (updNode s n f).attNonce = s.attNonce := rfl
@[simp] theorem updNode_attSeq (s : State) (n : Nat) (f : MNode → MNode) : (updNode s n f).attSeq = s.attSeq := rfl
@[simp] theorem updNode_attCur (s : State) (n : Nat) (f : MNode → MNode) : (updNode s n f).attCur = s.attCur := rfl
@[simp] theorem updNode_areport (s : State) (n : Nat) (f : MNode → MNode) : (updNode s n f).areport = s.areport := rfl
@[simp] theorem updNode_devId (s : State) (n : Nat) (f : MNode → MNode) : (updNode s n f).devId = s.devId := rfl
@[simp] theorem updNode_activity (s : State) (n : Nat) (f : MNode → MNode) : (updNode s n f).activity = s.activity := rfl
@[simp] theorem updNode_sent (s : State) (n : Nat) (f : MNode → MNode) : (updNode s n f).sent = s.sent := rfl
@[simp] theorem updNode_agenda (s : State) (n : Nat) (f : MNode → MNode) : (updNode s n f).agenda = s.agenda := rfl
@[simp] theorem updNode_input (s : State) (n : Nat) (f : MNode → MNode) : (updNode s n f).input = s.input := rfl
@[simp] theorem updNode_draws (s : State) (n : Nat) (f : MNode → MNode) : (updNode s n f).draws = s.draws := rfl
@[simp] theorem updNode_who (s : State) (n : Nat) (f : MNode → MNode) : (updNode s n f).who = s.who := rfl
@[simp] theorem updNode_hartId (s : State) (n : Nat) (f : MNode → MNode) : (updNode s n f).hartId = s.hartId := rfl
@[simp] theorem updNode_word (s : State) (n : Nat) (f : MNode → MNode) : (updNode s n f).word = s.word := rfl
@[simp] theorem updNode_dropped (s : State) (n : Nat) (f : MNode → MNode) : (updNode s n f).dropped = s.dropped := rfl
@[simp] theorem updNode_keyHashes (s : State) (n : Nat) (f : MNode → MNode) : (updNode s n f).keyHashes = s.keyHashes := rfl
@[simp] theorem updNode_imageCorrected (s : State) (n : Nat) (f : MNode → MNode) : (updNode s n f).imageCorrected = s.imageCorrected := rfl
@[simp] theorem updNode_imageDigests (s : State) (n : Nat) (f : MNode → MNode) : (updNode s n f).imageDigests = s.imageDigests := rfl

/-! ### updGate -/

@[simp] theorem updGate_cores (s : State) (g : Nat) (f : Gate → Gate) : (updGate s g f).cores = s.cores := rfl
@[simp] theorem updGate_clusters (s : State) (g : Nat) (f : Gate → Gate) : (updGate s g f).clusters = s.clusters := rfl
@[simp] theorem updGate_nodes (s : State) (g : Nat) (f : Gate → Gate) : (updGate s g f).nodes = s.nodes := rfl
@[simp] theorem updGate_mem (s : State) (g : Nat) (f : Gate → Gate) : (updGate s g f).mem = s.mem := rfl
@[simp] theorem updGate_memPoison (s : State) (g : Nat) (f : Gate → Gate) : (updGate s g f).memPoison = s.memPoison := rfl
@[simp] theorem updGate_memEcc (s : State) (g : Nat) (f : Gate → Gate) : (updGate s g f).memEcc = s.memEcc := rfl
@[simp] theorem updGate_durable (s : State) (g : Nat) (f : Gate → Gate) : (updGate s g f).durable = s.durable := rfl
@[simp] theorem updGate_durablePoison (s : State) (g : Nat) (f : Gate → Gate) : (updGate s g f).durablePoison = s.durablePoison := rfl
@[simp] theorem updGate_footAccept (s : State) (g : Nat) (f : Gate → Gate) : (updGate s g f).footAccept = s.footAccept := rfl
@[simp] theorem updGate_hodAccept (s : State) (g : Nat) (f : Gate → Gate) : (updGate s g f).hodAccept = s.hodAccept := rfl
@[simp] theorem updGate_regAccept (s : State) (g : Nat) (f : Gate → Gate) : (updGate s g f).regAccept = s.regAccept := rfl
@[simp] theorem updGate_coreTlb (s : State) (g : Nat) (f : Gate → Gate) : (updGate s g f).coreTlb = s.coreTlb := rfl
@[simp] theorem updGate_net (s : State) (g : Nat) (f : Gate → Gate) : (updGate s g f).net = s.net := rfl
@[simp] theorem updGate_heldMsgs (s : State) (g : Nat) (f : Gate → Gate) : (updGate s g f).heldMsgs = s.heldMsgs := rfl
@[simp] theorem updGate_nextTag (s : State) (g : Nat) (f : Gate → Gate) : (updGate s g f).nextTag = s.nextTag := rfl
@[simp] theorem updGate_lpct (s : State) (g : Nat) (f : Gate → Gate) : (updGate s g f).lpct = s.lpct := rfl
@[simp] theorem updGate_class1 (s : State) (g : Nat) (f : Gate → Gate) : (updGate s g f).class1 = s.class1 := rfl
@[simp] theorem updGate_remaps (s : State) (g : Nat) (f : Gate → Gate) : (updGate s g f).remaps = s.remaps := rfl
@[simp] theorem updGate_migrations (s : State) (g : Nat) (f : Gate → Gate) : (updGate s g f).migrations = s.migrations := rfl
@[simp] theorem updGate_jobs (s : State) (g : Nat) (f : Gate → Gate) : (updGate s g f).jobs = s.jobs := rfl
@[simp] theorem updGate_jobRegResult (s : State) (g : Nat) (f : Gate → Gate) : (updGate s g f).jobRegResult = s.jobRegResult := rfl
@[simp] theorem updGate_arbSeq (s : State) (g : Nat) (f : Gate → Gate) : (updGate s g f).arbSeq = s.arbSeq := rfl
@[simp] theorem updGate_quotas (s : State) (g : Nat) (f : Gate → Gate) : (updGate s g f).quotas = s.quotas := rfl
@[simp] theorem updGate_mortars (s : State) (g : Nat) (f : Gate → Gate) : (updGate s g f).mortars = s.mortars := rfl
@[simp] theorem updGate_meters (s : State) (g : Nat) (f : Gate → Gate) : (updGate s g f).meters = s.meters := rfl
@[simp] theorem updGate_ovfl (s : State) (g : Nat) (f : Gate → Gate) : (updGate s g f).ovfl = s.ovfl := rfl
@[simp] theorem updGate_graphs (s : State) (g : Nat) (f : Gate → Gate) : (updGate s g f).graphs = s.graphs := rfl
@[simp] theorem updGate_nextInst (s : State) (g : Nat) (f : Gate → Gate) : (updGate s g f).nextInst = s.nextInst := rfl
@[simp] theorem updGate_nextGen (s : State) (g : Nat) (f : Gate → Gate) : (updGate s g f).nextGen = s.nextGen := rfl
@[simp] theorem updGate_switches (s : State) (g : Nat) (f : Gate → Gate) : (updGate s g f).switches = s.switches := rfl
@[simp] theorem updGate_nextOrder (s : State) (g : Nat) (f : Gate → Gate) : (updGate s g f).nextOrder = s.nextOrder := rfl
@[simp] theorem updGate_run (s : State) (g : Nat) (f : Gate → Gate) : (updGate s g f).run = s.run := rfl
@[simp] theorem updGate_runErr (s : State) (g : Nat) (f : Gate → Gate) : (updGate s g f).runErr = s.runErr := rfl
@[simp] theorem updGate_period (s : State) (g : Nat) (f : Gate → Gate) : (updGate s g f).period = s.period := rfl
@[simp] theorem updGate_start (s : State) (g : Nat) (f : Gate → Gate) : (updGate s g f).start = s.start := rfl
@[simp] theorem updGate_stamp (s : State) (g : Nat) (f : Gate → Gate) : (updGate s g f).stamp = s.stamp := rfl
@[simp] theorem updGate_stamp0 (s : State) (g : Nat) (f : Gate → Gate) : (updGate s g f).stamp0 = s.stamp0 := rfl
@[simp] theorem updGate_stopPending (s : State) (g : Nat) (f : Gate → Gate) : (updGate s g f).stopPending = s.stopPending := rfl
@[simp] theorem updGate_scans (s : State) (g : Nat) (f : Gate → Gate) : (updGate s g f).scans = s.scans := rfl
@[simp] theorem updGate_plumb (s : State) (g : Nat) (f : Gate → Gate) : (updGate s g f).plumb = s.plumb := rfl
@[simp] theorem updGate_inva (s : State) (g : Nat) (f : Gate → Gate) : (updGate s g f).inva = s.inva := rfl
@[simp] theorem updGate_invc (s : State) (g : Nat) (f : Gate → Gate) : (updGate s g f).invc = s.invc := rfl
@[simp] theorem updGate_invBusy (s : State) (g : Nat) (f : Gate → Gate) : (updGate s g f).invBusy = s.invBusy := rfl
@[simp] theorem updGate_invDone (s : State) (g : Nat) (f : Gate → Gate) : (updGate s g f).invDone = s.invDone := rfl
@[simp] theorem updGate_invSeq (s : State) (g : Nat) (f : Gate → Gate) : (updGate s g f).invSeq = s.invSeq := rfl
@[simp] theorem updGate_arbWait (s : State) (g : Nat) (f : Gate → Gate) : (updGate s g f).arbWait = s.arbWait := rfl
@[simp] theorem updGate_faultRecs (s : State) (g : Nat) (f : Gate → Gate) : (updGate s g f).faultRecs = s.faultRecs := rfl
@[simp] theorem updGate_refusedNotices (s : State) (g : Nat) (f : Gate → Gate) : (updGate s g f).refusedNotices = s.refusedNotices := rfl
@[simp] theorem updGate_collectorFull (s : State) (g : Nat) (f : Gate → Gate) : (updGate s g f).collectorFull = s.collectorFull := rfl
@[simp] theorem updGate_feivl (s : State) (g : Nat) (f : Gate → Gate) : (updGate s g f).feivl = s.feivl := rfl
@[simp] theorem updGate_felim (s : State) (g : Nat) (f : Gate → Gate) : (updGate s g f).felim = s.felim := rfl
@[simp] theorem updGate_errRing (s : State) (g : Nat) (f : Gate → Gate) : (updGate s g f).errRing = s.errRing := rfl
@[simp] theorem updGate_ewp (s : State) (g : Nat) (f : Gate → Gate) : (updGate s g f).ewp = s.ewp := rfl
@[simp] theorem updGate_ehost (s : State) (g : Nat) (f : Gate → Gate) : (updGate s g f).ehost = s.ehost := rfl
@[simp] theorem updGate_emgt (s : State) (g : Nat) (f : Gate → Gate) : (updGate s g f).emgt = s.emgt := rfl
@[simp] theorem updGate_elost (s : State) (g : Nat) (f : Gate → Gate) : (updGate s g f).elost = s.elost := rfl
@[simp] theorem updGate_errQueue (s : State) (g : Nat) (f : Gate → Gate) : (updGate s g f).errQueue = s.errQueue := rfl
@[simp] theorem updGate_pcieUp (s : State) (g : Nat) (f : Gate → Gate) : (updGate s g f).pcieUp = s.pcieUp := rfl
@[simp] theorem updGate_transients (s : State) (g : Nat) (f : Gate → Gate) : (updGate s g f).transients = s.transients := rfl
@[simp] theorem updGate_hbper (s : State) (g : Nat) (f : Gate → Gate) : (updGate s g f).hbper = s.hbper := rfl
@[simp] theorem updGate_capto (s : State) (g : Nat) (f : Gate → Gate) : (updGate s g f).capto = s.capto := rfl
@[simp] theorem updGate_bootJournal (s : State) (g : Nat) (f : Gate → Gate) : (updGate s g f).bootJournal = s.bootJournal := rfl
@[simp] theorem updGate_starts (s : State) (g : Nat) (f : Gate → Gate) : (updGate s g f).starts = s.starts := rfl
@[simp] theorem updGate_bootFailed (s : State) (g : Nat) (f : Gate → Gate) : (updGate s g f).bootFailed = s.bootFailed := rfl
@[simp] theorem updGate_imagesOff (s : State) (g : Nat) (f : Gate → Gate) : (updGate s g f).imagesOff = s.imagesOff := rfl
@[simp] theorem updGate_invAt (s : State) (g : Nat) (f : Gate → Gate) : (updGate s g f).invAt = s.invAt := rfl
@[simp] theorem updGate_mgmtOff (s : State) (g : Nat) (f : Gate → Gate) : (updGate s g f).mgmtOff = s.mgmtOff := rfl
@[simp] theorem updGate_keyRevoked (s : State) (g : Nat) (f : Gate → Gate) : (updGate s g f).keyRevoked = s.keyRevoked := rfl
@[simp] theorem updGate_imageMin (s : State) (g : Nat) (f : Gate → Gate) : (updGate s g f).imageMin = s.imageMin := rfl
@[simp] theorem updGate_latchHeld (s : State) (g : Nat) (f : Gate → Gate) : (updGate s g f).latchHeld = s.latchHeld := rfl
@[simp] theorem updGate_pairChk (s : State) (g : Nat) (f : Gate → Gate) : (updGate s g f).pairChk = s.pairChk := rfl
@[simp] theorem updGate_pair (s : State) (g : Nat) (f : Gate → Gate) : (updGate s g f).pair = s.pair := rfl
@[simp] theorem updGate_image (s : State) (g : Nat) (f : Gate → Gate) : (updGate s g f).image = s.image := rfl
@[simp] theorem updGate_imagePoison (s : State) (g : Nat) (f : Gate → Gate) : (updGate s g f).imagePoison = s.imagePoison := rfl
@[simp] theorem updGate_latching (s : State) (g : Nat) (f : Gate → Gate) : (updGate s g f).latching = s.latching := rfl
@[simp] theorem updGate_latches (s : State) (g : Nat) (f : Gate → Gate) : (updGate s g f).latches = s.latches := rfl
@[simp] theorem updGate_staged (s : State) (g : Nat) (f : Gate → Gate) : (updGate s g f).staged = s.staged := rfl
@[simp] theorem updGate_ports (s : State) (g : Nat) (f : Gate → Gate) : (updGate s g f).ports = s.ports := rfl
@[simp] theorem updGate_visionQ (s : State) (g : Nat) (f : Gate → Gate) : (updGate s g f).visionQ = s.visionQ := rfl
@[simp] theorem updGate_engines (s : State) (g : Nat) (f : Gate → Gate) : (updGate s g f).engines = s.engines := rfl
@[simp] theorem updGate_vbuf (s : State) (g : Nat) (f : Gate → Gate) : (updGate s g f).vbuf = s.vbuf := rfl
@[simp] theorem updGate_vbufPoison (s : State) (g : Nat) (f : Gate → Gate) : (updGate s g f).vbufPoison = s.vbufPoison := rfl
@[simp] theorem updGate_harts (s : State) (g : Nat) (f : Gate → Gate) : (updGate s g f).harts = s.harts := rfl
@[simp] theorem updGate_anonce (s : State) (g : Nat) (f : Gate → Gate) : (updGate s g f).anonce = s.anonce := rfl
@[simp] theorem updGate_attBusy (s : State) (g : Nat) (f : Gate → Gate) : (updGate s g f).attBusy = s.attBusy := rfl
@[simp] theorem updGate_attNonce (s : State) (g : Nat) (f : Gate → Gate) : (updGate s g f).attNonce = s.attNonce := rfl
@[simp] theorem updGate_attSeq (s : State) (g : Nat) (f : Gate → Gate) : (updGate s g f).attSeq = s.attSeq := rfl
@[simp] theorem updGate_attCur (s : State) (g : Nat) (f : Gate → Gate) : (updGate s g f).attCur = s.attCur := rfl
@[simp] theorem updGate_areport (s : State) (g : Nat) (f : Gate → Gate) : (updGate s g f).areport = s.areport := rfl
@[simp] theorem updGate_devId (s : State) (g : Nat) (f : Gate → Gate) : (updGate s g f).devId = s.devId := rfl
@[simp] theorem updGate_activity (s : State) (g : Nat) (f : Gate → Gate) : (updGate s g f).activity = s.activity := rfl
@[simp] theorem updGate_sent (s : State) (g : Nat) (f : Gate → Gate) : (updGate s g f).sent = s.sent := rfl
@[simp] theorem updGate_agenda (s : State) (g : Nat) (f : Gate → Gate) : (updGate s g f).agenda = s.agenda := rfl
@[simp] theorem updGate_input (s : State) (g : Nat) (f : Gate → Gate) : (updGate s g f).input = s.input := rfl
@[simp] theorem updGate_draws (s : State) (g : Nat) (f : Gate → Gate) : (updGate s g f).draws = s.draws := rfl
@[simp] theorem updGate_who (s : State) (g : Nat) (f : Gate → Gate) : (updGate s g f).who = s.who := rfl
@[simp] theorem updGate_hartId (s : State) (g : Nat) (f : Gate → Gate) : (updGate s g f).hartId = s.hartId := rfl
@[simp] theorem updGate_word (s : State) (g : Nat) (f : Gate → Gate) : (updGate s g f).word = s.word := rfl
@[simp] theorem updGate_dropped (s : State) (g : Nat) (f : Gate → Gate) : (updGate s g f).dropped = s.dropped := rfl
@[simp] theorem updGate_keyHashes (s : State) (g : Nat) (f : Gate → Gate) : (updGate s g f).keyHashes = s.keyHashes := rfl
@[simp] theorem updGate_imageCorrected (s : State) (g : Nat) (f : Gate → Gate) : (updGate s g f).imageCorrected = s.imageCorrected := rfl
@[simp] theorem updGate_imageDigests (s : State) (g : Nat) (f : Gate → Gate) : (updGate s g f).imageDigests = s.imageDigests := rfl

/-! ### updHart -/

@[simp] theorem updHart_cores (s : State) (h : Nat) (f : Hart → Hart) : (updHart s h f).cores = s.cores := rfl
@[simp] theorem updHart_clusters (s : State) (h : Nat) (f : Hart → Hart) : (updHart s h f).clusters = s.clusters := rfl
@[simp] theorem updHart_nodes (s : State) (h : Nat) (f : Hart → Hart) : (updHart s h f).nodes = s.nodes := rfl
@[simp] theorem updHart_mem (s : State) (h : Nat) (f : Hart → Hart) : (updHart s h f).mem = s.mem := rfl
@[simp] theorem updHart_memPoison (s : State) (h : Nat) (f : Hart → Hart) : (updHart s h f).memPoison = s.memPoison := rfl
@[simp] theorem updHart_memEcc (s : State) (h : Nat) (f : Hart → Hart) : (updHart s h f).memEcc = s.memEcc := rfl
@[simp] theorem updHart_durable (s : State) (h : Nat) (f : Hart → Hart) : (updHart s h f).durable = s.durable := rfl
@[simp] theorem updHart_durablePoison (s : State) (h : Nat) (f : Hart → Hart) : (updHart s h f).durablePoison = s.durablePoison := rfl
@[simp] theorem updHart_footAccept (s : State) (h : Nat) (f : Hart → Hart) : (updHart s h f).footAccept = s.footAccept := rfl
@[simp] theorem updHart_hodAccept (s : State) (h : Nat) (f : Hart → Hart) : (updHart s h f).hodAccept = s.hodAccept := rfl
@[simp] theorem updHart_regAccept (s : State) (h : Nat) (f : Hart → Hart) : (updHart s h f).regAccept = s.regAccept := rfl
@[simp] theorem updHart_coreTlb (s : State) (h : Nat) (f : Hart → Hart) : (updHart s h f).coreTlb = s.coreTlb := rfl
@[simp] theorem updHart_net (s : State) (h : Nat) (f : Hart → Hart) : (updHart s h f).net = s.net := rfl
@[simp] theorem updHart_heldMsgs (s : State) (h : Nat) (f : Hart → Hart) : (updHart s h f).heldMsgs = s.heldMsgs := rfl
@[simp] theorem updHart_nextTag (s : State) (h : Nat) (f : Hart → Hart) : (updHart s h f).nextTag = s.nextTag := rfl
@[simp] theorem updHart_lpct (s : State) (h : Nat) (f : Hart → Hart) : (updHart s h f).lpct = s.lpct := rfl
@[simp] theorem updHart_class1 (s : State) (h : Nat) (f : Hart → Hart) : (updHart s h f).class1 = s.class1 := rfl
@[simp] theorem updHart_remaps (s : State) (h : Nat) (f : Hart → Hart) : (updHart s h f).remaps = s.remaps := rfl
@[simp] theorem updHart_migrations (s : State) (h : Nat) (f : Hart → Hart) : (updHart s h f).migrations = s.migrations := rfl
@[simp] theorem updHart_jobs (s : State) (h : Nat) (f : Hart → Hart) : (updHart s h f).jobs = s.jobs := rfl
@[simp] theorem updHart_jobRegResult (s : State) (h : Nat) (f : Hart → Hart) : (updHart s h f).jobRegResult = s.jobRegResult := rfl
@[simp] theorem updHart_arbSeq (s : State) (h : Nat) (f : Hart → Hart) : (updHart s h f).arbSeq = s.arbSeq := rfl
@[simp] theorem updHart_quotas (s : State) (h : Nat) (f : Hart → Hart) : (updHart s h f).quotas = s.quotas := rfl
@[simp] theorem updHart_mortars (s : State) (h : Nat) (f : Hart → Hart) : (updHart s h f).mortars = s.mortars := rfl
@[simp] theorem updHart_meters (s : State) (h : Nat) (f : Hart → Hart) : (updHart s h f).meters = s.meters := rfl
@[simp] theorem updHart_ovfl (s : State) (h : Nat) (f : Hart → Hart) : (updHart s h f).ovfl = s.ovfl := rfl
@[simp] theorem updHart_graphs (s : State) (h : Nat) (f : Hart → Hart) : (updHart s h f).graphs = s.graphs := rfl
@[simp] theorem updHart_nextInst (s : State) (h : Nat) (f : Hart → Hart) : (updHart s h f).nextInst = s.nextInst := rfl
@[simp] theorem updHart_nextGen (s : State) (h : Nat) (f : Hart → Hart) : (updHart s h f).nextGen = s.nextGen := rfl
@[simp] theorem updHart_switches (s : State) (h : Nat) (f : Hart → Hart) : (updHart s h f).switches = s.switches := rfl
@[simp] theorem updHart_nextOrder (s : State) (h : Nat) (f : Hart → Hart) : (updHart s h f).nextOrder = s.nextOrder := rfl
@[simp] theorem updHart_run (s : State) (h : Nat) (f : Hart → Hart) : (updHart s h f).run = s.run := rfl
@[simp] theorem updHart_runErr (s : State) (h : Nat) (f : Hart → Hart) : (updHart s h f).runErr = s.runErr := rfl
@[simp] theorem updHart_period (s : State) (h : Nat) (f : Hart → Hart) : (updHart s h f).period = s.period := rfl
@[simp] theorem updHart_start (s : State) (h : Nat) (f : Hart → Hart) : (updHart s h f).start = s.start := rfl
@[simp] theorem updHart_stamp (s : State) (h : Nat) (f : Hart → Hart) : (updHart s h f).stamp = s.stamp := rfl
@[simp] theorem updHart_stamp0 (s : State) (h : Nat) (f : Hart → Hart) : (updHart s h f).stamp0 = s.stamp0 := rfl
@[simp] theorem updHart_stopPending (s : State) (h : Nat) (f : Hart → Hart) : (updHart s h f).stopPending = s.stopPending := rfl
@[simp] theorem updHart_scans (s : State) (h : Nat) (f : Hart → Hart) : (updHart s h f).scans = s.scans := rfl
@[simp] theorem updHart_plumb (s : State) (h : Nat) (f : Hart → Hart) : (updHart s h f).plumb = s.plumb := rfl
@[simp] theorem updHart_inva (s : State) (h : Nat) (f : Hart → Hart) : (updHart s h f).inva = s.inva := rfl
@[simp] theorem updHart_invc (s : State) (h : Nat) (f : Hart → Hart) : (updHart s h f).invc = s.invc := rfl
@[simp] theorem updHart_invBusy (s : State) (h : Nat) (f : Hart → Hart) : (updHart s h f).invBusy = s.invBusy := rfl
@[simp] theorem updHart_invDone (s : State) (h : Nat) (f : Hart → Hart) : (updHart s h f).invDone = s.invDone := rfl
@[simp] theorem updHart_invSeq (s : State) (h : Nat) (f : Hart → Hart) : (updHart s h f).invSeq = s.invSeq := rfl
@[simp] theorem updHart_arbWait (s : State) (h : Nat) (f : Hart → Hart) : (updHart s h f).arbWait = s.arbWait := rfl
@[simp] theorem updHart_faultRecs (s : State) (h : Nat) (f : Hart → Hart) : (updHart s h f).faultRecs = s.faultRecs := rfl
@[simp] theorem updHart_refusedNotices (s : State) (h : Nat) (f : Hart → Hart) : (updHart s h f).refusedNotices = s.refusedNotices := rfl
@[simp] theorem updHart_collectorFull (s : State) (h : Nat) (f : Hart → Hart) : (updHart s h f).collectorFull = s.collectorFull := rfl
@[simp] theorem updHart_feivl (s : State) (h : Nat) (f : Hart → Hart) : (updHart s h f).feivl = s.feivl := rfl
@[simp] theorem updHart_felim (s : State) (h : Nat) (f : Hart → Hart) : (updHart s h f).felim = s.felim := rfl
@[simp] theorem updHart_errRing (s : State) (h : Nat) (f : Hart → Hart) : (updHart s h f).errRing = s.errRing := rfl
@[simp] theorem updHart_ewp (s : State) (h : Nat) (f : Hart → Hart) : (updHart s h f).ewp = s.ewp := rfl
@[simp] theorem updHart_ehost (s : State) (h : Nat) (f : Hart → Hart) : (updHart s h f).ehost = s.ehost := rfl
@[simp] theorem updHart_emgt (s : State) (h : Nat) (f : Hart → Hart) : (updHart s h f).emgt = s.emgt := rfl
@[simp] theorem updHart_elost (s : State) (h : Nat) (f : Hart → Hart) : (updHart s h f).elost = s.elost := rfl
@[simp] theorem updHart_errQueue (s : State) (h : Nat) (f : Hart → Hart) : (updHart s h f).errQueue = s.errQueue := rfl
@[simp] theorem updHart_pcieUp (s : State) (h : Nat) (f : Hart → Hart) : (updHart s h f).pcieUp = s.pcieUp := rfl
@[simp] theorem updHart_transients (s : State) (h : Nat) (f : Hart → Hart) : (updHart s h f).transients = s.transients := rfl
@[simp] theorem updHart_hbper (s : State) (h : Nat) (f : Hart → Hart) : (updHart s h f).hbper = s.hbper := rfl
@[simp] theorem updHart_capto (s : State) (h : Nat) (f : Hart → Hart) : (updHart s h f).capto = s.capto := rfl
@[simp] theorem updHart_bootJournal (s : State) (h : Nat) (f : Hart → Hart) : (updHart s h f).bootJournal = s.bootJournal := rfl
@[simp] theorem updHart_starts (s : State) (h : Nat) (f : Hart → Hart) : (updHart s h f).starts = s.starts := rfl
@[simp] theorem updHart_bootFailed (s : State) (h : Nat) (f : Hart → Hart) : (updHart s h f).bootFailed = s.bootFailed := rfl
@[simp] theorem updHart_imagesOff (s : State) (h : Nat) (f : Hart → Hart) : (updHart s h f).imagesOff = s.imagesOff := rfl
@[simp] theorem updHart_invAt (s : State) (h : Nat) (f : Hart → Hart) : (updHart s h f).invAt = s.invAt := rfl
@[simp] theorem updHart_mgmtOff (s : State) (h : Nat) (f : Hart → Hart) : (updHart s h f).mgmtOff = s.mgmtOff := rfl
@[simp] theorem updHart_keyRevoked (s : State) (h : Nat) (f : Hart → Hart) : (updHart s h f).keyRevoked = s.keyRevoked := rfl
@[simp] theorem updHart_imageMin (s : State) (h : Nat) (f : Hart → Hart) : (updHart s h f).imageMin = s.imageMin := rfl
@[simp] theorem updHart_latchHeld (s : State) (h : Nat) (f : Hart → Hart) : (updHart s h f).latchHeld = s.latchHeld := rfl
@[simp] theorem updHart_pairChk (s : State) (h : Nat) (f : Hart → Hart) : (updHart s h f).pairChk = s.pairChk := rfl
@[simp] theorem updHart_pair (s : State) (h : Nat) (f : Hart → Hart) : (updHart s h f).pair = s.pair := rfl
@[simp] theorem updHart_image (s : State) (h : Nat) (f : Hart → Hart) : (updHart s h f).image = s.image := rfl
@[simp] theorem updHart_imagePoison (s : State) (h : Nat) (f : Hart → Hart) : (updHart s h f).imagePoison = s.imagePoison := rfl
@[simp] theorem updHart_latching (s : State) (h : Nat) (f : Hart → Hart) : (updHart s h f).latching = s.latching := rfl
@[simp] theorem updHart_latches (s : State) (h : Nat) (f : Hart → Hart) : (updHart s h f).latches = s.latches := rfl
@[simp] theorem updHart_staged (s : State) (h : Nat) (f : Hart → Hart) : (updHart s h f).staged = s.staged := rfl
@[simp] theorem updHart_gates (s : State) (h : Nat) (f : Hart → Hart) : (updHart s h f).gates = s.gates := rfl
@[simp] theorem updHart_ports (s : State) (h : Nat) (f : Hart → Hart) : (updHart s h f).ports = s.ports := rfl
@[simp] theorem updHart_visionQ (s : State) (h : Nat) (f : Hart → Hart) : (updHart s h f).visionQ = s.visionQ := rfl
@[simp] theorem updHart_engines (s : State) (h : Nat) (f : Hart → Hart) : (updHart s h f).engines = s.engines := rfl
@[simp] theorem updHart_vbuf (s : State) (h : Nat) (f : Hart → Hart) : (updHart s h f).vbuf = s.vbuf := rfl
@[simp] theorem updHart_vbufPoison (s : State) (h : Nat) (f : Hart → Hart) : (updHart s h f).vbufPoison = s.vbufPoison := rfl
@[simp] theorem updHart_anonce (s : State) (h : Nat) (f : Hart → Hart) : (updHart s h f).anonce = s.anonce := rfl
@[simp] theorem updHart_attBusy (s : State) (h : Nat) (f : Hart → Hart) : (updHart s h f).attBusy = s.attBusy := rfl
@[simp] theorem updHart_attNonce (s : State) (h : Nat) (f : Hart → Hart) : (updHart s h f).attNonce = s.attNonce := rfl
@[simp] theorem updHart_attSeq (s : State) (h : Nat) (f : Hart → Hart) : (updHart s h f).attSeq = s.attSeq := rfl
@[simp] theorem updHart_attCur (s : State) (h : Nat) (f : Hart → Hart) : (updHart s h f).attCur = s.attCur := rfl
@[simp] theorem updHart_areport (s : State) (h : Nat) (f : Hart → Hart) : (updHart s h f).areport = s.areport := rfl
@[simp] theorem updHart_devId (s : State) (h : Nat) (f : Hart → Hart) : (updHart s h f).devId = s.devId := rfl
@[simp] theorem updHart_activity (s : State) (h : Nat) (f : Hart → Hart) : (updHart s h f).activity = s.activity := rfl
@[simp] theorem updHart_sent (s : State) (h : Nat) (f : Hart → Hart) : (updHart s h f).sent = s.sent := rfl
@[simp] theorem updHart_agenda (s : State) (h : Nat) (f : Hart → Hart) : (updHart s h f).agenda = s.agenda := rfl
@[simp] theorem updHart_input (s : State) (h : Nat) (f : Hart → Hart) : (updHart s h f).input = s.input := rfl
@[simp] theorem updHart_draws (s : State) (h : Nat) (f : Hart → Hart) : (updHart s h f).draws = s.draws := rfl
@[simp] theorem updHart_who (s : State) (h : Nat) (f : Hart → Hart) : (updHart s h f).who = s.who := rfl
@[simp] theorem updHart_hartId (s : State) (h : Nat) (f : Hart → Hart) : (updHart s h f).hartId = s.hartId := rfl
@[simp] theorem updHart_word (s : State) (h : Nat) (f : Hart → Hart) : (updHart s h f).word = s.word := rfl
@[simp] theorem updHart_dropped (s : State) (h : Nat) (f : Hart → Hart) : (updHart s h f).dropped = s.dropped := rfl
@[simp] theorem updHart_keyHashes (s : State) (h : Nat) (f : Hart → Hart) : (updHart s h f).keyHashes = s.keyHashes := rfl
@[simp] theorem updHart_imageCorrected (s : State) (h : Nat) (f : Hart → Hart) : (updHart s h f).imageCorrected = s.imageCorrected := rfl
@[simp] theorem updHart_imageDigests (s : State) (h : Nat) (f : Hart → Hart) : (updHart s h f).imageDigests = s.imageDigests := rfl

/-! ### updMortar -/

@[simp] theorem updMortar_cores (s : State) (j : Nat) (f : Mortar → Mortar) : (updMortar s j f).cores = s.cores := rfl
@[simp] theorem updMortar_clusters (s : State) (j : Nat) (f : Mortar → Mortar) : (updMortar s j f).clusters = s.clusters := rfl
@[simp] theorem updMortar_nodes (s : State) (j : Nat) (f : Mortar → Mortar) : (updMortar s j f).nodes = s.nodes := rfl
@[simp] theorem updMortar_mem (s : State) (j : Nat) (f : Mortar → Mortar) : (updMortar s j f).mem = s.mem := rfl
@[simp] theorem updMortar_memPoison (s : State) (j : Nat) (f : Mortar → Mortar) : (updMortar s j f).memPoison = s.memPoison := rfl
@[simp] theorem updMortar_memEcc (s : State) (j : Nat) (f : Mortar → Mortar) : (updMortar s j f).memEcc = s.memEcc := rfl
@[simp] theorem updMortar_durable (s : State) (j : Nat) (f : Mortar → Mortar) : (updMortar s j f).durable = s.durable := rfl
@[simp] theorem updMortar_durablePoison (s : State) (j : Nat) (f : Mortar → Mortar) : (updMortar s j f).durablePoison = s.durablePoison := rfl
@[simp] theorem updMortar_footAccept (s : State) (j : Nat) (f : Mortar → Mortar) : (updMortar s j f).footAccept = s.footAccept := rfl
@[simp] theorem updMortar_hodAccept (s : State) (j : Nat) (f : Mortar → Mortar) : (updMortar s j f).hodAccept = s.hodAccept := rfl
@[simp] theorem updMortar_regAccept (s : State) (j : Nat) (f : Mortar → Mortar) : (updMortar s j f).regAccept = s.regAccept := rfl
@[simp] theorem updMortar_coreTlb (s : State) (j : Nat) (f : Mortar → Mortar) : (updMortar s j f).coreTlb = s.coreTlb := rfl
@[simp] theorem updMortar_net (s : State) (j : Nat) (f : Mortar → Mortar) : (updMortar s j f).net = s.net := rfl
@[simp] theorem updMortar_heldMsgs (s : State) (j : Nat) (f : Mortar → Mortar) : (updMortar s j f).heldMsgs = s.heldMsgs := rfl
@[simp] theorem updMortar_nextTag (s : State) (j : Nat) (f : Mortar → Mortar) : (updMortar s j f).nextTag = s.nextTag := rfl
@[simp] theorem updMortar_lpct (s : State) (j : Nat) (f : Mortar → Mortar) : (updMortar s j f).lpct = s.lpct := rfl
@[simp] theorem updMortar_class1 (s : State) (j : Nat) (f : Mortar → Mortar) : (updMortar s j f).class1 = s.class1 := rfl
@[simp] theorem updMortar_remaps (s : State) (j : Nat) (f : Mortar → Mortar) : (updMortar s j f).remaps = s.remaps := rfl
@[simp] theorem updMortar_migrations (s : State) (j : Nat) (f : Mortar → Mortar) : (updMortar s j f).migrations = s.migrations := rfl
@[simp] theorem updMortar_jobs (s : State) (j : Nat) (f : Mortar → Mortar) : (updMortar s j f).jobs = s.jobs := rfl
@[simp] theorem updMortar_jobRegResult (s : State) (j : Nat) (f : Mortar → Mortar) : (updMortar s j f).jobRegResult = s.jobRegResult := rfl
@[simp] theorem updMortar_arbSeq (s : State) (j : Nat) (f : Mortar → Mortar) : (updMortar s j f).arbSeq = s.arbSeq := rfl
@[simp] theorem updMortar_quotas (s : State) (j : Nat) (f : Mortar → Mortar) : (updMortar s j f).quotas = s.quotas := rfl
@[simp] theorem updMortar_meters (s : State) (j : Nat) (f : Mortar → Mortar) : (updMortar s j f).meters = s.meters := rfl
@[simp] theorem updMortar_ovfl (s : State) (j : Nat) (f : Mortar → Mortar) : (updMortar s j f).ovfl = s.ovfl := rfl
@[simp] theorem updMortar_graphs (s : State) (j : Nat) (f : Mortar → Mortar) : (updMortar s j f).graphs = s.graphs := rfl
@[simp] theorem updMortar_nextInst (s : State) (j : Nat) (f : Mortar → Mortar) : (updMortar s j f).nextInst = s.nextInst := rfl
@[simp] theorem updMortar_nextGen (s : State) (j : Nat) (f : Mortar → Mortar) : (updMortar s j f).nextGen = s.nextGen := rfl
@[simp] theorem updMortar_switches (s : State) (j : Nat) (f : Mortar → Mortar) : (updMortar s j f).switches = s.switches := rfl
@[simp] theorem updMortar_nextOrder (s : State) (j : Nat) (f : Mortar → Mortar) : (updMortar s j f).nextOrder = s.nextOrder := rfl
@[simp] theorem updMortar_run (s : State) (j : Nat) (f : Mortar → Mortar) : (updMortar s j f).run = s.run := rfl
@[simp] theorem updMortar_runErr (s : State) (j : Nat) (f : Mortar → Mortar) : (updMortar s j f).runErr = s.runErr := rfl
@[simp] theorem updMortar_period (s : State) (j : Nat) (f : Mortar → Mortar) : (updMortar s j f).period = s.period := rfl
@[simp] theorem updMortar_start (s : State) (j : Nat) (f : Mortar → Mortar) : (updMortar s j f).start = s.start := rfl
@[simp] theorem updMortar_stamp (s : State) (j : Nat) (f : Mortar → Mortar) : (updMortar s j f).stamp = s.stamp := rfl
@[simp] theorem updMortar_stamp0 (s : State) (j : Nat) (f : Mortar → Mortar) : (updMortar s j f).stamp0 = s.stamp0 := rfl
@[simp] theorem updMortar_stopPending (s : State) (j : Nat) (f : Mortar → Mortar) : (updMortar s j f).stopPending = s.stopPending := rfl
@[simp] theorem updMortar_scans (s : State) (j : Nat) (f : Mortar → Mortar) : (updMortar s j f).scans = s.scans := rfl
@[simp] theorem updMortar_plumb (s : State) (j : Nat) (f : Mortar → Mortar) : (updMortar s j f).plumb = s.plumb := rfl
@[simp] theorem updMortar_inva (s : State) (j : Nat) (f : Mortar → Mortar) : (updMortar s j f).inva = s.inva := rfl
@[simp] theorem updMortar_invc (s : State) (j : Nat) (f : Mortar → Mortar) : (updMortar s j f).invc = s.invc := rfl
@[simp] theorem updMortar_invBusy (s : State) (j : Nat) (f : Mortar → Mortar) : (updMortar s j f).invBusy = s.invBusy := rfl
@[simp] theorem updMortar_invDone (s : State) (j : Nat) (f : Mortar → Mortar) : (updMortar s j f).invDone = s.invDone := rfl
@[simp] theorem updMortar_invSeq (s : State) (j : Nat) (f : Mortar → Mortar) : (updMortar s j f).invSeq = s.invSeq := rfl
@[simp] theorem updMortar_arbWait (s : State) (j : Nat) (f : Mortar → Mortar) : (updMortar s j f).arbWait = s.arbWait := rfl
@[simp] theorem updMortar_faultRecs (s : State) (j : Nat) (f : Mortar → Mortar) : (updMortar s j f).faultRecs = s.faultRecs := rfl
@[simp] theorem updMortar_refusedNotices (s : State) (j : Nat) (f : Mortar → Mortar) : (updMortar s j f).refusedNotices = s.refusedNotices := rfl
@[simp] theorem updMortar_collectorFull (s : State) (j : Nat) (f : Mortar → Mortar) : (updMortar s j f).collectorFull = s.collectorFull := rfl
@[simp] theorem updMortar_feivl (s : State) (j : Nat) (f : Mortar → Mortar) : (updMortar s j f).feivl = s.feivl := rfl
@[simp] theorem updMortar_felim (s : State) (j : Nat) (f : Mortar → Mortar) : (updMortar s j f).felim = s.felim := rfl
@[simp] theorem updMortar_errRing (s : State) (j : Nat) (f : Mortar → Mortar) : (updMortar s j f).errRing = s.errRing := rfl
@[simp] theorem updMortar_ewp (s : State) (j : Nat) (f : Mortar → Mortar) : (updMortar s j f).ewp = s.ewp := rfl
@[simp] theorem updMortar_ehost (s : State) (j : Nat) (f : Mortar → Mortar) : (updMortar s j f).ehost = s.ehost := rfl
@[simp] theorem updMortar_emgt (s : State) (j : Nat) (f : Mortar → Mortar) : (updMortar s j f).emgt = s.emgt := rfl
@[simp] theorem updMortar_elost (s : State) (j : Nat) (f : Mortar → Mortar) : (updMortar s j f).elost = s.elost := rfl
@[simp] theorem updMortar_errQueue (s : State) (j : Nat) (f : Mortar → Mortar) : (updMortar s j f).errQueue = s.errQueue := rfl
@[simp] theorem updMortar_pcieUp (s : State) (j : Nat) (f : Mortar → Mortar) : (updMortar s j f).pcieUp = s.pcieUp := rfl
@[simp] theorem updMortar_transients (s : State) (j : Nat) (f : Mortar → Mortar) : (updMortar s j f).transients = s.transients := rfl
@[simp] theorem updMortar_hbper (s : State) (j : Nat) (f : Mortar → Mortar) : (updMortar s j f).hbper = s.hbper := rfl
@[simp] theorem updMortar_capto (s : State) (j : Nat) (f : Mortar → Mortar) : (updMortar s j f).capto = s.capto := rfl
@[simp] theorem updMortar_bootJournal (s : State) (j : Nat) (f : Mortar → Mortar) : (updMortar s j f).bootJournal = s.bootJournal := rfl
@[simp] theorem updMortar_starts (s : State) (j : Nat) (f : Mortar → Mortar) : (updMortar s j f).starts = s.starts := rfl
@[simp] theorem updMortar_bootFailed (s : State) (j : Nat) (f : Mortar → Mortar) : (updMortar s j f).bootFailed = s.bootFailed := rfl
@[simp] theorem updMortar_imagesOff (s : State) (j : Nat) (f : Mortar → Mortar) : (updMortar s j f).imagesOff = s.imagesOff := rfl
@[simp] theorem updMortar_invAt (s : State) (j : Nat) (f : Mortar → Mortar) : (updMortar s j f).invAt = s.invAt := rfl
@[simp] theorem updMortar_mgmtOff (s : State) (j : Nat) (f : Mortar → Mortar) : (updMortar s j f).mgmtOff = s.mgmtOff := rfl
@[simp] theorem updMortar_keyRevoked (s : State) (j : Nat) (f : Mortar → Mortar) : (updMortar s j f).keyRevoked = s.keyRevoked := rfl
@[simp] theorem updMortar_imageMin (s : State) (j : Nat) (f : Mortar → Mortar) : (updMortar s j f).imageMin = s.imageMin := rfl
@[simp] theorem updMortar_latchHeld (s : State) (j : Nat) (f : Mortar → Mortar) : (updMortar s j f).latchHeld = s.latchHeld := rfl
@[simp] theorem updMortar_pairChk (s : State) (j : Nat) (f : Mortar → Mortar) : (updMortar s j f).pairChk = s.pairChk := rfl
@[simp] theorem updMortar_pair (s : State) (j : Nat) (f : Mortar → Mortar) : (updMortar s j f).pair = s.pair := rfl
@[simp] theorem updMortar_image (s : State) (j : Nat) (f : Mortar → Mortar) : (updMortar s j f).image = s.image := rfl
@[simp] theorem updMortar_imagePoison (s : State) (j : Nat) (f : Mortar → Mortar) : (updMortar s j f).imagePoison = s.imagePoison := rfl
@[simp] theorem updMortar_latching (s : State) (j : Nat) (f : Mortar → Mortar) : (updMortar s j f).latching = s.latching := rfl
@[simp] theorem updMortar_latches (s : State) (j : Nat) (f : Mortar → Mortar) : (updMortar s j f).latches = s.latches := rfl
@[simp] theorem updMortar_staged (s : State) (j : Nat) (f : Mortar → Mortar) : (updMortar s j f).staged = s.staged := rfl
@[simp] theorem updMortar_gates (s : State) (j : Nat) (f : Mortar → Mortar) : (updMortar s j f).gates = s.gates := rfl
@[simp] theorem updMortar_ports (s : State) (j : Nat) (f : Mortar → Mortar) : (updMortar s j f).ports = s.ports := rfl
@[simp] theorem updMortar_visionQ (s : State) (j : Nat) (f : Mortar → Mortar) : (updMortar s j f).visionQ = s.visionQ := rfl
@[simp] theorem updMortar_engines (s : State) (j : Nat) (f : Mortar → Mortar) : (updMortar s j f).engines = s.engines := rfl
@[simp] theorem updMortar_vbuf (s : State) (j : Nat) (f : Mortar → Mortar) : (updMortar s j f).vbuf = s.vbuf := rfl
@[simp] theorem updMortar_vbufPoison (s : State) (j : Nat) (f : Mortar → Mortar) : (updMortar s j f).vbufPoison = s.vbufPoison := rfl
@[simp] theorem updMortar_harts (s : State) (j : Nat) (f : Mortar → Mortar) : (updMortar s j f).harts = s.harts := rfl
@[simp] theorem updMortar_anonce (s : State) (j : Nat) (f : Mortar → Mortar) : (updMortar s j f).anonce = s.anonce := rfl
@[simp] theorem updMortar_attBusy (s : State) (j : Nat) (f : Mortar → Mortar) : (updMortar s j f).attBusy = s.attBusy := rfl
@[simp] theorem updMortar_attNonce (s : State) (j : Nat) (f : Mortar → Mortar) : (updMortar s j f).attNonce = s.attNonce := rfl
@[simp] theorem updMortar_attSeq (s : State) (j : Nat) (f : Mortar → Mortar) : (updMortar s j f).attSeq = s.attSeq := rfl
@[simp] theorem updMortar_attCur (s : State) (j : Nat) (f : Mortar → Mortar) : (updMortar s j f).attCur = s.attCur := rfl
@[simp] theorem updMortar_areport (s : State) (j : Nat) (f : Mortar → Mortar) : (updMortar s j f).areport = s.areport := rfl
@[simp] theorem updMortar_devId (s : State) (j : Nat) (f : Mortar → Mortar) : (updMortar s j f).devId = s.devId := rfl
@[simp] theorem updMortar_activity (s : State) (j : Nat) (f : Mortar → Mortar) : (updMortar s j f).activity = s.activity := rfl
@[simp] theorem updMortar_sent (s : State) (j : Nat) (f : Mortar → Mortar) : (updMortar s j f).sent = s.sent := rfl
@[simp] theorem updMortar_agenda (s : State) (j : Nat) (f : Mortar → Mortar) : (updMortar s j f).agenda = s.agenda := rfl
@[simp] theorem updMortar_input (s : State) (j : Nat) (f : Mortar → Mortar) : (updMortar s j f).input = s.input := rfl
@[simp] theorem updMortar_draws (s : State) (j : Nat) (f : Mortar → Mortar) : (updMortar s j f).draws = s.draws := rfl
@[simp] theorem updMortar_who (s : State) (j : Nat) (f : Mortar → Mortar) : (updMortar s j f).who = s.who := rfl
@[simp] theorem updMortar_hartId (s : State) (j : Nat) (f : Mortar → Mortar) : (updMortar s j f).hartId = s.hartId := rfl
@[simp] theorem updMortar_word (s : State) (j : Nat) (f : Mortar → Mortar) : (updMortar s j f).word = s.word := rfl
@[simp] theorem updMortar_dropped (s : State) (j : Nat) (f : Mortar → Mortar) : (updMortar s j f).dropped = s.dropped := rfl
@[simp] theorem updMortar_keyHashes (s : State) (j : Nat) (f : Mortar → Mortar) : (updMortar s j f).keyHashes = s.keyHashes := rfl
@[simp] theorem updMortar_imageCorrected (s : State) (j : Nat) (f : Mortar → Mortar) : (updMortar s j f).imageCorrected = s.imageCorrected := rfl
@[simp] theorem updMortar_imageDigests (s : State) (j : Nat) (f : Mortar → Mortar) : (updMortar s j f).imageDigests = s.imageDigests := rfl

/-! ### updJob -/

@[simp] theorem updJob_cores (s : State) (j : Nat) (f : Job → Job) : (updJob s j f).cores = s.cores := rfl
@[simp] theorem updJob_clusters (s : State) (j : Nat) (f : Job → Job) : (updJob s j f).clusters = s.clusters := rfl
@[simp] theorem updJob_nodes (s : State) (j : Nat) (f : Job → Job) : (updJob s j f).nodes = s.nodes := rfl
@[simp] theorem updJob_mem (s : State) (j : Nat) (f : Job → Job) : (updJob s j f).mem = s.mem := rfl
@[simp] theorem updJob_memPoison (s : State) (j : Nat) (f : Job → Job) : (updJob s j f).memPoison = s.memPoison := rfl
@[simp] theorem updJob_memEcc (s : State) (j : Nat) (f : Job → Job) : (updJob s j f).memEcc = s.memEcc := rfl
@[simp] theorem updJob_durable (s : State) (j : Nat) (f : Job → Job) : (updJob s j f).durable = s.durable := rfl
@[simp] theorem updJob_durablePoison (s : State) (j : Nat) (f : Job → Job) : (updJob s j f).durablePoison = s.durablePoison := rfl
@[simp] theorem updJob_footAccept (s : State) (j : Nat) (f : Job → Job) : (updJob s j f).footAccept = s.footAccept := rfl
@[simp] theorem updJob_hodAccept (s : State) (j : Nat) (f : Job → Job) : (updJob s j f).hodAccept = s.hodAccept := rfl
@[simp] theorem updJob_regAccept (s : State) (j : Nat) (f : Job → Job) : (updJob s j f).regAccept = s.regAccept := rfl
@[simp] theorem updJob_coreTlb (s : State) (j : Nat) (f : Job → Job) : (updJob s j f).coreTlb = s.coreTlb := rfl
@[simp] theorem updJob_net (s : State) (j : Nat) (f : Job → Job) : (updJob s j f).net = s.net := rfl
@[simp] theorem updJob_heldMsgs (s : State) (j : Nat) (f : Job → Job) : (updJob s j f).heldMsgs = s.heldMsgs := rfl
@[simp] theorem updJob_nextTag (s : State) (j : Nat) (f : Job → Job) : (updJob s j f).nextTag = s.nextTag := rfl
@[simp] theorem updJob_lpct (s : State) (j : Nat) (f : Job → Job) : (updJob s j f).lpct = s.lpct := rfl
@[simp] theorem updJob_class1 (s : State) (j : Nat) (f : Job → Job) : (updJob s j f).class1 = s.class1 := rfl
@[simp] theorem updJob_remaps (s : State) (j : Nat) (f : Job → Job) : (updJob s j f).remaps = s.remaps := rfl
@[simp] theorem updJob_migrations (s : State) (j : Nat) (f : Job → Job) : (updJob s j f).migrations = s.migrations := rfl
@[simp] theorem updJob_jobRegResult (s : State) (j : Nat) (f : Job → Job) : (updJob s j f).jobRegResult = s.jobRegResult := rfl
@[simp] theorem updJob_arbSeq (s : State) (j : Nat) (f : Job → Job) : (updJob s j f).arbSeq = s.arbSeq := rfl
@[simp] theorem updJob_quotas (s : State) (j : Nat) (f : Job → Job) : (updJob s j f).quotas = s.quotas := rfl
@[simp] theorem updJob_mortars (s : State) (j : Nat) (f : Job → Job) : (updJob s j f).mortars = s.mortars := rfl
@[simp] theorem updJob_meters (s : State) (j : Nat) (f : Job → Job) : (updJob s j f).meters = s.meters := rfl
@[simp] theorem updJob_ovfl (s : State) (j : Nat) (f : Job → Job) : (updJob s j f).ovfl = s.ovfl := rfl
@[simp] theorem updJob_graphs (s : State) (j : Nat) (f : Job → Job) : (updJob s j f).graphs = s.graphs := rfl
@[simp] theorem updJob_nextInst (s : State) (j : Nat) (f : Job → Job) : (updJob s j f).nextInst = s.nextInst := rfl
@[simp] theorem updJob_nextGen (s : State) (j : Nat) (f : Job → Job) : (updJob s j f).nextGen = s.nextGen := rfl
@[simp] theorem updJob_switches (s : State) (j : Nat) (f : Job → Job) : (updJob s j f).switches = s.switches := rfl
@[simp] theorem updJob_nextOrder (s : State) (j : Nat) (f : Job → Job) : (updJob s j f).nextOrder = s.nextOrder := rfl
@[simp] theorem updJob_run (s : State) (j : Nat) (f : Job → Job) : (updJob s j f).run = s.run := rfl
@[simp] theorem updJob_runErr (s : State) (j : Nat) (f : Job → Job) : (updJob s j f).runErr = s.runErr := rfl
@[simp] theorem updJob_period (s : State) (j : Nat) (f : Job → Job) : (updJob s j f).period = s.period := rfl
@[simp] theorem updJob_start (s : State) (j : Nat) (f : Job → Job) : (updJob s j f).start = s.start := rfl
@[simp] theorem updJob_stamp (s : State) (j : Nat) (f : Job → Job) : (updJob s j f).stamp = s.stamp := rfl
@[simp] theorem updJob_stamp0 (s : State) (j : Nat) (f : Job → Job) : (updJob s j f).stamp0 = s.stamp0 := rfl
@[simp] theorem updJob_stopPending (s : State) (j : Nat) (f : Job → Job) : (updJob s j f).stopPending = s.stopPending := rfl
@[simp] theorem updJob_scans (s : State) (j : Nat) (f : Job → Job) : (updJob s j f).scans = s.scans := rfl
@[simp] theorem updJob_plumb (s : State) (j : Nat) (f : Job → Job) : (updJob s j f).plumb = s.plumb := rfl
@[simp] theorem updJob_inva (s : State) (j : Nat) (f : Job → Job) : (updJob s j f).inva = s.inva := rfl
@[simp] theorem updJob_invc (s : State) (j : Nat) (f : Job → Job) : (updJob s j f).invc = s.invc := rfl
@[simp] theorem updJob_invBusy (s : State) (j : Nat) (f : Job → Job) : (updJob s j f).invBusy = s.invBusy := rfl
@[simp] theorem updJob_invDone (s : State) (j : Nat) (f : Job → Job) : (updJob s j f).invDone = s.invDone := rfl
@[simp] theorem updJob_invSeq (s : State) (j : Nat) (f : Job → Job) : (updJob s j f).invSeq = s.invSeq := rfl
@[simp] theorem updJob_arbWait (s : State) (j : Nat) (f : Job → Job) : (updJob s j f).arbWait = s.arbWait := rfl
@[simp] theorem updJob_faultRecs (s : State) (j : Nat) (f : Job → Job) : (updJob s j f).faultRecs = s.faultRecs := rfl
@[simp] theorem updJob_refusedNotices (s : State) (j : Nat) (f : Job → Job) : (updJob s j f).refusedNotices = s.refusedNotices := rfl
@[simp] theorem updJob_collectorFull (s : State) (j : Nat) (f : Job → Job) : (updJob s j f).collectorFull = s.collectorFull := rfl
@[simp] theorem updJob_feivl (s : State) (j : Nat) (f : Job → Job) : (updJob s j f).feivl = s.feivl := rfl
@[simp] theorem updJob_felim (s : State) (j : Nat) (f : Job → Job) : (updJob s j f).felim = s.felim := rfl
@[simp] theorem updJob_errRing (s : State) (j : Nat) (f : Job → Job) : (updJob s j f).errRing = s.errRing := rfl
@[simp] theorem updJob_ewp (s : State) (j : Nat) (f : Job → Job) : (updJob s j f).ewp = s.ewp := rfl
@[simp] theorem updJob_ehost (s : State) (j : Nat) (f : Job → Job) : (updJob s j f).ehost = s.ehost := rfl
@[simp] theorem updJob_emgt (s : State) (j : Nat) (f : Job → Job) : (updJob s j f).emgt = s.emgt := rfl
@[simp] theorem updJob_elost (s : State) (j : Nat) (f : Job → Job) : (updJob s j f).elost = s.elost := rfl
@[simp] theorem updJob_errQueue (s : State) (j : Nat) (f : Job → Job) : (updJob s j f).errQueue = s.errQueue := rfl
@[simp] theorem updJob_pcieUp (s : State) (j : Nat) (f : Job → Job) : (updJob s j f).pcieUp = s.pcieUp := rfl
@[simp] theorem updJob_transients (s : State) (j : Nat) (f : Job → Job) : (updJob s j f).transients = s.transients := rfl
@[simp] theorem updJob_hbper (s : State) (j : Nat) (f : Job → Job) : (updJob s j f).hbper = s.hbper := rfl
@[simp] theorem updJob_capto (s : State) (j : Nat) (f : Job → Job) : (updJob s j f).capto = s.capto := rfl
@[simp] theorem updJob_bootJournal (s : State) (j : Nat) (f : Job → Job) : (updJob s j f).bootJournal = s.bootJournal := rfl
@[simp] theorem updJob_starts (s : State) (j : Nat) (f : Job → Job) : (updJob s j f).starts = s.starts := rfl
@[simp] theorem updJob_bootFailed (s : State) (j : Nat) (f : Job → Job) : (updJob s j f).bootFailed = s.bootFailed := rfl
@[simp] theorem updJob_imagesOff (s : State) (j : Nat) (f : Job → Job) : (updJob s j f).imagesOff = s.imagesOff := rfl
@[simp] theorem updJob_invAt (s : State) (j : Nat) (f : Job → Job) : (updJob s j f).invAt = s.invAt := rfl
@[simp] theorem updJob_mgmtOff (s : State) (j : Nat) (f : Job → Job) : (updJob s j f).mgmtOff = s.mgmtOff := rfl
@[simp] theorem updJob_keyRevoked (s : State) (j : Nat) (f : Job → Job) : (updJob s j f).keyRevoked = s.keyRevoked := rfl
@[simp] theorem updJob_imageMin (s : State) (j : Nat) (f : Job → Job) : (updJob s j f).imageMin = s.imageMin := rfl
@[simp] theorem updJob_latchHeld (s : State) (j : Nat) (f : Job → Job) : (updJob s j f).latchHeld = s.latchHeld := rfl
@[simp] theorem updJob_pairChk (s : State) (j : Nat) (f : Job → Job) : (updJob s j f).pairChk = s.pairChk := rfl
@[simp] theorem updJob_pair (s : State) (j : Nat) (f : Job → Job) : (updJob s j f).pair = s.pair := rfl
@[simp] theorem updJob_image (s : State) (j : Nat) (f : Job → Job) : (updJob s j f).image = s.image := rfl
@[simp] theorem updJob_imagePoison (s : State) (j : Nat) (f : Job → Job) : (updJob s j f).imagePoison = s.imagePoison := rfl
@[simp] theorem updJob_latching (s : State) (j : Nat) (f : Job → Job) : (updJob s j f).latching = s.latching := rfl
@[simp] theorem updJob_latches (s : State) (j : Nat) (f : Job → Job) : (updJob s j f).latches = s.latches := rfl
@[simp] theorem updJob_staged (s : State) (j : Nat) (f : Job → Job) : (updJob s j f).staged = s.staged := rfl
@[simp] theorem updJob_gates (s : State) (j : Nat) (f : Job → Job) : (updJob s j f).gates = s.gates := rfl
@[simp] theorem updJob_ports (s : State) (j : Nat) (f : Job → Job) : (updJob s j f).ports = s.ports := rfl
@[simp] theorem updJob_visionQ (s : State) (j : Nat) (f : Job → Job) : (updJob s j f).visionQ = s.visionQ := rfl
@[simp] theorem updJob_engines (s : State) (j : Nat) (f : Job → Job) : (updJob s j f).engines = s.engines := rfl
@[simp] theorem updJob_vbuf (s : State) (j : Nat) (f : Job → Job) : (updJob s j f).vbuf = s.vbuf := rfl
@[simp] theorem updJob_vbufPoison (s : State) (j : Nat) (f : Job → Job) : (updJob s j f).vbufPoison = s.vbufPoison := rfl
@[simp] theorem updJob_harts (s : State) (j : Nat) (f : Job → Job) : (updJob s j f).harts = s.harts := rfl
@[simp] theorem updJob_anonce (s : State) (j : Nat) (f : Job → Job) : (updJob s j f).anonce = s.anonce := rfl
@[simp] theorem updJob_attBusy (s : State) (j : Nat) (f : Job → Job) : (updJob s j f).attBusy = s.attBusy := rfl
@[simp] theorem updJob_attNonce (s : State) (j : Nat) (f : Job → Job) : (updJob s j f).attNonce = s.attNonce := rfl
@[simp] theorem updJob_attSeq (s : State) (j : Nat) (f : Job → Job) : (updJob s j f).attSeq = s.attSeq := rfl
@[simp] theorem updJob_attCur (s : State) (j : Nat) (f : Job → Job) : (updJob s j f).attCur = s.attCur := rfl
@[simp] theorem updJob_areport (s : State) (j : Nat) (f : Job → Job) : (updJob s j f).areport = s.areport := rfl
@[simp] theorem updJob_devId (s : State) (j : Nat) (f : Job → Job) : (updJob s j f).devId = s.devId := rfl
@[simp] theorem updJob_activity (s : State) (j : Nat) (f : Job → Job) : (updJob s j f).activity = s.activity := rfl
@[simp] theorem updJob_sent (s : State) (j : Nat) (f : Job → Job) : (updJob s j f).sent = s.sent := rfl
@[simp] theorem updJob_agenda (s : State) (j : Nat) (f : Job → Job) : (updJob s j f).agenda = s.agenda := rfl
@[simp] theorem updJob_input (s : State) (j : Nat) (f : Job → Job) : (updJob s j f).input = s.input := rfl
@[simp] theorem updJob_draws (s : State) (j : Nat) (f : Job → Job) : (updJob s j f).draws = s.draws := rfl
@[simp] theorem updJob_who (s : State) (j : Nat) (f : Job → Job) : (updJob s j f).who = s.who := rfl
@[simp] theorem updJob_hartId (s : State) (j : Nat) (f : Job → Job) : (updJob s j f).hartId = s.hartId := rfl
@[simp] theorem updJob_word (s : State) (j : Nat) (f : Job → Job) : (updJob s j f).word = s.word := rfl
@[simp] theorem updJob_dropped (s : State) (j : Nat) (f : Job → Job) : (updJob s j f).dropped = s.dropped := rfl
@[simp] theorem updJob_keyHashes (s : State) (j : Nat) (f : Job → Job) : (updJob s j f).keyHashes = s.keyHashes := rfl
@[simp] theorem updJob_imageCorrected (s : State) (j : Nat) (f : Job → Job) : (updJob s j f).imageCorrected = s.imageCorrected := rfl
@[simp] theorem updJob_imageDigests (s : State) (j : Nat) (f : Job → Job) : (updJob s j f).imageDigests = s.imageDigests := rfl

end Sys2Proof.Machine
end

