-- ==== Sys2Proof/Laws/Cores.lean ====
section
/-! SUPPORT. Reading a core or a slot after it, or another, was updated. -/

namespace Sys2Proof.Machine

@[simp] theorem getCore_setCore_same (s : State) (p : Nat) (c : PCore) : getCore (setCore s p c) p = c := by
  simp [getCore, setCore]
theorem getCore_setCore_ne (s : State) {p q : Nat} (c : PCore) (h : q ≠ p) : getCore (setCore s p c) q = getCore s q := by
  simp [getCore, setCore, mget_mset_ne _ _ _ _ h]
@[simp] theorem getCore_updCore_same (s : State) (p : Nat) (f : PCore → PCore) : getCore (updCore s p f) p = f (getCore s p) := by
  simp [updCore]
theorem getCore_updCore_ne (s : State) {p q : Nat} (f : PCore → PCore) (h : q ≠ p) :
    getCore (updCore s p f) q = getCore s q := getCore_setCore_ne s _ h
@[simp] theorem getCore_updCtx_same (s : State) (p : Nat) (f : Ctx → Ctx) :
    getCore (updCtx s p f) p = { getCore s p with res := f (getCore s p).res } := by simp [updCtx]
theorem getCore_updCtx_ne (s : State) {p q : Nat} (f : Ctx → Ctx) (h : q ≠ p) :
    getCore (updCtx s p f) q = getCore s q := getCore_updCore_ne s _ h
@[simp] theorem getCore_setSlot_same (s : State) (p n : Nat) (x : Slot) :
    getCore (setSlot s p n x) p =
      { getCore s p with res := { (getCore s p).res with slots := mset (getCore s p).res.slots n x } } := by simp [setSlot]
theorem getCore_setSlot_ne (s : State) {p q : Nat} (n : Nat) (x : Slot) (h : q ≠ p) :
    getCore (setSlot s p n x) q = getCore s q := getCore_updCtx_ne s _ h
@[simp] theorem getSlot_setSlot_same (s : State) (p n : Nat) (x : Slot) : getSlot (setSlot s p n x) p n = x := by
  simp [getSlot, ctxSlot]
theorem getSlot_setSlot_ne (s : State) {p n p' n' : Nat} (x : Slot) (h : (p', n') ≠ (p, n)) :
    getSlot (setSlot s p n x) p' n' = getSlot s p' n' := by
  by_cases hp : p' = p
  · subst hp
    have hn : n' ≠ n := fun e => h (by rw [e])
    simp [getSlot, ctxSlot, mget_mset_ne _ _ _ _ hn]
  · simp [getSlot, getCore_setSlot_ne s n x hp]
@[simp] theorem getSlot_updSlot_same (s : State) (p n : Nat) (f : Slot → Slot) :
    getSlot (updSlot s p n f) p n = f (getSlot s p n) := getSlot_setSlot_same s p n _
theorem getSlot_updSlot_ne (s : State) {p n p' n' : Nat} (f : Slot → Slot) (h : (p', n') ≠ (p, n)) :
    getSlot (updSlot s p n f) p' n' = getSlot s p' n' := getSlot_setSlot_ne s _ h
@[simp] theorem me_updMe (s : State) (f : Slot → Slot) : me (updMe s f) = f (me s) := getSlot_updSlot_same s _ _ f
@[simp] theorem getCore_updMe_same (s : State) (f : Slot → Slot) :
    getCore (updMe s f) s.who.1 = { getCore s s.who.1 with res :=
      { (getCore s s.who.1).res with slots := mset (getCore s s.who.1).res.slots s.who.2 (f (me s)) } } :=
  getCore_setSlot_same s _ _ _

theorem mget_map {α : Type} (m : Map α) (f : Nat → α → α) (k : Nat) :
    mget (m.map fun e => (e.1, f e.1 e.2)) k = (mget m k).map (f k) := by
  induction m with
  | nil => rfl
  | cons e r ih =>
    obtain ⟨a, x⟩ := e
    simp only [List.map_cons, mget]
    split
    · rename_i h; subst h; rfl
    · exact ih

/-! ### Registers of a slot -/

/-- g0 reads 0, is full and carries no poison (R50). -/
@[simp] theorem gCell_zero (sl : Slot) : gCell sl 0 = {} := rfl
theorem gCell_setGCell_same (sl : Slot) {k : Nat} (c : Cell 64) (h : k ≠ 0) : gCell (setGCell sl k c) k = c := by
  simp [gCell, setGCell, h]
theorem gCell_setGCell_ne (sl : Slot) {k j : Nat} (c : Cell 64) (h : j ≠ k) : gCell (setGCell sl k c) j = gCell sl j := by
  by_cases hk : k = 0
  · simp [setGCell, hk]
  · simp [gCell, setGCell, hk, mget_mset_ne _ _ _ _ h]
@[simp] theorem setGCell_zero (sl : Slot) (c : Cell 64) : setGCell sl 0 c = sl := by simp [setGCell]
@[simp] theorem vCell_setVCell_same (sl : Slot) (r : Nat) (c : Cell 512) : vCell (setVCell sl r c) r = c := by
  simp [vCell, setVCell]
theorem vCell_setVCell_ne (sl : Slot) {r j : Nat} (c : Cell 512) (h : j ≠ r) : vCell (setVCell sl r c) j = vCell sl j := by
  simp [vCell, setVCell, mget_mset_ne _ _ _ _ h]
/-- m0 reads all ones (R50). -/
@[simp] theorem mReg_zero (sl : Slot) : mReg sl 0 = BitVec.allOnes 64 := rfl
theorem mReg_setMReg_same (sl : Slot) {r : Nat} (x : Word) (h : r ≠ 0) : mReg (setMReg sl r x) r = x := by
  simp [mReg, setMReg, h]
theorem mReg_setMReg_ne (sl : Slot) {r j : Nat} (x : Word) (h : j ≠ r) : mReg (setMReg sl r x) j = mReg sl j := by
  by_cases hr : r = 0
  · simp [setMReg, hr]
  · simp [mReg, setMReg, hr, mget_mset_ne _ _ _ _ h]
@[simp] theorem kReg_setKReg_same (sl : Slot) (r : Nat) (x : BitVec 32) : kReg (setKReg sl r x) r = x := by
  simp [kReg, setKReg]
theorem kReg_setKReg_ne (sl : Slot) {r j : Nat} (x : BitVec 32) (h : j ≠ r) : kReg (setKReg sl r x) j = kReg sl j := by
  simp [kReg, setKReg, mget_mset_ne _ _ _ _ h]

end Sys2Proof.Machine
end

