-- ==== Sys2Proof/Laws/Gather.lean ====
section
/-! SUPPORT. What the issue checks of the sources answer (R430 stages 2 to 4). -/

namespace Sys2Proof.Machine

theorem firstEmpty_none {sl : Slot} {srcs : List Opnd} : firstEmpty sl srcs = none ↔ ∀ o ∈ srcs, opndEmpty sl o = none := by
  induction srcs with
  | nil => simp [firstEmpty]
  | cons o r ih =>
    simp only [firstEmpty, List.forall_mem_cons]
    split
    · rename_i w h; simp [h]
    · rename_i h; simp [h, ih]

/-- A gate that lets an operation go leaves the state as it was. -/
theorem recordGate_go {s t : State} {job point n : Nat} {key : BitVec 12} (h : recordGate s job point n key = (.go, t)) : t = s := by
  simp only [recordGate] at h
  split at h
  · cases h
  · split at h
    · cases h; rfl
    · cases h

theorem pairGate_go {s t : State} {job point n : Nat} {x : Resolution} (h : pairGate s job point n x = (.go, t)) : t = s := by
  simp only [pairGate] at h
  split at h
  · split at h
    · cases h; rfl
    · split at h
      · exact recordGate_go h
      · cases h
  · exact recordGate_go h

theorem popGate_go {s t : State} {job point : Nat} {xs : List Resolution} (h : popGate s job point xs = (.go, t)) : t = s := by
  cases xs with
  | nil => cases h; rfl
  | cons x r =>
    simp only [popGate] at h
    split at h
    · cases h; rfl
    · split at h
      · split at h
        · simp only [Prod.map, Prod.mk.injEq] at h; exact h.2.symm
        · cases h
      · cases h
    · exact pairGate_go h

/-- WITH READY OPERANDS the issue checks give the values and change nothing. -/
theorem gather_of_ready {s : State} {srcs : List Opnd} {dsts : List GReg} {g : Got} (addr : Word)
    (h : Ready s srcs dsts g) : gather s srcs dsts addr true = .ok (g, s) := by
  obtain ⟨ho, hf, hr, hm, hv⟩ := h
  have hown : ownerOf s (gRegs srcs ++ dsts) addr = .ok () := by
    simp only [ownerOf]
    rw [if_neg]
    simp only [Bool.and_eq_true, List.any_eq_true, Bool.not_eq_true', not_and, Bool.not_eq_false]
    rintro ⟨r, hr1, hr2⟩
    cases ho with
    | inl ho => simp [ho r hr1] at hr2
    | inr ho => exact ho
  have hs : sources s srcs dsts = .ok (g, s) := by
    simp only [sources, firstEmpty_none.mpr hf, hr, Bool.not_true]
    rw [hv] at hm ⊢
    simp only at hm ⊢
    generalize hp : popGate s (myJob s) (myPoint s) _ = res at hm ⊢
    obtain ⟨v, t⟩ := res
    simp only at hm
    subst hm
    rw [popGate_go hp]
    rfl
  simp only [gather, hown, require]
  exact hs

/-- Conversely an issue whose checks of the sources go on had ready operands. -/
theorem ready_of_gather {s t : State} {srcs : List Opnd} {dsts : List GReg} {addr : Word} {ok : Bool} {g : Got}
    (h : gather s srcs dsts addr ok = .ok (g, t)) : Ready s srcs dsts g ∧ t = s ∧ ok = true := by
  simp only [gather, ownerOf, require, faultWith, bind, Except.bind] at h
  split at h
  · cases h
  · rename_i u h1
    split at h1
    · cases h1
    · rename_i hown
      split at h
      · cases h
      · rename_i u2 h2
        split at h2
        · rename_i hok
          simp only [sources] at h
          split at h
          · cases h
          · rename_i hfe
            split at h
            · cases h
            · rename_i hq
              split at h
              · rename_i t' hg
                cases h
                have ht := popGate_go hg
                refine ⟨⟨?_, firstEmpty_none.mp hfe, by simpa using hq, ?_, rfl⟩, ht, hok⟩
                · by_cases hi : isOwner s = true
                  · exact .inr hi
                  · left
                    simp only [Bool.and_eq_true, List.any_eq_true, Bool.not_eq_true', not_and] at hown
                    intro r hr
                    cases hb : boundQ (me s) r with
                    | none => rfl
                    | some q => exact absurd (by simpa using hi) (hown ⟨r, hr, by simp [hb]⟩)
                · show (popGate s _ _ (popResolutions s (readSrcs _ _ _ _).2)).1 = _
                  rw [hg]
              · simp only [holdMe] at h; cases h
        · simp at h2

/-- Operands that are no bound queues are ready when they are full, and have the registers' values. -/
theorem noPoison_ok {s : State} {g : Got} (addr : Word) (h : NoPoison g) : noPoison s g addr = .ok () := by
  simp only [noPoison]
  have hn : ((upTo g.xs.length).find? fun i => (g.xs.getD i {}).psn) = none := by
    rw [List.find?_eq_none]
    intro i hi
    have hi' : i < g.xs.length := by simpa [upTo] using hi
    have := h g.xs[i] (List.getElem_mem hi')
    simp [hi', this]
  rw [hn]

end Sys2Proof.Machine
end

