-- ==== Sys2Proof/Laws/Retire.lean ====
section
/-! SUPPORT. What a retirement leaves: pops, writes, the RSN, and everything else as it was (R141, R142, R260, R433). -/

namespace Sys2Proof.Machine

/-! ### Steps that change only places in the rotation, queues and the Mortar's records -/

/-- `t` differs from `s` in no register, memory or other unit: in places in the rotation and in the Mortar's records at most. -/
structure Quiet (s t : State) : Prop where
  who : t.who = s.who
  slots : ∀ p n, atRest (getSlot t p n) = atRest (getSlot s p n)
  active : ∀ p n, (getSlot s p n).st = .active → getSlot t p n = getSlot s p n
  ctx : ∀ p, { (getCore t p).res with slots := [] } = { (getCore s p).res with slots := [] }
  cores : ∀ p, { getCore t p with res := {}, sav := none } = { getCore s p with res := {}, sav := none }
  sav : ∀ p, (getCore t p).sav.map restCtx = (getCore s p).sav.map restCtx
  rest : restState t = restState s

theorem Quiet.refl (s : State) : Quiet s s := ⟨rfl, fun _ _ => rfl, fun _ _ _ => rfl, fun _ => rfl, fun _ => rfl, fun _ => rfl, rfl⟩

theorem atRest_wakeIf (why : Park → Bool) (sl : Slot) : atRest (wakeIf why sl) = atRest sl := by
  simp only [wakeIf, wakeSlot]; split <;> try rfl
  split <;> rfl

theorem wakeIf_active {why : Park → Bool} {sl : Slot} (h : sl.st = .active) : wakeIf why sl = sl := by
  simp only [wakeIf, wakeSlot, h]
  split <;> rfl

theorem wakeIf_default (why : Park → Bool) : wakeIf why {} = {} := rfl

theorem ctxSlot_wakeCtx (why : Park → Bool) (x : Ctx) (n : Nat) : ctxSlot (wakeCtx why x) n = wakeIf why (ctxSlot x n) := by
  have h : mget (wakeCtx why x).slots n = (mget x.slots n).map (wakeIf why) := by
    simp only [wakeCtx]
    exact mget_map x.slots (fun _ sl => wakeIf why sl) n
  simp only [ctxSlot, h]
  cases mget x.slots n <;> rfl

theorem restCtx_wakeCtx (why : Park → Bool) (x : Ctx) : restCtx (wakeCtx why x) = restCtx x := rfl

theorem map_restCtx_wakeCtx (why : Park → Bool) (o : Option Ctx) : (o.map (wakeCtx why)).map restCtx = o.map restCtx := by
  cases o <;> rfl

theorem Quiet.of_cores {s t : State} (hw : t.who = s.who) (hr : restState t = restState s)
    (hc : ∀ p, getCore t p = getCore s p ∨ ∃ why sv, getCore t p = { getCore s p with res := wakeCtx why (getCore s p).res, sav := sv }
      ∧ sv.map restCtx = (getCore s p).sav.map restCtx) : Quiet s t where
  who := hw
  slots p n := by
    simp only [getSlot]
    rcases hc p with h | ⟨why, sv, h, hs⟩
    · rw [h]
    · rw [h]; simp only [ctxSlot_wakeCtx, atRest_wakeIf]
  active p n ha := by
    simp only [getSlot] at ha ⊢
    rcases hc p with h | ⟨why, sv, h, hs⟩
    · rw [h]
    · rw [h]; simp only [ctxSlot_wakeCtx]; exact wakeIf_active ha
  ctx p := by rcases hc p with h | ⟨why, sv, h, hs⟩ <;> rw [h] <;> rfl
  cores p := by rcases hc p with h | ⟨why, sv, h, hs⟩ <;> rw [h]
  sav p := by
    rcases hc p with h | ⟨why, sv, h, hs⟩
    · rw [h]
    · rw [h]; exact hs
  rest := hr

theorem Quiet.trans {s t u : State} (h : Quiet s t) (k : Quiet t u) : Quiet s u where
  who := k.who.trans h.who
  slots p n := (k.slots p n).trans (h.slots p n)
  active p n ha := by
    have e := h.active p n ha
    exact (k.active p n (e ▸ ha)).trans e
  ctx p := (k.ctx p).trans (h.ctx p)
  cores p := (k.cores p).trans (h.cores p)
  sav p := (k.sav p).trans (h.sav p)
  rest := k.rest.trans h.rest

theorem quiet_wakeCore (s : State) (p : Nat) (why : Park → Bool) : Quiet s (wakeCore s p why) := by
  refine .of_cores rfl rfl fun q => ?_
  by_cases hq : q = p
  · subst hq; exact .inr ⟨why, _, getCore_updCore_same s q _, map_restCtx_wakeCtx why _⟩
  · exact .inl (getCore_updCore_ne s _ hq)

theorem quiet_wakeCtx (s : State) (p : Nat) (why : Park → Bool) : Quiet s (updCtx s p (wakeCtx why)) := by
  refine .of_cores rfl rfl fun q => ?_
  by_cases hq : q = p
  · subst hq; exact .inr ⟨why, _, getCore_updCtx_same s q _, rfl⟩
  · exact .inl (getCore_updCtx_ne s _ hq)

theorem quiet_wakeAll (s : State) (why : Park → Bool) : Quiet s (wakeAll s why) := by
  refine .of_cores rfl rfl fun q => ?_
  have h : mget (wakeAll s why).cores q = (mget s.cores q).map
      (fun c => { c with res := wakeCtx why c.res, sav := c.sav.map (wakeCtx why) }) := by
    simp only [wakeAll]
    exact mget_map s.cores (fun _ c => { c with res := wakeCtx why c.res, sav := c.sav.map (wakeCtx why) }) q
  simp only [getCore, h]
  cases mget s.cores q with
  | none => exact .inl rfl
  | some c => exact .inr ⟨why, _, rfl, map_restCtx_wakeCtx why _⟩

theorem quiet_mortars {s t : State} (hc : t.cores = s.cores) (hw : t.who = s.who) (hr : restState t = restState s) : Quiet s t :=
  .of_cores hw hr fun p => .inl (by simp only [getCore, hc])

theorem quiet_makeRec (s : State) (job point : Nat) (x : Resolution) : Quiet s (makeRec s job point x) :=
  quiet_mortars rfl rfl rfl

theorem quiet_wakeReplay (s : State) : Quiet s (wakeReplay s) := quiet_wakeAll s _

theorem quiet_takeRecord (s : State) (job : Nat) (r : BitVec 128) : Quiet s (takeRecord s job r) :=
  .trans (t := updMortar s job _) (quiet_mortars rfl rfl rfl) (quiet_wakeAll _ _)

theorem quiet_pairTake (s : State) (job point : Nat) (x : Resolution) : Quiet s (pairTake s job point x) := by
  simp only [pairTake]
  split
  · split
    · refine .trans ?_ (quiet_wakeReplay _); exact quiet_mortars rfl rfl rfl
    · split
      · refine .trans (.trans ?_ (quiet_wakeReplay _)) (quiet_makeRec _ _ _ _); exact quiet_mortars rfl rfl rfl
      · exact quiet_makeRec s job point x
  · exact quiet_makeRec s job point x

/-- A record that a point makes, or takes in replay, changes no register and no memory. -/
theorem quiet_mortarPut (s : State) (job point : Nat) (x : Resolution) : Quiet s (mortarPut s job point x) := by
  simp only [mortarPut]
  split
  · exact .refl s
  · split
    · exact quiet_takeRecord s job _
    · exact .refl s
  · exact quiet_pairTake s job point x

/-! ### Pops -/

/-- The context after the pops: each queue has lost as many entries as were popped from it. -/
theorem getQ_popEntry (x : Ctx) (pops : List (Nat × QEntry)) (q : Nat) :
    getQ (pops.foldl popEntry x) q = (getQ x q).drop ((pops.map Prod.fst).count q) := by
  induction pops generalizing x with
  | nil => simp
  | cons e r ih =>
    simp only [List.foldl_cons, ih, List.map_cons, List.count_cons]
    have h : getQ (popEntry x e) q = (getQ x q).drop (if e.1 = q then 1 else 0) := by
      simp only [popEntry, getQ, mget_mset]
      by_cases hq : q = e.1
      · subst hq; simp
      · rw [if_neg hq, if_neg (fun h => hq h.symm)]; rfl
    rw [h, List.drop_drop]
    congr 1
    simp only [beq_iff_eq]
    omega

theorem popEntry_rest (x : Ctx) (pops : List (Nat × QEntry)) : { pops.foldl popEntry x with q := [] } = { x with q := [] } := by
  induction pops generalizing x with
  | nil => rfl
  | cons e r ih => simp only [List.foldl_cons, ih]; rfl

theorem popEntry_eq (x : Ctx) (pops : List (Nat × QEntry)) :
    pops.foldl popEntry x = { x with q := (pops.foldl popEntry x).q } := by
  induction pops generalizing x with
  | nil => rfl
  | cons e r ih => exact ih (popEntry x e)

theorem restCtx_popEntry (x : Ctx) (pops : List (Nat × QEntry)) : restCtx (pops.foldl popEntry x) = restCtx x := by
  rw [popEntry_eq]; rfl

theorem quiet_puts (s : State) (job point : Nat) (rs : List Resolution) :
    Quiet s (rs.foldl (fun s r => mortarPut s job point r) s) := by
  induction rs generalizing s with
  | nil => exact .refl s
  | cons r l ih => exact .trans (quiet_mortarPut s job point r) (ih _)

theorem quiet_puts' (s : State) (rs : List Resolution) :
    Quiet s (rs.foldl (fun s r => mortarPut s (myJob s) (myPoint s) r) s) := by
  induction rs generalizing s with
  | nil => exact .refl s
  | cons r l ih => exact .trans (quiet_mortarPut s _ _ r) (ih _)

/-- THE POPS OF AN INSTRUCTION: the state is that with the queues shortened, up to the records and wakes they bring. -/
theorem quiet_commitPops (s : State) (pops : List (Nat × QEntry)) :
    Quiet (updCtx s s.who.1 fun x => pops.foldl popEntry x) (commitPops s pops) := by
  cases pops with
  | nil =>
    refine .of_cores rfl rfl fun p => .inl ?_
    by_cases hp : p = s.who.1
    · subst hp; simp [commitPops]
    · simp [commitPops, getCore_updCtx_ne s _ hp]
  | cons e r =>
    simp only [commitPops]
    exact .trans (quiet_puts' _ _) (quiet_wakeCtx _ _ _)

/-! ### Retirement -/

/-- The pushes of writes, due at a clock. -/
def pushesOf (sl : Slot) (due : Nat) (key : BitVec 12) (ws : List Wr) : List (Nat × Nat × QEntry) :=
  ws.filterMap fun w => (wrPush sl w).map fun e => (due, e.1, { val := e.2.1, psn := e.2.2, key := key })

/-- The common-register writes of writes, due at a clock. -/
def commonsOf (due : Nat) (ws : List Wr) : List (Nat × Nat × Word) :=
  ws.filterMap fun w => match w with | .com k v => some (due, k, v) | _ => none

/-- The queue and common-register writes of an instruction at its writeback. -/
theorem wrCtx_eq (x : Ctx) (sl : Slot) (due : Nat) (key : BitVec 12) (w : Wr) :
    wrCtx x sl due key w = { x with qDue := x.qDue ++ pushesOf sl due key [w], cDue := x.cDue ++ commonsOf due [w] } := by
  cases w <;> simp only [wrCtx, wrPush, pushesOf, commonsOf, List.filterMap_cons, List.filterMap_nil, Option.map_none,
    List.append_nil]
  rename_i d val psn
  cases boundQ sl d <;> simp

theorem wrCtxs_eq (x : Ctx) (sl : Slot) (due : Nat) (key : BitVec 12) (ws : List Wr) :
    wrCtxs x sl due key ws = { x with qDue := x.qDue ++ pushesOf sl due key ws, cDue := x.cDue ++ commonsOf due ws } := by
  induction ws generalizing x with
  | nil => simp [wrCtxs, pushesOf, commonsOf]
  | cons w r ih =>
    rw [wrCtxs, ih, wrCtx_eq]
    simp only [List.append_assoc]
    have h1 : pushesOf sl due key (w :: r) = pushesOf sl due key [w] ++ pushesOf sl due key r := by
      rw [pushesOf, ← List.singleton_append, List.filterMap_append]; rfl
    have h2 : commonsOf due (w :: r) = commonsOf due [w] ++ commonsOf due r := by
      rw [commonsOf, ← List.singleton_append, List.filterMap_append]; rfl
    rw [h1, h2]

theorem regs_frame (sl : Slot) (f : Frame) : regs (setCurFrame sl f) = regs sl := by
  simp only [setCurFrame]; split <;> rfl

theorem regs_retiredSlot (sl : Slot) (npc : Word) (silent : Bool) : regs (retiredSlot sl npc silent) = regs sl := rfl

theorem regs_writtenSlot (n : Nat) (sl : Slot) (ws : List Wr) : regs (writtenSlot n sl ws).1 = regs (wrSlots n sl ws).1 := by
  simp only [writtenSlot]; split <;> simp [regs_frame]

theorem regs_pairedSlot (s : State) (p : Nat) (t : Slot) (rsn : BitVec 32) (es : List (BitVec 256)) (npc : Word) :
    regs (pairedSlot s p t rsn es npc) = regs t := by
  simp only [pairedSlot]; split <;> rfl

theorem pairedSlot_place (s : State) (p : Nat) (t : Slot) (rsn : BitVec 32) (es : List (BitVec 256)) (npc : Word) :
    (pairedSlot s p t rsn es npc).pc = t.pc ∧ (pairedSlot s p t rsn es npc).st = t.st
      ∧ (pairedSlot s p t rsn es npc).pend = t.pend := by
  simp only [pairedSlot]; split <;> exact ⟨rfl, rfl, rfl⟩

theorem wrSlot_place (n : Nat) (sl : Slot) (w : Wr) :
    (wrSlot n sl w).1.stepping = sl.stepping ∧ (wrSlot n sl w).1.stopNext = sl.stopNext := by
  cases w <;> dsimp only [wrSlot, setGCell, setVCell, setMReg, setKReg, scrWrite, setCurFrame] <;> (repeat' split) <;>
    exact ⟨rfl, rfl⟩

theorem wrSlots_place (n : Nat) (sl : Slot) (ws : List Wr) :
    (wrSlots n sl ws).1.stepping = sl.stepping ∧ (wrSlots n sl ws).1.stopNext = sl.stopNext := by
  induction ws generalizing sl with
  | nil => exact ⟨rfl, rfl⟩
  | cons w r ih =>
    have h := ih (wrSlot n sl w).1
    have k := wrSlot_place n sl w
    exact ⟨h.1.trans k.1, h.2.trans k.2⟩

theorem setCurFrame_place (sl : Slot) (f : Frame) :
    (setCurFrame sl f).stepping = sl.stepping ∧ (setCurFrame sl f).stopNext = sl.stopNext := by
  simp only [setCurFrame]; split <;> exact ⟨rfl, rfl⟩

theorem writtenSlot_place (n : Nat) (sl : Slot) (ws : List Wr) :
    (writtenSlot n sl ws).1.stepping = sl.stepping ∧ (writtenSlot n sl ws).1.stopNext = sl.stopNext := by
  have h := wrSlots_place n sl ws
  simp only [writtenSlot]; split
  · have k := setCurFrame_place (wrSlots n sl ws).1 (frameNext (curFrame sl))
    exact ⟨k.1.trans h.1, k.2.trans h.2⟩
  · exact h

/-- The core after a retirement. -/
theorem getCore_retireAt (s : State) (us : List JUnit) (ws : List Wr) (npc : Word) (due : Nat) :
    ∃ t es, (t.pc = retirePc (me s) npc ∧ regs t = regs (wrSlots s.who.2 (me s) ws).1 ∧
        ((me s).stepping = false → (me s).stopNext = 0 → t.st = .active ∧ t.pend = none)) ∧
      ∀ c, c = getCore s s.who.1 →
      getCore (retireAt s us ws npc due) s.who.1 = { c with
        res := { c.res with
          slots := mset c.res.slots s.who.2 t
          qDue := c.res.qDue ++ pushesOf (me s) due (senderKey s s.who.1 s.who.2) ws
          cDue := c.res.cDue ++ commonsOf due ws }
        wide := { c.wide with rsn := mset c.wide.rsn s.who.2 (nextRsn s s.who.1 s.who.2) }
        shadow := c.shadow ++ es } := by
  let w := writtenSlot s.who.2 (me s) ws
  let pc := retirePc (me s) npc
  let units := retireUnits (me s) (us ++ w.2) pc
  let es := mkEntries units (nextRsn s s.who.1 s.who.2) s.who.2 false (getCore s s.who.1).set pc
  let t := pairedSlot s s.who.1 (retiredSlot w.1 pc units.isEmpty) (nextRsn s s.who.1 s.who.2) es pc
  refine ⟨{ t with wbDue := due, wbRegs := writtenRegs (me s) ws }, es, ⟨?_, ?_, ?_⟩, ?_⟩
  · exact (pairedSlot_place _ _ _ _ _ _).1
  · exact (regs_pairedSlot _ _ _ _ _ _).trans ((regs_retiredSlot _ _ _).trans (regs_writtenSlot _ _ _))
  · intro h1 h2
    have hp := pairedSlot_place s s.who.1 (retiredSlot w.1 pc units.isEmpty) (nextRsn s s.who.1 s.who.2) es pc
    have k := writtenSlot_place s.who.2 (me s) ws
    exact ⟨hp.2.1.trans (by simp [retiredSlot, freezesNext, w, k.1, k.2, h1, h2]), hp.2.2.trans (by simp [retiredSlot, freezesNext, w, k.1, k.2, h1, h2])⟩
  · intro c hc
    subst hc
    unfold retireAt
    rw [getCore_setCore_same, wrCtxs_eq]

/-- WHAT A RETIREMENT LEAVES (R141, R142, R260): the writes are in the slot's registers, the RSN has advanced, the PC leads on,
and nothing but the core's queues has changed besides. -/
theorem retireAt_completes (s : State) (us : List JUnit) (ws : List Wr) (npc : Word) (due : Nat) :
    Completes s (retireAt s us ws npc due) {} (wrSlots s.who.2 (me s) ws).1
      (pushesOf (me s) due (senderKey s s.who.1 s.who.2) ws) (commonsOf due ws) npc := by
  have hc : ∀ q, q ≠ s.who.1 → getCore (retireAt s us ws npc due) q = getCore s q := fun q hq => getCore_setCore_ne s _ hq
  obtain ⟨t, es, ⟨h1, h2, h3⟩, hp⟩ := getCore_retireAt s us ws npc due
  have hp := hp _ rfl
  have hw : (retireAt s us ws npc due).who = s.who := rfl
  have hme : me (retireAt s us ws npc due) = t := by
    simp only [me, getSlot, hw, hp, ctxSlot, mget_mset_same, Option.getD_some]
  have hsl : ∀ p n, (p, n) ≠ s.who → getSlot (retireAt s us ws npc due) p n = getSlot s p n := by
    intro p n h
    by_cases hpq : p = s.who.1
    · subst hpq
      have hn : n ≠ s.who.2 := fun e => h (by rw [e])
      simp only [getSlot, hp, ctxSlot, mget_mset_ne _ _ _ _ hn]
    · simp only [getSlot, hc p hpq]
  refine ⟨by rw [hme, h2], by rw [hme, h1], by rw [hme]; exact h3, ?_, ?_, ?_, ?_, ?_, ?_, ?_, ?_, rfl⟩
  · simp [slotRsn, hp, nextRsn]
  · intro p n h
    by_cases hpq : p = s.who.1
    · subst hpq
      have hn : n ≠ s.who.2 := fun e => h (by rw [e])
      simp only [slotRsn, hp, mget_mset_ne _ _ _ _ hn]
    · simp only [slotRsn, hc p hpq]
  · intro p n h; rw [hsl p n h]
  · intro q; simp only [hp, getQ, List.map_nil, List.count_nil, List.drop_zero]
  · intro p q h; rw [hc p h]
  · rw [hp]
  · rw [hp]
  · intro p
    by_cases hpq : p = s.who.1
    · subst hpq; rw [hp]; rfl
    · rw [hc p hpq]

theorem quiet_slotRsn {s t : State} (h : Quiet s t) (p n : Nat) : slotRsn t p n = slotRsn s p n := by
  have := congrArg PCore.wide (h.cores p)
  simp only at this
  simp only [slotRsn, this]

theorem quiet_senderKey {s t : State} (h : Quiet s t) (p n : Nat) : senderKey t p n = senderKey s p n := by
  have := congrArg PCore.lcore (h.cores p)
  simp only at this
  simp only [senderKey, logicalOf, this]

theorem quiet_ctx {s t : State} (h : Quiet s t) (p : Nat) :
    (getCore t p).res = { (getCore s p).res with slots := (getCore t p).res.slots } := by
  have h := h.ctx p
  revert h
  generalize (getCore t p).res = x
  generalize (getCore s p).res = y
  cases x; cases y
  intro h; simp_all

theorem quiet_restCore {s t : State} (h : Quiet s t) (p : Nat) : restCore (getCore t p) = restCore (getCore s p) := by
  have h1 := h.ctx p
  have h2 := h.cores p
  have h3 := h.sav p
  revert h1 h2 h3
  generalize getCore t p = x
  generalize getCore s p = y
  cases x; cases y
  intro h1 h2 h3
  simp_all [restCore, restCtx]

/-- WHAT AN INSTRUCTION THAT RETIRES AT ITS ISSUE LEAVES: `retireAt_completes`, and its pops. -/
theorem retire_completes (s : State) (g : Got) (ws : List Wr) (npc : Word) (ha : (me s).st = .active) :
    Completes s (retire s g ws npc) g (wrSlots s.who.2 (me s) ws).1
      (pushesOf (me s) (issueCc s + 8) (senderKey s s.who.1 s.who.2) ws) (commonsOf (issueCc s + 8) ws) npc := by
  have q := quiet_commitPops s g.pops
  generalize hu : (updCtx s s.who.1 fun x => g.pops.foldl popEntry x) = u at q
  have hcu : ∀ p, p ≠ s.who.1 → getCore u p = getCore s p := fun p h => by rw [← hu]; exact getCore_updCtx_ne s _ h
  have hcp : getCore u s.who.1 = { getCore s s.who.1 with res := g.pops.foldl popEntry (getCore s s.who.1).res } := by
    rw [← hu]; exact getCore_updCtx_same s _ _
  have hpe := popEntry_rest (getCore s s.who.1).res g.pops
  have hslots : (g.pops.foldl popEntry (getCore s s.who.1).res).slots = (getCore s s.who.1).res.slots :=
    (Ctx.mk.inj hpe).1
  have hsl : ∀ p n, getSlot u p n = getSlot s p n := by
    intro p n
    by_cases h : p = s.who.1
    · subst h; simp only [getSlot, hcp, ctxSlot, hslots]
    · simp only [getSlot, hcu p h]
  have hwu : u.who = s.who := by rw [← hu]; rfl
  have hru : restState u = restState s := by rw [← hu]; rfl
  have hrcu : ∀ p, restCore (getCore u p) = restCore (getCore s p) := by
    intro p
    by_cases h : p = s.who.1
    · subst h; rw [hcp]; simp only [restCore, restCtx_popEntry]
    · rw [hcu p h]
  generalize hv : commitPops s g.pops = v at q
  have hwv : v.who = s.who := q.who.trans hwu
  have hme : me v = me s := by
    simp only [me, hwv]
    exact (q.active _ _ (by rw [hsl]; exact ha)).trans (hsl _ _)
  have hkey : ∀ p n, senderKey v p n = senderKey s p n := fun p n => (quiet_senderKey q p n).trans (by
    simp only [senderKey, logicalOf]
    by_cases h : p = s.who.1
    · subst h; rw [hcp]
    · rw [hcu p h])
  have hrsn : ∀ p n, slotRsn v p n = slotRsn s p n := fun p n => (quiet_slotRsn q p n).trans (by
    simp only [slotRsn]
    by_cases h : p = s.who.1
    · subst h; rw [hcp]
    · rw [hcu p h])
  have ht : retire s g ws npc = retireAt v (popUnits g.pops) ws npc (issueCc s + 8) := by rw [← hv]; rfl
  have c := retireAt_completes v (popUnits g.pops) ws npc (issueCc s + 8)
  rw [← ht] at c
  have hx := quiet_ctx q
  have hq : ∀ p k, getQ (getCore v p).res k = getQ (getCore u p).res k := fun p k => by rw [hx p]; rfl
  obtain ⟨c1, c2, c3, c4, c5, c6, c7, c8, c9, c10, c11, c12⟩ := c
  rw [hme] at c1 c2 c3
  rw [hwv] at c1 c4 c5 c6 c7 c8 c9 c10
  refine ⟨c1, c2, c3, ?_, ?_, ?_, ?_, ?_, ?_, ?_, ?_, ?_⟩
  · rw [c4, hrsn]
  · intro p n h; rw [c5 p n h, hrsn]
  · intro p n h; rw [c6 p n h, q.slots, hsl]
  · intro k
    rw [c7 k]
    simp only [List.map_nil, List.count_nil, List.drop_zero]
    rw [hq, hcp]
    exact getQ_popEntry _ _ _
  · intro p k h; rw [c8 p k h, hq, hcu p h]
  · rw [c9, hx, hcp, hme, hkey]
    rw [congrArg Ctx.qDue (popEntry_eq (getCore s s.who.1).res g.pops)]
  · rw [c10, hx, hcp]
    rw [congrArg Ctx.cDue (popEntry_eq (getCore s s.who.1).res g.pops)]
  · intro p; rw [c11 p, quiet_restCore q, hrcu]
  · rw [c12, q.rest, hru]

end Sys2Proof.Machine
end

