-- ==== Sys2Proof/Laws/Access.lean ====
section
/-! SUPPORT. Requests: what a slot that sends one leaves, and an access whose checks pass (R48, R115, R287, R430, R437). -/

namespace Sys2Proof.Machine

/-- THE POPS OF AN INSTRUCTION of an Active slot: its slot is as it was, and nothing but the core's queues, places in the
rotation and the Mortar's records has changed. -/
theorem commitPops_frame (s : State) (g : Got) (ha : (me s).st = .active) :
    (commitPops s g.pops).who = s.who ∧ me (commitPops s g.pops) = me s
      ∧ (∀ p n, senderKey (commitPops s g.pops) p n = senderKey s p n)
      ∧ (∀ p n, slotRsn (commitPops s g.pops) p n = slotRsn s p n)
      ∧ (∀ p n, atRest (getSlot (commitPops s g.pops) p n) = atRest (getSlot s p n))
      ∧ (∀ q, getQ (getCore (commitPops s g.pops) s.who.1).res q
          = (getQ (getCore s s.who.1).res q).drop ((g.pops.map Prod.fst).count q))
      ∧ (∀ p q, p ≠ s.who.1 → getQ (getCore (commitPops s g.pops) p).res q = getQ (getCore s p).res q)
      ∧ (∀ p, restCore (getCore (commitPops s g.pops) p) = restCore (getCore s p))
      ∧ restState (commitPops s g.pops) = restState s := by
  have q := quiet_commitPops s g.pops
  generalize hu : (updCtx s s.who.1 fun x => g.pops.foldl popEntry x) = u at q
  have hcu : ∀ p, p ≠ s.who.1 → getCore u p = getCore s p := fun p h => by rw [← hu]; exact getCore_updCtx_ne s _ h
  have hcp : getCore u s.who.1 = { getCore s s.who.1 with res := g.pops.foldl popEntry (getCore s s.who.1).res } := by
    rw [← hu]; exact getCore_updCtx_same s _ _
  have hpe := popEntry_rest (getCore s s.who.1).res g.pops
  have hslots : (g.pops.foldl popEntry (getCore s s.who.1).res).slots = (getCore s s.who.1).res.slots :=
    (Ctx.mk.inj hpe).1
  have hsl : ∀ p n, getSlot u p n = getSlot s p n := by
    intro p n
    by_cases h : p = s.who.1
    · subst h; simp only [getSlot, hcp, ctxSlot, hslots]
    · simp only [getSlot, hcu p h]
  have hwu : u.who = s.who := by rw [← hu]; rfl
  have hru : restState u = restState s := by rw [← hu]; rfl
  have hrcu : ∀ p, restCore (getCore u p) = restCore (getCore s p) := by
    intro p
    by_cases h : p = s.who.1
    · subst h; rw [hcp]; simp only [restCore, restCtx_popEntry]
    · rw [hcu p h]
  generalize commitPops s g.pops = v at q ⊢
  have hwv : v.who = s.who := q.who.trans hwu
  have hx := quiet_ctx q
  have hq : ∀ p k, getQ (getCore v p).res k = getQ (getCore u p).res k := fun p k => by rw [hx p]; rfl
  refine ⟨hwv, ?_, ?_, ?_, ?_, ?_, ?_, ?_, q.rest.trans hru⟩
  · simp only [me, hwv]
    exact (q.active _ _ (by rw [hsl]; exact ha)).trans (hsl _ _)
  · refine fun p n => (quiet_senderKey q p n).trans ?_
    simp only [senderKey, logicalOf]
    by_cases h : p = s.who.1
    · subst h; rw [hcp]
    · rw [hcu p h]
  · refine fun p n => (quiet_slotRsn q p n).trans ?_
    simp only [slotRsn]
    by_cases h : p = s.who.1
    · subst h; rw [hcp]
    · rw [hcu p h]
  · intro p n; rw [q.slots, hsl]
  · intro k; rw [hq, hcp]; exact getQ_popEntry _ _ _
  · intro p k h; rw [hq, hcu p h]
  · intro p; rw [quiet_restCore q, hrcu]

/-- What a waiting instruction's records are noted in: the Mortar alone. -/
theorem lendRecords_eq (s t : State) (pops : List (Nat × QEntry)) :
    lendRecords s t pops = { t with mortars := (lendRecords s t pops).mortars } := by
  simp only [lendRecords]; split <;> rfl

/-- A SLOT THAT WAITS FOR ANSWERS: what `waitFor` leaves. -/
theorem waitFor_issued (s : State) (g : Got) (d : Pend) (ha : (me s).st = .active) : Issued s (waitFor s g d) g d [] := by
  obtain ⟨h1, h2, h3, h4, h5, h6, h7, h8, h9⟩ := commitPops_frame s g ha
  have hn : (commitPops s g.pops).nextTag = s.nextTag :=
    (congrArg State.nextTag h9 : (restState _).nextTag = (restState _).nextTag)
  have hnet : (commitPops s g.pops).net = s.net :=
    (congrArg State.net h9 : (restState _).net = (restState _).net)
  have hw : (waitFor s g d).who = s.who := by simp only [waitFor]; rw [lendRecords_eq]; exact h1
  simp only [waitFor] at hw ⊢
  have hv := lendRecords_eq s (commitPops s g.pops) g.pops
  generalize lendRecords s (commitPops s g.pops) g.pops = v at hw hv ⊢
  replace h1 : v.who = s.who := by rw [hv]; exact h1
  replace h2 : me v = me s := by rw [hv]; exact h2
  replace h4 : ∀ p n, slotRsn v p n = slotRsn s p n := by rw [hv]; exact h4
  replace h5 : ∀ p n, atRest (getSlot v p n) = atRest (getSlot s p n) := by rw [hv]; exact h5
  replace h6 : ∀ q, getQ (getCore v s.who.1).res q
      = (getQ (getCore s s.who.1).res q).drop ((g.pops.map Prod.fst).count q) := by rw [hv]; exact h6
  replace h7 : ∀ p q, p ≠ s.who.1 → getQ (getCore v p).res q = getQ (getCore s p).res q := by rw [hv]; exact h7
  replace h8 : ∀ p, restCore (getCore v p) = restCore (getCore s p) := by rw [hv]; exact h8
  replace h9 : restState v = restState s := by rw [hv]; exact h9
  replace hn : v.nextTag = s.nextTag := by rw [hv]; exact hn
  replace hnet : v.net = s.net := by rw [hv]; exact hnet
  clear h3 hv
  have e : ({ v with nextTag := v.nextTag + 1 } : State).who = v.who := rfl
  have hm : me ({ v with nextTag := v.nextTag + 1 } : State) = me v := rfl
  have gc : ∀ p, getCore ({ v with nextTag := v.nextTag + 1 } : State) p = getCore v p := fun _ => rfl
  have gs : ∀ p n, getSlot ({ v with nextTag := v.nextTag + 1 } : State) p n = getSlot v p n := fun _ _ => rfl
  have hne : ∀ p, p ≠ s.who.1 → ∀ f, getCore (updMe ({ v with nextTag := v.nextTag + 1 } : State) f) p = getCore v p := by
    intro p hp f
    rw [updMe, updSlot, setSlot, getCore_updCtx_ne _ _ (by rw [e, h1]; exact hp), gc]
  refine ⟨?_, ?_, ?_, ?_, ?_, ?_, ?_, ?_, ?_⟩
  · rw [me_updMe, hm, h2, hn]; exact ⟨rfl, rfl, rfl⟩
  · rw [me_updMe, hm, h2]; rfl
  · refine ⟨?_, ?_⟩
    · rw [List.append_nil]; exact hnet
    · change v.nextTag + 1 = _; rw [hn]
  · intro p n
    rw [← h4]
    by_cases hp : p = s.who.1
    · subst hp; rw [← h1]; simp only [slotRsn]; rw [← e, getCore_updMe_same]; rfl
    · simp only [slotRsn]; rw [hne p hp]
  · intro p n h
    rw [← h5, updMe, getSlot_updSlot_ne _ _ (by rw [e, h1]; exact h), gs]
  · intro q
    rw [← h6, ← h1, ← e, getCore_updMe_same]; rfl
  · intro p q hp; rw [hne p hp, h7 p q hp]
  · intro p
    rw [← h8]
    by_cases hp : p = s.who.1
    · subst hp; rw [← h1, ← e, getCore_updMe_same]; rfl
    · rw [hne p hp]
  · have : ∀ f, restState (updMe ({ v with nextTag := v.nextTag + 1 } : State) f) = { restState v with nextTag := v.nextTag + 1 } :=
      fun _ => rfl
    rw [this, h9]

theorem Issued.mkReq_eq {s t : State} {g : Got} {d : Pend} {ms : List Msg} (h : Issued s t g d ms) (tag nud : Nat) (act : Act)
    (ps : List Part) : mkReq t tag nud act ps = mkReq s tag nud act ps ∧ t.who = s.who := by
  have hw : t.who = s.who := (congrArg State.who h.rest : ({ restState _ with net := [], nextTag := 0 } : State).who = _)
  have hl : ∀ p, logicalOf t p = logicalOf s p := fun p =>
    (congrArg PCore.lcore (h.cores p) : (restCore _).lcore = (restCore _).lcore)
  have hj : (me t).jobId = (me s).jobId := (congrArg Slot.jobId h.registers : (regs _).jobId = (regs _).jobId)
  have hu : (me t).launchId = (me s).launchId := (congrArg Slot.launchId h.registers : (regs _).launchId = (regs _).launchId)
  exact ⟨by simp only [mkReq, hw, senderKey, hl, myJob, hj, hu, nextRsn, h.rsn], hw⟩

theorem destReq_net (s : State) (ms : List Msg) (tag nud : Nat) (act : Act) (ps : List Part) (d : Nat) :
    destReq { s with net := ms } tag nud act ps d = destReq s tag nud act ps d := rfl

theorem filter_dest {p : Nat} {ps : List Part} {d : Nat} (h : d ∈ destsOf p ps) :
    ∃ q r, (ps.filter fun q => destOf p q.addr = d) = q :: r ∧ destOf p q.addr = d := by
  induction ps with
  | nil => simp [destsOf] at h
  | cons q r ih =>
    by_cases hq : destOf p q.addr = d
    · exact ⟨q, r.filter fun q => destOf p q.addr = d, by simp [hq], hq⟩
    · simp only [destsOf, List.mem_cons, List.mem_filter] at h
      rcases h with h | h
      · exact absurd h.symm hq
      · obtain ⟨q', r', h1, h2⟩ := ih h.1
        exact ⟨q', r', by simp [hq, h1], h2⟩

/-- THE MESSAGES OF AN INSTRUCTION: one for each destination. -/
theorem sendParts_eq (s : State) (tag nud : Nat) (act : Act) (ps : List Part) :
    sendParts s tag nud act ps = { s with net := s.net ++ (destsOf s.who.1 ps).map (fun d =>
      Msg.req d (destReq s tag nud act ps d)) } := by
  have key : ∀ (ds : List Nat) (ms : List Msg), (∀ d ∈ ds, d ∈ destsOf s.who.1 ps) →
      ds.foldl (fun u d => sendReq u (destReq u tag nud act ps d)) { s with net := ms }
        = { s with net := ms ++ ds.map (fun d => Msg.req d (destReq s tag nud act ps d)) } := by
    intro ds
    induction ds with
    | nil => intro ms _; simp
    | cons d r ih =>
      intro ms h
      obtain ⟨q, l, hl, hq⟩ := filter_dest (h d (List.mem_cons_self ..))
      have hs : sendReq { s with net := ms } (destReq { s with net := ms } tag nud act ps d)
          = { s with net := ms ++ [.req d (destReq s tag nud act ps d)] } := by
        rw [destReq_net]
        simp only [sendReq]
        have hp : (destReq s tag nud act ps d).parts = q :: l := hl
        rw [hp]
        simp only [hq]
      rw [List.foldl_cons, hs, ih _ fun e he => h e (List.mem_cons_of_mem _ he)]
      simp
  have h0 := key (destsOf s.who.1 ps) s.net fun _ h => h
  exact h0

/-- AN INSTRUCTION THAT SENDS A REQUEST of several parts. -/
theorem requestParts_issued (s : State) (g : Got) (d : Pend) (nud : Nat) (act : Act) (ps : List Part) (ha : (me s).st = .active) :
    Issued s (requestParts s g d nud act ps) g { d with left := ps.length } (requestsOf s nud act ps) := by
  have h := waitFor_issued s g { d with left := ps.length } ha
  have hm := fun ps => h.mkReq_eq s.nextTag nud act ps
  have hw := (hm []).2
  simp only [requestParts]
  generalize waitFor s g { d with left := ps.length } = u at *
  rw [sendParts_eq]
  obtain ⟨h1, h2, ⟨h3, h3'⟩, h4, h5, h6, h7, h8, h9⟩ := h
  refine ⟨h1, h2, ⟨?_, h3'⟩, h4, h5, h6, h7, h8, h9⟩
  rw [List.append_nil] at h3
  simp only [requestsOf, h3, hw]
  congr 1
  exact List.map_congr_left fun d _ => by simp only [destReq, (hm _).1, hw]

/-- AN INSTRUCTION THAT SENDS A REQUEST of one part. -/
theorem request_issued (s : State) (g : Got) (d : Pend) (nud : Nat) (act : Act) (q : Part) (ha : (me s).st = .active) :
    Issued s (request s g d nud act q) g { d with left := 1 } [.req (destOf s.who.1 q.addr) (mkReq s s.nextTag nud act [q])] := by
  have h := requestParts_issued s g d nud act [q] ha
  have e : destReq s s.nextTag nud act [q] (destOf s.who.1 q.addr) = mkReq s s.nextTag nud act [q] := by simp [destReq, destsOf]; rfl
  simpa [request, requestsOf, destsOf, e] using h

/-- STAGES 2 TO 6 OF AN ACCESS whose operands are ready and whose checks pass (R430). -/
theorem accessGate_ok {s : State} {f : Form} {n : Nat} {srcs : List Opnd} {dsts : List GReg} {psn : List (Nat × Nat)}
    {ea : Got → Word} {g : Got} (h : Ready s srcs dsts g) (hl : lockCheck s (ea g) n = .ok ())
    (hp : ∀ e ∈ psn, (g.xs.getD e.1 {}).psn = false) (ha : addrCode s f (ea g) n = none) :
    accessGate s f n srcs dsts psn ea = .ok (g, s) := by
  have hn : noPoisonAt s g (ea g) psn = .ok () := by
    induction psn with
    | nil => rfl
    | cons e r ih =>
      rw [noPoisonAt, hp e (List.mem_cons_self ..)]
      exact ih fun x hx => hp x (List.mem_cons_of_mem _ hx)
  simp only [accessGate, gather_of_ready _ h, bind, Except.bind, hl, hn, addrCheck, ha, pure, Except.pure]

end Sys2Proof.Machine
end

