-- ==== Sys2Proof/Laws/Exec.lean ====
section
/-! SUPPORT. The arm of each instruction: `exec` is a call of its meaning. To be used instead of unfolding `exec`. -/

namespace Sys2Proof.Machine

theorem exec_nop {s : State} : exec .nop s = execNop s := rfl
theorem exec_halt {s : State} : exec .halt s = execHalt s := rfl
theorem exec_trapi {n a} {s : State} : exec (.trapi n a) s = execTrapi n a s := rfl
theorem exec_bkpt {n} {s : State} : exec (.bkpt n) s = execBkpt n s := rfl
theorem exec_mfs {d n} {s : State} : exec (.mfs d n) s = execMfs d n s := rfl
theorem exec_mts {n a} {s : State} : exec (.mts n a) s = execMts n a s := rfl
theorem exec_mfc {d n} {s : State} : exec (.mfc d n) s = execMfc d n s := rfl
theorem exec_mtc {n a} {s : State} : exec (.mtc n a) s = execMtc n a s := rfl
theorem exec_idle {s : State} : exec .idle s = execIdle s := rfl
theorem exec_slotid {d} {s : State} : exec (.slotid d) s = execSlotid d s := rfl
theorem exec_purge {first last vec} {s : State} : exec (.purge first last vec) s = execPurge first last vec s := rfl
theorem exec_add {d a b} {s : State} : exec (.add d a b) s = execAdd d a b s := rfl
theorem exec_sub {d a b} {s : State} : exec (.sub d a b) s = execSub d a b s := rfl
theorem exec_and {d a b} {s : State} : exec (.and d a b) s = execAnd d a b s := rfl
theorem exec_or {d a b} {s : State} : exec (.or d a b) s = execOr d a b s := rfl
theorem exec_xor {d a b} {s : State} : exec (.xor d a b) s = execXor d a b s := rfl
theorem exec_andn {d a b} {s : State} : exec (.andn d a b) s = execAndn d a b s := rfl
theorem exec_orn {d a b} {s : State} : exec (.orn d a b) s = execOrn d a b s := rfl
theorem exec_sll {d a b} {s : State} : exec (.sll d a b) s = execSll d a b s := rfl
theorem exec_srl {d a b} {s : State} : exec (.srl d a b) s = execSrl d a b s := rfl
theorem exec_sra {d a b} {s : State} : exec (.sra d a b) s = execSra d a b s := rfl
theorem exec_rotr {d a b} {s : State} : exec (.rotr d a b) s = execRotr d a b s := rfl
theorem exec_slt {d a b} {s : State} : exec (.slt d a b) s = execSlt d a b s := rfl
theorem exec_sltu {d a b} {s : State} : exec (.sltu d a b) s = execSltu d a b s := rfl
theorem exec_seq {d a b} {s : State} : exec (.seq d a b) s = execSeq d a b s := rfl
theorem exec_min {d a b} {s : State} : exec (.min d a b) s = execMin d a b s := rfl
theorem exec_max {d a b} {s : State} : exec (.max d a b) s = execMax d a b s := rfl
theorem exec_minu {d a b} {s : State} : exec (.minu d a b) s = execMinu d a b s := rfl
theorem exec_maxu {d a b} {s : State} : exec (.maxu d a b) s = execMaxu d a b s := rfl
theorem exec_mul {d a b} {s : State} : exec (.mul d a b) s = execMul d a b s := rfl
theorem exec_mulh {d a b} {s : State} : exec (.mulh d a b) s = execMulh d a b s := rfl
theorem exec_mulhu {d a b} {s : State} : exec (.mulhu d a b) s = execMulhu d a b s := rfl
theorem exec_div {d a b} {s : State} : exec (.div d a b) s = execDiv d a b s := rfl
theorem exec_divu {d a b} {s : State} : exec (.divu d a b) s = execDivu d a b s := rfl
theorem exec_rem {d a b} {s : State} : exec (.rem d a b) s = execRem d a b s := rfl
theorem exec_remu {d a b} {s : State} : exec (.remu d a b) s = execRemu d a b s := rfl
theorem exec_clz {d a} {s : State} : exec (.clz d a) s = execClz d a s := rfl
theorem exec_ctz {d a} {s : State} : exec (.ctz d a) s = execCtz d a s := rfl
theorem exec_popc {d a} {s : State} : exec (.popc d a) s = execPopc d a s := rfl
theorem exec_bswap {d a} {s : State} : exec (.bswap d a) s = execBswap d a s := rfl
theorem exec_sel {d a b c} {s : State} : exec (.sel d a b c) s = execSel d a b c s := rfl
theorem exec_shadd {d a b k} {s : State} : exec (.shadd d a b k) s = execShadd d a b k s := rfl
theorem exec_addi {d a imm} {s : State} : exec (.addi d a imm) s = execAddi d a imm s := rfl
theorem exec_andi {d a imm} {s : State} : exec (.andi d a imm) s = execAndi d a imm s := rfl
theorem exec_ori {d a imm} {s : State} : exec (.ori d a imm) s = execOri d a imm s := rfl
theorem exec_xori {d a imm} {s : State} : exec (.xori d a imm) s = execXori d a imm s := rfl
theorem exec_slti {d a imm} {s : State} : exec (.slti d a imm) s = execSlti d a imm s := rfl
theorem exec_sltiu {d a imm} {s : State} : exec (.sltiu d a imm) s = execSltiu d a imm s := rfl
theorem exec_slli {d a k} {s : State} : exec (.slli d a k) s = execSlli d a k s := rfl
theorem exec_srli {d a k} {s : State} : exec (.srli d a k) s = execSrli d a k s := rfl
theorem exec_srai {d a k} {s : State} : exec (.srai d a k) s = execSrai d a k s := rfl
theorem exec_rotri {d a k} {s : State} : exec (.rotri d a k) s = execRotri d a k s := rfl
theorem exec_li {d imm} {s : State} : exec (.li d imm) s = execLi d imm s := rfl
theorem exec_lim {d imm} {s : State} : exec (.lim d imm) s = execLim d imm s := rfl
theorem exec_lih {d imm} {s : State} : exec (.lih d imm) s = execLih d imm s := rfl
theorem exec_addpc {d imm} {s : State} : exec (.addpc d imm) s = execAddpc d imm s := rfl
theorem exec_bfx {d a l p} {s : State} : exec (.bfx d a l p) s = execBfx d a l p s := rfl
theorem exec_bfi {d a l p} {s : State} : exec (.bfi d a l p) s = execBfi d a l p s := rfl
theorem exec_beq {a b disp} {s : State} : exec (.beq a b disp) s = execBeq a b disp s := rfl
theorem exec_bne {a b disp} {s : State} : exec (.bne a b disp) s = execBne a b disp s := rfl
theorem exec_blt {a b disp} {s : State} : exec (.blt a b disp) s = execBlt a b disp s := rfl
theorem exec_bge {a b disp} {s : State} : exec (.bge a b disp) s = execBge a b disp s := rfl
theorem exec_bltu {a b disp} {s : State} : exec (.bltu a b disp) s = execBltu a b disp s := rfl
theorem exec_bgeu {a b disp} {s : State} : exec (.bgeu a b disp) s = execBgeu a b disp s := rfl
theorem exec_bful {a disp} {s : State} : exec (.bful a disp) s = execBful a disp s := rfl
theorem exec_bemp {a disp} {s : State} : exec (.bemp a disp) s = execBemp a disp s := rfl
theorem exec_j {disp} {s : State} : exec (.j disp) s = execJ disp s := rfl
theorem exec_jal {disp} {s : State} : exec (.jal disp) s = execJal disp s := rfl
theorem exec_jalr {d a imm} {s : State} : exec (.jalr d a imm) s = execJalr d a imm s := rfl
theorem exec_rep {count sd sa sb sc len} {s : State} : exec (.rep count sd sa sb sc len) s = execRep count sd sa sb sc len s := rfl
theorem exec_ld {t base nud sz off} {s : State} : exec (.ld t base nud sz off) s = execLd t base nud sz off s := rfl
theorem exec_st {t base nud sz off} {s : State} : exec (.st t base nud sz off) s = execSt t base nud sz off s := rfl
theorem exec_ldv {t base nud off} {s : State} : exec (.ldv t base nud off) s = execLdv t base nud off s := rfl
theorem exec_stv {t base nud off} {s : State} : exec (.stv t base nud off) s = execStv t base nud off s := rfl
theorem exec_ldaq {t base nud sz scope off} {s : State} : exec (.ldaq t base nud sz scope off) s = execLdaq t base nud sz scope off s := rfl
theorem exec_strl {t base nud sz scope off} {s : State} : exec (.strl t base nud sz scope off) s = execStrl t base nud sz scope off s := rfl
theorem exec_gath {d a b m dword sh nud} {s : State} : exec (.gath d a b m dword sh nud) s = execGath d a b m dword sh nud s := rfl
theorem exec_scat {d a b m dword sh nud} {s : State} : exec (.scat d a b m dword sh nud) s = execScat d a b m dword sh nud s := rfl
theorem exec_ldfe {t base nud off} {s : State} : exec (.ldfe t base nud off) s = execLdfe t base nud off s := rfl
theorem exec_ldff {t base nud off} {s : State} : exec (.ldff t base nud off) s = execLdff t base nud off s := rfl
theorem exec_stef {t base nud off} {s : State} : exec (.stef t base nud off) s = execStef t base nud off s := rfl
theorem exec_stff {t base nud off} {s : State} : exec (.stff t base nud off) s = execStff t base nud off s := rfl
theorem exec_sete {base nud off} {s : State} : exec (.sete base nud off) s = execSete base nud off s := rfl
theorem exec_setf {base nud off} {s : State} : exec (.setf base nud off) s = execSetf base nud off s := rfl
theorem exec_stsb {t base nud six idx} {s : State} : exec (.stsb t base nud six idx) s = execStsb t base nud six idx s := rfl
theorem exec_amoAdd {d a b ord scope word} {s : State} : exec (.amoAdd d a b ord scope word) s = execAmoAdd d a b ord scope word s := rfl
theorem exec_amoAnd {d a b ord scope word} {s : State} : exec (.amoAnd d a b ord scope word) s = execAmoAnd d a b ord scope word s := rfl
theorem exec_amoOr {d a b ord scope word} {s : State} : exec (.amoOr d a b ord scope word) s = execAmoOr d a b ord scope word s := rfl
theorem exec_amoXor {d a b ord scope word} {s : State} : exec (.amoXor d a b ord scope word) s = execAmoXor d a b ord scope word s := rfl
theorem exec_amoMin {d a b ord scope word} {s : State} : exec (.amoMin d a b ord scope word) s = execAmoMin d a b ord scope word s := rfl
theorem exec_amoMax {d a b ord scope word} {s : State} : exec (.amoMax d a b ord scope word) s = execAmoMax d a b ord scope word s := rfl
theorem exec_amoMinu {d a b ord scope word} {s : State} : exec (.amoMinu d a b ord scope word) s = execAmoMinu d a b ord scope word s := rfl
theorem exec_amoMaxu {d a b ord scope word} {s : State} : exec (.amoMaxu d a b ord scope word) s = execAmoMaxu d a b ord scope word s := rfl
theorem exec_amoSwp {d a b ord scope word} {s : State} : exec (.amoSwp d a b ord scope word) s = execAmoSwp d a b ord scope word s := rfl
theorem exec_amoCas {d a b ord scope word} {s : State} : exec (.amoCas d a b ord scope word) s = execAmoCas d a b ord scope word s := rfl
theorem exec_amoFaddS {d a b ord scope} {s : State} : exec (.amoFaddS d a b ord scope) s = execAmoFaddS d a b ord scope s := rfl
theorem exec_amoFaddD {d a b ord scope} {s : State} : exec (.amoFaddD d a b ord scope) s = execAmoFaddD d a b ord scope s := rfl
theorem exec_fence {p q scope} {s : State} : exec (.fence p q scope) s = execFence p q scope s := rfl
theorem exec_pfence {scope mm} {s : State} : exec (.pfence scope mm) s = execPfence scope mm s := rfl
theorem exec_pref {hint base nud off} {s : State} : exec (.pref hint base nud off) s = execPref hint base nud off s := rfl
theorem exec_send {d a b tag} {s : State} : exec (.send d a b tag) s = execSend d a b tag s := rfl
theorem exec_sendu {d a b} {s : State} : exec (.sendu d a b) s = execSendu d a b s := rfl
theorem exec_sendg {a b} {s : State} : exec (.sendg a b) s = execSendg a b s := rfl
theorem exec_recv {d a b poll} {s : State} : exec (.recv d a b poll) s = execRecv d a b poll s := rfl
theorem exec_waitk {d a k poll} {s : State} : exec (.waitk d a k poll) s = execWaitk d a k poll s := rfl
theorem exec_clrk {a k subtract} {s : State} : exec (.clrk a k subtract) s = execClrk a k subtract s := rfl
theorem exec_mskw {s : State} : exec .mskw s = execMskw s := rfl
theorem exec_opnw {s : State} : exec .opnw s = execOpnw s := rfl
theorem exec_retu {s : State} : exec .retu s = execRetu s := rfl
theorem exec_chbind {a kc ka} {s : State} : exec (.chbind a kc ka) s = execChbind a kc ka s := rfl
theorem exec_bara {d a} {s : State} : exec (.bara d a) s = execBara d a s := rfl
theorem exec_barw {d a b} {s : State} : exec (.barw d a b) s = execBarw d a b s := rfl
theorem exec_baraw {d a b} {s : State} : exec (.baraw d a b) s = execBaraw d a b s := rfl
theorem exec_fadd {d a b p} {s : State} : exec (.fadd d a b p) s = execFadd d a b p s := rfl
theorem exec_fsub {d a b p} {s : State} : exec (.fsub d a b p) s = execFsub d a b p s := rfl
theorem exec_fmul {d a b p} {s : State} : exec (.fmul d a b p) s = execFmul d a b p s := rfl
theorem exec_fdiv {d a b p} {s : State} : exec (.fdiv d a b p) s = execFdiv d a b p s := rfl
theorem exec_fsqrt {d a p} {s : State} : exec (.fsqrt d a p) s = execFsqrt d a p s := rfl
theorem exec_fmin {d a b p} {s : State} : exec (.fmin d a b p) s = execFmin d a b p s := rfl
theorem exec_fmax {d a b p} {s : State} : exec (.fmax d a b p) s = execFmax d a b p s := rfl
theorem exec_feq {d a b p} {s : State} : exec (.feq d a b p) s = execFeq d a b p s := rfl
theorem exec_flt {d a b p} {s : State} : exec (.flt d a b p) s = execFlt d a b p s := rfl
theorem exec_fle {d a b p} {s : State} : exec (.fle d a b p) s = execFle d a b p s := rfl
theorem exec_fclass {d a p} {s : State} : exec (.fclass d a p) s = execFclass d a p s := rfl
theorem exec_fsgnj {d a b p} {s : State} : exec (.fsgnj d a b p) s = execFsgnj d a b p s := rfl
theorem exec_fsgnjn {d a b p} {s : State} : exec (.fsgnjn d a b p) s = execFsgnjn d a b p s := rfl
theorem exec_fsgnjx {d a b p} {s : State} : exec (.fsgnjx d a b p) s = execFsgnjx d a b p s := rfl
theorem exec_fcvtI {d a ty p} {s : State} : exec (.fcvtI d a ty p) s = execFcvtI d a ty p s := rfl
theorem exec_fcvtF {d a ty p} {s : State} : exec (.fcvtF d a ty p) s = execFcvtF d a ty p s := rfl
theorem exec_fcvtFf {d a src p} {s : State} : exec (.fcvtFf d a src p) s = execFcvtFf d a src p s := rfl
theorem exec_fmv {d a p} {s : State} : exec (.fmv d a p) s = execFmv d a p s := rfl
theorem exec_fma {d a b c p} {s : State} : exec (.fma d a b c p) s = execFma d a b c p s := rfl
theorem exec_fms {d a b c p} {s : State} : exec (.fms d a b c p) s = execFms d a b c p s := rfl
theorem exec_fnma {d a b c p} {s : State} : exec (.fnma d a b c p) s = execFnma d a b c p s := rfl
theorem exec_fnms {d a b c p} {s : State} : exec (.fnms d a b c p) s = execFnms d a b c p s := rfl
theorem exec_vadd {d a b m ty} {s : State} : exec (.vadd d a b m ty) s = execVadd d a b m ty s := rfl
theorem exec_vsub {d a b m ty} {s : State} : exec (.vsub d a b m ty) s = execVsub d a b m ty s := rfl
theorem exec_vmul {d a b m ty} {s : State} : exec (.vmul d a b m ty) s = execVmul d a b m ty s := rfl
theorem exec_vfma {d a b c m ty} {s : State} : exec (.vfma d a b c m ty) s = execVfma d a b c m ty s := rfl
theorem exec_vfms {d a b c m ty} {s : State} : exec (.vfms d a b c m ty) s = execVfms d a b c m ty s := rfl
theorem exec_vfnma {d a b c m ty} {s : State} : exec (.vfnma d a b c m ty) s = execVfnma d a b c m ty s := rfl
theorem exec_vmin {d a b m ty} {s : State} : exec (.vmin d a b m ty) s = execVmin d a b m ty s := rfl
theorem exec_vmax {d a b m ty} {s : State} : exec (.vmax d a b m ty) s = execVmax d a b m ty s := rfl
theorem exec_vabs {d a m ty} {s : State} : exec (.vabs d a m ty) s = execVabs d a m ty s := rfl
theorem exec_vneg {d a m ty} {s : State} : exec (.vneg d a m ty) s = execVneg d a m ty s := rfl
theorem exec_vand {d a b m ty} {s : State} : exec (.vand d a b m ty) s = execVand d a b m ty s := rfl
theorem exec_vor {d a b m ty} {s : State} : exec (.vor d a b m ty) s = execVor d a b m ty s := rfl
theorem exec_vxor {d a b m ty} {s : State} : exec (.vxor d a b m ty) s = execVxor d a b m ty s := rfl
theorem exec_vsll {d a b m ty} {s : State} : exec (.vsll d a b m ty) s = execVsll d a b m ty s := rfl
theorem exec_vsrl {d a b m ty} {s : State} : exec (.vsrl d a b m ty) s = execVsrl d a b m ty s := rfl
theorem exec_vsra {d a b m ty} {s : State} : exec (.vsra d a b m ty) s = execVsra d a b m ty s := rfl
theorem exec_vexp2 {d a m ty} {s : State} : exec (.vexp2 d a m ty) s = execVexp2 d a m ty s := rfl
theorem exec_vlog2 {d a m ty} {s : State} : exec (.vlog2 d a m ty) s = execVlog2 d a m ty s := rfl
theorem exec_vrcp {d a m ty} {s : State} : exec (.vrcp d a m ty) s = execVrcp d a m ty s := rfl
theorem exec_vrsq {d a m ty} {s : State} : exec (.vrsq d a m ty) s = execVrsq d a m ty s := rfl
theorem exec_vsqrt {d a m ty} {s : State} : exec (.vsqrt d a m ty) s = execVsqrt d a m ty s := rfl
theorem exec_vdiv {d a b m ty} {s : State} : exec (.vdiv d a b m ty) s = execVdiv d a b m ty s := rfl
theorem exec_vcvt {d a unpack part c m ty} {s : State} : exec (.vcvt d a unpack part c m ty) s = execVcvt d a unpack part c m ty s := rfl
theorem exec_vcvts {d a part c m ty} {s : State} : exec (.vcvts d a part c m ty) s = execVcvts d a part c m ty s := rfl
theorem exec_vqnt {d a b c part ty} {s : State} : exec (.vqnt d a b c part ty) s = execVqnt d a b c part ty s := rfl
theorem exec_vdqnt {d a b c part ty} {s : State} : exec (.vdqnt d a b c part ty) s = execVdqnt d a b c part ty s := rfl
theorem exec_vclmp {d a b c m ty} {s : State} : exec (.vclmp d a b c m ty) s = execVclmp d a b c m ty s := rfl
theorem exec_vscl {d a b m ty} {s : State} : exec (.vscl d a b m ty) s = execVscl d a b m ty s := rfl
theorem exec_vcmp {k a b cond m ty} {s : State} : exec (.vcmp k a b cond m ty) s = execVcmp k a b cond m ty s := rfl
theorem exec_vsel {d a b m ty} {s : State} : exec (.vsel d a b m ty) s = execVsel d a b m ty s := rfl
theorem exec_vmov {d a m ty} {s : State} : exec (.vmov d a m ty) s = execVmov d a m ty s := rfl
theorem exec_vbcst {d a m ty} {s : State} : exec (.vbcst d a m ty) s = execVbcst d a m ty s := rfl
theorem exec_vradd {d a m ty} {s : State} : exec (.vradd d a m ty) s = execVradd d a m ty s := rfl
theorem exec_vrmax {d a m ty} {s : State} : exec (.vrmax d a m ty) s = execVrmax d a m ty s := rfl
theorem exec_vrmin {d a m ty} {s : State} : exec (.vrmin d a m ty) s = execVrmin d a m ty s := rfl
theorem exec_vscana {d a b m ty} {s : State} : exec (.vscana d a b m ty) s = execVscana d a b m ty s := rfl
theorem exec_vshuf {d a b m ty} {s : State} : exec (.vshuf d a b m ty) s = execVshuf d a b m ty s := rfl
theorem exec_vrotl {d a b m ty} {s : State} : exec (.vrotl d a b m ty) s = execVrotl d a b m ty s := rfl
theorem exec_vzip {d a b m ty} {s : State} : exec (.vzip d a b m ty) s = execVzip d a b m ty s := rfl
theorem exec_vunzip {d a b m ty} {s : State} : exec (.vunzip d a b m ty) s = execVunzip d a b m ty s := rfl
theorem exec_vext {d a b c m ty} {s : State} : exec (.vext d a b c m ty) s = execVext d a b c m ty s := rfl
theorem exec_vins {d a b m ty} {s : State} : exec (.vins d a b m ty) s = execVins d a b m ty s := rfl
theorem exec_viota {d m ty} {s : State} : exec (.viota d m ty) s = execViota d m ty s := rfl
theorem exec_vmpop {d m ty} {s : State} : exec (.vmpop d m ty) s = execVmpop d m ty s := rfl
theorem exec_vmand {d a b} {s : State} : exec (.vmand d a b) s = execVmand d a b s := rfl
theorem exec_vmor {d a b} {s : State} : exec (.vmor d a b) s = execVmor d a b s := rfl
theorem exec_vmnot {d a} {s : State} : exec (.vmnot d a) s = execVmnot d a s := rfl
theorem exec_vdot {d a b c m ty} {s : State} : exec (.vdot d a b c m ty) s = execVdot d a b c m ty s := rfl
theorem exec_spawn {d a b} {s : State} : exec (.spawn d a b) s = execSpawn d a b s := rfl
theorem exec_sync {a} {s : State} : exec (.sync a) s = execSync a s := rfl
theorem exec_finish {s : State} : exec .finish s = execFinish s := rfl
theorem exec_launch {d a b} {s : State} : exec (.launch d a b) s = execLaunch d a b s := rfl
theorem exec_decr {d a} {s : State} : exec (.decr d a) s = execDecr d a s := rfl
theorem exec_yield {s : State} : exec .yield s = execYield s := rfl
theorem exec_tskst {d a wait level} {s : State} : exec (.tskst d a wait level) s = execTskst d a wait level s := rfl
theorem exec_role {mask} {s : State} : exec (.role mask) s = execRole mask s := rfl
theorem exec_stamp {d origin} {s : State} : exec (.stamp d origin) s = execStamp d origin s := rfl
theorem exec_time {d} {s : State} : exec (.time d) s = execTime d s := rfl
theorem exec_chkage {d a b} {s : State} : exec (.chkage d a b) s = execChkage d a b s := rfl
theorem exec_budget {d texp} {s : State} : exec (.budget d texp) s = execBudget d texp s := rfl
theorem exec_waitt {d a scan} {s : State} : exec (.waitt d a scan) s = execWaitt d a scan s := rfl
theorem exec_phaseid {d} {s : State} : exec (.phaseid d) s = execPhaseid d s := rfl
theorem exec_mxq {d a b} {s : State} : exec (.mxq d a b) s = execMxq d a b s := rfl
theorem exec_mxwait {d a} {s : State} : exec (.mxwait d a) s = execMxwait d a s := rfl
theorem exec_mxpoll {d a} {s : State} : exec (.mxpoll d a) s = execMxpoll d a s := rfl
theorem exec_mxepi {a} {s : State} : exec (.mxepi a) s = execMxepi a s := rfl
theorem exec_mxpert {a} {s : State} : exec (.mxpert a) s = execMxpert a s := rfl
theorem exec_mxdrain {d cancel core} {s : State} : exec (.mxdrain d cancel core) s = execMxdrain d cancel core s := rfl
theorem exec_hdset {n a} {s : State} : exec (.hdset n a) s = execHdset n a s := rfl
theorem exec_hdgo {d} {s : State} : exec (.hdgo d) s = execHdgo d s := rfl
theorem exec_hdwait {d a} {s : State} : exec (.hdwait d a) s = execHdwait d a s := rfl
theorem exec_hdpoll {d a} {s : State} : exec (.hdpoll d a) s = execHdpoll d a s := rfl
theorem exec_ringi {a b} {s : State} : exec (.ringi a b) s = execRingi a b s := rfl
theorem exec_ringaw {d a b} {s : State} : exec (.ringaw d a b) s = execRingaw d a b s := rfl
theorem exec_ringrel {a b} {s : State} : exec (.ringrel a b) s = execRingrel a b s := rfl
theorem exec_tlst {d a} {s : State} : exec (.tlst d a) s = execTlst d a s := rfl
theorem exec_tlwait {d a state} {s : State} : exec (.tlwait d a state) s = execTlwait d a state s := rfl
theorem exec_tlset {a b ready} {s : State} : exec (.tlset a b ready) s = execTlset a b ready s := rfl
theorem exec_cardq {d a} {s : State} : exec (.cardq d a) s = execCardq d a s := rfl
theorem exec_cardw {d a} {s : State} : exec (.cardw d a) s = execCardw d a s := rfl
theorem exec_cancel {d a level} {s : State} : exec (.cancel d a level) s = execCancel d a level s := rfl
theorem exec_aredc {a op} {s : State} : exec (.aredc a op) s = execAredc a op s := rfl
theorem exec_aredw {d} {s : State} : exec (.aredw d) s = execAredw d s := rfl
theorem exec_mmark {a tag} {s : State} : exec (.mmark a tag) s = execMmark a tag s := rfl
theorem exec_mlogq {d field} {s : State} : exec (.mlogq d field) s = execMlogq d field s := rfl
theorem exec_pairq {d} {s : State} : exec (.pairq d) s = execPairq d s := rfl
theorem exec_imlw {d rs1 imm} {s : State} : exec (.imlw d rs1 imm) s = execImlw d rs1 imm s := rfl
theorem exec_omsw {rs2 rs1 imm} {s : State} : exec (.omsw rs2 rs1 imm) s = execOmsw rs2 rs1 imm s := rfl
theorem exec_wscan {d} {s : State} : exec (.wscan d) s = execWscan d s := rfl
theorem exec_rtime {d} {s : State} : exec (.rtime d) s = execRtime d s := rfl
theorem exec_sage {d rs1 rs2} {s : State} : exec (.sage d rs1 rs2) s = execSage d rs1 rs2 s := rfl
theorem exec_scq {d rs1} {s : State} : exec (.scq d rs1) s = execScq d rs1 s := rfl
theorem exec_scw {d rs1} {s : State} : exec (.scw d rs1) s = execScw d rs1 s := rfl
theorem exec_replyArrive {s : State} : exec .replyArrive s = execReplyArrive s := rfl
theorem exec_memoryRequestArrive {s : State} : exec .memoryRequestArrive s = execMemoryRequestArrive s := rfl
theorem exec_feRequestArrive {s : State} : exec .feRequestArrive s = execFeRequestArrive s := rfl
theorem exec_waitfullRetry {s : State} : exec .waitfullRetry s = execWaitfullRetry s := rfl
theorem exec_barrierArrival {s : State} : exec .barrierArrival s = execBarrierArrival s := rfl
theorem exec_registerFill {s : State} : exec .registerFill s = execRegisterFill s := rfl
theorem exec_sendArrive {s : State} : exec .sendArrive s = execSendArrive s := rfl
theorem exec_urgentMessageArrive {s : State} : exec .urgentMessageArrive s = execUrgentMessageArrive s := rfl
theorem exec_urgentAccept {s : State} : exec .urgentAccept s = execUrgentAccept s := rfl
theorem exec_decrArrive {s : State} : exec .decrArrive s = execDecrArrive s := rfl
theorem exec_slotTakeWork {s : State} : exec .slotTakeWork s = execSlotTakeWork s := rfl
theorem exec_stealRequest {s : State} : exec .stealRequest s = execStealRequest s := rfl
theorem exec_slotStartDone {s : State} : exec .slotStartDone s = execSlotStartDone s := rfl
theorem exec_launchFrameDeliver {s : State} : exec .launchFrameDeliver s = execLaunchFrameDeliver s := rfl
theorem exec_reuseClockReport {s : State} : exec .reuseClockReport s = execReuseClockReport s := rfl
theorem exec_coreResetNotice {s : State} : exec .coreResetNotice s = execCoreResetNotice s := rfl
theorem exec_scanBoundary {s : State} : exec .scanBoundary s = execScanBoundary s := rfl
theorem exec_inputLatchComplete {s : State} : exec .inputLatchComplete s = execInputLatchComplete s := rfl
theorem exec_gangStop {s : State} : exec .gangStop s = execGangStop s := rfl
theorem exec_gangSaveDrained {s : State} : exec .gangSaveDrained s = execGangSaveDrained s := rfl
theorem exec_gangRestoreDone {s : State} : exec .gangRestoreDone s = execGangRestoreDone s := rfl
theorem exec_texpExpiry {s : State} : exec .texpExpiry s = execTexpExpiry s := rfl
theorem exec_scanStart {s : State} : exec .scanStart s = execScanStart s := rfl
theorem exec_scanStop {s : State} : exec .scanStop s = execScanStop s := rfl
theorem exec_scanStopTakesEffect {s : State} : exec .scanStopTakesEffect s = execScanStopTakesEffect s := rfl
theorem exec_jobRegister {s : State} : exec .jobRegister s = execJobRegister s := rfl
theorem exec_jobDelete {s : State} : exec .jobDelete s = execJobDelete s := rfl
theorem exec_cardTimePoint {s : State} : exec .cardTimePoint s = execCardTimePoint s := rfl
theorem exec_cardStart {s : State} : exec .cardStart s = execCardStart s := rfl
theorem exec_invalStart {s : State} : exec .invalStart s = execInvalStart s := rfl
theorem exec_invalComplete {s : State} : exec .invalComplete s = execInvalComplete s := rfl
theorem exec_lpctWrite {s : State} : exec .lpctWrite s = execLpctWrite s := rfl
theorem exec_lpctRemap {s : State} : exec .lpctRemap s = execLpctRemap s := rfl
theorem exec_quotaWrite {s : State} : exec .quotaWrite s = execQuotaWrite s := rfl
theorem exec_mortarDescWrite {s : State} : exec .mortarDescWrite s = execMortarDescWrite s := rfl
theorem exec_mortarRecordAppend {s : State} : exec .mortarRecordAppend s = execMortarRecordAppend s := rfl
theorem exec_mortarWriteRetry {s : State} : exec .mortarWriteRetry s = execMortarWriteRetry s := rfl
theorem exec_mortarReplayFetch {s : State} : exec .mortarReplayFetch s = execMortarReplayFetch s := rfl
theorem exec_divergenceTimeout {s : State} : exec .divergenceTimeout s = execDivergenceTimeout s := rfl
theorem exec_mxeGrant {s : State} : exec .mxeGrant s = execMxeGrant s := rfl
theorem exec_mxeJobEnd {s : State} : exec .mxeJobEnd s = execMxeJobEnd s := rfl
theorem exec_mxeChunkRetry {s : State} : exec .mxeChunkRetry s = execMxeChunkRetry s := rfl
theorem exec_ballastStep {s : State} : exec .ballastStep s = execBallastStep s := rfl
theorem exec_hodTransferStart {s : State} : exec .hodTransferStart s = execHodTransferStart s := rfl
theorem exec_hodPacketIssue {s : State} : exec .hodPacketIssue s = execHodPacketIssue s := rfl
theorem exec_hodPacketPerform {s : State} : exec .hodPacketPerform s = execHodPacketPerform s := rfl
theorem exec_hodTransferEnd {s : State} : exec .hodTransferEnd s = execHodTransferEnd s := rfl
theorem exec_reductionComplete {s : State} : exec .reductionComplete s = execReductionComplete s := rfl
theorem exec_visionJobStart {s : State} : exec .visionJobStart s = execVisionJobStart s := rfl
theorem exec_visionJobEnd {s : State} : exec .visionJobEnd s = execVisionJobEnd s := rfl
theorem exec_visionWatchdog {s : State} : exec .visionWatchdog s = execVisionWatchdog s := rfl
theorem exec_frameArrival {s : State} : exec .frameArrival s = execFrameArrival s := rfl
theorem exec_cameraBlockLand {s : State} : exec .cameraBlockLand s = execCameraBlockLand s := rfl
theorem exec_outputFreeze {s : State} : exec .outputFreeze s = execOutputFreeze s := rfl
theorem exec_outputTransmit {s : State} : exec .outputTransmit s = execOutputTransmit s := rfl
theorem exec_gateWrite {s : State} : exec .gateWrite s = execGateWrite s := rfl
theorem exec_gclWrite {s : State} : exec .gclWrite s = execGclWrite s := rfl
theorem exec_forwardedFrameArrive {s : State} : exec .forwardedFrameArrive s = execForwardedFrameArrive s := rfl
theorem exec_pairAsActive {s : State} : exec .pairAsActive s = execPairAsActive s := rfl
theorem exec_pairAsStandby {s : State} : exec .pairAsStandby s = execPairAsStandby s := rfl
theorem exec_pairSwitchOver {s : State} : exec .pairSwitchOver s = execPairSwitchOver s := rfl
theorem exec_pairUnpair {s : State} : exec .pairUnpair s = execPairUnpair s := rfl
theorem exec_pairHandshake {s : State} : exec .pairHandshake s = execPairHandshake s := rfl
theorem exec_pairSilenceTimeout {s : State} : exec .pairSilenceTimeout s = execPairSilenceTimeout s := rfl
theorem exec_partnerResetSignal {s : State} : exec .partnerResetSignal s = execPartnerResetSignal s := rfl
theorem exec_attestRequest {s : State} : exec .attestRequest s = execAttestRequest s := rfl
theorem exec_attestComplete {s : State} : exec .attestComplete s = execAttestComplete s := rfl
theorem exec_clkctlWrite {s : State} : exec .clkctlWrite s = execClkctlWrite s := rfl
theorem exec_ratioChangeStart {s : State} : exec .ratioChangeStart s = execRatioChangeStart s := rfl
theorem exec_ratioChangeDone {s : State} : exec .ratioChangeDone s = execRatioChangeDone s := rfl
theorem exec_ratioStepTimeout {s : State} : exec .ratioStepTimeout s = execRatioStepTimeout s := rfl
theorem exec_droopTrip {s : State} : exec .droopTrip s = execDroopTrip s := rfl
theorem exec_droopLimit {s : State} : exec .droopLimit s = execDroopLimit s := rfl
theorem exec_thermalSample {s : State} : exec .thermalSample s = execThermalSample s := rfl
theorem exec_thermalMigration {s : State} : exec .thermalMigration s = execThermalMigration s := rfl
theorem exec_plumbSet {s : State} : exec .plumbSet s = execPlumbSet s := rfl
theorem exec_energyUpdate {s : State} : exec .energyUpdate s = execEnergyUpdate s := rfl
theorem exec_heartbeatWrite {s : State} : exec .heartbeatWrite s = execHeartbeatWrite s := rfl
theorem exec_heartbeatPeriodEnd {s : State} : exec .heartbeatPeriodEnd s = execHeartbeatPeriodEnd s := rfl
theorem exec_captureTimeout {s : State} : exec .captureTimeout s = execCaptureTimeout s := rfl
theorem exec_errorRecord {s : State} : exec .errorRecord s = execErrorRecord s := rfl
theorem exec_eccCountReport {s : State} : exec .eccCountReport s = execEccCountReport s := rfl
theorem exec_patrolScrub {s : State} : exec .patrolScrub s = execPatrolScrub s := rfl
theorem exec_faultNotice {s : State} : exec .faultNotice s = execFaultNotice s := rfl
theorem exec_faultNoticeRetry {s : State} : exec .faultNoticeRetry s = execFaultNoticeRetry s := rfl
theorem exec_faultWake {s : State} : exec .faultWake s = execFaultWake s := rfl
theorem exec_retireBlock {s : State} : exec .retireBlock s = execRetireBlock s := rfl
theorem exec_retireRelease {s : State} : exec .retireRelease s = execRetireRelease s := rfl
theorem exec_retireCopyDone {s : State} : exec .retireCopyDone s = execRetireCopyDone s := rfl
theorem exec_pairchkCouple {s : State} : exec .pairchkCouple s = execPairchkCouple s := rfl
theorem exec_pairchkDecouple {s : State} : exec .pairchkDecouple s = execPairchkDecouple s := rfl
theorem exec_fingerprintExchange {s : State} : exec .fingerprintExchange s = execFingerprintExchange s := rfl
theorem exec_containFence {s : State} : exec .containFence s = execContainFence s := rfl
theorem exec_containReturn {s : State} : exec .containReturn s = execContainReturn s := rfl
theorem exec_watchWrite {s : State} : exec .watchWrite s = execWatchWrite s := rfl
theorem exec_watchStopArrive {s : State} : exec .watchStopArrive s = execWatchStopArrive s := rfl
theorem exec_debugStop {s : State} : exec .debugStop s = execDebugStop s := rfl
theorem exec_debugGo {s : State} : exec .debugGo s = execDebugGo s := rfl
theorem exec_debugResume {s : State} : exec .debugResume s = execDebugResume s := rfl
theorem exec_debugStep {s : State} : exec .debugStep s = execDebugStep s := rfl
theorem exec_faultResume {s : State} : exec .faultResume s = execFaultResume s := rfl
theorem exec_killTask {s : State} : exec .killTask s = execKillTask s := rfl
theorem exec_debugLockWrite {s : State} : exec .debugLockWrite s = execDebugLockWrite s := rfl
theorem exec_debugWindowWrite {s : State} : exec .debugWindowWrite s = execDebugWindowWrite s := rfl
theorem exec_moduleReset {s : State} : exec .moduleReset s = execModuleReset s := rfl
theorem exec_modulePowerLoss {s : State} : exec .modulePowerLoss s = execModulePowerLoss s := rfl
theorem exec_clusterPowerLoss {s : State} : exec .clusterPowerLoss s = execClusterPowerLoss s := rfl
theorem exec_clusterResume {s : State} : exec .clusterResume s = execClusterResume s := rfl
theorem exec_journalDrain {s : State} : exec .journalDrain s = execJournalDrain s := rfl
theorem exec_compactionStep {s : State} : exec .compactionStep s = execCompactionStep s := rfl
theorem exec_ovflRead {s : State} : exec .ovflRead s = execOvflRead s := rfl
theorem exec_ovcntRead {s : State} : exec .ovcntRead s = execOvcntRead s := rfl
theorem exec_dinjRead {s : State} : exec .dinjRead s = execDinjRead s := rfl
theorem exec_strcntRead {s : State} : exec .strcntRead s = execStrcntRead s := rfl
theorem exec_elostRead {s : State} : exec .elostRead s = execElostRead s := rfl
theorem exec_gateCounterRead {s : State} : exec .gateCounterRead s = execGateCounterRead s := rfl
theorem exec_registerWrite {s : State} : exec .registerWrite s = execRegisterWrite s := rfl
theorem exec_unassignedEncoding {s : State} : exec .unassignedEncoding s = execUnassignedEncoding s := rfl
theorem exec_waittTimeReached {s : State} : exec .waittTimeReached s = execWaittTimeReached s := rfl
theorem exec_scanCoreBaseInstruction {s : State} : exec .scanCoreBaseInstruction s = execScanCoreBaseInstruction s := rfl
theorem exec_pcieLinkTrained {s : State} : exec .pcieLinkTrained s = execPcieLinkTrained s := rfl
theorem exec_pcieLinkDown {s : State} : exec .pcieLinkDown s = execPcieLinkDown s := rfl
theorem exec_pairFlitArrive {s : State} : exec .pairFlitArrive s = execPairFlitArrive s := rfl
theorem exec_droopRestored {s : State} : exec .droopRestored s = execDroopRestored s := rfl
theorem exec_stretchWindowEnd {s : State} : exec .stretchWindowEnd s = execStretchWindowEnd s := rfl
theorem exec_gclIntervalEnd {s : State} : exec .gclIntervalEnd s = execGclIntervalEnd s := rfl
theorem exec_reuseWindowEnd {s : State} : exec .reuseWindowEnd s = execReuseWindowEnd s := rfl
theorem exec_deviceWritten {s : State} : exec .deviceWritten s = execDeviceWritten s := rfl

end Sys2Proof.Machine
end

