-- ==== Sys2Proof/Laws/Results.lean ====
section
/-! SUPPORT. The shapes of instructions: one g result, one v result, no result. Each lemma says what the shared operation of
Alu.lean, Fp.lean or Vector.lean does when the operands are ready. -/

namespace Sys2Proof.Machine

/-- Writing one g register. -/
theorem wrSlots_put (n : Nat) (sl : Slot) (d : GReg) (v : Word) (p : Bool) (ws : List Wr) :
    (wrSlots n sl (.put d v p :: ws)).1 = (wrSlots n (writeG sl d { val := v, full := true, psn := p }) ws).1 := by
  simp only [wrSlots, wrSlot, writeG]
  by_cases h : gKey sl d = 0
  · simp [h]
  · by_cases k : (boundQ sl d).isSome = true
    · simp [k]
    · simp [h, k]

theorem wrSlots_flagWr (n : Nat) (sl : Slot) (fl : Flags) :
    (wrSlots n sl (flagWr fl)).1 = { sl with fflg := sl.fflg ||| fl } := by
  simp only [flagWr]
  split
  · rename_i h; subst h; simp [wrSlots]
  · simp only [wrSlots, wrSlot]
    split
    · rename_i h; rw [h]
    · rfl

theorem writeG_fflg (sl : Slot) (d : GReg) (c : Cell 64) : (writeG sl d c).fflg = sl.fflg := by
  simp only [writeG, setGCell]; (repeat' split) <;> rfl

theorem pushesOf_put (sl : Slot) (due : Nat) (key : BitVec 12) (d : GReg) (v : Word) (p : Bool) (fl : Flags) :
    pushesOf sl due key (.put d v p :: flagWr fl) =
      (match boundQ sl d with | some q => [(due, q, { val := v, psn := p, key := key })] | none => []) := by
  have h : pushesOf sl due key (flagWr fl) = [] := by simp only [flagWr]; split <;> rfl
  simp only [pushesOf, List.filterMap_cons, wrPush] at h ⊢
  rw [h]
  cases boundQ sl d <;> rfl

theorem commonsOf_flagWr (due : Nat) (fl : Flags) : commonsOf due (flagWr fl) = [] := by simp only [flagWr]; split <;> rfl

/-- ONE G RESULT: what a retirement with one written g register and flags leaves. -/
theorem retire_put {s : State} {g : Got} (d : GReg) (v : Word) (fl : Flags) (npc : Word) (ha : (me s).st = .active) :
    CompletesG s (retire s g (.put d v g.psn :: flagWr fl) npc) g d v fl npc := by
  have c := retire_completes s g (.put d v g.psn :: flagWr fl) npc ha
  rw [wrSlots_put, wrSlots_flagWr, pushesOf_put, writeG_fflg] at c
  have h : commonsOf (issueCc s + 8) (.put d v g.psn :: flagWr fl) = [] := commonsOf_flagWr _ fl
  rw [h] at c
  exact c

theorem retire_put1 {s : State} {g : Got} (d : GReg) (v : Word) (npc : Word) (ha : (me s).st = .active) :
    CompletesG s (retire s g [.put d v g.psn] npc) g d v 0 npc := retire_put d v 0 npc ha

/-- ONE V RESULT. -/
theorem retire_putV {s : State} {g : Got} (d : VReg) (v : V512) (fl : Flags) (npc : Word) (ha : (me s).st = .active) :
    CompletesV s (retire s g (.putV d v g.psn :: flagWr fl) npc) g d v fl npc := by
  have c := retire_completes s g (.putV d v g.psn :: flagWr fl) npc ha
  have h0 : (wrSlots s.who.2 (me s) (.putV d v g.psn :: flagWr fl)).1 =
      (wrSlots s.who.2 (setVCell (me s) d.toNat { val := v, full := true, psn := g.psn }) (flagWr fl)).1 := rfl
  have h1 : pushesOf (me s) (issueCc s + 8) (senderKey s s.who.1 s.who.2) (.putV d v g.psn :: flagWr fl) = [] := by
    simp only [flagWr]; split <;> rfl
  have h2 : commonsOf (issueCc s + 8) (.putV d v g.psn :: flagWr fl) = [] := commonsOf_flagWr _ fl
  rw [h0, h1, h2, wrSlots_flagWr] at c
  exact c

/-- NO RESULT. -/
theorem retire_none {s : State} {g : Got} (npc : Word) (ha : (me s).st = .active) :
    CompletesN s (retire s g [] npc) g npc := retire_completes s g [] npc ha

/-- `compute` with ready operands. -/
theorem compute_of_ready {s : State} {srcs : List Opnd} {d : GReg} {g : Got} (f : Got → Word) (h : Ready s srcs [d] g) :
    compute s srcs d f = .ok (retire s g [.put d (f g) g.psn] (npcOf s)) := by
  simp only [compute, gather_of_ready 0 h, bind, Except.bind, pure, Except.pure]

/-- `computeF` with ready operands and its condition of stage 2. -/
theorem computeF_of_ready {s : State} {srcs : List Opnd} {d : GReg} {g : Got} (f : Got → Word × Flags) (h : Ready s srcs [d] g) :
    computeF s srcs d true f = .ok (retire s g (.put d (f g).1 g.psn :: flagWr (f g).2) (npcOf s)) := by
  simp only [computeF, gather_of_ready 0 h, bind, Except.bind, pure, Except.pure]

/-- AN INSTRUCTION OF ONE G RESULT whose operands are ready completes with that result. -/
theorem compute_completes {s : State} {srcs : List Opnd} {d : GReg} {g : Got} (f : Got → Word) (ha : (me s).st = .active)
    (h : Ready s srcs [d] g) :
    ∃ t, finish (compute s srcs d f) = .next t ∧ CompletesG s t g d (f g) 0 (npcOf s) :=
  ⟨_, by rw [compute_of_ready f h]; rfl, retire_put1 d (f g) (npcOf s) ha⟩

/-- A FLOATING-POINT INSTRUCTION whose operands are ready and whose rounding mode is not reserved completes. -/
theorem computeF_completes {s : State} {srcs : List Opnd} {d : GReg} {g : Got} {ok : Bool} (f : Got → Word × Flags)
    (ha : (me s).st = .active) (h : Ready s srcs [d] g) (hok : ok = true) :
    ∃ t, finish (computeF s srcs d ok f) = .next t ∧ CompletesG s t g d (f g).1 (f g).2 (npcOf s) := by
  subst hok
  exact ⟨_, by rw [computeF_of_ready f h]; rfl, retire_put d (f g).1 (f g).2 (npcOf s) ha⟩

end Sys2Proof.Machine
end

