-- ==== Sys2Proof/Laws/Lanes.lean ====
section
/-! SUPPORT. Lanes of a vector result: what a masked lane operation leaves in each lane, and its flags (R316, R317). -/

namespace Sys2Proof.Machine

theorem packNat_div (w : Nat) (xs : List Nat) (i : Nat) : packNat w xs / 2 ^ (w * i) % 2 ^ w = xs.getD i 0 % 2 ^ w := by
  induction xs generalizing i with
  | nil => simp [packNat, Nat.zero_div]
  | cons x r ih =>
    cases i with
    | zero => simp [packNat, Nat.add_mul_mod_self_left]
    | succ i =>
      simp only [packNat, List.getD_cons_succ]
      rw [← ih i, Nat.mul_succ, Nat.add_comm (w * i) w, Nat.pow_add, ← Nat.div_div_eq_div_mul]
      congr 2
      rw [Nat.add_mul_div_left _ _ (Nat.pos_of_ne_zero (by simp))]
      rw [Nat.div_eq_of_lt (Nat.mod_lt _ (Nat.pos_of_ne_zero (by simp)))]
      simp

theorem packNat_lt (w : Nat) (xs : List Nat) : packNat w xs < 2 ^ (w * xs.length) := by
  induction xs with
  | nil => simp [packNat]
  | cons x r ih =>
    simp only [packNat, List.length_cons, Nat.mul_succ]
    rw [Nat.add_comm (w * r.length) w, Nat.pow_add]
    have h1 : x % 2 ^ w < 2 ^ w := Nat.mod_lt _ (Nat.pos_of_ne_zero (by simp))
    have h2 : 2 ^ w * (packNat w r + 1) ≤ 2 ^ w * 2 ^ (w * r.length) := Nat.mul_le_mul_left _ ih
    rw [Nat.mul_add, Nat.mul_one] at h2
    omega

/-- Lane `i` of a register made of lanes is the element `i`. -/
theorem laneNat_vecOf {w : Nat} {xs : List Nat} (i : Nat) (h : w * xs.length ≤ 512) :
    laneNat w (vecOf w xs) i = xs.getD i 0 % 2 ^ w := by
  have hlt : packNat w xs < 2 ^ 512 := Nat.lt_of_lt_of_le (packNat_lt w xs) (Nat.pow_le_pow_right (by decide) h)
  simp only [laneNat, vecOf, BitVec.toNat_ofNat]
  rw [Nat.mod_eq_of_lt hlt, packNat_div]

theorem lanesGo_fst (w : Nat) (mk : Word) (o : V512) (f : Nat → Nat × Flags) (is : List Nat) :
    (lanesGo w mk o f is).1 = is.map fun i => if tbit mk i then (f i).1 else laneNat w o i := by
  induction is with
  | nil => rfl
  | cons i r ih => simp only [lanesGo, List.map_cons, ← ih]; split <;> rfl

theorem lanesGo_snd (w : Nat) (mk : Word) (o : V512) (f : Nat → Nat × Flags) (is : List Nat) :
    (lanesGo w mk o f is).2 = is.foldr (fun i fl => (if tbit mk i then (f i).2 else 0) ||| fl) 0 := by
  induction is with
  | nil => rfl
  | cons i r ih => simp only [lanesGo, List.foldr_cons, ← ih]; split <;> simp

/-- LANES OF A MASKED OPERATION (R317): an active lane holds the result, an inactive one the merge operand. -/
theorem laneOp_lane {w : Nat} (mk : Word) (o : V512) (f : Nat → Nat × Flags) {i : Nat} (h : i < 512 / w) :
    laneNat w (laneOp w mk o f).1 i = (if tbit mk i then (f i).1 else laneNat w o i) % 2 ^ w := by
  simp only [laneOp, lanesGo_fst]
  rw [laneNat_vecOf]
  · congr 1
    simp [upTo, List.getD_eq_getElem?_getD, h]
  · simp only [upTo, List.length_map, List.length_range]
    exact Nat.mul_div_le 512 w

/-- FLAGS OF A MASKED OPERATION (R317): the OR over the active lanes. -/
theorem laneOp_flags (w : Nat) (mk : Word) (o : V512) (f : Nat → Nat × Flags) :
    (laneOp w mk o f).2 = (upTo (512 / w)).foldr (fun i fl => (if tbit mk i then (f i).2 else 0) ||| fl) 0 :=
  lanesGo_snd w mk o f _

/-- THE GENERIC VECTOR INSTRUCTION with ready operands completes. -/
theorem vecInstr_completes {s : State} {d : VReg} {srcs : List VReg} {m : MReg} {w : Nat} {ok : Bool} {g : Got}
    (f : Nat → Got → Nat → Nat × Flags) (ha : (me s).st = .active)
    (h : Ready s (srcs.map .v ++ if m = 0 then [] else [.v d]) [] g) (hok : ok = true) :
    ∃ t, vecInstr s d srcs m w ok f = .next t ∧
      CompletesV s t g d (laneOp w (mReg (me s) m.toNat) (if m = 0 then 0 else g.v srcs.length) (f (rmOf (me s)) g)).1
        (laneOp w (mReg (me s) m.toNat) (if m = 0 then 0 else g.v srcs.length) (f (rmOf (me s)) g)).2 (npcOf s) := by
  subst hok
  refine ⟨_, ?_, retire_putV d _ _ (npcOf s) ha⟩
  simp only [vecInstr, gather_of_ready 0 h, bind, Except.bind, pure, Except.pure]
  rfl

end Sys2Proof.Machine
end

