-- ==== Sys2Proof/Laws/LocalStore.lean ====
section
/-! SUPPORT. The local store: what a store leaves in it (R57, R87, R456), and the operations around an act whose job's Mortar is
off and whose core's watchpoint is not armed (R150, R404). -/

namespace Sys2Proof.Machine

theorem mem_nadd (l : List Nat) (k j : Nat) : j ∈ nadd l k ↔ j = k ∨ j ∈ l := by
  induction l with
  | nil => simp [nadd]
  | cons a r ih =>
    simp only [nadd]
    split
    · simp
    · split
      · rename_i h; subst h; simp
      · simp only [List.mem_cons, ih]
        constructor
        · rintro (h | h | h) <;> simp [h]
        · rintro (h | h | h) <;> simp [h]

theorem mem_nflag (l : List Nat) (k j : Nat) (on : Bool) : j ∈ nflag l k on ↔ if j = k then on = true else j ∈ l := by
  simp only [nflag]
  cases on
  · simp only [Bool.false_eq_true, if_false, List.mem_filter, decide_eq_true_eq]
    split <;> simp_all
  · simp only [if_true, mem_nadd]
    split <;> simp_all

theorem mem_unitsOf (u a n k : Nat) (hu : 0 < u) (hn : 0 < n) : k ∈ unitsOf u a n ↔ a < (k + 1) * u ∧ k * u < a + n := by
  simp only [unitsOf, upTo, List.mem_map, List.mem_range]
  constructor
  · rintro ⟨i, hi, rfl⟩
    have h1 : a / u ≤ (a + n - 1) / u := Nat.div_le_div_right (by omega)
    have h2 : i + a / u ≤ (a + n - 1) / u := by omega
    have h3 := (Nat.le_div_iff_mul_le hu).mp h2
    have h4 : a / u < i + a / u + 1 := by omega
    have h5 := (Nat.div_lt_iff_lt_mul hu).mp h4
    constructor <;> omega
  · rintro ⟨h1, h2⟩
    have h3 := (Nat.div_lt_iff_lt_mul hu).mpr h1
    have h4 := (Nat.le_div_iff_mul_le hu).mpr (show k * u ≤ a + n - 1 by omega)
    exact ⟨k - a / u, by omega, by omega⟩

/-- Setting bits of words: which are full afterwards. -/
theorem wordFull_fold (ws : List Nat) (x : Ctx) (key : BitVec 12) (w : Nat) :
    wordFull (ws.foldl (fun x w => setWordFe x w true key) x) w = (decide (w ∈ ws) || wordFull x w) := by
  induction ws generalizing x with
  | nil => simp
  | cons a r ih =>
    rw [List.foldl_cons, ih]
    have h : wordFull (setWordFe x a true key) w = (decide (w = a) || wordFull x w) := by
      have := mem_nflag x.lsEmpty a w (!true)
      simp only [wordFull, setWordFe, List.contains_eq_mem]
      by_cases e : w = a <;> simp_all
    rw [h]
    simp only [List.mem_cons]
    by_cases e : w = a <;> simp [e]

theorem fold_setWordFe (ws : List Nat) (x : Ctx) (key : BitVec 12) :
    ws.foldl (fun x w => setWordFe x w true key) x = { x with
      lsEmpty := (ws.foldl (fun x w => setWordFe x w true key) x).lsEmpty
      lsSetter := (ws.foldl (fun x w => setWordFe x w true key) x).lsSetter } := by
  induction ws generalizing x with
  | nil => rfl
  | cons a r ih => rw [List.foldl_cons]; conv => lhs; rw [ih]
                   rfl

theorem mem_poisonStore (u : Nat) (l : List Nat) (a n : Nat) (psn : Bool) (k : Nat) (hu : 0 < u) (hn : 0 < n) :
    k ∈ poisonStore u l a n psn ↔
      if a < (k + 1) * u ∧ k * u < a + n then psn = true ∨ (k ∈ l ∧ ¬ (a ≤ k * u ∧ (k + 1) * u ≤ a + n)) else k ∈ l := by
  have key : ∀ (us : List Nat) (l : List Nat), k ∈ us.foldl (fun l k =>
      if psn then nadd l k
      else if a ≤ k * u && decide ((k + 1) * u ≤ a + n) then l.filter (· ≠ k) else l) l ↔
      if k ∈ us then psn = true ∨ (k ∈ l ∧ ¬ (a ≤ k * u ∧ (k + 1) * u ≤ a + n)) else k ∈ l := by
    intro us
    induction us with
    | nil => simp
    | cons b r ih =>
      intro l
      rw [List.foldl_cons, ih]
      cases psn
      · simp only [Bool.false_eq_true, if_false, false_or, List.mem_cons]
        by_cases e : k = b
        · subst e
          by_cases c : a ≤ k * u ∧ (k + 1) * u ≤ a + n <;> by_cases m : k ∈ r <;> simp [c, m]
        · have hm : (k ∈ if (decide (a ≤ b * u) && decide ((b + 1) * u ≤ a + n)) = true then l.filter (· ≠ b) else l) ↔ k ∈ l := by
            split <;> simp [e]
          simp only [hm, e, false_or]
      · simp only [if_true, mem_nadd, List.mem_cons]
        by_cases e : k = b <;> by_cases m : k ∈ r <;> simp [e, m]
  rw [poisonStore, key]
  simp only [mem_unitsOf u a n k hu hn]

/-- The pattern in the marked units of a list: which bytes then read 0; the memory keeps its form. -/
theorem memByte_pattern (u : Nat) (hu : 0 < u) (marks us : List Nat) {m : List Host.Cell} (h : Memory.wf m) (k : Nat) :
    Memory.wf (us.foldl (fun m k => if marks.contains k then memStore m (u * k) (List.replicate u 0) else m) m)
      ∧ memByte (us.foldl (fun m k => if marks.contains k then memStore m (u * k) (List.replicate u 0) else m) m) k
        = if k / u ∈ us ∧ k / u ∈ marks then 0 else memByte m k := by
  induction us generalizing m with
  | nil => exact ⟨h, by simp⟩
  | cons b r ih =>
    rw [List.foldl_cons]
    by_cases hb : marks.contains b
    · rw [if_pos hb]
      refine ⟨(ih (memStore_wf h _ _)).1, ?_⟩
      rw [(ih (memStore_wf h _ _)).2, memByte_memStore h]
      have hm : b ∈ marks := by simpa using hb
      have e : (u * b ≤ k ∧ k < u * b + (List.replicate u (0 : Byte)).length) ↔ k / u = b := by
        rw [List.length_replicate]
        constructor
        · rintro ⟨h1, h2⟩
          exact Nat.div_eq_of_lt_le (by rw [Nat.mul_comm]; exact h1) (by rw [Nat.add_mul, Nat.mul_comm b u]; omega)
        · intro h; subst h
          exact ⟨Nat.mul_div_le k u, by have := Nat.lt_mul_div_succ k hu; rw [Nat.mul_add] at this; omega⟩
      have z : (List.replicate u (0 : Byte)).getD (k - u * b) 0 = 0 := by
        simp [List.getD_eq_getElem?_getD, List.getElem?_replicate]; split <;> simp
      rw [z]
      simp only [e, List.mem_cons]
      by_cases c : k / u = b
      · simp [c, hm]
      · simp [c]
    · rw [if_neg hb]
      refine ⟨(ih h).1, ?_⟩
      rw [(ih h).2]
      have hm : b ∉ marks := by simpa using hb
      simp only [List.mem_cons]
      by_cases c : k / u = b
      · simp [c, hm]
      · simp [c]

/-- WHAT A STORE UNDER MARKS LEAVES: 0 in the marked units it touches, else its bytes; nothing else; the memory keeps its form. -/
theorem memByte_markedStore (u : Nat) (hu : 0 < u) (marks : List Nat) {m : List Host.Cell} (h : Memory.wf m) (a : Nat) (bs : List Byte)
    (hn : 0 < bs.length) (k : Nat) :
    Memory.wf (markedStore u m marks a bs) ∧ memByte (markedStore u m marks a bs) k
      = if (a < (k / u + 1) * u ∧ k / u * u < a + bs.length) ∧ k / u ∈ marks then 0
        else if a ≤ k ∧ k < a + bs.length then bs.getD (k - a) 0 else memByte m k := by
  have e := memByte_pattern u hu marks (unitsOf u a bs.length) (memStore_wf h a bs) k
  refine ⟨e.1, ?_⟩
  rw [markedStore, e.2, memByte_memStore h]
  simp only [mem_unitsOf u a bs.length _ hu hn]

/-- WHAT A STORE LEAVES IN A LOCAL STORE: its bytes, with the pattern in the touched words that are poison then; the bits of the
touched words full, its poison; nothing else. -/
theorem lsStore_spec (x : Ctx) (off : Nat) (bs : List Byte) (psn : Bool) (key : BitVec 12) (hw : Memory.wf x.ls) (hn : 0 < bs.length) :
    (∀ k, memByte (lsStore x off bs psn key).ls k
        = if (off < (k / 8 + 1) * 8 ∧ k / 8 * 8 < off + bs.length) ∧ (lsStore x off bs psn key).lsPoison.contains (k / 8) = true then 0
          else if off ≤ k ∧ k < off + bs.length then bs.getD (k - off) 0 else memByte x.ls k)
      ∧ (∀ w, wordFull (lsStore x off bs psn key) w = true ↔
          if off < 8 * (w + 1) ∧ 8 * w < off + bs.length then True else wordFull x w = true)
      ∧ (∀ w, (lsStore x off bs psn key).lsPoison.contains w = true ↔
          if off < 8 * (w + 1) ∧ 8 * w < off + bs.length then
            psn = true ∨ (x.lsPoison.contains w = true ∧ ¬ (off ≤ 8 * w ∧ 8 * (w + 1) ≤ off + bs.length))
          else x.lsPoison.contains w = true)
      ∧ { lsStore x off bs psn key with ls := [], lsEmpty := [], lsPoison := [], lsSetter := [] }
          = { x with ls := [], lsEmpty := [], lsPoison := [], lsSetter := [] } := by
  have e := fold_setWordFe (wordsOf off bs.length) { x with
    ls := markedStore 8 x.ls (poisonStore 8 x.lsPoison off bs.length psn) off bs, lsPoison := poisonStore 8 x.lsPoison off bs.length psn } key
  have f := wordFull_fold (wordsOf off bs.length) { x with
    ls := markedStore 8 x.ls (poisonStore 8 x.lsPoison off bs.length psn) off bs, lsPoison := poisonStore 8 x.lsPoison off bs.length psn } key
  simp only [lsStore]
  refine ⟨?_, ?_, ?_, ?_⟩
  · intro k
    have h1 := congrArg Ctx.ls e
    have h2 := congrArg Ctx.lsPoison e
    simp only at h1 h2
    simp only [h1, h2]
    rw [(memByte_markedStore 8 (by decide) _ hw off bs hn k).2]
    simp only [List.contains_eq_mem, decide_eq_true_eq]
  · intro w; rw [f]
    simp only [wordsOf, Bool.or_eq_true, decide_eq_true_eq, mem_unitsOf 8 off bs.length w (by decide) hn]
    have e1 : (w + 1) * 8 = 8 * (w + 1) := by omega
    have e2 : w * 8 = 8 * w := by omega
    rw [e1, e2]
    split
    · rename_i h; simp [h]
    · rename_i h; simp only [h, false_or]; rfl
  · intro w; rw [e]
    have m := mem_poisonStore 8 x.lsPoison off bs.length psn w (by decide) hn
    have e1 : (w + 1) * 8 = 8 * (w + 1) := by omega
    have e2 : w * 8 = 8 * w := by omega
    rw [e1, e2] at m
    simp only [List.contains_eq_mem, decide_eq_true_eq]
    exact m
  · rw [e]

/-! ### Around an act -/

theorem watchAccess_unarmed (s : State) (p : Nat) (a : Access) (x : Ctx) (h : tbit (getCore s p).watch 63 = false) :
    watchAccess s p a x = s := by simp [watchAccess, watchMatches, h]

theorem gateAll_off (s : State) (job point : Nat) (fresh : Bool) (xs : List Resolution) (h : mortarMode s job = 0) :
    gateAll s job point fresh xs = (.go, s) := by
  cases xs with
  | nil => rfl
  | cons x r => simp only [gateAll, h]

theorem putAll_off (s : State) (job point : Nat) (xs : List Resolution) (h : mortarMode s job = 0) : putAll s job point xs = s := by
  simp only [putAll]
  induction xs with
  | nil => rfl
  | cons x r ih => rw [List.foldl_cons]; simp only [mortarPut, h]; exact ih

/-- With the Mortar off an operation is performed at once and leaves no record. -/
theorem atPoint_off (s : State) (p : Nat) (r : Req) (xs : List Resolution) (act : State → State) (h : mortarMode s r.job = 0) :
    atPoint s p r xs act = (true, act s) := by
  simp only [atPoint, gateAll_off s _ _ _ _ h, putAll_off s _ _ _ h]

theorem serveWaits_nil (s : State) (p : Nat) (h : (getCore s p).waits = []) : serveWaits s p = s := by
  simp only [serveWaits, h]; rfl

end Sys2Proof.Machine
end

