-- ==== Sys2Proof/Tests/Slice0.lean ====
section
/-! SUPPORT. Tests: words written out from the encoding rules, the checks of WellFormed with ill-formed terms, the manual's worked
examples, and for each statement that has hypotheses a state that meets them. Expected values are the manual's. -/

set_option Elab.async false

namespace Sys2Proof.Tests
open Sys2Proof.Machine Sys2Proof.Spec

/-! ### Decoding -/

/-- Words written out from the opcode map: R263, R264, R265, R266, R267, R268, R269. -/
theorem test_decode_sys : ([
    (0b00000000000000000000000000000000#32, .nop),
    (0b00000000000000000000000001000000#32, .halt),
    (0b00000000000_00001_0000000010_000010#32, .trapi 2 1),
    (0b00000000000000000000000011_000001#32, .bkpt 1),
    (0b000000_00001_000000000000100_001001#32, .mfs 1 9),
    (0b00000000000_00001_0000000101_001001#32, .mts 9 1),
    (0b000000_00001_000000000000110_001001#32, .mfc 1 9),
    (0b00000000000_00001_0000000111_001001#32, .mtc 9 1),
    (0b00000000000000000000001000000000#32, .idle),
    (0b000000_00001_000000000001001000000#32, .slotid 1),
    (0b000000_00011_00111_000000101000000_1#32, .purge 3 7 true)] : List (BitVec 32 × Instr)).all (fun x => decide ((decode x.1).toOption = some x.2)) = true := by decide

/-- Words written out from the opcode map: R270, R271. -/
theorem test_decode_alu_1 : ([
    (0b000001_00001_00010_00011_00000000000#32, .add 1 2 3),
    (0b000001_00001_00010_00011_00000000001#32, .sub 1 2 3),
    (0b000001_00001_00010_00011_00000000010#32, .and 1 2 3),
    (0b000001_00001_00010_00011_00000000011#32, .or 1 2 3),
    (0b000001_00001_00010_00011_00000000100#32, .xor 1 2 3),
    (0b000001_00001_00010_00011_00000000101#32, .andn 1 2 3),
    (0b000001_00001_00010_00011_00000000110#32, .orn 1 2 3),
    (0b000001_00001_00010_00011_00000000111#32, .sll 1 2 3),
    (0b000001_00001_00010_00011_00000001000#32, .srl 1 2 3),
    (0b000001_00001_00010_00011_00000001001#32, .sra 1 2 3),
    (0b000001_00001_00010_00011_00000001010#32, .rotr 1 2 3),
    (0b000001_00001_00010_00011_00000001011#32, .slt 1 2 3),
    (0b000001_00001_00010_00011_00000001100#32, .sltu 1 2 3),
    (0b000001_00001_00010_00011_00000001101#32, .seq 1 2 3),
    (0b000001_00001_00010_00011_00000001110#32, .min 1 2 3),
    (0b000001_00001_00010_00011_00000001111#32, .max 1 2 3)] : List (BitVec 32 × Instr)).all (fun x => decide ((decode x.1).toOption = some x.2)) = true := by decide

/-- Words written out from the opcode map: R270, R271. -/
theorem test_decode_alu_2 : ([
    (0b000001_00001_00010_00011_00000010000#32, .minu 1 2 3),
    (0b000001_00001_00010_00011_00000010001#32, .maxu 1 2 3),
    (0b000001_00001_00010_00011_00000010010#32, .mul 1 2 3),
    (0b000001_00001_00010_00011_00000010011#32, .mulh 1 2 3),
    (0b000001_00001_00010_00011_00000010100#32, .mulhu 1 2 3),
    (0b000001_00001_00010_00011_00000010101#32, .div 1 2 3),
    (0b000001_00001_00010_00011_00000010110#32, .divu 1 2 3),
    (0b000001_00001_00010_00011_00000010111#32, .rem 1 2 3),
    (0b000001_00001_00010_00011_00000011000#32, .remu 1 2 3),
    (0b000001_00001_00010_0000000000011001#32, .clz 1 2),
    (0b000001_00001_00010_0000000000011010#32, .ctz 1 2),
    (0b000001_00001_00010_0000000000011011#32, .popc 1 2),
    (0b000001_00001_00010_0000000000011100#32, .bswap 1 2),
    (0b000001_00001_00010_00011_00100_011101#32, .sel 1 2 3 4),
    (0b000001_00001_00010_00011_00100_011110#32, .shadd 1 2 3 4)] : List (BitVec 32 × Instr)).all (fun x => decide ((decode x.1).toOption = some x.2)) = true := by decide

/-- Words written out from the opcode map: R272, R273, R274, R275. -/
theorem test_decode_imm : ([
    (0b000010_00001_00010_1111111111111100#32, .addi 1 2 65532),
    (0b000011_00001_00010_1111111111111100#32, .andi 1 2 65532),
    (0b000100_00001_00010_1111111111111100#32, .ori 1 2 65532),
    (0b000101_00001_00010_1111111111111100#32, .xori 1 2 65532),
    (0b000110_00001_00010_1111111111111100#32, .slti 1 2 65532),
    (0b000111_00001_00010_1111111111111100#32, .sltiu 1 2 65532),
    (0b001000_00001_00010_0000000000_000011#32, .slli 1 2 3),
    (0b001000_00001_00010_0000000001_000011#32, .srli 1 2 3),
    (0b001000_00001_00010_0000000010_000011#32, .srai 1 2 3),
    (0b001000_00001_00010_0000000011_000011#32, .rotri 1 2 3),
    (0b001001_00001_111111111111111111101#32, .li 1 2097149),
    (0b001010_00001_111111111111111111101#32, .lim 1 2097149),
    (0b001011_00001_111111111111111111101#32, .lih 1 2097149),
    (0b001100_00001_111111111111111111101#32, .addpc 1 2097149),
    (0b001101_00001_00010_0000_011111_100000#32, .bfx 1 2 31 32),
    (0b001110_00001_00010_0000_011111_100000#32, .bfi 1 2 31 32)] : List (BitVec 32 × Instr)).all (fun x => decide ((decode x.1).toOption = some x.2)) = true := by decide

/-- Words written out from the opcode map: R276, R277, R278, R336. -/
theorem test_decode_branch : ([
    (0b010000_00001_00010_1111111111111100#32, .beq 1 2 65532),
    (0b010001_00001_00010_1111111111111100#32, .bne 1 2 65532),
    (0b010010_00001_00010_1111111111111100#32, .blt 1 2 65532),
    (0b010011_00001_00010_1111111111111100#32, .bge 1 2 65532),
    (0b010100_00001_00010_1111111111111100#32, .bltu 1 2 65532),
    (0b010101_00001_00010_1111111111111100#32, .bgeu 1 2 65532),
    (0b010110_00001_00000_1111111111111101#32, .bful 1 65533),
    (0b010111_00001_00000_1111111111111101#32, .bemp 1 65533),
    (0b011000_11111111111111111111111110#32, .j 67108862),
    (0b011001_11111111111111111111111110#32, .jal 67108862),
    (0b011010_00001_00010_1111111111111100#32, .jalr 1 2 65532),
    (0b011011_000001_0010_0011_0100_0101_0110#32, .rep 1 2 3 4 5 6)] : List (BitVec 32 × Instr)).all (fun x => decide ((decode x.1).toOption = some x.2)) = true := by decide

/-- Words written out from the opcode map: R293, R294, R296, R297, R298, R302, R303, R304. -/
theorem test_decode_mem_1 : ([
    (0b100000_00001_00010_00011_100_00000101#32, .ld 1 2 3 .bz 5),
    (0b100001_00001_00010_00011_0_00_00000101#32, .st 1 2 3 .b 5),
    (0b1000100_0001_00010_00011_000_00000100#32, .ldv 1 2 3 4),
    (0b1000110_0001_00010_00011_000_00000100#32, .stv 1 2 3 4),
    (0b100100_00001_00010_00011_110_010_00110#32, .ldaq 1 2 3 .wz .clu 6),
    (0b100101_00001_00010_00011_0_11_100_00110#32, .strl 1 2 3 .d .pair 6),
    (0b1001100_0001_00010_0_0011_100_1_10_00111#32, .gath 1 2 3 4 true 2 7),
    (0b1001110_0001_00010_0_0011_100_1_10_00111#32, .scat 1 2 3 4 true 2 7),
    (0b101000_00001_00010_00011_000_00000100#32, .ldfe 1 2 3 4),
    (0b101000_00001_00010_00011_001_00000100#32, .ldff 1 2 3 4),
    (0b101000_00001_00010_00011_010_00000100#32, .stef 1 2 3 4),
    (0b101000_00001_00010_00011_011_00000100#32, .stff 1 2 3 4),
    (0b10100000000_00001_00010_100_00000011#32, .sete 1 2 3),
    (0b10100000000_00001_00010_101_00000011#32, .setf 1 2 3),
    (0b101001_00001_00010_00011_00_0_000_00101#32, .stsb 1 2 3 false 5),
    (0b1010110_1001_0_0110_00_011_00000000000#32, .fence 9 6 .chip)] : List (BitVec 32 × Instr)).all (fun x => decide ((decode x.1).toOption = some x.2)) = true := by decide

/-- Words written out from the opcode map: R293, R294, R296, R297, R298, R302, R303, R304. -/
theorem test_decode_mem_2 : ([
    (0b101011000000000000_010_0000100000_1#32, .pfence .clu true),
    (0b101100_00001_00010_00011_000_00000100#32, .pref 1 2 3 4)] : List (BitVec 32 × Instr)).all (fun x => decide ((decode x.1).toOption = some x.2)) = true := by decide

/-- Words written out from the opcode map: R301. -/
theorem test_decode_amo : ([
    (0b101010_00001_00010_00011_11_100_0_00000#32, .amoAdd 1 2 3 .ar .pair false),
    (0b101010_00001_00010_00011_11_100_0_00001#32, .amoAnd 1 2 3 .ar .pair false),
    (0b101010_00001_00010_00011_11_100_0_00010#32, .amoOr 1 2 3 .ar .pair false),
    (0b101010_00001_00010_00011_11_100_0_00011#32, .amoXor 1 2 3 .ar .pair false),
    (0b101010_00001_00010_00011_11_100_0_00100#32, .amoMin 1 2 3 .ar .pair false),
    (0b101010_00001_00010_00011_11_100_0_00101#32, .amoMax 1 2 3 .ar .pair false),
    (0b101010_00001_00010_00011_11_100_0_00110#32, .amoMinu 1 2 3 .ar .pair false),
    (0b101010_00001_00010_00011_11_100_0_00111#32, .amoMaxu 1 2 3 .ar .pair false),
    (0b101010_00001_00010_00011_11_100_0_01000#32, .amoSwp 1 2 3 .ar .pair false),
    (0b101010_00001_00010_00011_11_100_0_01001#32, .amoCas 1 2 3 .ar .pair false),
    (0b101010_00001_00010_00011_11_100_101010#32, .amoFaddS 1 2 3 .ar .pair),
    (0b101010_00001_00010_00011_11_100_001011#32, .amoFaddD 1 2 3 .ar .pair)] : List (BitVec 32 × Instr)).all (fun x => decide ((decode x.1).toOption = some x.2)) = true := by decide

/-- Words written out from the opcode map: R306, R307, R309, R310, R311. -/
theorem test_decode_msg : ([
    (0b101101_00001_00010_00011_00000_000100#32, .send 1 2 3 4),
    (0b101101_00001_00010_00011_00001000000#32, .sendu 1 2 3),
    (0b10110100000_00001_00010_00010000000#32, .sendg 1 2),
    (0b101101_00001_00010_00011_0001100000_0#32, .recv 1 2 3 false),
    (0b101101_00001_00010_00_011_0010000000_0#32, .waitk 1 2 3 false),
    (0b10110100000_00001_00_010_0010100000_1#32, .clrk 1 2 true),
    (0b10110100000000000000000110000000#32, .mskw),
    (0b10110100000000000000000111000000#32, .opnw),
    (0b10110100000000000000001000000000#32, .retu),
    (0b10110100000_00001_0000001001_010_101#32, .chbind 1 2 5)] : List (BitVec 32 × Instr)).all (fun x => decide ((decode x.1).toOption = some x.2)) = true := by decide

/-- Words written out from the opcode map: R313. -/
theorem test_decode_bar : ([
    (0b101110_00001_00010_0000000000000000#32, .bara 1 2),
    (0b101110_00001_00010_00011_00001000000#32, .barw 1 2 3),
    (0b101110_00001_00010_00011_00010000000#32, .baraw 1 2 3)] : List (BitVec 32 × Instr)).all (fun x => decide ((decode x.1).toOption = some x.2)) = true := by decide

/-- Words written out from the opcode map: R280, R281, R282, R283. -/
theorem test_decode_fp_1 : ([
    (0b110000_00001_00010_00011_011_00000000#32, .fadd 1 2 3 .bf16),
    (0b110000_00001_00010_00011_011_00000001#32, .fsub 1 2 3 .bf16),
    (0b110000_00001_00010_00011_011_00000010#32, .fmul 1 2 3 .bf16),
    (0b110000_00001_00010_00011_011_00000011#32, .fdiv 1 2 3 .bf16),
    (0b110000_00001_00010_00000_011_00000100#32, .fsqrt 1 2 .bf16),
    (0b110000_00001_00010_00011_011_00000101#32, .fmin 1 2 3 .bf16),
    (0b110000_00001_00010_00011_011_00000110#32, .fmax 1 2 3 .bf16),
    (0b110000_00001_00010_00011_011_00000111#32, .feq 1 2 3 .bf16),
    (0b110000_00001_00010_00011_011_00001000#32, .flt 1 2 3 .bf16),
    (0b110000_00001_00010_00011_011_00001001#32, .fle 1 2 3 .bf16),
    (0b110000_00001_00010_00000_011_00001010#32, .fclass 1 2 .bf16),
    (0b110000_00001_00010_00011_011_00001011#32, .fsgnj 1 2 3 .bf16),
    (0b110000_00001_00010_00011_011_00001100#32, .fsgnjn 1 2 3 .bf16),
    (0b110000_00001_00010_00011_011_00001101#32, .fsgnjx 1 2 3 .bf16),
    (0b110000_00001_00010_00100_011_00001110#32, .fcvtI 1 2 .n8 .bf16),
    (0b110000_00001_00010_00100_011_00001111#32, .fcvtF 1 2 .n8 .bf16)] : List (BitVec 32 × Instr)).all (fun x => decide ((decode x.1).toOption = some x.2)) = true := by decide

/-- Words written out from the opcode map: R280, R281, R282, R283. -/
theorem test_decode_fp_2 : ([
    (0b110000_00001_00010_000_11_011_00010000#32, .fcvtFf 1 2 .bf16 .bf16),
    (0b110000_00001_00010_00000_011_00010001#32, .fmv 1 2 .bf16)] : List (BitVec 32 × Instr)).all (fun x => decide ((decode x.1).toOption = some x.2)) = true := by decide

/-- Words written out from the opcode map: R284. -/
theorem test_decode_fma : ([
    (0b110001_00001_00010_00011_00100_01_0000#32, .fma 1 2 3 4 .f64),
    (0b110001_00001_00010_00011_00100_01_0001#32, .fms 1 2 3 4 .f64),
    (0b110001_00001_00010_00011_00100_01_0010#32, .fnma 1 2 3 4 .f64),
    (0b110001_00001_00010_00011_00100_01_0011#32, .fnms 1 2 3 4 .f64)] : List (BitVec 32 × Instr)).all (fun x => decide ((decode x.1).toOption = some x.2)) = true := by decide

/-- Words written out from the opcode map: R318. -/
theorem test_decode_va : ([
    (0b110100_0001_0010_0011_0000_100_101_0000#32, .vadd 1 2 3 4 .i32),
    (0b110100_0001_0010_0011_0000_100_101_0001#32, .vsub 1 2 3 4 .i32),
    (0b110100_0001_0010_0011_0000_100_101_0010#32, .vmul 1 2 3 4 .i32),
    (0b110100_0001_0010_0011_0100_101_010_0011#32, .vfma 1 2 3 4 5 .f16),
    (0b110100_0001_0010_0011_0100_101_010_0100#32, .vfms 1 2 3 4 5 .f16),
    (0b110100_0001_0010_0011_0100_101_010_0101#32, .vfnma 1 2 3 4 5 .f16),
    (0b110100_0001_0010_0011_0000_100_101_0110#32, .vmin 1 2 3 4 .i32),
    (0b110100_0001_0010_0011_0000_100_101_0111#32, .vmax 1 2 3 4 .i32),
    (0b110100_0001_0010_00000000_011_111_1000#32, .vabs 1 2 3 .i8),
    (0b110100_0001_0010_00000000_011_111_1001#32, .vneg 1 2 3 .i8),
    (0b110100_0001_0010_0011_0000_100_111_1010#32, .vand 1 2 3 4 .i8),
    (0b110100_0001_0010_0011_0000_100_111_1011#32, .vor 1 2 3 4 .i8),
    (0b110100_0001_0010_0011_0000_100_111_1100#32, .vxor 1 2 3 4 .i8),
    (0b110100_0001_0010_0011_0000_100_110_1101#32, .vsll 1 2 3 4 .i16),
    (0b110100_0001_0010_0011_0000_100_110_1110#32, .vsrl 1 2 3 4 .i16),
    (0b110100_0001_0010_0011_0000_100_110_1111#32, .vsra 1 2 3 4 .i16)] : List (BitVec 32 × Instr)).all (fun x => decide ((decode x.1).toOption = some x.2)) = true := by decide

/-- Words written out from the opcode map: R81, R319, R321, R322, R323, R324, R325, R326, R327. -/
theorem test_decode_vx : ([
    (0b110101_0001_0010_00000000_011_000_0000#32, .vexp2 1 2 3 .f32),
    (0b110101_0001_0010_00000000_011_000_0001#32, .vlog2 1 2 3 .f32),
    (0b110101_0001_0010_00000000_011_000_0010#32, .vrcp 1 2 3 .f32),
    (0b110101_0001_0010_00000000_011_000_0011#32, .vrsq 1 2 3 .f32),
    (0b110101_0001_0010_00000000_011_000_0100#32, .vsqrt 1 2 3 .f32),
    (0b110101_0001_0010_0011_0000_100_000_0101#32, .vdiv 1 2 3 4 .f32),
    (0b110101_0001_0010_1010_1010_101_000_0110#32, .vcvt 1 2 true 2 .fp4 5 .f32),
    (0b110101_0001_0010_0_010_1010_101_001_0111#32, .vcvts 1 2 2 .fp4 5 .bf16),
    (0b110101_0001_0010_0011_1010_010_000_1000#32, .vqnt 1 2 3 .fp4 2 .f32),
    (0b110101_0010_0001_0011_1000_001_000_1001#32, .vdqnt 2 1 3 .fp6a 1 .f32),
    (0b110101_0001_0010_0011_0100_101_000_1010#32, .vclmp 1 2 3 4 5 .f32),
    (0b110101_0001_0010_0011_0000_100_010_1011#32, .vscl 1 2 3 4 .f16),
    (0b1101010_001_0010_0011_0011_101_000_1100#32, .vcmp 1 2 3 .le 5 .f32),
    (0b110101_0001_0010_0011_0000_100_111_1101#32, .vsel 1 2 3 4 .i8),
    (0b110101_0001_0010_00000000_011_111_1110#32, .vmov 1 2 3 .i8),
    (0b110101_0001_0010_00000000_011_111_1111#32, .vbcst 1 2 3 .i8)] : List (BitVec 32 × Instr)).all (fun x => decide ((decode x.1).toOption = some x.2)) = true := by decide

/-- Words written out from the opcode map: R328, R329, R330, R331, R332, R333, R334, R335. -/
theorem test_decode_vp : ([
    (0b110110_0001_0010_00000000_011_101_0000#32, .vradd 1 2 3 .i32),
    (0b110110_0001_0010_00000000_011_000_0001#32, .vrmax 1 2 3 .f32),
    (0b110110_0001_0010_00000000_011_000_0010#32, .vrmin 1 2 3 .f32),
    (0b110110_0001_0010_0011_0000_100_101_0011#32, .vscana 1 2 3 4 .i32),
    (0b110110_0001_0010_0011_0000_100_111_0100#32, .vshuf 1 2 3 4 .i8),
    (0b110110_0001_0010_0011_0000_100_111_0101#32, .vrotl 1 2 3 4 .i8),
    (0b110110_0110_0010_0011_0000_100_000_0110#32, .vzip 6 2 3 4 .f32),
    (0b110110_0110_0010_0011_0000_100_000_0111#32, .vunzip 6 2 3 4 .f32),
    (0b110110_0001_0010_0011_0100_101_000_1000#32, .vext 1 2 3 4 5 .f32),
    (0b110110_0001_0010_0011_0000_100_000_1001#32, .vins 1 2 3 4 .f32),
    (0b110110_0001_000000000000_010_110_1010#32, .viota 1 2 .i16),
    (0b110110_0001_000000000000_010_110_1011#32, .vmpop 1 2 .i16),
    (0b1101100_001_0_010_0_011_00000000001100#32, .vmand 1 2 3),
    (0b1101100_001_0_010_0_011_00000000001101#32, .vmor 1 2 3),
    (0b1101100_001_0_010_000000000000001110#32, .vmnot 1 2),
    (0b110110_0001_0010_0011_0100_101_011_1111#32, .vdot 1 2 3 4 5 .fp8a)] : List (BitVec 32 × Instr)).all (fun x => decide ((decode x.1).toOption = some x.2)) = true := by decide

/-- Words written out from the opcode map: R345, R346, R347, R348, R349, R350, R351, R352. -/
theorem test_decode_task : ([
    (0b111000_00001_00010_00011_00000000000#32, .spawn 1 2 3),
    (0b11100000000_00001_0000000001000000#32, .sync 1),
    (0b11100000000000000000000010000000#32, .finish),
    (0b111000_00001_00010_00011_00011000000#32, .launch 1 2 3),
    (0b111000_00001_00010_0000000100000000#32, .decr 1 2),
    (0b11100000000000000000000101000000#32, .yield),
    (0b111000_00001_00010_0000000110000_1_11#32, .tskst 1 2 true .job),
    (0b1110000000000000000_01_00111_000010#32, .role 66)] : List (BitVec 32 × Instr)).all (fun x => decide ((decode x.1).toOption = some x.2)) = true := by decide

/-- Words written out from the opcode map: R354, R355, R356, R357, R358, R359. -/
theorem test_decode_scan : ([
    (0b111001_00001_00000000000000000000_0#32, .stamp 1 false),
    (0b111001_00001_000000000000001000000#32, .time 1),
    (0b111001_00001_00010_00011_00010000000#32, .chkage 1 2 3),
    (0b111001_00001_00000000000001100000_0#32, .budget 1 false),
    (0b111001_00001_00010_000000010000000_0#32, .waitt 1 2 false),
    (0b111001_00001_000000000000101000000#32, .phaseid 1)] : List (BitVec 32 × Instr)).all (fun x => decide ((decode x.1).toOption = some x.2)) = true := by decide

/-- Words written out from the opcode map: R361, R362, R363, R364, R365. -/
theorem test_decode_mx : ([
    (0b111010_00001_00010_00011_00000000000#32, .mxq 1 2 3),
    (0b111010_00001_00010_0000000001000000#32, .mxwait 1 2),
    (0b111010_00001_00010_0000000010000000#32, .mxpoll 1 2),
    (0b11101000000_00001_0000000011000000#32, .mxepi 1),
    (0b11101000000_00001_0000000100000000#32, .mxpert 1),
    (0b111010_00001_0000000000001010000_0_1#32, .mxdrain 1 false true)] : List (BitVec 32 × Instr)).all (fun x => decide ((decode x.1).toOption = some x.2)) = true := by decide

/-- Words written out from the opcode map: R367, R368, R369, R370. -/
theorem test_decode_hod : ([
    (0b11101100000_00001_0000000000000_010#32, .hdset 2 1),
    (0b111011_00001_000000000000001000000#32, .hdgo 1),
    (0b111011_00001_00010_0000000010000000#32, .hdwait 1 2),
    (0b111011_00001_00010_0000000011000000#32, .hdpoll 1 2),
    (0b11101100000_00001_00010_00100000000#32, .ringi 1 2),
    (0b111011_00001_00010_00011_00101000000#32, .ringaw 1 2 3),
    (0b11101100000_00001_00010_00110000000#32, .ringrel 1 2)] : List (BitVec 32 × Instr)).all (fun x => decide ((decode x.1).toOption = some x.2)) = true := by decide

/-- Words written out from the opcode map: R372, R373, R374, R375. -/
theorem test_decode_tile : ([
    (0b111100_00001_00010_0000000000000000#32, .tlst 1 2),
    (0b111100_00001_00010_00000000010000_11#32, .tlwait 1 2 3),
    (0b11110000000_00001_00010_000100000_1_0#32, .tlset 1 2 true),
    (0b111100_00001_00010_0000000011000000#32, .cardq 1 2),
    (0b111100_00001_00010_0000000100000000#32, .cardw 1 2),
    (0b111100_00001_00010_00000001010000_01#32, .cancel 1 2 .graph)] : List (BitVec 32 × Instr)).all (fun x => decide ((decode x.1).toOption = some x.2)) = true := by decide

/-- Words written out from the opcode map: R377. -/
theorem test_decode_ared : ([
    (0b111101000000_0001_00000000000000_10#32, .aredc 1 .maxF32),
    (0b1111010_0001_000000000000001000000#32, .aredw 1)] : List (BitVec 32 × Instr)).all (fun x => decide ((decode x.1).toOption = some x.2)) = true := by decide

/-- Words written out from the opcode map: R378. -/
theorem test_decode_log : ([
    (0b11111000000_00001_0000000000_000010#32, .mmark 1 2),
    (0b111110_00001_000000000000001_000101#32, .mlogq 1 5),
    (0b111110_00001_000000000000010000000#32, .pairq 1)] : List (BitVec 32 × Instr)).all (fun x => decide ((decode x.1).toOption = some x.2)) = true := by decide

/-- Words written out from the opcode map: R221. -/
theorem test_decode_scancore : ([
    (0b000000000001_00010_000_00011_0001011#32, .imlw 3 2 1),
    (0b0000001_00010_00011_001_00100_0001011#32, .omsw 2 3 36),
    (0b00000000000000000000_00001_0101011#32, .wscan 1),
    (0b00000000000000000001_00001_0101011#32, .rtime 1),
    (0b0000000_00001_00010_010_00011_0101011#32, .sage 3 2 1),
    (0b000000000000_00001_011_00010_0101011#32, .scq 2 1),
    (0b000000000000_00001_100_00010_0101011#32, .scw 2 1)] : List (BitVec 32 × Instr)).all (fun x => decide (decodeScan x.1 = some x.2)) = true := by decide

/-! ### Each check of WellFormed: the ill-formed term, then one like it that passes -/

/-- Checks of slot registers and ranges (R244, R267, R273). -/
theorem smoke_wellFormed_1 : ([
    (.mfs 1 11, .mfs 1 10),
    (.mts 11 1, .mts 10 1),
    (.mfc 1 16, .mfc 1 15),
    (.mtc 16 1, .mtc 15 1),
    (.purge 4 3 false, .purge 3 3 false),
    (.purge 0 3 false, .purge 1 31 false),
    (.purge 0 16 true, .purge 0 15 true),
    (.bfx 1 2 32 32, .bfx 1 2 31 32),
    (.bfi 1 2 1 63, .bfi 1 2 0 63)] : List (Instr × Instr)).all (fun x => !wellFormed x.1 && wellFormed x.2) = true := by decide

/-- Checks of atomics, fences, channels (R122, R250, R305). -/
theorem smoke_wellFormed_2 : ([
    (.amoAdd 1 2 3 .relaxed .core false, .amoAdd 1 2 3 .acq .core false),
    (.amoAnd 1 2 3 .relaxed .core false, .amoAnd 1 2 3 .acq .core false),
    (.amoOr 1 2 3 .relaxed .core false, .amoOr 1 2 3 .acq .core false),
    (.amoXor 1 2 3 .relaxed .core false, .amoXor 1 2 3 .acq .core false),
    (.amoMin 1 2 3 .relaxed .core false, .amoMin 1 2 3 .acq .core false),
    (.amoMax 1 2 3 .relaxed .core false, .amoMax 1 2 3 .acq .core false),
    (.amoMinu 1 2 3 .relaxed .core false, .amoMinu 1 2 3 .acq .core false),
    (.amoMaxu 1 2 3 .relaxed .core false, .amoMaxu 1 2 3 .acq .core false),
    (.amoSwp 1 2 3 .relaxed .core false, .amoSwp 1 2 3 .acq .core false),
    (.amoCas 1 2 3 .relaxed .core true, .amoCas 1 2 3 .acq .core true),
    (.amoFaddS 1 2 3 .relaxed .core, .amoFaddS 1 2 3 .acq .core),
    (.amoFaddD 1 2 3 .relaxed .core, .amoFaddD 1 2 3 .acq .core),
    (.fence 0 1 .chip, .fence 1 1 .chip),
    (.fence 1 0 .chip, .fence 15 15 .pair),
    (.pfence .chip false, .pfence .clu false),
    (.pfence .pair true, .pfence .core true),
    (.recv 1 1 2 false, .recv 0 0 0 true),
    (.recv 1 2 1 false, .recv 1 2 3 false),
    (.recv 0 2 2 false, .recv 1 2 0 false),
    (.clrk 1 0 false, .clrk 1 0 true),
    (.chbind 1 3 3, .chbind 1 3 4),
    (.waitt 1 2 true, .waitt 1 0 true),
    (.cancel 1 2 .job, .cancel 1 2 .graph),
    (.mlogq 1 6, .mlogq 1 5)] : List (Instr × Instr)).all (fun x => !wellFormed x.1 && wellFormed x.2) = true := by decide

/-- Checks of vector arithmetic (R316, R317). -/
theorem smoke_wellFormed_3 : ([
    (.vadd 1 2 3 0 .fp8a, .vadd 1 2 3 0 .i8),
    (.vsub 1 2 3 0 .fp8a, .vsub 1 2 3 0 .i8),
    (.vmul 1 2 3 0 .fp8a, .vmul 1 2 3 0 .i8),
    (.vmin 1 2 3 0 .fp8a, .vmin 1 2 3 0 .i8),
    (.vmax 1 2 3 0 .fp8a, .vmax 1 2 3 0 .i8),
    (.vscana 1 2 3 0 .fp8a, .vscana 1 2 3 0 .i8),
    (.vfma 1 2 3 4 0 .fp8b, .vfma 1 2 3 4 0 .f16),
    (.vfms 1 2 3 4 0 .fp8b, .vfms 1 2 3 4 0 .f16),
    (.vfnma 1 2 3 4 0 .fp8b, .vfnma 1 2 3 4 0 .f16),
    (.vclmp 1 2 3 4 0 .fp8b, .vclmp 1 2 3 4 0 .f16),
    (.vradd 1 2 0 .fp8a, .vradd 1 2 0 .bf16),
    (.vrmax 1 2 0 .fp8a, .vrmax 1 2 0 .bf16),
    (.vrmin 1 2 0 .fp8a, .vrmin 1 2 0 .bf16),
    (.vsll 1 2 3 0 .f32, .vsll 1 2 3 0 .i16),
    (.vsrl 1 2 3 0 .f32, .vsrl 1 2 3 0 .i16),
    (.vsra 1 2 3 0 .f32, .vsra 1 2 3 0 .i16),
    (.vexp2 1 2 0 .f16, .vexp2 1 2 0 .f32),
    (.vlog2 1 2 0 .f16, .vlog2 1 2 0 .f32),
    (.vrcp 1 2 0 .f16, .vrcp 1 2 0 .f32),
    (.vrsq 1 2 0 .f16, .vrsq 1 2 0 .f32),
    (.vsqrt 1 2 0 .f16, .vsqrt 1 2 0 .f32),
    (.vdiv 1 2 3 0 .bf16, .vdiv 1 2 3 0 .f32)] : List (Instr × Instr)).all (fun x => !wellFormed x.1 && wellFormed x.2) = true := by decide

/-- Checks of vector formats, comparisons and placement (R320 to R328). -/
theorem smoke_wellFormed_4 : ([
    (.vcvt 1 2 true 0 .f32 0 .bf16, .vcvt 1 2 true 7 .fp4 0 .f32),
    (.vcvt 1 2 true 1 .f32 0 .f32, .vcvt 1 2 true 0 .f32 0 .f32),
    (.vcvts 1 2 0 .bf16 0 .f32, .vcvts 1 2 3 .fp8a 0 .f32),
    (.vcvts 1 2 0 .fp8a 0 .i32, .vcvts 1 2 1 .fp8b 0 .f16),
    (.vqnt 1 2 3 .fp8a 2 .bf16, .vqnt 1 2 3 .fp8a 1 .bf16),
    (.vqnt 1 2 1 .fp4 0 .bf16, .vqnt 1 2 3 .fp4 3 .bf16),
    (.vqnt 1 3 4 .fp4 0 .f32, .vqnt 1 2 4 .fp4 0 .f32),
    (.vqnt 1 2 3 .bf16 0 .bf16, .vqnt 1 3 4 .fp6a 1 .f16),
    (.vdqnt 1 2 3 .fp4 0 .f32, .vdqnt 2 2 3 .fp4 0 .f32),
    (.vdqnt 2 2 3 .fp4 0 .i32, .vdqnt 1 2 3 .fp4 3 .f16),
    (.vscl 1 2 3 0 .i32, .vscl 1 2 3 0 .f32),
    (.vcmp 1 2 3 .lt 0 .fp8a, .vcmp 1 2 3 .eq 0 .fp8a),
    (.vcmp 1 2 3 .ltu 0 .f32, .vcmp 1 2 3 .leu 0 .i8),
    (.vzip 1 2 3 0 .f32, .vzip 2 2 3 0 .fp8a),
    (.vunzip 3 2 3 0 .f32, .vunzip 0 2 3 0 .i8),
    (.viota 1 0 .f32, .viota 1 0 .i32),
    (.vmpop 1 0 .bf16, .vmpop 1 0 .i8),
    (.vdot 1 2 3 0 0 .f32, .vdot 1 2 3 0 0 .bf16),
    (.vdot 1 2 3 0 0 .i32, .vdot 1 2 3 0 0 .i8)] : List (Instr × Instr)).all (fun x => !wellFormed x.1 && wellFormed x.2) = true := by decide

/-! ### States for the witnesses -/

/-- Slot 0 of core 0, Active at the start of its local store, with values in g1, g2, v1 and v2. -/
def slot0 : Slot :=
  { st := .active, pc := 0xFF00000000000000
    g := [(1, { val := 8 }), (2, { val := 3 })], v := [(1, { val := 0x3F8000003F800000 }), (2, { val := 5 })] }

/-- A state whose issuing slot is `sl`, alone. -/
def one (sl : Slot) : State := { State.reset with cores := [(0, { PCore.init 0 with res := { slots := [(0, sl)], regions := openRegions } })] }

/-- What the operands hold, as `Ready` says it. -/
def operands (s : State) (srcs : List Opnd) (dsts : List GReg) : Got :=
  { xs := (readSrcs (getCore s s.who.1).res (me s) srcs []).1, pops := (readSrcs (getCore s s.who.1).res (me s) srcs []).2
    pushes := dsts.filterMap (boundQ (me s)) }

/-- `Ready` as a check. -/
def readyB (s : State) (srcs : List Opnd) (dsts : List GReg) : Bool :=
  ((gRegs srcs ++ dsts).all (fun r => decide (boundQ (me s) r = none)) || isOwner s)
    && srcs.all (fun o => decide (opndEmpty (me s) o = none))
    && queuesOk (getCore s s.who.1).res (srcs.filterMap (opndQ (me s))) (dsts.filterMap (boundQ (me s)))
    && (operands s srcs dsts).pops.isEmpty

theorem ready_of {s : State} {srcs : List Opnd} {dsts : List GReg} (h : readyB s srcs dsts = true) :
    Ready s srcs dsts (operands s srcs dsts) := by
  simp only [readyB, Bool.and_eq_true, Bool.or_eq_true, List.all_eq_true, decide_eq_true_eq, List.isEmpty_iff] at h
  obtain ⟨⟨⟨h1, h2⟩, h3⟩, h4⟩ := h
  exact ⟨h1, h2, h3, by rw [h4]; rfl, rfl⟩

theorem witness_ready : Ready (one slot0) [.g 1, .g 2] [3] (operands (one slot0) [.g 1, .g 2] [3]) := ready_of (by decide)

theorem clean_of {g : Got} (h : g.xs.all (fun x => !x.psn) = true) : NoPoison g := by
  intro x hx
  have := List.all_eq_true.mp h x hx
  simpa using this

/-! ### The hypotheses of the statements are met: integer instructions, branches, slot state -/

theorem witness_IntegerResults : AluResult (.div 3 1 2) [.g 1, .g 2] 3 (fun g =>
      if g.w 1 = 0 then BitVec.allOnes 64 else BitVec.ofInt 64 ((g.w 0).toInt.tdiv (g.w 1).toInt))
    ∧ (me (one slot0)).st = .active ∧ Ready (one slot0) [.g 1, .g 2] [3] (operands (one slot0) [.g 1, .g 2] [3]) :=
  ⟨.div 3 1 2, rfl, witness_ready⟩

/-- A division by zero, g0 as the divisor and as the destination. -/
theorem witness_IntegerResults_zero : AluResult (.remu 0 1 0) [.g 1, .g 0] 0 (fun g =>
      if g.w 1 = 0 then g.w 0 else BitVec.ofNat 64 ((g.w 0).toNat % (g.w 1).toNat))
    ∧ (me (one slot0)).st = .active ∧ Ready (one slot0) [.g 1, .g 0] [0] (operands (one slot0) [.g 1, .g 0] [0]) :=
  ⟨.remu 0 1 0, rfl, ready_of (by decide)⟩

theorem witness_BitCounts : BitCount (.clz 3 1) 3 1
      (fun x r => r.toNat ≤ 64 ∧ x.toNat < 2 ^ (64 - r.toNat) ∧ (r.toNat < 64 → 2 ^ (63 - r.toNat) ≤ x.toNat))
    ∧ (me (one slot0)).st = .active ∧ Ready (one slot0) [.g 1] [3] (operands (one slot0) [.g 1] [3]) :=
  ⟨.clz 3 1, rfl, ready_of (by decide)⟩

/-- A field that ends at bit 63. -/
theorem witness_ImmediateResults :
    (∃ f, ImmResult (me (one slot0)).pc (.bfi 3 1 31 32) [.g 1, .g 3] 3 f) ∧ wellFormed (.bfi 3 1 31 32) = true
    ∧ (me (one slot0)).st = .active ∧ Ready (one slot0) [.g 1, .g 3] [3] (operands (one slot0) [.g 1, .g 3] [3]) :=
  ⟨⟨_, .bfi 3 1 31 32⟩, rfl, rfl, ready_of (by decide)⟩

theorem witness_Branches : BranchIf (.bge 1 2 0x8000) 1 2 0x8000 (fun x y => y.toInt ≤ x.toInt)
    ∧ (me (one slot0)).st = .active ∧ Ready (one slot0) [.g 1, .g 2] [] (operands (one slot0) [.g 1, .g 2] [])
    ∧ NoPoison (operands (one slot0) [.g 1, .g 2] []) :=
  ⟨.bge 1 2 0x8000, rfl, ready_of (by decide), clean_of (by decide)⟩

/-- An empty register, a full one, and a bound one whose queue holds an entry. -/
def halfEmpty : State := one { slot0 with g := [(1, { val := 8, full := false })] }

theorem witness_FullEmptyBranches : (me halfEmpty).st = .active ∧ MayName halfEmpty 1 ∧ ¬ FullNow halfEmpty 1 ∧ FullNow halfEmpty 2 :=
  ⟨rfl, .inl rfl, (fun h => nomatch h), rfl⟩

theorem witness_Jumps : (me (one slot0)).st = .active ∧ Ready (one slot0) [] [31] (operands (one slot0) [] [31])
    ∧ Ready (one slot0) [.g 1] [1] (operands (one slot0) [.g 1] [1]) ∧ NoPoison (operands (one slot0) [.g 1] [1])
    ∧ ((operands (one slot0) [.g 1] [1]).w 0 + (0xFFFC : BitVec 16).signExtend 64).toNat % 4 = 0 :=
  ⟨rfl, ready_of (by decide), ready_of (by decide), clean_of (by decide), by decide⟩

/-- A slot that the core owner's job runs. -/
def owned : State :=
  { one { slot0 with g := [(1, { val := 8 }), (2, { val := 3 }), (20, { val := 6 })] } with
    jobs := [{ Job.zero with record := 0xffffff000101ffff00000020000000#512 }] }

theorem witness_owner : isOwner owned = true := by decide +kernel

theorem witness_StateReads_scr : StateRead (one slot0) (.mfs 3 10) [] 3 (fun _ => True) (fun _ => scrValue (one slot0) 10)
    ∧ (me (one slot0)).st = .active ∧ Ready (one slot0) [] [3] (operands (one slot0) [] [3])
    ∧ NoPoison (operands (one slot0) [] [3]) :=
  ⟨.mfs 3 10 _ (.status _ (by decide) (by decide) (by decide) (by decide) (by decide) (by decide) (by decide)), rfl, ready_of (by decide), clean_of (by decide)⟩

/-- A row of the table of reads whose need the operands meet, with the operands ready. -/
def ReadsAt (s : State) (i : Instr) (srcs : List Opnd) : Prop :=
  ∃ pre f, StateRead s i srcs 3 pre f ∧ (me s).st = .active ∧ Ready s srcs [3] (operands s srcs [3]) ∧ NoPoison (operands s srcs [3])
    ∧ pre (operands s srcs [3])

theorem reads_at {s : State} {i : Instr} {srcs : List Opnd} {pre : Got → Prop} {f : Got → Word} (h : StateRead s i srcs 3 pre f)
    (ha : (me s).st = .active) (hr : readyB s srcs [3] = true) (hc : (operands s srcs [3]).xs.all (fun x => !x.psn) = true)
    (hp : pre (operands s srcs [3])) : ReadsAt s i srcs := ⟨pre, f, h, ha, ready_of hr, clean_of hc, hp⟩

/-- The oldest age that CHKAGE takes, tile 47, counts and levels that the part does not know. -/
def limits : State := one { slot0 with g := [(1, { val := 0x80000000 }), (2, { val := 0x80000000 }), (4, { val := 47 }), (5, { val := 7 })] }

theorem witness_StateReads_limits :
    ReadsAt limits (.chkage 3 1 2) [.g 1, .g 2] ∧ ReadsAt limits (.tlst 3 4) [.g 4] ∧ ReadsAt limits (.tlwait 3 4 0) [.g 4]
    ∧ ReadsAt limits (.hdwait 3 5) [.g 5] ∧ ReadsAt limits (.hdpoll 3 5) [.g 5] ∧ ReadsAt limits (.mxpoll 3 5) [.g 5]
    ∧ ReadsAt limits (.mxwait 3 5) [.g 5] ∧ ReadsAt limits (.cardw 3 5) [.g 5] ∧ ReadsAt limits (.stamp 3 false) []
    ∧ ReadsAt limits (.slotid 3) [] ∧ ReadsAt limits (.phaseid 3) [] ∧ ReadsAt limits (.budget 3 true) [] :=
  ⟨reads_at (.chkage 3 1 2) rfl (by decide +kernel) (by decide +kernel) (by decide +kernel),
   reads_at (.tlst 3 4) rfl (by decide +kernel) (by decide +kernel) (by decide +kernel),
   reads_at (.tlwait 3 4 0) rfl (by decide +kernel) (by decide +kernel) (by decide +kernel),
   reads_at (.hdwait 3 5) rfl (by decide +kernel) (by decide +kernel) (by decide +kernel),
   reads_at (.hdpoll 3 5) rfl (by decide +kernel) (by decide +kernel) trivial,
   reads_at (.mxpoll 3 5) rfl (by decide +kernel) (by decide +kernel) (by decide +kernel),
   reads_at (.mxwait 3 5) rfl (by decide +kernel) (by decide +kernel) (by decide +kernel),
   reads_at (.cardwUnknown 3 5) rfl (by decide +kernel) (by decide +kernel) (by decide +kernel),
   reads_at (.stamp 3) rfl (by decide +kernel) (by decide +kernel) trivial,
   reads_at (.slotid 3) rfl (by decide +kernel) (by decide +kernel) trivial,
   reads_at (.noPhase 3 (by decide +kernel)) rfl (by decide +kernel) (by decide +kernel) trivial,
   reads_at (.noBudget 3 true (by decide +kernel)) rfl (by decide +kernel) (by decide +kernel) trivial⟩

/-- The launch that g5 names is unknown, so that TSKST with wait does not stop for it; the last field of MLOGQ. -/
theorem witness_NodeAnswers : (me limits).st = .active
    ∧ NodeAnswer limits (.tskst 3 5 true .launch) [.g 5] 3 (fun g => true = true → (levelResult limits .launch (g.w 0)).1 ≠ 0)
      (fun g => BitVec.ofNat 64 ((levelResult limits .launch (g.w 0)).1 * 2 ^ 62 + (levelResult limits .launch (g.w 0)).2))
    ∧ Ready limits [.g 5] [3] (operands limits [.g 5] [3]) ∧ NoPoison (operands limits [.g 5] [3])
    ∧ (levelResult limits .launch ((operands limits [.g 5] [3]).w 0)).1 ≠ 0
    ∧ (∃ f, NodeAnswer limits (.mlogq 3 5) [] 3 (fun _ => (5 : BitVec 5).toNat ≤ 5) f) ∧ (∃ f, NodeAnswer limits (.pairq 3) [] 3 (fun _ => True) f)
    ∧ Ready limits [] [3] (operands limits [] [3]) ∧ NoPoison (operands limits [] [3]) :=
  ⟨rfl, .tskst 3 5 true .launch, ready_of (by decide +kernel), clean_of (by decide +kernel), by decide +kernel, ⟨_, .mlogq 3 5⟩, ⟨_, .pairq 3⟩,
   ready_of (by decide +kernel), clean_of (by decide +kernel)⟩

/-- An open phase of the slot's job, and a complete card instance. -/
def phaseJob : Job := { Job.zero with id := 5, phase := .opened, number := 9, texp := 1000 }
def doneGraph : Graph := { job := 5, inst := 1, gen := 7, cards := [], topen := 0, st := .complete }
def phased : State :=
  { State.reset with
    cores := [(0, { PCore.init 0 with res := { slots := [(0, { slot0 with jobId := 5, g := [(5, { val := 0x70100 })] })], rtJob := some 5 } })]
    jobs := [phaseJob], graphs := [doneGraph] }

theorem witness_StateReads_phase : ReadsAt phased (.phaseid 3) [] ∧ ReadsAt phased (.budget 3 false) []
    ∧ ReadsAt phased (.budget 3 true) [] ∧ ReadsAt phased (.stamp 3 true) [] ∧ ReadsAt phased (.cardw 3 5) [.g 5] :=
  have h : slotPhase phased = some phaseJob := by decide +kernel
  ⟨reads_at (.phaseid 3 _ h) rfl (by decide +kernel) (by decide +kernel) trivial,
    reads_at (.budget 3 _ h) rfl (by decide +kernel) (by decide +kernel) trivial,
    reads_at (.texp 3 _ h) rfl (by decide +kernel) (by decide +kernel) trivial,
    reads_at (.origin 3 _ h) rfl (by decide +kernel) (by decide +kernel) trivial,
    reads_at (.cardw 3 5 doneGraph) rfl (by decide +kernel) (by decide +kernel) (by decide +kernel)⟩

theorem witness_StateReads_owner : ReadsAt owned (.mfc 3 15) [] :=
  reads_at (.mfc 3 15) rfl (by decide +kernel) (by decide +kernel) witness_owner

/-- A row of the table of writes of the slot's own state. -/
def WritesAt (s : State) (i : Instr) (srcs : List Opnd) : Prop :=
  ∃ pre f, SlotWrite s i srcs pre f ∧ (me s).st = .active ∧ Ready s srcs [] (operands s srcs []) ∧ NoPoison (operands s srcs [])
    ∧ pre (operands s srcs [])

theorem writes_at {s : State} {i : Instr} {srcs : List Opnd} {pre : Got → Prop} {f : Got → Slot} (h : SlotWrite s i srcs pre f)
    (ha : (me s).st = .active) (hr : readyB s srcs [] = true) (hc : (operands s srcs []).xs.all (fun x => !x.psn) = true)
    (hp : pre (operands s srcs [])) : WritesAt s i srcs := ⟨pre, f, h, ha, ready_of hr, clean_of hc, hp⟩

/-- A binding of the smallest ring that ends with the slot's share, an unbinding, and a perturbation word. -/
def binding : State := one { slot0 with g := [(1, { val := 223 * 2 ^ 5 + 1 }), (2, { val := 0 }), (3, { val := 0xFFFF0000FFFFFFFF })] }

theorem witness_SlotWrites : WritesAt binding (.chbind 1 0 7) [.g 1] ∧ WritesAt binding (.chbind 2 0 7) [.g 2]
    ∧ WritesAt binding (.mxpert 3) [.g 3] ∧ WritesAt binding .nop [] ∧ WritesAt binding (.mts 7 2) [.g 2] ∧ WritesAt binding (.mts 10 2) [.g 2]
    ∧ WritesAt binding (.clrk 2 0 true) [.g 2] ∧ WritesAt binding .mskw [] :=
  ⟨writes_at (.chbind 1 0 7) rfl (by decide +kernel) (by decide +kernel) (by decide +kernel),
   writes_at (.chbind 2 0 7) rfl (by decide +kernel) (by decide +kernel) (by decide +kernel),
   writes_at (.mxpert 3) rfl (by decide +kernel) (by decide +kernel) (by decide +kernel),
   writes_at .nop rfl (by decide +kernel) (by decide +kernel) trivial,
   writes_at (.mtsLfsr 2 7 rfl) rfl (by decide +kernel) (by decide +kernel) trivial,
   writes_at (.mtsNone 2 10 (by decide)) rfl (by decide +kernel) (by decide +kernel) trivial,
   writes_at (.subk 2 0) rfl (by decide +kernel) (by decide +kernel) trivial,
   writes_at .mskw rfl (by decide +kernel) (by decide +kernel) trivial⟩

theorem witness_Purge : (me (one slot0)).st = .active ∧ wellFormed (.purge 31 31 false) = true ∧ wellFormed (.purge 15 15 true) = true :=
  ⟨rfl, rfl, rfl⟩

theorem witness_CommonRegisterWrite : (me owned).st = .active ∧ isOwner owned = true
    ∧ Ready owned [.g 1] [] (operands owned [.g 1] []) ∧ NoPoison (operands owned [.g 1] []) :=
  ⟨rfl, witness_owner, ready_of (by decide), clean_of (by decide)⟩

/-! ### Stops, faults, the rotation, receiving -/

theorem witness_StopInstructions : (me (one slot0)).st = .active ∧ (me (one slot0)).stepping = false ∧ (me (one slot0)).stopNext = 0
    ∧ (curFrame (me (one slot0))).v = false ∧ Ready (one slot0) [.g 1] [] (operands (one slot0) [.g 1] [])
    ∧ NoPoison (operands (one slot0) [.g 1] []) := ⟨rfl, rfl, rfl, rfl, ready_of (by decide), clean_of (by decide)⟩

theorem witness_TakingAFault : (me (one slot0)).pend = none := rfl

/-- An urgent handler with a bound register and rounding mode 5. -/
def handler : State := one { slot0 with urg := true, qbind := 1, frm := 5 }

theorem witness_ContextFaults : NotHere handler (.spawn 1 2 3) 0x01 ∧ NotHere (one slot0) .retu 0x01
    ∧ NotHere (one slot0) (.recv 1 2 3 true) 0x01 ∧ NotHere (one slot0) (.role 0xFF) 0x04
    ∧ NotHere (one { slot0 with frm := 5 }) (.fadd 1 2 3 .f64) 0x01 ∧ NotHere (one { slot0 with qbind := 1 }) (.add 1 20 2) 0x04 :=
  ⟨.spawn _ _ _ rfl, .retu rfl, .recv _ _ _ _ rfl ⟨.inl rfl, .inl rfl, .inl rfl⟩, .role _ (by decide +kernel),
   .fadd _ _ _ _ (by decide) ⟨.inl rfl, .inl rfl, .inl rfl⟩, .bound _ _ _ (by decide) (by decide +kernel)⟩

/-- The second source carries poison. -/
def tainted : State := one { slot0 with g := [(1, { val := 8 }), (2, { val := 3, psn := true })] }

theorem witness_PoisonFaults : PoisonChecked (.beq 1 2 0) [.g 1, .g 2] [] (fun _ => 0)
    ∧ Ready tainted [.g 1, .g 2] [] (operands tainted [.g 1, .g 2] [])
    ∧ (∀ j, j < 1 → ((operands tainted [.g 1, .g 2] []).xs.getD j {}).psn = false)
    ∧ ((operands tainted [.g 1, .g 2] []).xs.getD 1 {}).psn = true :=
  ⟨.branch _ _ _ _ _ (.beq 1 2 0), ready_of (by decide), by decide, by decide⟩

/-- g27 is bound to Q7, which holds one entry. -/
def queued : State :=
  { owned with cores := [(0, { PCore.init 0 with res := { slots := [(0, { slot0 with qbind := 0x80 })], q := [(7, [{ val := 9, psn := true }])] } })] }

theorem witness_OperandValues : (∀ r ∈ gRegs [.g 1, .v 2] ++ [3], boundQ (me (one slot0)) r = none)
    ∧ (∀ o ∈ [Opnd.g 1, .v 2], opndEmpty (me (one slot0)) o = none)
    ∧ boundQ (me queued) 27 = some 7 ∧ isOwner queued = true ∧ mortarMode queued (myJob queued) = 0
    ∧ getQ (getCore queued queued.who.1).res 7 = [{ val := 9, psn := true }] :=
  ⟨by decide, by decide, by decide, by decide +kernel, rfl, rfl⟩

theorem witness_EmptySourceParks : AluResult (.sel 3 2 1 2) [.g 2, .g 1, .g 2] 3 (fun g => if g.w 2 = 0 then g.w 1 else g.w 0)
    ∧ [Opnd.g 2, .g 1, .g 2] = [.g 2] ++ .g 1 :: [.g 2] ∧ (∀ x ∈ gRegs [.g 2, .g 1, .g 2] ++ [3], MayName halfEmpty x)
    ∧ (∀ o ∈ [Opnd.g 2], opndEmpty (me halfEmpty) o = none) ∧ boundQ (me halfEmpty) 1 = none
    ∧ (gCell (me halfEmpty) (gKey (me halfEmpty) 1)).full = false :=
  ⟨.sel 3 2 1 2, rfl, fun x hx => .inl ((by decide : ∀ x ∈ gRegs [.g 2, .g 1, .g 2] ++ [3], boundQ (me halfEmpty) x = none) x hx),
   by decide, rfl, rfl⟩

theorem witness_RotationInstructions : (me (one { slot0 with idleLatch := true })).st = .active ∧ (me (one slot0)).st = .active
    ∧ (me (one { slot0 with idleLatch := true })).idleLatch = true ∧ (me (one slot0)).idleLatch = false ∧ (me (one slot0)).stepping = false
    ∧ (me (one slot0)).stopNext = 0 ∧ (me (one slot0)).urg = false ∧ (me handler).urg = true ∧ (me handler).st = .active
    ∧ (me owned).st = .active ∧ isOwner owned = true := ⟨rfl, rfl, rfl, rfl, rfl, rfl, rfl, rfl, rfl, rfl, witness_owner⟩

/-- A channel bound with k0 and k7; its ring holds one entry, or none. -/
def channel (k : BitVec 32) : State := one { slot0 with chan := 223 * 2 ^ 5 + 1, chanKc := 0, chanKa := 7, k := [(7, k)] }

theorem witness_Receive : wellFormed (.recv 0 1 2 false) = true ∧ (me (channel 1)).st = .active ∧ tbit (me (channel 1)).chan 0 = true
    ∧ Ready (channel 1) [] [2, 1, 0] (operands (channel 1) [] [2, 1, 0]) ∧ kReg (me (channel 1)) 7 ≠ kReg (me (channel 1)) 0
    ∧ (me (channel 0)).st = .active ∧ tbit (me (channel 0)).chan 0 = true ∧ Ready (channel 0) [] [2, 1, 0] (operands (channel 0) [] [2, 1, 0])
    ∧ kReg (me (channel 0)) 7 = kReg (me (channel 0)) 0 :=
  ⟨rfl, rfl, by decide, ready_of (by decide), by decide, rfl, by decide, ready_of (by decide), by decide⟩

/-- The entry is in block 0x6F, which LOCK covers or not. -/
theorem witness_Receive_lock :
    (bits (me (channel 1)).chan 16 5 * 32 + 32 * ((kReg (me (channel 1)) 0).toNat % 2 ^ bits (me (channel 1)).chan 4 1)) / 8 = 892
    ∧ lockTouches (getCore (updCore (channel 1) 0 fun c => { c with lock := BitVec.ofNat 64 (2 ^ 63 + 0x6E * 0x10001) }) 0) (8 * 892) 32 = false
    ∧ lockTouches (getCore (updCore (channel 1) 0 fun c => { c with lock := BitVec.ofNat 64 (2 ^ 63 + 0x6F * 0x10001) }) 0) (8 * 892) 32 = true := by
  decide +kernel

/-- Time 8; g1 names it exactly and g2 one more; k0 has reached g4 and not g2. -/
def timed : State := { one { slot0 with g := [(1, { val := 8 }), (2, { val := 9 }), (4, { val := 0 })] } with plumb := 8 }

theorem witness_RecordedReads : (me timed).st = .active ∧ mortarMode timed (myJob timed) ≠ 2 ∧ (∀ a, pairNext timed (myPoint timed) a = none)
    ∧ (∀ e ∈ [operands timed [] [3], operands timed [.g 1] [3]], (ownGate timed e.pops
        { type := 8, arg := 0, agent := senderKey timed timed.who.1 timed.who.2, data := BitVec.ofNat 64 timed.plumb }).1 = .go)
    ∧ Ready timed [] [3] (operands timed [] [3]) ∧ Ready timed [.g 1] [3] (operands timed [.g 1] [3])
    ∧ NoPoison (operands timed [.g 1] [3]) ∧ ((operands timed [.g 1] [3]).w 0).toNat ≤ timed.plumb
    ∧ Ready timed [.g 2] [3] (operands timed [.g 2] [3]) ∧ timed.plumb < ((operands timed [.g 2] [3]).w 0).toNat
    ∧ (kReg (me timed) 0 - ((operands timed [.g 4] [3]).w 0).setWidth 32).toNat < 2 ^ 31
    ∧ ¬ (kReg (me timed) 0 - ((operands timed [.g 2] [3]).w 0).setWidth 32).toNat < 2 ^ 31 :=
  ⟨rfl, by decide, fun _ => rfl, by decide +kernel, ready_of (by decide), ready_of (by decide), clean_of (by decide), by decide,
   ready_of (by decide), by decide, by decide, by decide⟩

/-! ### Floating point and vectors -/

/-- Rounding mode `rm` in force, values in v1 to v5, m1 with lanes 0 and 63. -/
def lanes (rm : BitVec 6) : State :=
  one { slot0 with frm := rm, m := [(1, 0x8000000000000001)], g := [(1, { val := 0x7FF0000000000000 }), (2, { val := 0 })]
                   v := [(1, { val := 0x3F8000003F800000 }), (2, { val := 0x4000000040000000 }), (3, { val := 7 })] }

theorem witness_FloatingPointArithmetic :
    (∃ f, Rounded ((me (lanes 4)).frm.toNat % 8) (.fma 3 1 2 1 .f64) [.g 1, .g 2, .g 1] 3 f)
    ∧ Ready (lanes 4) [.g 1, .g 2, .g 1] [3] (operands (lanes 4) [.g 1, .g 2, .g 1] [3]) ∧ (me (lanes 4)).frm.toNat % 8 ≤ 4
    ∧ (me (lanes 4)).st = .active
    ∧ (∃ f, Rounded ((me (lanes 5)).frm.toNat % 8) (.fcvtI 3 1 .n8 .f64) [.g 1] 3 f)
    ∧ Ready (lanes 5) [.g 1] [3] (operands (lanes 5) [.g 1] [3]) ∧ 4 < (me (lanes 5)).frm.toNat % 8 :=
  ⟨⟨_, .fma 3 1 2 1 .f64⟩, ready_of (by decide), by decide, rfl, ⟨_, .fcvtN 3 1 .f64⟩, ready_of (by decide), by decide⟩

theorem witness_FloatingPointComparisons : (∃ f, Unrounded (.fle 3 1 2 .f64) [.g 1, .g 2] 3 f) ∧ (me (lanes 5)).st = .active
    ∧ Ready (lanes 5) [.g 1, .g 2] [3] (operands (lanes 5) [.g 1, .g 2] [3]) := ⟨⟨_, .fle 3 1 2 .f64⟩, rfl, ready_of (by decide)⟩

theorem witness_FloatingPointBits : (∃ p, OnBits (.fclass 3 1 .f64) [.g 1] 3 p) ∧ (me (lanes 5)).st = .active
    ∧ Ready (lanes 5) [.g 1] [3] (operands (lanes 5) [.g 1] [3]) := ⟨⟨_, .fclass 3 1 .f64⟩, rfl, ready_of (by decide)⟩

/-- The largest encoding of each sign and the tie rounding modes. -/
theorem witness_Rounding : (4 : Nat) ≤ 4 ∧ FFmt.fp4.maxCode ≤ FFmt.fp4.maxCode := ⟨Nat.le_refl _, Nat.le_refl _⟩

theorem witness_VectorLanes :
    (∃ f, LaneResult ((me (lanes 0)).frm.toNat % 8) ((me (lanes 0)).frm.getLsbD 5) (.vadd 3 1 2 1 .f32) 3 [1, 2] 1 32 true f)
    ∧ Ready (lanes 0) (([1, 2] : List VReg).map .v ++ [.v 3]) [] (operands (lanes 0) [.v 1, .v 2, .v 3] [])
    ∧ (me (lanes 0)).frm.toNat % 8 ≤ 4
    ∧ (∃ f, LaneResult ((me (lanes 5)).frm.toNat % 8) ((me (lanes 5)).frm.getLsbD 5) (.vdot 3 1 2 3 0 .bf16) 3 [1, 2, 3] 0 32 true f)
    ∧ Ready (lanes 5) (([1, 2, 3] : List VReg).map .v ++ []) [] (operands (lanes 5) [.v 1, .v 2, .v 3] [])
    ∧ 4 < (me (lanes 5)).frm.toNat % 8 :=
  ⟨⟨_, .vaddF 3 1 2 1 .f32 rfl⟩, ready_of (by decide), by decide, ⟨_, .vdotF 3 1 2 3 0 .bf16 rfl⟩, ready_of (by decide), by decide⟩

theorem witness_VectorCompare : wellFormed (.vcmp 0 1 2 .leu 1 .i8) = true ∧ (me (lanes 0)).st = .active
    ∧ Ready (lanes 0) [.v 1, .v 2] [] (operands (lanes 0) [.v 1, .v 2] []) ∧ NoPoison (operands (lanes 0) [.v 1, .v 2] [])
    ∧ ∀ l, l < 512 / VTy.i8.width → Compares .i8 (ln VTy.i8.width (operands (lanes 0) [.v 1, .v 2] []) 0 l)
        (ln VTy.i8.width (operands (lanes 0) [.v 1, .v 2] []) 1 l) .leu
        (decide ((ln VTy.i8.width (operands (lanes 0) [.v 1, .v 2] []) 0 l).toNat
          ≤ (ln VTy.i8.width (operands (lanes 0) [.v 1, .v 2] []) 1 l).toNat)) 0 :=
  ⟨rfl, rfl, ready_of (by decide), clean_of (by decide), fun _ _ => .leu rfl⟩

theorem witness_VectorPlacement : Ready (lanes 0) [.v 1, .v 2] [] (operands (lanes 0) [.v 1, .v 2] [])
    ∧ Ready (lanes 0) [.v 1, .v 2, .v 14] [] (operands (lanes 0) [.v 1, .v 2, .v 14] [])
    ∧ Ready (lanes 0) ([.v 1, .v 2] ++ [.v 14, .v (14 + 1)]) [] (operands (lanes 0) [.v 1, .v 2, .v 14, .v (14 + 1)] []) :=
  ⟨ready_of (by decide), ready_of (by decide), ready_of (by decide)⟩

theorem witness_VectorReductions :
    (∃ op none, Reduces ((me (lanes 4)).frm.toNat % 8) (vFmt .f32) (.vradd 3 1 1 .f32) 3 1 1 .f32 true op none)
    ∧ Ready (lanes 4) [.v 1] [] (operands (lanes 4) [.v 1] []) ∧ (me (lanes 4)).frm.toNat % 8 ≤ 4
    ∧ Ready (lanes 5) [.v 1] [] (operands (lanes 5) [.v 1] []) ∧ 4 < (me (lanes 5)).frm.toNat % 8
    ∧ (∃ f, ReducesInt (.vrmin 3 1 1 .i8) 3 1 1 .i8 f VTy.i8.width) :=
  ⟨⟨_, _, .vradd 3 1 1 .f32⟩, ready_of (by decide), by decide, ready_of (by decide), by decide, ⟨_, .vrmin 3 1 1 .i8⟩⟩

theorem witness_RunningSums : wellFormed (.vscana 3 1 2 1 .f32) = true
    ∧ Ready (lanes 4) ([.v 1, .v 2] ++ [.v 3]) [] (operands (lanes 4) [.v 1, .v 2, .v 3] []) ∧ (me (lanes 4)).st = .active
    ∧ Ready (lanes 5) ([.v 1, .v 2] ++ [.v 3]) [] (operands (lanes 5) [.v 1, .v 2, .v 3] []) ∧ VTy.f32.isF = true :=
  ⟨rfl, ready_of (by decide), rfl, ready_of (by decide), rfl⟩

theorem witness_Packing : (me (lanes 4)).st = .active ∧ Ready (lanes 4) [.v 1, .v 2] [] (operands (lanes 4) [.v 1, .v 2] [])
    ∧ wellFormed (.vcvt 2 1 false 7 .fp4 1 .f32) = true ∧ (me (lanes 4)).frm.toNat % 8 ≤ 4
    ∧ wellFormed (.vcvts 2 1 4 .fp6a 1 .f32) = true := ⟨rfl, ready_of (by decide), rfl, by decide, rfl⟩

theorem witness_BlockFormats : (me (lanes 4)).frm.toNat % 8 ≤ 4 ∧ wellFormed (.vqnt 5 2 4 .fp4 3 .f32) = true
    ∧ Ready (lanes 4) [.v 2, .v (2 + 1), .v 4, .v 5] [] (operands (lanes 4) [.v 2, .v (2 + 1), .v 4, .v 5] [])
    ∧ wellFormed (.vdqnt 2 1 4 .fp6b 1 .f32) = true ∧ Ready (lanes 4) [.v 1, .v 4] [] (operands (lanes 4) [.v 1, .v 4] []) :=
  ⟨by decide, rfl, ready_of (by decide), rfl, ready_of (by decide)⟩

/-! ### Memory instructions -/

/-- g1: the last doubleword of the slot's share by local address; g2: main memory; g4: a misaligned address; g5: poisoned. -/
def reach : State :=
  one { slot0 with g := [(1, { val := 0xFF00000000001BF8 }), (2, { val := 0x1000 }), (3, { val := 5 }), (4, { val := 0x1001 }),
                         (5, { val := 0x1000, psn := true }), (6, { val := 0x0100000000001000 }), (7, { val := 0xFF00000000000000 })]
                   v := [(1, { val := 0 }), (2, { val := 1 })], m := [(1, 1)] }

/-- Nothing is locked where LOCK has no valid bit. -/
theorem unlocked_of {s : State} (h : tbit (getCore s s.who.1).lock 63 = false) (a : Word) (n : Nat) : Unlocked s a n :=
  fun _ _ _ => by simp [lockTouches, h]

theorem unlocked_reach (a : Word) (n : Nat) : Unlocked reach a n := fun _ _ _ => rfl

theorem clean1 {g : Got} (h : (g.xs.getD 0 {}).psn = false) : Clean g 1 := fun j hj => by
  have : j = 0 := by omega
  subst this; exact h

/-- A release store to main memory, a full/empty store by local address, a load from another core. -/
theorem witness_MemoryRequests :
    (∃ act part, Asks (.strl 3 2 0 .d .chip 15) [.g 2, .g 3] [] .store 8 (fun g => atOffset g (15 : BitVec 5) 8) 1 (some .chip) 0 act part)
    ∧ Ready reach [.g 2, .g 3] [] (operands reach [.g 2, .g 3] []) ∧ Clean (operands reach [.g 2, .g 3] []) 1
    ∧ Unlocked reach (atOffset (operands reach [.g 2, .g 3] []) (15 : BitVec 5) 8) 8
    ∧ addrCode reach .store (atOffset (operands reach [.g 2, .g 3] []) (15 : BitVec 5) 8) 8 = none ∧ Released reach (some .chip)
    ∧ (∃ act part, Asks (.stef 3 1 0 0) [.g 1, .g 3] [] .word 8 (fun g => atOffset g (0 : BitVec 8) 8) 2 none 0 act part)
    ∧ Ready reach [.g 1, .g 3] [] (operands reach [.g 1, .g 3] [])
    ∧ addrCode reach .word (atOffset (operands reach [.g 1, .g 3] []) (0 : BitVec 8) 8) 8 = none ∧ Released reach none
    ∧ (∃ act part, Asks (.ld 3 6 31 .d 0) [.g 6] [3] .load 8 (fun g => atOffset g (0 : BitVec 8) 8) 1 none 31 act part)
    ∧ Ready reach [.g 6] [3] (operands reach [.g 6] [3]) ∧ Clean (operands reach [.g 6] [3]) 1
    ∧ addrCode reach .load (atOffset (operands reach [.g 6] [3]) (0 : BitVec 8) 8) 8 = none
    ∧ isOwnLs (atOffset (operands reach [.g 6] [3]) (0 : BitVec 8) 8) = false :=
  ⟨⟨_, _, .strl 3 2 0 .d .chip 15⟩, ready_of (by decide), clean1 rfl, unlocked_reach _ _, by decide +kernel,
   fun sc h => by cases h; decide +kernel, ⟨_, _, .stef 3 1 0 0⟩, ready_of (by decide), by decide +kernel, (fun _ h => nomatch h),
   ⟨_, _, .ld 3 6 31 .d 0⟩, ready_of (by decide), clean1 rfl, by decide +kernel, by decide +kernel⟩

theorem witness_AccessFaults : Ready reach [.g 5] [3] (operands reach [.g 5] [3]) ∧ ((operands reach [.g 5] [3]).xs.getD 0 {}).psn = true
    ∧ Ready reach [.g 4] [3] (operands reach [.g 4] [3]) ∧ Clean (operands reach [.g 4] [3]) 1
    ∧ addrCode reach .load (atOffset (operands reach [.g 4] [3]) (0 : BitVec 8) 8) 8 = some 0x03
    ∧ bits (0x0080000000000000 : Word) 55 48 ≠ 0
    ∧ (bits (0xC000000000000001 : Word) 55 48 = 0 ∧ nodeField 0xC000000000000001 ≤ 0xC0 ∧ formCode .load 0xC000000000000001 2 = none
      ∧ (0xC000000000000001 : Word).toNat % 2 ≠ 0) ∧ addrCode reach .load 0xC000000000000000 8 = none :=
  ⟨ready_of (by decide), rfl, ready_of (by decide), clean1 rfl, by decide +kernel, by decide, by decide +kernel, by decide +kernel⟩

theorem witness_LocalLoads : (me reach).st = .active ∧ Unwatched reach ∧ Ready reach [.g 1] [3] (operands reach [.g 1] [3])
    ∧ NoPoison (operands reach [.g 1] [3]) ∧ Unlocked reach (atOffset (operands reach [.g 1] [3]) (0 : BitVec 8) 8) 8
    ∧ addrCode reach .load (atOffset (operands reach [.g 1] [3]) (0 : BitVec 8) 8) 8 = none
    ∧ isOwnLs (atOffset (operands reach [.g 1] [3]) (0 : BitVec 8) 8) = true
    ∧ Ready reach [.g 7] [] (operands reach [.g 7] []) ∧ NoPoison (operands reach [.g 7] [])
    ∧ addrCode reach .loadV (atOffset (operands reach [.g 7] []) (111 : BitVec 8) 64) 64 = none
    ∧ isOwnLs (atOffset (operands reach [.g 7] []) (111 : BitVec 8) 64) = true
    ∧ Ready reach [.g 1, .v 1] [] (operands reach [.g 1, .v 1] []) ∧ NoPoison (operands reach [.g 1, .v 1] [])
    ∧ (∀ e ∈ lanesOf reach (operands reach [.g 1, .v 1] []) 1 8 3,
        Unlocked reach e.2 8 ∧ addrCode reach .loadV e.2 8 = none ∧ isOwnLs e.2 = true) :=
  ⟨rfl, rfl, ready_of (by decide), clean_of (by decide), unlocked_reach _ _, by decide +kernel, by decide +kernel, ready_of (by decide),
   clean_of (by decide), by decide +kernel, by decide +kernel, ready_of (by decide), clean_of (by decide),
   fun e he => ⟨unlocked_reach _ _,
     (by decide +kernel : ∀ e ∈ lanesOf reach (operands reach [.g 1, .v 1] []) 1 8 3, addrCode reach .loadV e.2 8 = none ∧ isOwnLs e.2 = true) e he⟩⟩

theorem witness_SeveralPartAccesses : Ready reach [.g 2, .v 1] [] (operands reach [.g 2, .v 1] [])
    ∧ (∀ e ∈ lanesOf reach (operands reach [.g 2, .v 1] []) 1 4 0, addrCode reach .loadV e.2 4 = none)
    ∧ (∃ e ∈ lanesOf reach (operands reach [.g 2, .v 1] []) 1 4 0, isOwnLs e.2 = false)
    ∧ Ready reach [.g 2, .v 1, .v 2] [] (operands reach [.g 2, .v 1, .v 2] []) ∧ lanesOf reach (operands reach [.g 2, .v 1, .v 2] []) 2 4 0 = []
    ∧ lanesOf reach (operands reach [.g 2, .v 1, .v 2] []) 1 4 0 ≠ []
    ∧ (∀ e ∈ lanesOf reach (operands reach [.g 2, .v 1, .v 2] []) 1 4 0, addrCode reach .storeV e.2 4 = none)
    ∧ Ready reach [.g 2, .g 3, .g 3] [] (operands reach [.g 2, .g 3, .g 3] []) ∧ Clean (operands reach [.g 2, .g 3, .g 3] []) 2
    ∧ (∀ j, j < 2 → addrCode reach .stsb ((0x1003 : Word) + BitVec.ofNat 64 j) 1 = none) :=
  ⟨ready_of (by decide), by decide +kernel, ⟨(0, 0x1000), by decide +kernel, by decide +kernel⟩, ready_of (by decide), by decide +kernel,
   by decide +kernel, by decide +kernel, ready_of (by decide), by unfold Clean; decide, by decide +kernel⟩

/-- A store of the slot that has not been acknowledged: a FENCE for stores waits for it. -/
def pendingStore : State :=
  { one slot0 with net := [.req (destOf 0 0x1000) { src := .slot 0 0, tag := 0, key := 0, job := 0, rsn := 0, act := .store
                                                    parts := [{ addr := 0x1000, size := 8 }] }] }

theorem witness_FencesAndPrefetch : (me (one slot0)).st = .active ∧ storesDone (one slot0) (Machine.scopeOf (one slot0) 0 .chip) 0 0 = true
    ∧ messagesDone (one slot0) (Machine.scopeOf (one slot0) 0 .chip) 0 0 = true ∧ jobsPending (one slot0) (Machine.scopeOf (one slot0) 0 .chip) 0 0 = false
    ∧ performedAll (one slot0) 4 0 0 = true ∧ durableAll (one slot0) (Machine.scopeOf (one slot0) 0 .clu) 0 0 = true
    ∧ anyDirty (one slot0) (Machine.scopeOf (one slot0) 0 .clu) 0 0 = false
    ∧ storesDone pendingStore (Machine.scopeOf pendingStore 0 .chip) 0 0 = false ∧ performedAll pendingStore 4 0 0 = false
    ∧ Ready reach [.g 5] [] (operands reach [.g 5] []) :=
  ⟨rfl, by decide +kernel, by decide +kernel, by decide +kernel, by decide +kernel, by decide +kernel, by decide +kernel, by decide +kernel, by decide +kernel, ready_of (by decide)⟩

/-! ### Acts at the owner of a local store, main memory -/

/-- A request of one part from slot 0 of core 1. -/
def request (act : Act) (q : Part) : Req := { src := .slot 1 0, tag := 7, key := 0x10, job := 0, rsn := 1, act := act, parts := [q] }

/-- The request is the one message, and core 0's local store is that of `x`. -/
def arriving (act : Act) (q : Part) (x : Ctx) : State :=
  { State.reset with cores := [(0, { PCore.init 0 with res := x })], net := [.req 0x1000 (request act q)] }

theorem arrives (act : Act) (q : Part) (x : Ctx) : Arrives (arriving act q x) 0x1000 (request act q) q :=
  ⟨rfl, rfl, rfl, ⟨1, 0, rfl⟩, rfl, rfl⟩

/-- The bytes of a word at offset 8. -/
def wordAt8 (w : Nat) : Ctx := { ls := (List.range 8).filterMap fun k => if w / 256 ^ k % 256 = 0 then none else some ⟨8 + k, BitVec.ofNat 8 (w / 256 ^ k)⟩ }

/-- The premises of `LocalStoreActs` on the state. -/
def ActMeets (act : Act) (q : Part) (x : Ctx) : Bool :=
  let s := arriving act q x
  !coreRepeat s 0 (request act q) && !(request act q).oneOf && (getCore s 0).waits.isEmpty && !tbit (getCore s 0).watch 63 && decide (Memory.wf (getCore s 0).res.ls)
    && decide (offset48 q.addr < 0x20000 ∧ 0 < q.size ∧ offset48 q.addr % q.size = 0)

theorem witness_amo : ActAt (wordAt8 0x80000000) { addr := 0xFF00000000000008, size := 4, data := [1, 0, 0, 0] } 8 (.amo 4 0) .memoryRequestArrive
    (.value [0, 0, 0, 0x80] false) (some (8, [0, 0, 0, 0x80], false)) (some true) := by
  have h : AmoResult (leWord 32 (memBytes (wordAt8 0x80000000).ls 8 4)) 1#32 0#32 4 0x80000000#32 := by
    have e : (if (1#32).toInt < (leWord 32 (memBytes (wordAt8 0x80000000).ls 8 4)).toInt then 1#32
        else leWord 32 (memBytes (wordAt8 0x80000000).ls 8 4)) = 0x80000000#32 := by decide +kernel
    exact e ▸ .min
  exact ActAt.amo (q := { addr := 0xFF00000000000008, size := 4, data := [1, 0, 0, 0] }) 4 0 1#32 0#32 0x80000000#32 (.inl rfl)
    (by decide +kernel) (by decide +kernel) h (by decide +kernel)

/-- The last byte of the local store, an AMO on a negative word and on a poisoned one, full/empty forms, the last arrival at a
barrier of 65,535, an arrival too many, join words, a ring's initialization. -/
theorem witness_LocalStoreActs :
    (ActAt {} { addr := 0xFF0000000001FFFF, size := 1 } 0x1FFFF .load .memoryRequestArrive (.value [0] false) none none
      ∧ ActMeets .load { addr := 0xFF0000000001FFFF, size := 1 } {} = true)
    ∧ (ActAt (wordAt8 0x80000000) { addr := 0xFF00000000000008, size := 4, data := [1, 0, 0, 0] } 8 (.amo 4 0) .memoryRequestArrive
        (.value [0, 0, 0, 0x80] false) (some (8, [0, 0, 0, 0x80], false)) (some true)
      ∧ ActMeets (.amo 4 0) { addr := 0xFF00000000000008, size := 4, data := [1, 0, 0, 0] } (wordAt8 0x80000000) = true)
    ∧ ActAt { lsPoison := [1] } { addr := 0xFF00000000000008, size := 8, data := List.replicate 8 0 } 8 (.amo 8 0) .memoryRequestArrive
        (.value (List.replicate 8 0) true) none none
    ∧ ActAt {} { addr := 0xFF00000000000008, size := 8 } 8 (.fe 0) .feRequestArrive (.value (List.replicate 8 0) false) none (some false)
    ∧ ActAt { lsEmpty := [1] } { addr := 0xFF00000000000008, size := 8, data := List.replicate 8 1 } 8 (.fe 2) .feRequestArrive
        (.value (List.replicate 8 0) false) (some (8, List.replicate 8 1, false)) (some true)
    ∧ (ActAt (wordAt8 0xFFFFFFFEFFFFFFFF) { addr := 0xFF00000000000008, size := 8 } 8 .barrierArrive .barrierArrival
        (.value [0xFF, 0xFF, 0xFF, 0xFF] false) (some (8, [0, 0, 0, 0, 0, 0, 0xFF, 0xFF], false)) (some true)
      ∧ ActMeets .barrierArrive { addr := 0xFF00000000000008, size := 8 } (wordAt8 0xFFFFFFFEFFFFFFFF) = true)
    ∧ ActAt {} { addr := 0xFF00000000000008, size := 8 } 8 .barrierArrive .barrierArrival (.raise 0x08 0xFF00000000000008) none none
    ∧ ActAt (wordAt8 1) { addr := 0xFF00000000000008, size := 8 } 8 .joinSub .memoryRequestArrive .tack (some (8, List.replicate 8 0, false)) (some true)
    ∧ ActAt {} { addr := 0xFF00000000000008, size := 8 } 8 .joinWatch .memoryRequestArrive (.value [] false) none none
    ∧ ActAt {} { addr := 0xFF00000000000020, size := 32, data := List.replicate 32 3 } 32 .ringInit .memoryRequestArrive .tack
        (some (32, List.replicate 16 3 ++ List.replicate 8 0 ++ List.replicate 8 3, false)) (some true) :=
  ⟨⟨.load, by decide +kernel⟩,
   ⟨witness_amo, by decide +kernel⟩,
   .amoPoisoned 8 0 rfl, .ldfe rfl rfl rfl, .stef rfl rfl rfl rfl,
   ⟨.baraLast rfl 0xFFFF 0xFFFFFFFF (by decide +kernel) rfl (by decide) (by decide) (by decide), by decide +kernel⟩,
   .baraFault rfl _ (.inl rfl) 0 0 0 (by decide +kernel) rfl (by decide) (by decide) (by decide),
   .joinSub rfl rfl (by decide +kernel), .joinWatch rfl (by decide +kernel), .ringInit rfl rfl rfl⟩

/-- LDFE of an empty word, STEF of a full one: the condition does not hold. -/
theorem witness_LocalStoreActs_held :
    wordFull { lsEmpty := [1] } 1 = false ∧ wordFull {} 1 = true
    ∧ ActMeets (.fe 0) { addr := 0xFF00000000000008, size := 8 } { lsEmpty := [1] } = true
    ∧ mayNotHold (arriving (.fe 0) { addr := 0xFF00000000000008, size := 8 } { lsEmpty := [1] })
        (request (.fe 0) { addr := 0xFF00000000000008, size := 8 }) = false := ⟨rfl, rfl, by decide +kernel, by decide +kernel⟩

/-- A request at memory node 31, which holds the translation of its page, and may hold the line. -/
def atNode (act : Act) (q : Part) (l : List Line) : State :=
  { State.reset with
    nodes := [(31, { tlb := [{ job := 0, va := 5, bits := 12, leaf := 0x300000000000003E }], sets := [(setOf 0x1FFC0, l)] })]
    net := [.req 0x11F (request act q)] }

/-- The premises of `MainMemoryAccesses` but for the message. -/
def NodeMeets (s : State) (m : Nat) (r : Req) (q : Part) (leaf : Word) : Bool :=
  let va := offset48 q.addr
  let pa := leafBase leaf + va % 2 ^ (12 + leafT leaf)
  decide (m < 32) && !s.input.flag && !nodeFenced s m && (findJob s r.job).isSome && decide (tlbHit (getNode s m).tlb r.job va = some leaf)
    && tbit leaf 61 && tbit leaf 60 && !tbit leaf 59 && decide (homeNode pa = m) && !nodeRepeat s m r
    && decide (0 < q.size ∧ q.size ≤ 64 ∧ pa % q.size = 0 ∧ q.data.length = q.size) && decide (Memory.wf s.mem)
    && (getNode s m).retired.isEmpty

/-- The last 64 bytes of a page, with no line and with one. -/
theorem witness_MainMemoryAccesses :
    let q : Part := { addr := 0x5FC0, size := 64, data := List.replicate 64 9 }
    let l : Line := { line := 0x1FFC0 / 128, way := 0, data := List.replicate 128 0 }
    Arrives (atNode .store q []) 0x11F (request .store q) q
    ∧ NodeMeets (atNode .store q []) 31 (request .store q) q 0x300000000000003E = true ∧ lineAt (atNode .store q []) 0x1FFC0 = none
    ∧ Arrives (atNode .load q [l]) 0x11F (request .load q) q
    ∧ NodeMeets (atNode .load q [l]) 31 (request .load q) q 0x300000000000003E = true ∧ lineAt (atNode .load q [l]) 0x1FFC0 = some l :=
  ⟨⟨rfl, rfl, rfl, ⟨1, 0, rfl⟩, rfl, rfl⟩, by decide +kernel, by decide +kernel, ⟨rfl, rfl, rfl, ⟨1, 0, rfl⟩, rfl, rfl⟩,
   by decide +kernel, by decide +kernel⟩

/-! ### Replies, messages, tasks -/

/-- Slot 0 of core 0 waits with `i` for its one answer. -/
def waiting (i : Instr) (a : Answer) : State :=
  { one { slot0 with st := .waiting, pend := some { instr := i, word := 0, tag := 4, left := 1, npc := 0xFF00000000000004 } } with
    net := [.reply (.slot 0 0) 4 0 a] }

theorem last_reply (i : Instr) (a : Answer) :
    LastReply (waiting i a) { waiting i a with net := [], who := (0, 0), word := 0 } 0 0
      { instr := i, word := 0, tag := 4, left := 1, npc := 0xFF00000000000004 } 0 a :=
  ⟨rfl, ⟨rfl, rfl, rfl⟩, ⟨rfl, rfl⟩, rfl, (by
    have hb : (getCluster (waiting i a) (clusterOf 0)).busy = false := (by decide +kernel : (getCluster State.reset (clusterOf 0)).busy = false)
    simp [clockStands, hb]), rfl⟩

/-- A value for a load, an acknowledgement for a store, a refusal, a translation fault. -/
theorem witness_Replies : Returns (.ld 3 1 0 .b 0) 3 (fun bs => loaded .b (leNat bs)) ∧ Acknowledged (.stv 1 2 0 0)
    ∧ (me { waiting (.ld 3 1 0 .b 0) (.value [0xFF] true) with net := [] }).stepping = false
    ∧ (me { waiting (.ld 3 1 0 .b 0) (.value [0xFF] true) with net := [] }).stopNext = 0
    ∧ (∀ i a, ∃ u, LastReply (waiting i a) u 0 0 { instr := i, word := 0, tag := 4, left := 1, npc := 0xFF00000000000004 } 0 a) :=
  ⟨.ld _ _ _ _ _, .stv _ _ _ _, rfl, rfl, fun i a => ⟨_, last_reply i a⟩⟩

/-- The answer of a node, and the two failures of HDGO's read of its ring object. -/
theorem witness_Replies_answered : Answered (.cardq 3 1) 3 ∧ Answered (.launch 3 1 2) 3
    ∧ boundQ (me { waiting (.cardq 3 1) (.value [2, 0, 0, 0, 0, 0, 0, 0] false) with net := [] }) 3 = none
    ∧ (∃ u d, LastReply (waiting (.cardq 3 1) (.value [2, 0, 0, 0, 0, 0, 0, 0] false)) u 0 0 d 0 (.value [2, 0, 0, 0, 0, 0, 0, 0] false))
    ∧ (∃ u d, LastReply (waiting (.hdgo 3) (.tfault 2 0x1000)) u 0 0 d 0 (.tfault 2 0x1000))
    ∧ (∃ u d, LastReply (waiting (.hdgo 3) (.raise 0x02 0x1000)) u 0 0 d 0 (.raise 0x02 0x1000)) ∧ (0x02 : Nat) ≠ 0x0B :=
  ⟨.cardq 3 1, .launch 3 1 2, by decide +kernel, ⟨_, _, last_reply _ _⟩, ⟨_, _, last_reply _ _⟩, ⟨_, _, last_reply _ _⟩, by decide⟩

/-- g1 names slot 15 of core 191, g2 a core that does not exist. -/
def sender : State := one { slot0 with g := [(1, { val := 0xBFF }), (2, { val := 0xC00 }), (3, { val := 7, psn := true }), (4, { val := 0xBF7F })] }

theorem witness_Messages : (me sender).st = .active ∧ Released sender (some .chip)
    ∧ (Ready sender [.g 1, .g 3, .g 4] [] (operands sender [.g 1, .g 3, .g 4] []) ∧ Clean (operands sender [.g 1, .g 3, .g 4] []) 1
      ∧ bits ((operands sender [.g 1, .g 3, .g 4] []).w 0) 11 4 = 191 ∧ bits ((operands sender [.g 1, .g 3, .g 4] []).w 0) 63 12 = 0)
    ∧ (Ready sender [.g 2, .g 3, .g 4] [] (operands sender [.g 2, .g 3, .g 4] []) ∧ Clean (operands sender [.g 2, .g 3, .g 4] []) 1
      ∧ bits ((operands sender [.g 2, .g 3, .g 4] []).w 0) 11 4 = 192)
    ∧ Ready sender [.g 1, .g 3] [] (operands sender [.g 1, .g 3] []) ∧ Clean (operands sender [.g 1, .g 3] []) 1
    ∧ Ready sender [.g 2, .g 3] [] (operands sender [.g 2, .g 3] []) ∧ Clean (operands sender [.g 2, .g 3] []) 1
    ∧ (Ready sender [.g 4] [5] (operands sender [.g 4] [5]) ∧ Clean (operands sender [.g 4] [5]) 1
      ∧ bits ((operands sender [.g 4] [5]).w 0) 63 16 = 0 ∧ tbit ((operands sender [.g 4] [5]).w 0) 7 = false
      ∧ bits ((operands sender [.g 4] [5]).w 0) 15 8 = 191)
    ∧ (Ready sender [.g 1] [5] (operands sender [.g 1] [5]) ∧ Clean (operands sender [.g 1] [5]) 1
      ∧ tbit ((operands sender [.g 1] [5]).w 0) 7 = true) :=
  have r : Released sender (some .chip) := fun sc h => by cases h; decide +kernel
  ⟨rfl, r, ⟨ready_of (by decide), clean1 rfl, by decide, by decide⟩, ⟨ready_of (by decide), clean1 rfl, by decide⟩,
   ready_of (by decide), clean1 rfl, ready_of (by decide), clean1 rfl, ⟨ready_of (by decide), clean1 rfl, by decide, by decide, by decide⟩,
   ⟨ready_of (by decide), clean1 rfl, by decide⟩⟩

/-- A task of launch 256 (core 1, 0), which runs 2 tasks; g1 an entry address, g2 no join address, g4 one in the own store. -/
def task (join : Word) (st : LevelState) : State :=
  { State.reset with
    cores := [(0, { PCore.init 0 with res := { slots := [(0, { slot0 with launchId := 256, join := join
                                                                          g := [(1, { val := 0x10 }), (4, { val := 0xC000000000001FF8 })] })]
                                               regions := openRegions } }),
              (1, { PCore.init 1 with launches := [{ seq := 0, job := 0, count := 2, st := st }] })] }

theorem witness_TaskInstructions :
    let s := task 0 .running
    Running s ∧ (me s).urg = false ∧ Ready s [.g 1, .g 2] [3] (operands s [.g 1, .g 2] [3]) ∧ Clean (operands s [.g 1, .g 2] [3]) 2
    ∧ ((operands s [.g 1, .g 2] [3]).w 0).toNat % 4 = 0 ∧ (operands s [.g 1, .g 2] [3]).w 1 = 0 ∧ joinOk 0 = true
    ∧ launchClosed s 256 = false ∧ (getCore s 0).res.deque.length < 64
    ∧ Ready s [.g 1, .g 4] [3] (operands s [.g 1, .g 4] [3]) ∧ joinOk ((operands s [.g 1, .g 4] [3]).w 1) = true
    ∧ launchClosed (task 0 .complete) 256 = true ∧ joinOk 0 = true
    ∧ Ready s [.g 4] [] (operands s [.g 4] []) ∧ Clean (operands s [.g 4] []) 1 ∧ joinCode ((operands s [.g 4] []).w 0) 8 = none
    ∧ Released s (some .chip) ∧ (me s).join = 0 ∧ (me s).held = [] ∧ (launchRec s 256).map (fun r => (r.st, r.count)) = some (.running, 2)
    ∧ (me (task 0xC000000000001FF8 .running)).join ≠ 0 ∧ joinCode (me (task 0xC000000000001FF8 .running)).join 8 = none
    ∧ Released (task 0xC000000000001FF8 .running) (some .chip) :=
  ⟨⟨rfl, rfl, rfl⟩, rfl, ready_of (by decide), (by unfold Clean; decide), by decide, by decide, by decide, by decide +kernel, by decide,
   ready_of (by decide), by decide, by decide +kernel, by decide, ready_of (by decide), clean1 rfl, by decide,
   (fun sc h => by cases h; decide +kernel), rfl, rfl, by decide +kernel, by decide, by decide, fun sc h => by cases h; decide +kernel⟩

/-- The watchpoint of a core is off; an IDLE's test still to come, and none; a block of main memory that a retirement holds, and none. -/
theorem witness_Premises : tbit (getCore (task 0 .running) 0).watch 63 = false
    ∧ idleTests 4 { slot0 with wbDue := 8, wbRegs := [idleMark] } = true ∧ idleTests 4 slot0 = false
    ∧ blockHeld (atNode .load { addr := 0, size := 8 } []) 0x1FFC0 = false
    ∧ blockHeld { State.reset with nodes := [(31, { migration := some { src := 0, dst := 1, switching := true } })] } 0x1FFC0 = true := by decide +kernel

/-- Bytes of a local store from offset `off`. -/
def cellsAt (off : Nat) (bs : List Byte) : List Host.Cell := (List.range bs.length).filterMap fun k => if bs.getD k 0 = 0 then none else some ⟨off + k, bs.getD k 0⟩

/-- A template at the end of the share, with LSNEED 112 or 113 and join address `j`; g2 asks for cores 0 to 191, 16 tasks each. -/
def launching (need : Nat) (j : Word) : State :=
  let f : V512 := BitVec.ofNat 512 (0x10 + need * 2 ^ 72 + 0xFFFF * 2 ^ 176 + j.toNat * 2 ^ 192)
  let s := one { slot0 with g := [(1, { val := 0xFF00000000001BC0 }), (2, { val := 0xFBF00 })] }
  { s with cores := [(0, { getCore s 0 with res := { (getCore s 0).res with ls := cellsAt 0x1BC0 (natBytes 64 f.toNat) } })] }

/-- The premises of `LaunchInstruction`. -/
def LaunchMeets (s : State) : Bool :=
  let g := operands s [.g 1, .g 2] [3]
  readyB s [.g 1, .g 2] [3] && decide ((me s).st = .active ∧ (me s).stepping = false ∧ (me s).stopNext = 0) && (g.xs.take 2).all (fun x => !x.psn)
    && decide (ownLsCode s (g.w 0) 64 64 = none)

theorem witness_LaunchInstruction :
    LaunchMeets (launching 113 0) = true ∧ launchStatus (launching 113 0) (templateAt (launching 113 0) 0xFF00000000001BC0) 0xFBF00 = 1
    ∧ LaunchMeets (launching 112 0) = true ∧ launchStatus (launching 112 0) (templateAt (launching 112 0) 0xFF00000000001BC0) 0xFBF00 = 0
    ∧ Released (launching 112 0) (some .chip) ∧ freeSeq (getCore (launching 112 0) 0) = some 0
    ∧ physOf (launching 112 0) (logicalOf (launching 112 0) 0) = 0 ∧ logicalOf (launching 112 0) 0 < 192
    ∧ LaunchMeets (launching 112 0xC000000000000008) = true
    ∧ launchStatus (launching 112 0xC000000000000008) (templateAt (launching 112 0xC000000000000008) 0xFF00000000001BC0) 0xFBF00 = 0
    ∧ frJoin (templateAt (launching 112 0xC000000000000008) 0xFF00000000001BC0) ≠ 0 ∧ Unlocked (launching 112 0) 0xFF00000000001BC0 64 :=
  ⟨by decide +kernel, by decide +kernel, by decide +kernel, by decide +kernel, (fun sc h => by cases h; decide +kernel), by decide +kernel,
   by decide +kernel, by decide +kernel, by decide +kernel, by decide +kernel, by decide +kernel, unlocked_of rfl _ _⟩

/-! ### Units of a core -/

/-- Slot 0 of core 0 over the store `x`; `c` is what else its core holds. -/
def onCore (c : PCore) (sl : Slot) : State :=
  { State.reset with cores := [(0, { c with res := { c.res with slots := [(0, sl)], regions := openRegions } })] }

/-- A job of job 5 in the queue. -/
def queuedJob : MxJob := { id := 0, job := 5, slot := 3, blk := 0, fmt := 0, frm := 0, epi := 0, decay := 0 }

/-- g1 names a block of zeros, which is refused; or one whose only bits are what a good block of zeros needs; FMT is `fmt`. -/
def block (b : V512) (n : Nat) : State :=
  onCore { PCore.init 0 with
    res := { ls := cellsAt 0x1BC0 (natBytes 64 b.toNat) }
    wide := { mxq := List.replicate n queuedJob } } { slot0 with g := [(1, { val := 0xFF00000000001BC0 }), (2, { val := 1 })] }

/-- The premises of `MatrixJobs`. -/
def BlockMeets (s : State) (b : V512) : Bool :=
  let g := operands s [.g 1, .g 2] [3]
  readyB s [.g 1, .g 2] [3] && decide ((me s).st = .active ∧ (me s).stepping = false ∧ (me s).stopNext = 0) && (g.xs.take 2).all (fun x => !x.psn)
    && !isClass1 s 0 && decide (ownLsCode s (g.w 0) 64 64 = none) && decide (blockAt s (g.w 0) = b) && fmtValid (me s).fmt
    && holdOk (getCore s 0) b (me s).fmt && decide ((me s).frm.toNat % 8 ≤ 4)

/-- The largest tile, K of one step, no tiles. -/
def goodBlock : V512 := BitVec.ofNat 512 (32 * 2 ^ 176 + 127 * 2 ^ 169 + 127 * 2 ^ 162 + 63 * 2 ^ 144 + 63 * 2 ^ 138)

theorem witness_MatrixJobs : BlockMeets (block goodBlock 15) goodBlock = true ∧ mxqRefused goodBlock 0 0 = false
    ∧ workClosed (block goodBlock 15) = false ∧ (getCore (block goodBlock 15) 0).wide.mxq.length < 16
    ∧ Unlocked (block goodBlock 15) 0xFF00000000001BC0 64
    ∧ BlockMeets (block goodBlock 16) goodBlock = true ∧ 16 ≤ (getCore (block goodBlock 16) 0).wide.mxq.length
    ∧ BlockMeets (block 0 0) 0 = true ∧ mxqRefused 0 0 0 = true
    ∧ workClosed { block goodBlock 0 with jobs := [] } = true ∧ BlockMeets { block goodBlock 0 with jobs := [] } goodBlock = true :=
  ⟨by decide +kernel, by decide +kernel, by decide +kernel, by decide +kernel, unlocked_of rfl _ _, by decide +kernel⟩

/-- The slot of the core owner's job on a core with the queue `q`. -/
def drained (q : List MxJob) : State :=
  { onCore { PCore.init 0 with wide := { mxq := q } } { slot0 with g := [(1, { val := 0xFF00000000001800 })] } with
    jobs := [{ Job.zero with record := 0xffffff000101ffff00000020000000#512 }], nextOrder := 1 }

theorem witness_MatrixTableAndDrain :
    Running (drained []) ∧ isClass1 (drained []) 0 = false ∧ Unlocked (drained []) 0xFF00000000001800 1024
    ∧ Running (drained [queuedJob]) ∧ Unlocked (drained [queuedJob]) 0xFF00000000001800 1024
    ∧ isOwner (drained []) = true ∧ Ready (drained []) [.g 1] [] (operands (drained []) [.g 1] []) ∧ Clean (operands (drained []) [.g 1] []) 1
    ∧ ownLsCode (drained []) 0xFF00000000001800 1024 64 = none ∧ isOwner (drained [queuedJob]) = true
    ∧ ownLsCode (drained [queuedJob]) 0xFF00000000001800 1024 64 = none
    ∧ Ready (drained []) [] [3] (operands (drained []) [] [3]) ∧ (me (drained [])).pend = none
    ∧ (∀ m, m < 16 → (getSlot (drained [{ queuedJob with job := 0, slot := 0 }]) 0 m).st ≠ .waiting)
    ∧ ({ queuedJob with job := 0, slot := 0 } : MxJob).order < (drained []).nextOrder :=
  ⟨⟨rfl, rfl, rfl⟩, rfl, unlocked_of (by decide +kernel) _ _, ⟨rfl, rfl, rfl⟩, unlocked_of (by decide +kernel) _ _, by decide +kernel, ready_of (by decide), clean1 rfl, by decide +kernel, by decide +kernel,
   by decide +kernel, ready_of (by decide), rfl, by decide +kernel, by decide⟩

/-- The hod registers of slot 0, and transfers before it; g1 is a value for HDSET. -/
def commanded (r0 r1 r2 r4 : Word) (n : Nat) : State :=
  onCore { PCore.init 0 with
    wide := { hodRegs := [(0, r0), (1, r1), (2, r2), (4, r4)] }
    hodq := List.replicate n { id := 0, job := 0, slot := 1, regs := [] } } slot0

/-- A transfer of 1 MiB, one whose source is misaligned, and one of KIND 5 to a ring of another core; 7 and 8 transfers before. -/
theorem witness_TransferCommands :
    let big := commanded 0x1000 0xFF00000000000000 0x100000 0 7
    let ring := commanded 0x1000 0xC00000000001FFE0 8 0x5000000000000 0
    (Running big ∧ Ready big [] [3] (operands big [] [3]) ∧ Ready big [.g 1] [] (operands big [.g 1] []) ∧ NoPoison (operands big [.g 1] [])
      ∧ hodCheck (hodRegs (getCore big 0) 0) = none ∧ (getCore big 0).hodq.length < 8)
    ∧ 8 ≤ (getCore (commanded 0x1000 0xFF00000000000000 0x100000 0 8) 0).hodq.length
    ∧ hodCheck (hodRegs (getCore (commanded 4 0 8 0 0) 0) 0) = some 0
    ∧ (Running ring ∧ Ready ring [] [3] (operands ring [] [3]) ∧ hodCheck (hodRegs (getCore ring 0) 0) = none
      ∧ bits ((hodRegs (getCore ring 0) 0).getD 4 0) 50 48 = 5
      ∧ ringAddrOk ((hodRegs (getCore ring 0) 0).getD 1 0) = true ∧ isLocal ((hodRegs (getCore ring 0) 0).getD 1 0) = false) :=
  ⟨⟨⟨rfl, rfl, rfl⟩, ready_of (by decide), ready_of (by decide), clean_of (by decide), by decide +kernel, by decide +kernel⟩, by decide +kernel,
   by decide +kernel, ⟨rfl, rfl, rfl⟩, ready_of (by decide), by decide +kernel⟩

/-- g1 names a ring object of another core, g2 an image of a ring of one slot of 64 bytes, g3 one of zeros. -/
def rings : State :=
  onCore { PCore.init 0 with res := { ls := cellsAt 0x1BE0 (natBytes 32 (2 ^ 80 + 6 * 2 ^ 96 + 64 * 2 ^ 192)) } }
    { slot0 with g := [(1, { val := 0xC00000000001FFE0 }), (2, { val := 0xFF00000000001BE0 }), (3, { val := 0xFF00000000001BC0 })] }

theorem witness_RingInstructions :
    (∀ a, Unlocked rings a 32) ∧ Released rings (some .chip)
    ∧ Ready rings [.g 1, .g 2] [] (operands rings [.g 1, .g 2] []) ∧ (operands rings [.g 1, .g 2] []).w 0 = 0xC00000000001FFE0
    ∧ ringCode rings 0xC00000000001FFE0 true = none ∧ ownLsCode rings 0xFF00000000001BE0 32 32 = none
    ∧ imageOk (BitVec.ofNat 256 (leNat (memBytes (getCore rings 0).res.ls 0x1BE0 32))) = true
    ∧ Ready rings [.g 1, .g 3] [] (operands rings [.g 1, .g 3] []) ∧ ownLsCode rings 0xFF00000000001BC0 32 32 = none
    ∧ imageOk (BitVec.ofNat 256 (leNat (memBytes (getCore rings 0).res.ls 0x1BC0 32))) = false
    ∧ Ready rings [.g 1, .g 2] [4] (operands rings [.g 1, .g 2] [4]) ∧ ringCode rings 0xC00000000001FFE0 false = none
    ∧ Clean (operands rings [.g 1, .g 2] []) 2 ∧ Clean (operands rings [.g 1, .g 3] []) 2 ∧ Clean (operands rings [.g 1, .g 2] [4]) 2 :=
  ⟨fun _ => unlocked_of rfl _ _, (fun sc h => by cases h; decide +kernel), ready_of (by decide), by decide, by decide +kernel, by decide +kernel,
   by decide +kernel, ready_of (by decide), by decide +kernel, by decide +kernel, ready_of (by decide), by decide +kernel,
   by unfold Clean; decide, by unfold Clean; decide, by unfold Clean; decide⟩

/-- Tile 47 has state `st`; g1 names it, g2 a tile that does not exist, g4 a card, g5 a launch, g6 an instance, g7 a reserved bit. -/
def units (st : BitVec 32) (rs : List (Nat × V512 × Bool)) (sl : Slot) : State :=
  { one slot0 with
    cores := [(0, { PCore.init 0 with results := rs, res := {
      tiles := [(47, st <<< 16)]
      regions := [{ job := 0, pregs := [BitVec.ofNat 64 (2 ^ 63 + 2 ^ 62 + 2 ^ 61 + 2 * 2 ^ 58 + 1023 * 2 ^ 16), 0, 0, 0, 0, 0, 0, 0] }]
      slots := [(0, { sl with
      g := [(1, { val := 47 }), (2, { val := 48 }), (3, { val := 3 }), (4, { val := 0xFFFF }), (5, { val := 0x1000000 }), (6, { val := 0x70100 }),
            (7, { val := 0x10000 }), (8, { val := 0 })] })] } })]
    graphs := [{ inst := 1, gen := 7, job := 0, cards := [0], topen := 0 }] }

def unitSlot : State := units 0 [] slot0

theorem witness_CoreUnits : Running unitSlot
    ∧ Ready unitSlot [.g 1, .g 3] [] (operands unitSlot [.g 1, .g 3] []) ∧ Clean (operands unitSlot [.g 1, .g 3] []) 2
    ∧ Ready unitSlot [.g 2, .g 3] [] (operands unitSlot [.g 2, .g 3] []) ∧ Released unitSlot (some .chip)
    ∧ regionOk (getCore unitSlot 0).res 0 2 (4096 * (47 - 32)) 4096 true false = true
    ∧ bits ((mget (getCore (units 1 [] slot0) 0).res.tiles 47).getD 0) 17 16 = 1 ∧ bits ((mget (getCore (units 2 [] slot0) 0).res.tiles 47).getD 0) 17 16 = 2
    ∧ Ready unitSlot [.g 4] [3] (operands unitSlot [.g 4] [3]) ∧ NoPoison (operands unitSlot [.g 4] [3])
    ∧ bits ((operands unitSlot [.g 4] [3]).w 0) 63 16 = 0 ∧ bits ((operands unitSlot [.g 4] [3]).w 0) 15 0 = 0xFFFF
    ∧ (findJob unitSlot 0).isSome = true ∧ findJob { unitSlot with jobs := [] } 0 = none
    ∧ Ready unitSlot [.g 7] [3] (operands unitSlot [.g 7] [3]) ∧ bits ((operands unitSlot [.g 7] [3]).w 0) 63 16 ≠ 0 :=
  ⟨⟨rfl, rfl, rfl⟩, ready_of (by decide), by unfold Clean; decide, ready_of (by decide), (fun sc h => by cases h; decide +kernel), by decide +kernel,
   by decide +kernel, by decide +kernel, ready_of (by decide), clean_of (by decide), by decide, by decide, by decide +kernel, by decide +kernel,
   ready_of (by decide), by decide⟩

/-- A job of one card, at the start of main memory, which ends its chain. -/
def carded : State :=
  { unitSlot with
    jobs := [{ Job.zero with record := Job.zero.record ||| BitVec.ofNat 512 (2 ^ 40) }]
    mem := cellsAt 0 (natBytes 64 (0xFFFF * 2 ^ 44)), nodes := [(0, { tlb := [{ job := 0, va := 0, bits := 12, leaf := 0x3000000000000000 }] })]
    nextInst := 255 }

/-- The card as it is read. -/
def cardRead : Option (List Nat) × State := cardChain carded ((findJob carded 0).getD Job.zero) 2 0 []

theorem witness_CoreUnits_card : Ready carded [.g 8] [3] (operands carded [.g 8] [3]) ∧ bits ((operands carded [.g 8] [3]).w 0) 15 0 = 0
    ∧ bits ((findJob carded 0).getD Job.zero).record 55 40 = 1 ∧ cardRead.1 = some [0] ∧ cardRead.2.cores = carded.cores
    ∧ cardRead.2.graphs = carded.graphs ∧ cardRead.2.nextInst = carded.nextInst ∧ cardRead.2.nextGen = carded.nextGen
    ∧ cardRead.2.who = carded.who ∧ workClosed carded = false ∧ carded.nextInst < 256 ∧ (∀ i ∈ carded.graphs, i.inst ≠ carded.nextInst) :=
  ⟨ready_of (by decide), by decide, by decide +kernel, by decide +kernel, by decide +kernel, by decide +kernel, by decide +kernel,
   by decide +kernel, by decide +kernel, by decide +kernel, by decide, by decide⟩

/-- A launch of the job at core 0, sequence number 0, in state `st`: x names it in bits 31:16. -/
def launched (st : LevelState) : State :=
  { unitSlot with cores := [(0, { getCore unitSlot 0 with launches := [{ seq := 0, job := 0, count := 1, st := st }] })] }

theorem witness_CoreUnits_cancel : Ready unitSlot [.g 5] [3] (operands unitSlot [.g 5] [3]) ∧ NoPoison (operands unitSlot [.g 5] [3])
    ∧ (launchRec (launched .running) 0).map (fun r => (r.job, r.st)) = some (0, .running)
    ∧ (launchRec (launched .complete) 0).map (fun r => (r.job, r.st)) = some (0, .complete)
    ∧ launchRec unitSlot 0 = none ∧ namedGraph unitSlot 0x1000000 = none
    ∧ (namedGraph unitSlot 0x70100).map (fun i => (i.job, i.st)) = some (0, .running)
    ∧ Ready (launched .running) [.g 8] [3] (operands (launched .running) [.g 8] [3]) ∧ NoPoison (operands (launched .running) [.g 8] [3]) :=
  ⟨ready_of (by decide), clean_of (by decide), by decide +kernel, by decide +kernel, by decide +kernel, by decide +kernel, by decide +kernel,
   ready_of (by decide), clean_of (by decide)⟩

/-- Two results that wait: one of the job, one of another; a latch that has been seen; a REP of one word at the start of the store. -/
theorem witness_CoreUnits_waits : Ready unitSlot [.v 1] [] (operands unitSlot [.v 1] []) ∧ untaken (getCore unitSlot 0) = 0
    ∧ untaken (getCore (units 0 [(0, 1, false), (0, 2, true)] slot0) 0) = 2
    ∧ (getCore (units 0 [(0, 1, false), (0, 2, true)] slot0) 0).results.find? (fun x => x.1 = 0) = some (0, 1, false)
    ∧ (getCore unitSlot 0).results.find? (fun x => x.1 = 0) = none
    ∧ Ready unitSlot [] [3] (operands unitSlot [] [3]) ∧ (me unitSlot).latchSeen = 0
    ∧ (me (units 0 [] { slot0 with latchSeen := 1 })).latchSeen ≠ 0
    ∧ (me { units 0 [] { slot0 with latchSeen := 1 } with latches := 1 }).latchSeen ≤ 1 :=
  ⟨ready_of (by decide), by decide +kernel, by decide +kernel, by decide +kernel, by decide +kernel, ready_of (by decide), rfl, by decide +kernel,
   by decide +kernel⟩

/-- An ADD follows the REP. -/
def repeated : State :=
  { one slot0 with cores := [(0, { getCore (one slot0) 0 with res := { (getCore (one slot0) 0).res with ls := cellsAt 4 [0x00, 0x00, 0x49, 0x05] } })] }

theorem witness_CoreUnits_rep : (match capture repeated 0 0 ((me repeated).pc + 4) 1 with
    | (.words ws, s') => decide (ws = [0x05490000#32]) && decide (s' = repeated)
    | _ => false) = true ∧ (curFrame (me repeated)).v = false := by decide +kernel

/-! ### Scan cores -/

/-- Hart 2 as `t`, with `w` the word that it issues. -/
def hart (t : Hart) (w : BitVec 32) : State := { State.reset with harts := [(2, t)], hartId := 2, word := w }

/-- A backward branch of the longest reach and its condition, a division by zero, x0 as destination, ECALL in both modes, MRET in both. -/
theorem witness_ScanCoreBase :
    let t : Hart := { x := [(1, 5)] }
    BaseResult t (wordR 1 0 1 7 3 0x33) 3 (if hx t 0 = 0 then hx t 1 else BitVec.ofNat 64 ((hx t 1).toNat % (hx t 0).toNat))
    ∧ (hart t (wordR 1 0 1 7 3 0x33)).word = wordR 1 0 1 7 3 0x33
    ∧ BaseResult t (wordI 0xFFF 1 0 0 0x13) 0 (hx t 1 + (0xFFF : BitVec 12).signExtend 64)
    ∧ BaseBranch 5 (fun x y => y.toInt ≤ x.toInt) ∧ (hart t (wordB 0x800 1 0 5)).word = wordB 0x800 1 0 5
    ∧ (hart t (wordJ 0x80000 1)).word = wordJ 0x80000 1 ∧ (hart t (wordI 0x7FF 1 0 1 0x67)).word = wordI 0x7FF 1 0 1 0x67
    ∧ (hme (hart t 0x73)).mode = .m ∧ (hart t 0x73).word = 0x73 ∧ (hart t 0x100073).word = 0x100073
    ∧ (hme (hart { t with mode := .u } 0x30200073)).mode = .u ∧ (hart t 0x30200073).word = 0x30200073 ∧ (hart t 0).word = 0 :=
  ⟨.remu 0 1 3, rfl, .addi 0xFFF 1 0, .bge, rfl, rfl, rfl, rfl, rfl, rfl, rfl, rfl, rfl⟩

/-- A gate whose entry is 4 bytes at offset 0x1000. -/
def gateAt1000 (kind : Nat) : V512 := BitVec.ofNat 512 (2 ^ 195 + kind * 2 ^ 196 + 4 * 2 ^ 326 + 64 * 2 ^ 337)

/-- Hart 2 with `v` as SVIEW, x1 an offset and x2, x3 other values; gate 63 is an input gate and gate 5 an output gate at offset 0x1000. -/
def scanning (x1 : Word) (v : BitVec 33) (frozen : Bool) : State :=
  { hart { x := [(1, x1), (2, 0x80000000), (3, 0x80000001), (4, 0x10000), (5, 0x701)], sview := v, slim := 1 } 0 with
    stamp := 5
    image := cellsAt (0x200000 + 0x40 + 4 * 63) [4]
    gates := [(63, { entry := gateAt1000 0 }), (5, { entry := gateAt1000 1, frozen := frozen })]
    graphs := [{ inst := 1, gen := 7, job := 0, cards := [0], topen := 0, st := .cancelled }] }


/-- An offset at and one beyond each limit; a view that is fresh, one scan old, two scans old, and absent. -/
theorem witness_ScanCoreCustom :
    let fresh := scanning 0x1000 0x100000005 false
    ¬ (0x200000 : Nat) ≤ (hx (hme (scanning 0x1FFFFC 0 false)) 1 + (0 : BitVec 12).signExtend 64).toNat
    ∧ 0x200000 ≤ (hx (hme (scanning 0x1FFFFC 0 false)) 1 + (4 : BitVec 12).signExtend 64).toNat
    ∧ ViewGood (scanning 0x1000 0x100000004 false) ∧ ¬ ViewGood (scanning 0x1000 0x100000003 false) ∧ ¬ ViewGood (scanning 0x1000 5 false)
    ∧ pmpOk (hme fresh) (dataMode (hme fresh)) (imageAddr 0x201000) 4 0 = true ∧ latchHolds fresh 0xE2 0x201000 = false
    ∧ coveringGate fresh 0 0x1000 = some 63 ∧ coveringGate fresh 0 0x1004 = none
    ∧ (fresh.stamp - imageWord fresh (0x200000 + 0x40 + 4 * 63)).toNat ≤ (hme fresh).slim.toNat
    ∧ (hme fresh).slim.toNat < (fresh.stamp - imageWord fresh (0x40 + 4 * 63)).toNat
    ∧ tbit (hme fresh).sview 32 = true ∧ (hme fresh).sview.setWidth 32 = fresh.stamp
    ∧ pmpOk (hme fresh) (dataMode (hme fresh)) (imageAddr (outHalf fresh.stamp.toNat + 0x1000)) 4 1 = true
    ∧ coveringGate fresh 1 0x1000 = some 5 ∧ (getGate fresh 5).frozen = false ∧ (getGate (scanning 0x1000 0x100000005 true) 5).frozen = true
    ∧ (hme fresh).waiting = false ∧ mortarMode fresh (hme fresh).sjob.toNat = 0
    ∧ (hx (hme fresh) 2).toNat ≤ 2 ^ 31 ∧ 2 ^ 31 < (hx (hme fresh) 3).toNat
    ∧ bits (hx (hme fresh) 4) 63 16 ≠ 0 ∧ bits (hx (hme fresh) 1) 63 16 = 0 ∧ findJob { fresh with jobs := [] } 0 = none
    ∧ namedGraph fresh (hx (hme fresh) 1 <<< 8) = none ∧ (namedGraph fresh (hx (hme fresh) 5 <<< 8)).map (fun i => i.st) = some .cancelled :=
  ⟨by decide +kernel, by decide +kernel, ⟨by decide +kernel, by decide +kernel⟩, fun h => absurd h.2 (by decide +kernel),
   fun h => absurd h.1 (by decide +kernel), by decide +kernel⟩

/-- Cluster 8, which holds the latch unit, is fenced, or is not. -/
theorem witness_ScanCoreCustom_fence :
    edgeFenced (scanning 0x1000 0x100000005 false) 0xE2 = false
    ∧ edgeFenced { scanning 0x1000 0x100000005 false with clusters := [(8, { getCluster State.reset 8 with fenced := true })] } 0xE2 = true := by decide +kernel

/-- A hart that waits for a latch, before it and after it, and one that starts the instance of `carded`. -/
theorem witness_ScanCoreCustom_waits :
    (hme (hart { waiting := true } 0)).waiting = true ∧ (hart { waiting := true } 0).latches ≤ (hme (hart { waiting := true } 0)).latchSeen
    ∧ (hme { hart { waiting := true } 0 with latches := 1 }).latchSeen < 1
    ∧ bits (hx (hme { carded with harts := [(2, {})], hartId := 2 }) 1) 63 16 = 0
    ∧ (findJob carded 0).map (fun j => j.cancelled) = some false ∧ cardRead.2.harts = carded.harts ∧ cardRead.2.hartId = carded.hartId := by
  decide +kernel

/-! ### Messages at their targets, tasks, reports -/

/-- `m` is the one message on its way; core 0 is `c` and holds slot 0 as `sl`. -/
def target (m : Msg) (c : PCore) (sl : Slot) : State := { onCore c sl with net := [m] }

theorem reaches (m : Msg) (c : PCore) (sl : Slot) (h : c.sav = none) (hl : c.lockHeld = []) (ho : c.res.overflow = [])
    (hs : c.switching = false) (hf : c.coreFault = false := by rfl) : Reaches (target m c sl) m (.slot 1 0) 0 0 0 := by
  have hp : physOf (target m c sl) 0 = 0 := (by decide +kernel : physOf State.reset 0 = 0)
  have hn : (target m c sl).net.take (target m c sl).input.n = [] := rfl
  have hl' : (getCore (target m c sl) 0).lockHeld = [] := hl
  have ho' : (getCore (target m c sl) 0).res.overflow = [] := ho
  refine ⟨rfl, fun slot => ?_, ?_, ⟨(by decide +kernel : lpctV State.reset 0 = true), hp⟩,
    ⟨(by decide +kernel : (getCluster State.reset (clusterOf 0)).fenced = false), (by decide +kernel : (getCluster State.reset (clusterOf 0)).powered = true)⟩,
    ⟨(by decide +kernel : (findJob State.reset 0).isSome = true), by simp [savedFor, target, onCore, getCore, mget, h, hs]⟩, hf, rfl, fun h => nomatch h⟩
  · have ha : senderAway (target m c sl) (.slot 1 0) 0 = false := rfl
    unfold msgBehind earlierWaits overflowAhead noticeAhead
    simp [hn, hp, hl', ho', ha]
  · have hb : (getCluster (target m c sl) (clusterOf 0)).busy = false := (by decide +kernel : (getCluster State.reset (clusterOf 0)).busy = false)
    simp [clockStands, hb]

/-- Any message to core 0; a waiting slot and an Empty one; a new event at the limit of the sequence, and a repeat. -/
theorem witness_Arrivals (m : Msg) :
    (∀ sl, Reaches (target m (PCore.init 0) sl) m (.slot 1 0) 0 0 0 ∧ (target m (PCore.init 0) sl).heldMsgs = []
      ∧ getSlot (target m (PCore.init 0) sl) 0 0 = sl)
    ∧ NewEvent [] 0x10 1 ∧ NewEvent [(0x10, 0xFFFFFFFF)] 0x10 0x7FFFFFFE ∧ ¬ NewEvent [(0x10, 1)] 0x10 1
    ∧ (slot0.st ≠ .empty ∧ slot0.st ≠ .starting ∧ slot0.jobId.toNat = 0 ∧ slot0.park = .none) ∧ ({} : Slot).st = .empty :=
  ⟨fun sl => ⟨reaches m _ sl rfl rfl rfl rfl, rfl, rfl⟩, (fun _ h => nomatch h), (fun l h => by cases h; decide), (fun h => absurd (h 1 rfl).1 (by decide)),
   by decide, rfl⟩

/-- A ring of 2 entries that holds 1 or 2; urgent messages waiting; a handler that may be entered; a time reached and not reached. -/
theorem witness_Arrivals_slots :
    let ring := fun k => ({ slot0 with chan := 223 * 2 ^ 5 + 3, chanKa := 7, k := [(7, k)] } : Slot)
    (chanBound (ring 1) = true ∧ ¬ chanSize (ring 1) ≤ (kReg (ring 1) 7 - kReg (ring 1) 0).toNat)
    ∧ chanSize (ring 2) ≤ (kReg (ring 2) 7 - kReg (ring 2) 0).toNat ∧ chanBound slot0 = false
    ∧ (getCore (onCore (PCore.init 0) slot0) 0).waits = [] ∧ (getCore (onCore (PCore.init 0) slot0) 0).watch = 0
    ∧ Memory.wf (getCore (onCore (PCore.init 0) slot0) 0).res.ls ∧ (getCore (onCore (PCore.init 0) slot0) 0).res.overflow = []
    ∧ allotted (onCore (PCore.init 0) {}) 0 0 = some 0 ∧ coreHeld (getCore (onCore (PCore.init 0) slot0) 0) = false
    ∧ slot0.urg = false ∧ slot0.mwin = false ∧ slot0.stepping = false ∧ mortarMode (onCore (PCore.init 0) slot0) 0 = 0 :=
  ⟨by decide +kernel, by decide +kernel, by decide +kernel, rfl, rfl, by decide +kernel, rfl, by decide +kernel, by decide +kernel, rfl, rfl, rfl, rfl⟩

/-- A fill of an empty register that a PURGE still has to write, and one that it makes full. -/
theorem witness_Arrivals_fill :
    let sl : Slot := { slot0 with wbDue := 9, wbRegs := [(false, 3)], g := [(3, { val := 0, full := false })] }
    (PCore.init 0).cc < sl.wbDue ∧ (false, 3) ∈ sl.wbRegs ∧ (gCell sl 3).full = false ∧ (gCell sl 4).full = true := by decide +kernel

/-- Counter 127 at `c`, with its frame in the pending area; frames fill the run list. -/
def counting (c : Word) (closed : List Nat) : PCore :=
  { PCore.init 0 with res := { dep := [(127, c)], depClosed := closed, pending := [{ frame := BitVec.ofNat 512 (127 * 2 ^ 176) }]
                               runList := List.replicate 31 0 } }

theorem witness_DependenceCounters (c : Word) (closed : List Nat) :
    let m := Msg.decr (.slot 1 0) 7 0x10 0 1 0 127
    Reaches (target m (counting c closed) slot0) m (.slot 1 0) 0 0 0 ∧ NewEvent [] 0x10 1
    ∧ frDepw (BitVec.ofNat 512 (127 * 2 ^ 176)) = 127 ∧ (counting c closed).res.runList.length < 32
    ∧ (mget (getCore (target m (counting c closed) slot0) 0).res.dep 127).getD 0 = c :=
  ⟨reaches _ _ _ rfl rfl rfl rfl, (fun _ h => nomatch h), by decide +kernel, (by decide : (List.replicate 31 (0 : V512)).length < 32), rfl⟩

/-- Frames of jobs 0 and 5. -/
def frameOf (job : Nat) : V512 := BitVec.ofNat 512 (0x10 + job * 2 ^ 153 + 0xFFFF * 2 ^ 176)

/-- Core 0 with frames and an idle slot 0, whose job is 0; the rest of slots are the same. -/
def workplace (run dq : List V512) (sl : Slot) : State := onCore { PCore.init 0 with res := { runList := run, deque := dq } } sl

theorem witness_TakingWork :
    (∀ run dq, run = [] ∨ run = [frameOf 0] → dq = [] ∨ dq = [0, frameOf 0] → Idle (workplace run dq {}) 0 0 0)
    ∧ FirstOf (workplace [frameOf 0] [] {}) 0 0 [frameOf 0] (frameOf 0)
    ∧ FirstOf (workplace [] [0, frameOf 0] {}) 0 0 [frameOf 0, 0] (frameOf 0)
    ∧ ((upTo 192).filter fun c => decide (c ≠ 0) && lpctV (workplace [] [] {}) c && decide (c / 8 = 0 / 8)) = [1, 2, 3, 4, 5, 6, 7]
    ∧ spillAt (getCore (workplace [] [] {}) 0).res 0 = (0, 0) ∧ logicalOf (workplace [] [] {}) 0 = 0
    ∧ (victimStep (PCore.init 0).victim).toNat * 7 / 65536 < 7 := by
  refine ⟨?_, ⟨[], [], rfl, by decide +kernel, fun _ h => nomatch h⟩, ⟨[], [0], rfl, by decide +kernel, fun _ h => nomatch h⟩,
    by decide +kernel⟩
  rintro run dq (rfl | rfl) (rfl | rfl) <;>
    exact ⟨⟨by decide, rfl, rfl⟩, ⟨by decide +kernel, by decide +kernel⟩, (fun _ h => nomatch h), ⟨rfl, rfl⟩, rfl, rfl, rfl, rfl⟩

/-- Slot 0 of core 0 steals from core 1, whose deque holds a frame of its job; a Starting slot. -/
theorem witness_TakingWork_steal :
    let s : State := { workplace [] [] {} with
      net := [.steal 0 0 1 0]
      cores := [(0, { PCore.init 0 with res := { regions := openRegions } }), (1, { PCore.init 1 with res := { deque := [frameOf 0] } })] }
    s.net[s.input.n]? = some (.steal 0 0 1 0) ∧ takesFrames s 0 = true ∧ allotted s 0 0 = some 0 ∧ mortarMode s 0 = 0 ∧ lpctV s 1 = true ∧ physOf s 1 = 1
    ∧ (getCluster s (clusterOf 1)).fenced = false ∧ spillAt (getCore s 1).res 0 = (0, 0)
    ∧ FirstOf s 1 0 (getCore s 1).res.deque (frameOf 0)
    ∧ coreHeld (getCore (workplace [] [] { st := .starting, starting := some (frameOf 0) }) 0) = false :=
  ⟨rfl, by decide +kernel, by decide +kernel, rfl, by decide +kernel, by decide +kernel, by decide +kernel, by decide +kernel,
   ⟨[], [], rfl, by decide +kernel, fun _ h => nomatch h⟩, by decide +kernel⟩

/-- A core at reset: up, its clock runs, its watchpoint is off, its job's context is formed; the output gates send, or hold while unsure. -/
theorem witness_Premises_up :
    (getCluster State.reset (clusterOf 1)).powered = true ∧ clockStands State.reset 0 = false ∧ unformed State.reset 0 0 = false
    ∧ tbit (getCore State.reset 0).watch 63 = false ∧ State.reset.pair.unsure = false ∧ State.reset.pair.stash = []
    ∧ ({ State.reset with pair := { unsure := true } } : State).pair.unsure = true := by decide +kernel

/-- LOCK over and beside the place of a SEND's entry, of a dependence counter, and of the places that a launch frame takes. -/
theorem witness_Premises_lock :
    let locked := fun (lo hi : Nat) => ({ PCore.init 0 with lock := BitVec.ofNat 64 (2 ^ 63 + hi * 2 ^ 16 + lo) } : PCore)
    lockTouches (locked 0x6F 0x6F) (8 * 892) 32 = true ∧ lockTouches (locked 0x6E 0x6E) (8 * 892) 32 = false
    ∧ lockTouches (locked (depOff 127 / 64) (depOff 127 / 64)) (depOff 127) 8 = true ∧ lockTouches (PCore.init 0) (depOff 127) 8 = false
    ∧ (∀ kind, kind = 0 ∨ kind = 2 → ((frameSpan {} (BitVec.ofNat 512 (kind * 2 ^ 70 + 127 * 2 ^ 176))).any fun e => lockTouches (locked 0 0xFFFF) e.1 e.2) = true
      ∧ ((frameSpan {} (BitVec.ofNat 512 (kind * 2 ^ 70 + 127 * 2 ^ 176))).any fun e => lockTouches (PCore.init 0) e.1 e.2) = false) := by
  refine ⟨by decide +kernel, by decide +kernel, by decide +kernel, by decide +kernel, ?_⟩
  rintro kind (rfl | rfl) <;> decide +kernel

/-- No checked pair re-executes; a reset notice behind a store of its core and one that is first; the link that a failed step 7 keeps down. -/
theorem witness_Premises_order :
    rollingPair State.reset 0 = none ∧ (getCore State.reset 0).coreFault = false ∧ slot0.stopNext = 0
    ∧ noticeWaits { State.reset with net := [.req 0x11F { request .store { addr := 0, size := 8 } with src := .slot 191 0 }, .resetNotice 0x11F 191] } 1 0x11F 191 = true
    ∧ noticeWaits { State.reset with net := [.resetNotice 0x11F 191] } 0 0x11F 191 = false
    ∧ pcieAway State.reset = false ∧ pcieAway { State.reset with bootJournal := [bootEntry State.reset.starts.toNat 7 1 0] } = true
    ∧ clockStands { State.reset with clusters := [(0, { getCluster State.reset 0 with busy := true })], cores := [(0, { PCore.init 0 with halted := true })] } 0 = true
    ∧ State.reset.imagePoison = [] ∧ slotLaunch slot0 = some 0 ∧ slotLaunch ({} : Slot) = none := by decide +kernel

/-- Ring images with their reserved bits 0 and with one set. -/
theorem witness_Premises_ring : ringClean (BitVec.ofNat 256 (2 ^ 80 + 6 * 2 ^ 96)) = true ∧ ringClean 1 = false
    ∧ bits (BitVec.ofNat 256 (2 ^ 80)) 95 80 < (2 : BitVec 32).toNat := by decide +kernel

/-- A pop's record that its waiting instruction may still take back, and the same record once no instruction waits. -/
theorem witness_MortarUnit_provisional :
    let r := BitVec.ofNat 128 (1 * 2 ^ 116 + 0x10 * 2 ^ 92 + 0x200 * 2 ^ 64)
    let s := fun (d : Option Pend) => ({ State.reset with
      mortars := [(0, { mode := 1, queue := [r], lent := [{ agent := 0x10, recs := 1 }] })]
      cores := [(1, { PCore.init 1 with res := { slots := [(0, { slot0 with st := .waiting, pend := d })] } })] } : State)
    provisional (s (some { instr := .nop, word := 0, tag := 0, pops := [(0, { val := 1, psn := false, key := 0 })] })) 0 r = true
    ∧ provisional (s none) 0 r = false := by decide +kernel

/-- The first of the slots that wait for an entry of the hod queue, which still waits at its HDGO. -/
theorem witness_TransferCommands_wait :
    let w := slotWaiter 0 0
    let s := onCore { PCore.init 0 with hodWait := [w] } { slot0 with hodAt := some slot0.pc }
    (getCore s 0).hodWait.head? = some w ∧ stillWaits s 0 w = true := by decide +kernel

/-- Ratio changes with and without a forced change due; a cluster whose clock is stretched. -/
theorem witness_Premises_clocks :
    (getCluster State.reset 0).forceDue = false ∧ (getCluster State.reset 0).stretched = false
    ∧ (let s : State := { State.reset with clusters := [(0, { getCluster State.reset 0 with busy := true, forceDue := true, target := 2, stretched := true, inj := true })] }
       (getCluster s 0).forceDue = true ∧ (getCluster s 0).target ≠ 0 ∧ (getCluster s 0).stretched = true)
    ∧ clockStopped State.reset 0 = false := by decide +kernel

/-- A launch frame for core 0 with `kind`; `n` entries in the run list. -/
def delivering (kind n : Nat) : State :=
  target (.frame 0 1 (BitVec.ofNat 512 (kind * 2 ^ 70 + 127 * 2 ^ 176)) 255) { PCore.init 0 with res := { runList := List.replicate n 0 } } slot0

theorem witness_LaunchFrames :
    (let s := delivering 0 31
     s.net[s.input.n]? = some (.frame 0 1 (BitVec.ofNat 512 (127 * 2 ^ 176)) 255) ∧ frameBehind s 0 0 1 = false ∧ physOf s 0 = 0 ∧ lpctV s 0 = true
      ∧ (getCluster s (clusterOf 0)).fenced = false ∧ (getCluster s (clusterOf 0)).powered = true
      ∧ savedFor s 0 (frJob (BitVec.ofNat 512 (127 * 2 ^ 176))) = false ∧ (getCore s 0).res.runList.length < 32)
    ∧ frameBehind (delivering 0 32) 0 0 1 = false ∧ 32 ≤ (getCore (delivering 0 32) 0).res.runList.length
    ∧ frameBehind (delivering 2 0) 0 0 1 = false ∧ frKind (BitVec.ofNat 512 (2 * 2 ^ 70 + 127 * 2 ^ 176)) = 2
    ∧ savedFor (delivering 2 0) 0 (frJob (BitVec.ofNat 512 (2 * 2 ^ 70 + 127 * 2 ^ 176))) = false
    ∧ lpctV { delivering 0 0 with lpct := [(0, 0)] } 0 = false ∧ frJoin (BitVec.ofNat 512 (127 * 2 ^ 176)) = 0
    ∧ launchRec { delivering 0 0 with lpct := [(0, 0)] } (frLaunch (BitVec.ofNat 512 (127 * 2 ^ 176))) = none :=
  ⟨⟨rfl, by decide +kernel⟩,
   by decide +kernel⟩

theorem witness_ReportsAndNotices :
    (launchRec { launched .running with net := [.clock 0 256] } 0).map (fun r => r.reported) = some 0
    ∧ ({ launched .running with net := [.clock 0 256] } : State).net[0]? = some (.clock 0 256)
    ∧ ({ State.reset with net := [.resetNotice 0x11F 191] } : State).net[0]? = some (.resetNotice 0x11F 191) :=
  ⟨by decide +kernel, rfl, rfl⟩

/-! ### Scans and gang switches -/

/-- A real-time job 5 of the first cluster whose budget is 480,000 cc, in phase state `st`. -/
def rtJob (st : PhaseState) : Job :=
  { id := 5, pregs := [], windows := [], phase := st, texp := 700
    record := BitVec.ofNat 512 (480000 * 2 ^ 120 + 1 * 2 ^ 96 + 0xFFFF * 2 ^ 56 + 5 * 2 ^ 33 + 1 * 2 ^ 31) }

/-- Scanning is off; PERIOD is `p`, START `st`; job 5 is real-time. -/
def stopped (p st : Nat) : State := { State.reset with period := BitVec.ofNat _ p, start := BitVec.ofNat _ st, jobs := [rtJob .closed] }

/-- PERIOD at its limit with START just in time; PERIOD below its limit; the fit check fails at 409 µs and holds at 410. -/
theorem witness_ScanControl :
    MayStart (stopped 1000000 100000) ∧ ¬ MayStart (stopped 49 100000) ∧ ¬ MayStart (stopped 1000000 99999)
    ∧ MayStart (stopped 410 100000) ∧ ¬ MayStart (stopped 409 100000) ∧ (stopped 410 100000).arbWait = [] ∧ (stopped 410 100000).run = false
    ∧ ({ stopped 410 100000 with stopPending := true } : State).plumb < boundary { stopped 410 100000 with stopPending := true }
    ∧ boundary { stopped 410 100000 with plumb := 100000 } ≤ 100000 :=
  ⟨⟨by decide +kernel, by decide +kernel, by decide +kernel, by decide +kernel, by decide +kernel, ⟨rfl, rfl⟩⟩, fun h => absurd h.period.1 (by decide +kernel), fun h => absurd h.start (by decide +kernel),
    ⟨by decide +kernel, by decide +kernel, by decide +kernel, by decide +kernel, by decide +kernel, ⟨rfl, rfl⟩⟩, fun h => absurd h.fit (by decide +kernel), rfl, rfl, by decide +kernel, by decide +kernel⟩

/-- Scanning at its boundary, with job 5 in phase state `st`. -/
def scanningNow (st : PhaseState) : State := { stopped 1000 100000 with run := true, plumb := 100000, jobs := [rtJob st] }

theorem witness_ScanBoundaries :
    (scanningNow .complete).run = true ∧ boundary (scanningNow .complete) ≤ (scanningNow .complete).plumb ∧ BareLatch (scanningNow .complete)
    ∧ ((scanningNow .complete).jobs.filter fun k => decide (bits k.record 32 31 = 1)) = [rtJob .complete]
    ∧ findJob (scanningNow .complete) 5 = some (rtJob .complete) ∧ bits (rtJob .complete).record 119 96 ≠ 0 ∧ bits (rtJob .complete).record 71 56 = 0xFFFF
    ∧ partCores (scanningNow .complete) (rtJob .complete).record ≠ []
    ∧ (∀ j ∈ State.reset.jobs, bits j.record 32 31 ≠ 1)
    ∧ boundary { scanningNow .complete with plumb := 99999 } = 100000
    ∧ findJob { scanningNow .opened with input := { n := 5 } } 5 = some (rtJob .opened) ∧ (rtJob .opened).texp ≤ 100000 :=
  ⟨rfl, by decide +kernel, ⟨by decide +kernel, rfl, ⟨rfl, rfl, rfl, rfl, rfl⟩, rfl⟩, by decide +kernel⟩

/-- A switch of job 5 on core 1 at time 700, at `step`; the core has its saved context `sav`. -/
def switching (step : SwitchStep) (inward : Bool) (sav : Option Ctx) : State :=
  { State.reset with
    input := { n := 5, k := 1 }, plumb := 700, jobs := [rtJob .preempting]
    cores := [(1, { PCore.init 1 with sav := sav, res := { rtJob := if sav.isSome then some 5 else none } })]
    switches := [{ job := 5, inward := inward, time := 700, cores := [1], step := step }] }

theorem witness_GangSwitches :
    (∀ step inward sav, SwitchOf (switching step inward sav) { job := 5, inward := inward, time := 700, cores := [1], step := step })
    ∧ (getCore (switching .due true none) 1).switching = false ∧ (getCore (switching .due true none) 1).pass = []
    ∧ (∀ e ∈ (switching .due true none).cores, ∀ r ∈ e.2.waits, ∀ n, r.src ≠ .slot 1 n) ∧ NoRetry (switching .due true none) 1
    ∧ answersDue (switching .stopped true none) 1 = false ∧ (getCore (switching .stopped true none) 1).shadow = []
    ∧ (getCore (switching .stopped true none) 1).sav = none ∧ (getCore (switching .stopped false (some {})) 1).sav = some {}
    ∧ answersDue (switching .stopped false (some {})) 1 = false ∧ (getCore (switching .stopped false (some {})) 1).res.rtJob = some 5
    ∧ findJob (switching .stopped false (some {})) 5 = some (rtJob .preempting)
    ∧ answersDue { switching .stopped true none with net := [.req 0 { request .load { addr := 0, size := 8 } with src := .slot 1 0 }] } 1 = true :=
  ⟨fun step inward sav => ⟨rfl, (by decide : [1].Nodup)⟩, rfl, rfl, (fun e he r hr => by
     rcases List.mem_singleton.mp he with rfl
     cases hr),
   (fun _ h => nomatch h), by decide +kernel, rfl, rfl, rfl, by decide +kernel, rfl,
   by decide +kernel, by decide +kernel⟩

/-- The cluster is in a ratio change, and is not; the cores of a switch hold no waits; the switch of a registered job. -/
theorem witness_GangSwitches_change :
    (getCluster (switching .due true none) (clusterOf 1)).busy = false
    ∧ (getCluster { switching .due true none with clusters := [(0, { getCluster State.reset 0 with busy := true })] } (clusterOf 1)).busy = true
    ∧ (getCore (switching .drained true none) 1).waits = []
    ∧ ({ job := 5, inward := false, time := 700, cores := [1], step := .stopped } : Switch).void = false :=
  ⟨by decide +kernel, by decide +kernel, rfl, rfl⟩

/-- The lead of a checked pair has a disagreement that waits, and has none; its frames, its local store. -/
theorem witness_GangSwitches_pair :
    pairAwaits (switching .due true none) 1 = false
    ∧ pairAwaits { switching .due true none with pairChk := [(0, { state := 2, failed := some 3 })] } 0 = true
    ∧ (∀ n, (getSlot (switching .drained true none) 1 n).frame.v = false) ∧ Memory.wf (getCore (switching .stopped true none) 1).res.ls :=
  ⟨by decide +kernel, by decide +kernel, fun _ => rfl, by decide +kernel⟩

/-! ### Commands to the control complex -/

/-- A command `v` with index `n` and bytes `bs`. -/
def command (s : State) (v : Word) (n : Nat) (bs : List Byte) : State := { s with input := { n := n, v := v, bytes := bs } }

/-- CLKCTL of the last cluster; INVAL of 2^36 pages and of a misaligned page; a gate entry; a gate control list that fills the scan. -/
theorem witness_ArbiterCommands :
    State.reset.arbWait = [] ∧ State.reset.run = false ∧ State.reset.stopPending = false ∧ State.reset.invBusy = false ∧ State.reset.attBusy = false
    ∧ bits (3 : Word) 1 0 = 3 ∧ bits (0xFF00000002 : Word) 1 0 ≠ 3
    ∧ tbit (BitVec.ofNat 64 (36 * 2 ^ 22 + 1)) 0 = true ∧ bits (BitVec.ofNat 64 (36 * 2 ^ 22 + 1)) 27 22 ≤ 36 ∧ bits (0 : Word) 47 12 % 2 ^ 36 = 0
    ∧ bits (0x1000 : Word) 47 12 % 2 ^ 1 ≠ 0
    ∧ translatedDue { State.reset with invBusy := true } (invRange State.reset) = false
    ∧ gateOk 0 (gateAt1000 0) = true ∧ gateOk 1000 (gateAt1000 0 ||| 1) = false
    ∧ (([600000, 400000] : List Word).map fun e => bits e 31 0).foldl (· + ·) 0 = 1000 * 1000
    ∧ ([600000, 400000] : List Word).all (fun e => bits e 55 32 = 0) = true
    ∧ (([600000] : List Word).map fun e => bits e 31 0).foldl (· + ·) 0 ≠ 1000 * 1000 :=
  ⟨rfl, rfl, rfl, rfl, rfl, by decide +kernel⟩

/-- The record of a best-effort job 127 on all clusters, slots 1 to 3, whose tables are at 0x1000. -/
def record127 (slots : Nat) : V512 :=
  BitVec.ofNat 512 (1 * 2 ^ 152 + 0xFFFFFF * 2 ^ 96 + slots * 2 ^ 80 + 0xFFFF * 2 ^ 56 + 127 * 2 ^ 33 + 2 * 2 ^ 31)

/-- The record is at 0x8000; its tables map the first page. -/
def registering (r : V512) : State :=
  command { State.reset with
    mem := cellsAt 0x1000 (natBytes 8 (2 ^ 63 + 4)) ++ cellsAt 0x2000 (natBytes 8 (2 ^ 63 + 6)) ++ cellsAt 0x3000 (natBytes 8 (2 ^ 63 + 8))
      ++ cellsAt 0x4000 (natBytes 8 (2 ^ 63 + 2 ^ 62 + 2 ^ 61 + 64)) ++ cellsAt 0x8000 (natBytes 64 r.toNat) } 0x8000 0 []

/-- The registration that is read. -/
def registration (r : V512) : Option (V512 × List Word × List Word) × State :=
  readRegistration { registering r with arbSeq := (registering r).arbSeq + 1 } 0x8000

theorem witness_JobCommands :
    (registering (record127 14)).arbWait = [] ∧ (0x8001 : Word).toNat % 64 ≠ 0
    ∧ (registration (record127 14)).1 = some (record127 14, [], [0, 0, 0, 0, 0, 0, 0, 0])
    ∧ recordBad (record127 14) [] [0, 0, 0, 0, 0, 0, 0, 0] = false ∧ recordBad (record127 14 ||| 1) [] [] = true
    ∧ findJob (registration (record127 14)).2 127 = none ∧ partOverlaps (registration (record127 14)).2 (record127 14) = false
    ∧ slotsClash (registration (record127 14)).2 (record127 14) = false ∧ slotsClash (registration (record127 14)).2 (record127 1) = true
    ∧ partOverlaps { State.reset with jobs := [Job.zero, rtJob .closed] } (rtJob .closed).record = true
    ∧ bits (rtJob .closed).record 32 31 = 1 ∧ (bits (rtJob .closed).record 151 120 * 20 + 23) / 24 + 2 * 4531 = 409062
    ∧ (findJob { State.reset with jobs := [Job.zero, rtJob .closed] } 5).isSome = true ∧ findJob State.reset 5 = none :=
  ⟨rfl, by decide +kernel⟩

/-- Quotas of 16 ways among two jobs; a remap of core 0 to core 8, which another entry names, and once none does. -/
theorem witness_QuotasAndRemaps :
    otherQuotas { State.reset with quotas := [(0, 8), (1, 8)] } 1 4 0 + bits (8 : Word) 4 0 ≤ 16
    ∧ 16 < otherQuotas { State.reset with quotas := [(0, 8), (1, 8)] } 1 4 0 + bits (9 : Word) 4 0
    ∧ coreFreeFor State.reset 0 8 = false ∧ isClass1 State.reset 8 = isClass1 State.reset 0
    ∧ coreFreeFor { State.reset with lpct := [(8, 8)] } 0 8 = true ∧ physOf State.reset 0 = 0 ∧ bits (0x80C0 : Word) 7 0 = 192
    ∧ ReadyToMove { State.reset with cores := [(0, { PCore.init 0 with halted := true })], remaps := [(0, 0x8008)] } 0
    ∧ tilesQuiet { PCore.init 0 with res := { tiles := [(0, 0x10000)] } } = false :=
  ⟨by decide +kernel, by decide +kernel, by decide +kernel, by decide +kernel, by decide +kernel, by decide +kernel, by decide +kernel,
   ⟨by decide +kernel, by decide +kernel, ⟨by decide +kernel, rfl⟩, rfl⟩, by decide +kernel⟩

/-- The job of `carded` with its command blocks after its cards. -/
def cardJob : Job := { Job.zero with record := Job.zero.record ||| BitVec.ofNat 512 (2 ^ 40 + 64 * 2 ^ 384) }

/-- An instance of one card. -/
def cardGraph (timeMet predMet : List Nat) : Graph :=
  { inst := 1, gen := 7, job := 0, cards := [0], topen := 0, count := 2, timeMet := timeMet, predMet := predMet }

/-- The card at the start of main memory, of an instance whose card 0 has its predecessor's completion. -/
def cardAt (c : V512) (timeMet predMet : List Nat) : State :=
  { carded with
    mem := cellsAt 0 (natBytes 64 c.toNat) ++ cellsAt 64 (natBytes 64 (frameOf 0).toNat), input := { n := 7 * 256 + 1, k := 0 }, plumb := 213, jobs := [cardJob]
    graphs := [cardGraph timeMet predMet] }

/-- OFFSET 1 ends 256 periods of 1.2 GHz after the opening: ⌈213.3⌉ = 214 ns. -/
theorem witness_JobCards :
    let c := BitVec.ofNat 512 (1 * 2 ^ 72 + 0xFFF * 2 ^ 60 + 0xFFFF * 2 ^ 44 + 4 * 2 ^ 37 + 1 * 2 ^ 35 + 0xFF * 2 ^ 24)
    let s := cardAt c [] [0]
    CardDue s (cardGraph [] [0]) cardJob ∧ (cardGraph [] [0]).topen + (bits c 95 72 * 256 * (cardGraph [] [0]).fccTicks + 23) / 24 = 214
    ∧ (readRecord s 0 (cardAddr cardJob 0)).1 = some c ∧ s.plumb = 213 ∧ cardBad c = false ∧ bits c 36 35 = 1
    ∧ bits c 39 37 = 4 ∧ bits c 71 60 = 0xFFF :=
  ⟨⟨⟨by decide +kernel, rfl⟩, ⟨by decide +kernel, by decide +kernel⟩, by decide +kernel, fun _ h => nomatch h⟩, by decide +kernel, by decide +kernel, rfl,
   by decide +kernel⟩

/-- A card of KIND 0 for core 0 with its frame as command block; a card whose reserved bit is set. -/
theorem witness_JobCards_task :
    let c := BitVec.ofNat 512 (0xFFF * 2 ^ 60 + 0xFFFF * 2 ^ 44)
    let s := cardAt c [] [0]
    let w := readRecord s 0 (cardAddr cardJob 0)
    w.1 = some c ∧ cardBad c = false ∧ bits c 36 35 = 0 ∧ bits c 39 37 = 0 ∧ bits c 31 24 = 0 ∧ cardBad (c ||| 1) = true
    ∧ (readRecord w.2 0 (cmdAddr cardJob 0)).1 = some (frameOf 0) ∧ frNeed (frameOf 0) = 0
    ∧ cardCoreOk w.2 cardJob 0 = true ∧ freeSeq (getCore w.2 (physOf w.2 0)) = some 0 := by decide +kernel

/-! ### The Mortar unit -/

/-- A job's Mortar whose ring is at the start of main memory; its page translates where `mapped`. -/
def mortared (m : Mortar) (mapped : Bool) : State :=
  { State.reset with
    mortars := [(0, m)], plumb := 1000005, jobs := [{ Job.zero with record := Job.zero.record ||| BitVec.ofNat 512 (7 * 2 ^ 152) }]
    nodes := if mapped then [(0, { tlb := [{ job := 0, va := 0, bits := 12, leaf := 0x3000000000000000 }] })] else [] }

/-- A record of a point 0x100 with its check, the XOR of its other bytes, and its ring of 256 entries at the last one. -/
def goodRecord : BitVec 128 := BitVec.ofNat 128 (0x10 * 2 ^ 120 + 1 * 2 ^ 112 + 0x10 * 2 ^ 92 + 0x10 * 2 ^ 0)

def appended (mode : BitVec 3) (wp rp : BitVec 32) : Mortar := { wptr := wp, rptr := rp, mode := mode, queue := [goodRecord], notedFail := true }

theorem witness_MortarUnit_append :
    (∀ mode wp rp mapped, getMortar (mortared (appended mode wp rp) mapped) 0 = appended mode wp rp)
    ∧ ringWordAt (appended 1 0xFF 0) 0xFF = 0xFF0
    ∧ (let w := writeVirtual (mortared (appended 1 0xFF 0) true) 0 0xFF0 (natBytes 16 goodRecord.toNat)
       w.1.toOption = some () ∧ getMortar w.2 0 = appended 1 0xFF 0)
    ∧ (let w := writeVirtual (mortared (appended 3 0x100 0) true) 0 0 (natBytes 16 goodRecord.toNat)
       w.1.toOption = some () ∧ getMortar w.2 0 = appended 3 0x100 0)
    ∧ 2 ^ (appended 3 0x100 0).lsize.toNat ≤ ((appended 3 0x100 0).wptr - (appended 3 0x100 0).rptr).toNat
    ∧ (let w := writeVirtual (mortared (appended 1 0xFF 0) false) 0 0xFF0 (natBytes 16 goodRecord.toNat)
       w.1.toOption = none ∧ getMortar w.2 0 = appended 1 0xFF 0) :=
  ⟨fun _ _ _ _ => rfl, by decide +kernel⟩

/-- Replay with one record in the ring. -/
def replaying (r : BitVec 128) : State := { mortared { wptr := 1, mode := 2 } true with mem := cellsAt 0 (natBytes 16 r.toNat) }

theorem witness_MortarUnit_replay :
    MayFetch { wptr := 1, mode := 2 } ∧ ¬ MayFetch { wptr := 0, mode := 2 }
    ∧ (let w := readVirtual (replaying goodRecord) 0 0 16
       w.1.toOption = some (natBytes 16 goodRecord.toNat, false) ∧ getMortar w.2 0 = { wptr := 1, mode := 2 })
    ∧ CheckHolds goodRecord ∧ ¬ CheckHolds (goodRecord ^^^ 1)
    ∧ (let m : Mortar := { wptr := 1, mode := 2, handed := [(0, goodRecord)], since := [(0x100, 5)] }
       handedTo m 0x100 = [goodRecord] ∧ agentFrozen (mortared m true) 0 (recAgent goodRecord) = false ∧ mget m.since 0x100 = some 5
       ∧ 5 + (if m.divto = 0 then 1000000 else m.divto.toNat * 1000) = (mortared m true).plumb) :=
  ⟨⟨⟨rfl, rfl⟩, by decide, by decide⟩, fun h => absurd h.left.1 (by decide), by decide +kernel, by unfold CheckHolds; decide +kernel, by unfold CheckHolds; decide +kernel, by decide +kernel⟩

/-! ### Engines -/

/-- A job of one element on K = 32 terms of core 0, that writes no output. -/
def smallMx : MxJob := { id := 5, job := 0, slot := 0, blk := BitVec.ofNat 512 (32 * 2 ^ 176 + 63 * 2 ^ 144 + 63 * 2 ^ 138), fmt := 0, frm := 0, epi := 0, decay := 0 }

/-- Core 0 with the job and streams of `n` bytes; the arbiter of cluster 0 with `grant`. -/
def matrix (j : MxJob) (n : Nat) (grant : Option (Nat × BitVec 32)) : State :=
  { State.reset with
    cores := [(0, { PCore.init 0 with wide := { mxq := [j] }, fifoA := List.replicate n 1, fifoB := List.replicate n 1 })]
    clusters := [(0, { getCluster State.reset 0 with grant := grant })] }

/-- The job once granted, with the accumulator tile that it read; and with none, which fails its check. -/
def grantedMx (c0 : List (BitVec 32)) : MxJob := { smallMx with granted := true, c0 := c0 }

/-- The check of the granted job's tile, and whether its vectors and chunks then go through. -/
def mxChecked (c0 : List (BitVec 32)) : Option (List (BitVec 32)) × State :=
  checkedTile (charge (matrix (grantedMx c0) 64 (some (0, 5))) 0 (mbSteps smallMx.blk 0 * scaledEnergy (matrix (grantedMx c0) 64 (some (0, 5))) 0 20300000))
    0 (grantedMx c0)
def mxGoes (j : MxJob) : Bool :=
  match readVectors (mxChecked [0]).2 0 j with
  | .ok (b, c) v =>
    let chunks := (outputChunks (getCore v 0) j [0] b c).1
    (match writeChunks (mxEng 0 j) (perturbedChunk j) chunks v with
      | .all w => decide (chunks = []) && decide (Memory.wf (getCore w 0).wide.acc)
      | _ => false)
  | _ => false

/-- The one head of a cluster with the first step of its streams; the whole spans of the granted job, its tile and its failure. -/
theorem witness_MatrixEngine :
    (OnlyEligible (matrix smallMx 64 none) 0 0 smallMx ∧ (matrix smallMx 64 none).input.n = 0)
    ∧ Granted (matrix (grantedMx [0]) 64 (some (0, 5))) 0 0 (grantedMx [0]) ∧ Granted (matrix (grantedMx []) 64 (some (0, 5))) 0 0 (grantedMx [])
    ∧ (mxChecked [0]).1 = some [0] ∧ mxGoes (grantedMx [0]) = true ∧ (mxChecked []).1 = none := by
  refine ⟨⟨⟨by decide +kernel, rfl, ⟨[], rfl⟩, ?_, ⟨rfl, rfl, by decide +kernel⟩, by decide +kernel, ⟨by decide +kernel, by decide +kernel⟩, by decide +kernel, rfl, by decide +kernel⟩, rfl⟩,
    ⟨⟨by decide +kernel, rfl, by decide +kernel⟩, by decide +kernel, by decide +kernel, by decide +kernel⟩,
    ⟨⟨by decide +kernel, rfl, by decide +kernel⟩, by decide +kernel, by decide +kernel, by decide +kernel⟩, by decide +kernel, by decide +kernel, by decide +kernel⟩
  intro q hq hne
  have hq8 : q < 8 := by omega
  revert hne hq
  revert q
  decide +kernel

/-- Row 0 of a job that writes 16-bit elements to the own local store at 0x40. -/
def outMx : MxJob := { grantedMx [0] with epi := 0x8000, blk := smallMx.blk ||| BitVec.ofNat 512 (0xFF00000000000040 * 2 ^ 256 + 1 * 2 ^ 208) }

theorem witness_MatrixEngine_chunks :
    let s := matrix outMx 64 (some (0, 5))
    let s' := charge s 0 (mbSteps outMx.blk 0 * scaledEnergy s 0 20300000)
    (match (checkedTile s' 0 outMx).1, readVectors (checkedTile s' 0 outMx).2 0 outMx with
      | some [0], .ok (b, c) v =>
        let chunks := (outputChunks (getCore v 0) outMx [0] b c).1
        (match writeChunks (mxEng 0 outMx) (perturbedChunk outMx) chunks v with
          | .all w => decide (chunks = [(0xFF00000000000040, [(0, false), (0, false)])]) && decide (Memory.wf (getCore w 0).wide.acc)
            && !savedFor s 0 0 && (getCore v 0).waits.isEmpty && decide (Memory.wf (getCore v 0).res.ls)
          | _ => false)
      | _, _ => false) = true ∧ LocalChunk (0xFF00000000000040, [(0, false), (0, false)]) :=
  ⟨by decide +kernel, 0x40, by decide, by decide⟩

/-- A chunk of 64 bytes for the first page that has failed once. -/
def failedMx : MxJob := { grantedMx [0] with tile := [0], rest := [(0, List.replicate 64 (1, false))] }

def failedState : State := { matrix failedMx 64 (some (0, 5)) with nodes := carded.nodes }

theorem witness_MatrixEngine_chunk :
    Granted failedState 0 0 failedMx ∧ Memory.wf (getCore failedState 0).wide.acc
    ∧ (match writeChunks (mxEng 0 failedMx) none failedMx.rest (mxRecord failedState 0 failedMx 0x02 1 0) with
      | .all w => decide (Memory.wf (getCore w 0).wide.acc)
      | _ => false) = true :=
  ⟨⟨⟨by decide +kernel, rfl, by decide +kernel⟩, by decide +kernel, by decide +kernel, by decide +kernel⟩, by decide +kernel, by decide +kernel⟩

/-- A transfer of 64 bytes of KIND `kind` from the local store of core 0 to address 0x40. -/
def transfer (kind : Nat) (started : Bool) (todo : List Packet) : Xfer :=
  { id := 9, job := 0, slot := 0, started := started, todo := todo
    regs := [0xFF00000000000000, if kind = 0 then 0x40 else 0, 64, 0, BitVec.ofNat 64 (kind * 2 ^ 48), 0, 0, 0] }

def hods (x : Xfer) (net : List Msg) : State :=
  { State.reset with cores := [(0, { PCore.init 0 with hodq := [x] })], net := net, nodes := carded.nodes }

def onePacket : Packet := { index := 0, src := 0xFF00000000000000, dst := 0x40, len := 64 }

/-- A transfer that has not started, and one with a packet to issue. -/
theorem witness_HodTransfers :
    (let x := transfer 0 false []
     hodHead (getCore (hods x []) 0) = some x ∧ findXfer (hods x []) 0 9 = some x ∧ mayBegin (hods x []) 0 0 (x.tilesW ++ x.tilesR) = true
      ∧ footFree (hods x []) (hodFootprint 0 x) = true ∧ tilesAre (hods x []) 0 0 x.tilesW 0 = true ∧ hdKind x.regs = 0)
    ∧ Runs (hods (transfer 1 true [onePacket]) []) 0 (transfer 1 true [onePacket])
    ∧ (match engRead (hods (transfer 1 true [onePacket]) []) (hodEng 0 (transfer 1 true [onePacket])) 0xFF00000000000000 64 with
      | .ok _ w => decide (findXfer w 0 9 = some (transfer 1 true [onePacket])) && decide (w.net = [])
      | _ => false) = true
    ∧ (∀ q, q < 8 → q ≠ 0 → (getCore (hods (transfer 1 true [onePacket]) []) q).hodq = []) :=
  ⟨by decide +kernel,
   ⟨by decide +kernel, rfl, by decide +kernel⟩, by decide +kernel, by decide +kernel⟩

/-- The transfer with its packet on its way; and once it is performed. -/
def flying (kind : Nat) : State :=
  hods { transfer kind true [] with flying := 1 } [.packet 0 9 0 onePacket (List.replicate 64 (7, false))]

theorem witness_HodTransfers_perform :
    (∀ kind, kind ≤ 2 → (flying kind).net[(flying kind).input.n]? = some (.packet 0 9 0 onePacket (List.replicate 64 (7, false)))
      ∧ physOf (flying kind) 0 = 0 ∧ findXfer (flying kind) 0 9 = some { transfer kind true [] with flying := 1 }
      ∧ packetBehind (flying kind) 0 0 { transfer kind true [] with flying := 1 } onePacket = false
      ∧ packetRepeat (flying kind) 0 { transfer kind true [] with flying := 1 } onePacket = false ∧ hdCnt (transfer kind true []).regs = false
      ∧ hdKind (transfer kind true []).regs = kind)
    ∧ fifoUsed (flying 1) (0 / 8) false + 64 ≤ 262144 ∧ fifoUsed (flying 2) (0 / 8) true + 64 ≤ 262144
    ∧ (match engWrite { flying 0 with net := [] } (hodEng 0 { transfer 0 true [] with flying := 1 }) 0x40 (List.replicate 64 (7, false))
          (hdRcnt (transfer 0 true []).regs) with
      | .ok _ w => decide (findXfer w 0 9 = some { transfer 0 true [] with flying := 1 })
      | _ => false) = true
    ∧ endable (hods (transfer 1 true []) []) 0 = some (transfer 1 true []) ∧ (transfer 1 true []).failed = false :=
  ⟨by decide +kernel, by decide +kernel, by decide +kernel, by decide +kernel, by decide +kernel, rfl⟩

/-- Job 5 of one cluster; all its cores contribute, in two columns, one with poison. -/
def contribution (p : Nat) : Contribution :=
  { job := 5, val := BitVec.ofNat 512 p, op := .addI32, psn := decide (p = 7), key := 0, time := 0, tree := [[0, 1, 2, 3], [4, 5, 6, 7]] }

theorem witness_Reductions :
    let s : State := { State.reset with
      input := { n := 5 }, jobs := [rtJob .opened]
      cores := (List.range 8).map fun p => (p, { PCore.init p with contribs := [contribution p] }) }
    findJob s 5 = some (rtJob .opened) ∧ firstContribution s 5 = some (contribution 0)
    ∧ ((contribution 0).tree.map fun col => col.map fun lc => physOf s lc) = [[0, 1, 2, 3], [4, 5, 6, 7]]
    ∧ (∀ p, p < 8 → (getCore s p).contribs.find? (fun x => x.job = 5) = some (contribution p) ∧ (contribution p).op = .addI32) := by
  refine ⟨by decide +kernel, by decide +kernel, by decide +kernel, by decide +kernel⟩

/-- A warp of 16 by 4 pixels of a frame in the first page, in the queue or on its engine. -/
def warp (retried : Bool) : Vision := { inst := 7 * 256 + 1, card := 0, job := 0, blk := BitVec.ofNat 512 (3 * 2 ^ 30), retried := retried }
def visions (v : Vision) (busy : Bool) : State :=
  { carded with input := { n := 6 }, visionQ := if busy then [] else [(3, [v])], engines := if busy then [(6, v)] else [] }
def goesOn {α : Type} (x : EngAns α) : Bool := match x with | .ok _ _ => true | _ => false

theorem witness_VisionEngines :
    mget (visions (warp false) false).engines 6 = none ∧ nextVision (visions (warp false) false) 6 = some (warp false)
    ∧ goesOn (runPassOne { visions (warp false) false with visionQ := [(3, [])], engines := [(6, warp false)] } 6 (warp false) true) = true
    ∧ mget (visions (warp false) true).engines 6 = some (warp false)
    ∧ nextVision { visions (warp false) true with engines := [] } 6 = none
    ∧ (match runPassTwo (visions (warp false) true) 6 (warp false) with
      | .ok true u => decide ((findGraph u (7 * 256 + 1)).map (fun g => g.st) = some .running)
      | _ => false) = true
    ∧ goesOn (runPassOne { visions (warp false) true with engines := [(6, warp true)] } 6 (warp true) false) = true
    ∧ (findGraph (visions (warp true) true) (7 * 256 + 1)).map (fun g => g.st) = some .running := by
  decide +kernel

/-- Rows that differ from those of pass 1. -/
theorem witness_VisionEngines_changed :
    let v := { warp false with rows := [1], cells := [{ ref := true }] }
    (match runPassTwo (visions v true) 6 v with
      | .ok false x => match mget x.engines 6 with
        | some y => !y.retried && goesOn (runPassOne (charge { x with engines := mset x.engines 6 { y with retried := true } } y.job (visionEnergy y)) 6 { y with retried := true } false)
        | none => false
      | _ => false) = true := by decide +kernel

/-! ### Frames in and out, the pair link -/

/-- A tagged frame with sequence number 9 and four bytes from its EtherType on. -/
def ethFrame : List Byte := [0, 0, 0, 0, 0, 5, 0, 0, 0, 0, 0, 0, 0x81, 0, 0, 7, 0xF1, 0xC1, 0, 0, 0, 9, 8, 0, 1, 2]

/-- Input gate 63 on port 7 that takes the frame, with replication, MAXSDU `sdu` and CIR `cir`; its job is 64. -/
def inputGate (sdu cir : Nat) : V512 :=
  BitVec.ofNat 512 (2 ^ 195 + 2 ^ 205 + sdu * 2 ^ 206 + cir * 2 ^ 236 + 4 * 2 ^ 326 + 64 * 2 ^ 337 + 0xFFFF * 2 ^ 352 + 2 ^ 384 + 7 * 2 ^ 388 + 5 * 2 ^ 400)

def framed (x : Gate) (link : Bool) : State :=
  { State.reset with
    input := { n := 7, bytes := ethFrame }, gates := [(63, x)], jobs := [{ rtJob .opened with id := 64 }], pair := { link := link } }

theorem witness_Ingress :
    (∀ sdu cir rec link, sdu ≤ 4 → cir ≤ 1 → rec = none ∨ rec = some (9, 1) →
      gateOfFrame (framed { entry := inputGate sdu cir, recov := rec } link) 7 (parseEth ethFrame) = some 63)
    ∧ (parseEth ethFrame).seq = some 9 ∧ (parseEth ethFrame).body.length = 4 ∧ gtMaxSdu (inputGate 4 0) = 4 ∧ gtMaxSdu (inputGate 3 0) = 3
    ∧ gtCb (inputGate 4 0) = true ∧ (recover none 9).1 = true ∧ gtCir (inputGate 4 1) ≠ 0 ∧ gtCir (inputGate 4 0) = 0 ∧ gtKind (inputGate 4 0) = 0
    ∧ bucket { entry := inputGate 4 1 } 0 < ethFrame.length * 8000000000
    ∧ (findJob (framed {} false) 64).isSome = true ∧ findJob { framed {} false with jobs := [] } 64 = none
    ∧ gateOfFrame (framed {} false) 7 (parseEth ethFrame) = none := by
  refine ⟨?_, by decide +kernel⟩
  intro sdu cir rec link hs hc hr
  have : sdu = 0 ∨ sdu = 1 ∨ sdu = 2 ∨ sdu = 3 ∨ sdu = 4 := by omega
  have : cir = 0 ∨ cir = 1 := by omega
  rcases ‹sdu = 0 ∨ _› with rfl | rfl | rfl | rfl | rfl <;> rcases ‹cir = 0 ∨ _› with rfl | rfl <;> rcases hr with rfl | rfl <;> cases link <;> decide +kernel

/-- A camera gate that lands at the start of memory, with an ended block. -/
def camera : State :=
  { carded with
    input := { n := 63 }, jobs := [{ Job.zero with id := 64 }], nodes := [(0, { tlb := [{ job := 64, va := 0, bits := 12, leaf := 0x3000000000000000 }] })]
    gates := [(63, { entry := BitVec.ofNat 512 (2 ^ 195 + 2 * 2 ^ 196 + 0xFFFF * 2 ^ 352)
                     ended := [{ buf := 0, id := 1, tarr := 5, stamp := 0, width := 16, height := 4 }] })] }

theorem witness_Ingress_camera :
    (match engWrite (updGate camera 63 fun x => { x with ended := [] }) (ingressEng 63) 0
        (clean (natBytes 64 (landHeader 63 { buf := 0, id := 1, tarr := 5, stamp := 0, width := 16, height := 4 }).toNat)) with
      | .ok () w => decide (getGate w 63 = { getGate camera 63 with ended := [] })
      | _ => false) = true ∧ gtCard (getGate camera 63).entry = 0xFFFF
    ∧ bufAddr (getGate camera 63).entry 0 = 0 := by decide +kernel

/-- Output gate 63 at the last image entry of 64 bytes, OFRZ 1 and OTX 3 µs, on port 7; the third scan runs. -/
def sending (time : Nat) (frozen written : Bool) : State :=
  { State.reset with
    input := { n := 63, k := 7 }, jobs := [{ rtJob .opened with id := 64 }], scans := 3, stamp := 2, period := 50, plumb := time, run := true
    gates := [(63, { entry := BitVec.ofNat 512 (2 ^ 195 + 2 ^ 196 + 2 ^ 205 + 1 * 2 ^ 286 + 3 * 2 ^ 306 + 64 * 2 ^ 326 + 16383 * 2 ^ 337), frozen := frozen })]
    ports := [(7, { gcl := [0xFF000000000061A8, 0x61A8], cur := 1 })]
    image := if written then [⟨0x400000 + 0x40 + 4 * 63, 2⟩] else [] }

theorem witness_Outputs :
    OutputGate (sending 101000 false true) 63 ∧ scanTime (sending 101000 false true) = 100000 ∧ gtOfrz (getGate (sending 101000 false true) 63).entry = 1
    ∧ imageWord (sending 101000 false true) (halfNow (sending 101000 false true) + 0x40 + 4 * 63) = 2
    ∧ poisonRead 8 (sending 101000 false true).imagePoison (halfNow (sending 101000 false true) + 16383 * 64) 64 = false
    ∧ imageWord (sending 101000 false false) (halfNow (sending 101000 false false) + 0x40 + 4 * 63) ≠ 2 ∧ Memory.wf (sending 101000 false false).image
    ∧ 16383 * 64 + gtIlen (getGate (sending 101000 false false) 63).entry ≤ 0x100000
    ∧ OutputGate (sending 103000 true true) 63 ∧ (getGate (sending 103000 true true) 63).frozen = true ∧ 7 ∉ (getGate (sending 103000 true true) 63).sent
    ∧ tbit (getGate (sending 103000 true true) 63).entry (198 + 7) = true ∧ gtOtx (getGate (sending 103000 true true) 63).entry = 3
    ∧ classOpen { sending 103000 true true with ports := [(7, { gcl := [0xFF000000000061A8, 0x61A8] })] } 7 0 = true
    ∧ classOpen (sending 103000 true true) 7 0 = false ∧ (mget (sending 103000 true true).ports 7).map (fun q => (q.cur + 1) % q.gcl.length) = some 0 :=
  ⟨⟨by decide +kernel, by decide +kernel⟩, by decide +kernel, by decide +kernel, by decide +kernel, by decide +kernel, by decide +kernel,
   by decide +kernel, by decide +kernel, ⟨by decide +kernel, by decide +kernel⟩, by decide +kernel⟩

/-- A pair in a role, coupled or not; an output gate without OPFX stands in the way of pairing. -/
theorem witness_PairLink :
    (State.reset.arbWait = [] ∧ ∀ g, g < 64 → ¬ (gtV (getGate State.reset g).entry = true ∧ gtKind (getGate State.reset g).entry = 1
      ∧ gtOpfx (getGate State.reset g).entry = false))
    ∧ (gtV (getGate (sending 0 false true) 63).entry = true ∧ gtKind (getGate (sending 0 false true) 63).entry = 1
      ∧ gtOpfx (getGate (sending 0 false true) 63).entry = false)
    ∧ (∀ r, Msg.req 0x500 r ∉ State.reset.net)
    ∧ ({ State.reset with pair := { role := 2, link := true, lastFlit := 5 }, plumb := 2005 } : State).pair.lastFlit + 2000 ≤ 2005
    ∧ bits (0x0000FFFFFFFFFFFF : Word) 63 48 = 0 :=
  ⟨⟨rfl, by decide +kernel⟩, ⟨by decide +kernel, by decide +kernel, by decide +kernel⟩, (fun _ h => nomatch h), by decide, by decide⟩

/-! ### Clocks, droop, heat -/

/-- Cluster 23 as `c`, which the step's input names. -/
def clocked (c : Cluster) (flag : Bool) : State := { State.reset with clusters := [(23, c)], input := { n := 23, flag := flag } }

/-- A change from 1 to 2 that may start, one in progress whose cores have stopped, and whose cores run; a step's first and second failure. -/
theorem witness_OperatingPoints :
    MayChange (clocked { getCluster State.reset 23 with req := 2 } false) 23
    ∧ ¬ MayChange (clocked { getCluster State.reset 23 with rfail := true } false) 23
    ∧ (getCluster State.reset 23).cur = 1 ∧ (getCluster State.reset 23).forced = false ∧ (getCluster State.reset 23).droop = false
    ∧ (∀ p, p / 8 = 23 → (getCore { clocked { getCluster State.reset 23 with busy := true } true with
        cores := (List.range 8).map fun k => (184 + k, { PCore.init (184 + k) with halted := true }) } p).halted = true)
    ∧ (getCore (clocked { getCluster State.reset 23 with busy := true } true) 184).halted = false ∧ 184 / 8 = 23
    ∧ (getCluster (clocked { getCluster State.reset 23 with busy := true, tries := 1 } false) 23).tries ≠ 0 := by
  refine ⟨⟨by decide +kernel, by decide +kernel, (fun _ h => nomatch h), (fun _ h => nomatch h), ?_⟩, fun h => absurd h.idle.2.2 (by decide +kernel),
    by decide +kernel, by decide +kernel, by decide +kernel, ?_, by decide +kernel, by decide, by decide +kernel⟩
  · intro j hj ho
    rcases List.mem_singleton.mp hj with rfl
    exact absurd ho (by decide)
  · intro p hp
    have h : p < 192 := by omega
    have : ∀ q, q < 192 → q / 8 = 23 → (getCore { clocked { getCluster State.reset 23 with busy := true } true with
        cores := (List.range 8).map fun k => (184 + k, { PCore.init (184 + k) with halted := true }) } q).halted = true := by decide +kernel
    exact this p h hp

/-- DINJ at its limit; the third and the fourth limit in a row. -/
theorem witness_Droop :
    (getCluster (clocked { getCluster State.reset 23 with dinj := 255 } false) 23).droop = false
    ∧ (getCluster (clocked { getCluster State.reset 23 with dinj := 255 } false) 23).busy = false
    ∧ (let c := getCluster (clocked { getCluster State.reset 23 with droop := true, inj := true, limited := 2 } false) 23
       c.droop = true ∧ c.inj = true ∧ c.limited < 3)
    ∧ (let c := getCluster (clocked { getCluster State.reset 23 with droop := true, inj := true, limited := 3 } false) 23
       c.inj = true ∧ 3 ≤ c.limited ∧ c.cur ≠ 0 ∧ c.busy = false) := by
  exact ⟨rfl, rfl, ⟨rfl, rfl, by decide +kernel⟩, rfl, by decide +kernel⟩

/-- The counter just under its limit and at it; a cluster whose clock stands. -/
theorem witness_Droop_limit :
    let c := getCluster State.reset 23
    let used := fun (k : Nat) => closedCc (clocked c false) { c with droop := true, inj := true, closed := [(0, k)] }
    used 60 + 3 < 64 ∧ 64 ≤ used 60 + 4 ∧ 64 ≤ used 64
    ∧ clockStopped (clocked c false) 23 = false ∧ 23 < 24
    ∧ clockStopped { clocked { c with busy := true } false with
        cores := (List.range 8).map fun k => (184 + k, { PCore.init (184 + k) with halted := true }) } 23 = true := by
  decide +kernel

theorem witness_OperatingPoints_first :
    (let c := getCluster (clocked { getCluster State.reset 23 with busy := true } false) 23
     c.busy = true ∧ c.tries = 0 ∧ c.droop = false) := by decide +kernel

theorem witness_Droop_open :
    let c := getCluster State.reset 23
    c.inj = false ∧ closedCc (clocked c false) c < 64
    ∧ (let d := { c with droop := true, inj := true, closed := [(0, 64)] }
       d.inj = true ∧ closedCc (clocked d false) d ≤ 64 ∧ clockStopped (clocked d false) 23 = false)
    ∧ (let d := { c with droop := true, closed := [(0, 63)] }
       d.inj = false ∧ closedCc (clocked d false) d < 64) := by decide +kernel

/-- Cores 1 to 191 at 96 °C. -/
def warm : Map PCore := (List.range 191).map fun k => (k + 1, { PCore.init (k + 1) with temp := 96 })

/-- Core 0, as `c` but for its Active or Frozen slot, is sampled at `x`; its cluster is at point `cur`. -/
def sampled (x : Nat) (c : PCore) (sl : Slot) (cur : BitVec 2) : State :=
  { State.reset with
    input := { pairs := [(0, x)] }, cores := (0, { c with res := { slots := [(0, sl)] } }) :: warm
    clusters := [(0, { getCluster State.reset 0 with cur := cur })] }

theorem warm_cores : ∀ r < 192, r ≠ 0 → (mget warm r).map (fun c => (c.temp, c.thermFrozen)) = some (96, false) := by decide +kernel

theorem warm_other (l : Map PCore) (h : ∀ e ∈ l, e.1 < 192) (r : Nat) (hr : ¬ r < 192) : mget l r = none := by
  induction l with
  | nil => rfl
  | cons e l ih =>
    have he := h e (.head _)
    simp only [mget]
    rw [if_neg (by omega)]
    exact ih fun e h' => h e (.tail _ h')

/-- One sample of a core that is alone, at each of its limits; and one that may move to core 1. -/
theorem witness_ThermalSamples (x : Nat) (c : PCore) (sl : Slot) (cur : BitVec 2) :
    OneSample (sampled x c sl cur) 0 x ∧ (∀ q, ¬ CoolIdle (sampled x c sl cur) 0 q) ∧ (∀ m ∈ (sampled x c sl cur).migrations, m.1 ≠ 0)
    ∧ (getCluster (sampled x c sl cur) 0).cur = cur ∧ getCore (sampled x c sl cur) 0 = { c with res := { slots := [(0, sl)] } } := by
  have temp : ∀ r, r ≠ 0 → (getCore (sampled x c sl cur) r).temp ≤ 105 ∧ (getCore (sampled x c sl cur) r).thermFrozen = false
      ∧ (r < 192 → (getCore (sampled x c sl cur) r).temp = 96) := by
    intro r h
    have hg : getCore (sampled x c sl cur) r = (mget warm r).getD (PCore.init r) := by
      simp [getCore, sampled, mget, Ne.symm h]
    rw [hg]
    by_cases hr : r < 192
    · obtain ⟨d, hd, he⟩ := Option.map_eq_some_iff.mp (warm_cores r hr h)
      rw [hd]
      obtain ⟨h1, h2⟩ := Prod.mk.inj he
      exact ⟨by show d.temp ≤ 105; omega, h2, fun _ => h1⟩
    · rw [warm_other _ (by decide +kernel) r hr]
      exact ⟨Nat.zero_le _, rfl, fun h => absurd h hr⟩
  refine ⟨⟨⟨by decide, rfl⟩, fun r hr => ⟨(temp r hr).1, (temp r hr).2.1⟩, ?_⟩, fun q h => ?_, (fun _ h => nomatch h), rfl, rfl⟩
  · refine List.pairwise_cons.mpr ⟨?_, (by decide +kernel : (warm.map Prod.fst).Pairwise (· < ·)) |> List.pairwise_map.mp⟩
    exact (by decide +kernel : ∀ e ∈ warm, 0 < e.1)
  · have := (temp q h.sample.2.1).2.2 h.sample.1
    have := h.sample.2.2
    omega

/-- Core 1 is cool and idle and comes first for core 0. -/
theorem witness_ThermalSamples_idle :
    let s : State := { State.reset with input := { pairs := [(0, 106)] } }
    OneSample s 0 106 ∧ CoolIdle s 0 1 ∧ ∀ r, CoolIdle s 0 r → r ≠ 1 → ComesBefore 0 1 r := by
  intro s
  refine ⟨⟨⟨by decide, rfl⟩, fun r _ => ⟨Nat.zero_le _, rfl⟩, by decide⟩, ⟨by decide +kernel, by decide +kernel, ?_, by decide +kernel, by decide +kernel⟩,
    fun r h hr => ?_⟩
  · rintro _ x (rfl | hx) e he
    · have h0 : (getCore s (stateCore s 1)).res.slots = [] := by decide +kernel
      exact absurd (h0 ▸ he) (by simp)
    · have h0 : (getCore s (stateCore s 1)).sav = none := by decide +kernel
      exact absurd (h0.symm.trans hx) (by simp)
  · have : ∀ r < 192, r ≠ 0 → r ≠ 1 → (let far := fun (c : Nat) => if c / 8 = 0 / 8 then 0 else 1
      far 1 < far r ∨ (far 1 = far r ∧ (meshDist 0 1 < meshDist 0 r ∨ (meshDist 0 1 = meshDist 0 r ∧ 1 < r)))) := by decide +kernel
    exact this r h.sample.1 h.sample.2.1 hr

/-- A migration from core 0 to core 1, both stopped or not; energy of two jobs; a ballast step of cluster 0 in an Open phase. -/
def moving (halted : Bool) : State :=
  { State.reset with
    migrations := [(0, 1)], cores := [(0, { PCore.init 0 with halted := halted }), (1, { PCore.init 1 with halted := halted })] }

theorem witness_HeatAndEnergy :
    moveReady (moving true) 0 = true ∧ moveReady (moving true) 1 = true ∧ moveReady (moving false) 0 = false ∧ (moving true).input.n = 0
    ∧ (getCluster (moving true) 0).busy = false ∧ tilesQuiet (getCore (moving true) 0) = true ∧ tilesQuiet (getCore (moving true) 1) = true
    ∧ (([(0, 999999), (5, 1000000)] : Map Nat).map Prod.fst).Nodup
    ∧ ({ getCluster State.reset 0 with bramp := 1 } : Cluster).bramp.toNat ≠ 0 ∧ (getCluster State.reset 0).grant = none
    ∧ (getCluster State.reset 0).powered = true ∧ (getCluster State.reset 0).ballast < 1000 * 1
    ∧ jobHolds State.reset (rtJob .opened) 0 = true ∧ (rtJob .opened).phase = .opened ∧ jobHolds State.reset (rtJob .opened) 1 = false :=
  ⟨by decide +kernel, by decide +kernel, by decide +kernel, rfl, by decide +kernel, by decide +kernel, by decide +kernel, by decide, by decide +kernel,
   by decide +kernel, by decide +kernel, by decide +kernel, by decide +kernel, rfl, by decide +kernel⟩

/-! ### Errors, retirement, containment -/

theorem witness_ErrorRing :
    bits (BitVec.ofNat 256 (191 * 2 ^ 40)) 51 40 < 192 ∧ State.reset.elost ≠ BitVec.allOnes 32
    ∧ (let s : State := { State.reset with ewp := 131072 }
       131072 ≤ (s.ewp - (if s.pcieUp = true ∧ s.ehost.toNat < s.emgt.toNat then s.ehost else s.emgt)).toNat)
    ∧ (let s : State := { State.reset with ewp := 131071 }
       (s.ewp - (if s.pcieUp = true ∧ s.ehost.toNat < s.emgt.toNat then s.ehost else s.emgt)).toNat < 131072) := by decide +kernel

/-- A record that waits, of time `t` and SRC `p`. -/
def waitingRecord (t p : Nat) : BitVec 256 := BitVec.ofNat 256 (t * 2 ^ 192 + p * 2 ^ 40)

/-- The record of the lower SRC behind one of the same time, with a later one after it; the first of two that agree. -/
theorem witness_ErrorRing_order :
    ([waitingRecord 5 9] ++ [waitingRecord 5 3]).head? = some (waitingRecord 5 9)
    ∧ bits (waitingRecord 5 3) 255 192 = bits (waitingRecord 5 9) 255 192 ∧ bits (waitingRecord 5 3) 51 40 < bits (waitingRecord 5 9) 51 40
    ∧ bits (waitingRecord 6 0) 255 192 ≠ bits (waitingRecord 5 9) 255 192 ∧ bits (waitingRecord 5 3) 51 40 < 192 := by decide +kernel

/-- Core 191 after a period of 1 µs with one miss; slots Active and Frozen; captured for 1 ms. -/
def beating (misses : Nat) : State :=
  { State.reset with
    input := { n := 191 }, hbper := 1, plumb := 1000
    cores := [(191, { PCore.init 191 with misses := misses, res := { slots := [(0, slot0), (1, { slot0 with st := .frozen, cause := 1 })] } })] }

theorem witness_Heartbeats :
    (beating 1).hbper ≠ 0 ∧ (getCore (beating 1) 191).beatFrom + 1000 * (beating 1).hbper.toNat ≤ (beating 1).plumb
    ∧ (getCore (beating 1) 191).misses = 1 ∧ (getCore (beating 1) 191).beaten = false
    ∧ ¬ ((getCore (beating 1) 191).res.rtJob.isSome = true ∨ coreStopped (getCore (beating 1) 191) = true ∨ (getCluster (beating 1) (191 / 8)).busy = true
      ∨ (∃ m ∈ (beating 1).migrations, m.1 = 191 ∨ m.2 = 191) ∨ (getCore (beating 1) 191).thermFrozen = true ∨ (getCore (beating 1) 191).captured = true)
    ∧ (getCore (beating 1) 191).shadow = []
    ∧ (∀ n < 16, (getSlot (beating 1) 191 n).st = .empty ∨ (getSlot (beating 1) 191 n).st = .active ∨ (getSlot (beating 1) 191 n).st = .frozen)
    ∧ (let s : State := { State.reset with capto := 1, plumb := 1000000, cores := [(191, { PCore.init 191 with captured := true })] }
       (getCore s 191).captured = true ∧ (getCore s 191).dcmdSeen = false ∧ s.capto ≠ 0
        ∧ (getCore s 191).capturedAt + 1000000 * s.capto.toNat ≤ s.plumb ∧ (getCluster s (191 / 8)).crect.getLsbD 16 = false) :=
  ⟨by decide +kernel, by decide +kernel, by decide +kernel, by decide +kernel, by decide +kernel, by decide +kernel, by decide +kernel,
   by decide +kernel⟩

/-- Counts to report of a core and a node; the last word of a share before its task area; a page of node 31 with 2 and 3 wrong symbols. -/
theorem witness_ScrubbingAndCounts :
    (getCore { State.reset with cores := [(191, { PCore.init 191 with corrected := 1 })] } 191).corrected = 1
    ∧ (getNode { State.reset with nodes := [(31, { corrected := 1 })] } 31).corrected = 1 ∧ (0x1FBF8 : Nat) < 0x20000 ∧ (0x1FBF8 : Nat) % 0x2000 < 0x1C00
    ∧ homeNode 0x1FFC0 = 31 ∧ (getNode State.reset 31).retired = [] ∧ (getNode State.reset 31).migration = none
    ∧ State.reset.memPoison.contains (0x1FFC0 / 32) = false ∧ State.reset.memEcc = 0 := by decide +kernel

/-- Counts of a slice and of the image; a word read with no, one and two wrong bits, and again; an entry of a core's TLB. -/
theorem witness_ScrubbingAndCounts_again :
    (getNode { State.reset with nodes := [(31, { sramCorrected := 1 })] } 31).sramCorrected = 1
    ∧ bits (0x0000 : Word) 7 0 = 0 ∧ bits (0x0201 : Word) 7 0 = 1 ∧ bits (0x0102 : Word) 15 8 ≤ 1 ∧ 1 < bits (0x0202 : Word) 15 8 ∧ 1 < bits (0x0202 : Word) 7 0
    ∧ (mget ([(191, [{ job := 0, va := 0, bits := 12, leaf := 0 }])] : Map (List Tlb)) 191).map (fun l => l.length) = some 1
    ∧ (let again := fun (l : List (Nat × Nat)) => decodeBurst 0 (readBurst (burstOf (memBytes [] (32 * (0x1FFC0 / 32)) 32))
        ((l.filter fun x => decide (36 ≤ x.1)).map fun x => (x.1 - 36, x.2)))
       again [(0, 1), (9, 7), (35, 3), (36 + 35, 1)] = .word (List.replicate 32 0) 1
       ∧ again [(0, 1), (9, 7), (35, 3), (36, 1), (45, 7), (71, 3)] = .uncorrectable) := by decide +kernel

/-- One wrong symbol of a burst of zeros is corrected, two are as DMODE 0 allows, three are not and DMODE 3 reads as 0 (R454). -/
theorem test_bursts :
    let seen := fun (m : BitVec 2) (l : List (Nat × Nat)) => decodeBurst m (readBurst (burstOf (memBytes [] 0 32)) l)
    seen 0 [(0, 1)] = .word (List.replicate 32 0) 1 ∧ seen 0 [(0, 1), (35, 7)] = .word (List.replicate 32 0) 2
    ∧ seen 1 [(31, 0x80)] = .word (List.replicate 32 0) 1 ∧ seen 1 [(0, 1), (35, 7)] = .uncorrectable
    ∧ seen 2 [(0, 1)] = .uncorrectable ∧ seen 0 [] = .word (List.replicate 32 0) 0
    ∧ decodeBurst 0 (List.replicate 32 0 ++ [0xA5, 0x00, 0x5A, 0x00]) = .poison := by decide +kernel

/-- The notice of a block, a record of the block, and records at every index. -/
def noticed (rs : List FaultRec) : State := { State.reset with net := [.notice 31 127 0xFFFFFFFFFFFF 1 0 0], faultRecs := rs }
def blockRec : FaultRec := { index := 1023, bits := BitVec.ofNat 256 (0x3FFFFFF * 2 ^ 166 + 127 * 2 ^ 159) }

theorem witness_FaultCollector :
    (noticed []).net[0]? = some (.notice 31 127 0xFFFFFFFFFFFF 1 0 0) ∧ bits blockRec.bits 165 159 = 127
    ∧ bits blockRec.bits 191 166 = 0xFFFFFFFFFFFF / 2 ^ 22 % 2 ^ 26 ∧ (noticed [blockRec]).faultRecs = [] ++ blockRec :: []
    ∧ (∃ i < 1024, ∀ x ∈ (noticed []).faultRecs, x.index ≠ i)
    ∧ (∀ i < 1024, ∃ x ∈ (List.range 1024).map (fun k => ({ index := k, bits := 0 } : FaultRec)), x.index = i)
    ∧ ({ State.reset with refusedNotices := [.notice 0 0 0 1 0 0] } : State).refusedNotices[0]? = some (.notice 0 0 0 1 0 0)
    ∧ bits (BitVec.ofNat 64 (127 * 2 ^ 32 + 0x3FFFFFF)) 38 32 = 127 ∧ bits (BitVec.ofNat 64 (127 * 2 ^ 32 + 0x3FFFFFF)) 25 0 = 0x3FFFFFF :=
  ⟨rfl, by decide +kernel, by decide +kernel, rfl, ⟨0, by decide, fun _ h => nomatch h⟩,
   (fun i hi => ⟨⟨i, 0⟩, List.mem_map.mpr ⟨i, List.mem_range.mpr hi, rfl⟩, rfl⟩), rfl, by decide +kernel, by decide +kernel⟩

/-- A node with 15 and with 16 retired blocks; a migration with one line to copy again. -/
theorem witness_Retirement :
    (let s : State := { State.reset with input := { n := 31, v := BitVec.ofNat 64 (5 * 2 ^ 36 + 0x3FFFF * 2 ^ 18) }
                                         nodes := [(31, { retired := (List.range 15).map fun k => (100 + k, 200 + k) })] }
     ¬ (16 ≤ (getNode s 31).retired.length ∨ (getNode s 31).migration.isSome = true ∨ bits s.input.v 53 36 = bits s.input.v 35 18
      ∨ ∃ e ∈ (getNode s 31).retired, bits s.input.v 53 36 = e.1 ∨ bits s.input.v 53 36 = e.2 ∨ bits s.input.v 35 18 = e.1 ∨ bits s.input.v 35 18 = e.2))
    ∧ 16 ≤ (getNode { State.reset with nodes := [(31, { retired := List.replicate 16 (1, 2) })] } 31).retired.length
    ∧ (getNode { State.reset with nodes := [(31, { migration := some { src := 5, dst := 0x3FFFF, copied := 511, dirty := [511] } })] } 31).migration
      = some { src := 5, dst := 0x3FFFF, copied := 511, dirty := [511] } ∧ (5 : Nat) ≠ 0x3FFFF ∧ Memory.wf State.reset.mem :=
  ⟨by decide +kernel, by decide +kernel, by decide +kernel, by decide, by decide +kernel⟩

/-- The copy ends, its last lines are copied; one source sector cannot be corrected. -/
theorem witness_Retirement_switch :
    (let m : Migration := { src := 5, dst := 0x3FFFF, copied := 510, dirty := [511], switching := true }
     m.src ≠ m.dst ∧ (∀ k ∈ m.dirty, k < 512))
    ∧ ([(510, 3)] : List (Nat × Nat)) = [(510, 3)] ∧ (510 : Nat) < 511 ∧ (3 : Nat) < 4
    ∧ State.reset.memPoison.contains ((5 * 2 ^ 21 + 510 / 32 * 2 ^ 17 + 31 * 2 ^ 12 + 510 % 32 * 128 + 32 * 3) / 32) = false
    ∧ (∀ e ∈ (getNode State.reset 31).sets, ∀ l ∈ e.2, l.line * 128 / 2 ^ 21 % 2 ^ 18 ≠ 0x3FFFF) := by decide +kernel

/-- The default rectangle of cluster 23 holds it alone; fenced or not; a dirty line. -/
theorem witness_Containment :
    bits (BitVec.ofNat 64 (23 * 2 ^ 58)) 62 58 = 23 ∧ inRect (getCluster State.reset 23).crect 23 ∧ ¬ inRect (getCluster State.reset 23).crect 22
    ∧ (getCluster State.reset 23).fenced = false
    ∧ (getCluster { State.reset with clusters := [(23, { getCluster State.reset 23 with fenced := true })] } 23).fenced = true
    ∧ (lineAt (atNode .load { addr := 0, size := 8 } [{ line := 0x1FFC0 / 128, way := 0, data := [], dirty := true }]) (128 * (0x1FFC0 / 128))).map (fun l => l.dirty) = some true
    ∧ homeNode (128 * (0x1FFC0 / 128)) = 31 :=
  ⟨by decide +kernel, by unfold inRect; decide +kernel, by unfold inRect; decide +kernel, by decide +kernel⟩

/-- A store of core 184 that its owner has acknowledged, one held outside and one still inside; no core holds anything of a launch or card. -/
theorem witness_Containment_net :
    let r := { request .store { addr := 0, size := 8 } with src := .slot 184 0 }
    let s : State := { State.reset with
      net := [.req 0x11F { r with tacked := true }, .req 0x11F { r with heldOp := true }, .req 0x11F r], input := { v := BitVec.ofNat 64 (23 * 2 ^ 58) } }
    Msg.req 0x11F { r with tacked := true } ∈ s.net ∧ 184 / 8 = 23 ∧ bits s.input.v 62 58 = 23 ∧ ¬ (0x11F < 192)
    ∧ ∀ k, k < 8 → launchesOn s (184 + k) = [] ∧ graphsOn s (184 + k) = [] :=
  ⟨.head _, by decide, by decide +kernel⟩

/-- Core 184 alone holds a transfer of launch 0, which runs, and one of card instance 0, which runs. -/
def engaged : State :=
  { State.reset with
    input := { v := BitVec.ofNat 64 (23 * 2 ^ 58) }, graphs := [{ inst := 0, gen := 0, job := 0, cards := [0], count := 1, topen := 0 }]
    cores := [(0, { PCore.init 0 with launches := [{ seq := 0, job := 0, count := 1, st := .running }] }),
              (184, { PCore.init 184 with hodq := [{ id := 0, job := 0, slot := 1, regs := [], launch := 0 },
                                                   { id := 1, job := 0, slot := 1, regs := [], card := some (0, 0) }] })] }

theorem witness_Containment_cancel :
    launchesOn engaged 184 = [0] ∧ graphsOn engaged 184 = [0] ∧ (launchRec engaged 0).map (fun r => r.st) = some .running
    ∧ (findGraph engaged 0).map (fun g => g.st) = some .running
    ∧ (∀ k, k < 7 → launchesOn engaged (185 + k) = [] ∧ graphsOn engaged (185 + k) = []) := by decide +kernel

theorem witness_CountersClearOnRead :
    (getMortar { State.reset with mortars := [(127, { ovcnt := 5 })] } 127).ovcnt = 5 ∧ (getCluster State.reset 23).dinj = 0
    ∧ (getGate { State.reset with gates := [(63, { nojob := 7 })] } 63).nojob = 7 := by decide +kernel

/-! ### The debug window and checked pairs -/

/-- Core 191, which the step's input names with index `k`, holds slot 15 as `sl`. -/
def debugged (sl : Slot) (k : Nat) : State :=
  { State.reset with input := { n := 191, k := k }, cores := [(191, { PCore.init 191 with res := { slots := [(15, sl)] } })] }

def frozenSlot (cause : BitVec 4) : Slot := { slot0 with st := .frozen, cause := cause }

/-- WATCH with ACT 3; a stop that arrives; the last word before a task area; the last register of the last slot, Frozen and Active. -/
theorem witness_DebugWindow :
    bits (BitVec.ofNat 64 (3 * 2 ^ 56)) 57 56 = 3 ∧ bits (BitVec.ofNat 64 (2 * 2 ^ 56)) 57 56 ≠ 3 ∧ bits (BitVec.ofNat 64 (2 * 2 ^ 56)) 39 14 = 0
    ∧ ({ State.reset with net := [.watchStop 191 0] } : State).net[0]? = some (.watchStop 191 0)
    ∧ (∀ n < 16, (getSlot (debugged slot0 0) 191 n).st = .empty ∨ (getSlot (debugged slot0 0) 191 n).st = .active ∨ (getSlot (debugged slot0 0) 191 n).st = .frozen)
    ∧ (8 * 0x37F : Nat) % 0x2000 + 8 ≤ 0x1C00 ∧ (getCore (debugged slot0 0) 191).waits = [] ∧ Memory.wf (getCore (debugged slot0 0) 191).res.ls
    ∧ (getSlot (debugged slot0 (0x28000 + 0x800 * 15 + 8 * 31)) 191 15).st ≠ .frozen
    ∧ (getSlot (debugged (frozenSlot 2) (0x28000 + 0x800 * 15 + 8 * 31)) 191 15).st = .frozen
    ∧ (debugged slot0 0x3E57F).input.k < 0x3E580 := by decide +kernel

/-- A stop under way at core 191: its next position comes before the stop's clock, and no earlier. -/
theorem witness_DebugWindow_stop :
    let s := fun (h : Nat) => ({ State.reset with
      net := [.watchStop 191 0], cores := [(191, { PCore.init 191 with stopping := some (h, 0), cc := 16, res := { slots := [(15, slot0)] } })] } : State)
    (getCore (s 0) 191).stopping.isSome = true ∧ (PCore.init 191).stopping = none ∧ mayIssue (s 0) 191 = true ∧ stopAfter (s 0) 191 = 16
    ∧ (nextIssue (getCore (settle (s 0) 191 16) 191)).map (fun x => decide (0 + 16 ≤ x.2.1)) = some true
    ∧ (nextIssue (getCore (settle (s 20) 191 16) 191)).map (fun x => decide (x.2.1 < 20 + 16)) = some true := by decide +kernel

/-- Slots with each CAUSE from 0 to 6, of a launch with two tasks. -/
theorem witness_DebugCommands :
    (debugged (frozenSlot 2) 15).mortars = [] ∧ (getCore (debugged (frozenSlot 2) 15) 191).coreFault = false
    ∧ (getSlot (debugged (frozenSlot 2) 15) 191 15).st = .frozen ∧ (getSlot (debugged (frozenSlot 2) 15) 191 15).cause = 2
    ∧ (getSlot (debugged (frozenSlot 3) 15) 191 15).cause = 3 ∧ (getSlot (debugged (frozenSlot 1) 15) 191 15).cause = 1
    ∧ (getSlot (debugged (frozenSlot 5) 15) 191 15).cause = 5 ∧ (getSlot (debugged (frozenSlot 6) 15) 191 15).cause = 6
    ∧ (getSlot (debugged slot0 15) 191 15).cause = 0 ∧ (getCore (debugged (frozenSlot 1) 15) 191).killed = 0
    ∧ (launchRec { debugged (frozenSlot 1) 15 with cores := (0, { PCore.init 0 with launches := [{ seq := 0, job := 0, count := 2 }] }) :: (debugged (frozenSlot 1) 15).cores } 0).map
      (fun r => (r.st, r.count)) = some (.running, 2) := by decide +kernel

/-- The last pair: its shadow core is named by no entry, its lead's job records. -/
def pairUp (q : Pair) (lead : PCore) (flag : Bool) : State :=
  { owned with
    input := { n := 95, k := 15, flag := flag }, pairChk := [(95, q)], cores := [(190, lead)], lpct := [(191, 0)]
    jobs := [{ Job.zero with record := 0xffffff000101ffff00000020000000#512 }], mortars := [(0, { mode := 1 })] }

theorem witness_PairedCores :
    MayBeCoupled (pairUp {} (PCore.init 190) false) 95 0
    ∧ (∀ j, ¬ MayBeCoupled { pairUp {} (PCore.init 190) false with lpct := [] } 95 j)
    ∧ ({ PCore.init 190 with pass := [(0, 5)] } : PCore).pass ≠ [] ∧ (pairUp {} (PCore.init 190) false).invBusy = false
    ∧ (getPair (pairUp { state := 1, en := true } { PCore.init 190 with halted := true } true) 95).state = 1 ∧ tilesQuiet (PCore.init 190) = true
    ∧ answersDue (pairUp { state := 1, en := true } { PCore.init 190 with halted := true } true) 190 = false
    ∧ (getPair (pairUp { state := 2 } (PCore.init 190) true) 95).en = false
    ∧ (getSlot (pairUp { state := 2, en := true } { PCore.init 190 with res := { slots := [(15, { slot0 with exchanging := true })] } } false) 190 15).exchanging = true
    ∧ (15, slotRsn (pairUp { state := 2, retry := [(15, 0)] } (PCore.init 190) true) 190 15)
      ∈ (getPair (pairUp { state := 2, retry := [(15, 0)] } (PCore.init 190) true) 95).retry
    ∧ (∀ k < 16, (getSlot (pairUp { state := 2, retry := [(15, 0)] } (PCore.init 190) true) 190 k).st = .empty) := by
  refine ⟨⟨by decide +kernel, by decide +kernel, by decide +kernel, by decide +kernel⟩, fun j h => absurd h.unnamed (by decide +kernel), by decide, rfl,
    by decide +kernel⟩

/-- A rollback that waits for the boundary, one that re-executes and has passed its exchange, and the first disagreement. -/
theorem witness_PairedCores_retry :
    (getPair (pairUp { state := 2, failed := some 15 } (PCore.init 190) false) 95).failed = some 15
    ∧ (getPair (pairUp { state := 2, retry := [(15, 0)] } (PCore.init 190) false) 95).retry.find? (fun e => e.1 = 15) = some (15, 0)
    ∧ (0#32).toNat ≤ (slotRsn (pairUp { state := 2, retry := [(15, 0)] } (PCore.init 190) false) 190 15).toNat
    ∧ (getPair (pairUp { state := 2 } (PCore.init 190) true) 95).disag ≠ BitVec.allOnes 16
    ∧ (getCore (pairUp { state := 2 } (PCore.init 190) true) 190).pass = []
    ∧ ({ PCore.init 190 with pass := [(0, 5)] } : PCore).pass ≠ [] := by decide +kernel

/-! ### Resets, power, the journal, the machine -/

/-- A start whose step 1 fails, one that succeeds; records of the boot journal of an earlier start. -/
theorem witness_ModuleResets :
    ({ State.reset with input := { bytes := [0, 1] } } : State).input.bytes.getD 1 0 = 1
    ∧ State.reset.input.bytes = [] ∧ State.reset.input.flag = false ∧ State.reset.errQueue = [] ∧ State.reset.input.pairs = []
    ∧ (∀ e ∈ State.reset.bootJournal, bits e 127 96 + 1 ≠ (State.reset.starts + 1).toNat ∨ bits e 87 80 ≠ 1) := by
  refine ⟨rfl, rfl, rfl, rfl, rfl, ?_⟩
  intro e he
  cases he

/-- Cluster 23 with and without power; an entry that waits beside the ring of a core; slots that wait, park and run. -/
theorem witness_ClusterPower :
    (getCluster { State.reset with clusters := [(23, { getCluster State.reset 23 with powered := false })] } 23).powered = false
    ∧ (getCluster State.reset 23).powered = true ∧ (getCluster State.reset 23).droop = false
    ∧ (let c : PCore := { PCore.init 184 with ring := [7], shadow := [5], res := { slots := [(0, { slot0 with st := .waiting }),
         (1, { slot0 with st := .parked, park := .room }), (2, { slot0 with st := .parked, park := .idle }), (3, slot0)] } }
       c.ring.length + c.shadow.length ≤ 16384 ∧ (mget c.res.slots 0).map (fun x => x.st) = some .waiting
       ∧ (mget c.res.slots 1).map (fun x => (x.st, decide (x.park = .idle))) = some (.parked, false)
       ∧ (mget c.res.slots 2).map (fun x => (x.st, decide (x.park = .idle))) = some (.parked, true)
       ∧ (mget c.res.slots 3).map (fun x => x.st) = some .active) := by decide +kernel

def keyX : Nat := 0x60FED4BA255A9D31C961EB74C6356D68C049B8923B61FA6CE669622E60F29FB6
def keyY : Nat := 0x7903FE1008B8BC99A41AE9E95628BC64F2F1B20C2D7E9F5177A3C294D4462299
def sample : List Byte := [0x73, 0x61, 0x6D, 0x70, 0x6C, 0x65]

/-- The digest and the signature of FIPS 186-5's example key and message, as RFC 6979 (A.2.5, P-256, SHA-256, "sample") prints them. -/
theorem test_signature :
    sha256 sample = 0xAF2BDBE1AA9B6EC1E2ADE1D694F41FC71A831D0268E9891562113D8A62ADD1BF
    ∧ ecdsaVerifies keyX keyY 0xAF2BDBE1AA9B6EC1E2ADE1D694F41FC71A831D0268E9891562113D8A62ADD1BF
      0xEFD48B2AACB6A8FD1140DD9CD45E81D69D2C877B56AAF991C34D0EA84EAF3716
      0xF7CB1C942D657C41D436C7A1B6E29F65F3E900DBB9AFF4064DC4AB2F843ACDA8 = true := by decide +kernel

/-- The fuses of a module that takes that key; images of six bytes in the flash. -/
def fused (revoked : BitVec 4) : State :=
  let image := [(keyX, keyY), (0xEFD48B2AACB6A8FD1140DD9CD45E81D69D2C877B56AAF991C34D0EA84EAF3716,
    0xF7CB1C942D657C41D436C7A1B6E29F65F3E900DBB9AFF4064DC4AB2F843ACDA8), (6 * 2 ^ 32, leNat sample)]
  { State.reset with keyHashes := [sha256 (beBytes 32 keyX ++ beBytes 32 keyY)], keyRevoked := revoked, input := { pairs := image ++ image } }

theorem witness_ModuleResets_images :
    natBytes (6 * 2 ^ 32 / 2 ^ 32) (leNat sample) = sample
    ∧ Spec.Accepted (fused 0) keyX keyY 0xEFD48B2AACB6A8FD1140DD9CD45E81D69D2C877B56AAF991C34D0EA84EAF3716
      0xF7CB1C942D657C41D436C7A1B6E29F65F3E900DBB9AFF4064DC4AB2F843ACDA8 (6 * 2 ^ 32 % 2 ^ 32) sample
    ∧ ¬ Spec.Accepted (fused 1) keyX keyY 0xEFD48B2AACB6A8FD1140DD9CD45E81D69D2C877B56AAF991C34D0EA84EAF3716
      0xF7CB1C942D657C41D436C7A1B6E29F65F3E900DBB9AFF4064DC4AB2F843ACDA8 (6 * 2 ^ 32 % 2 ^ 32) sample := by
  refine ⟨by decide +kernel, ⟨⟨0, by decide, rfl, by decide +kernel⟩, by decide +kernel, ?_⟩, fun h => ?_⟩
  · rw [test_signature.1]
    exact test_signature.2
  · obtain ⟨i, hi, hk, hr⟩ := h.key
    match i, hi with
    | 0, _ => exact absurd hr (by decide +kernel)
    | i + 1, _ => exact absurd hk (by simp [fused])


/-- The ring of core 0 ends in the middle of an instruction, after a write of g31 of slot 15 that ended one. -/
def cutRing : State :=
  { State.reset with
    clusters := [(0, { getCluster State.reset 0 with powered := false })]
    cores := [(0, { PCore.init 0 with ring := [BitVec.ofNat 256 (15 * 2 ^ 196 + 2 ^ 191 + 31 * 2 ^ 160 + 9 * 2 ^ 64), 3] })] }

theorem witness_ClusterPower_resume :
    let e := BitVec.ofNat 256 (15 * 2 ^ 196 + 2 ^ 191 + 31 * 2 ^ 160 + 9 * 2 ^ 64)
    let f := (foldRing { getCore cutRing 0 with ring := [e] } 1).baseRes
    cutRing.input.pairs = [] ∧ (getCluster cutRing 0).powered = false ∧ (getCore cutRing 0).ring = [e] ++ [3]
    ∧ e.getLsbD 191 = true ∧ (3 : BitVec 256).getLsbD 191 = false ∧ (3 : BitVec 256).getLsbD 187 = false
    ∧ (∀ p, p ≠ 0 → getCore cutRing p = PCore.init p) ∧ (∀ k, (ctxSlot (PCore.init 1).baseRes k).frame.v = false)
    ∧ (∀ p k, (getSlot cutRing p k).st ≠ .starting)
    ∧ (∀ k, k < 16 → (ctxSlot f k).frame.v = false ∧ (ctxSlot f k).frameUrg.v = false) := by
  have other : ∀ p, p ≠ 0 → getCore cutRing p = PCore.init p := fun p h => by simp [getCore, cutRing, mget, Ne.symm h]
  refine ⟨rfl, by decide +kernel, rfl, by decide +kernel, by decide +kernel, by decide +kernel, other, fun _ => rfl, fun p k => ?_, by decide +kernel⟩
  by_cases h : p = 0
  · subst h; exact fun h => nomatch h
  · rw [getSlot, other p h]; exact fun h => nomatch h

/-- A ring of one whole instruction: a write of g31 of slot 15; room for one more entry. -/
def journalled : PCore := { PCore.init 0 with ring := [BitVec.ofNat 256 (15 * 2 ^ 196 + 2 ^ 191 + 31 * 2 ^ 160 + 9 * 2 ^ 64)], ringPos := 1, shadow := [5] }

theorem witness_Journal :
    journalled.shadow = [5] ∧ journalled.ring.length < 16384 ∧ journalled.ring.length ≤ journalled.ringPos
    ∧ pairCoupled { State.reset with cores := [(0, journalled)] } 0 = false
    ∧ journalled.ring = [] ++ BitVec.ofNat 256 (15 * 2 ^ 196 + 2 ^ 191 + 31 * 2 ^ 160 + 9 * 2 ^ 64) :: []
    ∧ (BitVec.ofNat 256 (15 * 2 ^ 196 + 2 ^ 191 + 31 * 2 ^ 160 + 9 * 2 ^ 64)).getLsbD 191 = true
    ∧ bits (BitVec.ofNat 256 (15 * 2 ^ 196 + 2 ^ 191 + 31 * 2 ^ 160 + 9 * 2 ^ 64)) 199 196 = 15
    ∧ (∀ e ∈ (PCore.init 0).ring, e.getLsbD 191 = false) := by
  refine ⟨rfl, by decide, by decide, by decide +kernel, rfl, by decide +kernel, by decide +kernel, ?_⟩
  intro e he
  cases he

/-! ### Events -/

theorem pair_of_fst {α : Type} (x : Bool × α) (h : x.1 = true) : x = (true, x.2) := by
  cases x
  subst h
  rfl

/-- The conditions of an event of `i` are met in `s`. -/
def Happens (s : State) (i : Instr) : Prop := ∃ t, Spec.Event s i t

/-- Events of the scan, of switches, of the Mortar unit and of the engines, each at the state of its own statement. -/
theorem witness_EventsComplete :
    Happens (scanningNow .complete) .scanBoundary ∧ Happens { State.reset with latching := true } .inputLatchComplete
    ∧ Happens (switching .due true none) .gangStop ∧ Happens (switching .stopped true none) .gangSaveDrained
    ∧ Happens (switching .drained false none) .gangRestoreDone
    ∧ Happens { scanningNow .opened with input := { n := 5 } } .texpExpiry
    ∧ Happens { State.reset with stopPending := true } .scanStopTakesEffect
    ∧ Happens { State.reset with invBusy := true } .invalComplete
    ∧ Happens (mortared (appended 1 0xFF 0) true) .mortarRecordAppend ∧ Happens (mortared (appended 1 0xFF 0) true) .mortarWriteRetry
    ∧ Happens (hods (transfer 0 false []) []) .hodTransferStart ∧ Happens (hods (transfer 1 true []) []) .hodTransferEnd :=
  ⟨⟨_, .scanBoundary ⟨rfl, rfl, by decide +kernel⟩⟩, ⟨_, .inputLatchComplete rfl⟩,
   ⟨_, .gangStopLast _ _ ⟨rfl, rfl, by decide, by decide, rfl, rfl, by decide +kernel, by decide +kernel, rfl, by decide +kernel⟩⟩,
   ⟨_, .gangSave _ _ ⟨rfl, rfl, by decide +kernel, rfl⟩⟩, ⟨_, .gangRestoreDone _ _ ⟨rfl, rfl, rfl⟩⟩,
   ⟨_, .texpExpiry (rtJob .opened) ⟨by decide +kernel, rfl, by decide +kernel⟩⟩, ⟨_, .scanStopTakesEffect ⟨rfl, by decide +kernel⟩⟩,
   ⟨_, .invalComplete ⟨rfl, by decide +kernel⟩⟩, ⟨_, .mortarRecordAppend (by decide +kernel)⟩, ⟨_, .mortarWriteRetry (by decide +kernel)⟩,
   ⟨_, .hodTransferStart (transfer 0 false []) ⟨by decide +kernel, rfl, by decide +kernel, by decide +kernel, by decide +kernel, by decide +kernel, by decide +kernel⟩⟩,
   ⟨_, .hodTransferEnd (transfer 1 true []) ⟨by decide +kernel, .inr (by decide +kernel)⟩⟩⟩

/-- Events of clocks, power, debug, faults and the pair at reset or next to it; each limit of an index is met. -/
theorem witness_EventsComplete_chip :
    Happens { State.reset with input := { n := 191 } } .lpctWrite ∧ Happens { State.reset with input := { n := 127 } } .quotaWrite
    ∧ Happens { State.reset with input := { n := 127, k := 3 } } .mortarDescWrite ∧ Happens { State.reset with input := { n := 7 } } .frameArrival
    ∧ Happens (sending 101000 false true) .outputFreeze ∧ Happens (sending 103000 true true) .outputTransmit
    ∧ Happens { sending 103000 true true with gates := [(63, { getGate (sending 103000 true true) 63 with sent := [0] })] } .outputTransmit
    ∧ Happens (clocked { getCluster State.reset 23 with req := 2 } false) .ratioChangeStart ∧ Happens (clocked (getCluster State.reset 23) false) .droopTrip
    ∧ Happens (clocked { getCluster State.reset 23 with droop := true, inj := true, closed := [(0, 60)], limited := 2 } false) .droopLimit
    ∧ Happens (clocked { getCluster State.reset 23 with droop := true, inj := true, closed := [(0, 63)] } false) .droopRestored
    ∧ Happens (clocked (getCluster State.reset 23) false) .stretchWindowEnd
    ∧ Happens (moving true) .thermalMigration ∧ Happens { State.reset with input := { n := 191 } } .heartbeatWrite
    ∧ Happens (noticed []) .faultNotice ∧ Happens { State.reset with input := { n := 31 } } .retireBlock
    ∧ Happens { State.reset with input := { k := 512 } } .retireCopyDone ∧ Happens { State.reset with input := { k := 511 } } .retireCopyDone
    ∧ Happens (pairUp { state := 2 } (PCore.init 190) false) .fingerprintExchange
    ∧ Happens { State.reset with cores := [(0, journalled)] } .journalDrain
    ∧ Happens { State.reset with input := { n := 191, k := 15 } } .killTask
    ∧ Happens { State.reset with input := { n := 191, k := 0x3FFF8 } } .debugWindowWrite
    ∧ Happens { State.reset with pair := { link := true } } .partnerResetSignal
    ∧ Happens (workplace [] [] {}) .slotTakeWork ∧ Happens (workplace [frameOf 0] [] {}) .slotTakeWork :=
  ⟨⟨_, .lpctWrite (by decide)⟩, ⟨_, .quotaWrite (by decide)⟩, ⟨_, .mortarDescWrite (by decide)⟩, ⟨_, .frameArrival (by decide)⟩,
   ⟨_, .outputFresh _ _ ⟨rfl, ⟨by decide +kernel, by decide⟩, rfl, by decide +kernel, by decide +kernel, rfl⟩⟩,
   ⟨_, .outputFirst _ _ ⟨rfl, ⟨by decide +kernel, by decide⟩, by decide +kernel, rfl, by decide, by decide +kernel, by decide +kernel, rfl, rfl, by decide +kernel, rfl⟩⟩,
   ⟨_, .outputSend _ _ ⟨rfl, ⟨by decide +kernel, by decide⟩, by decide +kernel, rfl, by decide, by decide +kernel, by decide +kernel, by decide +kernel,
     by decide +kernel, by decide +kernel, rfl, rfl⟩⟩,
   ⟨_, .ratioChangeStart ⟨by decide +kernel, by decide +kernel⟩⟩, ⟨_, .droopTrip ⟨by decide +kernel, by decide +kernel⟩⟩,
   ⟨_, .droopLimit ⟨by decide +kernel, by decide +kernel, by decide +kernel⟩⟩, ⟨_, .droopRestored ⟨by decide +kernel, by decide +kernel, by decide +kernel⟩⟩,
   ⟨_, .stretchWindowEnd (by decide +kernel)⟩,
   ⟨_, .thermalMigration 0 1 (by decide +kernel)⟩, ⟨_, .heartbeatWrite (by decide)⟩, ⟨_, .faultNotice _ _ _ _ _ _ rfl⟩,
   ⟨_, .retireBlock (by decide)⟩, ⟨_, .retireCopied ⟨by decide +kernel, by decide⟩⟩, ⟨_, .retireCopy ⟨by decide +kernel, by decide⟩⟩,
   ⟨_, .fingerprintExchange (by decide +kernel)⟩, ⟨_, .journalDrain 5 [] ⟨rfl, rfl⟩⟩, ⟨_, .killTask (by decide)⟩, ⟨_, .debugWindowWrite (by decide)⟩,
   ⟨_, .partnerResetSignal rfl⟩,
   ⟨_, .takeSteal 0 0 0 _ _ ⟨⟨⟨rfl, rfl, by decide⟩, ⟨rfl, by decide +kernel⟩, by decide +kernel, by decide +kernel⟩, by decide +kernel, by decide +kernel, rfl, rfl, rfl,
     rfl, rfl⟩⟩,
   ⟨_, .takeRun 0 0 0 (fromRun (workplace [frameOf 0] [] {}) 0 0 0 none).2 ⟨⟨⟨rfl, rfl, by decide⟩, ⟨rfl, by decide +kernel⟩, by decide +kernel, by decide +kernel⟩, by decide +kernel, by decide +kernel, rfl, rfl,
     pair_of_fst _ (by decide +kernel)⟩⟩⟩

/-- The arbiter at reset is free; an invalidation under way holds the next one, and what comes after it. -/
theorem witness_EventsComplete_commands :
    (∀ i nf o bs, Spec.Command State.reset i nf o bs → Happens State.reset i)
    ∧ Happens { State.reset with invBusy := true } .invalStart
    ∧ Happens { State.reset with invBusy := true, arbWait := [(1, 0xE0, 0x1308, [])] } .scanStart :=
  ⟨fun i nf o bs h => ⟨_, .command i nf o bs ⟨h, rfl, fun w => w.elim (fun h => absurd h.2 (by decide)) fun h => absurd h.2 (by decide)⟩⟩,
   ⟨_, .commandWaits _ _ _ _ ⟨.invalStart, rfl, .inl ⟨rfl, rfl⟩⟩⟩, ⟨_, .commandQueued _ _ _ _ 1 [] [] ⟨.scanStart, .inl ⟨rfl, rfl⟩⟩⟩⟩

/-- An error found by the scrub in each memory, a stop that comes, the end of a retirement, a disagreement of a pair. -/
theorem witness_EventsComplete_errors :
    Happens { State.reset with input := { n := 191, k := 2 ^ 25 - 1, v := 1 } } .patrolScrub
    ∧ Happens { State.reset with input := { n := 191, k := 2 ^ 25 } } .patrolScrub
    ∧ Happens { State.reset with input := { n := 0x11F, k := 0x1FFC0 } } .patrolScrub
    ∧ Happens { State.reset with input := { n := 0x11F, k := 2 ^ 40 + 0x1FFC0 } } .patrolScrub ∧ Happens { State.reset with input := { n := 0x260 } } .patrolScrub
    ∧ Happens { State.reset with net := [.watchStop 191 0] } .watchStopArrive ∧ Happens { State.reset with errQueue := [5] } .errorRecord
    ∧ Happens { State.reset with nodes := [(0, { migration := some { src := 1, dst := 2, switching := true } })] } .retireCopyDone
    ∧ Happens (pairUp { state := 2 } (PCore.init 190) true) .fingerprintExchange :=
  ⟨⟨_, .patrolScrub ⟨by decide, by decide⟩⟩, ⟨_, .patrolScrubTlb ⟨by decide, by decide⟩⟩, ⟨_, .patrolScrubMemory 31 (by decide +kernel)⟩,
   ⟨_, .patrolScrubSlice 31 0x1FFC0 (by decide +kernel)⟩, ⟨_, .patrolScrubImage rfl⟩, ⟨_, .watchStopArrive 191 0 ⟨rfl, by decide +kernel⟩⟩,
   ⟨_, .errorRecord 5 [] rfl⟩, ⟨_, .retireCopyDone (by decide +kernel)⟩, ⟨_, .fingerprintsDiffer 15 ⟨by decide +kernel, by decide, .inr ⟨by decide +kernel, rfl, rfl⟩⟩⟩⟩

/-- The first turn of a placed ADDI g1, g0, 5. -/
def placed : State := State.reset.withFetchWord 32 0x08200005

theorem witness_StepRunsInstruction :
    placed.bootFailed = false ∧ placed.agenda = [.core 0] ∧ mayIssue placed 0 = true
    ∧ (nextIssue (getCore (settle { placed with agenda := [] } 0 (getCore placed 0).cc) 0)).map (fun x => x.1) = some 0
    ∧ (getSlot placed 0 0).st = .active ∧ (getSlot placed 0 0).exchanging = false ∧ (getSlot placed 0 0).urgents = []
    ∧ stopDue placed 0 0 = false ∧ taskCancelled placed (getSlot placed 0 0) = false
    ∧ (issueWord placed 0 0).toOption.map (fun x => x.1) = some 0x08200005
    ∧ (curFrame (getSlot placed 0 0)).v = false ∧ addrCode { placed with who := (0, 0) } .fetch (getSlot placed 0 0).pc 4 = none := by
  decide +kernel

/-- A start that failed waits for another start or a loss of power; another event and a core's turn find it in reset. -/
theorem witness_StepRunsInstruction_failed :
    let s : State := { State.reset with bootFailed := true, agenda := [.core 0] }
    ∀ a r, s.agenda ≠ .event .moduleReset a :: r ∧ s.agenda ≠ .event .modulePowerLoss a :: r :=
  fun _ _ => ⟨(fun h => nomatch h), fun h => nomatch h⟩

/-- The turn of a hart on ADDI x1, x0, 5, and of an event; a machine with an empty agenda. -/
theorem witness_StepRunsInstruction_others :
    (hartWord { State.reset.withFetchWord 32 0x0000052B with agenda := [], hartId := 0 }).toOption.isSome = true
    ∧ ({ State.reset with agenda := [.event .pcieLinkTrained {}] } : State).bootFailed = false
    ∧ (match exec .pcieLinkTrained { State.reset with agenda := [] } with
      | .next t => decide (overfilled State.reset t = []) | _ => false) = true
    ∧ State.reset.agenda = [] ∧ State.reset.bootFailed = false ∧ ({ State.reset with bootFailed := true } : State).bootFailed = true := by
  refine ⟨by decide +kernel, rfl, by decide +kernel, rfl, rfl, rfl⟩

theorem witness_MemoryReadsBack : Memory.wf [⟨0, 1⟩, ⟨2 ^ 39 - 1, 255⟩] := by decide +kernel

theorem witness_StepsKeepMemory : MemInv State.reset ∧ (∃ t, step { State.reset with agenda := [.event .pcieLinkTrained {}] } = .next t) := by
  refine ⟨by unfold MemInv; decide +kernel, ⟨_, rfl⟩⟩

/-! ### Worked examples of the manual -/

/-- Words of the manual's listings (R258, R282, R312, R324, R326, R429). -/
theorem test_decode_listings : ([
    (0x24800100#32, .li 4 0x100), (0x2C9FC000#32, .lih 4 0x1FC000), (0x80E4F300#32, .ld 7 4 30 .d 0), (0x04A53800#32, .add 5 5 7),
    (0x08840008#32, .addi 4 4 8), (0x08C6FFFF#32, .addi 6 6 0xFFFF), (0x44C0FFFC#32, .bne 6 0 0xFFFC), (0x84A4F300#32, .st 5 4 30 .d 0),
    (0xE0000080#32, .finish), (0x8464F201#32, .st 3 4 30 .w 1), (0xC48110C0#32, .fma 4 1 2 3 .f32), (0xC0A11002#32, .fmul 5 1 2 .f32),
    (0xC0C51800#32, .fadd 6 5 3 .f32), (0xD589E898#32, .vqnt 6 2 7 .fp4 1 .bf16), (0xD8400000#32, .vradd 1 0 0 .f32),
    (0x206400BF#32, .srai 3 4 63), (0x38E801CC#32, .bfi 7 8 7 12), (0x01290280#32, .purge 9 9 false), (0x59200003#32, .bful 9 3),
    (0x00000200#32, .idle), (0x63FFFFFE#32, .j 0x3FFFFFE), (0x05490000#32, .add 10 9 0), (0x30854780#32, .addpc 4 0x54780),
    (0x2880091A#32, .lim 4 0x91A), (0x2C800000#32, .lih 4 0), (0xD4C4A806#32, .vcvt 3 1 false 2 .fp4 0 .f32)] : List (BitVec 32 × Instr)).all
      (fun x => decide ((decode x.1).toOption = some x.2)) = true := by decide +kernel

/-- The hart's words of R221. -/
theorem test_decode_hart_listing : decodeScan 0x0000052B = some (.wscan 10) ∧ decodeScan 0x0404858B = some (.imlw 11 9 0x40)
    ∧ decodeScan 0x00B4900B = some (.omsw 11 9 0) := by decide +kernel

/-- Words that the map leaves unassigned: a function code, a major opcode, a reserved bit, a reserved type, lengths past bit 63. -/
theorem test_decode_refuses : ([0x0443181F, 0x3C000000, 0x00000001, 0x38E801FF, 0xC4811FCF, 0xFFFFFFFF] : List (BitVec 32)).all
    (fun w => decide ((decode w).toOption = none)) = true := by decide +kernel

/-- What holds of the state that an instruction of slot 0 leaves. -/
def leaves (i : Instr) (s : State) (f : State → Bool) : Bool :=
  match exec i s with
  | .next t => f t
  | _ => false

/-- The slot after it. -/
def slotAfter (i : Instr) (s : State) (f : Slot → Bool) : Bool := leaves i s fun t => f (getSlot t 0 0)

/-- g1 = 1 + 2^-13, g2 = 1 − 2^-13, g3 = −1.0, g5 = 1.0 of the example at R283. -/
def fpExample (frm : BitVec 6) : State :=
  one { slot0 with frm := frm, g := [(1, { val := 0x3F800400 }), (2, { val := 0x3F7FF800 }), (3, { val := 0xBF800000 }), (5, { val := 0x3F800000 })] }

theorem test_fused_is_exact : slotAfter (.fma 4 1 2 3 .f32) (fpExample 0) (fun sl => (gCell sl 4).val == 0xB2800000 && sl.fflg == 0) = true := by decide +kernel
theorem test_fmul_rounds : slotAfter (.fmul 5 1 2 .f32) (fpExample 0) (fun sl => (gCell sl 5).val == 0x3F800000 && sl.fflg == 1) = true
    ∧ slotAfter (.fmul 5 1 2 .f32) (fpExample 2) (fun sl => (gCell sl 5).val == 0x3F7FFFFF) = true := by decide +kernel
theorem test_fadd_zero_sign : slotAfter (.fadd 6 5 3 .f32) (fpExample 0) (fun sl => (gCell sl 6).val == 0 && sl.fflg == 0) = true
    ∧ slotAfter (.fadd 6 5 3 .f32) (fpExample 2) (fun sl => (gCell sl 6).val == 0x80000000) = true := by decide +kernel

/-- v2 holds 3.0, −0.75 and 10.0 in bf16 (R323); v0 holds 2^24, 1, 1, −2^24 in f32 (R329); v6 and v7 all ones. -/
def vecExample : State :=
  one { slot0 with v := [(0, { val := 0xCB8000003F8000003F8000004B800000 }), (2, { val := 0x4120BF404040 }), (6, { val := BitVec.allOnes 512 }), (7, { val := BitVec.allOnes 512 })] }

/-- FFLG gains NX alone, as the worked example of R324 shows (log 67). -/
theorem test_vqnt : slotAfter (.vqnt 6 2 7 .fp4 1 .bf16) vecExample (fun sl =>
    (vCell sl 6).val == ((BitVec.allOnes 512 <<< 256) ||| (0x0693#512 <<< 128) ||| (BitVec.allOnes 128).setWidth 512)
      && (vCell sl 7).val == (BitVec.allOnes 512 ^^^ 0x7F00#512) && sl.fflg == 1) = true := by decide +kernel

theorem test_vdqnt : slotAfter (.vdqnt 9 6 7 .fp4 1 .bf16) (one { slot0 with v := [(6, { val := 0x0693#512 <<< 128 }), (7, { val := 0x8000 })] })
    (fun sl => (vCell sl 9).val == 0x4100BF804040) = true := by decide +kernel

theorem test_vradd_tree : slotAfter (.vradd 1 0 0 .f32) vecExample
    (fun sl => (vCell sl 1).val.extractLsb' 0 32 == 0x3F800000#32 && sl.fflg == 1) = true := by decide +kernel

/-- A fault: the slot freezes, and the record has CLASS 0, CODE `code`, SEV 2 and ADDR (R416, R420). -/
def faultsAt (i : Instr) (s : State) (code : Nat) (addr : Word) : Bool := leaves i s fun t =>
  decide ((getSlot t 0 0).st = .frozen) && decide ((getSlot t 0 0).cause = 1) && decide ((getSlot t 0 0).pc = (me s).pc)
    && (match t.errQueue with
      | [e] => decide (bits e 24 21 = 0) && decide (bits e 32 25 = code) && decide (bits e 20 19 = 2) && decide (bits e 191 128 = addr.toNat)
      | _ => false)

theorem test_jalr_misaligned : faultsAt (.jalr 0 31 2) (one { slot0 with g := [(31, { val := 0x1000 })] }) 0x03 0x1002 = true
    ∧ slotAfter (.jalr 0 31 2) (one { slot0 with g := [(31, { val := 0x1002 })] }) (fun sl => sl.pc == 0x1004) = true := by decide +kernel

/-- The slot of R447: local-store units 8 to 31 with RD and WR. -/
def storeExample (g4 : Cell 64) (g3 : Cell 64) : State :=
  { State.reset with cores := [(0, { PCore.init 0 with res := {
      slots := [(0, { slot0 with g := [(3, g3), (4, g4)] })]
      regions := [{ job := 0, pregs := [BitVec.ofNat 64 (7 * 2 ^ 61 + 31 * 2 ^ 16 + 8)] }] } })] }

/-- The rows of R447. -/
theorem test_store_outcomes :
    slotAfter (.st 3 4 30 .w 1) (storeExample { val := 0, full := false } { val := 0, full := false }) (fun sl => sl.st == .parked && sl.park == .reg false 4) = true
    ∧ slotAfter (.st 3 4 30 .w 1) (storeExample { val := 0xFF00000000000400 } { val := 0, full := false }) (fun sl => sl.st == .parked && sl.park == .reg false 3) = true
    ∧ faultsAt (.st 3 4 30 .w 1) (storeExample { val := 0xFF00000000100002, psn := true } {}) 0x05 0xFF00000000100006 = true
    ∧ faultsAt (.st 3 4 30 .w 1) (storeExample { val := 0x0101000000000400 } {}) 0x02 0x0101000000000404 = true
    ∧ faultsAt (.st 3 4 30 .w 1) (storeExample { val := 0xFF00000000040000 } {}) 0x02 0xFF00000000040004 = true
    ∧ faultsAt (.st 3 4 30 .w 1) (storeExample { val := 0xFF00000000100002 } {}) 0x04 0xFF00000000100006 = true
    ∧ faultsAt (.st 3 4 30 .w 1) (storeExample { val := 0xFF00000000000402 } {}) 0x03 0xFF00000000000406 = true
    ∧ faultsAt (.st 3 4 30 .w 1) (storeExample { val := 0xFF00000000000080 } {}) 0x04 0xFF00000000000084 = true
    ∧ faultsAt (.st 3 4 30 .w 1) (storeExample { val := 0xFF00000000001C00 } {}) 0x04 0xFF00000000001C04 = true := by decide +kernel

/-- The row that is performed: the request carries the word with its poison, and the slot waits (R49). -/
theorem test_store_performed : leaves (.st 3 4 30 .w 1) (storeExample { val := 0xFF00000000000400 } { val := 0x12345678, psn := true }) (fun t =>
    decide ((getSlot t 0 0).st = .waiting) && (match t.net with
      | [.req _ r] => decide (r.act = .store) && decide (r.parts = [{ addr := 0xFF00000000000404, size := 4, data := [0x78, 0x56, 0x34, 0x12], psn := true }])
      | _ => false)) = true := by decide +kernel

/-- The walk of R98's example: job 70, four levels, a page of 64 KiB. -/
def walkExample : State :=
  { State.reset with
    jobs := [{ id := 70, pregs := [], windows := [], record := BitVec.ofNat 512 (1 * 2 ^ 152 + 70 * 2 ^ 33) }]
    mem := cellsAt 0x1000 (natBytes 8 (2 ^ 63 + 4)) ++ cellsAt (0x2000 + 8 * 258) (natBytes 8 (2 ^ 63 + 6)) ++ cellsAt 0x3000 (natBytes 8 (2 ^ 63 + 8))
      ++ cellsAt (0x4000 + 8 * 309) (natBytes 8 0xF000000002468AEF) }

theorem test_page_walk : (translate walkExample 21 70 0x4080135A88 true false false false).1.toOption = some 0x1234575A88
    ∧ homeNode 0x4080135A88 = 21 := by decide +kernel

/-- The packets of R192's example: 3, 2 and 3. -/
theorem test_hod_packets : (packetsOf [0, 0x40, BitVec.ofNat 64 (2 * 2 ^ 24 + 256), 320, 0, 0, 0, 0] 0x40).length = 8 := by decide +kernel

/-- Core (9, 5) is physical core 85 (R12). -/
theorem test_core_position : coreX 85 = 9 ∧ coreY 85 = 5 ∧ clusterOf 85 = 10 := by decide

/-- The two records of R154's example and the one of the replay example keep their check. -/
theorem test_mortar_checks : CheckHolds 0x6C01020A300170000000000000042000 ∧ CheckHolds 0xFD01020B500180000000000000042000
    ∧ CheckHolds 0x50503031100020010000000000000030 := by unfold CheckHolds; decide +kernel

end Sys2Proof.Tests
end

section
/-! Main memory right after module reset (log 2). -/

namespace Sys2Proof.Machine

/-- Module reset leaves main memory with no byte listed (R428, log 2). -/
@[simp] theorem State.reset_mem : State.reset.mem = [] := rfl

@[simp] theorem memByte_nil (a : Nat) : memByte [] a = unlisted := rfl

theorem Memory.wf_nil : Memory.wf [] := rfl

/-- The base case of the invariant: the empty list of cells is in canonical form. -/
theorem memInv_reset : MemInv State.reset := by
  unfold MemInv
  rw [State.reset_mem]
  exact Memory.wf_nil

theorem memByte_reset (a : Nat) : memByte State.reset.mem a = 0 := by
  rw [State.reset_mem, memByte_nil, unlisted]

/-- Settles O27: nothing is listed after reset, so the form is canonical and every byte reads as an unlisted one. -/
theorem resetMemory : Obligations.ResetMemory :=
  ⟨memInv_reset, memByte_reset⟩

end Sys2Proof.Machine
end

section
/-! What the module holds right after module reset (R428): each accessor gives the initial value of what it names. -/

namespace Sys2Proof.Machine

@[simp] theorem getCore_reset (p : Nat) : getCore State.reset p = PCore.init p := rfl
@[simp] theorem getSlot_reset (p n : Nat) : getSlot State.reset p n = {} := rfl
@[simp] theorem getCluster_reset (n : Nat) : getCluster State.reset n = Cluster.init n := rfl
@[simp] theorem getHart_reset (h : Nat) : getHart State.reset h = Hart.init h := rfl
@[simp] theorem lpctEntry_reset (n : Nat) : lpctEntry State.reset n = BitVec.ofNat 64 (2 ^ 15 + n) := rfl

/-- Every general register of a slot that nothing has written is 0, full and without poison (R50). -/
@[simp] theorem gCell_default (r : Nat) : gCell {} r = {} := by
  unfold gCell; split <;> rfl

@[simp] theorem vCell_default (r : Nat) : vCell {} r = {} := rfl

/-- Every slot is Empty, holds no urgent message, and its registers read 0 and full. -/
theorem slot_reset (p n : Nat) : (getSlot State.reset p n).st = .empty ∧ (getSlot State.reset p n).urgents = []
    ∧ (getSlot State.reset p n).lfsr = 1
    ∧ (∀ r, gCell (getSlot State.reset p n) r = { val := 0, full := true, psn := false })
    ∧ (∀ r, vCell (getSlot State.reset p n) r = { val := 0, full := true, psn := false }) :=
  ⟨rfl, rfl, rfl, gCell_default, vCell_default⟩

/-- Each logical core is held by the physical core of its own number (R101). -/
theorem physOf_reset {p : Nat} (hp : p < 192) : physOf State.reset p = p := by
  simp only [physOf, lpctEntry_reset, bits, BitVec.toNat_ofNat]
  omega

theorem lpctV_reset {p : Nat} (hp : p < 192) : lpctV State.reset p = true := by
  simp only [lpctV, lpctEntry_reset, tbit, BitVec.getLsbD, BitVec.toNat_ofNat, Nat.testBit_eq_decide_div_mod_eq,
    decide_eq_true_eq]
  omega

/-- The seed of the victim sequence, the core number plus 1, fits its register (R40). -/
theorem victim_init {p : Nat} (hp : p < 192) : (PCore.init p).victim.toNat = p + 1 :=
  Nat.mod_eq_of_lt (by omega)

/-- Job 0 is registered and no other job (R159). -/
theorem findJob_reset (j : Nat) : findJob State.reset j = if j = 0 then some Job.zero else none := by
  by_cases hj : j = 0
  · subst hj; rfl
  · simp [findJob, State.reset, Job.zero, hj, Ne.symm hj]

/-- Job 0 holds all clusters, slot 0 of their cores, and weight 1 (R159). -/
theorem jobZero_record : bits Job.zero.record 119 96 = 0xFFFFFF ∧ bits Job.zero.record 95 80 = 0x0001
    ∧ bits Job.zero.record 79 72 = 1 := by decide +kernel

/-- Settles O21: the tables of the reset state list nothing but job 0, so every accessor reads its initial value. -/
theorem resetValues : Obligations.ResetValues :=
  ⟨slot_reset,
    fun _ hp => ⟨physOf_reset hp, lpctV_reset hp, victim_init hp, rfl, rfl, rfl, rfl⟩,
    fun _ _ => ⟨rfl, rfl, rfl, rfl, rfl, rfl⟩,
    rfl, rfl, rfl, rfl, rfl, rfl, rfl, rfl, rfl, rfl, findJob_reset, jobZero_record, fun _ _ _ _ => rfl⟩

end Sys2Proof.Machine
end

section
/-! One rounding of a magnitude (R72): what is cut off, when the kept part goes up, and where the result lies. -/

namespace Sys2Proof.Machine

/-- Cutting m units of 2^e at a unit of 2^n of them keeps the quotient and compares the remainder with one half. -/
theorem cutAt_add (m n : Nat) (e : Int) :
    cutAt { m := m, e := e } (e + n) = (m / 2 ^ n, decide (m % 2 ^ n ≠ 0), compare (2 * (m % 2 ^ n)) (2 ^ n)) := by
  have hsh : e + (n : Int) - e = n := by omega
  cases n with
  | zero => simp [cutAt, Nat.mod_one, compare, compareOfLessAndEq]
  | succ n =>
    have hpos : ¬ ((n + 1 : Nat) : Int) ≤ 0 := by omega
    simp only [cutAt, hsh, if_neg hpos, Int.toNat_natCast, Bool.false_or, Bool.and_false, Bool.false_eq_true, if_false]

/-- RNE goes up above one half, and at one half to the even neighbour. -/
theorem roundsUp_nearestEven (neg odd inexact : Bool) (a b : Nat) :
    roundsUp 0 neg odd inexact (compare a b) = true ↔ b < a ∨ a = b ∧ odd = true := by
  rcases Nat.lt_trichotomy a b with h | h | h
  · simp [roundsUp, Nat.compare_eq_lt.2 h]; omega
  · simp [roundsUp, h]
  · simp [roundsUp, Nat.compare_eq_gt.2 h]; omega

/-- RNA goes up from one half on. -/
theorem roundsUp_nearestAway (neg odd inexact : Bool) (a b : Nat) :
    roundsUp 4 neg odd inexact (compare a b) = true ↔ b ≤ a := by
  rcases Nat.lt_trichotomy a b with h | h | h
  · simp [roundsUp, Nat.compare_eq_lt.2 h]; omega
  · simp [roundsUp, h]
  · simp [roundsUp, Nat.compare_eq_gt.2 h]; omega

/-- RTZ, RDN of a positive and RUP of a negative value keep the smaller magnitude. -/
theorem roundsUp_towardZero {rm : Nat} {neg : Bool} (h : rm = 1 ∨ (rm = 2 ∧ neg = false) ∨ (rm = 3 ∧ neg = true))
    (odd inexact : Bool) (c : Ordering) : roundsUp rm neg odd inexact c = false := by
  rcases h with rfl | ⟨rfl, rfl⟩ | ⟨rfl, rfl⟩ <;> rfl

/-- RDN of a negative and RUP of a positive value go up whenever something is cut off. -/
theorem roundsUp_awayFromZero {rm : Nat} {neg : Bool} (h : (rm = 2 ∧ neg = true) ∨ (rm = 3 ∧ neg = false))
    (odd inexact : Bool) (c : Ordering) : roundsUp rm neg odd inexact c = inexact := by
  rcases h with ⟨rfl, rfl⟩ | ⟨rfl, rfl⟩ <;> rfl

/-- No mode goes up where nothing is cut off. -/
theorem roundsUp_exact (rm : Nat) (neg odd : Bool) : roundsUp rm neg odd false .lt = false := by
  unfold roundsUp; split <;> simp

/-- Whether rounding m units to a whole number of 2^n of them goes up. -/
def goesUp (rm : Nat) (neg : Bool) (m n : Nat) : Bool :=
  roundsUp rm neg (decide (m / 2 ^ n % 2 = 1)) (decide (m % 2 ^ n ≠ 0)) (compare (2 * (m % 2 ^ n)) (2 ^ n))

theorem goesUp_of_mod_eq_zero (rm : Nat) (neg : Bool) {m n : Nat} (h : m % 2 ^ n = 0) : goesUp rm neg m n = false := by
  have hlt : compare (2 * (m % 2 ^ n)) (2 ^ n) = .lt :=
    Nat.compare_eq_lt.2 (by rw [h, Nat.mul_zero]; exact Nat.two_pow_pos n)
  rw [goesUp, hlt, h]
  exact roundsUp_exact rm neg _

theorem roundAt_add (rm m n : Nat) (e : Int) (neg : Bool) : roundAt rm neg { m := m, e := e } (e + n) =
    (if goesUp rm neg m n = true then m / 2 ^ n + 1 else m / 2 ^ n, decide (m % 2 ^ n ≠ 0)) := by
  rw [roundAt, cutAt_add, goesUp]

/-- A magnitude that is a whole number of units is kept, under every mode. -/
theorem roundAt_self (rm m : Nat) (e : Int) (neg : Bool) : roundAt rm neg { m := m, e := e } e = (m, false) := by
  have h := roundAt_add rm m 0 e neg
  have hz : m % 2 ^ 0 = 0 := Nat.mod_one m
  rwa [goesUp_of_mod_eq_zero rm neg hz, hz, Int.natCast_zero, Int.add_zero, Nat.pow_zero, Nat.div_one] at h

/-- THE TWO NEIGHBOURS: the result is the one below, by the remainder r, or, where r is not 0, the one above. -/
theorem roundAt_add_cases (rm m n : Nat) (e : Int) (neg : Bool) :
    let k := (roundAt rm neg { m := m, e := e } (e + n)).1
    (goesUp rm neg m n = false ∧ k = m / 2 ^ n ∧ k * 2 ^ n + m % 2 ^ n = m)
    ∨ (goesUp rm neg m n = true ∧ m % 2 ^ n ≠ 0 ∧ k = m / 2 ^ n + 1 ∧ k * 2 ^ n + m % 2 ^ n = m + 2 ^ n) := by
  have hdiv : m / 2 ^ n * 2 ^ n + m % 2 ^ n = m := Nat.div_add_mod' m (2 ^ n)
  rw [roundAt_add]
  cases hup : goesUp rm neg m n with
  | false => exact .inl ⟨rfl, rfl, hdiv⟩
  | true =>
    have hne : m % 2 ^ n ≠ 0 := fun h => by simp [goesUp_of_mod_eq_zero rm neg h] at hup
    refine .inr ⟨rfl, hne, rfl, ?_⟩
    simp only [if_true, Nat.add_mul]
    omega

/-! ### The directions of the five modes -/

/-- Every mode takes one of the two neighbours: it moves by less than a unit. -/
theorem roundAt_within_unit (rm m n : Nat) (e : Int) (neg : Bool) :
    let k := (roundAt rm neg { m := m, e := e } (e + n)).1
    k * 2 ^ n < m + 2 ^ n ∧ m < k * 2 ^ n + 2 ^ n := by
  have hlt : m % 2 ^ n < 2 ^ n := Nat.mod_lt m (Nat.two_pow_pos n)
  rcases roundAt_add_cases rm m n e neg with ⟨-, -, hk⟩ | ⟨-, hne, -, hk⟩ <;> constructor <;> omega

/-- RNE takes a nearest neighbour, and of two the even one. -/
theorem roundAt_nearestEven (m n : Nat) (e : Int) (neg : Bool) :
    let k := (roundAt 0 neg { m := m, e := e } (e + n)).1
    2 * m ≤ 2 * (k * 2 ^ n) + 2 ^ n ∧ 2 * (k * 2 ^ n) ≤ 2 * m + 2 ^ n
      ∧ (2 * m = 2 * (k * 2 ^ n) + 2 ^ n ∨ 2 * (k * 2 ^ n) = 2 * m + 2 ^ n → k % 2 = 0) := by
  have hlt : m % 2 ^ n < 2 ^ n := Nat.mod_lt m (Nat.two_pow_pos n)
  have hup : goesUp 0 neg m n = true ↔ 2 ^ n < 2 * (m % 2 ^ n) ∨ 2 * (m % 2 ^ n) = 2 ^ n ∧ m / 2 ^ n % 2 = 1 := by
    rw [goesUp, roundsUp_nearestEven, decide_eq_true_iff]
  rcases roundAt_add_cases 0 m n e neg with ⟨hd, hq, hk⟩ | ⟨hu, -, hq, hk⟩
  · have hdown := mt hup.2 (Bool.eq_false_iff.1 hd)
    refine ⟨?_, ?_, ?_⟩ <;> omega
  · have hcut := hup.1 hu
    refine ⟨?_, ?_, ?_⟩ <;> omega

/-- RNA takes a nearest neighbour, and of two the one away from zero. -/
theorem roundAt_nearestAway (m n : Nat) (e : Int) (neg : Bool) :
    let k := (roundAt 4 neg { m := m, e := e } (e + n)).1
    2 * m < 2 * (k * 2 ^ n) + 2 ^ n ∧ 2 * (k * 2 ^ n) ≤ 2 * m + 2 ^ n := by
  have hlt : m % 2 ^ n < 2 ^ n := Nat.mod_lt m (Nat.two_pow_pos n)
  have hup : goesUp 4 neg m n = true ↔ 2 ^ n ≤ 2 * (m % 2 ^ n) := roundsUp_nearestAway ..
  rcases roundAt_add_cases 4 m n e neg with ⟨hd, -, hk⟩ | ⟨hu, -, -, hk⟩
  · have hdown := mt hup.2 (Bool.eq_false_iff.1 hd)
    constructor <;> omega
  · have hcut := hup.1 hu
    constructor <;> omega

theorem roundAt_towardZero {rm : Nat} {neg : Bool} (h : rm = 1 ∨ (rm = 2 ∧ neg = false) ∨ (rm = 3 ∧ neg = true))
    (m n : Nat) (e : Int) : (roundAt rm neg { m := m, e := e } (e + n)).1 * 2 ^ n ≤ m := by
  have hd : goesUp rm neg m n = false := roundsUp_towardZero h ..
  rcases roundAt_add_cases rm m n e neg with ⟨-, -, hk⟩ | ⟨hu, -, -, -⟩
  · omega
  · exact absurd (hd.symm.trans hu) Bool.false_ne_true

theorem roundAt_awayFromZero {rm : Nat} {neg : Bool} (h : (rm = 2 ∧ neg = true) ∨ (rm = 3 ∧ neg = false))
    (m n : Nat) (e : Int) : m ≤ (roundAt rm neg { m := m, e := e } (e + n)).1 * 2 ^ n := by
  have hlt : m % 2 ^ n < 2 ^ n := Nat.mod_lt m (Nat.two_pow_pos n)
  have hup : goesUp rm neg m n = decide (m % 2 ^ n ≠ 0) := roundsUp_awayFromZero h ..
  rcases roundAt_add_cases rm m n e neg with ⟨hd, -, hk⟩ | ⟨-, -, -, hk⟩
  · have hr : m % 2 ^ n = 0 := by simpa using hup.symm.trans hd
    omega
  · omega

theorem roundingDirections : Spec.RoundingDirections := fun rm m n e neg _ =>
  ⟨by rw [roundAt_add, decide_eq_true_iff],
    (roundAt_within_unit rm m n e neg).1, (roundAt_within_unit rm m n e neg).2,
    fun h => h ▸ roundAt_nearestEven m n e neg, fun h => h ▸ roundAt_nearestAway m n e neg,
    fun h => roundAt_towardZero h m n e, fun h => roundAt_awayFromZero h m n e⟩

/-! ### Encodings of finite values (R65) -/

theorem FFmt.maxCode_lt (f : FFmt) : f.maxCode < 2 ^ f.eb * 2 ^ f.mb := by cases f <;> decide

/-- The exponent field of all ones is kept for infinities and NaNs where the format has infinities. -/
theorem FFmt.exponent_ne_top {f : FFmt} (hf : f.hasInf = true) {code : Nat} (h : code ≤ f.maxCode) :
    code / 2 ^ f.mb ≠ 2 ^ f.eb - 1 := by
  have htop : 0 < (2 ^ f.eb - 1) * 2 ^ f.mb := by cases f <;> decide
  rw [FFmt.maxCode, if_pos hf] at h
  exact Nat.ne_of_lt (Nat.div_lt_of_lt_mul (by rw [Nat.mul_comm]; omega))

theorem FFmt.signCode_eq (f : FFmt) (neg : Bool) : f.signCode neg = neg.toNat * 2 ^ f.eb * 2 ^ f.mb := by
  cases neg <;> simp [FFmt.signCode, Nat.pow_add]

section
variable {f : FFmt} {code : Nat} (neg : Bool) (h : code ≤ f.maxCode)
include h

theorem signBit_of_code : decide ((f.signCode neg + code) / 2 ^ (f.eb + f.mb) % 2 = 1) = neg := by
  have hlt : code < 2 ^ f.eb * 2 ^ f.mb := Nat.lt_of_le_of_lt h f.maxCode_lt
  rw [f.signCode_eq, Nat.pow_add, Nat.mul_assoc, Nat.add_comm,
    Nat.add_mul_div_right _ _ (Nat.mul_pos (Nat.two_pow_pos _) (Nat.two_pow_pos _)), Nat.div_eq_of_lt hlt]
  cases neg <;> rfl

theorem exponent_of_code : (f.signCode neg + code) / 2 ^ f.mb % 2 ^ f.eb = code / 2 ^ f.mb := by
  have hlt : code / 2 ^ f.mb < 2 ^ f.eb :=
    Nat.div_lt_of_lt_mul (by rw [Nat.mul_comm]; exact Nat.lt_of_le_of_lt h f.maxCode_lt)
  rw [f.signCode_eq, Nat.add_comm, Nat.add_mul_div_right _ _ (Nat.two_pow_pos _), Nat.add_mul_mod_self_right,
    Nat.mod_eq_of_lt hlt]

omit h in
theorem mantissa_of_code : (f.signCode neg + code) % 2 ^ f.mb = code % 2 ^ f.mb := by
  rw [f.signCode_eq, Nat.add_comm, Nat.add_mul_mod_self_right]

/-- The one NaN of fp8a lies above its largest finite value. -/
theorem not_fp8aNan : (decide (f = .fp8a) && decide ((f.signCode neg + code) % 128 = 127)) = false := by
  by_cases hf : f = .fp8a
  · subst hf
    have hmax : code ≤ 126 := h
    have hsign : FFmt.fp8a.signCode neg = 128 * neg.toNat := by cases neg <;> rfl
    have hne : (FFmt.fp8a.signCode neg + code) % 128 ≠ 127 := by omega
    simp [hne]
  · simp [hf]

/-- The value of a finite encoding: without hidden bit where the exponent field is 0, else with it. -/
theorem valOf_code : valOf f (f.signCode neg + code) =
    if code / 2 ^ f.mb = 0 then .fin neg (code % 2 ^ f.mb) (1 - (f.bias : Int) - (f.mb : Int))
    else .fin neg (2 ^ f.mb + code % 2 ^ f.mb) (((code / 2 ^ f.mb : Nat) : Int) - (f.bias : Int) - (f.mb : Int)) := by
  have htop : (f.hasInf && decide (code / 2 ^ f.mb = 2 ^ f.eb - 1)) = false := by
    cases hf : f.hasInf with
    | false => rfl
    | true => simp [FFmt.exponent_ne_top hf h]
  simp [valOf, signBit_of_code neg h, exponent_of_code neg h, mantissa_of_code, htop, not_fp8aNan neg h]

end

/-! ### Rounding a value of the format -/

/-- A magnitude whose own unit is the format's at its place, and that is in range, is its encoding; no flag rises. -/
theorem roundMag_of_unit (f : FFmt) (rm : Nat) (nsat neg : Bool) {m : Nat} {e : Int} (hm : m ≠ 0)
    (hq : ulpExp f (magOf m e).top = e) (hc : codeAt f m e ≤ f.maxCode) :
    roundMag f rm nsat neg (magOf m e) = (f.signCode neg + codeAt f m e, 0) := by
  have hr : roundAt rm neg (magOf m e) e = (m, false) := roundAt_self rm m e neg
  have hm' : (magOf m e).m ≠ 0 := hm
  simp [roundMag, hm', hq, hr, Nat.not_lt.2 hc]

/-- Below the smallest normal the unit is the least one. -/
theorem ulpExp_subnormal (f : FFmt) {m : Nat} (hm : m ≠ 0) (hlt : m < 2 ^ f.mb) :
    ulpExp f (magOf m (1 - (f.bias : Int) - (f.mb : Int))).top = 1 - (f.bias : Int) - (f.mb : Int) := by
  have hlog : m.log2 < f.mb := (Nat.log2_lt hm).2 hlt
  simp only [ulpExp, Mag.top, magOf]
  omega

/-- From the smallest normal on the leading bit stands f.mb places above the unit. -/
theorem ulpExp_normal (f : FFmt) {mant ex : Nat} (hlt : mant < 2 ^ f.mb) (hex : ex ≠ 0) :
    ulpExp f (magOf (2 ^ f.mb + mant) ((ex : Int) - (f.bias : Int) - (f.mb : Int))).top = (ex : Int) - (f.bias : Int) - (f.mb : Int) := by
  have hlog : (2 ^ f.mb + mant).log2 = f.mb :=
    (Nat.log2_eq_iff (by omega)).2 ⟨Nat.le_add_right _ _, by rw [Nat.pow_succ]; omega⟩
  simp only [ulpExp, Mag.top, magOf, hlog]
  omega

theorem codeAt_subnormal (f : FFmt) (k : Nat) : codeAt f k (1 - (f.bias : Int) - (f.mb : Int)) = k := by
  have hz : (1 - (f.bias : Int) - (f.mb : Int) + f.mb + f.bias - 1).toNat = 0 := by omega
  rw [codeAt, hz, Nat.zero_mul, Nat.zero_add]

theorem codeAt_normal (f : FFmt) {ex : Nat} (hex : ex ≠ 0) (mant : Nat) :
    codeAt f (2 ^ f.mb + mant) ((ex : Int) - (f.bias : Int) - (f.mb : Int)) = ex * 2 ^ f.mb + mant := by
  have hz : ((ex : Int) - (f.bias : Int) - (f.mb : Int) + f.mb + f.bias - 1).toNat = ex - 1 := by omega
  rw [codeAt, hz, ← Nat.add_assoc, ← Nat.succ_mul, Nat.succ_eq_add_one, Nat.sub_add_cancel (Nat.pos_of_ne_zero hex)]

theorem representableValuesKept : Spec.RepresentableValuesKept := by
  intro f rm nsat neg code h
  have hmant : code % 2 ^ f.mb < 2 ^ f.mb := Nat.mod_lt _ (Nat.two_pow_pos _)
  have hsplit : code / 2 ^ f.mb * 2 ^ f.mb + code % 2 ^ f.mb = code := Nat.div_add_mod' code _
  rw [valOf_code neg h]
  by_cases hex : code / 2 ^ f.mb = 0
  · have hcode : code % 2 ^ f.mb = code := by simpa [hex] using hsplit
    rw [hcode] at hmant
    rw [if_pos hex, hcode]
    by_cases hz : code = 0
    · subst hz; simp [roundVal, roundMag, magOf]
    · have hunit := roundMag_of_unit f rm nsat neg hz (ulpExp_subnormal f hz hmant)
      rw [codeAt_subnormal] at hunit
      exact hunit h
  · rw [if_neg hex]
    have hunit := roundMag_of_unit f rm nsat neg (by omega) (ulpExp_normal f hmant hex)
    rw [codeAt_normal f hex, hsplit] at hunit
    exact hunit h

/-- Settles O37: the kept part and the one above it are the two neighbours, each mode picks by the remainder, and the unit of a
value of the format is the format's own at its place. -/
theorem roundingIsNearest : Obligations.RoundingIsNearest :=
  ⟨roundingDirections, representableValuesKept⟩

end Sys2Proof.Machine
end
